-- ==== Sys2Proof/Word.lean ====
section
/-! DEFINITION. The word types of the part (00_scope.md R3): bytes, 32-bit words, 64-bit dwords, and the
96-bit masks that hold one bit for each strand of a sheet (R19). -/

namespace Sys2Proof

/-- A byte (R3). -/
abbrev Byte := BitVec 8
/-- A 32-bit data word (R3), the width of every V, S and Q register (R47). -/
abbrev Word := BitVec 32
/-- A 64-bit dword (R3): addresses, instruction words, register pairs. -/
abbrev DWord := BitVec 64
/-- One bit for each of the 96 strands of a sheet (R19, R47). -/
abbrev Mask := BitVec 96

end Sys2Proof
end

