-- ==== Sys2Proof/Syntax.lean ====
section
/-! DEFINITION. The steps of the part: every row of opcode_table.json is one constructor of `Instr`. A row that is
a body word carries the fields of its format (05_encodings.md R62, R66-R76), under the manual's names; a row that is
a step of another agent carries what names the agent and what the outside world supplies. -/

namespace Sys2Proof

/-- TYPE codes (R67), in code order. -/
inductive Ty where
  | i32 | n32 | i64 | n64 | f32 | f16 | bf16 | e4m3 | e5m2 | e2m1 | b8 | b16 | b32 | b64 | b128
  deriving DecidableEq, Repr

/-- Rounding modes (R66), in code order. -/
inductive RM where
  | rne | rz | ru | rd
  deriving DecidableEq, Repr

/-- SCOPE codes (R77, R14), in code order. -/
inductive Scope where
  | strand | sheet | quire | core | gallery | die | device | host | fabric
  deriving DecidableEq, Repr

/-- ORD codes (R77), in code order. -/
inductive Ord where
  | rlx | acq | rel | ar | sc
  deriving DecidableEq, Repr

/-- SIZE codes (R77), in code order. -/
inductive Size where
  | b8 | b16 | b32 | b64 | b128
  deriving DecidableEq, Repr

/-- The fields that every body word but a paired one has (R62): NEG, GSEL, U, FS. -/
structure Com where
  neg  : Bool
  gsel : BitVec 4
  u    : Bool
  fs   : Bool
  deriving DecidableEq, Repr

/-- Format R with the common MOD layout of opcodes 0x01-0x6D (R66). -/
structure FR where
  com  : Com
  d    : BitVec 8
  a    : BitVec 8
  b    : BitVec 8
  c    : BitVec 8
  ty   : Ty
  rm   : RM
  ftz  : Bool
  subf : BitVec 9
  deriving DecidableEq, Repr

/-- Format R of the other opcodes, whose MOD each entry defines (R66). -/
structure FRC where
  com : Com
  d   : BitVec 8
  a   : BitVec 8
  b   : BitVec 8
  c   : BitVec 8
  mod : BitVec 17
  deriving DecidableEq, Repr

/-- Format I (R68). -/
structure FI where
  com : Com
  d   : BitVec 8
  a   : BitVec 8
  imm : BitVec 32
  deriving DecidableEq, Repr

/-- Format M (R69). -/
structure FM where
  com   : Com
  t     : BitVec 8
  base  : BitVec 6
  idx   : BitVec 8
  scope : Scope
  ord   : Ord
  size  : Size
  scale : BitVec 2
  off   : BitVec 15
  deriving DecidableEq, Repr

/-- Format Mk (R70): format M with OFF split into KIND and OFF. -/
structure FMk where
  com   : Com
  t     : BitVec 8
  base  : BitVec 6
  idx   : BitVec 8
  scope : Scope
  ord   : Ord
  size  : Size
  scale : BitVec 2
  kind  : BitVec 4
  off   : BitVec 11
  deriving DecidableEq, Repr

/-- Format C (R71). -/
structure FC where
  com  : Com
  disp : BitVec 25
  a    : BitVec 8
  mod  : BitVec 16
  deriving DecidableEq, Repr

/-- Format E (R72). -/
structure FE where
  com : Com
  sa  : BitVec 6
  sb  : BitVec 6
  sc  : BitVec 6
  sd  : BitVec 6
  va  : BitVec 8
  mod : BitVec 17
  deriving DecidableEq, Repr

/-- One op of a paired word (R73): SUB, D, A, B. -/
structure POp where
  sub : BitVec 6
  d   : BitVec 7
  a   : BitVec 7
  b   : BitVec 7
  deriving DecidableEq, Repr

/-- A paired word (R73): PG and the ops X and Y. -/
structure FP where
  pg : BitVec 4
  x  : POp
  y  : POp
  deriving DecidableEq, Repr

/-- A clause header (R53). -/
structure Header where
  n    : BitVec 4
  wait : BitVec 12
  seta : BitVec 4
  setb : BitVec 4
  le   : BitVec 3
  yld  : Bool
  deriving DecidableEq, Repr

/-! ### What the events of other agents carry -/

/-- One rewriting step a vat takes on its queue (R221): the place of its first operation, and whether it is a
relation's step on that operation and its successor or an identity drop. -/
inductive VatStep where
  | relation (at_ : Nat)
  | drop     (at_ : Nat)
  deriving DecidableEq, Repr

/-- What the receiving port's FEC decoders saw in a flit (R310): the lane whose codeword was uncorrectable, if any,
and the corrected symbols of each data lane. -/
structure Fec where
  bad       : Option Nat
  corrected : List Nat
  deriving DecidableEq, Repr

/-- A flit as received (R308), with the decoders' report for the steps that do not carry one of their own. -/
structure Flit where
  seq     : BitVec 12
  typ     : BitVec 4
  ctl     : BitVec 48
  payload : List Byte
  crc     : BitVec 64
  fec     : Fec := { bad := none, corrected := [] }
  deriving DecidableEq, Repr

/-- An abort triple (R316): origin rank, reason, generation. -/
structure Triple where
  rank   : Nat
  reason : BitVec 8
  gen    : Nat
  deriving DecidableEq, Repr

/-- What a control flit says (R309, R310, R319, R361): the SEQ at which a lane's place is taken by the spare; that a node is
unreachable; that the far end goes down; the node and port behind the port. -/
inductive Control where
  | laneMap     (lane : Nat) (seq : BitVec 12)
  | unreachable (node : BitVec 24)
  | down
  | hello       (node : BitVec 24) (port : Nat)
  deriving DecidableEq, Repr

/-- What an operation from another module asks of this one (R323-R325). -/
inductive RemoteKind where
  | write (addr : DWord) (bytes : List Byte)
  | read  (addr : DWord) (len : Nat)
  | bar   (instance_ : Nat)
  deriving DecidableEq, Repr

/-- An operation that arrives from another module (R311, R323): the port it arrives on, the origin's node and context, the
context, group slot, generation, origin rank, operation number, what it does, its far-end post (slot, address, operand),
and the operation numbers behind which SEQ holds it. -/
structure RemoteOp where
  port : Nat
  node : BitVec 24
  from_ : Nat
  ctx  : Nat
  slot : Nat
  gen  : Nat
  rank : Nat
  num  : Nat
  kind : RemoteKind
  post : Option (Nat × DWord × Word)
  after : List Nat
  deriving DecidableEq, Repr

/-- How the target's answer ends a fabric operation (R323, R328): a status, the bytes known to be moved, and for
`gfetch` the bytes read. -/
structure FabricAnswer where
  status : BitVec 8
  done   : Nat
  data   : List Byte
  deriving DecidableEq, Repr

/-- A signed image as presented for verification (R351). -/
structure Image where
  header : List Byte
  body   : List Byte
  lms    : List Byte
  deriving DecidableEq, Repr

/-- Operands of the QUEUE command (R347). -/
structure QueueCmd where
  q    : Nat
  ring : Nat
  k    : Nat
  ctx  : Nat
  prio : Nat
  deriving DecidableEq, Repr

/-- Every step of the part: one constructor for each row of opcode_table.json, the words in the table's order, then the
steps that the model's own step function names, then the others (the compiler builds no constructor with arguments past
the 245th). -/
inductive Instr where
  | add (w : FR) | addi (w : FI) | sub (w : FR) | mulLo (w : FR) | mulHi (w : FR) | mad (w : FR)
  | div (w : FR) | rem (w : FR) | min (w : FR) | max (w : FR) | abs (w : FR) | neg (w : FR)
  | and (w : FR) | or (w : FR) | xor (w : FR) | andn (w : FR) | not (w : FR)
  | andi (w : FI) | ori (w : FI) | xori (w : FI)
  | shl (w : FR) | shr (w : FR) | sar (w : FR) | rotl (w : FR) | clz (w : FR) | popc (w : FR) | brev (w : FR)
  | bfx (w : FR) | bfi (w : FR) | sel (w : FR) | cmp (w : FR) | movi (w : FI) | mov (w : FR)
  | addI64 (w : FR) | subI64 (w : FR) | mulWide (w : FR) | lea (w : FR) | cmpi (w : FI) | clamp (w : FR)
  | fadd (w : FR) | fsub (w : FR) | fmul (w : FR) | fma (w : FR) | fmin (w : FR) | fmax (w : FR)
  | fabs (w : FR) | fneg (w : FR) | fcmp (w : FR) | fclass (w : FR) | fmovi (w : FI)
  | frcp (w : FR) | frsq (w : FR) | fsqrt (w : FR) | fdiv (w : FR)
  | hadd2 (w : FR) | hmul2 (w : FR) | hfma2 (w : FR) | dot4 (w : FR) | dot2 (w : FR) | fround (w : FR)
  | fsin (w : FR) | fcos (w : FR) | fexp2 (w : FR) | flog2 (w : FR) | ftanh (w : FR)
  | cvtF (w : FR) | cvtFi (w : FR) | cvtIf (w : FR) | cvtSr (w : FR) | pack (w : FR) | unpack (w : FR)
  | shflIdx (w : FR) | shflXor (w : FR) | shflUp (w : FR) | shflDown (w : FR) | vote (w : FR)
  | scan (w : FR) | lred (w : FR) | kop (w : FR) | kpop (w : FR) | kfirst (w : FR) | laneid (w : FR)
  | rng (w : FR) | noise (w : FR) | noiseSt (w : FR) | bcast (w : FR) | bcastGet (w : FR)
  | pairedWord (w : FP)
  | br (w : FC) | brc (w : FC) | brm (w : FC) | brx (w : FRC) | call (w : FC) | ret (w : FRC) | jmpi (w : FRC)
  | mpush (w : FRC) | melse (w : FRC) | mpop (w : FRC)
  | loop (w : FC) | lbreak (w : FC) | lexit (w : FC) | spawn (w : FC) | join (w : FRC) | exit (w : FRC)
  | barInit (w : FRC) | barArr (w : FRC) | barWait (w : FRC) | barSync (w : FRC)
  | nop (w : FRC) | yield (w : FRC) | rgrow (w : FRC) | rshrink (w : FRC)
  | ldG (w : FM) | stG (w : FM) | ldC (w : FM) | stC (w : FM) | pref (w : FM) | ldGx (w : FM) | stGx (w : FM)
  | atom (w : FMk) | cas (w : FM) | fence (w : FM) | fenceTr (w : FM) | atomC (w : FMk)
  | acopy (w : FE) | acopy2 (w : FE) | pinit (w : FE) | pwait (w : FE) | prel (w : FE) | pstat (w : FE)
  | pdrain (w : FE)
  | dkload (w : FE) | dkloadClr (w : FE) | dkquery (w : FE) | post (w : FMk) | arm (w : FE) | disarm (w : FE)
  | nmdot (w : FE) | nmaxpy (w : FE) | vdrain (w : FRC)
  | mxZero (w : FE) | mxMma (w : FE) | mxConv (w : FE) | mxRead (w : FE) | mxFence (w : FE) | mxWait (w : FE)
  | mxStat (w : FE) | mxSub (w : FE) | mxUnsub (w : FE)
  | wmInit (w : FE) | wmProbe (w : FE) | wmCommit (w : FE) | wmSelect (w : FE) | wmRead (w : FE) | wmSync (w : FE)
  | wmRelease (w : FE)
  | gsend (w : FE) | gfetch (w : FE) | gbar (w : FE) | gstat (w : FE) | gabort (w : FE) | greform (w : FE)
  | gdl (w : FE)
  | renter (w : FI) | rleave (w : FRC) | rmark (w : FI) | hashrd (w : FRC) | stallrd (w : FRC)
  | rdsr (w : FI) | wrsr (w : FI) | trap (w : FI) | rte (w : FRC) | brk (w : FI) | halt (w : FRC) | illegalOpcode (word : DWord)
  -- the steps of the issue logic and of the part's own agents
  | clauseHeaderFetch | issueChoice (core lb : Nat) | loopBackEdge | longLatencyComplete (h k id : Nat)
  | spawnRecordWrite (h k : Nat) | binTimerExpiry (core bin : Nat) | taskSheetLaunch (core : Nat)
  | batchWaitExpiry (core : Nat) | poolBatchLaunch (die : Nat) | poolRoomFreed (die : Nat) | rgrowGrant (h k : Nat)
  | rgrowFail (core : Nat) | pwaitDeadline (h k : Nat) | quirePlace (die : Nat) | quireLaunch (core : Nat)
  | launchReoffer (core : Nat) | bankModeSwitch (core : Nat) | quireResourceRelease (h : Nat)
  | joinSwapOut (h : Nat) | spinningQuireSwapOut (h : Nat) | preemption (die : Nat) | swapOutSave (h off : Nat)
  | preemptLaunch (core : Nat) | spinResumeTimeout (h : Nat) | quireResume (h core : Nat)
  | translationWalk (core ctx : Nat) (va : DWord) | memoryUe (h k pa : Nat) | copyComplete (id : Nat)
  | copySlowPathDone (id : Nat) | vatAccept (ch pick : Nat) (steps : List VatStep) | vatApply (ch : Nat)
  | triggerRecordPlace (ch index : Nat) | tableInstall (id ch : Nat) | nmComplete (id : Nat)
  | matrixOpStart (core : Nat) | promotionStep (core : Nat) | matrixOpComplete (core : Nat)
  | mxReadComplete (core : Nat) | siphonBlockRead (gallery stream : Nat) | wmaOpPerform (core id : Nat)
  | replayTimeout (port : Nat) | operationExpiry (id : Nat) | routeLoss (id : Nat) | settle (ctx slot : Nat)
  | coordinatorTimeout (ctx slot : Nat) | greformTimeout (id : Nat) | portRetry (port : Nat)
  | clockRelockDone (die : Nat) | gateTimeout (ch : Nat)
  | hostBar2Access (part off : Nat) (write : Option (List Byte)) (len : Nat) | galleryUp (die gallery : Nat) | ready
  | channelRetire (ch : Nat) | counterPersist | rekeyComplete (page : Nat)
  -- writes of privileged registers that are steps of their own (R302, R303, R305, R299), by the sheet in issue
  | tlbinvPage (ctx : BitVec 12) (scope : BitVec 4) | tlbinvContext (ctx : BitVec 12) (scope : BitVec 4)
  | tlbinvAll (scope : BitVec 4) | diefreq (value : Word) | ctxctlSuspend (ctx : BitVec 12)
  | ctxctlResume (ctx : BitVec 12)
  -- the steps that the world outside takes: the pager, other modules, firmware, the host
  | pagerRepair (die ctx : Nat) (va : DWord) (writes : List (Nat × DWord))
  | pagerFatal (die ctx : Nat) (va : DWord) (access : Bool) | flitData (port : Nat) (f : Flit) (fec : Fec)
  | flitAck (port : Nat) (f : Flit) (acked : BitVec 12) | flitNak (port : Nat) (f : Flit) (named : BitVec 12)
  | flitIdle (port : Nat) (f : Flit) (fec : Fec) | flitControl (port : Nat) (f : Flit) (msg : Control)
  | flitAbortNotice (port : Nat) (f : Flit) (ctx slot : Nat) (t : Triple)
  | spareTrained (port : Nat) (seq : BitVec 12) | remoteOpArrival (op : RemoteOp)
  | fabricOpComplete (id : Nat) (ans : FabricAnswer)
  | greformProposal (ctx slot rank gen : Nat) (members : List Nat)
  | greformDecision (ctx slot gen : Nat) (members : List Nat) | portTrainingDone (port : Nat) (good : List Bool)
  | firmwareClockStep (die f : Nat) (temperature : Bool) | noiseSourceFail (die : Nat)
  | doorbell (part q : Nat) (index : Word) | queue (part : Nat) (c : QueueCmd) | ctxCreate (part addr : Nat)
  | ctxDestroy (part ctx : Nat) | groupBind (part ctx slot addr : Nat) | groupUnbind (part ctx slot : Nat)
  | debugBind (part ctx addr : Nat) | ctxCtlSuspend (part ctx : Nat) | ctxCtlResume (part ctx : Nat)
  | counters (part addr : Nat) | hostRegisterWrite (part off : Nat) (value : DWord) | attestationReport | powerGood
  | imageVerify (typ : Nat) (img : Image) (part : Nat) | patrolScrub (group : Nat) (corrected : Bool)
  | temperatureHigh | quireStopResume (h : Nat) | temperatureNormal
  deriving DecidableEq, Repr

end Sys2Proof
end

