-- ==== Sys2Proof/WellFormed.lean ====
section
/-! DEFINITION. The encoding checks of a body word: R81 step 2, from R58, R63-R77, R79 and the entries' own tables.
`Instr.wf` is what the decoder asks before it gives an instruction; a word that fails raises ILLEGAL_ENCODING. -/

namespace Sys2Proof

/-- Bits of a TYPE's value: a single register, a pair or a group (R109). -/
def Ty.regs : Ty → Nat
  | .i64 | .n64 | .b64 => 2
  | .b128 => 4
  | _ => 1

/-- Registers of a SIZE's data (R69, R65). -/
def Size.regs : Size → Nat
  | .b64 => 2
  | .b128 => 4
  | _ => 1

/-- Bytes of a SIZE (R77). -/
def Size.bytes : Size → Nat
  | .b8 => 1 | .b16 => 2 | .b32 => 4 | .b64 => 8 | .b128 => 16

/-- SCOPE code (R77). -/
def Scope.code : Scope → Nat
  | .strand => 0 | .sheet => 1 | .quire => 2 | .core => 3 | .gallery => 4
  | .die => 5 | .device => 6 | .host => 7 | .fabric => 8

namespace Wf

/-- No guard, no inversion: GSEL = 0 with NEG = 0 (R63). -/
def noGuard (c : Com) : Bool := c.gsel = 0 && !c.neg
/-- Guard fields of an opcode that may be guarded: NEG needs a guard, and U = 1 has none (R63). -/
def guard (c : Com) : Bool := if c.gsel = 0 then !c.neg else !c.u
/-- U 0/1, guard yes, not long-latency (R79). -/
def both (c : Com) : Bool := guard c && !c.fs
/-- U 0, guard yes, not long-latency. -/
def vec (c : Com) : Bool := !c.u && guard c && !c.fs
/-- U 0, no guard, not long-latency. -/
def ctl (c : Com) : Bool := !c.u && noGuard c && !c.fs
/-- U 1, no guard, not long-latency. -/
def uni (c : Com) : Bool := c.u && noGuard c && !c.fs
/-- U 0/1, guard yes, long-latency. -/
def bothLL (c : Com) : Bool := guard c
/-- U 0, guard yes, long-latency. -/
def vecLL (c : Com) : Bool := !c.u && guard c
/-- U 0, no guard, long-latency. -/
def ctlLL (c : Com) : Bool := !c.u && noGuard c

/-- A register field of `n` registers aligned under R65. -/
def aligned (n : Nat) (r : BitVec 8) : Bool := r.toNat % n = 0
/-- A uniform register field (R64), aligned. -/
def ureg (n : Nat) (r : BitVec 8) : Bool := r.toNat < 80 && aligned n r
/-- A register field of the word's own space (R64, R109): V when U = 0, uniform when U = 1. -/
def reg (u : Bool) (n : Nat) (r : BitVec 8) : Bool := if u then ureg n r else aligned n r
/-- A mask register field (R64). -/
def mask (r : BitVec 8) : Bool := r.toNat < 8
/-- An even 6-bit S register (R65). -/
def spair (r : BitVec 6) : Bool := r.toNat % 2 = 0
/-- A pair field of the matrix, WMA and G-words: even, at most 58 (R245, R275, R321). -/
def spair58 (r : BitVec 6) : Bool := r.toNat % 2 = 0 && r.toNat ≤ 58
/-- A group field: a multiple of 4 below 60 (R177, R179, R245). -/
def sgroup (r : BitVec 6) : Bool := r.toNat % 4 = 0 && r.toNat < 60
/-- An even S register of 0-58 in an 8-bit field (R186). -/
def even58 (r : BitVec 8) : Bool := r.toNat % 2 = 0 && r.toNat ≤ 58

/-- RM and FTZ are 0 (R66). -/
def noFp (w : FR) : Bool := w.rm = .rne && !w.ftz
/-- Fields of the common format R: D, A, B, C hold registers of `nd`, `na`, `nb`, `nc` registers; 0 means unused,
and an unused field is 0 (R66). -/
def fld (u : Bool) (n : Nat) (r : BitVec 8) : Bool := if n = 0 then r = 0 else reg u n r
/-- D, A, B and C together. -/
def regs (w : FR) (nd na nb nc : Nat) : Bool :=
  fld w.com.u nd w.d && fld w.com.u na w.a && fld w.com.u nb w.b && fld w.com.u nc w.c

/-- An integer entry over registers of one width (R113). -/
def intR (w : FR) (tys : List Ty) (subf : BitVec 9) (nd na nb nc : Nat) : Bool :=
  both w.com && noFp w && w.ty ∈ tys && w.subf &&& ~~~subf = 0 && regs w nd na nb nc
/-- An FP32 entry (R120). -/
def fpR (w : FR) (nd na nb nc : Nat) : Bool := both w.com && w.ty = .f32 && w.subf = 0 && regs w nd na nb nc
/-- A shift (R116): count in B, or immediate count below the width in SUBF. -/
def shift (w : FR) (tys : List Ty) : Bool :=
  let n := w.ty.regs
  both w.com && noFp w && w.ty ∈ tys && w.c = 0 && reg w.com.u n w.d && reg w.com.u n w.a &&
  if w.subf.getLsbD 8 then
    w.subf.extractLsb' 6 2 = 0 && w.b = 0 && (w.subf.extractLsb' 0 6).toNat < 32 * n
  else w.subf = 0 && reg w.com.u 1 w.b
/-- The destination of a compare (R119): a mask when U = 0, a uniform register when U = 1. -/
def cmpDst (c : Com) (d : BitVec 8) : Bool := if c.u then ureg 1 d else mask d

/-- TYPE code as `cvt` SUBF holds it (R67, R130). -/
def tyCode (t : Ty) : Nat :=
  match t with
  | .i32 => 0 | .n32 => 1 | .i64 => 2 | .n64 => 3 | .f32 => 4 | .f16 => 5 | .bf16 => 6 | .e4m3 => 7 | .e5m2 => 8
  | .e2m1 => 9 | .b8 => 10 | .b16 => 11 | .b32 => 12 | .b64 => 13 | .b128 => 14
/-- Source TYPE of a conversion: SUBF[4:0] (R130). -/
def srcCode (w : FR) : Nat := (w.subf.extractLsb' 0 5).toNat
/-- Registers of the source of a conversion. -/
def srcRegs (w : FR) : Nat := if srcCode w = 2 || srcCode w = 3 then 2 else 1
/-- A conversion (R130). -/
def cvt (w : FR) (dst : List Ty) (src : List Ty) (sat : Bool) : Bool :=
  both w.com && w.ty ∈ dst && src.any (fun t => tyCode t = srcCode w) && tyCode w.ty ≠ srcCode w &&
  (!w.subf.getLsbD 5 || (sat && w.ty = .e4m3)) && w.subf.extractLsb' 6 3 = 0
/-- The floating-point types of `cvt.f` (R130). -/
def fpTys : List Ty := [.f32, .f16, .bf16, .e4m3, .e5m2, .e2m1]

/-- A shuffle (R132). -/
def shfl (w : FR) (wrap : Bool) : Bool :=
  vec w.com && noFp w && w.ty = .b32 && (w.subf.extractLsb' 0 3).toNat ≤ 5 &&
  (!w.subf.getLsbD 3 || wrap) && w.subf.extractLsb' 5 4 = 0 && (w.subf.getLsbD 4 || w.c = 0)
/-- A prefix or reduction op with its types (R134). -/
def scanOp (w : FR) : Bool :=
  let num := w.subf.getLsbD 4
  w.subf.extractLsb' 5 4 = 0 &&
  match (w.subf.extractLsb' 0 3).toNat with
  | 0 => w.ty ∈ [.i32, .n32, .f32] && !num
  | 1 | 2 => w.ty ∈ [.i32, .n32, .f32] && (!num || w.ty = .f32)
  | 3 | 4 | 5 => w.ty = .b32 && !num
  | _ => false

/-- BASE of a global access (R69). -/
def gbase (w : BitVec 6) : Bool := w.toNat = 63 || (w.toNat % 2 = 0 && w.toNat ≤ 58)
/-- IDX of a word with U = 1 is 0xFF (R69). -/
def idx (u : Bool) (i : BitVec 8) : Bool := !u || i = 0xFF
/-- A load or store (R161): orders, widest scope, and whether BASE is global. -/
def mem (w : FM) (ords : List Ord) (scopes : Nat) (global : Bool) : Bool :=
  w.ord ∈ ords && w.scope.code ≤ scopes && (!global || gbase w.base) && idx w.com.u w.idx &&
  reg w.com.u w.size.regs w.t
/-- The full-address forms (R163). -/
def gx (w : FM) : Bool := w.com.u || (w.scale = 0 && w.idx ≠ 0xFF && aligned 2 w.idx)
/-- The fields a fence fixes (R167). -/
def fenceFields (w : FM) : Bool :=
  ctl w.com && w.t = 0 && w.size = .b8 && w.scale = 0 && w.off = 0 && w.base = 63 && w.idx = 0xFF
/-- An atomic (R165). -/
def atomic (w : FMk) (scopes : Nat) (global : Bool) : Bool :=
  bothLL w.com && w.scope.code ≤ scopes && (!global || gbase w.base) && idx w.com.u w.idx &&
  w.size ∈ [.b32, .b64] && w.kind.toNat ≤ 11 && (w.kind.toNat < 9 || w.size = .b32) && reg w.com.u w.size.regs w.t

/-- Format R of a control word with every register field fixed (R186-R205). -/
def rc (w : FRC) (d a b c : Bool) (mod : BitVec 17) : Bool :=
  (d || w.d = 0) && (a || w.a = 0) && (b || w.b = 0) && (c || w.c = 0) && w.mod &&& ~~~mod = 0
/-- All of a control word's register fields and MOD are 0. -/
def zero (w : FRC) : Bool := ctl w.com && rc w false false false false 0
/-- A barrier word with its selector (R203). -/
def bar (w : FRC) (sel : BitVec 17) : Bool :=
  ctl w.com && rc w false true (sel = 0) false 3 && w.mod = sel && w.a.toNat < 16 && ureg 1 w.b
/-- A stage-and-window `loop` MOD (R192): W / 4 in [7:3], B in [15:8], which is 0 without a window. -/
def loopMod (m : BitVec 16) : Bool := m.extractLsb' 3 5 ≠ 0 || m.extractLsb' 8 8 = 0

/-- The four S fields of a format E word: which are unused and so 0 (R72). -/
def e0 (w : FE) (a b c d : Bool) : Bool := (a || w.sa = 0) && (b || w.sb = 0) && (c || w.sc = 0) && (d || w.sd = 0)
/-- MOD bits outside `m` are 0 (R72). -/
def mod (w : FE) (m : BitVec 17) : Bool := w.mod &&& ~~~m = 0
/-- VA names a pool (R177). -/
def pool (w : FE) : Bool := w.va.toNat < 32
/-- VA names a tile (R64). -/
def tile (w : FE) : Bool := w.va.toNat < 2
/-- VA is unused (R72). -/
def noVa (w : FE) : Bool := w.va = 0xFF
/-- The matrix operand words (R245): BC and BS not both, and BS only with SB = 0. -/
def mma (w : FE) : Bool :=
  ctl w.com && tile w && mod w 7 && spair58 w.sa && spair58 w.sb && sgroup w.sc &&
  !(w.mod.getLsbD 1 && w.mod.getLsbD 2) && (!w.mod.getLsbD 2 || w.sb = 0)
/-- `gsend` and `gfetch` (R321): PST = 0 requires k = 0. -/
def gxfer (w : FE) : Bool :=
  ctl w.com && pool w && mod w 0x7FF && spair58 w.sa && spair58 w.sb && sgroup w.sc && sgroup w.sd &&
  (w.mod.getLsbD 5 || w.mod.extractLsb' 6 4 = 0)
/-- A copy (R179). -/
def copy (w : FE) : Bool := ctl w.com && pool w && mod w 3 && spair w.sa && spair w.sb
/-- An op of a paired word (R74): the fields it does not use are 0. -/
def pop (o : POp) (d a b : Bool) : Bool := (d || o.d = 0) && (a || o.a = 0) && (b || o.b = 0)
/-- X sub-op: which of D, A, B it uses (R75); none for a reserved SUB. -/
def xUse (s : BitVec 6) : Option (Bool × Bool × Bool) :=
  match s.toNat with
  | 0 => some (false, false, false)
  | 9 | 10 => some (true, true, false)
  | n => if n ≤ 0x10 then some (true, true, true) else none
/-- Y sub-op: which of D, A, B it uses (R76); none for a reserved SUB. -/
def yUse (s : BitVec 6) : Option (Bool × Bool × Bool) :=
  match s.toNat with
  | 0 => some (false, false, false)
  | 0x18 => some (true, false, false)
  | n => if 0x10 ≤ n && n ≤ 0x15 then some (true, true, false)
         else if n ≤ 0x17 then some (true, true, true) else none
/-- The pairing rules of R74. -/
def pair (w : FP) : Bool :=
  match xUse w.x.sub, yUse w.y.sub with
  | some (xd, xa, xb), some (yd, ya, yb) =>
    pop w.x xd xa xb && pop w.y yd ya yb && (!(xd && yd) || w.x.d ≠ w.y.d) &&
    (!(xa && ya) || w.x.a.toNat % 4 ≠ w.y.a.toNat % 4) && (!(xb && yb) || w.x.b.toNat % 4 ≠ w.y.b.toNat % 4)
  | _, _ => false

end Wf

/-- Words that are no instruction (R80, R78): OPC 0x00, a reserved opcode or 0xFF, or a reserved pair SUB. -/
def Wf.reserved (w : DWord) : Bool :=
  let o := (w.extractLsb' 56 8).toNat
  if o / 16 = 0xE then
    (Wf.xUse (w.extractLsb' 50 6)).isNone || (Wf.yUse (w.extractLsb' 22 6)).isNone
  else
    o = 0 || (0x28 ≤ o && o ≤ 0x2F) || o = 0x3A || o = 0x45 || (0x47 ≤ o && o ≤ 0x4F) || o = 0x55 ||
    (0x5C ≤ o && o ≤ 0x5F) || o = 0x6E || o = 0x6F || o = 0x84 || (0x88 ≤ o && o ≤ 0x8F) ||
    (0x95 ≤ o && o ≤ 0x9F) || (0xA7 ≤ o && o ≤ 0xAF) || (0xB8 ≤ o && o ≤ 0xBF) || (0xC9 ≤ o && o ≤ 0xCF) ||
    o = 0xD7 || o = 0xDF || (0xF5 ≤ o && o ≤ 0xF7) || o = 0xFE || o = 0xFF

open Wf in
/-- The encoding checks of every body word (R81 step 2). A step that is not a body word has no encoding to check. -/
def Instr.wf : Instr → Bool
  | .add w | .sub w => intR w [.i32, .n32] 1 1 1 1 0
  | .mulLo w | .mulHi w | .div w | .rem w | .min w | .max w => intR w [.i32, .n32] 0 1 1 1 0
  | .mad w | .clamp w => intR w [.i32, .n32] 0 1 1 1 1
  | .abs w | .neg w => intR w [.i32] 1 1 1 0 0
  | .addI64 w | .subI64 w => intR w [.i64] 0 2 2 2 0
  | .mulWide w => intR w [.i32, .n32] 0 2 1 1 0
  | .lea w => intR w [.n64] 3 2 2 1 0
  | .and w | .or w | .xor w | .andn w => intR w [.b32, .b64] 0 w.ty.regs w.ty.regs w.ty.regs 0
  | .not w | .brev w => intR w [.b32, .b64] 0 w.ty.regs w.ty.regs 0 0
  | .clz w | .popc w => intR w [.b32, .b64] 0 1 w.ty.regs 0 0
  | .shl w | .shr w | .rotl w => shift w [.b32, .b64]
  | .sar w => shift w [.i32, .i64]
  | .bfx w => intR w [.i32, .n32] 0 1 1 1 0
  | .bfi w => intR w [.b32] 0 1 1 1 1
  | .mov w => intR w [.b32, .b64, .b128] 0 w.ty.regs w.ty.regs 0 0
  | .sel w =>
    both w.com && noFp w && w.ty ∈ [.b32, .b64] && w.subf = 0 && reg w.com.u w.ty.regs w.d &&
    reg w.com.u w.ty.regs w.a && reg w.com.u w.ty.regs w.b && (if w.com.u then ureg 1 w.c else mask w.c)
  | .cmp w =>
    both w.com && noFp w && w.ty ∈ [.i32, .n32, .i64, .n64] && w.subf.toNat ≤ 5 && cmpDst w.com w.d &&
    reg w.com.u w.ty.regs w.a && reg w.com.u w.ty.regs w.b && w.c = 0
  | .addi w | .andi w | .ori w | .xori w => both w.com && reg w.com.u 1 w.d && reg w.com.u 1 w.a
  | .movi w | .fmovi w => both w.com && reg w.com.u 1 w.d && w.a = 0
  | .cmpi w => both w.com && cmpDst w.com w.d && reg w.com.u 1 w.a
  | .fadd w | .fsub w | .fmul w | .fdiv w => fpR w 1 1 1 0
  | .fma w => fpR w 1 1 1 1
  | .fsqrt w => fpR w 1 1 0 0
  | .fmin w | .fmax w =>
    both w.com && w.ty = .f32 && w.rm = .rne && w.subf &&& ~~~(1 : BitVec 9) = 0 && regs w 1 1 1 0
  | .fabs w | .fneg w | .frcp w | .frsq w | .fsin w | .fcos w | .fexp2 w | .flog2 w | .ftanh w =>
    fpR w 1 1 0 0 && w.rm = .rne
  | .fcmp w =>
    both w.com && w.ty = .f32 && w.rm = .rne && w.subf.toNat ≤ 7 && cmpDst w.com w.d && reg w.com.u 1 w.a &&
    reg w.com.u 1 w.b && w.c = 0
  | .fclass w => intR w [.f32, .f16, .bf16, .e4m3, .e5m2] 0 1 1 0 0
  | .fround w => both w.com && w.ty = .f32 && w.subf &&& ~~~(1 : BitVec 9) = 0 && regs w 1 1 0 0
  | .hadd2 w | .hmul2 w => both w.com && w.ty ∈ [.f16, .bf16] && w.subf = 0 && regs w 1 1 1 0
  | .hfma2 w => both w.com && w.ty ∈ [.f16, .bf16] && w.subf = 0 && regs w 1 1 1 1
  | .dot4 w => intR w [.i32, .n32] 1 1 1 1 1 || (both w.com && w.ty ∈ [.e4m3, .e5m2] && w.subf = 0 && regs w 1 1 1 1)
  | .dot2 w => intR w [.i32] 1 1 1 1 1 || (both w.com && w.ty ∈ [.f16, .bf16] && w.subf = 0 && regs w 1 1 1 1)
  | .cvtF w => cvt w fpTys fpTys true && regs w 1 1 0 0
  | .cvtFi w => cvt w [.i32, .n32, .i64, .n64] [.f32, .f16, .bf16] false && regs w w.ty.regs 1 0 0
  | .cvtIf w => cvt w [.f32, .f16, .bf16] [.i32, .n32, .i64, .n64] false && regs w 1 (srcRegs w) 0 0
  | .cvtSr w => cvt w [.bf16, .f16, .e4m3, .e5m2] [.f32] true && regs w 1 1 1 0
  | .pack w =>
    intR w [.b16] 0 1 1 1 0 || intR w [.b8] 3 1 1 0 0 || intR w [.e2m1] 7 1 1 0 0
  | .unpack w =>
    intR w [.b16] 9 1 1 0 0 || intR w [.b8] 11 1 1 0 0 || intR w [.e2m1] 15 1 1 0 0
  | .shflIdx w | .shflXor w => shfl w false
  | .shflUp w | .shflDown w => shfl w true
  | .vote w =>
    vec w.com && noFp w && w.ty = .b32 && mask w.d && w.b = 0 && w.c = 0 && w.subf.toNat ≤ 6
  | .scan w => vec w.com && noFp w && w.b = 0 && w.c = 0 && scanOp w
  | .lred w => vec w.com && noFp w && w.b = 0 && w.c = 0 && scanOp w && !w.subf.getLsbD 3
  | .kop w =>
    vec w.com && noFp w && w.ty = .i32 && w.subf.toNat ≤ 7 && mask w.d && mask w.a && mask w.b && w.c = 0 &&
    (w.subf.toNat ≤ 3 || w.b = 0) && (w.subf.toNat ≤ 5 || w.a = 0)
  | .kpop w | .kfirst w =>
    vec w.com && noFp w && w.ty = .i32 && w.subf.toNat ≤ 1 && ureg 1 w.d && mask w.a && w.b = 0 && w.c = 0
  | .laneid w => vec w.com && noFp w && w.ty = .i32 && w.subf = 0 && w.a = 0 && w.b = 0 && w.c = 0
  | .rng w =>
    vec w.com && noFp w && w.ty = .i32 && w.subf = 0 && aligned 4 w.d && aligned 4 w.a && ureg 2 w.b && w.c = 0
  | .noise w => bothLL w.com && noFp w && w.ty = .b32 && w.subf = 0 && regs w 1 0 0 0
  | .noiseSt w => bothLL w.com && noFp w && w.ty = .b32 && w.subf = 1 && regs w 1 0 0 0
  | .bcast w => vec w.com && noFp w && w.ty = .b32 && w.subf = 0 && ureg 1 w.a && w.b = 0 && w.c = 0
  | .bcastGet w => vec w.com && noFp w && w.ty = .b32 && w.subf = 1 && ureg 1 w.d && ureg 1 w.b && w.c = 0
  | .pairedWord w => pair w
  | .br w => ctl w.com && w.a = 0 && w.mod = 0
  | .brc w => ctl w.com && ureg 1 w.a && w.mod.toNat ≤ 5
  | .brm w => ctl w.com && mask w.a && w.mod.toNat ≤ 3
  | .call w => ctl w.com && even58 w.a && w.mod = 0
  | .jmpi w | .ret w => ctl w.com && rc w false true false false 0 && even58 w.a
  | .brx w => ctl w.com && rc w false true false false 7 && even58 w.a && 1 ≤ w.mod.toNat && w.mod.toNat ≤ 4
  | .mpush w => ctl w.com && rc w false true false false 0 && mask w.a
  | .melse w => ctl w.com && rc w false true false false 3 && w.mod = 1 && mask w.a
  | .mpop w => ctl w.com && rc w false false false false 3 && w.mod = 2
  | .loop w => ctl w.com && ureg 1 w.a && loopMod w.mod
  | .lbreak w => ctl w.com && w.disp = 0 && mask w.a && w.mod.toNat ≤ 1
  | .lexit w => ctl w.com && w.a = 0 && 1 ≤ w.mod.toNat && w.mod.toNat ≤ 4
  | .spawn w =>
    vec w.com && w.a.toNat ≤ 253 &&
    if w.mod.getLsbD 15 then
      w.disp = 0 && w.mod.extractLsb' 6 9 = 0 && (w.mod.extractLsb' 0 6).toNat % 2 = 0 &&
      (w.mod.extractLsb' 0 6).toNat ≤ 58
    else w.mod = 0
  | .join w | .exit w | .vdrain w | .rleave w | .rte w | .halt w | .nop w => zero w
  | .barInit w => bar w 0
  | .barArr w => bar w 1
  | .barWait w => bar w 2
  | .barSync w => bar w 3
  | .yield w => ctl w.com && rc w false false false false 3 && w.mod = 1
  | .rgrow w =>
    ctl w.com && rc w true false false false 0x1FB && w.mod.extractLsb' 0 3 = 2 && ureg 1 w.d &&
    1 ≤ (w.mod.extractLsb' 3 6).toNat && (w.mod.extractLsb' 3 6).toNat ≤ 32
  | .rshrink w =>
    ctl w.com && rc w false false false false 0x1FB && w.mod.extractLsb' 0 3 = 3 &&
    1 ≤ (w.mod.extractLsb' 3 6).toNat && (w.mod.extractLsb' 3 6).toNat ≤ 32
  | .ldG w => bothLL w.com && mem w [.rlx, .acq, .sc] 8 true
  | .stG w => both w.com && mem w [.rlx, .rel, .sc] 8 true
  | .ldC w => bothLL w.com && mem w [.rlx, .acq, .sc] 2 false
  | .stC w => both w.com && mem w [.rlx, .rel, .sc] 2 false
  | .ldGx w => bothLL w.com && mem w [.rlx, .acq, .sc] 8 true && gx w
  | .stGx w => both w.com && mem w [.rlx, .rel, .sc] 8 true && gx w
  | .pref w =>
    both w.com && gbase w.base && idx w.com.u w.idx && w.t = 0 && w.ord = .rlx && w.size = .b8 && w.scale = 0 &&
    w.scope ∈ [.core, .gallery]
  | .atom w => atomic w 8 true
  | .atomC w => atomic w 2 false
  | .cas w =>
    bothLL w.com && gbase w.base && idx w.com.u w.idx && w.size ∈ [.b32, .b64] &&
    reg w.com.u (2 * w.size.regs) w.t
  | .fence w => fenceFields w && w.ord ≠ .rlx && w.scope ≠ .strand
  | .fenceTr w => fenceFields w && w.ord = .rlx && 3 ≤ w.scope.code && w.scope.code ≤ 7
  | .acopy w => copy w
  | .acopy2 w => copy w && sgroup w.sc
  | .pinit w =>
    ctl w.com && pool w && e0 w true false false false && mod w 0x7F && 1 ≤ w.mod.toNat && w.mod.toNat ≤ 64
  | .pwait w =>
    ctl w.com && pool w && e0 w true false false true && mod w 1 && sgroup w.sd && spair w.sa &&
    (w.mod = 1 || w.sa = 0)
  | .prel w | .pdrain w => ctl w.com && pool w && e0 w false false false false && mod w 0
  | .pstat w => ctl w.com && pool w && e0 w false false false true && mod w 0 && spair w.sd
  | .dkload w => ctl w.com && noVa w && e0 w true false false false && mod w 3 && spair w.sa
  | .dkloadClr w => ctl w.com && noVa w && e0 w false false false false && mod w 7 && w.mod.getLsbD 2
  | .dkquery w => ctlLL w.com && noVa w && e0 w false false false true && mod w 3 && spair w.sd
  | .post w =>
    both w.com && w.ord ∈ [.rlx, .rel] && gbase w.base && idx w.com.u w.idx && w.size ∈ [.b32, .b64] &&
    reg w.com.u w.size.regs w.t
  | .arm w =>
    vecLL w.com && e0 w true true false false && mod w 1 && spair w.sa && spair w.sb && aligned 4 w.va
  | .disarm w => vec w.com && e0 w true false false false && mod w 1 && spair w.sa && aligned 4 w.va
  | .nmdot w => ctl w.com && pool w && mod w 31 && spair w.sa && spair w.sb && sgroup w.sd
  | .nmaxpy w => ctl w.com && pool w && mod w 16 && spair w.sa && spair w.sb && sgroup w.sd
  | .mxZero w => ctl w.com && tile w && e0 w true false false false && mod w 0
  | .mxMma w => mma w && w.sd = 0
  | .mxConv w => mma w
  | .mxRead w => ctlLL w.com && tile w && e0 w true false true false && mod w 15 && spair58 w.sa && spair58 w.sc
  | .mxFence w => ctl w.com && noVa w && e0 w false false false true && mod w 0
  | .mxWait w => ctl w.com && noVa w && e0 w true false false true && mod w 0 && spair58 w.sd
  | .mxStat w => ctlLL w.com && tile w && e0 w false false false true && mod w 0 && sgroup w.sd
  | .mxSub w => ctl w.com && noVa w && mod w 3 && w.mod.toNat ≤ 2 && spair58 w.sb && sgroup w.sc
  | .mxUnsub w => ctl w.com && noVa w && e0 w false false false false && mod w 0
  | .wmInit w =>
    ctl w.com && noVa w && e0 w true false false false && mod w 3 && w.mod.toNat ≤ 2 && sgroup w.sa
  | .wmProbe w => ctlLL w.com && noVa w && e0 w false true false true && mod w 0 && sgroup w.sd
  | .wmCommit w =>
    ctlLL w.com && noVa w && e0 w false true true true && mod w 1 && sgroup w.sd && (w.mod = 1 || w.sc = 0)
  | .wmSelect w => ctlLL w.com && noVa w && e0 w false true true true && mod w 7 && sgroup w.sd && spair58 w.sc
  | .wmRead w => ctlLL w.com && noVa w && mod w 0
  | .wmSync w => ctl w.com && noVa w && e0 w false false false true && mod w 0
  | .wmRelease w => ctl w.com && noVa w && e0 w false false false false && mod w 0
  | .gsend w | .gfetch w => gxfer w
  | .gbar w => ctl w.com && pool w && e0 w false false false true && mod w 15 && sgroup w.sd
  | .gstat w => ctlLL w.com && noVa w && e0 w false false false true && mod w 15 && sgroup w.sd
  | .gabort w => ctl w.com && noVa w && e0 w true false false false && mod w 15
  | .greform w => ctl w.com && pool w && e0 w true true false true && mod w 15 && spair58 w.sa && spair58 w.sb
  | .gdl w => ctl w.com && noVa w && e0 w true false false false && mod w 15 && spair58 w.sa
  | .renter w => ctl w.com && w.d = 0 && w.a = 0 && w.imm.toNat < 0xFFFF
  | .rmark w => ctl w.com && w.d = 0 && w.a = 0
  | .hashrd w => ctl w.com && rc w true false false false 0 && even58 w.d
  | .stallrd w => ctl w.com && rc w true false false false 7 && w.d.toNat % 4 = 0 && w.d.toNat < 60
  | .rdsr w => uni w.com && ureg 1 w.d && w.a = 0 && w.imm.toNat < 0x1000
  | .wrsr w => uni w.com && w.d = 0 && ureg 1 w.a && w.imm.toNat < 0x1000
  | .trap w | .brk w => ctl w.com && w.d = 0 && w.a = 0 && w.imm.toNat < 0x10000
  | .illegalOpcode w => reserved w
  | _ => true

end Sys2Proof
end

