-- ==== Sys2Proof/Decode.lean ====
section
/-! DEFINITION. From 64-bit code words to instructions and back (05_encodings.md R52-R82): the fields of each format,
the opcode map, the clause header, and the encoder written from the same tables. The decoder is total and rejects by
name; a reserved word is the instruction `illegalOpcode`, whose effect is the fault R80 gives it. -/

namespace Sys2Proof

/-- Why a body word is ILLEGAL_ENCODING (R81 step 2). -/
inductive Reject where
  /-- A TYPE code of 15 to 31 (R67). -/
  | typeCode
  /-- An illegal SCOPE, ORD or SIZE code (R77). -/
  | accessCode
  /-- A selector value that the entry does not define (R78). -/
  | selector
  /-- A reserved bit is set (R68, R73). -/
  | reservedBit
  /-- A field value, U, guard, class, alignment or pairing rule fails (`Instr.wf`). -/
  | illFormed
  deriving DecidableEq, Repr

/-! ### Codes -/

/-- TYPE of a code (R67). -/
def Ty.ofCode : Nat → Option Ty
  | 0 => some .i32 | 1 => some .n32 | 2 => some .i64 | 3 => some .n64 | 4 => some .f32 | 5 => some .f16
  | 6 => some .bf16 | 7 => some .e4m3 | 8 => some .e5m2 | 9 => some .e2m1 | 10 => some .b8 | 11 => some .b16
  | 12 => some .b32 | 13 => some .b64 | 14 => some .b128
  | _ => none
/-- RM code (R66). -/
def RM.code : RM → Nat
  | .rne => 0 | .rz => 1 | .ru => 2 | .rd => 3
/-- RM of its two bits (R66). -/
def RM.ofBits (b : BitVec 2) : RM :=
  match b.toNat with
  | 0 => .rne | 1 => .rz | 2 => .ru | _ => .rd
/-- SCOPE of a code (R77). -/
def Scope.ofCode : Nat → Option Scope
  | 0 => some .strand | 1 => some .sheet | 2 => some .quire | 3 => some .core | 4 => some .gallery | 5 => some .die
  | 6 => some .device | 7 => some .host | 8 => some .fabric
  | _ => none
/-- ORD code (R77). -/
def Ord.code : Ord → Nat
  | .rlx => 0 | .acq => 1 | .rel => 2 | .ar => 3 | .sc => 4
/-- ORD of a code (R77). -/
def Ord.ofCode : Nat → Option Ord
  | 0 => some .rlx | 1 => some .acq | 2 => some .rel | 3 => some .ar | 4 => some .sc
  | _ => none
/-- SIZE code (R77). -/
def Size.code : Size → Nat
  | .b8 => 0 | .b16 => 1 | .b32 => 2 | .b64 => 3 | .b128 => 4
/-- SIZE of a code (R77). -/
def Size.ofCode : Nat → Option Size
  | 0 => some .b8 | 1 => some .b16 | 2 => some .b32 | 3 => some .b64 | 4 => some .b128
  | _ => none

/-! ### Formats -/

/-- The fields of a body word, by format. -/
inductive Fields where
  | r  (w : FR)
  | rc (w : FRC)
  | i  (w : FI)
  | m  (w : FM)
  | mk (w : FMk)
  | c  (w : FC)
  | e  (w : FE)
  deriving DecidableEq, Repr

/-- Bits [55:49] (R62). -/
def Com.pack (c : Com) : BitVec 7 := BitVec.ofBool c.neg ++ c.gsel ++ BitVec.ofBool c.u ++ BitVec.ofBool c.fs
/-- The common fields of a word (R62). -/
def Com.unpack (w : DWord) : Com :=
  { neg := w.getLsbD 55, gsel := w.extractLsb' 51 4, u := w.getLsbD 50, fs := w.getLsbD 49 }

/-- Bits [55:0] of a word (R66-R72). -/
def Fields.pack : Fields → BitVec 56
  | .r w => w.com.pack ++ w.d ++ w.a ++ w.b ++ w.c ++ BitVec.ofNat 5 (Wf.tyCode w.ty) ++ BitVec.ofNat 2 w.rm.code ++
      BitVec.ofBool w.ftz ++ w.subf
  | .rc w => w.com.pack ++ w.d ++ w.a ++ w.b ++ w.c ++ w.mod
  | .i w => w.com.pack ++ w.d ++ w.a ++ w.imm ++ 0#1
  | .m w => w.com.pack ++ w.t ++ w.base ++ w.idx ++ BitVec.ofNat 4 w.scope.code ++ BitVec.ofNat 3 w.ord.code ++
      BitVec.ofNat 3 w.size.code ++ w.scale ++ w.off
  | .mk w => w.com.pack ++ w.t ++ w.base ++ w.idx ++ BitVec.ofNat 4 w.scope.code ++ BitVec.ofNat 3 w.ord.code ++
      BitVec.ofNat 3 w.size.code ++ w.scale ++ w.kind ++ w.off
  | .c w => w.com.pack ++ w.disp ++ w.a ++ w.mod
  | .e w => w.com.pack ++ w.sa ++ w.sb ++ w.sc ++ w.sd ++ w.va ++ w.mod

/-- Fields of a common format R word (R66, R67). -/
def unpackR (w : DWord) : Except Reject FR :=
  match Ty.ofCode (w.extractLsb' 12 5).toNat with
  | none => .error .typeCode
  | some ty => .ok { com := .unpack w, d := w.extractLsb' 41 8, a := w.extractLsb' 33 8, b := w.extractLsb' 25 8,
                     c := w.extractLsb' 17 8, ty, rm := .ofBits (w.extractLsb' 10 2), ftz := w.getLsbD 9,
                     subf := w.extractLsb' 0 9 }
/-- Fields of another format R word (R66). -/
def unpackRC (w : DWord) : FRC :=
  { com := .unpack w, d := w.extractLsb' 41 8, a := w.extractLsb' 33 8, b := w.extractLsb' 25 8,
    c := w.extractLsb' 17 8, mod := w.extractLsb' 0 17 }
/-- Fields of a format I word (R68). -/
def unpackI (w : DWord) : Except Reject FI :=
  if w.getLsbD 0 then .error .reservedBit
  else .ok { com := .unpack w, d := w.extractLsb' 41 8, a := w.extractLsb' 33 8, imm := w.extractLsb' 1 32 }
/-- SCOPE, ORD and SIZE of a format M word (R69, R77). -/
def unpackAccess (w : DWord) : Except Reject (Scope × Ord × Size) :=
  match Scope.ofCode (w.extractLsb' 23 4).toNat, Ord.ofCode (w.extractLsb' 20 3).toNat,
      Size.ofCode (w.extractLsb' 17 3).toNat with
  | some sc, some o, some sz => .ok (sc, o, sz)
  | _, _, _ => .error .accessCode
/-- Fields of a format M word (R69). -/
def unpackM (w : DWord) : Except Reject FM :=
  match unpackAccess w with
  | .error r => .error r
  | .ok (scope, ord, size) =>
    .ok { com := .unpack w, t := w.extractLsb' 41 8, base := w.extractLsb' 35 6, idx := w.extractLsb' 27 8,
          scope, ord, size, scale := w.extractLsb' 15 2, off := w.extractLsb' 0 15 }
/-- Fields of a format Mk word (R70). -/
def unpackMk (w : DWord) : Except Reject FMk :=
  match unpackAccess w with
  | .error r => .error r
  | .ok (scope, ord, size) =>
    .ok { com := .unpack w, t := w.extractLsb' 41 8, base := w.extractLsb' 35 6, idx := w.extractLsb' 27 8,
          scope, ord, size, scale := w.extractLsb' 15 2, kind := w.extractLsb' 11 4, off := w.extractLsb' 0 11 }
/-- Fields of a format C word (R71). -/
def unpackC (w : DWord) : FC :=
  { com := .unpack w, disp := w.extractLsb' 24 25, a := w.extractLsb' 16 8, mod := w.extractLsb' 0 16 }
/-- Fields of a format E word (R72). -/
def unpackE (w : DWord) : FE :=
  { com := .unpack w, sa := w.extractLsb' 43 6, sb := w.extractLsb' 37 6, sc := w.extractLsb' 31 6,
    sd := w.extractLsb' 25 6, va := w.extractLsb' 17 8, mod := w.extractLsb' 0 17 }

/-- One op of a paired word (R73). -/
def POp.pack (o : POp) : BitVec 28 := o.sub ++ o.d ++ o.a ++ o.b ++ 0#1
/-- A paired word (R73). -/
def FP.pack (p : FP) : DWord := 0xE#4 ++ p.pg ++ p.x.pack ++ p.y.pack
/-- The op at bit `n` of a paired word (R73). -/
def POp.unpack (w : DWord) (n : Nat) : POp :=
  { sub := w.extractLsb' (n + 22) 6, d := w.extractLsb' (n + 15) 7, a := w.extractLsb' (n + 8) 7,
    b := w.extractLsb' (n + 1) 7 }
/-- The fields of a paired word (R73, R74). -/
def unpackP (w : DWord) : Except Reject FP :=
  if w.getLsbD 28 || w.getLsbD 0 then .error .reservedBit
  else .ok { pg := w.extractLsb' 56 4, x := .unpack w 28, y := .unpack w 0 }

/-! ### The opcode map -/

/-- What an opcode holds (R78, R79): its format and its instruction, or the instructions that its selector picks. -/
inductive Row where
  | r   (f : FR → Instr)
  | rs  (fs : List (FR → Instr))
  | rc  (f : FRC → Instr)
  | rcs (fs : List (FRC → Instr))
  | i   (f : FI → Instr)
  | m   (f : FM → Instr)
  | mk  (f : FMk → Instr)
  | c   (f : FC → Instr)
  | e   (f : FE → Instr)
  | es  (fs : List (FE → Instr))

/-- The opcode map (R78). -/
def row : Nat → Option Row
  | 0x01 => some (.r .add)
  | 0x02 => some (.i .addi)
  | 0x03 => some (.r .sub)
  | 0x04 => some (.r .mulLo)
  | 0x05 => some (.r .mulHi)
  | 0x06 => some (.r .mad)
  | 0x07 => some (.r .div)
  | 0x08 => some (.r .rem)
  | 0x09 => some (.r .min)
  | 0x0A => some (.r .max)
  | 0x0B => some (.r .abs)
  | 0x0C => some (.r .neg)
  | 0x0D => some (.r .and)
  | 0x0E => some (.r .or)
  | 0x0F => some (.r .xor)
  | 0x10 => some (.r .andn)
  | 0x11 => some (.r .not)
  | 0x12 => some (.i .andi)
  | 0x13 => some (.i .ori)
  | 0x14 => some (.i .xori)
  | 0x15 => some (.r .shl)
  | 0x16 => some (.r .shr)
  | 0x17 => some (.r .sar)
  | 0x18 => some (.r .rotl)
  | 0x19 => some (.r .clz)
  | 0x1A => some (.r .popc)
  | 0x1B => some (.r .brev)
  | 0x1C => some (.r .bfx)
  | 0x1D => some (.r .bfi)
  | 0x1E => some (.r .sel)
  | 0x1F => some (.r .cmp)
  | 0x20 => some (.i .movi)
  | 0x21 => some (.r .mov)
  | 0x22 => some (.r .addI64)
  | 0x23 => some (.r .subI64)
  | 0x24 => some (.r .mulWide)
  | 0x25 => some (.r .lea)
  | 0x26 => some (.i .cmpi)
  | 0x27 => some (.r .clamp)
  | 0x30 => some (.r .fadd)
  | 0x31 => some (.r .fsub)
  | 0x32 => some (.r .fmul)
  | 0x33 => some (.r .fma)
  | 0x34 => some (.r .fmin)
  | 0x35 => some (.r .fmax)
  | 0x36 => some (.r .fabs)
  | 0x37 => some (.r .fneg)
  | 0x38 => some (.r .fcmp)
  | 0x39 => some (.r .fclass)
  | 0x3B => some (.i .fmovi)
  | 0x3C => some (.r .frcp)
  | 0x3D => some (.r .frsq)
  | 0x3E => some (.r .fsqrt)
  | 0x3F => some (.r .fdiv)
  | 0x40 => some (.r .hadd2)
  | 0x41 => some (.r .hmul2)
  | 0x42 => some (.r .hfma2)
  | 0x43 => some (.r .dot4)
  | 0x44 => some (.r .dot2)
  | 0x46 => some (.r .fround)
  | 0x50 => some (.r .fsin)
  | 0x51 => some (.r .fcos)
  | 0x52 => some (.r .fexp2)
  | 0x53 => some (.r .flog2)
  | 0x54 => some (.r .ftanh)
  | 0x56 => some (.r .cvtF)
  | 0x57 => some (.r .cvtFi)
  | 0x58 => some (.r .cvtIf)
  | 0x59 => some (.r .cvtSr)
  | 0x5A => some (.r .pack)
  | 0x5B => some (.r .unpack)
  | 0x60 => some (.r .shflIdx)
  | 0x61 => some (.r .shflXor)
  | 0x62 => some (.r .shflUp)
  | 0x63 => some (.r .shflDown)
  | 0x64 => some (.r .vote)
  | 0x65 => some (.r .scan)
  | 0x66 => some (.r .lred)
  | 0x67 => some (.r .kop)
  | 0x68 => some (.r .kpop)
  | 0x69 => some (.r .kfirst)
  | 0x6A => some (.r .laneid)
  | 0x6B => some (.r .rng)
  | 0x6C => some (.rs [.noise, .noiseSt])
  | 0x6D => some (.rs [.bcast, .bcastGet])
  | 0x70 => some (.c .br)
  | 0x71 => some (.c .brc)
  | 0x72 => some (.c .brm)
  | 0x73 => some (.rc .brx)
  | 0x74 => some (.c .call)
  | 0x75 => some (.rc .ret)
  | 0x76 => some (.rc .jmpi)
  | 0x77 => some (.rcs [.mpush, .melse, .mpop])
  | 0x78 => some (.c .loop)
  | 0x79 => some (.c .lbreak)
  | 0x7A => some (.c .lexit)
  | 0x7B => some (.c .spawn)
  | 0x7C => some (.rc .join)
  | 0x7D => some (.rc .exit)
  | 0x7E => some (.rcs [.barInit, .barArr, .barWait, .barSync])
  | 0x7F => some (.rcs [.nop, .yield, .rgrow, .rshrink])
  | 0x80 => some (.m .ldG)
  | 0x81 => some (.m .stG)
  | 0x82 => some (.m .ldC)
  | 0x83 => some (.m .stC)
  | 0x85 => some (.m .pref)
  | 0x86 => some (.m .ldGx)
  | 0x87 => some (.m .stGx)
  | 0x90 => some (.mk .atom)
  | 0x91 => some (.m .cas)
  | 0x92 => some (.m .fence)
  | 0x93 => some (.m .fenceTr)
  | 0x94 => some (.mk .atomC)
  | 0xA0 => some (.e .acopy)
  | 0xA1 => some (.e .acopy2)
  | 0xA2 => some (.e .pinit)
  | 0xA3 => some (.e .pwait)
  | 0xA4 => some (.e .prel)
  | 0xA5 => some (.e .pstat)
  | 0xA6 => some (.e .pdrain)
  | 0xB0 => some (.es [.dkload, .dkloadClr])
  | 0xB1 => some (.e .dkquery)
  | 0xB2 => some (.mk .post)
  | 0xB3 => some (.e .arm)
  | 0xB4 => some (.e .disarm)
  | 0xB5 => some (.e .nmdot)
  | 0xB6 => some (.e .nmaxpy)
  | 0xB7 => some (.rc .vdrain)
  | 0xC0 => some (.e .mxZero)
  | 0xC1 => some (.e .mxMma)
  | 0xC2 => some (.e .mxConv)
  | 0xC3 => some (.e .mxRead)
  | 0xC4 => some (.e .mxFence)
  | 0xC5 => some (.e .mxWait)
  | 0xC6 => some (.e .mxStat)
  | 0xC7 => some (.e .mxSub)
  | 0xC8 => some (.e .mxUnsub)
  | 0xD0 => some (.e .wmInit)
  | 0xD1 => some (.e .wmProbe)
  | 0xD2 => some (.e .wmCommit)
  | 0xD3 => some (.e .wmSelect)
  | 0xD4 => some (.e .wmRead)
  | 0xD5 => some (.e .wmSync)
  | 0xD6 => some (.e .wmRelease)
  | 0xD8 => some (.e .gsend)
  | 0xD9 => some (.e .gfetch)
  | 0xDA => some (.e .gbar)
  | 0xDB => some (.e .gstat)
  | 0xDC => some (.e .gabort)
  | 0xDD => some (.e .greform)
  | 0xDE => some (.e .gdl)
  | 0xF0 => some (.i .renter)
  | 0xF1 => some (.rc .rleave)
  | 0xF2 => some (.i .rmark)
  | 0xF3 => some (.rc .hashrd)
  | 0xF4 => some (.rc .stallrd)
  | 0xF8 => some (.i .rdsr)
  | 0xF9 => some (.i .wrsr)
  | 0xFA => some (.i .trap)
  | 0xFB => some (.rc .rte)
  | 0xFC => some (.i .brk)
  | 0xFD => some (.rc .halt)
  | _ => none

/-- Opcode and fields of an instruction that has a word of its own and is no paired word (R78). -/
def Instr.fields : Instr → Option (BitVec 8 × Fields)
  | .add w => some (0x01, .r w)
  | .addi w => some (0x02, .i w)
  | .sub w => some (0x03, .r w)
  | .mulLo w => some (0x04, .r w)
  | .mulHi w => some (0x05, .r w)
  | .mad w => some (0x06, .r w)
  | .div w => some (0x07, .r w)
  | .rem w => some (0x08, .r w)
  | .min w => some (0x09, .r w)
  | .max w => some (0x0A, .r w)
  | .abs w => some (0x0B, .r w)
  | .neg w => some (0x0C, .r w)
  | .and w => some (0x0D, .r w)
  | .or w => some (0x0E, .r w)
  | .xor w => some (0x0F, .r w)
  | .andn w => some (0x10, .r w)
  | .not w => some (0x11, .r w)
  | .andi w => some (0x12, .i w)
  | .ori w => some (0x13, .i w)
  | .xori w => some (0x14, .i w)
  | .shl w => some (0x15, .r w)
  | .shr w => some (0x16, .r w)
  | .sar w => some (0x17, .r w)
  | .rotl w => some (0x18, .r w)
  | .clz w => some (0x19, .r w)
  | .popc w => some (0x1A, .r w)
  | .brev w => some (0x1B, .r w)
  | .bfx w => some (0x1C, .r w)
  | .bfi w => some (0x1D, .r w)
  | .sel w => some (0x1E, .r w)
  | .cmp w => some (0x1F, .r w)
  | .movi w => some (0x20, .i w)
  | .mov w => some (0x21, .r w)
  | .addI64 w => some (0x22, .r w)
  | .subI64 w => some (0x23, .r w)
  | .mulWide w => some (0x24, .r w)
  | .lea w => some (0x25, .r w)
  | .cmpi w => some (0x26, .i w)
  | .clamp w => some (0x27, .r w)
  | .fadd w => some (0x30, .r w)
  | .fsub w => some (0x31, .r w)
  | .fmul w => some (0x32, .r w)
  | .fma w => some (0x33, .r w)
  | .fmin w => some (0x34, .r w)
  | .fmax w => some (0x35, .r w)
  | .fabs w => some (0x36, .r w)
  | .fneg w => some (0x37, .r w)
  | .fcmp w => some (0x38, .r w)
  | .fclass w => some (0x39, .r w)
  | .fmovi w => some (0x3B, .i w)
  | .frcp w => some (0x3C, .r w)
  | .frsq w => some (0x3D, .r w)
  | .fsqrt w => some (0x3E, .r w)
  | .fdiv w => some (0x3F, .r w)
  | .hadd2 w => some (0x40, .r w)
  | .hmul2 w => some (0x41, .r w)
  | .hfma2 w => some (0x42, .r w)
  | .dot4 w => some (0x43, .r w)
  | .dot2 w => some (0x44, .r w)
  | .fround w => some (0x46, .r w)
  | .fsin w => some (0x50, .r w)
  | .fcos w => some (0x51, .r w)
  | .fexp2 w => some (0x52, .r w)
  | .flog2 w => some (0x53, .r w)
  | .ftanh w => some (0x54, .r w)
  | .cvtF w => some (0x56, .r w)
  | .cvtFi w => some (0x57, .r w)
  | .cvtIf w => some (0x58, .r w)
  | .cvtSr w => some (0x59, .r w)
  | .pack w => some (0x5A, .r w)
  | .unpack w => some (0x5B, .r w)
  | .shflIdx w => some (0x60, .r w)
  | .shflXor w => some (0x61, .r w)
  | .shflUp w => some (0x62, .r w)
  | .shflDown w => some (0x63, .r w)
  | .vote w => some (0x64, .r w)
  | .scan w => some (0x65, .r w)
  | .lred w => some (0x66, .r w)
  | .kop w => some (0x67, .r w)
  | .kpop w => some (0x68, .r w)
  | .kfirst w => some (0x69, .r w)
  | .laneid w => some (0x6A, .r w)
  | .rng w => some (0x6B, .r w)
  | .noise w => some (0x6C, .r w)
  | .noiseSt w => some (0x6C, .r w)
  | .bcast w => some (0x6D, .r w)
  | .bcastGet w => some (0x6D, .r w)
  | .br w => some (0x70, .c w)
  | .brc w => some (0x71, .c w)
  | .brm w => some (0x72, .c w)
  | .brx w => some (0x73, .rc w)
  | .call w => some (0x74, .c w)
  | .ret w => some (0x75, .rc w)
  | .jmpi w => some (0x76, .rc w)
  | .mpush w => some (0x77, .rc w)
  | .melse w => some (0x77, .rc w)
  | .mpop w => some (0x77, .rc w)
  | .loop w => some (0x78, .c w)
  | .lbreak w => some (0x79, .c w)
  | .lexit w => some (0x7A, .c w)
  | .spawn w => some (0x7B, .c w)
  | .join w => some (0x7C, .rc w)
  | .exit w => some (0x7D, .rc w)
  | .barInit w => some (0x7E, .rc w)
  | .barArr w => some (0x7E, .rc w)
  | .barWait w => some (0x7E, .rc w)
  | .barSync w => some (0x7E, .rc w)
  | .nop w => some (0x7F, .rc w)
  | .yield w => some (0x7F, .rc w)
  | .rgrow w => some (0x7F, .rc w)
  | .rshrink w => some (0x7F, .rc w)
  | .ldG w => some (0x80, .m w)
  | .stG w => some (0x81, .m w)
  | .ldC w => some (0x82, .m w)
  | .stC w => some (0x83, .m w)
  | .pref w => some (0x85, .m w)
  | .ldGx w => some (0x86, .m w)
  | .stGx w => some (0x87, .m w)
  | .atom w => some (0x90, .mk w)
  | .cas w => some (0x91, .m w)
  | .fence w => some (0x92, .m w)
  | .fenceTr w => some (0x93, .m w)
  | .atomC w => some (0x94, .mk w)
  | .acopy w => some (0xA0, .e w)
  | .acopy2 w => some (0xA1, .e w)
  | .pinit w => some (0xA2, .e w)
  | .pwait w => some (0xA3, .e w)
  | .prel w => some (0xA4, .e w)
  | .pstat w => some (0xA5, .e w)
  | .pdrain w => some (0xA6, .e w)
  | .dkload w => some (0xB0, .e w)
  | .dkloadClr w => some (0xB0, .e w)
  | .dkquery w => some (0xB1, .e w)
  | .post w => some (0xB2, .mk w)
  | .arm w => some (0xB3, .e w)
  | .disarm w => some (0xB4, .e w)
  | .nmdot w => some (0xB5, .e w)
  | .nmaxpy w => some (0xB6, .e w)
  | .vdrain w => some (0xB7, .rc w)
  | .mxZero w => some (0xC0, .e w)
  | .mxMma w => some (0xC1, .e w)
  | .mxConv w => some (0xC2, .e w)
  | .mxRead w => some (0xC3, .e w)
  | .mxFence w => some (0xC4, .e w)
  | .mxWait w => some (0xC5, .e w)
  | .mxStat w => some (0xC6, .e w)
  | .mxSub w => some (0xC7, .e w)
  | .mxUnsub w => some (0xC8, .e w)
  | .wmInit w => some (0xD0, .e w)
  | .wmProbe w => some (0xD1, .e w)
  | .wmCommit w => some (0xD2, .e w)
  | .wmSelect w => some (0xD3, .e w)
  | .wmRead w => some (0xD4, .e w)
  | .wmSync w => some (0xD5, .e w)
  | .wmRelease w => some (0xD6, .e w)
  | .gsend w => some (0xD8, .e w)
  | .gfetch w => some (0xD9, .e w)
  | .gbar w => some (0xDA, .e w)
  | .gstat w => some (0xDB, .e w)
  | .gabort w => some (0xDC, .e w)
  | .greform w => some (0xDD, .e w)
  | .gdl w => some (0xDE, .e w)
  | .renter w => some (0xF0, .i w)
  | .rleave w => some (0xF1, .rc w)
  | .rmark w => some (0xF2, .i w)
  | .hashrd w => some (0xF3, .rc w)
  | .stallrd w => some (0xF4, .rc w)
  | .rdsr w => some (0xF8, .i w)
  | .wrsr w => some (0xF9, .i w)
  | .trap w => some (0xFA, .i w)
  | .rte w => some (0xFB, .rc w)
  | .brk w => some (0xFC, .i w)
  | .halt w => some (0xFD, .rc w)
  | _ => none

/-- The instruction that a selector value picks (R78). -/
def pickSel {α : Type} (fs : List (α → Instr)) (n : Nat) (a : α) : Except Reject Instr :=
  match fs[n]? with
  | some f => .ok (f a)
  | none => .error .selector

/-- The selector of a word whose opcode holds several mnemonics: SUBF of 0x6C and 0x6D (R139, R141), MOD[1:0] of 0x77
(R189) and 0x7E (R203), MOD[2:0] of 0x7F (R205), MOD[2] of 0xB0 (R235). -/
def selOf (opc : Nat) (w : DWord) : Nat :=
  if opc = 0x6C ∨ opc = 0x6D then (w.extractLsb' 0 9).toNat
  else if opc = 0x77 ∨ opc = 0x7E then (w.extractLsb' 0 2).toNat
  else if opc = 0x7F then (w.extractLsb' 0 3).toNat
  else (w.extractLsb' 2 1).toNat

/-- The instruction that a word's opcode and fields name, before the checks of `Instr.wf`. -/
def Row.read (opc : Nat) (w : DWord) : Row → Except Reject Instr
  | .r f => (unpackR w).map f
  | .rs fs => (unpackR w).bind (pickSel fs (selOf opc w))
  | .rc f => .ok (f (unpackRC w))
  | .rcs fs => pickSel fs (selOf opc w) (unpackRC w)
  | .i f => (unpackI w).map f
  | .m f => (unpackM w).map f
  | .mk f => (unpackMk w).map f
  | .c f => .ok (f (unpackC w))
  | .e f => .ok (f (unpackE w))
  | .es fs => pickSel fs (selOf opc w) (unpackE w)

/-- The checks of R81 step 2 on the instruction a word names. -/
def checked : Except Reject Instr → Except Reject Instr
  | .ok i => if i.wf then .ok i else .error .illFormed
  | .error r => .error r

/-- Decoding of a body word (R80, R81 steps 1 and 2): the instruction, or why it is ILLEGAL_ENCODING. -/
def decodeWord (w : DWord) : Except Reject Instr :=
  if Wf.reserved w then .ok (.illegalOpcode w)
  else if (w.extractLsb' 60 4).toNat = 0xE then checked ((unpackP w).map .pairedWord)
  else
    match row (w.extractLsb' 56 8).toNat with
    | some r => checked (r.read (w.extractLsb' 56 8).toNat w)
    | none => .ok (.illegalOpcode w)

/-- The word of an instruction that has one (R52, R62-R78): every row of the opcode map, paired words, and the
reserved words themselves. -/
def encode : Instr → Option DWord
  | .pairedWord p => some p.pack
  | .illegalOpcode w => some w
  | i => i.fields.map fun f => f.1 ++ f.2.pack

/-! ### Clause headers -/

/-- A header's word (R53). -/
def Header.pack (h : Header) : DWord :=
  0#8 ++ h.n ++ h.wait ++ h.seta ++ h.setb ++ h.le ++ BitVec.ofBool h.yld ++ 0#28
/-- The fields of a header word (R53). -/
def Header.unpack (w : DWord) : Header :=
  { n := w.extractLsb' 52 4, wait := w.extractLsb' 40 12, seta := w.extractLsb' 36 4, setb := w.extractLsb' 32 4,
    le := w.extractLsb' 29 3, yld := w.getLsbD 28 }
/-- A word has the TAG of a header (R53, R55, R56). -/
def isHeader (w : DWord) : Bool := w.extractLsb' 56 8 = 0
/-- SETA and SETB are 0-11 or 15 (R53). -/
def Header.setOk (s : BitVec 4) : Bool := s.toNat < 12 || s.toNat = 15
/-- The conditions of R54 and R55 on a word in header position, with the sheet's LDEP. -/
def headerOk (w : DWord) (ldep : Nat) : Bool :=
  let h := Header.unpack w
  isHeader w && h.n ≠ 0 && Header.setOk h.seta && Header.setOk h.setb && h.le.toNat ≤ 4 &&
  (h.le = 0 || h.le.toNat = ldep) && w.extractLsb' 0 28 = 0

/-! ### Bytes -/

/-- A little-endian number of bytes (R1). -/
def leNat : List Byte → Nat
  | [] => 0
  | b :: bs => b.toNat + 256 * leNat bs
/-- The `n` low bytes of a number, little-endian (R1). -/
def leBytes : Nat → Nat → List Byte
  | 0, _ => []
  | n + 1, x => BitVec.ofNat 8 x :: leBytes n (x / 256)

/-- Decoding of the eight bytes of a code word, the lowest address first (R52). -/
def decodeBytes (bs : List Byte) : Except Reject Instr := decodeWord (BitVec.ofNat 64 (leNat (bs.take 8)))

/-- The instruction that the decoder reads from a word whose bits are `w`, `nbits` of them given and the others 0. -/
def decodeTableWord (nbits w : Nat) : Option Instr :=
  match decodeBytes (leBytes 8 (w % 2 ^ nbits)) with
  | .ok i => some i
  | .error _ => none

end Sys2Proof
end

