-- ==== Sys2Proof/Config.lean ====
section
/-! DEFINITION. What the manual leaves to the part: the free values (opaque, so nothing can be proved of a value) and
the figures of R10 that other definitions use. -/

namespace Sys2Proof.Config

/-- Free choice (log 3): an index, applied to the step's free counter and to a key that tells apart the choices of
one step. Used where the manual gives a set of outcomes of which the part takes one (R59, R85). -/
opaque pick : Nat → Nat → Nat

/-- Free word (log 3): applied to a free counter and an index. Used for noise words (R141) and for the contents of
tiles and array allocations at reservation (R244, R269). -/
opaque freeWord : Nat → Nat → Word

/-- Free 64-bit value (log 3), as `freeWord`. -/
opaque freeDWord : Nat → Nat → DWord

/-- Which of the two FP32 neighbours of the exact result an approximate function gives (R125): true for the one
further from zero. One fixed function of the operation (0 rcp, 1 rsq, 2 exp2, 3 log2, 4 tanh, 5 sin, 6 cos) and the
operand, as R125 requires. -/
opaque approxAway : Nat → Word → Bool

/-- SHA-384 (R350, R351), a function of the bytes the manual takes from its standard. -/
opaque sha384 : List Byte → List Byte
/-- The hashes of the two root public keys in the boot ROM (R350). -/
opaque romKeys : List Byte
/-- The keys that the body of a first-stage image holds (R350), of which the manual gives no layout. -/
opaque stageKeys : List Byte → List Byte
/-- ECDSA over P-384 verification (R350): keys or their hashes, signed bytes, signature. -/
opaque ecdsaOk : List Byte → List Byte → List Byte → Bool
/-- LMS verification (R350): keys or their hashes, signed bytes, signature. -/
opaque lmsOk : List Byte → List Byte → List Byte → Bool
/-- The MAC of a block of memory (R358), whose algorithm the manual does not give: of the root key, the page's generation,
the block's counter, its address and its plain bytes. -/
opaque mac : BitVec 256 → Nat → Nat → Nat → List Byte → DWord
/-- The bytes of an attestation report over accepted digests and SVNs (R351), whose layout the manual does not give. -/
opaque report : List (List Byte × Nat) → List Byte

/-- A partition entry of a configuration image (R352): gallery mask, HBM base and size, port mask, owner key hashes. -/
structure PartCfg where
  galleries : BitVec 40
  hbmBase   : Nat
  hbmSize   : Nat
  ports     : BitVec 36
  keys      : List Byte
  deriving DecidableEq, Repr, Inhabited
/-- What the body of a configuration image says (R352). -/
structure CfgImage where
  disabled : List (List Nat)
  class_   : Word
  node     : BitVec 24
  power    : Nat
  parts    : List PartCfg
  deriving DecidableEq, Repr, Inhabited
/-- The reading of a configuration image's body: R352 names its fields and gives no offsets for them. -/
opaque cfgImage : List Byte → CfgImage

/-- Cores of a die (R10). -/
abbrev coresPerDie : Nat := 200
/-- Cores of a gallery (R10). -/
abbrev coresPerGallery : Nat := 20
/-- Strands of a sheet (R19). -/
abbrev strands : Nat := 96
/-- Records a die spawn pool holds (R29). -/
abbrev poolRecords : Nat := 32768
/-- Requests a die fault buffer holds (R171). -/
abbrev faultEntries : Nat := 1024
/-- Parts of one REFT tick that `State.now` counts: a multiple of every die clock's period (R13). -/
abbrev tickParts : Nat := 720720
/-- Bytes of one HBM channel: 1.5 GiB (R353). -/
abbrev channelBytes : Nat := 1610612736

end Sys2Proof.Config
end

