-- ==== Sys2Proof/Machine/Tab.lean ====
section
/-! DEFINITION. Sparse data by number: lists of (key, value) pairs with keys strictly rising. `get` reads an absent key
as a default, and `set` drops a key that is set to the default, so that equal contents are equal lists; `put` and
`find` keep presence itself, for things that exist or do not. -/

namespace Sys2Proof.Machine

/-- Keys strictly rising (`Tab.wf`). -/
abbrev Tab (α : Type) := List (Nat × α)

/-- The entry of a key. -/
def Tab.find {α : Type} : Tab α → Nat → Option α
  | [], _ => none
  | (k, v) :: t, n => if n = k then some v else Tab.find t n

/-- The entry of a key, or the default. -/
def Tab.get {α : Type} (d : α) (t : Tab α) (n : Nat) : α := (t.find n).getD d

/-- The table with an entry put at a key. -/
def Tab.put {α : Type} : Tab α → Nat → α → Tab α
  | [], n, x => [(n, x)]
  | (k, v) :: t, n, x => if n < k then (n, x) :: (k, v) :: t else if n = k then (n, x) :: t else (k, v) :: Tab.put t n x

/-- The table without a key. -/
def Tab.del {α : Type} : Tab α → Nat → Tab α
  | [], _ => []
  | (k, v) :: t, n => if n = k then Tab.del t n else (k, v) :: Tab.del t n

/-- The table that reads `x` at a key and keeps no default entry. -/
def Tab.set {α : Type} [DecidableEq α] (d : α) (t : Tab α) (n : Nat) (x : α) : Tab α :=
  if x = d then t.del n else t.put n x

/-- Every entry changed. -/
def Tab.mapv {α : Type} (f : α → α) (t : Tab α) : Tab α := t.map fun e => (e.1, f e.2)

/-- The entry of a key changed, if there is one; every entry keeps its place. -/
def Tab.upd {α : Type} (t : Tab α) (n : Nat) (f : α → α) : Tab α := t.map fun e => if e.1 = n then (e.1, f e.2) else e

/-- Keys rise strictly from `lo`. -/
def Tab.above {α : Type} : Nat → Tab α → Bool
  | _, [] => true
  | lo, (k, _) :: t => decide (lo ≤ k) && Tab.above (k + 1) t

/-- The canonical form of a table whose absent keys read `d`. -/
def Tab.wf {α : Type} [DecidableEq α] (d : α) (t : Tab α) : Bool := Tab.above 0 t && t.all fun e => decide (e.2 ≠ d)

end Sys2Proof.Machine
end

