-- ==== Sys2Proof/Machine/State.lean ====
section
/-! DEFINITION. The state of the module as plain data: everything the manual gives the part (INVENTORY.md, State), and
the machine right after power is applied. Times are kept in 1/720720 of a REFT tick (`Config.tickParts`), which every
die clock divides (R13). Tables are sparse (`Tab`); what an absent entry means is said with each field. -/

namespace Sys2Proof.Machine

/-- Why a step can stop. -/
inductive Fault where
  /-- Raised by every body word, LOOP_BACK_EDGE and CLAUSE_HEADER_FETCH when `State.cur` names no sheet that is in
  issue: such a step is no event of the part, since only a sheet in issue executes words (R292). Safe. -/
  | noSheetInIssue
  deriving DecidableEq, Repr

/-- Why a step has no meaning. -/
inductive Refusal where
  /-- An instruction of the table without a meaning in the model; raised by no meaning. Safe. -/
  | notModelled (mnemonic : String)
  deriving DecidableEq, Repr

/-- A sheet: its quire's handle and its quire sheet slot (R22). Handles are the model's own names of quires. -/
structure SheetRef where
  h : Nat
  k : Nat
  deriving DecidableEq, Repr

/-! ### A sheet -/

/-- A 32-bit register of one issuer (R47, R64). -/
inductive RegKey where
  /-- Register row `r` of strand `s`, after R195. -/
  | v (r s : Nat)
  /-- S0-S63. -/
  | s (n : Nat)
  /-- Q0-Q15. -/
  | q (n : Nat)
  deriving DecidableEq, Repr

/-- A register that an outstanding long-latency word writes: its value once known, and whether another word has
written it since (R59). -/
structure LLOut where
  key   : RegKey
  val   : Option Word
  raced : Bool
  deriving DecidableEq, Repr

/-- An outstanding long-latency word (R58): its flag, the parts of its result that other agents still owe, its
destinations, and whether they take noise words when it completes (R141). -/
structure LL where
  id     : Nat
  flag   : Nat
  left   : Nat
  outs   : List LLOut
  noise  : Bool
  /-- Physical address of an uncorrectable error in its data: it never completes (R172). -/
  ue     : Option Nat := none
  /-- Physical bytes off algebra pages that it has read: address and length (R172). -/
  reads  : List (Nat × Nat) := []
  deriving DecidableEq, Repr

/-- What keeps a sheet out of the ready set (R43, R337). A wait that keeps its place at the word issues the word again
when it ends; the others have captured their operands and end in the effect they name. -/
inductive Wait where
  /-- Ready. -/
  | none
  /-- Clause WAIT flags (R57). -/
  | flags
  /-- At the word: it issues again; the number is the stall counter of R337 that counts the wait. -/
  | issue (reason : Nat)
  /-- `bar.wait` and `bar.sync` for a phase of a barrier (R203). -/
  | bar (b phase : Nat)
  /-- `pwait` on a pool into a group, with a deadline (R177). -/
  | pwait (p sd : Nat) (dl : Option DWord)
  /-- `pdrain` (R177). -/
  | pdrain (p : Nat)
  /-- `join` (R32). -/
  | join
  /-- `rgrow` of granules into a register, since a time (R38, R39). -/
  | rgrow (n : Nat) (d : RegKey) (since : Nat)
  /-- `spawn`: entry, the three argument registers after R195, strands whose records are still to be written,
  long-latency words waited for (R26). -/
  | spawn (entry : DWord) (args : List Nat) (strands : List Nat) (ids : List Nat)
  /-- `yield` (R205). -/
  | yield
  /-- `mx.wait` for a batch into a pair (R258). -/
  | mxWait (n : Word) (sd : Nat)
  /-- A global access or fetch whose translation a walker looks up (R169), with the strand and whether it is a load
  whose sectors may be held (R171). -/
  | walk (va : DWord) (strand : Nat) (fetch : Bool)
  /-- Parked on a repairable translation fault (R170). -/
  | parked (va : DWord) (strand : Nat) (fetch : Bool)
  /-- `vdrain` (R241). -/
  | vdrain
  /-- `wm.sync` into a register (R279). -/
  | wmSync (sd : Nat)
  /-- `wm.init` of an extent with an initial value, for the WMA operations, and the waiting `wm.init` words of lower turns,
  issued before it (R270). -/
  | wmInit (ids : List Nat) (turn mode base len : Nat) (init cap : Word)
  /-- `dkload` of an installation (R236). -/
  | dkload (id : Nat)
  /-- A write of CTXCTL that suspends a context (R299). -/
  | suspend (ctx : Nat)
  deriving DecidableEq, Repr

/-- A loop slot (R191). -/
structure Slot where
  cnt  : Word
  beg  : DWord
  fin  : DWord
  nst  : BitVec 4
  win  : Word
  rot  : BitVec 8
  feed : Mask
  park : Mask
  deriving DecidableEq, Repr

/-- A slot at launch (R191). -/
def Slot.zero : Slot := { cnt := 0, beg := 0, fin := 0, nst := 0, win := 0, rot := 0, feed := 0, park := 0 }

/-- A `loop` word that has issued in the current clause (R193): the count it read, its fields and its body index. -/
structure PLoop where
  n    : Word
  fin  : DWord
  mod  : BitVec 16
  idx  : Nat
  deriving DecidableEq, Repr

/-- An entry of the batch status window (R257, R258): batch number, status, tile and faulting address of the first
operation that ended faulted. -/
structure Batch where
  n      : Word
  status : BitVec 8
  tile   : Nat
  addr   : Word
  deriving DecidableEq, Repr

/-- A sheet (R19, R47). Absent entries of `v`, `s`, `k`, `flags`, `ms`, `lstg`, `stalls`, `qv` and `spawns` read 0. -/
structure Sheet where
  /-- Retired (R33). -/
  exited  : Bool
  wait    : Wait
  /-- Allocation in rows, its first row, lane block and block sheet slot (R34, R35). -/
  alloc   : Nat
  base    : Nat
  lb      : Nat
  slot    : Nat
  /-- Program counter (R52), header of the clause in progress, its fields, and the body index (0 at the header,
  N + 1 at the clause's end, R213). -/
  pc      : DWord
  hdrAddr : DWord
  hdr     : Header
  idx     : Nat
  pend    : Option PLoop
  /-- The `loop` word whose level was still to open when the sheet trapped, with its clause's header, for a return into
  that clause (R193, R213). -/
  kept    : Option (DWord × PLoop)
  /-- Row `r` of strand `s` at 96 r + s. -/
  v       : Tab Word
  s       : Tab Word
  exm     : Mask
  k       : Tab Mask
  flags   : Tab Nat
  lls     : List LL
  ms      : Tab Mask
  msp     : Nat
  regions : List (BitVec 16)
  ldep    : Nat
  fbase   : Nat
  slots   : Tab Slot
  lstg    : Tab (BitVec 8)
  tpc     : DWord
  thdr    : DWord
  tcause  : Word
  taddr   : DWord
  tinfo   : Word
  tstat   : Word
  tvec    : DWord
  sflags  : Word
  strap   : Word
  tlbva   : DWord
  reftCap : Option Word
  cycCap  : Option Word
  stalls  : Tab Word
  hash    : DWord
  batch   : Word
  window  : List Batch
  /-- The batch that no `mx.fence` has closed, and the latest complete one, 0 for none (R257, R259). -/
  cur     : Batch
  mxDone  : Word
  /-- Posts issued and not accepted (R225). -/
  posts   : Nat
  /-- Phase of the latest arrival at each barrier whose completion the sheet has not observed (R203). -/
  arrived : Tab Nat
  /-- When the sheet last began a clause, or was launched or resumed (R292). -/
  began   : Nat
  /-- The cycle from which the sheet can be chosen: a task sheet issues its first word 7 cycles after its sheet slot and
  rows are chosen, which is cycle 8 of its launch (R15, R49). -/
  startAt : Nat
  /-- The entry header of a task sheet once it has been fetched ahead of the sheet's first issue (R49). -/
  early   : Option DWord
  /-- Start of the unbroken run of yields and waits of R45, and the latest of them. -/
  spinFrom : Nat
  spinLast : Nat
  /-- Q registers as the sheet sees them (R46). -/
  qv      : Tab Word
  /-- Sectors of a parked relaxed load (R171), by sector number. -/
  held    : Tab (List Byte)
  /-- Region edges checked and noise words used under replay (R341, R342); spawn count of each strand (R340). -/
  edges   : Nat
  noises  : Nat
  spawns  : Tab Nat
  /-- The stall counter of the wait for which the sheet's next body word cannot issue now, though the sheet is ready (R292, R337);
  the model's own. -/
  barred  : Option Nat := none
  deriving DecidableEq, Repr

/-- A sheet's registers at launch (R47) before its placement, entry, arguments and EXM are set. TLBVA and the
captures have no stated value at launch (log 6). -/
def Sheet.blank : Sheet :=
  { exited := false, wait := .none, alloc := 0, base := 0, lb := 0, slot := 0, pc := 0, hdrAddr := 0,
    hdr := { n := 0, wait := 0, seta := 15, setb := 15, le := 0, yld := false }, idx := 0, pend := none, kept := none, v := [],
    s := [], exm := 0, k := [], flags := [], lls := [], ms := [], msp := 0, regions := [], ldep := 0, fbase := 0,
    slots := [], lstg := [], tpc := 0, thdr := 0, tcause := 0, taddr := 0, tinfo := 0, tstat := 0, tvec := 0,
    sflags := 0, strap := 0, tlbva := 0, reftCap := none, cycCap := none, stalls := [], hash := 0, batch := 1,
    window := [], cur := { n := 1, status := 0, tile := 0, addr := 0 }, mxDone := 0, posts := 0, arrived := [],
    began := 0, startAt := 0, early := none, spinFrom := 0, spinLast := 0, qv := [], held := [], edges := 0, noises := 0,
    spawns := [] }

/-! ### A quire -/

/-- A barrier (R203, R297). -/
structure Bar where
  e     : Nat
  a     : Nat
  phase : Nat
  deriving DecidableEq, Repr

/-- The writes of a Q register in its latest cycle with a write: the cycle, the quire sheet slots that wrote then, and
what the register held before (R46, R48). -/
structure QWrite where
  cyc  : Nat
  ks   : List Nat
  prev : Word
  deriving DecidableEq, Repr

/-- A pool register (R173). -/
structure Pool where
  off    : Word
  n      : Nat
  rd     : Nat
  filled : Nat
  resv   : Nat
  deriving DecidableEq, Repr

/-- A tile element (R101). -/
structure Elem where
  m    : Int
  code : BitVec 2
  deriving DecidableEq, Repr

/-- A tile (R101, R251). While `fresh` holds, absent elements hold the free values of `key` (R244, log 8); after
`mx.zero` they hold 0 with code finite. -/
structure Tile where
  fresh : Bool
  key   : Nat
  el    : Tab Elem
  e     : Int
  act   : Bool
  flt   : Bool
  fstat : BitVec 8
  nblk  : Nat
  done  : Nat
  /-- Low 32 bits of the faulting address of the operation that faulted the tile (R252). -/
  faddr : Word
  deriving DecidableEq, Repr

/-- A bound extent (R270). -/
structure Extent where
  mode : Nat
  cap  : Word
  base : Nat
  len  : Nat
  ver  : Word
  deriving DecidableEq, Repr

/-- One spawn record (R26): spawner's handle, its quire identity, arguments, and its origin under R340. -/
structure SpawnRec where
  spawner : Option Nat
  qid     : Word
  a0      : Word
  a1      : Word
  a2      : Word
  origin  : DWord
  deriving DecidableEq, Repr

/-- Why a quire left its core (R298). -/
inductive SwapCause where
  | join | spin | preempt | suspend
  deriving DecidableEq, Repr

/-- Where a quire stands. -/
inductive Phase where
  /-- Granted to a core and waiting there for its resources (R36), since a time. -/
  | waiting (since : Nat)
  | resident
  /-- Its last sheet has exited; engine operations go on (R202). -/
  | draining
  /-- Stopped with its state kept (R210, R172, R335); true when R335 lets system software resume it. -/
  | stopped (resumable : Bool)
  /-- Swap-out has begun (R294, R295). -/
  | saving (cause : SwapCause)
  /-- Saved at a physical address (R297): cause, the cause it returns to after a suspension (R298), since when the
  record stands, and since when it has been eligible to resume. -/
  | swapped (cause : SwapCause) (addr wroteAt : Nat) (eligible : Option Nat)
  deriving DecidableEq, Repr

/-- A quire (R22, R47). Absent Q registers and chamber bytes read 0; absent barriers and pools are uninitialised. -/
structure Quire where
  phase   : Phase
  ctx     : Nat
  qid     : Word
  core    : Nat
  task    : Bool
  /-- The quire sheet slot of the sheet whose trap stopped the quire under R335, until software resumes it. -/
  halted  : Option Nat
  /-- Launch parameters: queue priority, sheets, row granules, chamber granules, tiles, array granules, active
  strands, entry and S0-S31 (R287). -/
  qprio   : Nat
  nsheets : Nat
  rowg    : Nat
  chamg   : Nat
  ntiles  : Nat
  wmag    : Nat
  active  : Nat
  entry   : DWord
  sinit   : List Word
  /-- Ream and linear index (R23, R289), or the records of a task (R30). -/
  ream    : Option Nat
  lin     : Nat
  recs    : List SpawnRec
  /-- REFT tick of the launch; while the quire waits at a core, of its arrival there (R291). -/
  launched : Nat
  q       : Tab Word
  /-- The latest writes of each Q register since the launch or resume. -/
  qw      : Tab QWrite
  bars    : Tab Bar
  pools   : Tab Pool
  joins   : Nat
  /-- When a sheet last entered `join`, or the quire resumed with a sheet in it, while the join counter has stayed nonzero
  (R32). -/
  joinAt  : Option Nat
  chamAt  : Nat
  cham    : Tab Byte
  /-- Physical tiles held, lowest first (R244), and the logical tiles. -/
  tileAt  : List Nat
  tiles   : Tab Tile
  arrAt   : Nat
  /-- Array elements by index in the allocation; an absent one holds the free value of `fkey` (R269, log 8). -/
  arr     : Tab Word
  fkey    : Nat
  ext     : Option Extent
  /-- Subscription (R261): stream number in the gallery and blocks claimed. -/
  sub     : Option (Nat × Nat)
  sheets  : Tab Sheet
  deriving DecidableEq, Repr

/-! ### Engine operations -/

/-- A range scoreboard entry (R146, R266, R276): its operation, the quire and the byte range, and whether a copy or a
matrix operation holds it. -/
structure Board where
  op   : Nat
  h    : Nat
  lo   : Nat
  hi   : Nat
  copy : Bool
  mx   : Bool
  deriving DecidableEq, Repr

/-- One side of a copy or matrix operand: chamber offset or virtual address. -/
structure Side where
  cham : Bool
  addr : DWord
  deriving DecidableEq, Repr

/-- A copy in flight (R179-R182): rows of `bytes` at signed strides. -/
structure Copy where
  id    : Nat
  ref   : SheetRef
  src   : Side
  dst   : Side
  bytes : Nat
  rows  : Nat
  sstr  : Int
  dstr  : Int
  pool  : Nat
  tag   : Word
  slow  : Bool
  deriving DecidableEq, Repr

/-- A near-memory command in flight (R234). -/
structure Nm where
  id   : Nat
  ref  : SheetRef
  dot  : Bool
  op   : Nat
  bf   : Bool
  x    : DWord
  y    : DWord
  len  : Nat
  dst  : DWord
  a    : Word
  pool : Nat
  tag  : Word
  slow : Bool
  deriving DecidableEq, Repr

/-- A format-block descriptor (R246). -/
structure FmtBlock where
  afmt : Nat
  bfmt : Nat
  ask  : Nat
  bsk  : Nat
  aloc : Bool
  bloc : Bool
  ascl : DWord
  bscl : DWord
  deriving DecidableEq, Repr

/-- A convolution descriptor (R253) and p0. -/
structure Conv where
  n  : Nat
  h  : Nat
  w  : Nat
  c  : Nat
  p  : Nat
  q  : Nat
  fh : Nat
  fw : Nat
  sh : Nat
  sw : Nat
  ph : Nat
  pw : Nat
  dh : Nat
  dw : Nat
  p0 : Nat
  deriving DecidableEq, Repr

/-- Operands of `mx.mma`, and of `mx.conv` with its descriptor (R249, R253): B is absent for a siphon stream. -/
structure Mma where
  a    : Side
  b    : Option Side
  astr : Nat
  bstr : Nat
  kk   : Nat
  f    : FmtBlock
  conv : Option Conv
  deriving DecidableEq, Repr

/-- What a matrix operation does (R243); `unsub` is an `mx.unsub` that waits for earlier operations and takes no queue
entry (R243, R263). -/
inductive MxKind where
  | zero (e : Int)
  | mma  (m : Mma)
  | read (dst : Side) (stride rows fmt : Nat) (clr : Bool) (ll : Nat)
  | unsub
  deriving DecidableEq, Repr

/-- A matrix operation that has issued and not completed (R243): its batch, whether it has started, the fault that
stopped it, and the block with the address at which a correctable error needed a retry (R252). -/
structure MxOp where
  id    : Nat
  ref   : SheetRef
  tile  : Nat
  batch : Word
  kind  : MxKind
  begun : Bool
  fault : Option (BitVec 8 × Word)
  retry : Option (Nat × DWord) := none
  deriving DecidableEq, Repr

/-- A candidate descriptor (R273). -/
structure Cand where
  off    : Nat
  len    : Nat
  key    : Word
  first  : Nat
  sparse : Bool
  deriving DecidableEq, Repr

/-- What a WMA operation in flight does (R277-R279). -/
inductive WmKind where
  | probe  (c : Cand)
  | commit (c : Cand) (ver : Option Word)
  | select (cs : List Cand) (thr : DWord)
  | read   (dst first count : Nat)
  deriving DecidableEq, Repr

/-- A WMA operation in flight (R274, R280): its sheet, long-latency word and result registers. -/
structure WmOp where
  id   : Nat
  ref  : SheetRef
  ll   : Nat
  sd   : Nat
  kind : WmKind
  deriving DecidableEq, Repr

/-! ### Who waits, and engines' accesses to algebra words -/

/-- An agent whose accesses may wait (R359, R363), and whose accesses to algebra words wait at vats (R225, R341): a sheet, an
engine's operation, a vat, a host write, a quire's swap record, a ream's completion word, a launch queue, a write of the module's
own, a siphon stream, an operation of another module by its name under R311, a command. -/
inductive Who where
  | sheet (r : SheetRef)
  | op (id : Nat)
  | vat (ch : Nat)
  | host (id : Nat)
  | quire (h : Nat)
  | ream (id : Nat)
  | queue (part queue : Nat)
  | post (id : Nat)
  | siphon (gallery stream : Nat)
  | remote (ctx slot gen rank num : Nat)
  | cmd (part : Nat)
  deriving DecidableEq, Repr

/-- A word of an algebra page that an engine reads (R147): its virtual address, and what its vat has answered. -/
structure Grab where
  who : Who
  va  : DWord
  val : Option Word
  deriving DecidableEq, Repr

/-- An engine's operation that has made its accesses, some of which its vats have not applied yet (R147, R225): the status with
which it ends, the bytes done, what its slot says beside and the data of its answer; and whether its far-end post is still to come
(R324). -/
structure Fin where
  who    : Who
  status : BitVec 8
  done   : Nat
  aux    : Word := 0
  data   : List Byte := []
  post   : Bool := false
  deriving DecidableEq, Repr

/-! ### Vats -/

/-- What an operation at a vat does (R219, R224). -/
inductive VAct where
  /-- Operator slot `n` of the governing table, its KIND and TYPE, with an operand. -/
  | slot   (n kind ty : Nat) (x : DWord)
  /-- LOAD and STORE, which are slots 0 and 1 when the table slot holds a table. -/
  | load
  | store  (x : DWord)
  /-- `atom` KIND (R165), with the table slot that matches it (R224). -/
  | atom   (kind : Nat) (x : DWord) (n : Option Nat)
  | cas    (old new : DWord)
  | arm    (entry : DWord) (arg : Word)
  | disarm
  /-- Part of a word: byte offset and length (R218). -/
  | subLoad  (off len : Nat)
  | subStore (off len : Nat) (x : DWord)
  deriving DecidableEq, Repr

/-- Where a value that a vat returns goes (R225): the long-latency word and its registers, low word first. -/
structure Ret where
  ref  : SheetRef
  ll   : Nat
  keys : List RegKey
  deriving DecidableEq, Repr

/-- The model's name of a sheet's operation at a vat: its issuer and strand (127 when the sheet acts once), its word and
when it issued. -/
structure OpKey where
  ref  : SheetRef
  lane : Nat
  word : Nat
  time : Nat
  deriving DecidableEq, Repr

/-- An operation at a vat (R217, R218): issuer (quire identity and slot for the log, R338; none for another module),
strand (127 when the sheet acts once), the word's physical address and width, order, context, table slot, virtual
address, whether it counts as a post, and whether its word lies in a designated range under RECORD or REPLAY (R338,
R341). `epoch` counts the contents its table slot had at the vat when it was accepted (R236), `issued` is a time, `keys`
are the operations that are merged in it, itself first, `prior` those that happen before one of them (R154), `late`
says that it has found the queue full and waits in the input (R225), and `eng` names the engine's operation, or those merged in it,
that it belongs to (R147). -/
structure VOp where
  ref   : Option SheetRef
  lane  : Nat
  word  : Nat
  w64   : Bool
  act   : VAct
  ord   : Ord
  scope : Scope
  ctx   : Nat
  tab   : Nat
  va    : DWord
  ret   : Option Ret
  post  : Bool
  gated : Bool
  epoch : Nat
  issued : Nat
  keys   : List OpKey
  prior  : List OpKey
  late   : Bool := false
  eng    : List Who := []
  deriving DecidableEq, Repr

/-- A trigger entry (R231, R232): armed, or holding its fired record until the pool has room. `name` is the model's own. -/
structure Trigger where
  word  : Nat
  w64   : Bool
  ctx   : Nat
  entry : DWord
  arg   : Word
  va    : DWord
  fired : Bool
  name  : Nat := 0
  deriving DecidableEq, Repr

/-- The order gate of a vat in replay (R341), per context: position in the log stream, count of the current run used,
open, and since when nothing has matched. -/
structure Gate where
  ctx   : Nat
  pos   : Nat
  used  : Nat
  opened : Bool
  since : Option Nat
  deriving DecidableEq, Repr

/-- A vat (R225, R231). -/
structure Vat where
  input    : List VOp
  queue    : List VOp
  triggers : List Trigger
  full     : Nat
  gates    : List Gate
  /-- The run being recorded (R338): context, issuer, count. -/
  run      : Option (Nat × Option SheetRef × Nat)
  deriving DecidableEq, Repr

/-- An idle vat. -/
def Vat.empty : Vat := { input := [], queue := [], triggers := [], full := 0, gates := [], run := none }

/-- A table installation that has not reached every vat (R236): its new content, none for `.clr`, and the vats it has
reached; later entries of the module's list are later installations. -/
structure Install where
  id    : Nat
  ref   : SheetRef
  ctx   : Nat
  slot  : Nat
  image : Option (List Byte)
  done  : List Nat
  deriving DecidableEq, Repr

/-! ### Fabric -/

/-- A member table entry (R313): node, context there, and the local ports of its valid routes in order. -/
structure Member where
  node   : BitVec 24
  ctx    : Nat
  routes : List Nat
  deriving DecidableEq, Repr

/-- State of a group slot (R314). -/
inductive GState where
  | unbound | active | settling | aborted | reforming | excluded
  deriving DecidableEq, Repr

/-- A bound group slot (R312-R332). -/
structure Group where
  st      : GState
  nmem    : Nat
  rank    : Nat
  gen     : Nat
  lat     : Nat
  defdl   : Nat
  span    : Nat
  members : List Member
  /-- The settled triple, the triples of the window, and when the window ends (R316). -/
  trip    : Option Triple
  seen    : List Triple
  window  : Option Nat
  origin  : Bool
  /-- `gbar` words issued in the generation, and instances that each member has issued (R325). -/
  bars    : Nat
  arrived : List (Nat × Nat)
  /-- Proposals collected as coordinator, and whether the collection is over (R320); operations that have arrived and
  wait: of the next generation (R331), behind earlier ones, or for a repair (R323). -/
  props   : List (Nat × List Nat)
  shut    : Bool
  held    : List RemoteOp
  /-- Operations held for the next generation that its members perform in arrival order, by rank and number (R331), and a
  decision that has come before the slot has settled (R320). -/
  lined   : List (Nat × Nat) := []
  decided : Option (List Nat) := none
  deriving DecidableEq, Repr

/-- What a fabric operation does (R321). -/
inductive FKind where
  | send  (loc : Side) (rem : DWord) (len target : Nat)
  | fetch (loc : Side) (rem : DWord) (len target : Nat)
  | bar   (inst : Nat)
  /-- `greform` with its mask, empty for none. -/
  | reform (mask : List Byte)
  /-- `greform` that has not read its mask yet (R320). -/
  | reformMask (addr : DWord)
  deriving DecidableEq, Repr

/-- A fabric operation in flight (R315, R323): its operation number, deadline and expiry point in REFT, generation,
far-end post (slot, address, operand), the operations that SEQ puts before it, its route, whether it has left, found no
route or passed its expiry point, an answer whose data cannot be written yet, and whether it has to leave again by another
route (R311). -/
structure FabOp where
  id      : Nat
  ref     : SheetRef
  ctx     : Nat
  slot    : Nat
  kind    : FKind
  post    : Option (Nat × DWord × Word)
  after   : List Nat
  pool    : Nat
  tag     : Word
  d       : Nat
  exp     : Nat
  gen     : Nat
  port    : Option Nat
  sent    : Bool
  noRoute : Bool
  expired : Bool
  ans     : Option FabricAnswer
  resend  : Bool := false
  deriving DecidableEq, Repr

/-- What the module puts on the fabric: an operation for a member, an answer, the messages of R316 and R320, and the
flits of the link (R308-R310, R319, R361). -/
inductive Msg where
  | op       (target : Nat) (op : RemoteOp)
  | reply    (op : RemoteOp) (ans : FabricAnswer)
  | notice   (ctx slot : Nat) (t : Triple)
  | proposal (ctx slot target gen rank : Nat) (members : List Nat)
  | decision (ctx slot gen : Nat) (members : List Nat)
  | ack      (seq : BitVec 12)
  | nak      (seq : BitVec 12)
  | laneMap  (lane : Nat) (seq : BitVec 12)
  | down
  | unreachable (node : BitVec 24)
  | hello    (node : BitVec 24) (port : Nat)
  deriving DecidableEq, Repr

/-- What leaves on a port: the flit, or the last flit, of a message, by its SEQ (R308). -/
structure Sent where
  seq : BitVec 12
  msg : Msg
  deriving DecidableEq, Repr

/-- A lane repair under way (R310): the lane whose place the spare takes; the SEQ at which the new map begins for the flits
that this end sends, once it has named one, and for those that it receives; and whether each has begun. -/
structure Repair where
  lane   : Nat
  mine   : Option (BitVec 12) := none
  theirs : Option (BitVec 12) := none
  sent   : Bool := false
  got    : Bool := false
  deriving DecidableEq, Repr

/-- A fabric port (R307-R310, R361). `map` and `sentMap` are the physical lane of each data lane of received and of sent
flits, 4 being the spare. -/
structure Port where
  up       : Bool
  training : Bool
  /-- The lanes that trained, from when this end has sent the flits of R361 until the port goes up. -/
  lanes    : Option (List Bool)
  spare    : Bool
  map      : List Nat
  sentMap  : List Nat
  tx       : BitVec 12
  rx       : BitVec 12
  /-- Sent flits that are not acknowledged (R309), oldest first: SEQ and message; and messages that wait for room. -/
  buf      : List (BitVec 12 × Msg)
  queue    : List Msg
  /-- An outstanding replay: its first and last SEQ, and since when; and replays failed in a row. -/
  replay   : Option (BitVec 12 × BitVec 12 × Nat)
  fails    : Nat
  /-- Naks still to come for flits that had been sent behind the one that an outstanding replay began at; and the last SEQ
  that the far end's outstanding replay has to bring again, as far as this end has seen (R309). -/
  stale    : Nat
  owed     : Option (BitVec 12)
  /-- Times of the charges of each lane (R310). -/
  charges  : Tab (List Nat)
  repair   : Option Repair
  downAt   : Nat
  /-- The node and port behind the port (R361), and nodes reported unreachable on it (R319). -/
  peer     : Option (BitVec 24 × Nat)
  lost     : List (BitVec 24)
  /-- Lifetime counters of each lane (R362): CRC charges and repairs. -/
  crc      : Tab Nat
  repairs  : Tab Nat
  deriving DecidableEq, Repr

/-- A port before its die is up (R361). -/
def Port.down : Port :=
  { up := false, training := false, lanes := none, spare := true, map := [0, 1, 2, 3], sentMap := [0, 1, 2, 3], tx := 0,
    rx := 0, buf := [], queue := [], replay := none, fails := 0, stale := 0, owed := none, charges := [], repair := none, downAt := 0, peer := none, lost := [], crc := [],
    repairs := [] }

/-! ### Contexts, partitions and the host -/

/-- A context descriptor (R285). -/
structure CtxDesc where
  addr     : Nat
  ok       : Bool
  prio     : Nat
  priv     : Bool
  pin      : Bool
  preempt  : Bool
  bank     : Bool
  bintime  : Nat
  taskrows : Nat
  taskcham : Nat
  deftask  : Bool
  strap    : Word
  class_   : Word
  ptroot   : Nat
  swapbase : Nat
  swapsize : Nat
  deriving DecidableEq, Repr

/-- A debug descriptor (R333). -/
structure Debug where
  trbase  : Nat
  trsize  : Nat
  trace   : Bool
  banktr  : Bool
  record  : Bool
  replay  : Bool
  noise   : Bool
  stop    : Bool
  bankmin : Nat
  stopid  : List (BitVec 16)
  stopen  : BitVec 4
  logbase : Nat
  logsize : Nat
  ranges  : List (DWord × DWord)
  deriving DecidableEq, Repr

/-- A context (R285). Absent table slots are empty, absent group slots unbound, absent counts 0. -/
structure Ctx where
  part     : Nat
  desc     : CtxDesc
  nextId   : Nat
  /-- Content in force at every vat of table slots 0-3 (R217), their `dkload` counts (R237). -/
  tables   : Tab (List Byte)
  loads    : Tab Word
  groups   : Tab Group
  debug    : Option Debug
  diverged : Bool
  suspended : Bool
  /-- Records that stand in the swap area: offset and size (R297). -/
  swaps    : List (Nat × Nat)
  /-- Kind 3 entries of the log that replay has used (R341). -/
  idsUsed  : List Nat
  /-- Open streams of the log (R340): stream number, next free byte. -/
  streams  : Tab Nat
  deriving DecidableEq, Repr

/-- The descriptor that stands for a context that does not exist. -/
def CtxDesc.none : CtxDesc :=
  { addr := 0, ok := false, prio := 0, priv := false, pin := false, preempt := false, bank := false, bintime := 0,
    taskrows := 0, taskcham := 0, deftask := false, strap := 0, class_ := 0, ptroot := 0, swapbase := 0,
    swapsize := 0 }

/-- A context as created (R217, R285, R25). -/
def Ctx.fresh (part : Nat) (d : CtxDesc) : Ctx :=
  { part, desc := d, nextId := 0, tables := [], loads := [], groups := [], debug := none, diverged := false,
    suspended := false, swaps := [], idsUsed := [], streams := [] }

/-- A launch queue (R286): ring, k, context, priority, indices, and the ream whose record is at its head. -/
structure LQueue where
  ring : Nat
  k    : Nat
  ctx  : Nat
  prio : Nat
  rd   : Word
  wr   : Word
  head : Option Nat
  /-- Since when the head quire has stood unplaced (R293). -/
  since : Nat
  deriving DecidableEq, Repr

/-- A ream whose record has passed its checks (R287-R290), with its record's index in the ring. -/
structure Ream where
  part   : Nat
  queue  : Nat
  idx    : Word
  ctx    : Nat
  x      : Nat
  y      : Nat
  z      : Nat
  entry  : DWord
  nsheets : Nat
  rowg   : Nat
  chamg  : Nat
  ntiles : Nat
  wmag   : Nat
  active : Nat
  dies   : List Nat
  done   : Nat
  sinit  : List Word
  qprio  : Nat
  /-- Next linear index to place, quires that launched, quires placed that have not ended, and stopped (R288). -/
  next   : Nat
  began  : Nat
  open_  : Nat
  stopped : Bool
  deriving DecidableEq, Repr

/-- What a command that has not finished waits for (R346, R347): a context's suspension, or the re-key of a page with what it
reads, its descriptor (R359). -/
inductive Busy where
  | suspend   (ctx : Nat)
  | ctxCreate (addr : Nat)
  | groupBind (ctx slot addr : Nat)
  | debugBind (ctx addr : Nat)
  | resume    (ctx : Nat)
  deriving DecidableEq, Repr

/-- A partition and its function's BAR0 registers (R346, R349). -/
structure Part where
  galleries : BitVec 40
  hbmBase   : Nat
  hbmSize   : Nat
  ports     : BitVec 36
  keys      : List Byte
  /-- Bytes of the BAR2 aperture (R345). -/
  bar2      : Nat
  image     : Bool
  ready     : Bool
  cmdstat   : BitVec 8
  /-- BUSY (R346): what the command waits for. -/
  busy      : Option Busy
  evtbase   : DWord
  evtsize   : DWord
  evthead   : DWord
  evttail   : DWord
  dropped   : Nat
  msix      : Nat
  queues    : Tab LQueue
  deriving DecidableEq, Repr

/-- A function before its partition exists (R346; log 6). -/
def Part.none : Part :=
  { galleries := 0, hbmBase := 0, hbmSize := 0, ports := 0, keys := [], bar2 := 0, image := false, ready := false, cmdstat := 0,
    busy := Option.none,
    evtbase := 0, evtsize := 0, evthead := 0, evttail := 0, dropped := 0, msix := 0, queues := [] }

/-- Boot (R350-R352, R360): power good, stage reached (0 ROM, 1 first stage, 2 hypervisor, 3 configuration),
RECOVERY, accepted digests with SVNs and types, and when the configuration image was accepted. -/
structure Boot where
  power    : Bool
  stage    : Nat
  recovery : Bool
  accepted : List (Nat × List Byte × Nat)
  /-- The attestation report last returned (R351), and the keys of the accepted first-stage image (R350). -/
  report   : List Byte
  keys     : List Byte
  hv       : Bool
  t        : Option Nat
  deriving DecidableEq, Repr

/-- What the configuration image gives the module (R352). -/
structure Cfg where
  class_   : Word
  node     : BitVec 24
  power    : Nat
  disabled : List (List Nat)
  deriving DecidableEq, Repr

/-- The flash (R351, R362): minimum SVN of each image type and the counters as last written. -/
structure Flash where
  svn      : Tab Nat
  counters : List Byte
  deriving DecidableEq, Repr

/-- A request of a function (R345): bytes written or read through BAR2, or a BAR0 register written. -/
inductive HostReq where
  | mem (off : Nat) (bs : List Byte)
  | read (off len : Nat)
  | reg (off : Nat) (value : DWord)
  deriving DecidableEq, Repr

/-- A write of the module's own agents that waits on a re-key (R359): bytes of a trace, a log or a swap record, or a repair of
the pager's. -/
inductive Post where
  | bytes (pa : Nat) (bs : List Byte)
  | repair (die ctx : Nat) (va : DWord) (writes : List (Nat × DWord))
  deriving DecidableEq, Repr

/-- Lifetime counters kept live (R362): per channel corrected, uncorrected, demotions; per die the histograms and the
noise failures. -/
structure Life where
  corrected   : Tab Nat
  uncorrected : Tab Nat
  demotions   : Tab Nat
  temp        : Tab Nat
  volt        : Tab Nat
  noise       : Tab Nat
  deriving DecidableEq, Repr

/-! ### Dies, galleries, cores -/

/-- A batch of records of one context and entry (R27, R29): its records and since when it has waited, in cycles at a core
and in parts of `State.now` in a pool; at a core, the bin that it came from, which stays keyed by it, or none for one of
the pool that waits for the core's switch, and the REFT tick at which that one came (R291). `name` is the model's own, of a batch
at a core. -/
structure RBatch where
  ctx   : Nat
  entry : DWord
  recs  : List SpawnRec
  since : Nat
  bin   : Option Nat := none
  came  : Nat := 0
  name  : Nat := 0
  deriving DecidableEq, Repr

/-- A spawn bin that holds records (R27, R28): its timer counts from `since`, in cycles of the die. -/
structure Bin where
  ctx   : Nat
  entry : DWord
  recs  : List SpawnRec
  since : Nat
  deriving DecidableEq, Repr

/-- A TLB entry (R302): context, virtual page base, page size, leaf entry, and the vat selection it carries. -/
structure TlbEnt where
  ctx  : Nat
  va   : Nat
  size : Nat
  leaf : DWord
  deriving DecidableEq, Repr

/-- A request in a die's fault buffer (R171): the parked sheet, or none for an engine. -/
structure FaultReq where
  ctx : Nat
  va  : DWord
  ref : Option SheetRef
  deriving DecidableEq, Repr

/-- Who waits for room in a die's spawn pool (R29, R232): a stalled `spawn`, a batch that waits at a core, by its name, a fired
trigger of a channel, by its name. -/
inductive PoolWait where
  | spawn (r : SheetRef)
  | batch (core name : Nat)
  | trigger (ch name : Nat)
  deriving DecidableEq, Repr

/-- A die (R10, R13, R29, R289, R303). -/
structure Die where
  up      : Bool
  /-- CYC at `cycAt`, which is when the clock last changed (R13, R305). -/
  cyc     : Nat
  cycAt   : Nat
  f       : Nat
  /-- A step in progress: the new step and when the relock ends; and a write held until then. -/
  step    : Option (Nat × Nat)
  heldF   : Option Nat
  noiseFail : Bool
  pool    : List RBatch
  /-- Groups that wait for room in the pool, in the order in which they first found it without room (R29). -/
  queue   : List PoolWait
  faults  : List FaultReq
  lastQ   : Option (Nat × Nat)
  corePtr : Nat
  deriving DecidableEq, Repr

/-- A die before it comes up. R303 gives DIEFREQ no reset value; the model takes f = 0, the 800 MHz that R10 calls nominal
(log 6). -/
def Die.down : Die :=
  { up := false, cyc := 0, cycAt := 0, f := 0, step := none, heldF := none, noiseFail := false, pool := [],
    queue := [], faults := [], lastQ := none, corePtr := 0 }

/-- A siphon stream (R261, R262): id, base, stride, T, EW, context, blocks read, the blocks held, and for each
subscriber its window and consumed count. -/
structure Stream where
  id     : Nat
  base   : DWord
  stride : Nat
  t      : Nat
  ew     : Nat
  ctx    : Nat
  next   : Nat
  blocks : Tab (List Byte)
  subs   : List (Nat × Nat × Nat)
  dropped : Nat
  deriving DecidableEq, Repr

/-- A gallery (R10, R261, R302). -/
structure Gallery where
  up      : Bool
  tlb     : List TlbEnt
  streams : Tab Stream
  deriving DecidableEq, Repr

/-- A core (R10, R26, R35, R146, R243, R285). -/
structure Core where
  slotted : Bool
  switch  : Option Nat
  p       : Nat
  bins    : Tab Bin
  /-- Batches that wait for a slot and rows here (R29). -/
  ready   : List RBatch
  /-- Waiting launches and resumes, oldest first (R291): handles. -/
  waitq   : List Nat
  /-- The quire a pre-emption clears the core for (R293). -/
  claim   : Option Nat
  /-- The cycle in which the last swap record for that quire was written (R306). -/
  clearAt : Nat
  /-- Sheet in progress in each lane block (R292), and the cycle up to which a lane block issues a sheet's word. -/
  prog    : Tab SheetRef
  /-- Lane blocks whose latest choice was a new one, until its word has issued (R292). -/
  anew    : List Nat := []
  busy    : Tab (Nat × SheetRef)
  mx      : List MxOp
  wm      : List WmOp
  board   : List Board
  tlb     : List TlbEnt
  deriving DecidableEq, Repr

/-- A core before anything reaches it: queued mode (R285). -/
def Core.empty : Core :=
  { slotted := false, switch := none, p := 0, bins := [], ready := [], waitq := [], claim := none, clearAt := 0, prog := [],
    busy := [], mx := [], wm := [], board := [], tlb := [] }

/-! ### The module -/

/-- A release or a fork that follows an access (R85, R153, R155, R157, R158, R215): of bytes while a value it wrote or an
atomic's later one stands there, with its scope, core, sheet and strand; an operation that a vat has not applied yet, with
its core; a release or an `arm` that has had its place in the serial order of a vat's word (R232); an arrival at a phase of a
barrier of a quire; a spawn record; a task's exit counted in a quire's join counter; a doorbell write that made the records
of a range of indices pending, and the end of a quire of a ream (R288); an sc fence of a scope, by a sheet on a core; an
engine operation, and what shows that it has completed: a pool slot of a quire, a batch or a flag of a sheet, or its
`wm.sync`; the matrix operations of a core that have completed (R265); the `gbar` of an
instance on a group slot of a context, in a generation (R325). A release at a vat is of a word: `word` holds the word's address and
width and the bytes of it on which no STORE or plain write has followed (R242). -/
inductive Sync where
  | loc   (pa len scope core : Nat) (r : SheetRef) (lane : Nat)
  | word  (pa len lo hi scope core : Nat) (r : SheetRef) (lane : Nat)
  | sent  (op : OpKey) (core : Nat)
  | vat   (word : Nat) (w64 : Bool)
  | bar   (h b phase : Nat)
  | spawn (origin : DWord)
  | exit  (h : Nat)
  | bell  (part queue : Nat) (lo hi : Word)
  | ream  (id : Nat)
  | fence (scope core : Nat) (r : SheetRef)
  | eng   (id : Nat)
  | slot  (h p i : Nat)
  | batch (r : SheetRef) (n : Word)
  | flag  (r : SheetRef) (f : Nat)
  | wma   (r : SheetRef)
  | mxs   (core : Nat)
  | gbar  (ctx slot gen inst : Nat)
  deriving DecidableEq, Repr

/-- An access of a sheet whose place in happens-before is still of use (R154): a store that some walker or fetch need not
see yet (R85, R168), with its sheet, strand (127 when the sheet acts once), address, length and old bytes, or, with `op`, an
operation that a vat has not applied yet; and whether it is a load or an atomic. The dies whose walkers see it; the releases
that follow it; the sheets and strands that have acquired one of them, those whose later releases alone follow it, and those
whose later accesses a fence puts behind it, every one or only stores and atomics (R152); the sheets whose fetches return
it. -/
structure StoreRec where
  ref  : SheetRef
  lane : Nat
  pa   : Nat
  len  : Nat
  old  : List Byte
  op   : Option OpKey := none
  loads : Bool := false
  dies : List Nat := []
  released : List Sync := []
  acquired : List (SheetRef × Nat) := []
  passed   : List (SheetRef × Nat) := []
  fenced   : List (SheetRef × Nat × Bool) := []
  fetches  : List SheetRef := []
  deriving DecidableEq, Repr

/-- A page or node being re-keyed, or with accesses that waited on it, in arrival order (R359, R363). Key: the page
number, or 2^60 × level + index for a node. -/
structure Rekey where
  key     : Nat
  running : Bool
  order   : List Who
  deriving DecidableEq, Repr

/-- A sheet whose word at an address issues again, with those of its list: after the repair of a page of a context (its
number and 1 + the context's, R304), or after a re-key (its key and 0, R363). -/
structure Again where
  ref  : SheetRef
  list : Nat × Nat
  pc   : DWord
  deriving DecidableEq, Repr

/-- A step that another agent takes, and the time in REFT ticks that passes before it. -/
structure Agenda where
  after : Nat
  what  : Instr
  deriving DecidableEq, Repr

/-- The module. Absent dies are down, absent galleries down, absent cores, vats and ports empty. -/
structure State where
  /-- Time since power good, in 1/720720 of a REFT tick (R13). -/
  now     : Nat
  /-- Which agents move next: the model's own (log 1). -/
  agenda  : List Agenda
  /-- Counter that feeds the free values: the model's own (log 3). -/
  free    : Nat
  /-- The sheet in issue (R292). -/
  cur     : Option SheetRef
  /-- Sheets whose words issue again, those of each list in the order of R304 or R363. -/
  reissue : List Again
  /-- Next unused handle and operation number: the model's own names. -/
  next    : Nat
  /-- Memory (R354): HBM and host memory, by physical address; an unlisted byte reads 0 (log 2). -/
  mem     : List Host.Cell
  /-- Blocks of 64 bytes with an uncorrectable error (R357). -/
  bad     : List Nat
  stores  : List StoreRec
  /-- Write counters of blocks and of tree nodes, generations of pages and nodes (R358, R359; log 4). -/
  blockCtr : Tab Nat
  nodeCtr  : Tab Nat
  gens     : Tab Nat
  rekeys  : List Rekey
  /-- Refresh class of row groups, in ms (R357; log 4), and whether every class refreshes at half its period. -/
  refresh : Tab Nat
  hot     : Bool
  /-- Channels that are retired (R355). -/
  retired : List Nat
  /-- Partition root keys (R358). -/
  roots   : Tab (BitVec 256)
  quires  : Tab Quire
  dies    : Tab Die
  galleries : Tab Gallery
  cores   : Tab Core
  vats    : Tab Vat
  ports   : Tab Port
  ctxs    : Tab Ctx
  parts   : Tab Part
  reams   : Tab Ream
  copies  : List Copy
  nms     : List Nm
  installs : List Install
  fabs    : List FabOp
  /-- Operation numbers already performed for each origin (R311): context, slot, generation, rank, number. -/
  applied : List (Nat × Nat × Nat × Nat × Nat)
  outbox  : List (Nat × Sent)
  /-- Requests that wait: on a re-key, or behind a posted write of the same function that does (R345, R359, R363): partition, the
  model's name for it, and the request. -/
  hostWait : List (Nat × Nat × HostReq)
  /-- What the latest read of each function through BAR2 has returned (R345): the model's own. -/
  hostGot : Tab (List Byte) := []
  /-- Words that engines' operations read at vats, and operations that have made their accesses and wait for their vats (R147,
  R225, R341). -/
  grabs   : List Grab := []
  fins    : List Fin := []
  /-- Writes of the module's own agents that wait on a re-key, with the model's names for them (R359, R363). -/
  posts   : List (Nat × Post)
  /-- A channel being retired, and the contexts that the firmware has suspended for it (R355). -/
  retiring : Option (Nat × List Nat)
  /-- The page (context, number of 16 KiB page) that the pager has declared fatal and the status it gives engine
  operations stopped on it, while PAGER_FATAL ends them (R172, R182, R252); none between steps. -/
  verdict : Option (Nat × Nat × BitVec 8)
  boot    : Boot
  cfg     : Cfg
  flash   : Flash
  life    : Life
  /-- When the firmware last wrote the flash counters (R362). -/
  persisted : Nat
  deriving DecidableEq, Repr

/-- The module when power is applied, before power good (R360): nothing is up. Fields the manual gives no value for are
those of logs 1 to 6. -/
def State.reset : State :=
  { now := 0, agenda := [], free := 0, cur := none, reissue := [], next := 0, mem := [], bad := [], stores := [],
    blockCtr := [], nodeCtr := [], gens := [], rekeys := [], refresh := [], hot := false, retired := [], roots := [],
    quires := [], dies := [], galleries := [], cores := [], vats := [], ports := [], ctxs := [], parts := [],
    reams := [], copies := [], nms := [], installs := [], fabs := [], applied := [], outbox := [],
    hostWait := [], hostGot := [], grabs := [], fins := [], posts := [], retiring := none, verdict := none,
    boot := { power := false, stage := 0, recovery := false, accepted := [], report := [], keys := [], hv := false, t := none },
    cfg := { class_ := 0, node := 0, power := 0, disabled := [] },
    flash := { svn := [], counters := [] },
    life := { corrected := [], uncorrected := [], demotions := [], temp := [], volt := [], noise := [] },
    persisted := 0 }

end Sys2Proof.Machine
end

