-- ==== Sys2Proof/Machine/Ops.lean ====
section
/-! DEFINITION. The named operations over the state: time, the parts of the module, registers, memory, translation,
reports to the host, waits, and taking an exception (R210). -/

namespace Sys2Proof.Machine

/-- The outcome of a step. -/
abbrev Out := Host.Outcome State Fault Refusal

/-! ### Time (R13, R305) -/

/-- REFT (R13). -/
def State.reft (s : State) : Nat := s.now / Config.tickParts
/-- One cycle of a die at step `f`, 800 - 50 f MHz, in the parts of `State.now` (R13, R303). -/
def Die.period (d : Die) : Nat := 20 * Config.tickParts / (16 - d.f)
/-- CYC of a die (R13); it stands still during a clock step (R305). -/
def Die.cycles (d : Die) (now : Nat) : Nat :=
  if d.step.isSome then d.cyc else d.cyc + (now - d.cycAt) / d.period
/-- Time passes. -/
def State.pass (s : State) (parts : Nat) : State := { s with now := s.now + parts }

/-! ### The parts of the module -/

def State.die (s : State) (n : Nat) : Die := s.dies.get Die.down n
def State.modDie (s : State) (n : Nat) (f : Die → Die) : State := { s with dies := s.dies.put n (f (s.die n)) }
def State.gallery (s : State) (n : Nat) : Gallery := s.galleries.get { up := false, tlb := [], streams := [] } n
def State.modGallery (s : State) (n : Nat) (f : Gallery → Gallery) : State :=
  { s with galleries := s.galleries.put n (f (s.gallery n)) }
def State.core (s : State) (n : Nat) : Core := s.cores.get Core.empty n
def State.modCore (s : State) (n : Nat) (f : Core → Core) : State := { s with cores := s.cores.put n (f (s.core n)) }
def State.vat (s : State) (n : Nat) : Vat := s.vats.get Vat.empty n
def State.modVat (s : State) (n : Nat) (f : Vat → Vat) : State := { s with vats := s.vats.put n (f (s.vat n)) }
def State.port (s : State) (n : Nat) : Port := s.ports.get Port.down n
def State.modPort (s : State) (n : Nat) (f : Port → Port) : State := { s with ports := s.ports.put n (f (s.port n)) }
def State.part (s : State) (n : Nat) : Part := s.parts.get Part.none n
def State.modPart (s : State) (n : Nat) (f : Part → Part) : State := { s with parts := s.parts.put n (f (s.part n)) }
/-- A context; one that does not exist reads as a context without rights. -/
def State.ctx (s : State) (n : Nat) : Ctx := s.ctxs.get (Ctx.fresh 0 CtxDesc.none) n
def State.modCtx (s : State) (n : Nat) (f : Ctx → Ctx) : State := { s with ctxs := s.ctxs.upd n f }
def State.modQuire (s : State) (h : Nat) (f : Quire → Quire) : State := { s with quires := s.quires.upd h f }
def State.sheet? (s : State) (r : SheetRef) : Option Sheet := (s.quires.find r.h).bind fun q => q.sheets.find r.k
def Quire.modSheet (q : Quire) (k : Nat) (f : Sheet → Sheet) : Quire := { q with sheets := q.sheets.upd k f }
def State.modSheet (s : State) (r : SheetRef) (f : Sheet → Sheet) : State := s.modQuire r.h fun q => q.modSheet r.k f

/-- Die and gallery in device of a core (R12). -/
def dieOf (core : Nat) : Nat := core / Config.coresPerDie
def galleryOf (core : Nat) : Nat := core / Config.coresPerGallery
/-- A fresh name. -/
def State.fresh (s : State) : Nat × State := (s.next, { s with next := s.next + 1 })
/-- Cycles of a core's die. -/
def State.cycles (s : State) (core : Nat) : Nat := (s.die (dieOf core)).cycles s.now

/-- A quire holds its core's resources. -/
def Quire.holds (q : Quire) : Bool :=
  match q.phase with
  | .resident | .draining | .stopped _ | .saving _ => true
  | .waiting _ | .swapped _ _ _ _ => false
/-- Quires that hold resources of a core. -/
def State.onCore (s : State) (core : Nat) : List (Nat × Quire) :=
  s.quires.filter fun e => e.2.holds && e.2.core == core

/-! ### The sheet in issue -/

/-- What a word sees: its sheet, quire and context before the word. -/
structure Env where
  r  : SheetRef
  q  : Quire
  sh : Sheet
  cx : Ctx
  fr : Nat
  deriving DecidableEq, Repr

/-- A sheet that can issue: resident, not retired, in the ready set. -/
def Sheet.ready (sh : Sheet) : Bool := !sh.exited && sh.wait == .none
/-- What the sheet in issue sees; none when no sheet is in issue. -/
def State.env? (s : State) : Option Env :=
  match s.cur with
  | none => none
  | some r =>
    match s.quires.find r.h with
    | none => none
    | some q =>
      match q.sheets.find r.k with
      | none => none
      | some sh =>
        if q.phase = .resident ∧ sh.ready = true then some { r, q, sh, cx := s.ctx q.ctx, fr := s.free } else none

/-! ### Registers (R47, R59, R64) -/

/-- A distinct number for each register of an issuer. -/
def RegKey.code : RegKey → Nat
  | .v r l => 96 * r + l
  | .s n => 30000 + n
  | .q n => 31000 + n

/-- What a register holds, results of outstanding words apart. S60-S62 are EXM0-EXM2 and S63 reads 0 (R21, R64). -/
def Sheet.raw (sh : Sheet) : RegKey → Word
  | .v r l => sh.v.get 0 (96 * r + l)
  | .s n => if n < 60 then sh.s.get 0 n else if n < 63 then sh.exm.extractLsb' (32 * (n - 60)) 32 else 0
  | .q n => sh.qv.get 0 n

/-- Values that outstanding long-latency words hold for a register (R59). -/
def Sheet.pending (sh : Sheet) (key : RegKey) : List Word :=
  sh.lls.flatMap fun l => l.outs.filterMap fun o => if o.key = key then o.val else none

/-- A read of a register at issue (R60): with outstanding writes, the old value or a written one, freely (R59). -/
def Sheet.read (sh : Sheet) (fr : Nat) (key : RegKey) : Word :=
  match sh.pending key with
  | [] => sh.raw key
  | c :: cs => ((sh.raw key :: c :: cs)[Config.pick fr key.code % (cs.length + 2)]?).getD (sh.raw key)

/-- A 96-bit mask with its word `i` replaced (R20). -/
def setMaskWord (m : Mask) (i : Nat) (w : Word) : Mask :=
  (m &&& ~~~((0xFFFFFFFF : Mask) <<< (32 * i))) ||| (w.setWidth 96 <<< (32 * i))

/-- A register written (R21, R64): a write to S63 is discarded. -/
def Sheet.setReg (sh : Sheet) (key : RegKey) (w : Word) : Sheet :=
  match key with
  | .v r l => { sh with v := sh.v.set 0 (96 * r + l) w }
  | .s n =>
    if n < 60 then { sh with s := sh.s.set 0 n w }
    else if n < 63 then { sh with exm := setMaskWord sh.exm (n - 60) w }
    else sh
  | .q n => { sh with qv := sh.qv.set 0 n w }

/-- Outstanding words learn that another word has written a register (R59). -/
def Sheet.race (sh : Sheet) (key : RegKey) : Sheet :=
  { sh with lls := sh.lls.map fun l =>
      { l with outs := l.outs.map fun o => if o.key = key then { o with raced := true } else o } }

/-- The other sheets that have written a Q register in a cycle (R46). -/
def Quire.rivals (q : Quire) (k cyc n : Nat) : List Nat :=
  match q.qw.find n with
  | some x => if x.cyc = cyc then x.ks.filter (· != k) else []
  | none => []
/-- What a Q register held before the writes of a cycle. -/
def Quire.before (q : Quire) (cyc n : Nat) : Word :=
  match q.qw.find n with
  | some x => if x.cyc = cyc then x.prev else q.q.get 0 n
  | none => q.q.get 0 n
/-- The Q registers as the header of sheet `k` in a cycle shows them (R46, R48): without the other sheets' writes of that
cycle, of which a writer sees the surviving one. -/
def Quire.shown (q : Quire) (k cyc : Nat) : Tab Word :=
  q.qw.foldl (fun t x => if x.2.cyc = cyc && !x.2.ks.contains k then t.set 0 x.1 x.2.prev else t) q.q
/-- A Q register as a sheet sees it. -/
def Quire.showQ (q : Quire) (k n : Nat) (v : Word) : Quire := q.modSheet k fun sh => { sh with qv := sh.qv.set 0 n v }
/-- A Q register written by sheet `k` in a cycle. Of the writes of one cycle that of the highest quire sheet slot remains,
and every writer sees it from its next body word; other sheets see it from their next header in a later cycle (R46,
R48). -/
def Quire.writeQ (q : Quire) (k cyc n : Nat) (w : Word) : Quire :=
  let ks := q.rivals k cyc n
  let v := if ks.any (k < ·) then q.q.get 0 n else w
  { (k :: ks).foldl (fun q j => q.showQ j n v) q with q := q.q.set 0 n v, qw := q.qw.put n { cyc, ks := k :: ks, prev := q.before cyc n } }
/-- A short result written by sheet `k` in a cycle (R60). -/
def Quire.write (q : Quire) (k cyc : Nat) (key : RegKey) (w : Word) : Quire :=
  let q := q.modSheet k fun sh => (sh.race key).setReg key w
  match key with
  | .q n => q.writeQ k cyc n w
  | _ => q

/-- Registers written by a sheet. -/
def State.writeRegs (s : State) (r : SheetRef) (ws : List (RegKey × Word)) : State :=
  s.modQuire r.h fun q => ws.foldl (fun q w => q.write r.k (s.cycles q.core) w.1 w.2) q

/-- The register that a uniform field names (R64). -/
def uniKey (n : Nat) : RegKey := if n < 64 then .s n else .q (n - 64)

/-- A pair value as words, low register first (R65, R86). -/
def loWord (x : DWord) : Word := x.setWidth 32
def hiWord (x : DWord) : Word := (x >>> 32).setWidth 32
def joinWords (lo hi : Word) : DWord := hi ++ lo

/-- An S register (6-bit fields, R64). -/
def Env.s (e : Env) (n : Nat) : Word := e.sh.read e.fr (.s n)
/-- An S pair as 64 bits (R65). -/
def Env.spair (e : Env) (n : Nat) : DWord := joinWords (e.s n) (e.s (n + 1))
/-- A uniform register (R64). -/
def Env.u (e : Env) (n : Nat) : Word := e.sh.read e.fr (uniKey n)

/-! ### Addresses (R56, R69, R71) -/

/-- Bits [63:56] all equal bit 55 (R56, R69). -/
def canonical (a : DWord) : Bool := (a.extractLsb' 0 56).signExtend 64 = a
/-- A 56-bit address sign-extended (R71). -/
def sext56 (a : DWord) : DWord := (a.extractLsb' 0 56).signExtend 64

/-! ### The physical address space (R353, R354) -/

def hostBase : Nat := 0x8000000000000
def hostTop : Nat := 0xC000000000000
def bellBase : Nat := 0xFFE0000000000
def winBase : Nat := 0xFFF0000000000

/-- Where a physical address leads (R354). -/
inductive Region where
  | hbm
  | host
  | bell (part q off : Nat)
  | win (core off : Nat)
  | none
  deriving DecidableEq, Repr

/-- Bytes of HBM over the live channels (R353). -/
def State.hbmTop (s : State) : Nat := Config.channelBytes * (256 - s.retired.length)
/-- Live channels (R353). -/
def State.live (s : State) : List Nat := (List.range 256).filter fun c => !s.retired.contains c
/-- Offset of a physical address within its channel, and its pseudo-channel (R353). -/
def State.chanOffset (s : State) (pa : Nat) : Nat := pa / 1024 / s.live.length * 1024 + pa % 1024
def pseudoChannel (pa : Nat) : Nat := pa / 512 % 2
/-- The channel of a physical address of HBM, and so its vat (R353, R217). -/
def State.channel (s : State) (pa : Nat) : Nat :=
  match s.retired with
  | [] => pa / 1024 % 256
  | _ => (s.live[pa / 1024 % s.live.length]?).getD 0

/-- The row of R354 that names an address. -/
def State.region (s : State) (pa : Nat) : Region :=
  if pa < s.hbmTop then .hbm
  else if hostBase ≤ pa ∧ pa < hostTop then .host
  else if bellBase ≤ pa ∧ pa < bellBase + 0x20000 then
    .bell ((pa - bellBase) / 0x4000) ((pa - bellBase) % 0x4000 / 8) ((pa - bellBase) % 8)
  else if winBase ≤ pa ∧ pa < winBase + 800 * 0x100000 then .win ((pa - winBase) / 0x100000) ((pa - winBase) % 0x100000)
  else .none

/-- A partition may reach an address (R349). -/
def State.reach (s : State) (part pa : Nat) : Bool :=
  let p := s.part part
  match s.region pa with
  | .hbm => p.hbmBase ≤ pa && pa < p.hbmBase + p.hbmSize
  | .host => true
  | .bell n q _ => n == part && q < 64
  | .win c _ => p.galleries.getLsbD (galleryOf c)
  | .none => false

/-- An access of a size may reach an address (R162 step 6, R349, R354): doorbell words take whole 32-bit loads and
stores only. R148 gives a window 8- to 64-bit accesses and copies and says nothing of a 128-bit load or store or of an
atomic; the model performs them there (DESIGN CHOICE, log 7). -/
def State.mayReach (s : State) (part pa bytes : Nat) (bell : Bool) : Bool :=
  s.reach part pa &&
  match s.region pa with
  | .bell _ _ off => bell && bytes == 4 && off == 0
  | _ => true

/-- A range that a command may name: in the partition's HBM range or in host memory (R347). -/
def State.addrOk (s : State) (part a len : Nat) : Bool :=
  (s.region a == .hbm && s.reach part a && s.region (a + len - 1) == .hbm && s.reach part (a + len - 1)) ||
  (s.region a == .host && s.region (a + len - 1) == .host)

/-- Byte `i` of a 64-bit value (R1). -/
def byteOf (x : DWord) (i : Nat) : Byte := (x >>> (8 * i)).setWidth 8

/-- A free tile element (R244, log 8): a non-finite element has m = 0 (R101). -/
def freeElem (key i : Nat) : Elem :=
  let c := (Config.freeWord key i).extractLsb' 0 2
  if c = 0 then { m := ((Config.freeDWord key i).extractLsb' 0 48).toInt, code := 0 } else { m := 0, code := c }
/-- Element `i` (128 row + column) of a tile (R101). -/
def Tile.elem (t : Tile) (i : Nat) : Elem :=
  match t.el.find i with
  | some e => e
  | none => if t.fresh then freeElem t.key i else { m := 0, code := 0 }
/-- Element of a quire's array allocation (R269). -/
def Quire.arrElem (q : Quire) (i : Nat) : Word :=
  match q.arr.find i with
  | some w => w
  | none => Config.freeWord q.fkey i

/-- A tile element as an on-chip window shows it (R148). -/
def Elem.word (e : Elem) : DWord := 0#14 ++ e.code ++ BitVec.ofInt 48 e.m

/-- The chamber byte at a physical offset of a core: the quire that holds its granule (R41, R148). -/
def State.chamOwner (s : State) (core off : Nat) : Option (Nat × Quire) :=
  (s.onCore core).find? fun e => e.2.chamAt * 4096 ≤ off && off < (e.2.chamAt + e.2.chamg) * 4096
/-- The quire that holds physical tile `t` of a core, and its logical tile (R244). -/
def State.tileOwner (s : State) (core t : Nat) : Option (Quire × Nat) :=
  (s.onCore core).findSome? fun e => (e.2.tileAt.findIdx? (· == t)).map fun i => (e.2, i)

/-- A tile with nothing promoted, as reserved (R244). -/
def Tile.reserved (key : Nat) : Tile :=
  { fresh := true, key, el := [], e := ((Config.freeWord key 16384).extractLsb' 0 16).toInt, act := false,
    flt := false, fstat := 0, nblk := 0, done := 0, faddr := 0 }

/-- A byte of a core's on-chip window (R148). A tile or array element that no quire holds is a free value (log 8). -/
def State.readWin (s : State) (core off : Nat) : Byte :=
  if off < 0x80000 then
    match s.chamOwner core off with
    | some (_, q) => q.cham.get 0 (off - q.chamAt * 4096)
    | none => 0
  else if off < 0xC0000 then
    let t := (off - 0x80000) / 0x20000
    let i := off % 0x20000 / 8
    match s.tileOwner core t with
    | some (q, j) => byteOf ((q.tiles.get (Tile.reserved q.fkey) j).elem i).word (off % 8)
    | none => byteOf (freeElem core (0x200000 + 0x20000 * t + i)).word (off % 8)
  else if off < 0xD0000 then
    let e := (off - 0xC0000) / 4
    match (s.onCore core).find? fun x => x.2.arrAt * 256 ≤ e && e < (x.2.arrAt + x.2.wmag) * 256 with
    | some (_, q) => byteOf ((q.arrElem (e - q.arrAt * 256)).setWidth 64) (off % 4)
    | none => byteOf ((Config.freeWord core (0x400000 + e)).setWidth 64) (off % 4)
  else 0

/-- What an unlisted byte of memory reads as (log 2). -/
def Memory.blank : Byte := 0

/-- A byte at a physical address, at this instant (R353, R354). -/
def State.readByte (s : State) (pa : Nat) : Byte :=
  match s.region pa with
  | .hbm | .host => Tab.get Memory.blank s.mem pa
  | .win c off => s.readWin c off
  | .bell n q off => if off < 4 then byteOf ((match (s.part n).queues.find q with | some l => l.wr | none => 0).setWidth 64) off else 0
  | .none => 0
/-- Bytes from a physical address on. -/
def State.readBytes (s : State) (pa n : Nat) : List Byte := (List.range n).map fun i => s.readByte (pa + i)
/-- A little-endian number of `n` bytes (R1). -/
def State.readNat (s : State) (pa n : Nat) : Nat := leNat (s.readBytes pa n)

/-- Levels of the counter tree above a block (R358). -/
def treeLevels : List Nat := [1, 2, 3, 4, 5, 6, 7, 8, 9, 10, 11]
/-- Key of the tree node of level `l` above a block (R358). -/
def nodeKey (block l : Nat) : Nat := 2 ^ 60 * l + block / 8 ^ l
/-- The greatest value of a counter of 56 bits (R358). -/
def ctrMax : Nat := 2 ^ 56 - 1
/-- A new key generation, of 32 bits, of a page or a node (R358, R359). -/
def State.newGen (s : State) (key : Nat) : State := { s with gens := s.gens.set 0 key ((s.gens.get 0 key + 1) % 2 ^ 32) }
/-- The counters under a page or a node whose re-key ends are 0 (R359). -/
def State.rekeyed (s : State) (key : Nat) : State :=
  if key < 2 ^ 60 then { s with blockCtr := s.blockCtr.filter fun b => b.1 / 256 != key }
  else { s with nodeCtr := s.nodeCtr.del key }
/-- The first counter of a block, or of a node above it, that is at its maximum: the page or the node (R359). -/
def State.atMax (s : State) (block : Nat) : Option Nat :=
  if s.blockCtr.get 0 block = ctrMax then some (block / 256)
  else (treeLevels.map (nodeKey block)).find? fun k => s.nodeCtr.get 0 k = ctrMax
/-- A write raises the counter of its block and those of the nodes above it by 1. A counter that its write finds at the
maximum, though it did not wait, is re-keyed at once (R359, log 4). -/
def State.bumpBlock (s : State) (b : Nat) : State :=
  let s := (b / 256 :: treeLevels.map (nodeKey b)).foldl (fun s _ =>
    match s.atMax b with
    | some key => (s.newGen key).rekeyed key
    | none => s) s
  { s with blockCtr := s.blockCtr.set 0 b (s.blockCtr.get 0 b + 1),
           nodeCtr := treeLevels.foldl (fun t l => t.set 0 (nodeKey b l) (t.get 0 (nodeKey b l) + 1)) s.nodeCtr }
/-- A write raises the counters of its blocks and of the nodes above them (R359). -/
def State.bump (s : State) (pa len : Nat) : State :=
  ((List.range ((pa + len - 1) / 64 - pa / 64 + 1)).map (· + pa / 64)).foldl State.bumpBlock s

/-- The canonical form of memory: addresses strictly rising, and no entry that reads as an unlisted byte does. -/
def Memory.wf (mem : List Host.Cell) : Bool := Tab.wf Memory.blank mem
/-- Bytes put into the memory list. -/
def Memory.write (mem : List Host.Cell) (pa : Nat) : List Byte → List Host.Cell
  | [] => mem
  | b :: bs => Memory.write (Tab.set Memory.blank mem pa b) (pa + 1) bs

/-- A doorbell write (R286): ignored before READY, backwards, or more than 2^k ahead of the read index. -/
def State.ring (s : State) (part q : Nat) (i : Word) : State :=
  match (s.part part).queues.find q with
  | none => s
  | some l =>
    if (s.part part).ready ∧ (l.wr - l.rd).toNat ≤ (i - l.rd).toNat ∧ (i - l.rd).toNat ≤ 2 ^ l.k then
      s.modPart part fun p => { p with queues := p.queues.put q { l with wr := i } }
    else s

/-- Bytes written at a physical address, at this instant: HBM and host memory, a chamber through its window, a
doorbell word whole; other windows ignore writes (R148, R354). An access lies in one region, being aligned. -/
def State.writeBytes (s : State) (pa : Nat) (bs : List Byte) : State :=
  match s.region pa with
  | .hbm => { (s.bump pa bs.length) with mem := Memory.write s.mem pa bs }
  | .host => { s with mem := Memory.write s.mem pa bs }
  | .win c off =>
    if off < 0x80000 then
      match s.chamOwner c off with
      | some (h, q) =>
        s.modQuire h fun q' => { q' with cham := Memory.write q'.cham (off - q.chamAt * 4096) bs }
      | none => s
    else s
  | .bell n q off => if off = 0 ∧ bs.length = 4 then s.ring n q (BitVec.ofNat 32 (leNat bs)) else s
  | .none => s
/-- A little-endian number written in `n` bytes (R1). -/
def State.writeNat (s : State) (pa n x : Nat) : State := s.writeBytes pa (leBytes n x)

/-- The MAC of the block at an address in a partition's range (R358): what stands there is always that of what the part has
written, so a mismatch comes from outside, as an uncorrectable error does (R357, log 4). -/
def State.blockMac (s : State) (part pa : Nat) : DWord :=
  Config.mac (s.roots.get 0 part) (s.gens.get 0 (pa / 16384)) (s.blockCtr.get 0 (pa / 64)) (pa / 64) (s.readBytes (pa / 64 * 64) 64)
/-- A range of physical bytes holds an uncorrectable error (R357). -/
def State.ue (s : State) (pa len : Nat) : Bool := s.bad.any fun b => b * 64 < pa + len && pa < b * 64 + 64

/-! ### Re-keying (R359, R363) -/

/-- The blocks of 64 bytes that a range touches, by address. -/
def blocksOf (pa len : Nat) : List Nat := if len = 0 then [] else (List.range ((pa + len - 1) / 64 - pa / 64 + 1)).map fun i => (pa / 64 + i) * 64
/-- Keys of the page and the tree nodes that an access lies under. -/
def coverKeys (pa : Nat) : List Nat := pa / 16384 :: treeLevels.map (nodeKey (pa / 64))

/-- The first page or node with a counter that a write would carry past its maximum (R359). -/
def State.worn (s : State) (pas : List Nat) : Option Nat := pas.findSome? fun pa => s.atMax (pa / 64)

/-- Who waits is still there. -/
def State.present (s : State) : Who → Bool
  | .sheet r => (s.sheet? r).any (!·.exited) && (s.quires.find r.h).any fun q => q.phase == .resident
  | .op id => s.copies.any (·.id == id) || s.nms.any (·.id == id) || s.fabs.any (·.id == id) || s.cores.any fun c => c.2.mx.any (·.id == id)
  | .vat ch => !(s.vat ch).queue.isEmpty
  | .host id => s.hostWait.any (·.2.1 == id)
  | .quire h => (s.quires.find h).isSome
  | .ream id => (s.reams.find id).isSome
  | .post id => s.posts.any (·.1 == id)
  | .siphon g n => ((s.gallery g).streams.find n).isSome
  | .remote ctx slot gen rank num => (((s.ctx ctx).groups.find slot).elim [] (·.held)).any fun o => o.gen == gen && o.rank == rank && o.num == num
  | .queue part q => ((s.part part).queues.find q).any fun l => l.rd != l.wr && l.head.isNone
  | .cmd part => (s.part part).busy.isSome
/-- What `who`'s accesses to HBM meet: none when they must wait for a re-key, which a write at a maximum counter
starts (R359); waiting accesses go on in arrival order, the starting write first (R363). -/
def State.keyGate (s : State) (who : Who) (reads writes : List Nat) : State × Bool :=
  let writes := writes.filter (· < s.hbmTop)
  let keys := (((reads.filter (· < s.hbmTop)) ++ writes).flatMap coverKeys).eraseDups
  match s.rekeys.find? fun k => keys.contains k.key && (k.running || (k.order.filter s.present).head? ≠ some who) with
  | some k =>
    ({ s with rekeys := s.rekeys.map fun x =>
        if x.key = k.key ∧ ¬x.order.contains who then { x with order := x.order ++ [who] } else x }, false)
  | none =>
    match s.worn writes with
    | some key =>
      ({ s.newGen key with rekeys := s.rekeys ++ [{ key, running := true, order := [who] }] }, false)
    | none =>
      ({ s with rekeys := (s.rekeys.map fun x => if keys.contains x.key then { x with order := (x.order.filter s.present).tail } else x)
                            |>.filter fun x => x.running || !x.order.isEmpty }, true)

/-- The bytes under the key of a page or node: the first and how many. -/
def keyRange (key : Nat) : Nat × Nat :=
  if key < 2 ^ 60 then (16384 * key, 16384) else (64 * 8 ^ (key / 2 ^ 60) * (key % 2 ^ 60), 64 * 8 ^ (key / 2 ^ 60))
/-- A re-key runs on bytes of HBM: a walk, a fetch or a read of a record waits for its end (R359). -/
def State.rekeying (s : State) (pa len : Nat) : Bool :=
  pa < s.hbmTop && s.rekeys.any fun k => k.running && (keyRange k.key).1 < pa + len && pa < (keyRange k.key).1 + (keyRange k.key).2

/-- Something of the module's own agents waits on a re-key, by a name that nothing else there has. -/
def State.postHold (s : State) (pas : List Nat) (x : Post) : State × Bool :=
  let id := (s.posts.map (·.1)).foldl max 0 + 1
  match s.keyGate (.post id) [] pas with
  | (s, false) => ({ s with posts := s.posts ++ [(id, x)] }, true)
  | (s, true) => (s, false)
/-- Bytes that an agent of the module's own writes: at once, or, while a re-key holds them, after it (R359, R363). -/
def State.postWrite (s : State) (pa : Nat) (bs : List Byte) : State :=
  if s.region pa ≠ .hbm then s.writeBytes pa bs
  else
    match s.postHold (blocksOf pa bs.length) (.bytes pa bs) with
    | (s, true) => s
    | (s, false) => s.writeBytes pa bs
/-- A little-endian number written so. -/
def State.postNat (s : State) (pa n x : Nat) : State := s.postWrite pa (leBytes n x)
/-- A byte as those agents find it, with their own writes that wait. -/
def State.ownByte (s : State) (pa : Nat) : Byte :=
  (s.posts.reverse.findSome? fun x =>
    match x.2 with
    | .bytes a bs => if a ≤ pa then bs[pa - a]? else none
    | .repair _ _ _ _ => none).getD (s.readByte pa)
/-- A little-endian number as they find it. -/
def State.ownNat (s : State) (pa n : Nat) : Nat := leNat ((List.range n).map fun i => s.ownByte (pa + i))

/-! ### Translation (R168, R169, R300-R302) -/

/-- What a walk finds (R169, R301, R354): an entry, a fault, or a table that the partition may not reach (R349). -/
inductive Walk where
  | ok (e : TlbEnt)
  | repair
  | fatal
  | denied
  deriving DecidableEq, Repr

/-- A byte as one sees it who need not see some stores, latest first: what stands in memory, or what stood there before
the stores that came after the latest one seen (R85, R151, R168). -/
def hideStores (pa : Nat) (seen : StoreRec → Bool) (now : Byte) : List StoreRec → Byte
  | [] => now
  | x :: t =>
    match x.old[pa - x.pa]? with
    | some old => if pa < x.pa then hideStores pa seen now t else if seen x then now else hideStores pa seen old t
    | none => hideStores pa seen now t
/-- A byte as a die's walkers see it: stores no `fence.tr` has ordered are not seen (R168, R169). -/
def State.walkByte (s : State) (die pa : Nat) : Byte :=
  hideStores pa (·.dies.contains die) (s.readByte pa) s.stores.reverse
/-- A page-table entry as a die's walkers see it. -/
def State.walkEntry (s : State) (die pa : Nat) : DWord :=
  BitVec.ofNat 64 (leNat ((List.range 8).map fun i => s.walkByte die (pa + i)))

/-- Index bits of a level: lowest VA bit and entries (R300). -/
def levelBits : Nat → Nat × Nat
  | 0 => (48, 256) | 1 => (39, 512) | 2 => (30, 512) | 3 => (21, 512) | _ => (14, 128)
/-- Bytes of a table of a level (R300). -/
def tableSize (lvl : Nat) : Nat := 8 * (levelBits lvl).2

/-- A walk from a table of level `5 - n` on (R300, R301, R349). -/
def State.walkFrom (s : State) (die ctx va : Nat) : Nat → Nat → Walk
  | 0, _ => .repair
  | n + 1, tbl =>
    let lvl := 4 - n
    let (lo, cnt) := levelBits lvl
    let e := s.walkEntry die (tbl + 8 * (va / 2 ^ lo % cnt))
    if s.mayReach (s.ctx ctx).part (tbl + 8 * (va / 2 ^ lo % cnt)) 8 false = false then .denied
    else if ¬e.getLsbD 0 ∨ e.getLsbD 8 ∨ e.extractLsb' 52 12 ≠ 0 then .repair
    else if e.getLsbD 1 then
      let frame := 16384 * (e.extractLsb' 14 38).toNat
      if lvl < 2 ∨ e.extractLsb' 12 2 ≠ 0 ∨ e.extractLsb' 2 2 ≠ 0 ∨ frame % 2 ^ lo ≠ 0 then .repair
      else if e.getLsbD 9 ∧ s.region frame ≠ .hbm ∧ s.region frame ≠ .none then .fatal
      else .ok { ctx, va := va / 2 ^ lo * 2 ^ lo, size := 2 ^ lo, leaf := e }
    else
      let next := (e.extractLsb' 10 42).toNat * 1024
      if lvl = 4 ∨ e.getLsbD 9 ∨ e.extractLsb' 2 6 ≠ 0 ∨ next % tableSize (lvl + 1) ≠ 0 then .repair
      else s.walkFrom die ctx va n next

/-- The entries that a walk from a table of level `5 - n` on reads. -/
def State.walkReads (s : State) (die va : Nat) : Nat → Nat → List Nat
  | 0, _ => []
  | n + 1, tbl =>
    let a := tbl + 8 * (va / 2 ^ (levelBits (4 - n)).1 % (levelBits (4 - n)).2)
    let e := s.walkEntry die a
    a :: if e.getLsbD 0 && !e.getLsbD 1 then s.walkReads die va n ((e.extractLsb' 10 42).toNat * 1024) else []
/-- A page table below a table of level `5 - n` lies in a page that is being re-keyed. -/
def State.tableHeld (s : State) : Nat → Nat → Bool
  | 0, _ => false
  | n + 1, tbl =>
    s.rekeying tbl (tableSize (4 - n)) ||
    (List.range (levelBits (4 - n)).2).any fun i =>
      let e := BitVec.ofNat 64 (s.readNat (tbl + 8 * i) 8)
      e.getLsbD 0 && !e.getLsbD 1 && s.tableHeld n ((e.extractLsb' 10 42).toNat * 1024)
/-- An engine's operation of a context waits while a page of its tables is being re-keyed (R359). -/
def State.tablesHeld (s : State) (ctx : Nat) : Bool :=
  s.rekeys.any (·.running) && s.tableHeld 5 (s.ctx ctx).desc.ptroot
/-- A walk waits for the re-key of a page with one of its entries (R359). -/
def State.walkHeld (s : State) (die ctx : Nat) (va : DWord) : Bool :=
  (s.walkReads die (va.extractLsb' 0 56).toNat 5 (s.ctx ctx).desc.ptroot).any fun a => s.rekeying a 8
/-- A walk of a context's tables for a virtual address, by a walker of a die (R300). -/
def State.walk (s : State) (die ctx : Nat) (va : DWord) : Walk :=
  s.walkFrom die ctx (va.extractLsb' 0 56).toNat 5 (s.ctx ctx).desc.ptroot

/-- A TLB entry translates an address of a context. -/
def TlbEnt.hits (t : TlbEnt) (ctx va : Nat) : Bool := t.ctx == ctx && t.va ≤ va && va < t.va + t.size
/-- What a core's or its gallery's TLB holds for an address (R302). -/
def State.tlb (s : State) (core ctx : Nat) (va : DWord) : Option TlbEnt :=
  let a := (va.extractLsb' 0 56).toNat
  match (s.core core).tlb.find? (·.hits ctx a) with
  | some t => some t
  | none => (s.gallery (galleryOf core)).tlb.find? (·.hits ctx a)
/-- A walk's entry put into the TLBs of a core and its gallery (R302); the oldest entry gives way. -/
def State.fillTlb (s : State) (core : Nat) (t : TlbEnt) : State :=
  (s.modCore core fun c => { c with tlb := (t :: c.tlb).take 256 }).modGallery (galleryOf core) fun g =>
    { g with tlb := (t :: g.tlb).take 4096 }
/-- Physical address of a virtual one under an entry (R301). -/
def TlbEnt.pa (t : TlbEnt) (va : DWord) : Nat :=
  16384 * (t.leaf.extractLsb' 14 38).toNat + (va.extractLsb' 0 56).toNat % t.size

/-- Leaf bits (R301). -/
def leafR (l : DWord) : Bool := l.getLsbD 4
def leafW (l : DWord) : Bool := l.getLsbD 5
def leafX (l : DWord) : Bool := l.getLsbD 6
def leafAT (l : DWord) : Bool := l.getLsbD 7
def leafALG (l : DWord) : Bool := l.getLsbD 9
def leafDTS (l : DWord) : Nat := (l.extractLsb' 10 2).toNat

/-! ### Code (R56, R84, R85) -/

/-- A code word at a physical address as a sheet's fetch returns it: of each store that it need not see yet, what the store
wrote or what it replaced, freely for each fetch (R85). -/
def State.fetchPa (s : State) (r : SheetRef) (pa : Nat) : DWord :=
  match s.stores.filter fun x => x.pa < pa + 8 && pa < x.pa + x.old.length with
  | [] => BitVec.ofNat 64 (s.readNat pa 8)
  | xs =>
    let seen (x : StoreRec) : Bool := x.fetches.contains r || Config.pick s.free (pa + 2 ^ 60 * xs.idxOf x) % 2 == 0
    BitVec.ofNat 64 (leNat ((List.range 8).map fun i => hideStores (pa + i) seen (s.readByte (pa + i)) xs.reverse))

/-- What the fetch of a code word finds: the word, no execute permission, or no translation in a TLB (R84) or a re-key of its
page (R359). -/
inductive Fetched where
  | word (w : DWord)
  | noExec
  | miss
  deriving DecidableEq, Repr

/-- Fetch of the code word at an address by a sheet on a core (R84). -/
def State.fetch (s : State) (r : SheetRef) (core ctx : Nat) (va : DWord) : Fetched :=
  match s.tlb core ctx va with
  | none => .miss
  | some t =>
    if !(leafX t.leaf && s.mayReach (s.ctx ctx).part (t.pa va) 8 false) then .noExec
    else if s.rekeying (t.pa va) 8 then .miss
    else .word (s.fetchPa r (t.pa va))
/-- Physical address of a code word with an uncorrectable error (R357). -/
def State.fetchUe (s : State) (core ctx : Nat) (va : DWord) : Option Nat :=
  (s.tlb core ctx va).bind fun t => if s.ue (t.pa va) 8 then some (t.pa va) else none

/-- The checks of R56 on a transfer target. A page that cannot be fetched from faults at the fetch (R84). -/
inductive Target where
  | ok
  | bad
  | miss
  deriving DecidableEq, Repr

/-- Stores that a sheet has acquired are what its fetches return from a taken transfer on (R85). -/
def State.refetch (s : State) (r : SheetRef) : State :=
  { s with stores := s.stores.map fun x => if x.acquired.any (·.1 == r) then { x with fetches := r :: x.fetches } else x }
/-- R56 on a target that no transfer has taken yet, of a back edge. -/
def State.edgeTarget (s : State) (r : SheetRef) (core ctx : Nat) (a : DWord) : Target :=
  if ¬canonical a ∨ a.extractLsb' 0 3 ≠ 0 then .bad
  else
    match s.fetch r core ctx a with
    | .word w => if isHeader w then .ok else .bad
    | .noExec => .ok
    | .miss => .miss
/-- R56 on a transfer's target, whose fetch returns what the sheet has acquired (R85). -/
def State.target (s : State) (r : SheetRef) (core ctx : Nat) (a : DWord) : Target := (s.refetch r).edgeTarget r core ctx a

/-- R56 on a trap handler's address; in the one step of R210 it is looked up by a walk when no TLB holds it, and an
address that does not translate is accepted here and faults at its fetch. -/
def State.vectorOk (s : State) (r : SheetRef) (core ctx : Nat) (a : DWord) : Bool :=
  if a = 0 ∨ ¬canonical a ∨ a.extractLsb' 0 3 ≠ 0 then false
  else
    match s.fetch r core ctx a with
    | .word w => isHeader w
    | .noExec => true
    | .miss =>
      match s.walk (dieOf core) ctx a with
      | .ok t => !(leafX t.leaf && s.mayReach (s.ctx ctx).part (t.pa a) 8 false) || isHeader (s.fetchPa r (t.pa a))
      | _ => true

/-! ### Happens-before (R85, R152-R158) -/

/-- Strands of one sheet whose accesses program order joins: the same one, or a uniform word's with any (R150). -/
def laneMeet (a b : Nat) : Bool := a == b || a == 127 || b == 127
/-- Two byte ranges overlap. -/
def overlaps (a m b n : Nat) : Bool := a < b + n && b < a + m
/-- The location of a chamber byte of a quire, which no physical address is. -/
def chamLoc (h off : Nat) : Nat := 2 ^ 60 + 2 ^ 20 * h + off
/-- The location of a physical byte: that of the chamber byte behind a window (R148). -/
def State.locOf (s : State) (pa : Nat) : Nat :=
  match s.region pa with
  | .win c off =>
    if off < 0x80000 then
      match s.chamOwner c off with
      | some (h, q) => chamLoc h (off - q.chamAt * 4096)
      | none => pa
    else pa
  | _ => pa
/-- Every access of an issuer follows an access: it has acquired a release behind it (R152, R153). -/
def StoreRec.known (x : StoreRec) (r : SheetRef) (lane : Nat) : Bool := x.acquired.any fun a => a.1 == r && laneMeet a.2 lane
/-- A release of an issuer follows an access: one of its own in program order, one that it has acquired, or one before such
an access (R152, R154). -/
def StoreRec.behind (x : StoreRec) (r : SheetRef) (lane : Nat) : Bool :=
  (x.ref == r && laneMeet x.lane lane) || x.known r lane || x.passed.any fun a => a.1 == r && laneMeet a.2 lane
/-- An issuer's access of some bytes, with an order, that writes or not, follows an access (R151, R152, R154). -/
def StoreRec.hb (x : StoreRec) (r : SheetRef) (lane pa len : Nat) (rel write : Bool) : Bool :=
  x.known r lane || (rel && x.behind r lane) ||
  (x.ref == r && laneMeet x.lane lane && overlaps x.pa x.len pa len) ||
  x.fenced.any fun a => a.1 == r && laneMeet a.2.1 lane && (a.2.2 || write)
/-- An access in the list of those that some issuer's later ones follow, each once. -/
def joinRef (l : List (SheetRef × Nat)) (r : SheetRef) (lane : Nat) : List (SheetRef × Nat) :=
  if l.contains (r, lane) then l else (r, lane) :: l
/-- An access of an issuer takes its place: what it follows, later accesses follow too, all of them behind an acquire, and
releases behind a uniform word's access (R150, R152, R154). -/
def State.touch (s : State) (r : SheetRef) (lane pa len : Nat) (acq rel write : Bool) : State :=
  { s with stores := s.stores.map fun x =>
      if x.hb r lane pa len rel write then
        { x with acquired := if acq then joinRef x.acquired r lane else x.acquired,
                 passed := if lane = 127 then joinRef x.passed r lane else x.passed }
      else x }
/-- A release of an issuer: it follows its accesses and those that it has acquired. -/
def State.relMark (s : State) (r : SheetRef) (lane : Nat) (y : Sync) : State :=
  { s with stores := s.stores.map fun x => if x.behind r lane then { x with released := y :: x.released } else x }
/-- An acquire of an issuer that synchronises with the releases of which `p` holds. -/
def State.acqMark (s : State) (r : SheetRef) (lane : Nat) (p : Sync → Bool) : State :=
  { s with stores := s.stores.map fun x =>
      if x.released.any p then { x with acquired := joinRef x.acquired r lane } else x }
/-- What follows the releases of which `p` holds follows another too: an engine operation that has completed has its slot,
batch or flag (R157). -/
def State.linkSync (s : State) (p : Sync → Bool) (y : Sync) : State :=
  { s with stores := s.stores.map fun x =>
      if x.released.any p && !x.released.contains y then { x with released := y :: x.released } else x }
/-- An engine operation forks at the word that issues it (R157). -/
def State.forkEng (s : State) (r : SheetRef) (id : Nat) : State := s.relMark r 127 (.eng id)
/-- Releases of which `p` holds publish nothing any more. -/
def State.dropSync (s : State) (p : Sync → Bool) : State :=
  { s with stores := s.stores.map fun x => { x with released := x.released.filter (!p ·) } }
/-- A sheet joins the engine operations that releases of which `p` holds stand for, once (R157). -/
def State.joinEng (s : State) (r : SheetRef) (p : Sync → Bool) : State := (s.acqMark r 127 p).dropSync p
/-- An engine operation completes: what follows its fork follows what shows its completion (R157). -/
def State.endEng (s : State) (id : Nat) (y : Sync) : State := (s.linkSync (· == .eng id) y).dropSync (· == .eng id)
/-- What a write of some bytes leaves of a range: the ranges beside it. -/
def cutRange (pa len lo hi : Nat) : List (Nat × Nat) :=
  if overlaps lo (hi - lo) pa len then
    (if lo < pa then [(lo, pa)] else []) ++ (if pa + len < hi then [(pa + len, hi)] else [])
  else [(lo, hi)]
/-- What a write of some bytes leaves of a release (R153, R242): the bytes beside it. -/
def Sync.cut (pa len : Nat) : Sync → List Sync
  | .loc a n sc c r l => (cutRange pa len a (a + n)).map fun x => .loc x.1 (x.2 - x.1) sc c r l
  | .word a n lo hi sc c r l => (cutRange pa len lo hi).map fun x => .word a n x.1 x.2 sc c r l
  | y => [y]
/-- A plain write at a location ends what earlier releases of its bytes published (R153, R242). -/
def State.cutAt (s : State) (loc len : Nat) : State :=
  { s with stores := s.stores.map fun x => { x with released := x.released.flatMap (Sync.cut loc len) } }
/-- A plain write at a physical address does. -/
def State.cutSync (s : State) (pa len : Nat) : State := s.cutAt (s.locOf pa) len
/-- Bytes that another agent has written, which every walker and fetch sees at once: what they need not see is no older. -/
def StoreRec.reveal (x : StoreRec) (pa : Nat) (bs : List Byte) : StoreRec :=
  { x with old := x.old.zipIdx.map fun b => if x.pa + b.2 < pa then b.1 else (bs[x.pa + b.2 - pa]?).getD b.1 }
/-- Bytes written by the host, the firmware or an engine. -/
def State.openWrite (s : State) (pa : Nat) (bs : List Byte) : State :=
  { ((s.cutSync pa bs.length).writeBytes pa bs) with
    stores := (s.cutSync pa bs.length).stores.map fun x => x.reveal pa bs }

/-! ### Reports (R348) -/

/-- An event record in a partition's ring, or one more dropped; MSI-X vector 0 is raised (R348). A record that a ring
beyond host memory would put elsewhere is not written (log 14). -/
def State.report (s : State) (part : Nat) (typ : Nat) (src : Nat) (detail : Nat) : State :=
  let p := s.part part
  let p' : Part := { p with msix := p.msix + 1 }
  let tail := if p.evtsize = 0 then 0 else (p.evttail + 1) % p.evtsize
  if p.evtsize = 0 ∨ tail = p.evthead then
    { s with parts := s.parts.put part { p' with dropped := min 0xFFFF (p.dropped + 1) } }
  else
    let a := hostBase + p.evtbase.toNat + 32 * p.evttail.toNat
    let bs := leBytes 4 typ ++ leBytes 4 src ++ leBytes 8 s.reft ++ leBytes 16 detail
    { (if a + 32 ≤ hostTop then s.writeBytes a bs else s) with parts := s.parts.put part { p' with evttail := tail } }
/-- An uncorrectable error met in HBM is counted for its channel (R362). -/
def State.ueCount (s : State) (pa : Nat) : State :=
  let ch := s.channel pa
  { s with life := { s.life with uncorrected := s.life.uncorrected.set 0 ch (s.life.uncorrected.get 0 ch + 1) } }
/-- An uncorrectable error that a program meets, in a partition: counted, and event 2 (R235, R348, R357, R362). -/
def State.ueReport (s : State) (part pa : Nat) : State :=
  (s.ueCount pa).report part 2 (s.channel pa) (pa + 2 ^ 64 * s.channel pa)
/-- An event of the whole device, reported to every partition. -/
def State.reportAll (s : State) (typ src detail : Nat) : State :=
  s.parts.foldl (fun s e => s.report e.1 typ src detail) s

/-! ### Waits (R43) -/

/-- A sheet is no longer the one in progress in a lane block. -/
def Core.unprog (c : Core) (lb : Nat) (r : SheetRef) : Core :=
  if c.prog.find lb = some r then { c with prog := c.prog.del lb } else c
/-- Sheets of a quire are in progress in no lane block of its core. -/
def State.unprogQuire (s : State) (h core : Nat) : State :=
  s.modCore core fun c => { c with prog := c.prog.filter fun x => x.2.h != h }
/-- The sheet in issue leaves its lane block's issue slot: the lane block chooses anew (R292). -/
def State.leave (s : State) : State :=
  match s.cur with
  | none => s
  | some r =>
    match s.quires.find r.h with
    | none => { s with cur := none }
    | some q =>
      let lb := (q.sheets.find r.k).elim 0 (·.lb)
      { (s.modCore q.core fun c => c.unprog lb r) with cur := none }
/-- A sheet returns to the ready set. -/
def State.wake (s : State) (r : SheetRef) : State := s.modSheet r fun sh => { sh with wait := .none }
/-- Every sheet with its reference. -/
def State.sheets (s : State) : List (SheetRef × Quire × Sheet) :=
  s.quires.flatMap fun q => q.2.sheets.map fun k => ({ h := q.1, k := k.1 }, q.2, k.2)

/-! ### Suspension (R299) -/

/-- A quire whose stalled words can still finish: resident, or held while swap-out waits for them (R295). -/
def Quire.runs (q : Quire) : Bool :=
  match q.phase with
  | .resident | .saving _ => true
  | _ => false
/-- A quire that a suspension has to save: one stopped under R335 too. -/
def Quire.toSave (q : Quire) : Bool :=
  match q.phase with
  | .resident | .saving _ | .stopped true => true
  | _ => false
/-- A context's quires that suspension still has to save. -/
def State.toSave (s : State) (ctx : Nat) : Bool := s.quires.any fun x => x.2.ctx == ctx && x.2.toSave
/-- Swap records of a context's suspension are still to be written: those of every quire, or, once it has resumed, of the
quires that are being saved (R299). -/
def State.unsaved (s : State) (ctx : Nat) : Bool :=
  if (s.ctx ctx).suspended then s.toSave ctx
  else s.quires.any fun x => x.2.ctx == ctx && x.2.phase == .saving .suspend
/-- Sheets, and host commands, that wait for a context's suspension go on once its last swap record is written (R299). -/
def State.suspendWake (s : State) (ctx : Nat) : State :=
  if s.unsaved ctx then s
  else
    { s with
      parts := s.parts.mapv fun p => if p.busy = some (.suspend ctx) then { p with busy := none, cmdstat := 0 } else p,
      quires := s.quires.mapv fun q => { q with sheets := q.sheets.mapv fun sh =>
        if sh.wait = (.suspend ctx) then { sh with wait := .none } else sh } }

/-! ### Stopping a quire (R172, R210, R288) -/

/-- Engine operations of a quire that have not completed (R202, R295). -/
def State.engineBusy (s : State) (h : Nat) (fabric : Bool) : Bool :=
  s.copies.any (·.ref.h == h) || s.nms.any (·.ref.h == h) || s.installs.any (·.ref.h == h) ||
  s.cores.any (fun c => c.2.mx.any (fun o => o.ref.h == h) || c.2.wm.any fun o => o.ref.h == h) ||
  (fabric && (s.fabs.any (·.ref.h == h) ||
    s.vats.any fun v => (v.2.input ++ v.2.queue).any fun o => o.ref.any (·.h == h)))
/-- A stopped quire of a ream has engine operations, whose accesses the completion word has to follow (R288). -/
def State.reamBusy (s : State) (id : Nat) : Bool :=
  s.quires.any fun q => q.2.ream == some id && q.2.phase == .stopped false && s.engineBusy q.1 true
/-- The end of a quire precedes its ream's completion word (R288). -/
def State.reamMark (s : State) (h id : Nat) : State :=
  { s with stores := s.stores.map fun x =>
      if x.ref.h = h ∨ ((x.acquired ++ x.passed).any fun a => a.1.h == h) = true then { x with released := .ream id :: x.released }
      else x }
/-- A completion word, a release at host scope (R288) by no sheet: of what precedes it when it is a ream's. -/
def State.doneWord (s : State) (id : Option Nat) (a x : Nat) : State :=
  let s := s.openWrite a (leBytes 8 x)
  { s with stores := s.stores.map fun x =>
      if x.released.any fun y => id.any fun i => y == .ream i then
        { x with released := .loc a 8 Scope.host.code (2 ^ 20) x.ref 127 :: x.released }
      else x }
/-- The completion word of a ream whose last quire has ended, once no re-key of its page holds it (R288, R359). -/
def State.reamEnd (s : State) (id : Nat) : State :=
  match s.reams.find id with
  | none => s
  | some m =>
    let total := m.x * m.y * m.z
    if m.open_ = 0 ∧ (m.next = total ∨ m.stopped) ∧ s.reamBusy id = false then
      match if m.done = 0 then (s, true) else s.keyGate (.ream id) [] [m.done] with
      | (s, false) => s
      | (s, true) =>
        let s := if m.done = 0 then s
          else s.doneWord (some id) m.done ((if m.stopped then 4 else 0) + 2 ^ 32 * (total - m.began))
        let past (l : LQueue) : LQueue := if l.head = some id then { l with head := none, rd := l.rd + 1 } else l
        let s := s.modPart m.part fun p => { p with queues := p.queues.upd m.queue past }
        { s with reams := s.reams.del id }
    else s

/-- A quire stops with its state kept, and event 1 is reported: cause, TPC and CTXID (R172, R210, R348). A quire that
can be resumed (R335) does not end its ream's run. -/
def State.stopQuire (s : State) (h : Nat) (cause : BitVec 8) (tpc : DWord) (resumable : Bool) : State :=
  match s.quires.find h with
  | none => s
  | some q =>
    let s := (s.modQuire h fun q => { q with phase := .stopped resumable }).unprogQuire h q.core
    let s := { s with reissue := s.reissue.filter fun x => x.ref.h != h }
    let s := if s.cur.map (·.h) = some h then { s with cur := none } else s
    let s := s.suspendWake q.ctx
    let s := s.report (s.ctx q.ctx).part 1 q.qid.toNat (cause.toNat + 2 ^ 32 * tpc.toNat + 2 ^ 96 * q.ctx)
    match q.ream with
    | some m =>
      if resumable then s
      else
        ({ (s.reamMark h m) with reams := s.reams.upd m fun x => { x with stopped := true, open_ := x.open_ - 1 } }).reamEnd m
    | none => s

/-- A quire that meets an uncorrectable memory error stops, and it is reported (R172, R357). -/
def State.ueStop (s : State) (h pa : Nat) (tpc : DWord) : State :=
  match s.quires.find h with
  | none => s
  | some q => (s.ueReport (s.ctx q.ctx).part pa).stopQuire h 0 tpc false

/-! ### Taking an exception (R82, R210, R211) -/

/-- What a cause's rule gives for a trap: the cause, TPC, THDR, TADDR and TINFO. -/
structure Trap where
  cause : BitVec 8
  tpc   : DWord
  thdr  : DWord
  addr  : DWord
  info  : Word
  deriving DecidableEq, Repr

/-- INTRAP (R211). -/
def Sheet.intrap (sh : Sheet) : Bool := sh.tstat.getLsbD 7

/-- A `loop` word that has issued in the clause that a trap interrupts, unless it is the word that traps (R193). -/
def Sheet.keep (sh : Sheet) (t : Trap) : Option (DWord × PLoop) :=
  sh.pend.bind fun p =>
    if t.tpc = sh.hdrAddr + BitVec.ofNat 64 (8 * p.idx) then none else some (sh.hdrAddr, p)
/-- The sheet after trap entry (R210); TSTAT's fields take three bits each and its reserved bits stay 0 (R6, R211). -/
def Sheet.enter (sh : Sheet) (t : Trap) : Sheet :=
  { sh with tpc := t.tpc, thdr := t.thdr, taddr := t.addr, tinfo := t.info, tcause := t.cause.setWidth 32,
            tstat := BitVec.ofNat 32 (128 + 16 * (sh.fbase % 8) + sh.ldep % 8), fbase := sh.fbase + sh.ldep, ldep := 0,
            pc := sh.tvec, hdrAddr := sh.tvec, idx := 0, pend := none, kept := sh.keep t, wait := .none,
            held := [] }

/-- Taking an exception (R210): the handler is entered, or, when one is running or TVEC names none, the quire stops as
a double trap with its registers as they were. -/
def State.trap (s : State) (r : SheetRef) (t : Trap) : State :=
  match s.quires.find r.h with
  | none => s
  | some q =>
    match q.sheets.find r.k with
    | none => s
    | some sh =>
      if sh.intrap || !s.vectorOk r q.core q.ctx sh.tvec then s.stopQuire r.h t.cause t.tpc false
      else (s.modSheet r fun sh => sh.enter t).leave

/-- A trap at the word in issue (R82): TPC is its address, THDR its clause's header. -/
def Env.trapAt (e : Env) (cause : BitVec 8) (addr : DWord) (info : Word) : Trap :=
  { cause, tpc := e.sh.pc, thdr := e.sh.hdrAddr, addr, info }
/-- TINFO of R162 and R204: body index, strand and reason. -/
def Env.info162 (e : Env) (strand reason : Nat) : Word := BitVec.ofNat 32 (e.sh.idx + 16 * strand + 2048 * reason)
/-- A trap of R162. -/
def Env.trap162 (e : Env) (cause : BitVec 8) (addr : DWord) (strand reason : Nat) : Trap :=
  e.trapAt cause addr (e.info162 strand reason)
/-- ILLEGAL_OPCODE, ILLEGAL_ENCODING and PRIVILEGED (R82). -/
def Env.trapWord (e : Env) (cause : BitVec 8) : Trap := e.trapAt cause e.sh.pc (BitVec.ofNat 32 e.sh.idx)

/-! ### Going on (R55, R184, R292) -/

/-- When the sheet's age began, past the word in issue: with the last body word of a clause with YLD it is 0 (R61, R292). R61 does
not say whether it counts from the first or after the last of that word's cycles; the model counts from the cycle in which the
word starts to issue, or in which its wait at issue ends (DESIGN CHOICE, log 19). -/
def Sheet.beganPast (sh : Sheet) (now : Nat) : Nat := if sh.idx = sh.hdr.n.toNat ∧ sh.hdr.yld = true then now else sh.began
/-- The sheet past the word in issue. At the end of a clause that closes no level and opens none, the next word is a
header (R55). -/
def Sheet.advance (sh : Sheet) (now : Nat) : Sheet :=
  { sh with
    pc := sh.pc + 8, began := sh.beganPast now,
    idx := if sh.idx = sh.hdr.n.toNat ∧ sh.hdr.le = 0 ∧ sh.pend = none then 0 else sh.idx + 1 }
/-- The sheet at a header that a transfer names (R184). -/
def Sheet.goto (sh : Sheet) (a : DWord) : Sheet := { sh with pc := a, idx := 0, pend := none }

/-- The machine past the word in issue; at a clause's end the lane block chooses anew (R292). -/
def State.advance (s : State) (e : Env) : State :=
  let s' := s.modSheet e.r fun sh => sh.advance (s.cycles e.q.core)
  if (s'.sheet? e.r).any (·.idx == 0) then s'.leave else s'
/-- The sheet in issue stands past its word and waits (R43). -/
def State.holdAt (s : State) (e : Env) (w : Wait) : State :=
  ((s.advance e).modSheet e.r fun sh => { sh with wait := w }).leave

/-- The sheet at a header that a taken transfer names (R184): as the last body word of a clause with YLD the transfer sets
the age to 0 (R61, R292). -/
def Sheet.jump (sh : Sheet) (a : DWord) (cyc : Nat) : Sheet := { sh.goto a with began := sh.beganPast cyc }
/-- A taken transfer (R184): the sheet is at the target's header and the lane block chooses anew. -/
def State.goto (s : State) (e : Env) (a : DWord) : State :=
  ((s.modSheet e.r fun sh => sh.jump a (s.cycles e.q.core)).refetch e.r).leave

/-- How a word ends. -/
inductive Eff where
  /-- Its effect is `s`; the sheet goes on past it. -/
  | done (s : State)
  /-- Its effect is `s`, the sheet's place included. -/
  | placed (s : State)
  /-- It has captured its operands; the sheet stands past it and waits. -/
  | hold (s : State) (w : Wait)
  /-- It waits at issue and issues again. -/
  | wait (s : State) (w : Wait)
  | trap (s : State) (t : Trap)
  deriving Repr

/-- The state a word leaves. -/
def Eff.finish (e : Env) : Eff → State
  | .done s => s.advance e
  | .placed s => s
  | .hold s w => s.holdAt e w
  | .wait s w => (s.modSheet e.r fun sh => { sh with wait := w }).leave
  | .trap s t => s.trap e.r t

/-! ### Issue of a body word (R81, R58) -/

/-- Causes. -/
def cIllegalOpcode : BitVec 8 := 0x01
def cIllegalEncoding : BitVec 8 := 0x02
def cIllegalClause : BitVec 8 := 0x03
def cIllegalTarget : BitVec 8 := 0x04
def cPrivileged : BitVec 8 := 0x05
def cLoopNest : BitVec 8 := 0x10
def cLoopEscape : BitVec 8 := 0x11
def cLoopLeak : BitVec 8 := 0x12
def cLoopWindow : BitVec 8 := 0x13
def cAccess : BitVec 8 := 0x21
def cMisaligned : BitVec 8 := 0x22
def cXlateFatal : BitVec 8 := 0x23
def cDeckleInvalid : BitVec 8 := 0x40
def cVatSlot : BitVec 8 := 0x41
def cVatPage : BitVec 8 := 0x42
def cMatrix : BitVec 8 := 0x50
def cWma : BitVec 8 := 0x51
def cReplayDiverge : BitVec 8 := 0x60
def cSoft : BitVec 8 := 0x70
def cBreak : BitVec 8 := 0x71
def cRegionStop : BitVec 8 := 0x72

/-- W and B of a slot's window (R191). -/
def Slot.w (sl : Slot) : Nat := (sl.win.extractLsb' 8 8).toNat
def Slot.b (sl : Slot) : Nat := (sl.win.extractLsb' 0 8).toNat
/-- A slot (R191). -/
def Sheet.slotAt (sh : Sheet) (j : Nat) : Slot := sh.slots.get Slot.zero j
/-- Open slots of the current frame, outermost first (R190). -/
def Sheet.openSlots (sh : Sheet) : List Nat := (List.range sh.ldep).map (· + sh.fbase)
/-- The register a V name resolves to (R195). Windows do not overlap unless `wrsr` makes them; R195 does not say which one of two
then counts, and the model takes the outermost one of the frame (DESIGN CHOICE, log 38). -/
def Sheet.resolve (sh : Sheet) (n : Nat) : Nat :=
  match sh.openSlots.find? fun j => (sh.slotAt j).b ≤ n && n < (sh.slotAt j).b + (sh.slotAt j).w with
  | some j => (sh.slotAt j).b + (n - (sh.slotAt j).b + (sh.slotAt j).rot.toNat) % (sh.slotAt j).w
  | none => n
/-- Every register of the V operands lies in the allocation (R37, R195): names with how many registers they start. -/
def Sheet.vOk (sh : Sheet) (vs : List (Nat × Nat)) : Bool :=
  vs.all fun v => (List.range v.2).all fun i => sh.resolve (v.1 + i) < sh.alloc

/-- What the checks of R81 and R58 need to know of a word: its flag set when it is long-latency, whether it needs
privilege, and its V operands. -/
structure Issue where
  ll   : Option Bool := none
  priv : Bool := false
  vs   : List (Nat × Nat) := []

/-- The flag that a long-latency word counts on (R58). -/
def Sheet.flagOf (sh : Sheet) (fs : Bool) : Nat := if fs then sh.hdr.setb.toNat else sh.hdr.seta.toNat

/-- A body word at issue: the checks of R81 steps 2 to 4 that depend on the sheet (R58's flag set, privilege,
V registers), the wait of R58 at a full flag, and then the word's own effect. -/
def issue (w : Issue) (s : State) (body : Env → Eff) : Out :=
  match s.env? with
  | none => .fault .noSheetInIssue
  | some e =>
    .next <| Eff.finish e <|
      if w.ll.any (fun fs => e.sh.flagOf fs = 15) then .trap s (e.trapWord cIllegalEncoding)
      else if w.priv && !e.cx.desc.priv then .trap s (e.trapWord cPrivileged)
      else if !e.sh.vOk w.vs then .trap s (e.trapWord cIllegalEncoding)
      else if w.ll.any (fun fs => 63 ≤ e.sh.flags.get 0 (e.sh.flagOf fs)) then .wait s (.issue 15)
      else body e

end Sys2Proof.Machine
end

