-- ==== Sys2Proof/Machine/Flags.lean ====
section
/-! DEFINITION. The sticky arithmetic conditions with their traps (R98-R100), and the completion flags of long-latency
words (R57-R59). -/

namespace Sys2Proof.Machine

/-! ### Conditions (R98, R100) -/

/-- Conditions in the bit order of SFLAGS (R98). -/
abbrev Cond := BitVec 7
def Cond.nv : Cond := 1
def Cond.dz : Cond := 2
def Cond.of_ : Cond := 4
def Cond.uf : Cond := 8
def Cond.nx : Cond := 16
def Cond.idz : Cond := 32
def Cond.range : Cond := 64

/-- SFLAGS bits in the order of their trap causes, with the causes (R99): inexact never traps. -/
def condCauses : List (Nat × BitVec 8) := [(0, 0x30), (1, 0x31), (2, 0x32), (3, 0x33), (5, 0x34), (6, 0x35)]

/-- The conditions that `raised` holds together. -/
def condAll (raised : List (Nat × Cond)) : Cond := raised.foldl (fun c x => c ||| x.2) 0

/-- The lowest enabled cause among the conditions raised, with the lowest strand that raised it (R100). -/
def condTrap (strap : Word) (raised : List (Nat × Cond)) : Option (BitVec 8 × Nat) :=
  condCauses.findSome? fun c =>
    if strap.getLsbD c.1 then (raised.find? fun x => x.2.getLsbD c.1).map fun x => (c.2, x.1) else none

/-- The conditions ORed into SFLAGS (R98). -/
def Sheet.raise (sh : Sheet) (c : Cond) : Sheet := { sh with sflags := sh.sflags ||| c.setWidth 32 }

/-- The end of a word that raises conditions, strand by strand (127 for a uniform word): SFLAGS takes them all, and
either an enabled one traps with no destination written, or the destinations are written (R100). -/
def condEff (e : Env) (s : State) (raised : List (Nat × Cond)) (write : State → State) : Eff :=
  let s := s.modSheet e.r fun sh => sh.raise (condAll raised)
  match condTrap e.sh.strap raised with
  | some (cause, strand) => .trap s (e.trapAt cause e.sh.pc (BitVec.ofNat 32 (e.sh.idx + 16 * strand)))
  | none => .done (write s)

/-! ### Completion flags (R57-R59) -/

/-- Every flag that WAIT names is clear (R57). -/
def Sheet.waitClear (sh : Sheet) : Bool :=
  (List.range 12).all fun n => !sh.hdr.wait.getLsbD n || sh.flags.get 0 n == 0

/-- A long-latency word issues (R58): its flag rises, and its destinations are outstanding. -/
def Sheet.llOpen (sh : Sheet) (l : LL) : Sheet :=
  { sh with flags := sh.flags.set 0 l.flag (sh.flags.get 0 l.flag + 1), lls := sh.lls ++ [l] }
/-- A long-latency word issues, with `left` parts of its result to come. -/
def State.llOpen (s : State) (e : Env) (fs : Bool) (id left : Nat) (outs : List LLOut) (noise : Bool) : State :=
  s.modSheet e.r fun sh => sh.llOpen { id, flag := e.sh.flagOf fs, left, outs, noise }
/-- Destinations whose values are known at issue. -/
def outsOf (ws : List (RegKey × Word)) : List LLOut := ws.map fun w => { key := w.1, val := some w.2, raced := false }

/-- Sheets of a list that wait at issue are ready again: something they may have waited for has changed. -/
def State.retryAll (s : State) : State :=
  { s with quires := s.quires.mapv fun q => { q with sheets := q.sheets.mapv fun sh =>
      match sh.wait with
      | .issue _ => { sh with wait := .none }
      | _ => sh } }

/-- The flag of a completed word falls (R58); a sheet that waited for its clause's flags goes on (R43, R57). -/
def Sheet.flagDown (sh : Sheet) (flag : Nat) : Sheet :=
  let sh := { sh with flags := sh.flags.set 0 flag (sh.flags.get 0 flag - 1) }
  match sh.wait with
  | .flags => if sh.waitClear then { sh with wait := .none } else sh
  | .issue _ => { sh with wait := .none }
  | _ => sh

/-- A completed long-latency word that is an engine operation joins when its flag clears, with those that count there too
(R157). -/
def State.flagEnd (s : State) (r : SheetRef) (l : LL) : State :=
  let s := s.endEng l.id (.flag r l.flag)
  if (s.sheet? r).any fun sh => sh.flags.get 0 l.flag ≤ 1 then s.joinEng r (· == .flag r l.flag) else s
/-- The results of a completed long-latency word, and its flag (R58). Where another word has written a destination
meanwhile, one of the two values stands, freely (R59). -/
def State.llDone (s : State) (r : SheetRef) (id : Nat) : State :=
  match (s.sheet? r).bind fun sh => sh.lls.find? (·.id == id) with
  | none => s
  | some l =>
    let s := (s.flagEnd r l).modSheet r fun sh => { sh with lls := sh.lls.filter (·.id != id) }
    let ws := l.outs.filterMap fun o =>
      if o.raced && Config.pick s.free (50000 + o.key.code) % 2 = 0 then none else o.val.map fun v => (o.key, v)
    (s.writeRegs r ws).modSheet r fun sh => sh.flagDown l.flag

/-- One owed part of a long-latency result arrives: the values of some destinations. -/
def Sheet.llGive (sh : Sheet) (id : Nat) (ws : List (RegKey × Word)) : Sheet :=
  { sh with lls := sh.lls.map fun l =>
      if l.id = id then
        { l with left := l.left - 1, outs := l.outs.map fun o =>
            match ws.find? fun w => w.1 = o.key with
            | some w => { o with val := some w.2 }
            | none => o }
      else l }

end Sys2Proof.Machine
end

