-- ==== Sys2Proof/Machine/Num.lean ====
section
/-! DEFINITION. Floating-point numbers: the formats and their decoding (R87-R90), exact values, the one rounding
(R91, R92), NaNs (R93), minimum and maximum (R94), conversions (R95, R96) and stochastic rounding (R97). -/

namespace Sys2Proof.Machine

/-- How a format uses its greatest exponent field (R87-R90). -/
inductive FKindTop where
  /-- Infinities and NaNs (R88). -/
  | ieee
  /-- NaN only at mantissa 7 (R89, E4M3). -/
  | e4m3
  /-- Neither (R90, E2M1). -/
  | e2m1
  deriving DecidableEq, Repr

/-- A floating-point format: fraction bits, exponent bits, bias (R87, R89, R90). -/
structure Fmt where
  fb   : Nat
  eb   : Nat
  bias : Nat
  top  : FKindTop
  quiet : Bool
  deriving DecidableEq, Repr

def fp32 : Fmt := { fb := 23, eb := 8, bias := 127, top := .ieee, quiet := false }
def fp16 : Fmt := { fb := 10, eb := 5, bias := 15, top := .ieee, quiet := false }
def bf16 : Fmt := { fb := 7, eb := 8, bias := 127, top := .ieee, quiet := false }
def e4m3 : Fmt := { fb := 3, eb := 4, bias := 7, top := .e4m3, quiet := true }
def e5m2 : Fmt := { fb := 2, eb := 5, bias := 15, top := .ieee, quiet := true }
def e2m1 : Fmt := { fb := 1, eb := 2, bias := 1, top := .e2m1, quiet := true }

/-- The format of a floating-point TYPE (R67). -/
def Ty.fmt : Ty → Fmt
  | .f16 => fp16 | .bf16 => bf16 | .e4m3 => e4m3 | .e5m2 => e5m2 | .e2m1 => e2m1
  | _ => fp32

/-- Bits of a format but the sign. -/
def Fmt.signAt (f : Fmt) : Nat := f.fb + f.eb
/-- Exponent of the least normal number (R87). -/
def Fmt.emin (f : Fmt) : Int := 1 - f.bias
/-- Exponent of the greatest binade: in E4M3 and E2M1 the top exponent field holds numbers (R89, R90). -/
def Fmt.emax (f : Fmt) : Int :=
  match f.top with
  | .ieee => 2 ^ f.eb - 2 - f.bias
  | _ => 2 ^ f.eb - 1 - f.bias
/-- The default NaN (R87, R89). -/
def Fmt.nan (f : Fmt) : Nat :=
  match f.top with
  | .ieee => (2 ^ f.eb - 1) * 2 ^ f.fb + 2 ^ (f.fb - 1)
  | .e4m3 => 0x7F
  | .e2m1 => 0
/-- Max finite (R87, R89, R90). -/
def Fmt.maxFinite (f : Fmt) : Nat :=
  match f.top with
  | .ieee => (2 ^ f.eb - 1) * 2 ^ f.fb - 1
  | .e4m3 => 0x7E
  | .e2m1 => 7
/-- +∞ of a format that has it. -/
def Fmt.inf (f : Fmt) : Nat := (2 ^ f.eb - 1) * 2 ^ f.fb
/-- Bits with the sign set. -/
def Fmt.signed (f : Fmt) (neg : Bool) (bits : Nat) : Nat := if neg then bits + 2 ^ f.signAt else bits

/-- A value: NaN (signalling or not), infinity, or the finite number ±n · 2^e (R88). -/
inductive FV where
  | nan (sig : Bool)
  | inf (neg : Bool)
  | fin (neg : Bool) (n : Nat) (e : Int)
  deriving DecidableEq, Repr

/-- Decoding (R88-R90); E4M3 and E5M2 NaNs are quiet (R89). -/
def Fmt.decode (f : Fmt) (x : Nat) : FV :=
  let neg := x / 2 ^ f.signAt % 2 = 1
  let ex := x / 2 ^ f.fb % 2 ^ f.eb
  let fr := x % 2 ^ f.fb
  if ex = 2 ^ f.eb - 1 ∧ f.top = .ieee then
    if fr = 0 then .inf neg else .nan (!f.quiet && fr < 2 ^ (f.fb - 1))
  else if ex = 2 ^ f.eb - 1 ∧ fr = 2 ^ f.fb - 1 ∧ f.top = .e4m3 then .nan false
  else if ex = 0 then .fin neg fr (f.emin - f.fb)
  else .fin neg (fr + 2 ^ f.fb) (f.emin - f.fb + (ex - 1 : Nat))

/-- A subnormal pattern (R88). -/
def Fmt.subnormal (f : Fmt) (x : Nat) : Bool := x / 2 ^ f.fb % 2 ^ f.eb = 0 && x % 2 ^ f.fb ≠ 0
/-- A source as it is read: with FTZ a subnormal is a zero of the same sign (R92). -/
def Fmt.read (f : Fmt) (ftz : Bool) (x : Nat) : FV :=
  if ftz && f.subnormal x then .fin (x / 2 ^ f.signAt % 2 = 1) 0 0 else f.decode x

/-! ### Rounding (R91, R92) -/

/-- n / 2^k rounded to an integer: the integer, and whether it differs (R91). -/
def roundShift (rm : RM) (neg : Bool) (n k : Nat) : Nat × Bool :=
  let q := n / 2 ^ k
  let r := n % 2 ^ k
  let up := match rm with
    | .rne => 2 ^ k < 2 * r || (2 * r == 2 ^ k && q % 2 == 1 && k != 0)
    | .rz => false
    | .ru => !neg && r != 0
    | .rd => neg && r != 0
  (if up then q + 1 else q, r != 0)
/-- ±n · 2^e rounded to a multiple of 2^lsb: the multiple, and whether it differs. -/
def roundAt (rm : RM) (neg : Bool) (n : Nat) (e lsb : Int) : Nat × Bool :=
  if lsb ≤ e then (n * 2 ^ (e - lsb).toNat, false) else roundShift rm neg n (lsb - e).toNat

/-- What an overflow gives (R91); `sat` is the mode of R95 for E4M3. -/
def Fmt.overflow (f : Fmt) (rm : RM) (sat neg : Bool) : Nat :=
  f.signed (neg && !(f.top = .e4m3 && !sat)) <|
    match f.top with
    | .ieee =>
      let away := match rm with
        | .rne => true | .rz => false | .ru => !neg | .rd => neg
      if away then f.inf else f.maxFinite
    | .e4m3 => if sat then f.maxFinite else f.nan
    | .e2m1 => f.maxFinite

/-- A nonzero finite ±n · 2^e rounded once to a format, with its conditions (R91, R92). A low bit of `n` may stand for
a sum of smaller parts when `n` has more bits than the format keeps. DESIGN CHOICE: R92 detects tininess after rounding and
does not say by which rounded value; the model takes the value rounded with the exponent range unbounded below, as IEEE 754
does (log 41; unsafe for a value that only one of the two readings calls tiny). -/
def Fmt.roundFin (f : Fmt) (rm : RM) (ftz sat neg : Bool) (n : Nat) (e : Int) : Nat × Cond :=
  let top : Int := Nat.log2 n + e
  let lsbU := top - f.fb
  let lsb := max lsbU (f.emin - f.fb)
  let (m, nx) := roundAt rm neg n e lsb
  let (mU, _) := roundAt rm neg n e lsbU
  let tiny := top < f.emin && !(top + 1 == f.emin && mU == 2 ^ (f.fb + 1))
  if tiny && ftz then (f.signed neg 0, Cond.uf ||| Cond.nx)
  else
    let bits := (lsb - (f.emin - f.fb)).toNat * 2 ^ f.fb + m
    if f.maxFinite < bits then (f.overflow rm sat neg, Cond.of_ ||| Cond.nx)
    else (f.signed neg bits, (if nx then Cond.nx else 0) ||| (if nx && tiny then Cond.uf else 0))

/-- A result in a format (R91-R93, R95): `c` holds the conditions of the operation itself. An infinity in a format
without infinities follows R95. -/
def Fmt.give (f : Fmt) (rm : RM) (ftz sat : Bool) (v : FV) (c : Cond := 0) : Nat × Cond :=
  match v with
  | .nan _ => (f.nan, if f.top = .e2m1 then c ||| Cond.nv else c)
  | .inf neg =>
    match f.top with
    | .ieee => (f.signed neg f.inf, c)
    | .e4m3 => if sat then (f.signed neg f.maxFinite, c) else (f.nan, c ||| Cond.nv)
    | .e2m1 => (f.signed neg f.maxFinite, c)
  | .fin neg n e =>
    if n = 0 then (f.signed neg 0, c) else let r := f.roundFin rm ftz sat neg n e; (r.1, r.2 ||| c)

/-! ### Exact operations -/

/-- A finite value as an integer multiple of 2^e. -/
def scaleTo (neg : Bool) (n : Nat) (e lo : Int) : Int := (if neg then -1 else 1) * (n * 2 ^ (e - lo).toNat : Nat)
/-- A finite value of an integer multiple of 2^e; a zero gets the sign given. -/
def ofScaled (x : Int) (e : Int) (zneg : Bool) : FV := .fin (if x = 0 then zneg else x < 0) x.natAbs e

/-- A signalling NaN (R93). -/
def FV.sig : FV → Bool
  | .nan s => s
  | _ => false
def FV.isNan : FV → Bool
  | .nan _ => true
  | _ => false
def FV.isInf : FV → Bool
  | .inf _ => true
  | _ => false
def FV.isZero : FV → Bool
  | .fin _ n _ => n == 0
  | _ => false
/-- The sign of a value that is no NaN. -/
def FV.neg : FV → Bool
  | .nan _ => false
  | .inf s => s
  | .fin s _ _ => s
/-- A value with its sign inverted. -/
def FV.flip : FV → FV
  | .nan s => .nan s
  | .inf s => .inf (!s)
  | .fin s n e => .fin (!s) n e

/-- The exact sum (R120): an exact zero from operands of opposite signs is +0, or -0 under RD. -/
def FV.add (rm : RM) (a b : FV) : FV × Cond :=
  match a, b with
  | .nan s, y => (.nan false, if s || y.sig then Cond.nv else 0)
  | x, .nan s => (.nan false, if s || x.sig then Cond.nv else 0)
  | .inf s, .inf t => if s = t then (.inf s, 0) else (.nan false, Cond.nv)
  | .inf s, _ => (.inf s, 0)
  | _, .inf t => (.inf t, 0)
  | .fin s n e, .fin t m g =>
    let lo := min e g
    (ofScaled (scaleTo s n e lo + scaleTo t m g lo) lo (if s = t then s else rm = .rd), 0)
/-- The exact product (R120). -/
def FV.mul (a b : FV) : FV × Cond :=
  match a, b with
  | .nan s, y => (.nan false, if s || y.sig then Cond.nv else 0)
  | x, .nan s => (.nan false, if s || x.sig then Cond.nv else 0)
  | .fin s n e, .fin t m g => (.fin (s != t) (n * m) (e + g), 0)
  | x, y => if x.isZero || y.isZero then (.nan false, Cond.nv) else (.inf (x.neg != y.neg), 0)
/-- A × B + C with no rounding (R120): 0 × ∞ is invalid even when C is a quiet NaN. -/
def FV.fma (rm : RM) (a b c : FV) : FV × Cond :=
  let p := FV.mul a b
  let r := FV.add rm p.1 c
  (r.1, p.2 ||| r.2)
/-- The quotient (R120), with one bit that stands for the remainder. -/
def FV.div (a b : FV) : FV × Cond :=
  match a, b with
  | .nan s, y => (.nan false, if s || y.sig then Cond.nv else 0)
  | x, .nan s => (.nan false, if s || x.sig then Cond.nv else 0)
  | .inf s, .inf _ => (.nan s, Cond.nv)
  | .inf s, y => (.inf (s != y.neg), 0)
  | x, .inf t => (.fin (x.neg != t) 0 0, 0)
  | .fin s n e, .fin t m g =>
    if m = 0 then if n = 0 then (.nan false, Cond.nv) else (.inf (s != t), Cond.dz)
    else
      let k := 64 + Nat.log2 m
      let q := n * 2 ^ k / m
      (.fin (s != t) (if n * 2 ^ k % m = 0 then 2 * q else 2 * q + 1) (e - g - k - 1), 0)
/-- The integer square root of `n`, bits `i - 1` down to 0 added to `r`. -/
def isqrt (n : Nat) : Nat → Nat → Nat
  | 0, r => r
  | i + 1, r => isqrt n i (if (r + 2 ^ i) * (r + 2 ^ i) ≤ n then r + 2 ^ i else r)
/-- The square root (R120), with one bit that stands for the rest. -/
def FV.sqrt (a : FV) : FV × Cond :=
  match a with
  | .nan s => (.nan false, if s then Cond.nv else 0)
  | .inf s => if s then (.nan false, Cond.nv) else (.inf false, 0)
  | .fin s n e =>
    if n = 0 then (.fin s 0 0, 0)
    else if s then (.nan false, Cond.nv)
    else
      let odd := (e % 2).toNat
      let x := n * 2 ^ (80 + odd)
      let r := isqrt x (Nat.log2 x / 2 + 1) 0
      (.fin false (if r * r = x then 2 * r else 2 * r + 1) ((e - odd) / 2 - 41), 0)

/-- Order of two values that are no NaNs: -1, 0 or 1; zeros are equal. -/
def FV.cmp (a b : FV) : Int :=
  match a, b with
  | .inf s, .inf t => if s = t then 0 else if s then -1 else 1
  | .inf s, _ => if s then -1 else 1
  | _, .inf t => if t then 1 else -1
  | .fin s n e, .fin t m g =>
    let lo := min e g
    (scaleTo s n e lo - scaleTo t m g lo).sign
  | _, _ => 0

/-- Minimum and maximum of R94: NaN if either is, or ignoring one NaN with `num`; -0 is less than +0; a signalling NaN
is invalid. -/
def FV.minMax (isMin num : Bool) (a b : FV) : FV × Cond :=
  let c : Cond := if a.sig || b.sig then Cond.nv else 0
  match a, b with
  | .nan _, .nan _ => (.nan false, c)
  | .nan _, y => (if num then y else .nan false, c)
  | x, .nan _ => (if num then x else .nan false, c)
  | x, y =>
    let less := FV.cmp x y < 0 || (FV.cmp x y == 0 && x.neg)
    (if less == isMin then x else y, c)

/-! ### Words over FP32 and other formats -/

/-- A function of FP32 operands with one rounding (R120). -/
def fp32Op (rm : RM) (ftz : Bool) (v : FV × Cond) : DWord × Cond :=
  let r := fp32.give rm ftz false v.1 v.2
  (BitVec.ofNat 64 r.1, r.2)
/-- A register's FP32 operand. -/
def rd32 (ftz : Bool) (x : DWord) : FV := fp32.read ftz (x.toNat % 2 ^ 32)
/-- rne(a + b) in FP32 with subnormals kept (R165, R219). -/
def rneAdd (a b : Word) : Word :=
  let r := FV.add .rne (fp32.decode a.toNat) (fp32.decode b.toNat)
  BitVec.ofNat 32 (fp32.give .rne false false r.1).1
/-- IEEE minimum or maximum of FP32 words (R94), `num` for minimumNumber and maximumNumber. -/
def minMax32 (isMin num : Bool) (a b : Word) : Word :=
  BitVec.ofNat 32 (fp32.give .rne false false (FV.minMax isMin num (fp32.decode a.toNat) (fp32.decode b.toNat)).1).1

/-- A value rounded to an integral value, with the sign kept on zero, and whether it differs (R124). -/
def FV.integral (rm : RM) (v : FV) : FV × Bool :=
  match v with
  | .fin s n e => if 0 ≤ e then (v, false) else let r := roundShift rm s n (-e).toNat; (.fin s r.1 0, r.2)
  | _ => (v, false)

/-- Conversion to an integer of `bits` bits (R96). -/
def FV.toInt (rm : RM) (sgn : Bool) (bits : Nat) (v : FV) : Int × Cond :=
  let lo : Int := if sgn then -(2 ^ (bits - 1)) else 0
  let hi : Int := if sgn then 2 ^ (bits - 1) - 1 else 2 ^ bits - 1
  match v with
  | .nan _ => (0, Cond.nv)
  | .inf s => (if s then lo else hi, Cond.nv)
  | .fin s n e =>
    let r := roundAt rm s n e 0
    let x : Int := if s then -r.1 else r.1
    if x < lo then (lo, Cond.nv) else if hi < x then (hi, Cond.nv) else (x, if r.2 then Cond.nx else 0)

/-- Conversion between floating-point formats (R95): a signalling NaN is invalid. -/
def cvtFloat (dst src : Fmt) (rm : RM) (ftz sat : Bool) (x : Nat) : Nat × Cond :=
  let v := src.read ftz x
  dst.give rm ftz sat v (if v.sig then Cond.nv else 0)

/-- Stochastic rounding of an FP32 source (R97), with r the low 16 bits of the random operand. DESIGN CHOICE: R97 names the input
flush of FTZ = 1 alone, so a tiny result is not flushed (log 41; unsafe). -/
def cvtStoch (dst : Fmt) (ftz sat : Bool) (x r : Nat) : Nat × Cond :=
  match fp32.read ftz x with
  | .nan sg => (dst.nan, if sg then Cond.nv else 0)
  | .inf s => dst.give .rne false sat (.inf s)
  | .fin s n e =>
    if n = 0 then (dst.signed s 0, 0)
    else
      let q := max ((Nat.log2 n : Int) + e - dst.fb) (dst.emin - dst.fb)
      -- a in units of q / 2^16, exact below by floor; finer bits of a do not meet bits of r
      let k := q - 16 - e
      let num := if k ≤ 0 then n * 2 ^ (-k).toNat else n
      let den := if k ≤ 0 then 1 else 2 ^ k.toNat
      let t := (num + r * den) / (den * 65536)
      let exact := num % (den * 65536) == 0
      let bits := (q - (dst.emin - dst.fb)).toNat * 2 ^ dst.fb + t
      let nx : Cond := if exact then 0 else Cond.nx
      if dst.maxFinite < bits then (dst.overflow .rne sat s, Cond.of_ ||| Cond.nx)
      else (dst.signed s bits, nx ||| if !exact && t != 0 && t < 2 ^ dst.fb && q == dst.emin - dst.fb then Cond.uf else 0)

/-- The class mask of R123. -/
def Fmt.classMask (f : Fmt) (x : Nat) : Nat :=
  match f.decode x with
  | .nan sg => if sg then 256 else 512
  | .inf s => if s then 1 else 128
  | .fin s n _ =>
    if n = 0 then if s then 8 else 16
    else if f.subnormal x then if s then 4 else 32
    else if s then 2 else 64

end Sys2Proof.Machine
end

