-- ==== Sys2Proof/Machine/Operands.lean ====
section
/-! DEFINITION. Operand forms: the strands a word acts on (R20, R63), register operands of each width (R64, R65, R109),
addresses (R69, R71, R163), and the runs of a register word over its strands (R110). -/

namespace Sys2Proof.Machine

/-! ### Guards and strands (R63, R216) -/

/-- Bit `t` of every strand's LSTG (R63). -/
def Sheet.stageMask (sh : Sheet) (t : Nat) : Mask :=
  sh.lstg.foldl (fun m x => if x.2.getLsbD t then m ||| (1 : Mask) <<< x.1 else m) 0
/-- The guard bits of the strands (R63): GSEL 0 none, 1-7 a K register, 8-15 a stage bit; NEG inverts. -/
def Sheet.guard (sh : Sheet) (gsel : BitVec 4) (neg : Bool) : Mask :=
  if gsel = 0 then BitVec.allOnes 96
  else
    let m := if gsel.toNat < 8 then sh.k.get 0 gsel.toNat else sh.stageMask (gsel.toNat - 8)
    if neg then ~~~m else m
/-- The active strands of a word with U = 0 (R63). Where a long-latency word that writes S60-S62 is outstanding, R59 allows the old
or the new value of each; the active strands, and the `brm` and `mpush` words, take the old one (DESIGN CHOICE, log 3). -/
def Sheet.active (sh : Sheet) (gsel : BitVec 4) (neg : Bool) : Mask := sh.exm &&& sh.guard gsel neg
/-- The strands of a mask, ascending. -/
def strandsOf (m : Mask) : List Nat := (List.range 96).filter fun i => m.getLsbD i

/-- The issuers of a word: its active strands in ascending order, or none but the sheet once when U = 1 (R110). -/
def Env.lanes (e : Env) (c : Com) : List (Option Nat) :=
  if c.u then [none] else (strandsOf (e.sh.active c.gsel c.neg)).map some
/-- The number by which TINFO names an issuer (R100, R162). -/
def laneNo : Option Nat → Nat
  | none => 127
  | some s => s

/-! ### Register operands (R64, R65, R109, R195) -/

/-- The register that a field of the word's own space names for an issuer. -/
def Env.key (e : Env) (l : Option Nat) (n : Nat) : RegKey :=
  match l with
  | none => uniKey n
  | some s => .v (e.sh.resolve n) s
/-- A 32-bit operand. -/
def Env.w (e : Env) (l : Option Nat) (n : Nat) : Word := e.sh.read e.fr (e.key l n)
/-- An operand of `k` registers, as 64 bits (R65). -/
def Env.opnd (e : Env) (l : Option Nat) (k n : Nat) : DWord :=
  match k with
  | 0 => 0
  | 1 => (e.w l n).setWidth 64
  | _ => joinWords (e.w l n) (e.w l (n + 1))
/-- A result of `k` registers (R65). -/
def Env.dst (e : Env) (l : Option Nat) (k n : Nat) (x : DWord) : List (RegKey × Word) :=
  match k with
  | 0 => []
  | 1 => [(e.key l n, loWord x)]
  | _ => [(e.key l n, loWord x), (e.key l (n + 1), hiWord x)]
/-- V operands of a word of either space: none when U = 1 (R81 step 4). -/
def vsOf (c : Com) (vs : List (Nat × Nat)) : List (Nat × Nat) := if c.u then [] else vs

/-! ### Register words -/

/-- A format R word over its issuers: D, A, B and C of `nd`, `na`, `nb` and `nc` registers; `f` gives D from A, B, C and
the old D, with its conditions. -/
def alu (w : FR) (nd na nb nc : Nat) (f : DWord → DWord → DWord → DWord → DWord × Cond) (s : State) : Out :=
  issue { vs := vsOf w.com [(w.d.toNat, nd), (w.a.toNat, na), (w.b.toNat, nb), (w.c.toNat, nc)] } s fun e =>
    let rs := (e.lanes w.com).map fun l =>
      (l, f (e.opnd l na w.a.toNat) (e.opnd l nb w.b.toNat) (e.opnd l nc w.c.toNat) (e.opnd l nd w.d.toNat))
    condEff e s (rs.map fun x => (laneNo x.1, x.2.2)) fun s =>
      s.writeRegs e.r (rs.flatMap fun x => e.dst x.1 nd w.d.toNat x.2.1)

/-- A format R word that raises no condition. -/
def aluInt (w : FR) (nd na nb nc : Nat) (f : DWord → DWord → DWord → DWord → DWord) (s : State) : Out :=
  alu w nd na nb nc (fun a b c d => (f a b c d, 0)) s

/-- A format I word over its issuers: `f` gives D from A (R115). -/
def aluImm (w : FI) (na : Nat) (f : Word → Word) (s : State) : Out :=
  issue { vs := vsOf w.com [(w.d.toNat, 1), (w.a.toNat, na)] } s fun e =>
    .done (s.writeRegs e.r ((e.lanes w.com).map fun l => (e.key l w.d.toNat, f (e.w l w.a.toNat))))

/-- Bits of a mask register replaced for the strands of `m` (R119, R136). -/
def putMask (old m new : Mask) : Mask := (old &&& ~~~m) ||| (new &&& m)
/-- The mask of the strands for which `p` holds. -/
def maskOf (strands : List Nat) (p : Nat → Bool) : Mask :=
  strands.foldl (fun m i => if p i then m ||| (1 : Mask) <<< i else m) 0
/-- A mask register written by a sheet. -/
def State.setK (s : State) (r : SheetRef) (n : Nat) (m : Mask) : State :=
  s.modSheet r fun sh => { sh with k := sh.k.set 0 n m }

/-- A compare over its issuers (R119): bits of a mask when U = 0, 1 or 0 in a uniform register when U = 1. -/
def compare (c : Com) (d : BitVec 8) (vs : List (Nat × Nat)) (f : Env → Option Nat → Bool × Cond) (s : State) : Out :=
  issue { vs := vsOf c vs } s fun e =>
    let rs := (e.lanes c).map fun l => (l, f e l)
    condEff e s (rs.map fun x => (laneNo x.1, x.2.2)) fun s =>
      if c.u then
        s.writeRegs e.r (rs.map fun x => (uniKey d.toNat, if x.2.1 then 1 else 0))
      else
        let act := e.sh.active c.gsel c.neg
        let bits := rs.foldl (fun m x => if x.2.1 then m ||| (1 : Mask) <<< laneNo x.1 else m) 0
        s.setK e.r d.toNat (putMask (e.sh.k.get 0 d.toNat) act bits)

/-! ### Addresses (R69, R71, R163) -/

/-- The index of a format M word: a V register read as signed, or none (R69). -/
def Env.index (e : Env) (l : Option Nat) (idx : BitVec 8) : Int :=
  if idx = 0xFF then 0 else (e.w l idx.toNat).toInt
/-- The base of a global access (R69). -/
def Env.gbase (e : Env) (b : BitVec 6) : DWord := if b = 63 then 0 else e.spair b.toNat
/-- A global address (R69), modulo 2^64. -/
def Env.gaddr (e : Env) (l : Option Nat) (base : BitVec 6) (idx : BitVec 8) (scale : BitVec 2) (off : Int)
    (bytes : Nat) : DWord :=
  e.gbase base + BitVec.ofInt 64 (e.index l idx * 2 ^ scale.toNat + off * bytes)
/-- A global address of `ld.gx` and `st.gx` (R163). -/
def Env.gxaddr (e : Env) (l : Option Nat) (base : BitVec 6) (idx : BitVec 8) (off : Int) (bytes : Nat) : DWord :=
  match l with
  | none => e.gbase base + BitVec.ofInt 64 (off * bytes)
  | some _ => e.gbase base + e.opnd l 2 idx.toNat + BitVec.ofInt 64 (off * bytes)
/-- A chamber offset, exact (R41, R69). -/
def Env.caddr (e : Env) (l : Option Nat) (base : BitVec 6) (idx : BitVec 8) (scale : BitVec 2) (off : Int)
    (bytes : Nat) : Int :=
  (if base = 63 then 0 else (e.s base.toNat).toNat) + e.index l idx * 2 ^ scale.toNat + off * bytes
/-- V operands of a format M word with data of `k` registers at T and an index of `ni` (R69). -/
def mvs (c : Com) (t idx : BitVec 8) (k ni : Nat) : List (Nat × Nat) :=
  vsOf c ((t.toNat, k) :: if idx = 0xFF then [] else [(idx.toNat, ni)])

/-- The target of a format C displacement (R71). -/
def Env.disp (e : Env) (d : BitVec 25) : DWord := sext56 (e.sh.hdrAddr + BitVec.ofInt 64 (8 * d.toInt))

end Sys2Proof.Machine
end

