-- ==== Sys2Proof/Machine/Approx.lean ====
section
/-! DEFINITION. The approximate functions, opcodes 0x3C, 0x3D and 0x50-0x54 (R125-R127). A result that R126 does not
fix is one of the two FP32 neighbours of the exact value, `Config.approxAway` saying which; the lower neighbour is
found from the exact value cut to 320 fractional bits (log 10). -/

namespace Sys2Proof.Machine

/-- Fractional bits of the exact values' cuts. -/
def fixBits : Nat := 320
/-- π and ln 2 cut to 320 fractional bits. -/
def fixPi : Nat :=
  6710401180212168915155840974220003240804194089427148950727106424351713218671805380099500388914039
def fixLn2 : Nat :=
  1480553391661173448385607439722553250922680800745876974795605978609098082859138712941075737848984

/-- Sum of the series t^i / i! over `n` terms from term `i` on, with the sign of every second term by `alt` and the
step 1 or 2 by `two`: exp, sin and cos in fixed point. -/
def series (alt two : Bool) (t : Int) : Nat → Nat → Int → Int
  | 0, _, _ => 0
  | n + 1, i, term =>
    let next := if two then term * t / 2 ^ fixBits * t / 2 ^ fixBits / ((i + 1) * (i + 2)) else term * t / 2 ^ fixBits / (i + 1)
    term + series alt two t n (if two then i + 2 else i + 1) (if alt then -next else next)
/-- e^t for 0 ≤ t ≤ 20, in fixed point. -/
def fixExp (t : Int) : Int := series false false t 200 0 (2 ^ fixBits)
/-- sin t and cos t for 0 ≤ t < π/2, in fixed point. -/
def fixSin (t : Int) : Int := series true true t 60 1 t
def fixCos (t : Int) : Int := series true true t 60 0 (2 ^ fixBits)
/-- Σ z^(2i+1)/(2i+1), the inverse hyperbolic tangent, for 0 ≤ z ≤ 1/3 in fixed point. -/
def fixAtanh (z : Nat) : Nat → Nat → Nat → Nat
  | 0, _, _ => 0
  | n + 1, i, p => p / (2 * i + 1) + fixAtanh z n (i + 1) (p * z / 2 ^ fixBits * z / 2 ^ fixBits)

/-- A result that is not fixed: of magnitude n · 2^e, whose low bit stands for a rest, one of the two neighbours (R125);
exact values are given as they are. -/
def approxGive (op : Nat) (x : DWord) (ftz neg : Bool) (n : Nat) (e : Int) : DWord × Cond :=
  let r := fp32.roundFin .rz false false false n e
  let exact := !r.2.getLsbD 4
  let z := if exact then r.1 else if Config.approxAway op (loWord x) && r.1 < fp32.maxFinite then r.1 + 1 else r.1
  let tiny := z < 2 ^ fp32.fb
  if tiny && ftz then (BitVec.ofNat 64 (fp32.signed neg 0), Cond.uf ||| Cond.nx)
  else
    (BitVec.ofNat 64 (fp32.signed neg z),
      if exact then 0 else if tiny then Cond.uf ||| Cond.nx else Cond.nx)

/-- A fixed result (R126). -/
def fixed (bits : Nat) (c : Cond) : DWord × Cond := (BitVec.ofNat 64 bits, c)
/-- The default NaN with conditions (R126). -/
def nanWith (c : Cond) : DWord × Cond := fixed fp32.nan c
/-- NaN operands in every column of R126. -/
def nanOperand (sg : Bool) : DWord × Cond := nanWith (if sg then Cond.nv else 0)

/-- `frcp` (R126). -/
def approxRcp (ftz : Bool) (x : DWord) : DWord × Cond :=
  match rd32 ftz x with
  | .nan sg => nanOperand sg
  | .inf s => fixed (fp32.signed s 0) 0
  | .fin s n e =>
    if n = 0 then fixed (fp32.signed s fp32.inf) Cond.dz
    else if n * 2 ^ (e + 149).toNat ≤ 2 ^ 21 then fixed (fp32.signed s fp32.inf) (Cond.of_ ||| Cond.nx)
    else
      match (FV.div (.fin false 1 0) (.fin s n e)).1 with
      | .fin _ m g => approxGive 0 x ftz s m g
      | _ => nanWith 0
/-- `frsq` (R126). -/
def approxRsq (ftz : Bool) (x : DWord) : DWord × Cond :=
  match rd32 ftz x with
  | .nan sg => nanOperand sg
  | .inf s => if s then nanWith Cond.nv else fixed 0 0
  | .fin s n e =>
    if n = 0 then fixed (fp32.signed s fp32.inf) Cond.dz
    else if s then nanWith Cond.nv
    else
      let odd := (e % 2).toNat
      let m := n * 2 ^ odd
      let r := isqrt (2 ^ 240 / m) 121 0
      approxGive 1 x ftz false (if r * r * m = 2 ^ 240 then 2 * r else 2 * r + 1) (-((e - odd) / 2) - 121)
/-- `fexp2` (R126). -/
def approxExp2 (ftz : Bool) (x : DWord) : DWord × Cond :=
  match rd32 ftz x with
  | .nan sg => nanOperand sg
  | .inf s => fixed (if s then 0 else fp32.inf) 0
  | .fin s n e =>
    if n = 0 then fixed 0x3F800000 0
    else if FV.cmp (.fin s n e) (.fin false 128 0) ≥ 0 then fixed fp32.inf (Cond.of_ ||| Cond.nx)
    else if FV.cmp (.fin s n e) (.fin true 150 0) < 0 then fixed 0 (Cond.uf ||| Cond.nx)
    else if Nat.log2 n + e < -24 then approxGive 2 x ftz false (if s then 2 ^ 200 - 1 else 2 ^ 200 + 1) (-200)
    else
      let v : Int := scaleTo s n e (-fixBits)
      let i := v / 2 ^ fixBits
      let f := v % 2 ^ fixBits
      if f = 0 then approxGive 2 x ftz false 1 i
      else approxGive 2 x ftz false (2 * (fixExp (f * fixLn2 / 2 ^ fixBits)).toNat + 1) (i - fixBits - 1)
/-- `flog2` (R126). -/
def approxLog2 (ftz : Bool) (x : DWord) : DWord × Cond :=
  match rd32 ftz x with
  | .nan sg => nanOperand sg
  | .inf s => if s then nanWith Cond.nv else fixed fp32.inf 0
  | .fin s n e =>
    if n = 0 then fixed (fp32.signed true fp32.inf) Cond.dz
    else if s then nanWith Cond.nv
    else
      let l := Nat.log2 n
      let i : Int := l + e
      if n = 2 ^ l then approxGive 3 x ftz (i < 0) i.natAbs 0 |> fun r => if i = 0 then fixed 0 0 else r
      else
        let z := (n - 2 ^ l) * 2 ^ fixBits / (n + 2 ^ l)
        let y : Int := i * 2 ^ fixBits + (2 * fixAtanh z 110 0 z * 2 ^ fixBits / fixLn2 : Nat)
        approxGive 3 x ftz (y < 0) (2 * y.natAbs + 1) (-fixBits - 1)
/-- `ftanh` (R126). -/
def approxTanh (ftz : Bool) (x : DWord) : DWord × Cond :=
  match rd32 ftz x with
  | .nan sg => nanOperand sg
  | .inf s => fixed (fp32.signed s 0x3F800000) 0
  | .fin s n e =>
    if n = 0 then fixed (fp32.signed s 0) 0
    else if FV.cmp (.fin false n e) (.fin false 10 0) ≥ 0 then fixed (fp32.signed s 0x3F800000) Cond.nx
    else if Nat.log2 n + e < -12 then approxGive 4 x ftz s (n * 2 ^ 200 - 1) (e - 200)
    else
      let t := (fixExp (2 * scaleTo false n e (-fixBits))).toNat
      approxGive 4 x ftz s (2 * ((t - 2 ^ fixBits) * 2 ^ fixBits / (t + 2 ^ fixBits)) + 1) (-fixBits - 1)
/-- `fsin` (op 5) and `fcos` (op 6): the argument is reduced modulo π/2 and quarter turns pick the function (R127). -/
def approxTrig (cos ftz : Bool) (x : DWord) : DWord × Cond :=
  let op := if cos then 6 else 5
  match rd32 ftz x with
  | .nan sg => nanOperand sg
  | .inf _ => nanWith Cond.nv
  | .fin s n e =>
    if n = 0 then if cos then fixed 0x3F800000 0 else fixed (fp32.signed s 0) 0
    else if 20 ≤ Nat.log2 n + e then nanWith Cond.range
    else if Nat.log2 n + e < -12 then
      if cos then approxGive op x ftz false (2 ^ 200 - 1) (-200) else approxGive op x ftz s (n * 2 ^ 200 - 1) (e - 200)
    else
      let v := (scaleTo false n e (-fixBits)).toNat
      let k := 2 * v / fixPi
      let r : Int := ((2 * v - k * fixPi) / 2 : Nat)
      let q := (if cos then k + 1 else k) % 4
      let m := if q % 2 = 0 then fixSin r else fixCos r
      approxGive op x ftz ((2 ≤ q) != (s && !cos)) (2 * m.toNat + 1) (-fixBits - 1)

/-! ### The instructions -/

/-- R125, R126. -/
def execFrcp (w : FR) (s : State) : Out := alu w 1 1 0 0 (fun a _ _ _ => approxRcp w.ftz a) s
/-- R125, R126. -/
def execFrsq (w : FR) (s : State) : Out := alu w 1 1 0 0 (fun a _ _ _ => approxRsq w.ftz a) s
/-- R125, R126. -/
def execFexp2 (w : FR) (s : State) : Out := alu w 1 1 0 0 (fun a _ _ _ => approxExp2 w.ftz a) s
/-- R125, R126. -/
def execFlog2 (w : FR) (s : State) : Out := alu w 1 1 0 0 (fun a _ _ _ => approxLog2 w.ftz a) s
/-- R125, R126. -/
def execFtanh (w : FR) (s : State) : Out := alu w 1 1 0 0 (fun a _ _ _ => approxTanh w.ftz a) s
/-- R125-R127. -/
def execFsin (w : FR) (s : State) : Out := alu w 1 1 0 0 (fun a _ _ _ => approxTrig false w.ftz a) s
/-- R125-R127. -/
def execFcos (w : FR) (s : State) : Out := alu w 1 1 0 0 (fun a _ _ _ => approxTrig true w.ftz a) s

end Sys2Proof.Machine
end

