-- ==== Sys2Proof/Machine/Log.lean ====
section
/-! DEFINITION. Debug data that other operations write or read (R333-R342): the trace ring, the streams of the log, the
store hash and designated ranges. -/

namespace Sys2Proof.Machine

/-- A word lies in a designated range (R333, R338). -/
def Debug.designated (d : Debug) (va : DWord) : Bool :=
  d.ranges.any fun r => r.1.toNat ≤ va.toNat && va.toNat < r.1.toNat + r.2.toNat
/-- The context's debug descriptor, when it is bound and `p` of it holds. -/
def Ctx.dbg (c : Ctx) (p : Debug → Bool) : Option Debug := Option.filter p c.debug

/-! ### The trace ring (R336) -/

/-- The offset after a record at `off` (R336). -/
def Debug.nextOff (d : Debug) (off : Nat) : Nat := if off + 64 < d.trsize then off + 64 else 64
/-- Records that stand together are written, or counted as dropped, together (R336, R337). -/
def State.traceOut (s : State) (d : Debug) (recs : List (List Byte)) : State :=
  let w := s.ownNat d.trbase 8
  let r := s.ownNat (d.trbase + 16) 8
  let offs := recs.foldl (fun os _ => os ++ [d.nextOff (os.getLast?.getD w)]) [w]
  if offs.tail.contains r then
    s.postNat (d.trbase + 8) 4 (min 0xFFFFFFFF (s.ownNat (d.trbase + 8) 4 + recs.length))
  else
    ((offs.zip recs).foldl (fun s x => s.postWrite (d.trbase + x.1) x.2) s).postNat d.trbase 8 (offs.getLast?.getD w)

/-- The 64 bytes of a record of a sheet (R336). -/
def traceBytes (typ : Nat) (q : Quire) (k time : Nat) (pc : DWord) (top : List (BitVec 16)) (d32 d64 : Nat)
    (rest : List Byte) : List Byte :=
  leBytes 1 typ ++ leBytes 1 k ++ leBytes 2 q.core ++ leBytes 4 q.qid.toNat ++ leBytes 8 time ++ leBytes 8 pc.toNat ++
  leBytes 2 (top[0]?.getD 0xFFFF).toNat ++ leBytes 2 (top[1]?.getD 0xFFFF).toNat ++ leBytes 4 d32 ++ leBytes 8 d64 ++
  (rest ++ List.replicate 24 0).take 24
/-- A record of the word in issue, with the region stack as it stands after the word (R336). -/
def State.traceWord (s : State) (e : Env) (typ d32 d64 : Nat) (regions : List (BitVec 16)) : State :=
  match e.cx.dbg fun d => if typ = 4 then d.banktr else d.trace with
  | none => s
  | some d => s.traceOut d [traceBytes typ e.q e.r.k s.reft e.sh.pc regions d32 d64 []]

/-- Exit record and exit continuation of a sheet (R337). -/
def exitRecords (q : Quire) (k time : Nat) (sh : Sheet) : List (List Byte) :=
  let c := fun n => leBytes 4 (sh.stalls.get 0 n).toNat
  [traceBytes 5 q k time sh.pc sh.regions 0 0 ((List.range 6).flatMap c),
   leBytes 1 6 ++ leBytes 1 k ++ leBytes 2 q.core ++ leBytes 4 q.qid.toNat ++ (List.range 10).flatMap (fun n => c (n + 6)) ++
     List.replicate 16 0]
/-- The exit records of a quire that retires (R337). -/
def State.traceExit (s : State) (q : Quire) : State :=
  match (s.ctx q.ctx).dbg (·.trace) with
  | none => s
  | some d => q.sheets.foldl (fun s x => s.traceOut d (exitRecords q x.1 s.reft x.2)) s

/-! ### The log (R338, R340) -/

/-- The stream of a context, beside those of the 256 vats (R340). -/
def ctxStream : Nat := 256
/-- Kind 0 entry (R338); an operation of another module is the issuer with QID 0xFFFFFFFF and slot 0. -/
def runEntry (ch slot : Nat) (qid : Word) (run : Nat) : DWord :=
  BitVec.ofNat 64 (2 ^ 52 * (ch % 256) + 2 ^ 44 * (slot % 16) + 2 ^ 12 * qid.toNat + run % 4096)
/-- Header of a kind 2 or 3 entry (R340): the channel bits are 0. -/
def entryHeader (kind slot : Nat) (qid : Word) : DWord :=
  BitVec.ofNat 64 (2 ^ 60 * kind + 2 ^ 44 * slot + 2 ^ 12 * qid.toNat)
/-- Header of a kind 1 entry (R340): the identity in [59:44], the slot in [11:8]. -/
def edgeHeader (slot : Nat) (qid : Word) (id : BitVec 16) : DWord :=
  BitVec.ofNat 64 (2 ^ 60 + 2 ^ 44 * id.toNat + 2 ^ 12 * qid.toNat + 2 ^ 8 * slot)

/-- All logging of a context has stopped (R340). -/
def State.logFull (s : State) (d : Debug) : Bool := (s.ownByte (d.logbase + 8)).getLsbD 0
/-- A block taken for a stream, linked at `link`; FULL when there is none (R340). -/
def State.logBlock (s : State) (ctx : Nat) (d : Debug) (stream link : Nat) : State :=
  let n := s.ownNat d.logbase 8
  if d.logsize ≤ n then s.postNat (d.logbase + 8) 8 1
  else ((s.postNat link 8 n).postNat d.logbase 8 (n + 4096)).modCtx ctx fun c => { c with streams := c.streams.put stream n }
/-- One dword put into a stream (R340). -/
def State.logDword (s : State) (ctx : Nat) (d : Debug) (stream : Nat) (w : DWord) : State :=
  if s.logFull d then s
  else
    let s := match (s.ctx ctx).streams.find stream with
      | none => s.logBlock ctx d stream (d.logbase + 64 + 8 * stream)
      | some p => if p % 4096 = 4088 then s.logBlock ctx d stream (d.logbase + p) else s
    match (s.ctx ctx).streams.find stream with
    | none => s
    | some p =>
      if p % 4096 = 4088 then s
      else (s.postNat (d.logbase + p) 8 w.toNat).modCtx ctx fun c => { c with streams := c.streams.put stream (p + 8) }
/-- A header with its payload put into the context stream (R340). -/
def State.logPair (s : State) (ctx : Nat) (h x : DWord) : State :=
  match (s.ctx ctx).dbg (·.record) with
  | none => s
  | some d => (s.logDword ctx d ctxStream h).logDword ctx d ctxStream x

/-- Dwords of a stream from a block on, in at most `n` blocks (R340). -/
def State.logBlocks (s : State) (d : Debug) : Nat → Nat → List DWord
  | 0, _ => []
  | n + 1, b =>
    if b = 0 then []
    else
      ((List.range 511).map fun i => BitVec.ofNat 64 (s.ownNat (d.logbase + b + 8 * i) 8)) ++
        s.logBlocks d n (s.ownNat (d.logbase + b + 4088) 8)
/-- Dwords of a stream (R340). -/
def State.logStream (s : State) (d : Debug) (stream : Nat) : List DWord :=
  s.logBlocks d (d.logsize / 4096) (s.ownNat (d.logbase + 64 + 8 * stream) 8)
/-- Headers with their payloads, up to the first zero header (R340). -/
def pairsOf : List DWord → List (DWord × DWord)
  | h :: x :: t => if h = 0 then [] else (h, x) :: pairsOf t
  | _ => []
/-- The entries of a context's stream. -/
def State.logPairs (s : State) (d : Debug) : List (DWord × DWord) := pairsOf (s.logStream d ctxStream)
/-- The kind 0 entries of a vat's stream. -/
def State.logRuns (s : State) (d : Debug) (ch : Nat) : List DWord := (s.logStream d ch).takeWhile (· ≠ 0)
/-- Kind of an entry. -/
def entryKind (h : DWord) : Nat := (h.extractLsb' 60 4).toNat

/-! ### Replay (R341) -/

/-- A context whose replay has left the log. -/
def State.diverge (s : State) (ctx : Nat) : State := s.modCtx ctx fun c => { c with diverged := true }
/-- The order gate of a context at a vat: there from the first gated operation on. -/
def Vat.gate (v : Vat) (ctx now : Nat) : Gate :=
  (v.gates.find? (·.ctx == ctx)).getD { ctx, pos := 0, used := 0, opened := false, since := some now }
def Vat.putGate (v : Vat) (g : Gate) : Vat :=
  { v with gates := if v.gates.any (·.ctx == g.ctx) then v.gates.map fun x => if x.ctx = g.ctx then g else x else v.gates ++ [g] }
/-- A sheet of a context has run out of logged noise words: every gate of the context opens for the rest of the run. -/
def State.openGates (s : State) (ctx : Nat) : State :=
  (List.range 256).foldl (fun s ch => s.modVat ch fun v => v.putGate { v.gate ctx s.reft with opened := true }) (s.diverge ctx)

/-- The word that `noise` delivers to a strand: in replay the sheet's next logged word, else a drawn one, or 0 while the
die's source is failed; the log takes it with NOISELOG (R141, R340, R341). -/
def State.noiseWord (s : State) (r : SheetRef) (lane : Nat) : Word × State :=
  match s.quires.find r.h with
  | none => (0, s)
  | some q =>
    let used := match q.sheets.find r.k with | some sh => sh.noises | none => 0
    let drawn := if (s.die (dieOf q.core)).noiseFail then 0 else Config.freeWord s.free (0x1000000 + lane)
    let log (s : State) : State :=
      match (s.ctx q.ctx).dbg fun d => d.noise && d.record with
      | none => s
      | some _ => s.logPair q.ctx (entryHeader 2 r.k q.qid) (BitVec.ofNat 64 (drawn.toNat + 2 ^ 32 * lane))
    let count (s : State) : State := s.modSheet r fun sh => { sh with noises := used + 1 }
    match (s.ctx q.ctx).dbg fun d => d.replay with
    | none => (drawn, count (log s))
    | some d =>
      match ((s.logPairs d).filter fun x => x.1 = entryHeader 2 r.k q.qid)[used]? with
      | some x => (loWord x.2, count s)
      | none => (drawn, count (s.openGates q.ctx))

/-- An identity's origin as a kind 3 entry holds it (R340). -/
def originReam (queue q : Nat) : DWord := BitVec.ofNat 64 (2 ^ 56 * (queue % 64) + q % 2 ^ 31)
def originTask (strand count : Nat) (qid : Word) : DWord :=
  BitVec.ofNat 64 (2 ^ 62 + 2 ^ 55 * strand + 2 ^ 32 * (count % 2 ^ 23) + qid.toNat)
def originTrigger (va : DWord) : DWord := BitVec.ofNat 64 (2 ^ 63 + (va.extractLsb' 0 56).toNat)

/-- The identity after one in a context's counter (R25). -/
def nextIdentity (n : Nat) : Nat := if n ≥ 0xFFFFFFFE then 0 else n + 1
/-- The identity of a launch (R25); in replay the one of the first unused kind 3 entry with its origin (R341); with
none, the counter's. -/
def State.identity (s : State) (ctx : Nat) (origin : DWord) : Word × State :=
  let fromCounter : Word × State :=
    let n := (s.ctx ctx).nextId
    let id := BitVec.ofNat 32 n
    (id, (s.modCtx ctx fun c => { c with nextId := nextIdentity n }).logPair ctx (entryHeader 3 0 id) origin)
  match (s.ctx ctx).dbg (·.replay) with
  | none => fromCounter
  | some d =>
    let es := (s.logPairs d).zipIdx
    match es.find? fun x => entryKind x.1.1 = 3 && x.1.2 = origin && !(s.ctx ctx).idsUsed.contains x.2 with
    | some x => (x.1.1.extractLsb' 12 32, s.modCtx ctx fun c => { c with idsUsed := x.2 :: c.idsUsed })
    | none => fromCounter

/-! ### The store hash (R342) -/

/-- One update. -/
def hashOne (h : DWord) (addr data : Nat) : DWord :=
  h.rotateLeft 7 ^^^ (BitVec.ofNat 64 addr ^^^ BitVec.ofNat 64 (0x9E3779B97F4A7C15 * data))
/-- Updates of one strand's store: one per access of at most 64 bits. -/
def hashStore (h : DWord) (addr : Nat) (bs : List Byte) : DWord :=
  if bs.length ≤ 8 then hashOne h addr (leNat bs)
  else hashOne (hashOne h addr (leNat (bs.take 8))) (addr + 8) (leNat (bs.drop 8))

end Sys2Proof.Machine
end

