-- ==== Sys2Proof/Machine/Place.lean ====
section
/-! DEFINITION. A core's resources (R34-R41), launches (R25, R30, R47, R287), joins and retirement (R31-R33, R202), the
spawn bins and the die spawn pools (R26-R29). -/

namespace Sys2Proof.Machine

/-! ### Rows, sheet slots, chamber, tiles, array (R34-R41, R244, R269) -/

/-- A sheet's place on a core: lane block, block sheet slot, first row and rows (R34, R35). -/
structure Spot where
  lb   : Nat
  slot : Nat
  base : Nat
  rows : Nat
  deriving DecidableEq, Repr

/-- Places held on a core: those of the sheets that have not exited (R33). -/
def State.spots (s : State) (core : Nat) : List Spot :=
  (s.onCore core).flatMap fun e => (e.2.sheets.filter fun x => !x.2.exited).map fun x =>
    { lb := x.2.lb, slot := x.2.slot, base := x.2.base, rows := x.2.alloc }
/-- No held row of a lane block lies in a range. -/
def rowsFree (occ : List Spot) (lb base rows : Nat) : Bool :=
  base + rows ≤ 256 && occ.all fun o => o.lb != lb || o.base + o.rows ≤ base || base + rows ≤ o.base
/-- The place for a sheet in a lane block: rows by first fit (R34, R35). R35 does not say which free block sheet slot a sheet
takes; the model takes the lowest one (DESIGN CHOICE, log 27). -/
def spotIn (occ : List Spot) (lb rows : Nat) : Option Spot :=
  ((List.range 8).find? fun k => !occ.any fun o => o.lb == lb && o.slot == k).bind fun slot =>
    (((List.range 32).map (8 * ·)).find? fun b => rowsFree occ lb b rows).map fun base => { lb, slot, base, rows }
/-- Sheets dealt to lane blocks b, b + 1, … (R35): sheet number and rows. -/
def deal (occ : List Spot) (b : Nat) : List (Nat × Nat) → Option (List (Nat × Spot))
  | [] => some []
  | (k, rows) :: t =>
    (spotIn occ ((b + k) % 8) rows).bind fun p => (deal (p :: occ) b t).map fun l => (k, p) :: l
/-- First fit of a run of `n` units in `total`, beside held runs (R41, R269). -/
def firstFit (held : List (Nat × Nat)) (total n : Nat) : Option Nat :=
  if n = 0 then some 0
  else (List.range (total + 1 - n)).find? fun b => held.all fun x => x.1 + x.2 ≤ b || b + n ≤ x.1

/-- All resources of one quire on one core (R36). -/
structure Grant where
  sheets : List (Nat × Spot)
  p      : Nat
  chamAt : Nat
  tiles  : List Nat
  arrAt  : Nat
  deriving DecidableEq, Repr

/-- Rows that each sheet of a quire needs: at launch ROWG granules (R34), at a resume its allocation (R297). -/
def Quire.sizes (q : Quire) : List (Nat × Nat) :=
  match q.phase with
  | .swapped _ _ _ _ => (q.sheets.filter fun x => !x.2.exited).map fun x => (x.1, x.2.alloc)
  | _ => (List.range q.nsheets).map fun k => (k, 8 * q.rowg)
/-- Everything a quire asks for, granted together or not at all (R35, R36). R244 does not say which of two free physical tiles a
quire of one tile takes; the model takes the lower-numbered one (DESIGN CHOICE, log 27). -/
def State.grant (s : State) (core : Nat) (q : Quire) : Option Grant :=
  let c := s.core core
  let occ := s.spots core
  let on := s.onCore core
  let b := ((List.range 8).map fun i => (c.p + i) % 8).findSome? fun b => (deal occ b q.sizes).map fun l => (b, l)
  let cham := firstFit ((on.filter fun e => e.2.chamg != 0).map fun e => (e.2.chamAt, e.2.chamg)) 128 q.chamg
  let arr := firstFit ((on.filter fun e => e.2.wmag != 0).map fun e => (e.2.arrAt, e.2.wmag)) 64 q.wmag
  let tiles := (List.range 2).filter fun t => !on.any fun e => e.2.tileAt.contains t
  match b, cham, arr with
  | some (b, l), some chamAt, some arrAt =>
    if q.ntiles ≤ tiles.length then
      some { sheets := l, p := (b + (q.sizes.getLast?.elim 0 fun x => x.1 + 1)) % 8, chamAt, tiles := tiles.take q.ntiles, arrAt }
    else none
  | _, _, _ => none

/-- The cover test of R290: free sheet slots, rows in total, chamber, tiles and array granules. -/
def State.covers (s : State) (core : Nat) (q : Quire) : Bool :=
  let occ := s.spots core
  let on := s.onCore core
  let sum := fun (f : Quire → Nat) => (on.map fun e => f e.2).sum
  occ.length + q.nsheets ≤ 64 && (occ.map (·.rows)).sum + 8 * q.rowg * q.nsheets ≤ 2048 &&
  sum (·.chamg) + q.chamg ≤ 128 && sum (·.ntiles) + q.ntiles ≤ 2 && sum (·.wmag) + q.wmag ≤ 64

/-- A core belongs to a partition and is up (R349, R360). -/
def State.owns (s : State) (part core : Nat) : Bool :=
  (s.part part).galleries.getLsbD (galleryOf core) && (s.gallery (galleryOf core)).up
/-- A core can take work of a context's bank mode now (R285). -/
def State.modeOk (s : State) (core ctx : Nat) : Bool :=
  (s.core core).slotted == (s.ctx ctx).desc.bank && (s.core core).switch.isNone
/-- A core that holds no quire, no waiting launch and no engine operation can switch (R285). -/
def State.idle (s : State) (core : Nat) : Bool :=
  (s.core core).switch.isNone && (s.onCore core).isEmpty && (s.core core).waitq.isEmpty
/-- A core that can switch and whose own batches do not decide its mode first (R285). -/
def State.canSwitch (s : State) (core : Nat) : Bool := s.idle core && (s.core core).ready.isEmpty
/-- A core starts to switch, in 64 cycles, for work of the other mode (R285). -/
def State.startSwitch (s : State) (core ctx : Nat) : State :=
  if s.modeOk core ctx ∨ (s.core core).switch.isSome then s
  else s.modCore core fun c => { c with switch := some (s.cycles core + 64) }

/-! ### Joins and retirement (R31-R33, R202) -/

/-- Waits that R45 counts as waiting, parked sheets among them (R304). -/
def Wait.spins : Wait → Bool
  | .pwait _ _ _ | .join | .parked _ _ _ => true
  | _ => false
/-- A yield, or the start or end of such a wait, at a cycle (R45): the unbroken run goes on when no span of 512 cycles
has passed without one. -/
def Sheet.noteSpin (sh : Sheet) (cyc : Nat) : Sheet :=
  { sh with spinFrom := if !sh.wait.spins && sh.spinLast + 512 < cyc then cyc else sh.spinFrom, spinLast := cyc }

/-- A quire is being swapped out, or is. -/
def Quire.leaving (q : Quire) : Bool :=
  match q.phase with
  | .saving _ | .swapped _ _ _ _ => true
  | _ => false
/-- Every sheet of a quire waits in `join` or has exited (R32). -/
def Quire.allJoin (q : Quire) : Bool := q.sheets.all fun x => x.2.exited || x.2.wait == .join
/-- A sheet of a quire has entered `join` (R32), or the quire has resumed: a sheet that still waits in `join` then counts
as entering it at the resume, which R32 does not say (log 39). -/
def State.noteJoin (s : State) (h : Nat) : State :=
  s.modQuire h fun q =>
    if q.joins != 0 && q.sheets.any (fun x => !x.2.exited && x.2.wait == .join) then
      { q with joinAt := some (s.cycles q.core) }
    else { q with joinAt := none }

/-- The join counter of a quire has reached 0 (R32, R298): waiting sheets go on, a swapped quire is eligible. A quire that
is being saved keeps its waits (R294), which end when it resumes. -/
def State.joinZero (s : State) (h : Nat) : State :=
  s.modQuire h fun q =>
    match q.phase with
    | .swapped .join a w none => { q with phase := .swapped .join a w (some s.reft) }
    | .swapped .spin a w none => if q.allJoin then { q with phase := .swapped .spin a w (some s.reft) } else q
    | .swapped _ _ _ _ | .saving _ => q
    | _ =>
      { q with joinAt := none, sheets := q.sheets.mapv fun sh =>
          if sh.wait = .join then { (sh.noteSpin (s.cycles q.core)) with wait := .none } else sh }
/-- The end of a `join` is an acquire that synchronises with the exits counted (R215). -/
def State.joinAcq (s : State) (r : SheetRef) : State := s.acqMark r 127 fun y => y == .exit r.h
/-- A record of a spawner's has retired (R31). -/
def State.joinDrop (s : State) (spawner : Option Nat) : State :=
  match spawner with
  | none => s
  | some h =>
    match s.quires.find h with
    | none => s
    | some q =>
      let s := s.modQuire h fun q => { q with joins := q.joins - 1 }
      if q.joins ≠ 1 then s
      else if q.leaving then s.joinZero h
      else (q.sheets.filter fun x => x.2.wait == .join).foldl (fun s x => s.joinAcq { h, k := x.1 }) (s.joinZero h)

/-- A quire's last sheet has exited (R33): a task's records retire, exit records are written (R337), and the quire
holds what is left until its engine operations have completed (R202). -/
def State.retireQuire (s : State) (h : Nat) : State :=
  match s.quires.find h with
  | none => s
  | some q =>
    let s := (s.traceExit q).modQuire h fun q => { q with phase := .draining }
    let s := s.suspendWake q.ctx
    let s := (q.recs.filterMap (·.spawner)).eraseDups.foldl (fun s p => s.relMark { h, k := 0 } 127 (.exit p)) s
    q.recs.foldl (fun s r => s.joinDrop r.spawner) s
/-- A sheet retires (R33, R202): its rows are free, its outstanding words are abandoned. -/
def State.exitSheet (s : State) (r : SheetRef) : State :=
  let s := (s.modSheet r fun sh =>
    { sh with exited := true, wait := .none, lls := [], flags := [], pend := none, held := [] }).leave
  match s.quires.find r.h with
  | none => s
  | some q => if q.sheets.all fun x => x.2.exited then s.retireQuire r.h else s

/-! ### The swap area (R297) -/

/-- A multiple of 4 KiB at or above. -/
def up4k (n : Nat) : Nat := (n + 4095) / 4096 * 4096
/-- Rows of each sheet's current allocation (R297): none once it has exited. -/
def Quire.rowSum (q : Quire) : Nat := (q.sheets.map fun x => if x.2.exited then 0 else x.2.alloc).sum
/-- Offsets of the chamber, tile and array regions and the end of a record (R297). -/
def Quire.recChamber (q : Quire) : Nat := up4k (0x8400 + 384 * q.rowSum)
def Quire.recTiles (q : Quire) : Nat := up4k (q.recChamber + 4096 * q.chamg)
def Quire.recArray (q : Quire) : Nat := up4k (q.recTiles + 131088 * q.ntiles)
def Quire.recEnd (q : Quire) : Nat := q.recArray + 1024 * q.wmag + 16
/-- An offset of a context's swap area where a record of a size can stand (R297). -/
def Ctx.swapFits (c : Ctx) (off size : Nat) : Bool :=
  off % 4096 == 0 && off + size ≤ c.desc.swapsize && c.swaps.all fun x => x.1 + x.2 ≤ off || off + size ≤ x.1
/-- The lowest offset among those after the records that stand. -/
def Ctx.swapRoom (c : Ctx) (size : Nat) : Option Nat :=
  (0 :: c.swaps.map fun x => up4k (x.1 + x.2)).find? fun o => c.swapFits o size

/-- A context with its swap area as it is once every quire that is being saved has its record (R297). -/
def State.swapCtx (s : State) (n : Nat) : Ctx :=
  (s.quires.filter fun x => x.2.ctx == n && match x.2.phase with | .saving _ => true | _ => false).foldl (fun c x =>
    match c.swapRoom x.2.recEnd with
    | some o => { c with swaps := c.swaps ++ [(o, x.2.recEnd)] }
    | none => c) (s.ctx n)
/-- A record at an offset of a quire's swap area lies where its partition may have one (R347, R349). -/
def State.swapIn (s : State) (q : Quire) (off : Nat) : Bool :=
  s.addrOk (s.ctx q.ctx).part ((s.ctx q.ctx).desc.swapbase + off) q.recEnd
/-- The swap area has room for a quire's record. -/
def State.hasRoom (s : State) (q : Quire) : Bool := ((s.swapCtx q.ctx).swapRoom q.recEnd).any (s.swapIn q)
/-- A sheet as its quire begins to leave (R294): a waiting `rgrow`, and a word that waits at issue, are withdrawn. -/
def Sheet.leave (sh : Sheet) : Sheet :=
  match sh.wait with
  | .rgrow _ _ _ | .issue _ => { sh with wait := .none }
  | _ => sh
/-- Swap-out begins (R294): each sheet stops at its next body-word boundary. One that finds no room in the swap area does
not start (R297). -/
def State.swapStart (s : State) (h : Nat) (cause : SwapCause) : State :=
  match s.quires.find h with
  | none => s
  | some q =>
    if (q.phase = .resident ∨ (q.phase = .stopped true ∧ cause = .suspend)) ∧ s.hasRoom q = true then
      let s := (s.modQuire h fun q => { q with phase := .saving cause, sheets := q.sheets.mapv Sheet.leave }).unprogQuire h q.core
      if s.cur.map (·.h) = some h then { s with cur := none } else s
    else s
/-- A quire of a suspended context that had no room in the swap area tries again when its record has become smaller
(R297, R299). -/
def State.suspendRetry (s : State) (h : Nat) : State :=
  match s.quires.find h with
  | none => s
  | some q => if (s.ctx q.ctx).suspended then s.swapStart h .suspend else s

/-! ### Launches (R25, R30, R47, R287) -/

/-- EXM with the low `n` bits set (R30, R287). -/
def lowMask (n : Nat) : Mask := BitVec.ofNat 96 (2 ^ n - 1)
/-- V0-V3 of a task sheet (R30). -/
def taskRows (recs : List SpawnRec) : Tab Word :=
  recs.zipIdx.foldl (fun t x =>
    (((t.set 0 x.2 x.1.a0).set 0 (96 + x.2) x.1.a1).set 0 (192 + x.2) x.1.a2).set 0 (288 + x.2) x.1.qid) []
/-- A sheet at launch (R30, R47, R287). A task sheet's slot and rows are chosen in cycle 1 of its launch and its first word
issues in cycle 8 (R49), for one of a die's pool, of a trigger or of a batch that waited for room too, whose path R49 does
not give (log 27). -/
def launchSheet (q : Quire) (strap : Word) (cyc : Nat) (p : Spot) : Sheet :=
  { Sheet.blank with
    alloc := p.rows, base := p.base, lb := p.lb, slot := p.slot, pc := q.entry,
    s := q.sinit.zipIdx.foldl (fun t x => t.set 0 x.2 x.1) [], exm := lowMask q.active,
    v := taskRows q.recs, strap := strap &&& 0x6F, began := cyc, spinFrom := cyc, spinLast := cyc,
    startAt := if q.task then cyc + 7 else cyc }
/-- Origin of a launch as the log names it (R340). -/
def State.origin (s : State) (q : Quire) : DWord :=
  match q.ream, q.recs.head? with
  | some m, _ => originReam ((s.reams.find m).elim 0 (·.queue)) q.lin
  | none, some r => r.origin
  | none, none => 0

/-- The first body words of a ream's quire acquire the doorbell write whose index first covered its record (R288). -/
def State.bellAcq (s : State) (h ream : Nat) (ks : List Nat) : State :=
  match s.reams.find ream with
  | none => s
  | some m => ks.foldl (fun s k => s.acqMark { h, k } 127 fun y =>
      match y with
      | .bell p n lo hi => p == m.part && n == m.queue && (m.idx - lo).toNat < (hi - lo).toNat
      | _ => false) s
/-- A waiting quire starts on a core with what it has been granted (R25, R36, R47). -/
def State.start (s : State) (h core : Nat) (g : Grant) : State :=
  match s.quires.find h with
  | none => s
  | some q =>
    let (qid, s) := s.identity q.ctx (s.origin q)
    let key := s.next
    let s := { s with next := key + 3 }
    let cyc := s.cycles core
    let q := { q with
      phase := .resident, qid, core, launched := s.reft, chamAt := g.chamAt, tileAt := g.tiles, arrAt := g.arrAt,
      fkey := key,
      tiles := (List.range q.ntiles).map fun t => (t, Tile.reserved (key + 1 + t)),
      sheets := g.sheets.map fun x => (x.1, launchSheet q (s.ctx q.ctx).desc.strap cyc x.2) }
    let s := { s with quires := s.quires.put h q }
    let s := s.modCore core fun c =>
      { c with p := g.p, waitq := c.waitq.filter (· != h), claim := if c.claim = some h then none else c.claim }
    match q.ream with
    | some m =>
      { (s.bellAcq h m (g.sheets.map (·.1))) with reams := s.reams.upd m fun x => { x with began := x.began + 1 } }
    | none => s.acqMark { h, k := 0 } 127 fun y => q.recs.any fun r => y == .spawn r.origin

/-- Task parameters in force (R28, R30, R285). -/
def CtxDesc.binTime (d : CtxDesc) : Nat := if d.deftask then 256 else d.bintime
def CtxDesc.rows (d : CtxDesc) : Nat := if d.deftask then 4 else d.taskrows
def CtxDesc.cham (d : CtxDesc) : Nat := if d.deftask then 0 else d.taskcham
/-- The task quire of a batch, before its launch (R24, R30). -/
def taskQuire (d : CtxDesc) (core : Nat) (b : RBatch) : Quire :=
  { phase := .waiting b.since, ctx := b.ctx, qid := 0, core, task := true, qprio := 0, nsheets := 1, rowg := d.rows,
    chamg := d.cham, ntiles := 0, wmag := 0, active := b.recs.length, entry := b.entry, sinit := [], ream := none,
    lin := 0, recs := b.recs, launched := 0, halted := none, q := [], qw := [], bars := [], pools := [], joins := 0, joinAt := none, chamAt := 0,
    cham := [], tileAt := [], tiles := [], arrAt := 0, arr := [], fkey := 0, ext := none, sub := none, sheets := [] }
/-- What a core would grant a batch now (R29): none while it cannot take it. -/
def State.batchGrant (s : State) (core : Nat) (b : RBatch) : Option Grant :=
  if !s.modeOk core b.ctx || (s.core core).claim.isSome || (s.ctx b.ctx).suspended then none
  else s.grant core (taskQuire (s.ctx b.ctx).desc core b)
/-- A batch launches on a core as a task sheet (R27, R30). -/
def State.startBatch (s : State) (core : Nat) (b : RBatch) (g : Grant) : State :=
  let (h, s) := s.fresh
  { s with quires := s.quires.put h (taskQuire (s.ctx b.ctx).desc core b) }.start h core g

/-! ### The die spawn pool (R29) -/

/-- Records in a die's pool. -/
def Die.records (d : Die) : Nat := (d.pool.map fun b => b.recs.length).sum
/-- A record put into the pool: it joins the newest batch of its context and entry with room, or starts one. -/
def poolAdd (pool : List RBatch) (ctx : Nat) (entry : DWord) (r : SpawnRec) (now : Nat) : List RBatch :=
  let rec go : List RBatch → Option (List RBatch)
    | [] => none
    | b :: t =>
      match go t with
      | some t' => some (b :: t')
      | none =>
        if b.ctx = ctx ∧ b.entry = entry ∧ b.recs.length < 96 then some ({ b with recs := b.recs ++ [r] } :: t) else none
  (go pool).getD (pool ++ [{ ctx, entry, recs := [r], since := now }])
/-- A group still waits for room in a pool: a stalled `spawn`, a batch, a fired trigger. -/
def State.poolStands (s : State) : PoolWait → Bool
  | .spawn r => (s.sheet? r).any fun sh =>
      match sh.wait with
      | .spawn _ _ _ _ => true
      | _ => false
  | .batch core name => (s.core core).ready.any (·.name == name)
  | .trigger ch name => (s.vat ch).triggers.any fun t => t.name == name && t.fired
/-- It can take room now: a `spawn` of a quire that runs. -/
def State.pooling (s : State) (w : PoolWait) : Bool :=
  s.poolStands w && match w with
    | .spawn r => (s.quires.find r.h).any Quire.runs
    | .batch _ _ | .trigger _ _ => true
/-- Nothing that waits for room in a pool comes before a group there (R29). -/
def State.poolFirst (s : State) (die : Nat) (who : PoolWait) : Bool := ((s.die die).queue.filter s.pooling).head? == some who
/-- A group that has found a place elsewhere waits for no room in a pool any more. -/
def State.poolLeave (s : State) (die : Nat) (who : PoolWait) : State :=
  if (s.die die).queue.contains who then s.modDie die fun d => { d with queue := d.queue.filter (· != who) } else s
/-- A group moves to the pool when it has room for all of it; one that has waited for room waits for its turn. -/
def State.poolMove (s : State) (die : Nat) (who : PoolWait) (ctx : Nat) (entry : DWord) (recs : List SpawnRec) :
    State × Bool :=
  let d := s.die die
  if (!d.queue.contains who || s.poolFirst die who) && d.records + recs.length ≤ Config.poolRecords then
    (s.modDie die fun d =>
      { d with queue := d.queue.filter (· != who),
               pool := recs.foldl (fun p r => poolAdd p ctx entry r s.now) d.pool }, true)
  else if d.queue.contains who then (s, false)
  else (s.modDie die fun d => { d with queue := d.queue ++ [who] }, false)

/-! ### Spawn bins (R26-R31) -/

/-- A bin's records become a batch, whose launch chooses its slot and rows from the next cycle on (R29, R49). -/
def State.binLaunch (s : State) (core bin : Nat) : State :=
  match (s.core core).bins.find bin with
  | none => s
  | some x =>
    let (name, s) := s.fresh
    s.modCore core fun c =>
      { c with bins := c.bins.del bin,
               ready := c.ready ++
                 [{ ctx := x.ctx, entry := x.entry, recs := x.recs, since := s.cycles core, bin := some bin, name }] }

/-- A batch of a bin of the pair waits at the core, of this cycle or of an earlier one. -/
def Core.batchOf (c : Core) (ctx : Nat) (entry : DWord) (now : Bool) (cyc : Nat) : Option RBatch :=
  c.ready.find? fun b => b.ctx == ctx && b.entry == entry && b.bin.isSome && (b.since == cyc) == now
/-- A previous batch of the pair's bin is still waiting at the core (R29). -/
def Core.batchWaits (c : Core) (ctx : Nat) (entry : DWord) (cyc : Nat) : Bool := (c.batchOf ctx entry false cyc).isSome
/-- The bin that takes a record (R27): the one keyed by it, one whose batch has begun its launch in this cycle too (R50);
else the lowest empty one. -/
def Core.binFor (c : Core) (ctx : Nat) (entry : DWord) (cyc : Nat) : Option Nat :=
  match c.bins.find? fun x => x.2.ctx = ctx ∧ x.2.entry = entry with
  | some x => some x.1
  | none =>
    match (c.batchOf ctx entry true cyc).bind (·.bin) with
    | some i => some i
    | none => (List.range 32).find? fun i => (c.bins.find i).isNone && !c.ready.any fun b => b.bin == some i
/-- A batch whose timer has expired in this cycle first takes the records of the cycle, up to 96 (R50). -/
def joinBatch (ready : List RBatch) (ctx : Nat) (entry : DWord) (cyc : Nat) (r : SpawnRec) : Option (List RBatch) :=
  match ready with
  | [] => none
  | b :: t =>
    if b.ctx = ctx ∧ b.entry = entry ∧ b.bin.isSome = true ∧ b.since = cyc ∧ b.recs.length < 96 then
      some ({ b with recs := b.recs ++ [r] } :: t)
    else (joinBatch t ctx entry cyc r).map (b :: ·)

/-- Records of a `spawn` placed in order: how many found a place (R27, R29, R50). -/
def State.placeRecs (s : State) (core : Nat) (who : PoolWait) (ctx : Nat) (entry : DWord) :
    List SpawnRec → State × Nat
  | [] => (s, 0)
  | r :: t =>
    let c := s.core core
    let cyc := s.cycles core
    if c.batchWaits ctx entry cyc then
      match s.poolMove (dieOf core) who ctx entry (r :: t) with
      | (s, true) => (s, t.length + 1)
      | (s, false) => (s, 0)
    else
      match if (s.ctx ctx).desc.binTime = 0 then none else joinBatch c.ready ctx entry cyc r with
      | some ready =>
        let (s, n) := ((s.poolLeave (dieOf core) who).modCore core fun c => { c with ready }).placeRecs core who ctx entry t
        (s, n + 1)
      | none =>
        match c.binFor ctx entry cyc with
        | some i =>
          let x := (c.bins.find i).getD { ctx, entry, recs := [], since := cyc }
          let s := (s.poolLeave (dieOf core) who).modCore core fun c => { c with bins := c.bins.put i { x with recs := x.recs ++ [r] } }
          let s := if x.recs.length = 95 then s.binLaunch core i else s
          let (s, n) := s.placeRecs core who ctx entry t
          (s, n + 1)
        | none =>
          match s.poolMove (dieOf core) who ctx entry [r] with
          | (s, true) => let (s, n) := s.placeRecs core who ctx entry t; (s, n + 1)
          | (s, false) => (s, 0)

end Sys2Proof.Machine
end

