-- ==== Sys2Proof/Machine/Control.lean ====
section
/-! DEFINITION. Opcodes 0x70-0x7F and 0xFA-0xFD, reserved words, the header fetch and the clause's end (R52-R57,
R184-R205, R209-R213): transfers, the mask stack, loop levels, tasks, barriers, traps. -/

namespace Sys2Proof.Machine

/-! ### Transfers (R56, R184-R188, R199) -/

/-- TINFO of the loop causes: body index and frame level (R200). For LOOP_NEST, for which R200 does not say which level is
concerned, the model gives LDEP, the level that would open or that is one too many; for LOOP_LEAK the innermost open
level, LDEP - 1; for LOOP_WINDOW LDEP too, the level that would open (DESIGN CHOICE, log 38). -/
def loopInfo (idx level : Nat) : Word := BitVec.ofNat 32 (idx % 16 + 16 * (level % 8))
/-- A loop cause at the word in issue. -/
def Env.loopTrap (e : Env) (cause : BitVec 8) (addr : DWord) (level : Nat) : Trap :=
  e.trapAt cause addr (loopInfo e.sh.idx level)
/-- Innermost open slot of the current frame (R190). -/
def Sheet.inner (sh : Sheet) : Slot := sh.slotAt (sh.fbase + sh.ldep - 1)
/-- The escape check of R199, on the levels that remain open. -/
def Sheet.escapes (sh : Sheet) (ldep : Nat) (a : DWord) : Bool :=
  let sl := sh.slotAt (sh.fbase + ldep - 1)
  ldep != 0 && (a < sl.beg || sl.fin < a)
/-- A transfer with its target's checks in the order of R185: the escape check where it applies, with the levels that
remain, then R56. -/
def transferEff (e : Env) (s : State) (a : DWord) (esc : Bool) (ldep : Nat) (eff : State → State) : Eff :=
  if esc && e.sh.escapes ldep a then .trap s (e.loopTrap cLoopEscape a (ldep - 1))
  else
    match s.target e.r e.q.core e.q.ctx a with
    | .bad => .trap s (e.trapAt cIllegalTarget a (BitVec.ofNat 32 e.sh.idx))
    | .miss => .wait s (.walk a 127 true)
    | .ok => .placed ((eff s).goto e a)
/-- More than four levels, a state that only `wrsr` makes (R200). -/
def Sheet.overNest (sh : Sheet) : Bool := 4 < sh.fbase + sh.ldep

/-- Condition of `brc` (R186). -/
def brcHolds (cc : Nat) (x : Int) : Bool :=
  match cc with
  | 0 => x == 0 | 1 => x != 0 | 2 => x < 0 | 3 => 0 ≤ x | 4 => 0 < x | _ => x ≤ 0
/-- Condition of `brm` (R186). -/
def brmHolds (mode : Nat) (m exm : Mask) : Bool :=
  match mode with
  | 0 => m != 0 | 1 => m == exm | 2 => m == 0 | _ => m != exm

/-- R186. -/
def execBr (w : FC) (s : State) : Out := issue {} s fun e => transferEff e s (e.disp w.disp) true e.sh.ldep id
/-- R186. -/
def execBrc (w : FC) (s : State) : Out :=
  issue {} s fun e =>
    if brcHolds (w.mod.extractLsb' 0 3).toNat (e.u w.a.toNat).toInt then transferEff e s (e.disp w.disp) true e.sh.ldep id
    else .done s
/-- R186. -/
def execBrm (w : FC) (s : State) : Out :=
  issue {} s fun e =>
    if brmHolds (w.mod.extractLsb' 0 2).toNat (e.sh.k.get 0 w.a.toNat &&& e.sh.exm) e.sh.exm then
      transferEff e s (e.disp w.disp) true e.sh.ldep id
    else .done s
/-- R186. -/
def execJmpi (w : FRC) (s : State) : Out :=
  issue {} s fun e => transferEff e s (e.spair w.a.toNat) true e.sh.ldep id

/-- The header after the clause in progress. -/
def Sheet.after (sh : Sheet) : DWord := sh.hdrAddr + 8 * (sh.hdr.n.setWidth 64 + 1)
/-- The link of a call (R187). -/
def Sheet.link (sh : Sheet) : DWord :=
  BitVec.ofNat 64 (2 ^ 56 * (sh.fbase % 8) + sh.ldep % 8) ||| (sh.after &&& 0xFFFFFFFFFFFFF8)
/-- R187, R190. -/
def execCall (w : FC) (s : State) : Out :=
  issue {} s fun e =>
    transferEff e s (e.disp w.disp) false 0 fun s =>
      (s.writeRegs e.r [(.s w.a.toNat, loWord e.sh.link), (.s (w.a.toNat + 1), hiWord e.sh.link)]).modSheet e.r fun sh =>
        { sh with fbase := sh.fbase + sh.ldep, ldep := 0 }
/-- R188. A frame may be too deep (LOOP_NEST, R200) and have an open level (LOOP_LEAK) at once, of which R188 and R200 do not say
which comes first; the model raises LOOP_NEST (DESIGN CHOICE, log 38). -/
def execRet (w : FRC) (s : State) : Out :=
  issue {} s fun e =>
    let l := e.spair w.a.toNat
    let fb := (l.extractLsb' 56 3).toNat
    let ld := (l.extractLsb' 0 3).toNat
    if e.sh.overNest then .trap s (e.loopTrap cLoopNest e.sh.pc e.sh.ldep)
    else if e.sh.ldep ≠ 0 then .trap s (e.loopTrap cLoopLeak e.sh.pc (e.sh.ldep - 1))
    else if l.extractLsb' 59 5 ≠ 0 ∨ 4 < fb + ld then
      .trap s (e.trapAt cIllegalTarget l (BitVec.ofNat 32 e.sh.idx))
    else
      transferEff e s (sext56 (l &&& 0xFFFFFFFFFFFFF8)) false 0 fun s =>
        s.modSheet e.r fun sh => { sh with fbase := fb, ldep := ld }

/-! ### The mask stack (R189) -/

/-- PARK: the OR of LPARK over every open slot. -/
def Sheet.parks (sh : Sheet) : Mask :=
  (List.range (sh.fbase + sh.ldep)).foldl (fun m j => m ||| (sh.slotAt j).park) 0
/-- A push: onto a full stack it discards the oldest entry. -/
def Sheet.pushMask (sh : Sheet) (m : Mask) : Sheet :=
  if sh.msp < 16 then { sh with ms := sh.ms.set 0 sh.msp m, msp := sh.msp + 1 }
  else
    { sh with ms := (List.range 16).foldl (fun t k => t.set 0 k (if k = 15 then m else sh.ms.get 0 (k + 1))) sh.ms }
/-- The top of the stack. -/
def Sheet.topMask (sh : Sheet) : Mask := sh.ms.get 0 (sh.msp - 1)
/-- EXM as a word of this group leaves it (R189): other words that write it are outstanding no more than R59 says. -/
def State.setExm (s : State) (r : SheetRef) (f : Sheet → Sheet) : State :=
  s.modSheet r fun sh => f (((sh.race (.s 60)).race (.s 61)).race (.s 62))
/-- R189. -/
def execMpush (w : FRC) (s : State) : Out :=
  issue {} s fun e =>
    .done (s.setExm e.r fun sh => { sh.pushMask sh.exm with exm := sh.exm &&& sh.k.get 0 w.a.toNat })
/-- R189. -/
def execMelse (w : FRC) (s : State) : Out :=
  issue {} s fun e =>
    if e.sh.msp = 0 then .done s
    else .done (s.setExm e.r fun sh => { sh with exm := sh.topMask &&& ~~~(sh.k.get 0 w.a.toNat) &&& ~~~sh.parks })
/-- R189. -/
def execMpop (_w : FRC) (s : State) : Out :=
  issue {} s fun e =>
    if e.sh.msp = 0 then .done s
    else .done (s.setExm e.r fun sh => { sh with exm := sh.topMask &&& ~~~sh.parks, msp := sh.msp - 1 })

/-! ### Loop levels (R190-R200) -/

/-- A body word before this one in the clause is a `loop` (R193). -/
def State.earlierLoop (s : State) (e : Env) : Bool :=
  e.sh.pend.isSome || (List.range (e.sh.idx - 1)).any fun i =>
    match s.fetch e.r e.q.core e.q.ctx (e.sh.hdrAddr + BitVec.ofNat 64 (8 * (i + 1))) with
    | .word x => x.extractLsb' 56 8 = 0x78
    | _ => false
/-- R193: the count is read; the level opens at the end of the clause. -/
def execLoop (w : FC) (s : State) : Out :=
  issue {} s fun e =>
    if e.sh.hdr.le ≠ 0 ∨ s.earlierLoop e = true then .trap s (e.trapWord cIllegalEncoding)
    else
      .done (s.modSheet e.r fun sh =>
        { sh with pend := some { n := e.u w.a.toNat, fin := e.disp w.disp, mod := w.mod, idx := sh.idx } })

/-- LSTG with every strand at a value, or strand by strand. -/
def lstgOf (f : Nat → BitVec 8) : Tab (BitVec 8) := (List.range 96).foldl (fun t i => t.set 0 i (f i)) []
/-- close(j) of R194, for the innermost level. -/
def Sheet.close (sh : Sheet) : Sheet :=
  { sh with exm := sh.exm ||| sh.inner.park, ldep := sh.ldep - 1,
            lstg := lstgOf fun _ => if 1 < sh.ldep then 1 else 0 }
/-- `n` levels closed, innermost first (R197). -/
def Sheet.closeN (sh : Sheet) : Nat → Sheet
  | 0 => sh
  | n + 1 => sh.close.closeN n
/-- `lexit` and `brx` (R197). -/
def leaveLevels (e : Env) (s : State) (n : Nat) (a : DWord) : Eff :=
  if e.sh.overNest ∨ e.sh.ldep < n then .trap s (e.loopTrap cLoopNest e.sh.pc e.sh.ldep)
  else transferEff e s a true (e.sh.ldep - n) fun s => s.setExm e.r fun sh => sh.closeN n
/-- R197. -/
def execLexit (w : FC) (s : State) : Out :=
  issue {} s fun e => leaveLevels e s (w.mod.extractLsb' 0 3).toNat (e.disp w.disp)
/-- R197. -/
def execBrx (w : FRC) (s : State) : Out :=
  issue {} s fun e => leaveLevels e s (w.mod.extractLsb' 0 3).toNat (e.spair w.a.toNat)
/-- R196. -/
def execLbreak (w : FC) (s : State) : Out :=
  issue {} s fun e =>
    if e.sh.ldep = 0 ∨ e.sh.overNest = true then .trap s (e.loopTrap cLoopNest e.sh.pc e.sh.ldep)
    else
      let m := e.sh.exm &&& e.sh.k.get 0 w.a.toNat
      let j := e.sh.fbase + e.sh.ldep - 1
      let sl := e.sh.slotAt j
      if w.mod.getLsbD 0 then
        .done (s.modSheet e.r fun sh => { sh with slots := sh.slots.put j { sl with feed := sl.feed &&& ~~~m } })
      else
        .done (s.setExm e.r fun sh =>
          { sh with slots := sh.slots.put j { sl with feed := sl.feed &&& ~~~m, park := sl.park ||| m },
                    exm := sh.exm &&& ~~~m,
                    lstg := lstgOf fun i => if m.getLsbD i then 0 else sh.lstg.get 0 i })

/-! ### The clause's end (R55, R193, R194) -/

/-- Sheets of a lane block of a core, with their references. -/
def State.laneSheets (s : State) (core lb : Nat) : List (SheetRef × Sheet) :=
  s.sheets.filterMap fun x =>
    if x.2.1.core = core ∧ x.2.1.phase = .resident ∧ x.2.2.lb = lb ∧ x.2.2.exited = false then some (x.1, x.2.2) else none
/-- A sheet's age in cycles (R292). -/
def Sheet.age (sh : Sheet) (cyc : Nat) : Nat := cyc - sh.began
/-- A candidate of an issue choice (R292), a sheet that has issued `yield` apart: a ready sheet whose next word can issue. -/
def Sheet.candidate (sh : Sheet) (cyc : Nat) : Bool := sh.ready && sh.startAt ≤ cyc && sh.barred.isNone
/-- Another candidate of the sheet's lane block has reached the age of the starvation guard (R292). -/
def State.starving (s : State) (e : Env) : Bool :=
  let cyc := s.cycles e.q.core
  (s.laneSheets e.q.core e.sh.lb).any fun x => x.1 != e.r && x.2.candidate cyc && 192 ≤ x.2.age cyc

/-- The clause is left for a header with no transfer (R55, R193, R194): the lane block chooses anew (R292). -/
def State.nextClause (s : State) (e : Env) (a : DWord) (f : Sheet → Sheet) : State :=
  (s.modSheet e.r fun sh => (f sh).goto a).leave

/-- Stage count of a `loop` word, window size and base (R192). -/
def PLoop.stages (p : PLoop) : BitVec 4 := (p.mod.extractLsb' 0 3).setWidth 4 + 1
def PLoop.w (p : PLoop) : Nat := 4 * (p.mod.extractLsb' 3 5).toNat
def PLoop.b (p : PLoop) : Nat := (p.mod.extractLsb' 8 8).toNat
/-- A fault of a `loop` word, at the clause's end with TPC at the word (R193, R200). -/
def Env.loopWordTrap (e : Env) (p : PLoop) (cause : BitVec 8) (addr : Option DWord) (info : Word) : Trap :=
  let a := e.sh.hdrAddr + BitVec.ofNat 64 (8 * p.idx)
  { cause, tpc := a, thdr := e.sh.hdrAddr, addr := addr.getD a, info }
/-- A `loop` acts at the end of its clause (R193). R200 does not say which level TINFO of its LOOP_WINDOW names; the model gives LDEP,
the level that would open (DEDUCED, log 38). -/
def openLevel (e : Env) (s : State) (p : PLoop) : Eff :=
  let sh := e.sh
  let top := sh.fbase + sh.ldep
  let slots := (List.range (min top 4)).map sh.slotAt
  let lvl := loopInfo p.idx sh.ldep
  if 4 ≤ top ∨ (slots.any fun sl => 1 < sl.nst) = true ∨
      (sh.ldep ≠ 0 ∧ (p.fin < sh.inner.beg ∨ sh.inner.fin < p.fin)) then
    .trap s (e.loopWordTrap p cLoopNest none lvl)
  else if p.w ≠ 0 ∧ (256 < p.b + p.w ∨ sh.alloc < p.b + p.w ∨
      (slots.any fun sl => sl.w != 0 && p.b < sl.b + sl.w && sl.b < p.b + p.w) = true) then
    .trap s (e.loopWordTrap p cLoopWindow none lvl)
  else if ¬canonical p.fin ∨ p.fin.extractLsb' 0 3 ≠ 0 then
    .trap s (e.loopWordTrap p cIllegalTarget (some p.fin) (BitVec.ofNat 32 p.idx))
  else
    match s.fetch e.r e.q.core e.q.ctx p.fin with
    | .miss => .wait s (.walk p.fin 127 true)
    | .noExec => .trap s (e.loopWordTrap p cAccess (some p.fin) (BitVec.ofNat 32 (p.idx + 2048)))
    | .word h =>
      if !isHeader h then .trap s (e.loopWordTrap p cIllegalTarget (some p.fin) (BitVec.ofNat 32 p.idx))
      else if p.n = 0 ∨ sh.exm = 0 then
        .placed (s.nextClause e (p.fin + 8 * ((Header.unpack h).n.setWidth 64 + 1)) id)
      else
        .placed (s.nextClause e sh.after fun sh =>
          { sh with
            ldep := sh.ldep + 1,
            slots := sh.slots.put top
              { cnt := p.n, beg := sh.after, fin := p.fin, nst := p.stages,
                win := BitVec.ofNat 32 (256 * p.w + p.b), rot := 0, feed := sh.exm, park := 0 },
            lstg := lstgOf fun i => if sh.exm.getLsbD i then 1 else 0 })

/-- LSTG of a strand after the back edge (R194). -/
def Slot.shiftStage (sl : Slot) (cnt : Word) (old : BitVec 8) (i : Nat) : BitVec 8 :=
  ((old <<< 1) ||| (if cnt ≠ 0 ∧ sl.feed.getLsbD i = true then 1 else 0)) &&&
    BitVec.ofNat 8 (2 ^ sl.nst.toNat - 1)
/-- The back edge of R194. The lane block keeps the looping sheet, whose next pass takes its turn among the lane blocks.
An LBEG that is no header traps past the clause's last word, with TINFO (N + 1) mod 16 (log 38). A `wrsr` in the clause may
have changed LDEP or FBASE since its header was checked, and R194 does not say which slot then counts; the model takes slot
FBASE + LDEP - 1 as they stand at the clause's end (DESIGN CHOICE, log 38). -/
def backEdge (e : Env) (s : State) : Eff :=
  let sh := e.sh
  let j := sh.fbase + sh.ldep - 1
  let sl := sh.slotAt j
  let cnt := if sl.cnt = 0 then 0 else sl.cnt - 1
  let new := (List.range 96).map fun i => (i, sl.shiftStage cnt (sh.lstg.get 0 i) i)
  let parked := maskOf (List.range 96) fun i =>
    sh.lstg.get 0 i != 0 && sl.shiftStage cnt (sh.lstg.get 0 i) i == 0 && sh.exm.getLsbD i
  let upd (rot : BitVec 8) (sh : Sheet) : Sheet :=
    { sh with exm := sh.exm &&& ~~~parked, lstg := lstgOf fun i => sl.shiftStage cnt (sh.lstg.get 0 i) i,
              slots := sh.slots.put j { sl with cnt, rot, park := sl.park ||| parked } }
  if new.all fun x => x.2 == 0 then
    .placed (s.nextClause e sh.after fun sh => (upd sl.rot sh).close)
  else
    match s.edgeTarget e.r e.q.core e.q.ctx sl.beg with
    | .bad => .trap s (e.trapAt cIllegalTarget sl.beg (BitVec.ofNat 32 (sh.idx % 16)))
    | .miss => .wait s (.walk sl.beg 127 true)
    | .ok =>
      let rot := if sl.w = 0 then sl.rot else BitVec.ofNat 8 ((sl.rot.toNat + sl.w - 1) % sl.w)
      let s' := s.setExm e.r fun sh => { (upd rot sh).goto sl.beg with began := s.cycles e.q.core }
      .placed (if s.starving e then s'.leave else { s' with cur := none })

/-- LOOP_BACK_EDGE: the end of the clause in progress, for a sheet that stands there (R193, R194); with no level to
open or close, the header that follows (R55). -/
def execLoopBackEdge (s : State) : Out :=
  match s.env? with
  | none => .fault .noSheetInIssue
  | some e =>
    if e.sh.idx ≠ e.sh.hdr.n.toNat + 1 then .next s
    else
      .next <| Eff.finish e <|
        match e.sh.pend with
        | some p => openLevel e s p
        | none => if e.sh.hdr.le = 0 then .placed (s.nextClause e e.sh.after id) else backEdge e s

/-- A trap at a header (R82, R200, R210). -/
def headerTrap (cause : BitVec 8) (a : DWord) (info : Word) : Trap := { cause, tpc := a, thdr := a, addr := a, info }
/-- What a header's own checks find against the levels that will be open (R54, R194, R200). -/
def headerFault (sh : Sheet) (a w : DWord) : Option Trap :=
  let h := Header.unpack w
  let sl := sh.slotAt (sh.fbase + sh.ldep - 1)
  if !isHeader w || !headerOk w sh.ldep then some (headerTrap cIllegalClause a 0)
  else if h.le ≠ 0 ∧ sh.overNest = true then some (headerTrap cLoopNest a (loopInfo 0 sh.ldep))
  else if h.le ≠ 0 ∧ a ≠ sl.fin then some (headerTrap cLoopEscape a (loopInfo 0 (sh.ldep - 1)))
  else none

/-- The word at the PC as the sheet's header: a task sheet's entry header may have been fetched already (R49). -/
def State.headerWord (s : State) (e : Env) : Fetched :=
  match e.sh.early with
  | some w => .word w
  | none => s.fetch e.r e.q.core e.q.ctx e.sh.pc
/-- A task sheet whose entry header is fetched two cycles before its first issue, and not yet looked at (R49). -/
def Sheet.prefetching (sh : Sheet) (cyc : Nat) : Bool := sh.early.isNone && cyc + 1 < sh.startAt
/-- A sheet past the header at its PC (R46, R53). A task sheet that has not reached its first issue begins its clause
there (R49, R292). -/
def Sheet.pastHeader (sh : Sheet) (w : DWord) (qv : Tab Word) (cyc : Nat) : Sheet :=
  { sh with hdr := Header.unpack w, hdrAddr := sh.pc, pc := sh.pc + 8, idx := 1, qv, pend := none,
            began := if cyc < sh.startAt then sh.began else cyc, early := if cyc < sh.startAt then sh.early else none }
/-- CLAUSE_HEADER_FETCH: the header at the PC is fetched and checked (R54, R55, R84, R194), the quire's Q registers
become visible (R46), and the WAIT flags are checked once (R57). A task sheet's entry header is fetched in cycle 6 of
its launch and checked in cycle 7 (R49). The sheet keeps its lane block, and its first body word takes its turn among the
words of the cycle (R177, R203, R243). -/
def execClauseHeaderFetch (s : State) : Out :=
  match s.env? with
  | none => .fault .noSheetInIssue
  | some e =>
    if e.sh.idx ≠ 0 then .next s
    else
      .next <| Eff.finish e <|
        let cyc := s.cycles e.q.core
        match s.headerWord e with
        | .miss => .wait s (.walk e.sh.pc 127 true)
        | .noExec => .trap s (headerTrap cAccess e.sh.pc 2048)
        | .word w =>
          if e.sh.prefetching cyc then .placed (s.modSheet e.r fun sh => { sh with early := some w }).leave
          else if let some pa := s.fetchUe e.q.core e.q.ctx e.sh.pc then .placed (s.ueStop e.r.h pa e.sh.pc)
          else
            match headerFault e.sh e.sh.pc w with
            | some t => .trap s t
            | none =>
              let sh' := e.sh.pastHeader w (e.q.shown e.r.k cyc) cyc
              if !sh'.waitClear then .placed ((s.modSheet e.r fun _ => { sh' with wait := .flags }).leave)
              else if cyc < e.sh.startAt then .placed (s.modSheet e.r fun _ => sh').leave
              else .placed { (s.modSheet e.r fun _ => sh') with cur := none }

/-! ### Tasks (R26-R32, R201, R202) -/

/-- R201: the sheet stalls until its records are written (SPAWN_RECORD_WRITE). -/
def execSpawn (w : FC) (s : State) : Out :=
  issue { vs := [(w.a.toNat, 3)] } s fun e =>
    let ind := w.mod.getLsbD 15
    let a := if ind then e.spair (w.mod.extractLsb' 0 6).toNat else e.disp w.disp
    if ind ∧ (¬canonical a ∨ a.extractLsb' 0 3 ≠ 0) then
      .trap s (e.trapAt cIllegalTarget a (BitVec.ofNat 32 e.sh.idx))
    else
      .hold s (.spawn a ((List.range 3).map fun i => e.sh.resolve (w.a.toNat + i))
        (strandsOf (e.sh.active w.com.gsel w.com.neg)) (e.sh.lls.map (·.id)))

/-- A sheet's near-memory commands in flight (R159). -/
def State.nmOf (s : State) (r : SheetRef) : Bool := s.nms.any fun n => n.ref == r
/-- An operation of a sheet, not of one of its engines' operations, that no vat has accepted (R225). -/
def State.vatPending (s : State) (r : SheetRef) (p : VOp → Bool) : Bool :=
  s.vats.any fun v => v.2.input.any fun o => o.ref == some r && o.eng.isEmpty && p o
/-- R77. -/
def ordAcq (o : Ord) : Bool := o = .acq || o = .ar || o = .sc
def ordRel (o : Ord) : Bool := o = .rel || o = .ar || o = .sc
/-- An operation at a vat that is an acquire of its issuer (R152): one that returns a value with an acquire order. -/
def VOp.acquires (o : VOp) : Bool :=
  ordAcq o.ord && match o.act with
  | .load | .subLoad _ _ | .atom _ _ _ | .cas _ _ => true
  | .slot _ _ _ _ | .store _ | .subStore _ _ _ | .arm _ _ | .disarm => false
/-- An acquire of a sheet that its vat has not applied yet, and whose releases are not known before (R152, R153). -/
def State.acqPending (s : State) (r : SheetRef) : Bool :=
  s.vats.any fun v => (v.2.input ++ v.2.queue).any fun o => o.ref == some r && o.acquires
/-- What holds a release of a sheet back at any scope, and the fork of an engine operation: a post or another operation that no
vat has accepted, and an acquire that waits at a vat, so that what precedes the release or fork has its place first (R152, R154,
R157, R230). -/
def State.unplaced (s : State) (r : SheetRef) (sh : Sheet) : Bool :=
  sh.posts != 0 || s.vatPending r (fun _ => true) || s.acqPending r
/-- What holds a release or sc access at device scope or wider back: near-memory commands too (R159). -/
def State.relHeld (s : State) (r : SheetRef) (sh : Sheet) : Bool := s.unplaced r sh || s.nmOf r

/-- The spawn stall has ended (R26, R215): the words it waits for have completed, and its release may perform. -/
def State.spawnFree (s : State) (r : SheetRef) (sh : Sheet) (ids : List Nat) : Bool :=
  !(sh.lls.any fun l => ids.contains l.id) && !s.relHeld r sh
/-- The record of a strand (R26, R340). -/
def spawnRec (h : Nat) (q : Quire) (sh : Sheet) (fr : Nat) (args : List Nat) (i : Nat) : SpawnRec :=
  let a := fun k => sh.read fr (.v (args[k]?.getD 0) i)
  { spawner := some h, qid := q.qid, a0 := a 0, a1 := a 1, a2 := a 2, origin := originTask i (sh.spawns.get 0 i) q.qid }

/-- SPAWN_RECORD_WRITE: records in ascending strand order into bins or the pool while there is room and the join
counter allows it; the sheet goes on when all are written, and a bin time of 0 launches the bin (R26-R31). -/
def execSpawnRecordWrite (h k : Nat) (s : State) : Out :=
  .next <|
    let r : SheetRef := { h, k }
    match s.quires.find h, s.sheet? r with
    | some q, some sh =>
      match sh.wait with
      | .spawn entry args strands ids =>
        if !s.spawnFree r sh ids || !q.runs then s
        else
          let recs := strands.map (spawnRec h q sh s.free args)
          let recs := recs.take (2 ^ 32 - 1 - q.joins)
          let (s, n) := s.placeRecs q.core (.spawn r) q.ctx entry recs
          let s := s.modQuire h fun q => { q with joins := q.joins + n }
          let s := ((recs.take n).zip strands).foldl (fun s x => s.relMark r x.2 (.spawn x.1.origin)) s
          let s := s.modSheet r fun sh =>
            { sh with spawns := (strands.take n).foldl (fun t i => t.set 0 i ((t.get 0 i + 1) % 2 ^ 23)) sh.spawns,
                      wait := if n = strands.length then .none else .spawn entry args (strands.drop n) [] }
          if n = strands.length ∧ (s.ctx q.ctx).desc.binTime = 0 then
            match (s.core q.core).bins.find? fun x => x.2.ctx = q.ctx ∧ x.2.entry = entry with
            | some x => s.binLaunch q.core x.1
            | none => s
          else s
      | _ => s
    | _, _ => s

/-- R32. -/
def execJoin (_w : FRC) (s : State) : Out :=
  issue {} s fun e =>
    if e.q.joins = 0 then .done (s.joinAcq e.r)
    else
      .placed (((s.modSheet e.r fun sh => sh.noteSpin (s.cycles e.q.core)).holdAt e .join).noteJoin e.r.h)
/-- R33, R202; a task's exit is a release at device scope (R215), which R159 may hold back. -/
def execExit (_w : FRC) (s : State) : Out :=
  issue {} s fun e =>
    if e.q.task ∧ s.relHeld e.r e.sh = true then .wait s (.issue 15)
    else .placed ((s.exitSheet e.r).suspendRetry e.r.h)

/-! ### Barriers (R203, R204) -/

/-- R203. R204 gives TINFO and no TADDR; the model gives the word's address (DESIGN CHOICE, log 23). -/
def execBarInit (w : FRC) (s : State) : Out :=
  issue {} s fun e =>
    let n := (e.u w.b.toNat).toNat
    if n < 1 ∨ 16 < n then .trap s (e.trap162 cAccess e.sh.pc 127 5)
    else
      .done (s.modQuire e.r.h fun q =>
        { q with bars := q.bars.put w.a.toNat { e := n, a := 0, phase := ((q.bars.find w.a.toNat).elim 0 (·.phase)) } })

/-- Sheets that wait for a completed phase go on (R203). -/
def Quire.barWake (q : Quire) (b phase : Nat) : Quire :=
  { q with sheets := q.sheets.mapv fun sh =>
      if sh.wait = .bar b phase then { sh with wait := .none, arrived := sh.arrived.del b } else sh }
/-- The end of a wait for a phase is an acquire that synchronises with its arrivals (R158). -/
def State.barAcq (s : State) (r : SheetRef) (b phase : Nat) : State := s.acqMark r 127 fun y => y == .bar r.h b phase
/-- One arrival of a sheet (R203), a release (R158). -/
def State.arrive (s : State) (r : SheetRef) (b : Nat) (x : Bar) : State :=
  let s := (s.relMark r 127 (.bar r.h b x.phase)).modSheet r fun sh => { sh with arrived := sh.arrived.put b x.phase }
  if x.a + 1 < x.e then s.modQuire r.h fun q => { q with bars := q.bars.put b { x with a := x.a + 1 } }
  else
    let waiting := (s.quires.find r.h).elim [] fun q => q.sheets.filter fun y => y.2.wait == .bar b x.phase
    waiting.foldl (fun s y => s.barAcq { h := r.h, k := y.1 } b x.phase) <|
      s.modQuire r.h fun q => ({ q with bars := q.bars.put b { x with a := 0, phase := x.phase + 1 } }).barWake b x.phase
/-- A wait for the phase of the latest arrival, or for the current one (R203). -/
def barWaitEff (e : Env) (s : State) (b phase : Nat) (arrivedAt : Option Nat) : Eff :=
  let p := arrivedAt.getD phase
  if p < phase then .done ((s.barAcq e.r b p).modSheet e.r fun sh => { sh with arrived := sh.arrived.del b })
  else .hold s (.bar b p)
/-- A barrier word that needs the barrier initialised (R204), whose rule gives no TADDR; the model gives the word's address
(DESIGN CHOICE, log 23). -/
def barEff (e : Env) (s : State) (b : Nat) (f : Bar → Eff) : Eff :=
  match e.q.bars.find b with
  | none => .trap s (e.trap162 cAccess e.sh.pc 127 4)
  | some x => f x
/-- An arrival waits for what holds a release at quire scope back (R158, R230). -/
def arriveEff (e : Env) (s : State) (b : Nat) (k : Bar → Eff) : Eff :=
  barEff e s b fun x => if s.unplaced e.r e.sh then .wait s (.issue 15) else k x
/-- R203. -/
def execBarArr (w : FRC) (s : State) : Out :=
  issue {} s fun e => arriveEff e s w.a.toNat fun x => .done (s.arrive e.r w.a.toNat x)
/-- R203. -/
def execBarWait (w : FRC) (s : State) : Out :=
  issue {} s fun e => barEff e s w.a.toNat fun x => barWaitEff e s w.a.toNat x.phase (e.sh.arrived.find w.a.toNat)
/-- R203. -/
def execBarSync (w : FRC) (s : State) : Out :=
  issue {} s fun e => arriveEff e s w.a.toNat fun x =>
    barWaitEff e (s.arrive e.r w.a.toNat x) w.a.toNat (if x.a + 1 < x.e then x.phase else x.phase + 1) (some x.phase)

/-! ### Misc (R38-R40, R205) -/

/-- R205. -/
def execNop (_w : FRC) (s : State) : Out := issue {} s fun _ => .done s
/-- R205, R292. -/
def execYield (_w : FRC) (s : State) : Out :=
  issue {} s fun e => .hold (s.modSheet e.r fun sh => sh.noteSpin (s.cycles e.q.core)) .yield

/-- The rows above a sheet's block are free (R38). -/
def State.growFree (s : State) (core : Nat) (sh : Sheet) (n : Nat) : Bool :=
  rowsFree (s.spots core) sh.lb (sh.base + sh.alloc) (8 * n)
/-- Granted rows read 0 (R38), a result that reached them after an `rshrink` too. -/
def Sheet.grow (sh : Sheet) (n : Nat) : Sheet :=
  { sh with alloc := sh.alloc + 8 * n, v := sh.v.filter fun x => x.1 < 96 * sh.alloc }
/-- R38. -/
def execRgrow (w : FRC) (s : State) : Out :=
  issue {} s fun e =>
    let n := (w.mod.extractLsb' 3 6).toNat
    let d := uniKey w.d.toNat
    if 256 < e.sh.alloc + 8 * n ∨ 256 < e.sh.base + e.sh.alloc + 8 * n then .done (s.writeRegs e.r [(d, 0)])
    else if s.growFree e.q.core e.sh n then
      .done ((s.modSheet e.r fun sh => sh.grow n).writeRegs e.r [(d, 1)])
    else .wait s (.rgrow n d (s.cycles e.q.core))
/-- R40: the contents of the freed rows are lost. -/
def Sheet.shrink (sh : Sheet) (n : Nat) : Sheet :=
  let rows := max 8 (sh.alloc - 8 * n)
  { sh with alloc := rows, v := sh.v.filter fun x => x.1 < 96 * rows }
/-- R40. -/
def execRshrink (w : FRC) (s : State) : Out :=
  issue {} s fun e =>
    let s' := (s.modSheet e.r fun sh => sh.shrink (w.mod.extractLsb' 3 6).toNat).advance e
    .placed (if (s.ctx e.q.ctx).suspended then s'.suspendRetry e.r.h else s')

/-! ### Trap words (R209-R213, R335) -/

/-- SOFT and BREAK (R209): TPC is the address after the word. -/
def Env.codeTrap (e : Env) (cause : BitVec 8) (imm : Word) : Trap :=
  { cause, tpc := e.sh.pc + 8, thdr := e.sh.hdrAddr, addr := e.sh.pc,
    info := BitVec.ofNat 32 (e.sh.idx + 16 * (imm.toNat % 2 ^ 16)) }
/-- A sheet that traps without a handler (R335): its trap registers and frame are as R210 says, and it stands where it is. -/
def Sheet.halt (sh : Sheet) (t : Trap) : Sheet := { sh.enter t with pc := sh.pc, hdrAddr := sh.hdrAddr, idx := sh.idx }
/-- A trap after a word's full effect that stops the quire and enters no handler (R335, log 40). -/
def State.debugStop (s : State) (e : Env) (t : Trap) : State :=
  (((s.advance e).modSheet e.r fun sh => sh.halt t).modQuire e.r.h fun q => { q with halted := some e.r.k }).stopQuire
    e.r.h t.cause t.tpc true
/-- R209. -/
def execTrap (w : FI) (s : State) : Out := issue {} s fun e => .trap s (e.codeTrap cSoft w.imm)
/-- R209, R335. -/
def execBrk (w : FI) (s : State) : Out :=
  issue {} s fun e =>
    match e.cx.dbg (·.stop) with
    | some _ => .placed (s.debugStop e (e.codeTrap cBreak w.imm))
    | none => .trap s (e.codeTrap cBreak w.imm)
/-- R209: the quire stops and is reported. R348 puts TCAUSE into the event and no rule gives `halt` a cause; the model reports 0
(DESIGN CHOICE, log 40). -/
def execHalt (_w : FRC) (s : State) : Out :=
  issue { priv := true } s fun e => .placed (s.stopQuire e.r.h 0 e.sh.pc false)

/-- The `loop` word whose level is to open at the end of the clause in which a return resumes at word `i` (R193, R213). -/
def Sheet.back (sh : Sheet) (i : Nat) : Option PLoop :=
  sh.kept.bind fun x => if x.1 = sh.thdr ∧ x.2.idx < i then some x.2 else none
/-- The frame that a return restores (R213). -/
def Sheet.unframe (sh : Sheet) : Sheet :=
  { sh with fbase := (sh.tstat.extractLsb' 4 3).toNat, ldep := (sh.tstat.extractLsb' 0 3).toNat, tstat := sh.tstat &&& ~~~0x80 }
/-- The sheet at body word `i` of the clause to which it returns (R213). -/
def Sheet.inClause (sh : Sheet) (h : Header) (i : Nat) : Sheet :=
  { sh with hdr := h, hdrAddr := sh.thdr, idx := i, pend := sh.back i, kept := none }
/-- R213. Its checks of THDR and TPC stand after the frame is restored and report a TAG other than 0 as R55 does, where R56 speaks
of transfers in general (DEDUCED, log 22). The fetch of the header returns what the sheet has acquired (R85). A fatal
translation fault of that fetch comes while INTRAP is still 1, so it is a double trap (DESIGN CHOICE, log 22). -/
def execRte (_w : FRC) (s : State) : Out :=
  issue {} s fun e =>
    let sh := e.sh
    if !sh.intrap then .trap s (e.trapAt cIllegalTarget 0 (BitVec.ofNat 32 sh.idx))
    else if sh.ldep ≠ 0 then .trap s (e.loopTrap cLoopLeak sh.pc (sh.ldep - 1))
    else
      let s' := s.modSheet e.r Sheet.unframe
      if sh.thdr.extractLsb' 0 3 ≠ 0 ∨ ¬canonical sh.thdr then
        .trap s' (e.trapAt cIllegalTarget sh.thdr (BitVec.ofNat 32 sh.idx))
      else
        match (s.refetch e.r).fetch e.r e.q.core e.q.ctx sh.thdr with
        | .miss => .wait s (.walk sh.thdr 127 true)
        | .noExec => .trap s' (headerTrap cAccess sh.thdr 2048)
        | .word w =>
          match headerFault sh.unframe sh.thdr w with
          | some t => .trap s' t
          | none =>
            let h := Header.unpack w
            let i := (sh.tpc - sh.thdr).toNat / 8
            if sh.tpc < sh.thdr ∨ h.n.toNat + 1 < i ∨ sh.tpc.extractLsb' 0 3 ≠ 0 then
              .trap s' (e.trapAt cIllegalTarget sh.tpc (BitVec.ofNat 32 sh.idx))
            else if i = 0 then .placed (s'.goto e sh.thdr)
            else
              .placed ((s'.goto e sh.tpc).modSheet e.r fun sh => sh.inClause h i)

/-- ILLEGAL_OPCODE: a word that is no instruction (R55, R80, R81). -/
def execIllegalOpcode (_word : DWord) (s : State) : Out := issue {} s fun e => .trap s (e.trapWord cIllegalOpcode)

end Sys2Proof.Machine
end

