-- ==== Sys2Proof/Machine/Integer.lean ====
section
/-! DEFINITION. Opcodes 0x01-0x27: integer arithmetic, immediates, logic, shifts, bit fields, moves and compares
(R113-R119). The functions of values come first, so that the paired words (R76) share them. -/

namespace Sys2Proof.Machine

/-! ### Functions of values -/

/-- TYPE reads signed (R67). -/
def Ty.signed (t : Ty) : Bool := t = .i32 || t = .i64
/-- A 32-bit value as its TYPE reads it (R86). -/
def val32 (t : Ty) (x : DWord) : Int := if Ty.signed t then (loWord x).toInt else (loWord x).toNat
/-- A 64-bit value as its TYPE reads it (R86). -/
def val64 (t : Ty) (x : DWord) : Int := if Ty.signed t then x.toInt else x.toNat
/-- An exact result in 32 bits: modulo 2^32, or clamped to the type's range with SAT (R113). -/
def fit32 (t : Ty) (sat : Bool) (x : Int) : DWord :=
  if !sat then (BitVec.ofInt 32 x).setWidth 64
  else
    let lo : Int := if Ty.signed t then -2147483648 else 0
    let hi : Int := if Ty.signed t then 2147483647 else 4294967295
    (BitVec.ofInt 32 (max lo (min hi x))).setWidth 64
/-- A 32-bit result in a register's width. -/
def wd (w : Word) : DWord := w.setWidth 64

/-- Quotient and remainder (R114): of x / 0 they are 0 and x, with IDZ; of -2^31 / -1 they are -2^31 and 0. -/
def divRem (t : Ty) (a b : DWord) : Int × Int × Cond :=
  let x := val32 t a
  let y := val32 t b
  if y = 0 then (0, x, Cond.idz) else (x.tdiv y, x - y * x.tdiv y, 0)

/-- The least of values by TYPE, and the greatest (R113). -/
def minBy (t : Ty) (a b : DWord) : DWord := if val32 t a ≤ val32 t b then a else b
def maxBy (t : Ty) (a b : DWord) : DWord := if val32 t a ≤ val32 t b then b else a

/-- Width in bits of a type of one or two registers (R116). -/
def Ty.bits (t : Ty) : Nat := 32 * Ty.regs t
/-- A value cut to the type's width. -/
def cut (t : Ty) (x : DWord) : DWord := if Ty.regs t = 1 then wd (loWord x) else x
/-- Shifts by a count of any size (R116). -/
def shlBy (t : Ty) (x : DWord) (c : Nat) : DWord := if Ty.bits t ≤ c then 0 else cut t (x <<< c)
def shrBy (t : Ty) (x : DWord) (c : Nat) : DWord := if Ty.bits t ≤ c then 0 else cut t x >>> c
def sarBy (t : Ty) (x : DWord) (c : Nat) : DWord :=
  if Ty.regs t = 1 then wd ((loWord x).sshiftRight c) else x.sshiftRight c
def rotlBy (t : Ty) (x : DWord) (c : Nat) : DWord :=
  if Ty.regs t = 1 then wd ((loWord x).rotateLeft (c % 32)) else x.rotateLeft (c % 64)
/-- Leading zeros of the low `w` bits (R116). -/
def leadingZeros (x : DWord) : Nat → Nat
  | 0 => 0
  | w + 1 => if x.getLsbD w then 0 else leadingZeros x w + 1
/-- Set bits of the low `w` bits (R116). -/
def popCount (x : DWord) : Nat → Nat
  | 0 => 0
  | w + 1 => popCount x w + if x.getLsbD w then 1 else 0
/-- The low `w` bits in reverse (R116). -/
def bitReverse (x : DWord) (w : Nat) : DWord :=
  (List.range w).foldl (fun r i => if x.getLsbD i then r ||| (1 : DWord) <<< (w - 1 - i) else r) 0

/-- `bfx` (R117). -/
def bitExtract (t : Ty) (a b : DWord) : Word :=
  let pos := (b.extractLsb' 0 8).toNat
  let len := min (b.extractLsb' 8 8).toNat 32
  let x : Int := if Ty.signed t then (loWord a).toInt else (loWord a).toNat
  let f := (x / 2 ^ pos) % 2 ^ len
  if len = 0 then 0 else BitVec.ofInt 32 (if Ty.signed t ∧ 2 ^ (len - 1) ≤ f then f - 2 ^ len else f)
/-- `bfi` (R117). -/
def bitInsert (a b c : DWord) : Word :=
  let pos := (c.extractLsb' 0 8).toNat
  let len := min (c.extractLsb' 8 8).toNat 32
  let m : Word := (BitVec.ofNat 32 (2 ^ len - 1)) <<< pos
  (loWord a &&& ~~~m) ||| ((loWord b <<< pos) &&& m)

/-- Condition code of `cmp` on values (R119). -/
def ccHolds (cc : Nat) (x y : Int) : Bool :=
  match cc with
  | 0 => x == y | 1 => x != y | 2 => x < y | 3 => x ≤ y | 4 => y < x | _ => y ≤ x
/-- Condition of `cmpi` on a register and the 29-bit immediate (R115, R119). -/
def cmpiHolds (imm : Word) (a : Word) : Bool :=
  let cc := (imm.extractLsb' 29 3).toNat
  let i : Word := (imm.extractLsb' 0 29).signExtend 32
  if cc < 6 then ccHolds cc a.toInt i.toInt
  else if cc = 6 then a.toNat < i.toNat else i.toNat ≤ a.toNat

/-- SUBF[0] (R113). -/
def satBit (w : FR) : Bool := w.subf.getLsbD 0

/-- The count of a shift (R116): B, one register, or SUBF[5:0]. -/
def shiftRun (w : FR) (f : Ty → DWord → Nat → DWord) (s : State) : Out :=
  let n := Ty.regs w.ty
  if w.subf.getLsbD 8 then aluInt w n n 0 0 (fun a _ _ _ => f w.ty a (w.subf.extractLsb' 0 6).toNat) s
  else aluInt w n n 1 0 (fun a b _ _ => f w.ty a b.toNat) s

/-! ### The instructions -/

/-- R113. -/
def execAdd (w : FR) (s : State) : Out :=
  aluInt w 1 1 1 0 (fun a b _ _ => fit32 w.ty (satBit w) (val32 w.ty a + val32 w.ty b)) s
/-- R113. -/
def execSub (w : FR) (s : State) : Out :=
  aluInt w 1 1 1 0 (fun a b _ _ => fit32 w.ty (satBit w) (val32 w.ty a - val32 w.ty b)) s
/-- R113. -/
def execMulLo (w : FR) (s : State) : Out :=
  aluInt w 1 1 1 0 (fun a b _ _ => fit32 w.ty false (val32 w.ty a * val32 w.ty b)) s
/-- R113. -/
def execMulHi (w : FR) (s : State) : Out :=
  aluInt w 1 1 1 0 (fun a b _ _ => fit32 w.ty false (val32 w.ty a * val32 w.ty b / 2 ^ 32)) s
/-- R113. -/
def execMad (w : FR) (s : State) : Out :=
  aluInt w 1 1 1 1 (fun a b c _ => fit32 w.ty false (val32 w.ty a * val32 w.ty b + val32 w.ty c)) s
/-- R113. -/
def execMin (w : FR) (s : State) : Out := aluInt w 1 1 1 0 (fun a b _ _ => minBy w.ty a b) s
/-- R113. -/
def execMax (w : FR) (s : State) : Out := aluInt w 1 1 1 0 (fun a b _ _ => maxBy w.ty a b) s
/-- R113. -/
def execAbs (w : FR) (s : State) : Out :=
  aluInt w 1 1 0 0 (fun a _ _ _ => fit32 .i32 (satBit w) (val32 .i32 a).natAbs) s
/-- R113. -/
def execNeg (w : FR) (s : State) : Out := aluInt w 1 1 0 0 (fun a _ _ _ => fit32 .i32 (satBit w) (-val32 .i32 a)) s
/-- R113. -/
def execAddI64 (w : FR) (s : State) : Out := aluInt w 2 2 2 0 (fun a b _ _ => a + b) s
/-- R113. -/
def execSubI64 (w : FR) (s : State) : Out := aluInt w 2 2 2 0 (fun a b _ _ => a - b) s
/-- R113. -/
def execMulWide (w : FR) (s : State) : Out :=
  aluInt w 2 1 1 0 (fun a b _ _ => BitVec.ofInt 64 (val32 w.ty a * val32 w.ty b)) s
/-- R113. -/
def execLea (w : FR) (s : State) : Out :=
  aluInt w 2 2 1 0 (fun a b _ _ => a + ((loWord b).signExtend 64 <<< (w.subf.extractLsb' 0 2).toNat)) s
/-- R113. -/
def execClamp (w : FR) (s : State) : Out :=
  aluInt w 1 1 1 1 (fun a b c _ => minBy w.ty (maxBy w.ty a b) c) s
/-- R114. -/
def execDiv (w : FR) (s : State) : Out :=
  alu w 1 1 1 0 (fun a b _ _ => let r := divRem w.ty a b; (fit32 w.ty false r.1, r.2.2)) s
/-- R114. -/
def execRem (w : FR) (s : State) : Out :=
  alu w 1 1 1 0 (fun a b _ _ => let r := divRem w.ty a b; (fit32 w.ty false r.2.1, r.2.2)) s

/-- R115. -/
def execAddi (w : FI) (s : State) : Out := aluImm w 1 (fun a => a + w.imm) s
/-- R115. -/
def execAndi (w : FI) (s : State) : Out := aluImm w 1 (fun a => a &&& w.imm) s
/-- R115. -/
def execOri (w : FI) (s : State) : Out := aluImm w 1 (fun a => a ||| w.imm) s
/-- R115. -/
def execXori (w : FI) (s : State) : Out := aluImm w 1 (fun a => a ^^^ w.imm) s
/-- R115. -/
def execMovi (w : FI) (s : State) : Out := aluImm w 0 (fun _ => w.imm) s
/-- R115: the immediate is written unchanged and sets no flag. -/
def execFmovi (w : FI) (s : State) : Out := aluImm w 0 (fun _ => w.imm) s
/-- R115, R119. -/
def execCmpi (w : FI) (s : State) : Out :=
  compare w.com w.d [(w.a.toNat, 1)] (fun e l => (cmpiHolds w.imm (e.w l w.a.toNat), 0)) s

/-- R116. -/
def execAnd (w : FR) (s : State) : Out :=
  aluInt w (Ty.regs w.ty) (Ty.regs w.ty) (Ty.regs w.ty) 0 (fun a b _ _ => a &&& b) s
/-- R116. -/
def execOr (w : FR) (s : State) : Out :=
  aluInt w (Ty.regs w.ty) (Ty.regs w.ty) (Ty.regs w.ty) 0 (fun a b _ _ => a ||| b) s
/-- R116. -/
def execXor (w : FR) (s : State) : Out :=
  aluInt w (Ty.regs w.ty) (Ty.regs w.ty) (Ty.regs w.ty) 0 (fun a b _ _ => a ^^^ b) s
/-- R116. -/
def execAndn (w : FR) (s : State) : Out :=
  aluInt w (Ty.regs w.ty) (Ty.regs w.ty) (Ty.regs w.ty) 0 (fun a b _ _ => a &&& ~~~b) s
/-- R116. -/
def execNot (w : FR) (s : State) : Out :=
  aluInt w (Ty.regs w.ty) (Ty.regs w.ty) 0 0 (fun a _ _ _ => ~~~a) s
/-- R116. -/
def execShl (w : FR) (s : State) : Out := shiftRun w shlBy s
/-- R116. -/
def execShr (w : FR) (s : State) : Out := shiftRun w shrBy s
/-- R116. -/
def execSar (w : FR) (s : State) : Out := shiftRun w sarBy s
/-- R116. -/
def execRotl (w : FR) (s : State) : Out := shiftRun w rotlBy s
/-- R116. -/
def execClz (w : FR) (s : State) : Out :=
  aluInt w 1 (Ty.regs w.ty) 0 0 (fun a _ _ _ => BitVec.ofNat 64 (leadingZeros a (Ty.bits w.ty))) s
/-- R116. -/
def execPopc (w : FR) (s : State) : Out :=
  aluInt w 1 (Ty.regs w.ty) 0 0 (fun a _ _ _ => BitVec.ofNat 64 (popCount a (Ty.bits w.ty))) s
/-- R116. -/
def execBrev (w : FR) (s : State) : Out :=
  aluInt w (Ty.regs w.ty) (Ty.regs w.ty) 0 0 (fun a _ _ _ => bitReverse a (Ty.bits w.ty)) s
/-- R117. -/
def execBfx (w : FR) (s : State) : Out := aluInt w 1 1 1 0 (fun a b _ _ => wd (bitExtract w.ty a b)) s
/-- R117. -/
def execBfi (w : FR) (s : State) : Out := aluInt w 1 1 1 1 (fun a b c _ => wd (bitInsert a b c)) s
/-- R118: each register of D takes the matching register of A. -/
def execMov (w : FR) (s : State) : Out :=
  let n := Ty.regs w.ty
  issue { vs := vsOf w.com [(w.d.toNat, n), (w.a.toNat, n)] } s fun e =>
    .done (s.writeRegs e.r ((e.lanes w.com).flatMap fun l =>
      (List.range n).map fun i => (e.key l (w.d.toNat + i), e.w l (w.a.toNat + i))))
/-- R118: the condition is a bit of a mask when U = 0, a nonzero uniform register when U = 1. -/
def execSel (w : FR) (s : State) : Out :=
  let n := Ty.regs w.ty
  issue { vs := vsOf w.com [(w.d.toNat, n), (w.a.toNat, n), (w.b.toNat, n)] } s fun e =>
    .done (s.writeRegs e.r ((e.lanes w.com).flatMap fun l =>
      let c := match l with
        | none => e.u w.c.toNat != 0
        | some i => (e.sh.k.get 0 w.c.toNat).getLsbD i
      e.dst l n w.d.toNat (e.opnd l n (if c then w.a.toNat else w.b.toNat))))
/-- R119. -/
def execCmp (w : FR) (s : State) : Out :=
  let n := Ty.regs w.ty
  compare w.com w.d [(w.a.toNat, n), (w.b.toNat, n)] (fun e l =>
    let v := fun x => if n = 1 then val32 w.ty x else val64 w.ty x
    (ccHolds (w.subf.extractLsb' 0 3).toNat (v (e.opnd l n w.a.toNat)) (v (e.opnd l n w.b.toNat)), 0)) s

end Sys2Proof.Machine
end

