-- ==== Sys2Proof/Machine/Float.lean ====
section
/-! DEFINITION. Opcodes 0x30-0x46 and 0x56-0x5B: FP32 arithmetic, compares and classes (R120-R124), packed halves and
dot products (R128, R129), conversions (R130) and packed fields (R131). -/

namespace Sys2Proof.Machine

/-! ### Functions of values -/

/-- `fabs` and `fneg` (R121): a NaN gives the default NaN. -/
def absNeg (neg ftz : Bool) (x : DWord) : DWord × Cond :=
  let v := rd32 ftz x
  match v with
  | .nan sg => (BitVec.ofNat 64 fp32.nan, if sg then Cond.nv else 0)
  | _ => fp32Op .rne false (if neg then v.flip else if v.neg then v.flip else v, 0)

/-- `fcmp` (R122). -/
def fcmpHolds (cc : Nat) (a b : FV) : Bool × Cond :=
  let un := a.isNan || b.isNan
  let sg := a.sig || b.sig
  let o := FV.cmp a b
  let c : Cond := if (if 2 ≤ cc ∧ cc ≤ 5 then un else sg) then Cond.nv else 0
  (match cc with
   | 0 => !un && o == 0
   | 1 => un || o != 0
   | 2 => !un && o < 0
   | 3 => !un && o ≤ 0
   | 4 => !un && 0 < o
   | 5 => !un && 0 ≤ o
   | 6 => un
   | _ => !un, c)

/-- Element `j` of packed fields of `b` bits. -/
def field (b : Nat) (x : DWord) (j : Nat) : Nat := x.toNat / 2 ^ (b * j) % 2 ^ b

/-- Both halves of a packed word (R128). -/
def halves (g : Fmt) (rm : RM) (ftz : Bool) (f : FV → FV → FV → FV × Cond) (a b c : DWord) : DWord × Cond :=
  let one := fun j =>
    let r := f (g.read ftz (field 16 a j)) (g.read ftz (field 16 b j)) (g.read ftz (field 16 c j))
    g.give rm ftz false r.1 r.2
  (BitVec.ofNat 64 ((one 0).1 + 65536 * (one 1).1), (one 0).2 ||| (one 1).2)

/-- C + Σ A_j × B_j with one rounding to FP32 (R129). The products and C are summed as exact integers over one common
power of two; infinities and NaNs follow the table of R129. DESIGN CHOICE where two of its rows apply or none gives the sign
(log 41; unsafe): ∞ × 0 raises NV beside a NaN too, infinities of both signs beside a NaN do not, and an exact zero is −0 when
every term is negative, +0 when none is, and else −0 under RD alone. -/
def dotFloat (w : FR) (bits n : Nat) (a b c : DWord) : DWord × Cond :=
  let g := Ty.fmt w.ty
  let ps := (List.range n).map fun j => FV.mul (g.read w.ftz (field bits a j)) (g.read w.ftz (field bits b j))
  let cv := rd32 w.ftz c
  let terms := ps.map (·.1) ++ [cv]
  let cond : Cond := ps.foldl (fun x p => x ||| p.2) (if cv.sig then Cond.nv else 0)
  let r : FV × Cond :=
    if terms.any (·.isNan) then (.nan false, cond)
    else if terms.any (·.isInf) then
      if (terms.filter (·.isInf)).any (·.neg) && (terms.filter (·.isInf)).any (fun t => !t.neg) then
        (.nan false, cond ||| Cond.nv)
      else (.inf ((terms.filter (·.isInf)).any (·.neg)), cond)
    else
      let lo : Int := terms.foldl (fun m t => match t with | .fin _ _ e => min m e | _ => m) 0
      let sum : Int := terms.foldl (fun x t => match t with | .fin s k e => x + scaleTo s k e lo | _ => x) 0
      (ofScaled sum lo (if terms.all (·.neg) then true else if terms.all (fun t => !t.neg) then false else w.rm = .rd), cond)
  fp32Op w.rm w.ftz r

/-- An integer dot product (R129). -/
def dotInt (w : FR) (bits n : Nat) (a b c : DWord) : DWord :=
  let v := fun (x : DWord) j =>
    let u := field bits x j
    if Ty.signed w.ty && 2 ^ (bits - 1) ≤ u then (u : Int) - 2 ^ bits else u
  fit32 w.ty w.subf[0] ((List.range n).foldl (fun s j => s + v a j * v b j) (val32 w.ty c))

/-- TYPE of a conversion's source (R130). -/
def srcTy (w : FR) : Ty := ((Ty.ofCode (Wf.srcCode w)).getD .f32)
/-- `cvt.fi` (R96, R130). -/
def cvtToInt (dst : Ty) (src : Fmt) (rm : RM) (ftz : Bool) (a : DWord) : DWord × Cond :=
  let v := src.read ftz (a.toNat % 2 ^ (src.signAt + 1))
  let r := v.toInt rm (Ty.signed dst) (Ty.bits dst)
  (cut dst (BitVec.ofInt 64 r.1), r.2)
/-- `cvt.if` (R96, R130). -/
def cvtOfInt (dst : Fmt) (src : Ty) (rm : RM) (ftz : Bool) (a : DWord) : DWord × Cond :=
  let x := if Ty.regs src = 1 then val32 src a else val64 src a
  let r := dst.give rm ftz false (.fin (x < 0) x.natAbs 0)
  (BitVec.ofNat 64 r.1, r.2)

/-- A field replaced in a register (R131). -/
def putField (b : Nat) (x : DWord) (j v : Nat) : DWord :=
  BitVec.ofNat 64 (x.toNat - field b x j * 2 ^ (b * j) + v % 2 ^ b * 2 ^ (b * j))
/-- Bits of a field of `pack` and `unpack` (R131). -/
def fieldBits : Ty → Nat
  | .b16 => 16 | .b8 => 8 | _ => 4

/-! ### The instructions -/

/-- R120. -/
def execFadd (w : FR) (s : State) : Out :=
  alu w 1 1 1 0 (fun a b _ _ => fp32Op w.rm w.ftz (FV.add w.rm (rd32 w.ftz a) (rd32 w.ftz b))) s
/-- R120. -/
def execFsub (w : FR) (s : State) : Out :=
  alu w 1 1 1 0 (fun a b _ _ => fp32Op w.rm w.ftz (FV.add w.rm (rd32 w.ftz a) (rd32 w.ftz b).flip)) s
/-- R120. -/
def execFmul (w : FR) (s : State) : Out :=
  alu w 1 1 1 0 (fun a b _ _ => fp32Op w.rm w.ftz (FV.mul (rd32 w.ftz a) (rd32 w.ftz b))) s
/-- R120, R216. -/
def execFma (w : FR) (s : State) : Out :=
  alu w 1 1 1 1 (fun a b c _ => fp32Op w.rm w.ftz (FV.fma w.rm (rd32 w.ftz a) (rd32 w.ftz b) (rd32 w.ftz c))) s
/-- R120. -/
def execFdiv (w : FR) (s : State) : Out :=
  alu w 1 1 1 0 (fun a b _ _ => fp32Op w.rm w.ftz (FV.div (rd32 w.ftz a) (rd32 w.ftz b))) s
/-- R120. -/
def execFsqrt (w : FR) (s : State) : Out :=
  alu w 1 1 0 0 (fun a _ _ _ => fp32Op w.rm w.ftz (FV.sqrt (rd32 w.ftz a))) s
/-- R94, R121. -/
def execFmin (w : FR) (s : State) : Out :=
  alu w 1 1 1 0 (fun a b _ _ => fp32Op .rne false (FV.minMax true w.subf[0] (rd32 w.ftz a) (rd32 w.ftz b))) s
/-- R94, R121. -/
def execFmax (w : FR) (s : State) : Out :=
  alu w 1 1 1 0 (fun a b _ _ => fp32Op .rne false (FV.minMax false w.subf[0] (rd32 w.ftz a) (rd32 w.ftz b))) s
/-- R121. -/
def execFabs (w : FR) (s : State) : Out := alu w 1 1 0 0 (fun a _ _ _ => absNeg false w.ftz a) s
/-- R121. -/
def execFneg (w : FR) (s : State) : Out := alu w 1 1 0 0 (fun a _ _ _ => absNeg true w.ftz a) s
/-- R122. -/
def execFcmp (w : FR) (s : State) : Out :=
  compare w.com w.d [(w.a.toNat, 1), (w.b.toNat, 1)] (fun e l =>
    fcmpHolds w.subf.toNat (rd32 w.ftz (e.opnd l 1 w.a.toNat)) (rd32 w.ftz (e.opnd l 1 w.b.toNat))) s
/-- R123. -/
def execFclass (w : FR) (s : State) : Out :=
  aluInt w 1 1 0 0 (fun a _ _ _ =>
    BitVec.ofNat 64 ((Ty.fmt w.ty).classMask (a.toNat % 2 ^ ((Ty.fmt w.ty).signAt + 1)))) s
/-- R124. -/
def execFround (w : FR) (s : State) : Out :=
  alu w 1 1 0 0 (fun a _ _ _ =>
    let v := rd32 w.ftz a
    let r := v.integral w.rm
    fp32Op .rne false (r.1, (if v.sig then Cond.nv else 0) ||| if w.subf[0] && r.2 then Cond.nx else 0)) s
/-- R128. -/
def execHadd2 (w : FR) (s : State) : Out :=
  alu w 1 1 1 0 (fun a b _ _ => halves (Ty.fmt w.ty) w.rm w.ftz (fun x y _ => FV.add w.rm x y) a b 0) s
/-- R128. -/
def execHmul2 (w : FR) (s : State) : Out :=
  alu w 1 1 1 0 (fun a b _ _ => halves (Ty.fmt w.ty) w.rm w.ftz (fun x y _ => FV.mul x y) a b 0) s
/-- R128. -/
def execHfma2 (w : FR) (s : State) : Out :=
  alu w 1 1 1 1 (fun a b c _ => halves (Ty.fmt w.ty) w.rm w.ftz (fun x y z => FV.fma w.rm x y z) a b c) s
/-- R129. -/
def execDot4 (w : FR) (s : State) : Out :=
  alu w 1 1 1 1 (fun a b c _ =>
    if w.ty = .i32 ∨ w.ty = .n32 then (dotInt w 8 4 a b c, 0) else dotFloat w 8 4 a b c) s
/-- R129. -/
def execDot2 (w : FR) (s : State) : Out :=
  alu w 1 1 1 1 (fun a b c _ => if w.ty = .i32 then (dotInt w 16 2 a b c, 0) else dotFloat w 16 2 a b c) s
/-- R95, R130. -/
def execCvtF (w : FR) (s : State) : Out :=
  alu w 1 1 0 0 (fun a _ _ _ =>
    let src := Ty.fmt (srcTy w)
    let r := cvtFloat (Ty.fmt w.ty) src w.rm w.ftz w.subf[5] (a.toNat % 2 ^ (src.signAt + 1))
    (BitVec.ofNat 64 r.1, r.2)) s
/-- R96, R130. -/
def execCvtFi (w : FR) (s : State) : Out :=
  alu w (Ty.regs w.ty) 1 0 0 (fun a _ _ _ => cvtToInt w.ty (Ty.fmt (srcTy w)) w.rm w.ftz a) s
/-- R96, R130. -/
def execCvtIf (w : FR) (s : State) : Out :=
  alu w 1 (Ty.regs (srcTy w)) 0 0 (fun a _ _ _ => cvtOfInt (Ty.fmt w.ty) (srcTy w) w.rm w.ftz a) s
/-- R97, R130. -/
def execCvtSr (w : FR) (s : State) : Out :=
  alu w 1 1 1 0 (fun a b _ _ =>
    let r := cvtStoch (Ty.fmt w.ty) w.ftz w.subf[5] (a.toNat % 2 ^ 32) (b.toNat % 65536)
    (BitVec.ofNat 64 r.1, r.2)) s
/-- R131. -/
def execPack (w : FR) (s : State) : Out :=
  let i := (w.subf.extractLsb' 0 3).toNat
  if w.ty = .b16 then aluInt w 1 1 1 0 (fun a b _ _ => BitVec.ofNat 64 (field 16 a 0 + 65536 * field 16 b 0)) s
  else aluInt w 1 1 0 0 (fun a _ _ d => putField (fieldBits w.ty) d i a.toNat) s
/-- R131. -/
def execUnpack (w : FR) (s : State) : Out :=
  aluInt w 1 1 0 0 (fun a _ _ _ =>
    let b := fieldBits w.ty
    let x := field b a (w.subf.extractLsb' 0 3).toNat
    if w.subf[3] && 2 ^ (b - 1) ≤ x then wd (BitVec.ofInt 32 ((x : Int) - 2 ^ b)) else BitVec.ofNat 64 x) s

end Sys2Proof.Machine
end

