-- ==== Sys2Proof/Machine/Sys.lean ====
section
/-! DEFINITION. System registers (R206-R211, R303), TLB invalidation (R302), the clock of a die (R305), and suspending
and resuming a context (R285, R297-R299). -/

namespace Sys2Proof.Machine

/-! ### Indices (R208, R303) -/

/-- Word `w` of a 64-bit register. -/
def halfOf (x : DWord) (w : Nat) : Word := if w = 0 then loWord x else hiWord x
/-- Word `w` of a 96-bit register. -/
def maskWord (m : Mask) (w : Nat) : Word := m.extractLsb' (32 * w) 32
/-- A 64-bit register with one half replaced. -/
def setHalf (x : DWord) (w : Nat) (v : Word) : DWord := if w = 0 then joinWords v (hiWord x) else joinWords (loWord x) v

/-- An index that R208 or R303 assigns. -/
def srKnown (i : Nat) : Bool :=
  i ≤ 0x00C || (0x010 ≤ i && i ≤ 0x013) || i == 0x020 || i == 0x021 || (0x030 ≤ i && i ≤ 0x032) ||
  (0x040 ≤ i && i ≤ 0x06F) || (0x100 ≤ i && i < 0x140 && i % 16 ≤ 13) || (0x140 ≤ i && i ≤ 0x157) ||
  (0x180 ≤ i && i ≤ 0x18A) || (0x200 ≤ i && i ≤ 0x202) ||
  i == 0x800 || i == 0x801 || i == 0x810 || i == 0x811 || i == 0x812 || i == 0x820 || i == 0x821 || i == 0x840

/-- LWIN (R191). -/
def slotRead (sl : Slot) (k : Nat) : Word :=
  match k with
  | 0 => sl.cnt
  | 1 => loWord sl.beg | 2 => hiWord sl.beg
  | 3 => loWord sl.fin | 4 => hiWord sl.fin
  | 5 => sl.nst.setWidth 32
  | 6 => sl.win
  | 7 => sl.rot.setWidth 32
  | k => if k < 11 then maskWord sl.feed (k - 8) else maskWord sl.park (k - 11)
/-- Four strands' LSTG (R208). -/
def lstgWord (t : Tab (BitVec 8)) (i : Nat) : Word :=
  (t.get 0 (4 * i + 3)) ++ (t.get 0 (4 * i + 2)) ++ (t.get 0 (4 * i + 1)) ++ (t.get 0 (4 * i))

/-- Ream index and extents of a quire (R208): 0 and 1 for tasks. -/
def State.reamOf (s : State) (q : Quire) : Option Ream := q.ream.bind fun m => s.reams.find m
/-- Quire index in the ream along x, y and z (R289). -/
def qidx (m : Ream) (lin : Nat) (d : Nat) : Nat :=
  match d with
  | 0 => lin % m.x
  | 1 => lin / m.x % m.y
  | _ => lin / (m.x * m.y)
/-- Extents (R208). -/
def qext (m : Ream) (d : Nat) : Nat := match d with | 0 => m.x | 1 => m.y | _ => m.z

/-- What `rdsr` of an index gives (R207, R208, R303); a write-only index reads 0 (R5). -/
def State.srRead (s : State) (e : Env) (i : Nat) : Word :=
  let sh := e.sh
  let q := e.q
  let c := q.core
  let n := fun (x : Nat) => BitVec.ofNat 32 x
  if i = 0x000 then n (e.r.k + 16 * q.nsheets)
  else if i = 0x001 then q.qid
  else if i = 0x002 then n c
  else if i = 0x003 then n (c % 200 / 20 + 16 * (c % 20))
  else if i = 0x004 then n (dieOf c)
  else if i = 0x005 then n (sh.lb + 8 * sh.slot + 64 * (8 * sh.lb + sh.slot))
  else if i ≤ 0x008 then n ((s.reamOf q).elim 0 fun m => qidx m q.lin (i - 6))
  else if i ≤ 0x00B then n ((s.reamOf q).elim 1 fun m => qext m (i - 9))
  else if i = 0x00C then n sh.alloc
  else if i = 0x010 then n s.reft
  else if i = 0x011 then sh.reftCap.getD (n (s.reft / 2 ^ 32))
  else if i = 0x012 then n (s.cycles c)
  else if i = 0x013 then sh.cycCap.getD (n (s.cycles c / 2 ^ 32))
  else if i = 0x020 then sh.sflags
  else if i = 0x021 then sh.strap
  else if i = 0x030 then n sh.ldep
  else if i = 0x031 then n sh.fbase
  else if i = 0x032 then n sh.msp
  else if 0x040 ≤ i ∧ i ≤ 0x06F then maskWord (sh.ms.get 0 ((i - 0x040) / 3)) ((i - 0x040) % 3)
  else if 0x100 ≤ i ∧ i < 0x140 then slotRead (sh.slotAt ((i - 0x100) / 16)) (i % 16)
  else if 0x140 ≤ i ∧ i ≤ 0x157 then lstgWord sh.lstg (i - 0x140)
  else if i = 0x180 ∨ i = 0x181 then halfOf sh.tpc (i - 0x180)
  else if i = 0x182 ∨ i = 0x183 then halfOf sh.thdr (i - 0x182)
  else if i = 0x184 then sh.tcause
  else if i = 0x185 ∨ i = 0x186 then halfOf sh.taddr (i - 0x185)
  else if i = 0x187 then sh.tinfo
  else if i = 0x188 then sh.tstat
  else if i = 0x189 ∨ i = 0x18A then halfOf sh.tvec (i - 0x189)
  else if i = 0x200 then n e.cx.desc.binTime
  else if i = 0x201 then n e.cx.desc.rows
  else if i = 0x202 then n e.cx.desc.cham
  else if i = 0x800 then n q.ctx
  else if i = 0x801 then n q.qprio
  else if i = 0x810 ∨ i = 0x811 then halfOf sh.tlbva (i - 0x810)
  else if i = 0x820 then n (s.die (dieOf c)).f
  else if i = 0x821 then (if (s.die (dieOf c)).step.isSome then 1 else 0)
  else 0

/-- Captures of `rdsr` (R207). -/
def Sheet.capture (sh : Sheet) (i reft cyc : Nat) : Sheet :=
  let up := fun (x : Nat) => BitVec.ofNat 32 (x / 2 ^ 32)
  if i = 0x010 then { sh with reftCap := some (up reft) }
  else if i = 0x011 then { sh with reftCap := none }
  else if i = 0x012 then { sh with cycCap := some (up cyc) }
  else if i = 0x013 then { sh with cycCap := none }
  else sh

/-- R206, R207: an unassigned index is an encoding fault (R81 step 2), before the privilege check. -/
def execRdsr (w : FI) (s : State) : Out :=
  issue {} s fun e =>
    let i := w.imm.toNat
    if !srKnown i then .trap s (e.trapWord cIllegalEncoding)
    else if 0x800 ≤ i ∧ ¬e.cx.desc.priv then .trap s (e.trapWord cPrivileged)
    else
      .done ((s.modSheet e.r fun sh => sh.capture i s.reft (s.cycles e.q.core)).writeRegs e.r
        [(uniKey w.d.toNat, s.srRead e i)])

/-- A slot register written, or none where the value breaks a limit (R206). -/
def slotWrite (sl : Slot) (k : Nat) (v : Word) : Option Slot :=
  let lowOk := v.extractLsb' 0 3 = 0
  let highOk := (v.extractLsb' 0 24).signExtend 32 = v
  match k with
  | 0 => some { sl with cnt := v }
  | 1 => if lowOk then some { sl with beg := setHalf sl.beg 0 v } else none
  | 2 => if highOk then some { sl with beg := setHalf sl.beg 1 v } else none
  | 3 => if lowOk then some { sl with fin := setHalf sl.fin 0 v } else none
  | 4 => if highOk then some { sl with fin := setHalf sl.fin 1 v } else none
  | 5 => if 1 ≤ v.toNat ∧ v.toNat ≤ 8 then some { sl with nst := v.setWidth 4 } else none
  | 6 =>
    let w := (v.extractLsb' 8 8).toNat
    if w ≤ 124 ∧ w % 4 = 0 ∧ (sl.rot.toNat < w ∨ (w = 0 ∧ sl.rot = 0)) then some { sl with win := v &&& 0xFFFF } else none
  | 7 => if v.toNat < sl.w ∨ (v = 0 ∧ sl.w = 0) then some { sl with rot := v.setWidth 8 } else none
  | k =>
    if k < 11 then some { sl with feed := setMaskWord sl.feed (k - 8) v }
    else some { sl with park := setMaskWord sl.park (k - 11) v }

/-- What `wrsr` of a user index or TLBVA does to the sheet, or none where the value breaks a limit (R206). A read-only
index, and reserved bits, are ignored (R5, R6). -/
def Sheet.srWrite (sh : Sheet) (i : Nat) (v : Word) : Option Sheet :=
  if i = 0x020 then some { sh with sflags := v &&& 0x7F }
  else if i = 0x021 then some { sh with strap := v &&& 0x6F }
  else if i = 0x030 then (if v.toNat ≤ 4 then some { sh with ldep := v.toNat } else none)
  else if i = 0x031 then (if v.toNat ≤ 4 then some { sh with fbase := v.toNat } else none)
  else if i = 0x032 then (if v.toNat ≤ 16 then some { sh with msp := v.toNat } else none)
  else if 0x040 ≤ i ∧ i ≤ 0x06F then
    let k := (i - 0x040) / 3
    some { sh with ms := sh.ms.set 0 k (setMaskWord (sh.ms.get 0 k) ((i - 0x040) % 3) v) }
  else if 0x100 ≤ i ∧ i < 0x140 then
    let j := (i - 0x100) / 16
    (slotWrite (sh.slotAt j) (i % 16) v).map fun sl => { sh with slots := sh.slots.put j sl }
  else if 0x140 ≤ i ∧ i ≤ 0x157 then
    some { sh with lstg := (List.range 4).foldl (fun t b => t.set 0 (4 * (i - 0x140) + b) (v.extractLsb' (8 * b) 8)) sh.lstg }
  else if i = 0x180 ∨ i = 0x181 then some { sh with tpc := setHalf sh.tpc (i - 0x180) v }
  else if i = 0x182 ∨ i = 0x183 then some { sh with thdr := setHalf sh.thdr (i - 0x182) v }
  else if i = 0x184 then some { sh with tcause := v &&& 0xFF }
  else if i = 0x185 ∨ i = 0x186 then some { sh with taddr := setHalf sh.taddr (i - 0x185) v }
  else if i = 0x187 then some { sh with tinfo := v }
  else if i = 0x188 then some { sh with tstat := (sh.tstat &&& 0x80) ||| (v &&& 0x77) }
  else if i = 0x189 ∨ i = 0x18A then some { sh with tvec := setHalf sh.tvec (i - 0x189) v }
  else if i = 0x810 ∨ i = 0x811 then some { sh with tlbva := setHalf sh.tlbva (i - 0x810) v }
  else some sh

/-! ### TLB invalidation (R302, R303) -/

/-- A core's TLB lies in a scope around another core (R14). -/
def inScope (scope a b : Nat) : Bool :=
  match scope with
  | 3 => a == b
  | 4 => galleryOf a == galleryOf b
  | 5 => dieOf a == dieOf b
  | _ => true
/-- A gallery's TLB lies in a scope around a core. -/
def galleryInScope (scope g core : Nat) : Bool :=
  match scope with
  | 3 => false
  | 4 => g == galleryOf core
  | 5 => g / 10 == dieOf core
  | _ => true
/-- Entries that match are dropped from every TLB of the scope. -/
def State.tlbDrop (s : State) (core scope : Nat) (hit : TlbEnt → Bool) : State :=
  { s with
    cores := s.cores.map fun c => (c.1, if inScope scope c.1 core then { c.2 with tlb := c.2.tlb.filter (!hit ·) } else c.2),
    galleries := s.galleries.map fun g =>
      (g.1, if galleryInScope scope g.1 core then { g.2 with tlb := g.2.tlb.filter (!hit ·) } else g.2) }
/-- TLBINV of a kind (R303). -/
def State.tlbInv (s : State) (e : Env) (kind ctx scope : Nat) : State :=
  s.tlbDrop e.q.core scope fun t =>
    match kind with
    | 0 => t.hits ctx (e.sh.tlbva.extractLsb' 0 56).toNat
    | 1 => t.ctx == ctx
    | _ => true

/-! ### The clock of a die (R305) -/

/-- A write of a step: none in force, held, or begun (R305); while the die pauses, its lane blocks issue nothing. -/
def State.setClock (s : State) (die f : Nat) : State :=
  let d := s.die die
  if d.step.isSome then s.modDie die fun d => { d with heldF := some f }
  else if d.f = f then s
  else
    let s := s.modDie die fun d =>
      { d with cyc := d.cycles s.now, cycAt := s.now, step := some (f, s.now + 2000 * Config.tickParts) }
    match s.cur.bind fun r => s.quires.find r.h with
    | some q => if dieOf q.core = die then s.leave else s
    | none => s

/-! ### Contexts (R285, R299) -/

/-- A context descriptor read from memory; `ok` says that no limit of R285 is broken. -/
def State.readDesc (s : State) (addr : Nat) : CtxDesc :=
  let n := fun o k => s.readNat (addr + o) k
  let flags := n 3 1
  let bit := fun i => flags / 2 ^ i % 2 == 1
  let id := n 0 2
  let strap := BitVec.ofNat 32 (n 8 4)
  { addr,
    ok := 1 ≤ id && id < 4096 && n 2 1 < 4 && flags < 32 &&
      (if bit 4 then n 4 2 == 0 && n 6 1 == 0 && n 7 1 == 0 else 1 ≤ n 6 1 && n 6 1 ≤ 32 && n 7 1 ≤ 64) &&
      strap &&& 0x6F == strap && n 16 8 % 2048 == 0 && n 24 8 % 4096 == 0 && n 40 88 == 0 && addr % 128 == 0,
    prio := n 2 1, priv := bit 0, pin := bit 1, preempt := bit 2, bank := bit 3, bintime := n 4 2, taskrows := n 6 1,
    taskcham := n 7 1, deftask := bit 4, strap, class_ := BitVec.ofNat 32 (n 12 4), ptroot := n 16 8,
    swapbase := n 24 8, swapsize := n 32 8 }

/-- Suspension (R299): no new placements; every quire of the context leaves. -/
def State.suspendCtx (s : State) (ctx : Nat) : State :=
  s.quires.foldl (fun s x => if x.2.ctx = ctx then s.swapStart x.1 .suspend else s)
    (s.modCtx ctx fun c => { c with suspended := true })
/-- Resume (R299): the descriptor is read again, and every swapped quire is eligible under R298; who waits for the suspension
goes on when no record of it is still to be written. -/
def State.resumeCtx (s : State) (ctx : Nat) : State :=
  let s := s.modCtx ctx fun c => { c with suspended := false, desc := s.readDesc c.desc.addr }
  State.suspendWake (ctx := ctx) { s with quires := s.quires.mapv fun q =>
      match q.phase with
      | .swapped .suspend a w none => if q.ctx = ctx then { q with phase := .swapped .suspend a w (some s.reft) } else q
      | _ => q }
/-- CTXCTL names a context of its own partition (R349). -/
def State.ctxOf (s : State) (part ctx : Nat) : Bool := (s.ctxs.find ctx).any (·.part == part)

/-- CTXCTL suspend by a sheet: it waits for the last swap record (R299). -/
def suspendEff (e : Env) (s : State) (ctx : Nat) : Eff :=
  if !s.ctxOf e.cx.part ctx then .done s
  else
    let s := s.suspendCtx ctx
    if s.toSave ctx then .hold s (.suspend ctx) else .done s
/-- CTXCTL resume by a sheet, once no re-key of the descriptor's page runs (R359). -/
def resumeEff (e : Env) (s : State) (ctx : Nat) : Eff :=
  if !s.ctxOf e.cx.part ctx then .done s
  else if s.rekeying (s.ctx ctx).desc.addr 128 then .wait s (.issue 15)
  else .done (s.resumeCtx ctx)

/-- R206: user indices and TLBVA; TLBINV, DIEFREQ and CTXCTL act as R302, R305 and R299 say. -/
def execWrsr (w : FI) (s : State) : Out :=
  issue {} s fun e =>
    let i := w.imm.toNat
    let v := e.u w.a.toNat
    let bad := Eff.trap s (e.trapWord cIllegalEncoding)
    if !srKnown i then bad
    else if 0x800 ≤ i ∧ ¬e.cx.desc.priv then .trap s (e.trapWord cPrivileged)
    else if i = 0x812 then
      let kind := (v.extractLsb' 12 2).toNat
      let scope := (v.extractLsb' 14 4).toNat
      if kind = 3 ∨ scope < 3 ∨ 6 < scope then bad else .done (s.tlbInv e kind (v.extractLsb' 0 12).toNat scope)
    else if i = 0x820 then
      if 8 < (v.extractLsb' 0 4).toNat then bad else .done (s.setClock (dieOf e.q.core) (v.extractLsb' 0 4).toNat)
    else if i = 0x840 then
      match (v.extractLsb' 12 4).toNat with
      | 1 => suspendEff e s (v.extractLsb' 0 12).toNat
      | 2 => resumeEff e s (v.extractLsb' 0 12).toNat
      | _ => bad
    else
      match e.sh.srWrite i v with
      | some sh => .done (s.modSheet e.r fun _ => sh)
      | none => bad

/-- A TLBINV write by the sheet in issue, of a kind; a scope outside 3-6 is an encoding fault, as in `wrsr`. -/
def tlbinvStep (kind : Nat) (ctx : BitVec 12) (scope : BitVec 4) (s : State) : Out :=
  issue { priv := true } s fun e =>
    if scope.toNat < 3 ∨ 6 < scope.toNat then .trap s (e.trapWord cIllegalEncoding)
    else .done (s.tlbInv e kind ctx.toNat scope.toNat)
/-- R302, R303. -/
def execTlbinvPage (ctx : BitVec 12) (scope : BitVec 4) (s : State) : Out := tlbinvStep 0 ctx scope s
/-- R302, R303. -/
def execTlbinvContext (ctx : BitVec 12) (scope : BitVec 4) (s : State) : Out := tlbinvStep 1 ctx scope s
/-- R302, R303. -/
def execTlbinvAll (scope : BitVec 4) (s : State) : Out := tlbinvStep 2 0 scope s
/-- R303, R305. -/
def execDiefreq (value : Word) (s : State) : Out :=
  issue { priv := true } s fun e =>
    let f := (value.extractLsb' 0 4).toNat
    if 8 < f then .trap s (e.trapWord cIllegalEncoding) else .done (s.setClock (dieOf e.q.core) f)
/-- R299, R303. -/
def execCtxctlSuspend (ctx : BitVec 12) (s : State) : Out := issue { priv := true } s fun e => suspendEff e s ctx.toNat
/-- R299, R303. -/
def execCtxctlResume (ctx : BitVec 12) (s : State) : Out := issue { priv := true } s fun e => resumeEff e s ctx.toNat

end Sys2Proof.Machine
end

