-- ==== Sys2Proof/Machine/Mem.lean ====
section
/-! DEFINITION. Opcodes 0x80-0x87 and 0x90-0x94 (R144-R172): loads, stores, prefetch, atomics and fences, global and
chamber, with the checks of R162. Accesses are performed at issue, in the order in which the words issue (log 7);
accesses to algebra pages go to their vats (R147, R224). -/

namespace Sys2Proof.Machine

/-! ### Checks (R162) -/

/-- One access of a word: its issuer, virtual address or chamber offset. -/
abbrev Acc := Option Nat × DWord
/-- A checked global access: issuer, virtual address, physical address and leaf. -/
structure Hit where
  lane : Option Nat
  va   : DWord
  pa   : Nat
  leaf : DWord
  deriving DecidableEq, Repr

/-- The checks of R162 for global accesses of one size, each for every issuer before the next: canonical form,
alignment, translation, permission. A page that no TLB holds is looked up first (R169). -/
def gcheck (e : Env) (s : State) (accs : List Acc) (bytes align : Nat) (need : DWord → Bool) (bell : Bool)
    (k : List Hit → Eff) : Eff :=
  let trap := fun (cause : BitVec 8) (a : Acc) (reason : Nat) => Eff.trap s (e.trap162 cause a.2 (laneNo a.1) reason)
  match accs.find? fun a => !canonical a.2 with
  | some a => trap cAccess a 0
  | none =>
    match accs.find? fun a => a.2.toNat % align != 0 with
    | some a => trap cMisaligned a 0
    | none =>
      match accs.find? fun a => (s.tlb e.q.core e.q.ctx a.2).isNone with
      | some a => .wait s (.walk a.2 (laneNo a.1) false)
      | none =>
        let hits := accs.filterMap fun a => (s.tlb e.q.core e.q.ctx a.2).map fun t =>
          { lane := a.1, va := a.2, pa := t.pa a.2, leaf := t.leaf : Hit }
        match hits.find? fun h => !(need h.leaf && s.mayReach e.cx.part h.pa bytes bell) with
        | some h => trap cAccess (h.lane, h.va) 1
        | none => k hits

/-- A chamber range lies in the quire's allocation (R41). -/
def Quire.inCham (q : Quire) (off : Int) (len : Nat) : Bool := 0 ≤ off && off + len ≤ (4096 * q.chamg : Nat)
/-- A held range of the core's scoreboard overlaps a byte range of the quire (R146). -/
def State.boardHit (s : State) (core h lo len : Nat) : Bool :=
  (s.core core).board.any fun b => b.h == h && b.lo < lo + len && lo < b.hi
/-- The checks of R162 for chamber accesses, then the wait of R146. -/
def ccheck (e : Env) (s : State) (accs : List (Option Nat × Int)) (bytes : Nat) (k : List (Option Nat × Nat) → Eff) :
    Eff :=
  let trap := fun (cause : BitVec 8) (a : Option Nat × Int) (reason : Nat) =>
    Eff.trap s (e.trap162 cause (BitVec.ofInt 64 a.2) (laneNo a.1) reason)
  match accs.find? fun a => !e.q.inCham a.2 bytes with
  | some a => trap cAccess a 2
  | none =>
    match accs.find? fun a => a.2.toNat % bytes != 0 with
    | some a => trap cMisaligned a 0
    | none =>
      if accs.any fun a => s.boardHit e.q.core e.r.h a.2.toNat bytes then .wait s (.issue 12)
      else k (accs.map fun a => (a.1, a.2.toNat))

/-! ### Orders (R152, R153, R159, R230) -/

/-- An operation at a vat that is a release of its issuer: one that writes with a release order, and `arm` (R152, R232). -/
def VOp.releases (o : VOp) : Bool :=
  match o.act with
  | .slot _ _ _ _ | .store _ | .subStore _ _ _ | .atom _ _ _ | .cas _ _ => ordRel o.ord
  | .arm _ _ => true
  | .load | .subLoad _ _ | .disarm => false
/-- What holds a memory word of an order and scope at issue: for a release or sc access, posts and other operations
that no vat has accepted (R230) and at device scope or wider near-memory commands (R159); for any access, an earlier
acquire that waits at a vat (R152). -/
def State.ordHeld (s : State) (e : Env) (ord : Ord) (scope : Scope) : Bool :=
  (ordRel ord && (s.unplaced e.r e.sh || (6 ≤ scope.code && s.nmOf e.r))) || s.acqPending e.r
/-- An operation that no vat has applied yet, of an issuer or behind an acquire of its, on bytes that it accesses now past the
vat: the access follows it (R151, R268). -/
def State.aliased (s : State) (r : SheetRef) (lane pa len : Nat) : Bool :=
  s.stores.any fun x => x.op.isSome && (x.ref == r || x.known r lane) && overlaps x.pa x.len pa len

/-- Two issuers lie in one instance of a scope (R14): sheets, strands and cores. -/
def sameScope (scope : Nat) (a : SheetRef) (la : Nat) (b : SheetRef) (lb ca cb : Nat) : Bool :=
  match scope with
  | 0 => a == b && laneMeet la lb
  | 1 => a == b
  | 2 => a.h == b.h
  | n => inScope (min n 6) ca cb
/-- A release that an acquire at a location, of a length and scope, by an issuer on a core synchronises with (R153): one at a
vat while every byte of its word that the acquire reads continues it (R242). -/
def Sync.reads (loc len scope : Nat) (r : SheetRef) (lane core : Nat) : Sync → Bool
  | .loc a n sc c x l => overlaps a n loc len && sameScope (min sc scope) x l r lane c core
  | .word a n lo hi sc c x l =>
    overlaps a n loc len && lo ≤ max a loc && min (a + n) (loc + len) ≤ hi && sameScope (min sc scope) x l r lane c core
  | _ => false
/-- An access at a location by a strand, or by the sheet, takes its place (R152, R154), and as an acquire synchronises. -/
def State.acqAt (s : State) (e : Env) (acq rel write : Bool) (scope : Scope) (l : Option Nat) (loc len : Nat) : State :=
  let s := if acq then s.acqMark e.r (laneNo l) (Sync.reads loc len scope.code e.r (laneNo l) e.q.core) else s
  s.touch e.r (laneNo l) loc len acq rel write
/-- A release by a strand, or by the sheet, at a location (R153). -/
def State.relAt (s : State) (e : Env) (rel : Bool) (scope : Scope) (l : Option Nat) (loc len : Nat) : State :=
  if rel then s.relMark e.r (laneNo l) (.loc loc len scope.code e.q.core e.r (laneNo l)) else s
/-- A release of a doorbell write that moved the write index of its queue (R286, R288). -/
def State.bellAt (s : State) (e : Env) (ord : Ord) (scope : Scope) (l : Option Nat) (pa : Nat) (before : State) : State :=
  match s.region pa with
  | .bell n q 0 =>
    let wr := fun (s : State) => ((s.part n).queues.find q).elim 0 (·.wr)
    if ordRel ord && 6 ≤ scope.code then s.relMark e.r (laneNo l) (.bell n q (wr before) (wr s)) else s
  | _ => s

/-! ### Operations sent to vats (R147, R218, R224) -/

/-- Bytes that an operation at a vat accesses: the first and how many (R218). -/
def VOp.range (o : VOp) : Nat × Nat :=
  match o.act with
  | .subLoad off len | .subStore off len _ => (o.word + off, len)
  | _ => (o.word, if o.w64 then 8 else 4)
/-- An operation that reads its word. -/
def VOp.reading (o : VOp) : Bool :=
  match o.act with
  | .load | .subLoad _ _ | .atom _ _ _ | .cas _ _ | .arm _ _ | .disarm => true
  | .slot _ _ _ _ | .store _ | .subStore _ _ _ => false
/-- An operation that may write its word. -/
def VOp.writing (o : VOp) : Bool :=
  match o.act with
  | .load | .subLoad _ _ => false
  | .slot _ _ _ _ | .store _ | .subStore _ _ _ | .atom _ _ _ | .cas _ _ | .arm _ _ | .disarm => true
/-- An operation of a sheet on its way to a vat is an access of its issuer (R154): it follows what its issuer has acquired,
as a release what it has done, and publishes that; it is itself the latest record. -/
def State.track (s : State) (o : VOp) : List OpKey × State :=
  match o.keys with
  | [] => ([], s)
  | k :: _ =>
    let prior := s.stores.filterMap fun x =>
      if (x.ref == k.ref && laneMeet x.lane k.lane) || x.hb k.ref k.lane o.range.1 o.range.2 o.releases o.writing then x.op else none
    let s := s.touch k.ref k.lane o.range.1 o.range.2 o.acquires o.releases o.writing
    let s := { s with stores := s.stores ++
      [{ ref := k.ref, lane := k.lane, pa := o.range.1, len := o.range.2, old := [], op := some k, loads := o.reading }] }
    (prior, if o.releases then s.relMark k.ref k.lane (.sent k ((s.quires.find k.ref.h).elim 0 (·.core))) else s)
/-- The vat of a word takes an operation into its input; the order gate of its context is there from the first gated
operation on (R341). -/
def State.vatSend (s : State) (o : VOp) : State :=
  let (prior, s) := s.track o
  s.modVat (s.channel o.word) fun v =>
    let v := if o.gated then v.putGate (v.gate o.ctx s.reft) else v
    { v with input := v.input ++ [{ o with prior }] }
/-- An operation of a word of a sheet (R218): the unit of its width that holds the address. -/
def Env.vop (e : Env) (s : State) (h : Hit) (pa : Nat) (w64 : Bool) (act : VAct) (ord : Ord) (scope : Scope)
    (ret : Option Ret) (post : Bool) : VOp :=
  let va := h.va + BitVec.ofInt 64 (pa - h.pa)
  { ref := some e.r, lane := laneNo h.lane, word := pa, w64, act, ord, scope, ctx := e.q.ctx, tab := leafDTS h.leaf, va, ret,
    post, gated := (e.cx.dbg fun d => d.record || d.replay).any fun d => d.designated va, epoch := 0, issued := s.now,
    keys := [{ ref := e.r, lane := laneNo h.lane, word := pa, time := s.now }], prior := [] }
/-- The units that an access of a size touches, each with its width and the part of it: address, offset in the unit, length
(R218). -/
def vatParts (pa bytes : Nat) : List (Nat × Bool × Nat × Nat) :=
  if bytes = 8 then [(pa, true, 0, 8)]
  else if bytes = 16 then (List.range 4).map fun i => (pa + 4 * i, false, 0, 4)
  else [(pa / 4 * 4, false, pa % 4, bytes)]
/-- An access of a size is LOADs and STOREs of words that no step involves (R218). -/
def inParts (bytes : Nat) : Bool := bytes < 4 || bytes == 16

/-! ### Loads (R161, R171) -/

/-- Registers of a word's data for an issuer (R65, R69). -/
def Env.dataKeys (e : Env) (l : Option Nat) (t n : Nat) : List RegKey := (List.range n).map fun i => e.key l (t + i)
/-- Words of loaded bytes, zero-extended (R161). -/
def wordsOf (bs : List Byte) (n : Nat) : List Word := (List.range n).map fun i => BitVec.ofNat 32 (leNat ((bs.drop (4 * i)).take 4))
/-- Bytes of the registers of a word's data (R161). -/
def Env.dataBytes (e : Env) (l : Option Nat) (t n bytes : Nat) : List Byte :=
  (((List.range n).map fun i => leBytes 4 (e.w l (t + i)).toNat).flatten).take bytes

/-- Held sectors with the one that an access finds translated (R171); one that has to follow an operation at a vat is not fetched
before it (R151, R268). -/
def holdSector (e : Env) (s : State) (bytes : Nat) (t : Tab (List Byte)) (a : Acc) : Tab (List Byte) :=
  let va := a.2
  match s.tlb e.q.core e.q.ctx va with
  | none => t
  | some x =>
    let pa := x.pa va
    if !s.aliased e.r (laneNo a.1) pa bytes && canonical va && va.toNat % bytes == 0 && leafR x.leaf && !leafALG x.leaf && s.reach e.cx.part pa &&
        s.region pa == .hbm && (t.find (pa / 32)).isNone then
      t.put (pa / 32) (s.readBytes (pa / 32 * 32) 32)
    else t
/-- Sectors that a relaxed load has fetched before it is parked (R171). -/
def holdSectors (e : Env) (s : State) (accs : List Acc) (bytes : Nat) : State :=
  s.modSheet e.r fun sh => { sh with held := accs.foldl (fun t a => holdSector e s bytes t a) sh.held }
/-- Bytes of a load, from a held sector where there is one (R171). -/
def Env.loadBytes (e : Env) (s : State) (pa n : Nat) : List Byte :=
  match e.sh.held.find (pa / 32) with
  | some bs => (bs.drop (pa % 32)).take n
  | none => s.readBytes pa n

/-- A global load (R161): values are read at issue, or by the vats of algebra words (R147). -/
def gload (e : Env) (s : State) (c : Com) (t : Nat) (size : Size) (ord : Ord) (scope : Scope) (accs : List Acc) : Eff :=
  if s.ordHeld e ord scope then .wait s (.issue 15)
  else
    let park := fun (x : Eff) =>
      match x with
      | .wait s (.walk va l f) => Eff.wait (if ord = .rlx then holdSectors e s accs size.bytes else s) (.walk va l f)
      | x => x
    park <| gcheck e s accs size.bytes size.bytes leafR true fun hits =>
      let plain := hits.filter fun h => !leafALG h.leaf
      let (s, go) := if plain.any fun h => s.aliased e.r (laneNo h.lane) h.pa size.bytes then (s, false)
        else s.keyGate (.sheet e.r) (plain.map (·.pa)) []
      if !go then .wait s (.issue 15)
      else
        let (id, s) := s.fresh
        let out := hits.map fun h =>
          let keys := e.dataKeys h.lane t size.regs
          if leafALG h.leaf then keys.map fun k => { key := k, val := none, raced := false : LLOut }
          else outsOf (keys.zip (wordsOf (e.loadBytes s h.pa size.bytes) size.regs))
        let ops := (hits.filter fun h => leafALG h.leaf).flatMap fun h =>
          (vatParts h.pa size.bytes).zipIdx.map fun p =>
            let keys := if size.bytes = 16 then [e.key h.lane (t + p.2)] else e.dataKeys h.lane t size.regs
            let act := if inParts size.bytes then VAct.subLoad p.1.2.2.1 p.1.2.2.2 else .load
            e.vop s h p.1.1 p.1.2.1 act ord scope (some { ref := e.r, ll := id, keys }) false
        let ue := (plain.find? fun h => s.ue h.pa size.bytes).map (·.pa)
        let ll : LL := { id, flag := e.sh.flagOf c.fs, left := ops.length, outs := out.flatten, noise := false, ue,
                         reads := plain.map fun h => (h.pa, size.bytes) }
        let s := s.modSheet e.r fun sh => { sh.llOpen ll with held := [] }
        let s := plain.foldl (fun s h => s.acqAt e (ordAcq ord) false false scope h.lane (s.locOf h.pa) size.bytes) s
        .done (ops.foldl State.vatSend s)

/-- A load from chamber (R41, R161), which may acquire (R153). -/
def cload (e : Env) (s : State) (c : Com) (t : Nat) (size : Size) (ord : Ord) (scope : Scope) (accs : List (Option Nat × Nat)) :
    Eff :=
  let (id, s) := (accs.foldl (fun s a => s.acqAt e (ordAcq ord) false false scope a.1 (chamLoc e.r.h a.2) size.bytes) s).fresh
  let out := accs.flatMap fun a =>
    (e.dataKeys a.1 t size.regs).zip
      (wordsOf ((List.range size.bytes).map fun i => Tab.get 0 e.q.cham (a.2 + i)) size.regs)
  .done (s.llOpen e c.fs id 0 (outsOf out) false)

/-! ### Bank conflicts (R145, R336) -/

/-- Distinct 4-byte words of a beat in a bank. -/
def bankWords (ws : List Nat) (bank : Nat) : Nat := (ws.eraseDups.filter fun w => w % 64 == bank).length
/-- Words that a beat's accesses address. -/
def beatWords (accs : List (Option Nat × Nat)) (bytes beat : Nat) : List Nat :=
  (accs.filter fun a => (a.1.getD 0) / 32 == beat).flatMap fun a =>
    (List.range ((bytes + 3) / 4)).map fun i => a.2 / 4 + i
/-- Largest conflict degree, with the lowest beat that has it. -/
def worstBeat (accs : List (Option Nat × Nat)) (bytes : Nat) : Nat × Nat :=
  (List.range 3).foldl (fun m b =>
    let d := ((List.range 64).map (bankWords (beatWords accs bytes b))).foldl max 0
    if m.1 < d then (d, b) else m) (0, 0)
/-- The bank record of a chamber word in queued mode (R336). -/
def bankTrace (e : Env) (s : State) (accs : List (Option Nat × Nat)) (bytes : Nat) : State :=
  match e.cx.dbg (·.banktr) with
  | none => s
  | some d =>
    let (deg, beat) := worstBeat accs bytes
    if (s.core e.q.core).slotted || deg < d.bankmin then s
    else
      let ws := beatWords accs bytes beat
      let banks := (List.range 64).foldl (fun m b => if bankWords ws b = deg then m + 2 ^ b else m) 0
      s.traceWord e 4 (deg % 256 + 256 * beat) banks e.sh.regions

/-! ### Stores (R161, R342) -/

/-- A sheet's own write, and what walkers and fetches need not see of it (R85, R169). -/
def State.sheetWrite (s : State) (r : SheetRef) (l : Option Nat) (pa : Nat) (bs : List Byte) : State :=
  let rec' : StoreRec :=
    { ref := r, lane := laneNo l, pa, len := bs.length, old := s.readBytes pa bs.length }
  let keep := match s.region pa with | .hbm | .host => [rec'] | _ => []
  let s := s.writeBytes pa bs
  { s with stores := s.stores ++ keep }
/-- The store hash after a word's stores, in strand order (R342). -/
def Sheet.hashAll (sh : Sheet) (xs : List (Nat × List Byte)) : Sheet :=
  { sh with hash := xs.foldl (fun h x => hashStore h x.1 x.2) sh.hash }

/-- A plain store at a physical address in its place: it ends what earlier releases of its bytes published, and publishes what
precedes it when it is a release (R152, R153). -/
def State.storeAt (s : State) (e : Env) (rel : Bool) (scope : Scope) (l : Option Nat) (pa : Nat) (bs : List Byte) : State :=
  (((s.acqAt e false rel true scope l (s.locOf pa) bs.length).cutSync pa bs.length).sheetWrite e.r l pa bs).relAt e rel scope l
    (s.locOf pa) bs.length
/-- A global store (R161). -/
def gstore (e : Env) (s : State) (t : Nat) (size : Size) (ord : Ord) (scope : Scope) (accs : List Acc) : Eff :=
  if s.ordHeld e ord scope then .wait s (.issue 15)
  else
    gcheck e s accs size.bytes size.bytes leafW true fun hits =>
      let plain := hits.filter fun h => !leafALG h.leaf
      let (s, go) := if plain.any fun h => s.aliased e.r (laneNo h.lane) h.pa size.bytes then (s, false)
        else s.keyGate (.sheet e.r) [] (plain.map (·.pa))
      if !go then .wait s (.issue 15)
      else
        let data := fun (h : Hit) => e.dataBytes h.lane t size.regs size.bytes
        let s := s.modSheet e.r fun sh => sh.hashAll (hits.map fun h => (h.va.toNat, data h))
        .done (hits.foldl (fun s h =>
          if leafALG h.leaf then
            (vatParts h.pa size.bytes).zipIdx.foldl (fun s p =>
              let bs := if size.bytes = 16 then ((data h).drop (4 * p.2)).take 4 else data h
              let x : DWord := BitVec.ofNat 64 (leNat bs)
              let act := if inParts size.bytes then VAct.subStore p.1.2.2.1 p.1.2.2.2 x else .store x
              s.vatSend (e.vop s h p.1.1 p.1.2.1 act ord scope none false)) s
          else
            (s.storeAt e (ordRel ord) scope h.lane h.pa (data h)).bellAt e ord scope h.lane h.pa s) s)

/-- Chamber bytes written by a sheet. -/
def State.chamWrite (s : State) (h off : Nat) (bs : List Byte) : State :=
  s.modQuire h fun q => { q with cham := Memory.write q.cham off bs }
/-- Chamber bytes written by an engine, which ends what earlier releases of them published (R153). -/
def State.chamOpen (s : State) (h off : Nat) (bs : List Byte) : State :=
  (s.cutAt (chamLoc h off) bs.length).chamWrite h off bs
/-- A store to chamber (R161), which may release (R153). -/
def cstore (e : Env) (s : State) (t : Nat) (size : Size) (ord : Ord) (scope : Scope) (accs : List (Option Nat × Nat)) : Eff :=
  let data := fun (a : Option Nat × Nat) => e.dataBytes a.1 t size.regs size.bytes
  let s := s.modSheet e.r fun sh => sh.hashAll (accs.map fun a => (a.2, data a))
  .done (accs.foldl (fun s a =>
    let loc := chamLoc e.r.h a.2
    (((s.acqAt e false (ordRel ord) true scope a.1 loc size.bytes).cutAt loc size.bytes).chamWrite e.r.h a.2 (data a)).relAt e
      (ordRel ord) scope a.1 loc size.bytes) s)

/-! ### The load and store words -/

/-- Accesses of a format M word to global memory (R69). -/
def Env.gaccs (e : Env) (c : Com) (base : BitVec 6) (idx : BitVec 8) (scale : BitVec 2) (off : Int) (bytes : Nat) :
    List Acc := (e.lanes c).map fun l => (l, e.gaddr l base idx scale off bytes)
/-- Accesses of `ld.gx` and `st.gx` (R163). -/
def Env.gxaccs (e : Env) (c : Com) (base : BitVec 6) (idx : BitVec 8) (off : Int) (bytes : Nat) : List Acc :=
  (e.lanes c).map fun l => (l, e.gxaddr l base idx off bytes)
/-- Accesses to chamber (R69). -/
def Env.caccs (e : Env) (c : Com) (base : BitVec 6) (idx : BitVec 8) (scale : BitVec 2) (off : Int) (bytes : Nat) :
    List (Option Nat × Int) := (e.lanes c).map fun l => (l, e.caddr l base idx scale off bytes)

/-- R161. -/
def execLdG (w : FM) (s : State) : Out :=
  issue { ll := some w.com.fs, vs := mvs w.com w.t w.idx w.size.regs 1 } s fun e =>
    gload e s w.com w.t.toNat w.size w.ord w.scope (e.gaccs w.com w.base w.idx w.scale w.off.toInt w.size.bytes)
/-- R161, R163. -/
def execLdGx (w : FM) (s : State) : Out :=
  issue { ll := some w.com.fs, vs := mvs w.com w.t w.idx w.size.regs 2 } s fun e =>
    gload e s w.com w.t.toNat w.size w.ord w.scope (e.gxaccs w.com w.base w.idx w.off.toInt w.size.bytes)
/-- R161. -/
def execStG (w : FM) (s : State) : Out :=
  issue { vs := mvs w.com w.t w.idx w.size.regs 1 } s fun e =>
    gstore e s w.t.toNat w.size w.ord w.scope (e.gaccs w.com w.base w.idx w.scale w.off.toInt w.size.bytes)
/-- R161, R163. -/
def execStGx (w : FM) (s : State) : Out :=
  issue { vs := mvs w.com w.t w.idx w.size.regs 2 } s fun e =>
    gstore e s w.t.toNat w.size w.ord w.scope (e.gxaccs w.com w.base w.idx w.off.toInt w.size.bytes)
/-- R161; the orders of a chamber word are those of its quire, which R230 and R152 hold at issue. -/
def execLdC (w : FM) (s : State) : Out :=
  issue { ll := some w.com.fs, vs := mvs w.com w.t w.idx w.size.regs 1 } s fun e =>
    if s.ordHeld e w.ord w.scope then .wait s (.issue 15)
    else
      ccheck e s (e.caccs w.com w.base w.idx w.scale w.off.toInt w.size.bytes) w.size.bytes fun accs =>
        cload e (bankTrace e s accs w.size.bytes) w.com w.t.toNat w.size w.ord w.scope accs
/-- R161. -/
def execStC (w : FM) (s : State) : Out :=
  issue { vs := mvs w.com w.t w.idx w.size.regs 1 } s fun e =>
    if s.ordHeld e w.ord w.scope then .wait s (.issue 15)
    else
      ccheck e s (e.caccs w.com w.base w.idx w.scale w.off.toInt w.size.bytes) w.size.bytes fun accs =>
        cstore e (bankTrace e s accs w.size.bytes) w.t.toNat w.size w.ord w.scope accs
/-- R164: no architectural effect. -/
def execPref (w : FM) (s : State) : Out :=
  issue { vs := vsOf w.com (if w.idx = 0xFF then [] else [(w.idx.toNat, 1)]) } s fun _ => .done s

/-! ### Atomics (R165, R166) -/

/-- f(old, x) of R165, on values of a width. -/
def atomFn (kind : Nat) (w64 : Bool) (old x : DWord) : DWord :=
  let cut := fun (v : DWord) => if w64 then v else (loWord v).setWidth 64
  let int := fun (v : DWord) => if w64 then v.toInt else (loWord v).toInt
  let nat := fun (v : DWord) => if w64 then v.toNat else (loWord v).toNat
  cut <| match kind with
  | 0 => old + x
  | 1 => if int old ≤ int x then old else x
  | 2 => if int x ≤ int old then old else x
  | 3 => if nat old ≤ nat x then old else x
  | 4 => if nat x ≤ nat old then old else x
  | 5 => old &&& x
  | 6 => old ||| x
  | 7 => old ^^^ x
  | 8 => x
  | 9 => (rneAdd (loWord old) (loWord x)).setWidth 64
  | 10 => (minMax32 true false (loWord old) (loWord x)).setWidth 64
  | _ => (minMax32 false false (loWord old) (loWord x)).setWidth 64

/-- An atomic of global memory over its issuers in order (R156, R165, R166): `f` gives the new value, or none where
nothing is written. -/
def gatomic (e : Env) (s : State) (c : Com) (t nret bytes : Nat) (ord : Ord) (scope : Scope) (accs : List Acc)
    (f : Option Nat → DWord → Option DWord) (act : Option Nat → VAct) : Eff :=
  if s.ordHeld e ord scope then .wait s (.issue 15)
  else
    gcheck e s accs bytes bytes (fun l => leafR l && leafW l && leafAT l) false fun hits =>
      let plain := hits.filter fun h => !leafALG h.leaf
      let (s, go) := if plain.any fun h => s.aliased e.r (laneNo h.lane) h.pa bytes then (s, false)
        else s.keyGate (.sheet e.r) [] (plain.map (·.pa))
      if !go then .wait s (.issue 15)
      else
        let (id, s) := s.fresh
        let done := hits.foldl (fun (x : State × List LLOut × Nat) h =>
          let (s, outs, n) := x
          let keys := e.dataKeys h.lane t nret
          if leafALG h.leaf then
            (s.vatSend (e.vop s h h.pa (bytes = 8) (act h.lane) ord scope (some { ref := e.r, ll := id, keys }) false),
              outs ++ keys.map fun k => { key := k, val := none, raced := false }, n + 1)
          else
            let old := BitVec.ofNat 64 (s.readNat h.pa bytes)
            let loc := s.locOf h.pa
            let s := s.acqAt e (ordAcq ord) (ordRel ord) true scope h.lane loc bytes
            let outs := outs ++ outsOf (keys.zip [loWord old, hiWord old])
            match f h.lane old with
            | none => (s, outs, n)
            | some v =>
              ((s.sheetWrite e.r h.lane h.pa (leBytes bytes v.toNat)).relAt e (ordRel ord) scope h.lane loc bytes, outs, n)) (s, [], 0)
        let ue := (plain.find? fun h => s.ue h.pa bytes).map (·.pa)
        .done (done.1.modSheet e.r fun sh =>
          sh.llOpen { id, flag := e.sh.flagOf c.fs, left := done.2.2, outs := done.2.1, noise := false, ue,
                      reads := plain.map fun h => (h.pa, bytes) })

/-- R165. -/
def execAtom (w : FMk) (s : State) : Out :=
  issue { ll := some w.com.fs, vs := mvs w.com w.t w.idx w.size.regs 1 } s fun e =>
    let x := fun l => e.opnd l w.size.regs w.t.toNat
    gatomic e s w.com w.t.toNat w.size.regs w.size.bytes w.ord w.scope
      (e.gaccs w.com w.base w.idx w.scale w.off.toInt w.size.bytes)
      (fun l old => some (atomFn w.kind.toNat (w.size = .b64) old (x l))) (fun l => .atom w.kind.toNat (x l) none)
/-- R165: `atom.c`. -/
def execAtomC (w : FMk) (s : State) : Out :=
  issue { ll := some w.com.fs, vs := mvs w.com w.t w.idx w.size.regs 1 } s fun e =>
    if s.ordHeld e w.ord w.scope then .wait s (.issue 15)
    else
      ccheck e s (e.caccs w.com w.base w.idx w.scale w.off.toInt w.size.bytes) w.size.bytes fun accs =>
        let (id, s) := (bankTrace e s accs w.size.bytes).fresh
        let done := accs.foldl (fun (x : State × List LLOut) a =>
          let old : DWord := BitVec.ofNat 64 (leNat ((List.range w.size.bytes).map fun i =>
            Tab.get 0 ((x.1.quires.find e.r.h).elim [] (·.cham)) (a.2 + i)))
          let new := atomFn w.kind.toNat (w.size = .b64) old (e.opnd a.1 w.size.regs w.t.toNat)
          let loc := chamLoc e.r.h a.2
          (((x.1.acqAt e (ordAcq w.ord) (ordRel w.ord) true w.scope a.1 loc w.size.bytes).chamWrite e.r.h a.2
              (leBytes w.size.bytes new.toNat)).relAt e (ordRel w.ord) w.scope a.1 loc w.size.bytes,
            x.2 ++ outsOf ((e.dataKeys a.1 w.t.toNat w.size.regs).zip [loWord old, hiWord old]))) (s, [])
        .done (done.1.llOpen e w.com.fs id 0 done.2 false)
/-- R166. -/
def execCas (w : FM) (s : State) : Out :=
  issue { ll := some w.com.fs, vs := mvs w.com w.t w.idx (2 * w.size.regs) 1 } s fun e =>
    let n := w.size.regs
    let old := fun l => e.opnd l n w.t.toNat
    let new := fun l => e.opnd l n (w.t.toNat + n)
    gatomic e s w.com w.t.toNat n w.size.bytes w.ord w.scope
      (e.gaccs w.com w.base w.idx w.scale w.off.toInt w.size.bytes)
      (fun l x => if x = old l then some (new l) else none) (fun l => .cas (old l) (new l))

/-! ### Fences (R167, R168) -/

/-- What a fence puts behind a sheet's accesses: later stores and atomics with a release order, and behind its loads every later
access with an acquire order (R152). -/
def StoreRec.fence (x : StoreRec) (r : SheetRef) (ord : Ord) : StoreRec :=
  let every := ordAcq ord && x.loads
  let mine := (if x.ref = r then [x.lane] else []) ++ (x.passed.filter (·.1 == r)).map (·.2)
  if every || ordRel ord then { x with fenced := mine.map (fun l => (r, l, every)) ++ x.fenced } else x
/-- An sc fence takes its place in the total order of its scope instance: what precedes an earlier one there precedes what
follows it (R155). -/
def State.scFence (s : State) (e : Env) (scope : Scope) : State :=
  let earlier : Sync → Bool
    | .fence sc c r => sc == scope.code && sameScope sc r 127 e.r 127 c e.q.core
    | _ => false
  (s.acqMark e.r 127 earlier).relMark e.r 127 (.fence scope.code e.q.core e.r)
/-- R155, R167: later accesses wait until the sheet's earlier ones have their place; R159 and R230 hold a release. -/
def execFence (w : FM) (s : State) : Out :=
  issue {} s fun e =>
    if s.ordHeld e w.ord w.scope || s.vatPending e.r (fun _ => true) then .wait s (.issue 15)
    else
      let s := { s with stores := s.stores.map fun x => x.fence e.r w.ord }
      .done (if w.ord = .sc then s.scFence e w.scope else s)
/-- Dies whose walkers lie in a scope around a core (R168). -/
def walkerDies (scope core : Nat) : List Nat := if scope ≤ 5 then [dieOf core] else [0, 1, 2, 3]
/-- R168: a store that is merged into another sheet's operation is waited for too. -/
def execFenceTr (w : FM) (s : State) : Out :=
  issue {} s fun e =>
    if s.vats.any fun v => (v.2.input ++ v.2.queue).any fun o =>
        (o.ref == some e.r && o.eng.isEmpty) || o.keys.any (·.ref == e.r) then
      .wait s (.issue 15)
    else
      .done { s with stores := s.stores.map fun x =>
        if x.ref = e.r then { x with dies := walkerDies w.scope.code e.q.core ++ x.dies } else x }

end Sys2Proof.Machine
end

