-- ==== Sys2Proof/Machine/Table.lean ====
section
/-! DEFINITION. The deckle table (R219-R224): operators, relations and combiners on values, and the validation of an
image. -/

namespace Sys2Proof.Machine

/-- A byte of a table image. -/
def imgB (img : List Byte) (i : Nat) : Nat := ((img[i]?).getD 0).toNat
/-- KIND and TYPE of an operator slot (R220). -/
def slotKind (img : List Byte) (n : Nat) : Nat := imgB img (16 * n)
def slotType (img : List Byte) (n : Nat) : Nat := imgB img (16 * n + 1)
def slotPresent (img : List Byte) (n : Nat) : Bool := slotKind img n != 0xFF
/-- FLAGS ID and IDENT (R220). -/
def slotId (img : List Byte) (n : Nat) : Bool := imgB img (16 * n + 2) % 2 == 1
def slotIdent (img : List Byte) (n : Nat) : DWord := BitVec.ofNat 64 (leNat ((img.drop (16 * n + 4)).take 8))
/-- Types 2 and 3 are 64-bit (R219). -/
def ty64 (t : Nat) : Bool := t == 2 || t == 3
/-- Relation entry for (a, b) (R221). -/
def relEntry (img : List Byte) (a b : Nat) : Nat := imgB img (256 + 2 * (16 * a + b)) + 256 * imgB img (257 + 2 * (16 * a + b))
def entRel (e : Nat) : Nat := e % 16
def entComb (e : Nat) : Nat := e / 16 % 16
def entCslot (e : Nat) : Nat := e / 256 % 16
def entRt (e : Nat) : Bool := e / 4096 % 2 == 1
def entCp (e : Nat) : Bool := e / 8192 % 2 == 1

/-- Types that a KIND accepts (R219). -/
def kindTypes (k : Nat) : List Nat :=
  match k with
  | 0 | 1 | 14 => [0, 1, 2, 3, 4, 5]
  | 2 | 7 | 8 | 9 => [0, 1, 2, 3]
  | 3 | 4 => [0, 2]
  | 5 | 6 => [1, 3]
  | 10 | 11 | 12 => [4]
  | 13 => [5]
  | _ => []
/-- Types that a combiner accepts (R222). -/
def combTypes (c : Nat) : List Nat :=
  match c with
  | 1 | 4 | 5 | 6 => [0, 1, 2, 3]
  | 2 | 3 => [0, 1, 2, 3, 4]
  | 7 | 8 => [0, 1, 2, 3, 4, 5]
  | 9 => [4, 5]
  | _ => []

/-- rne of a BF16 pair sum (R219). -/
def bfAdd2 (a b : DWord) : DWord := (halves bf16 .rne false (fun x y _ => FV.add .rne x y) a b 0).1
/-- New word value of an operator (R219): `w` the old value, `x` the operand. -/
def opValue (kind ty : Nat) (w x : DWord) : DWord :=
  let cut := fun (v : DWord) => if ty64 ty then v else (loWord v).setWidth 64
  let int := fun (v : DWord) => if ty64 ty then v.toInt else (loWord v).toInt
  let nat := fun (v : DWord) => if ty64 ty then v.toNat else (loWord v).toNat
  cut <| match kind with
  | 0 => w
  | 1 => x
  | 2 => w + x
  | 3 => if int w < int x then x else w
  | 4 => if int x < int w then x else w
  | 5 => if nat w < nat x then x else w
  | 6 => if nat x < nat w then x else w
  | 7 => w &&& x
  | 8 => w ||| x
  | 9 => w ^^^ x
  | 10 => (rneAdd (loWord w) (loWord x)).setWidth 64
  | 11 => (minMax32 false false (loWord w) (loWord x)).setWidth 64
  | 12 => (minMax32 true false (loWord w) (loWord x)).setWidth 64
  | 13 => bfAdd2 w x
  | _ => x
/-- comb(x, y) (R222). -/
def combValue (c ty : Nat) (x y : DWord) : DWord :=
  match c with
  | 1 => opValue 2 ty x y
  | 2 => opValue (if ty = 4 then 11 else if ty % 2 = 0 then 3 else 5) ty x y
  | 3 => opValue (if ty = 4 then 12 else if ty % 2 = 0 then 4 else 6) ty x y
  | 4 => opValue 7 ty x y
  | 5 => opValue 8 ty x y
  | 6 => opValue 9 ty x y
  | 7 => x
  | 8 => y
  | _ => opValue (if ty = 4 then 10 else 13) ty x y
/-- x + y = 0 as real numbers, for values of a format (R222). -/
def realSumZero (f : Fmt) (x y : Nat) : Bool :=
  match f.decode x, f.decode y with
  | .fin s n e, .fin t m g => (n == 0 && m == 0) || (s != t && n * 2 ^ (e - min e g).toNat == m * 2 ^ (g - min e g).toNat)
  | _, _ => false
/-- The cancel predicate CP (R221, R222). -/
def cancels (cp : Bool) (ty : Nat) (x y : DWord) : Bool :=
  let a := if ty64 ty then x.toNat else (loWord x).toNat
  let b := if ty64 ty then y.toNat else (loWord y).toNat
  if !cp then a == b
  else if ty < 4 then (a + b) % 2 ^ (if ty64 ty then 64 else 32) == 0
  else if ty = 4 then realSumZero fp32 a b
  else realSumZero bf16 (a % 65536) (b % 65536) && realSumZero bf16 (a / 65536) (b / 65536)

/-- The slot that an `atom` of a KIND and size takes (R224). -/
def atomSlot (img : List Byte) (kind : Nat) (w64 : Bool) : Option Nat :=
  let k := [2, 4, 3, 6, 5, 7, 8, 9, 14, 10, 12, 11][kind]?.getD 0xFF
  let tys := if 9 ≤ kind then [4] else if w64 then [2, 3] else if kind = 8 then [0, 1, 4, 5] else [0, 1]
  (List.range 16).find? fun n => slotPresent img n && slotKind img n == k && tys.contains (slotType img n)

/-! ### Validation (R223) -/

/-- Pairs (a, b) with their entries. -/
def relPairs (img : List Byte) : List (Nat × Nat × Nat) :=
  (List.range 256).map fun i => (i / 16, i % 16, relEntry img (i / 16) (i % 16))
/-- Offsets of an entry's low byte. -/
def entOff (a b : Nat) : Nat := 256 + 2 * (16 * a + b)
/-- FADD or BFADD2 (R223 row 7). -/
def slotFp (img : List Byte) (n : Nat) : Bool := slotKind img n == 10 || slotKind img n == 13
/-- Bytes that fail a row of R223. Of an entry's two bytes R223 does not say which one fails rows 4 to 8; the model takes the
low byte for REL and COMB and for rows 5 and 8, and the high byte for CSLOT, CP and RT. Nor does it say whether a COMPOSE into slot 0,
CSLOT = 0, is a slot 0 in a relation of row 8; the model tests a and b alone (DESIGN CHOICE, log 42). -/
def rowFails (img : List Byte) (row : Nat) : List Nat :=
  let slots := List.range 16
  let ps := relPairs img
  let at' := fun (p : Nat → Nat → Nat → Option Nat) => ps.filterMap fun x => (p x.1 x.2.1 x.2.2).map fun d => entOff x.1 x.2.1 + d
  match row with
  | 1 => (if slotKind img 0 = 0 then [] else [0]) ++ (if slotKind img 1 = 1 then [] else [16])
  | 2 => slots.filterMap fun n =>
      if !slotPresent img n then none
      else if 14 < slotKind img n then some (16 * n)
      else if !(kindTypes (slotKind img n)).contains (slotType img n) then some (16 * n + 1) else none
  | 3 =>
    (slots.flatMap fun n =>
      if !slotPresent img n then ((List.range 15).map fun i => 16 * n + i + 1).filter fun i => imgB img i != 0
      else
        (if imgB img (16 * n + 2) < 2 then [] else [16 * n + 2]) ++
        (([3] ++ (if ty64 (slotType img n) then [] else [8, 9, 10, 11]) ++ [12, 13, 14, 15]).map (16 * n + ·)).filter
          fun i => imgB img i != 0) ++
    (at' fun _ _ e => if e < 2 ^ 14 then none else some 1) ++
    ((List.range 256).map (768 + ·)).filter fun i => imgB img i != 0
  | 4 => at' fun a b e =>
      if 5 < entRel e ∨ 9 < entComb e then some 0
      else if e ≠ 0 ∧ (slotPresent img a && slotPresent img b) = false then some (if e % 256 = 0 then 1 else 0) else none
  | 5 => at' fun a b e => if entRel e = 1 ∧ entRel (relEntry img b a) ≠ 1 then some 0 else none
  | 6 => at' fun a _ e =>
      if (entRel e = 2 ∧ entComb e = 0) ∨ (entComb e ≠ 0 ∧ entRel e ≠ 2) ∨
          (entComb e ≠ 0 ∧ (combTypes (entComb e)).contains (slotType img a) = false) then some 0
      else if (entRel e = 2 ∧ (!slotPresent img (entCslot e) || slotType img (entCslot e) != slotType img a) = true) ∨
          (entCp e = true ∧ entRel e ≠ 5) then some 1
      else none
  | 7 => at' fun a b e =>
      if entRel e ≠ 0 ∧ entRt e = false ∧
          (slotFp img a || slotFp img b || slotFp img (entCslot e)) = true then some 1 else none
  | _ => at' fun a b e =>
      if (1 < entRel e ∧ (a = 0 ∨ b = 0)) ∨ (entRel e ≠ 0 ∧ ty64 (slotType img a) ≠ ty64 (slotType img b)) then some 0
      else none
/-- The first row of R223 that fails, with the lowest byte that fails it. -/
def tableFault (img : List Byte) : Option (Nat × Nat) :=
  [1, 2, 3, 4, 5, 6, 7, 8].findSome? fun r => (rowFails img r).min?.map fun o => (r, o)

end Sys2Proof.Machine
end

