-- ==== Sys2Proof/Machine/Vat.lean ====
section
/-! DEFINITION. The vats (R217-R233, R338, R339, R341) and opcodes 0xB0-0xB4 and 0xB7: acceptance with the steps of
R221, application, triggers, tables, order gates. -/

namespace Sys2Proof.Machine

/-! ### Governing tables (R218, R236) -/

/-- Content of a context's table slot at a vat: of the latest installation that has reached it, else that in force. -/
def State.tableAt (s : State) (ch ctx slot : Nat) : Option (List Byte) :=
  match (s.installs.filter fun i => i.ctx == ctx && i.slot == slot && i.done.contains ch).getLast? with
  | some i => i.image
  | none => (s.ctx ctx).tables.find slot
/-- Contents that a table slot has had at a vat. -/
def State.epochAt (s : State) (ch ctx slot : Nat) : Nat :=
  ((s.ctx ctx).loads.get 0 slot).toNat +
    (s.installs.filter fun i => i.ctx == ctx && i.slot == slot && i.done.contains ch).length

/-! ### Operations as operators (R224) -/

/-- Slot of an operation, when it has one and a step may involve it (R218, R224). -/
def VOp.slotNo (o : VOp) : Option Nat :=
  match o.act with
  | .slot n _ _ _ => some n
  | .load => some 0
  | .store _ => some 1
  | .atom _ _ n => n
  | _ => none
/-- Operand of an operation. -/
def VOp.operand (o : VOp) : DWord :=
  match o.act with
  | .slot _ _ _ x | .store x | .atom _ x _ => x
  | _ => 0
/-- An operation with return, or a LOAD: one of a slot of KIND LOAD too (R220, R226). -/
def VOp.returns (o : VOp) : Bool :=
  o.ret.isSome || match o.act with
  | .load | .subLoad _ _ => true
  | .slot _ k _ _ => k == 0
  | .store _ | .subStore _ _ _ | .atom _ _ _ | .cas _ _ | .arm _ _ | .disarm => false
/-- An operation as it is accepted under a content (R218, R224): slots take the content's operators. Of a post whose slot the
content at its acceptance lacks, or gives another width, the manual says nothing: the model keeps the operator of its issue
where the slot, or the table, is gone, and takes the new one where it is there (DESIGN CHOICE, log 42). -/
def VOp.resolve (o : VOp) (img : Option (List Byte)) : VOp :=
  match img, o.act with
  | some t, .slot n k ty x =>
    if slotPresent t n then { o with act := .slot n (slotKind t n) (slotType t n) x } else { o with act := .slot n k ty x }
  | some t, .atom k x _ => { o with act := .atom k x (atomSlot t k o.w64) }
  | none, .atom k x _ => { o with act := .atom k x none }
  | _, _ => o
/-- Two operations address overlapping bytes of one aligned 64-bit unit. -/
def VOp.meets (a b : VOp) : Bool := a.word / 8 == b.word / 8 && (a.w64 || b.w64 || a.word == b.word)
/-- One happens before the other (R154, R226). -/
def VOp.ordered (a b : VOp) : Bool := a.keys.any b.prior.contains || b.keys.any a.prior.contains
/-- An operation that a step may involve (R218, R221, R226, R339). -/
def VOp.free (o : VOp) : Bool := o.ord == .rlx && !o.gated && o.slotNo.isSome
/-- Two operations merged (R221): the parts of both count in R226. -/
def VOp.merge (a b : VOp) (act : VAct) : VOp :=
  { a with act, post := a.post || b.post, keys := a.keys ++ b.keys, prior := a.prior ++ b.prior, eng := a.eng ++ b.eng }
/-- The TYPE by which a combiner or operator takes operands of a width: a STORE may have another width than its slot's TYPE,
of which R222 gives no result; the model takes the operation's width (log 12). -/
def opType (ty : Nat) (w64 : Bool) : Nat := if ty < 4 then ty % 2 + (if w64 then 2 else 0) else ty

/-! ### Steps (R221, R226) -/

/-- What one relation step makes of a(x), b(y), adjacent in a word's sequence; none where the step is not permitted. -/
def relStep (img : List Byte) (a b : VOp) : Option (List VOp) :=
  match a.slotNo, b.slotNo with
  | some n, some m =>
    let e := relEntry img n m
    let merges := !a.returns && !b.returns
    let wide := a.w64 && 4 ≤ slotType img n
    if !(slotPresent img n && slotPresent img m) || !a.free || !b.free then none
    else
      match entRel e with
      | 1 => if (a.returns || b.returns) && a.ordered b then none else some [b, a]
      | 2 =>
        let c := entCslot e
        if merges && !wide then
          some [a.merge b (.slot c (slotKind img c) (opType (slotType img c) a.w64)
            (combValue (entComb e) (opType (slotType img n) a.w64) a.operand b.operand))]
        else none
      | 3 => if merges then some [a.merge b a.act] else none
      | 4 => if merges then some [b.merge a b.act] else none
      | 5 => if merges && !wide && cancels (entCp e) (opType (slotType img n) a.w64) a.operand b.operand then some [] else none
      | _ => none
  | _, _ => none
/-- The queue with places `i` and `j` taken by what a step makes of their operations. -/
def putStep (q : List VOp) (i j : Nat) (r : List VOp) : List VOp :=
  match r with
  | [x, y] => (q.set i x).set j y
  | [x] => (q.set i x).eraseIdx j
  | _ => (q.eraseIdx j).eraseIdx i
/-- The content that governs an operation, when it is the one it was accepted under (R236). -/
def State.governs (s : State) (ch : Nat) (o : VOp) : Option (List Byte) :=
  if s.epochAt ch o.ctx o.tab = o.epoch then s.tableAt ch o.ctx o.tab else none
/-- One step on a queue; a step that is not permitted leaves it (R221). -/
def State.vatStep (s : State) (ch : Nat) (q : List VOp) (st : VatStep) : List VOp :=
  match st with
  | .relation i =>
    match q[i]? with
    | none => q
    | some a =>
      match ((List.range q.length).filter fun j => i < j).find? fun j => (q[j]?).any a.meets with
      | none => q
      | some j =>
        match q[j]?, s.governs ch a with
        | some b, some img =>
          if a.word = b.word ∧ a.w64 = b.w64 ∧ a.ctx = b.ctx ∧ a.tab = b.tab ∧ a.epoch = b.epoch then
            match relStep img a b with
            | some r => putStep q i j r
            | none => q
          else q
        | _, _ => q
  | .drop i =>
    match q[i]? with
    | none => q
    | some a =>
      match a.slotNo, s.governs ch a with
      | some n, some img =>
        let same := if ty64 (slotType img n) then a.operand == slotIdent img n else loWord a.operand == loWord (slotIdent img n)
        if a.free && !a.returns && slotPresent img n && slotId img n && same then q.eraseIdx i else q
      | _, _ => q

/-! ### The log and the gates (R338, R341) -/

/-- Issuer as the log names it: slot and QID; another module is slot 0, QID 0xFFFFFFFF. -/
def State.issuerName (s : State) (r : Option SheetRef) : Nat × Word :=
  match r with
  | some r => (r.k, (s.quires.find r.h).elim 0xFFFFFFFF (·.qid))
  | none => (0, 0xFFFFFFFF)
/-- An acceptance on a designated word is logged: a run grows in place, or a new entry begins (R338). -/
def State.logAccept (s : State) (ch : Nat) (o : VOp) : State :=
  match (s.ctx o.ctx).dbg (·.record) with
  | none => s
  | some d =>
    if !o.gated then s
    else
      let (slot, qid) := s.issuerName o.ref
      let grow := match (s.vat ch).run, (s.ctx o.ctx).streams.find ch with
        | some (c, r, n), some p => if c = o.ctx ∧ r = o.ref ∧ n < 4095 then some (n, p) else none
        | _, _ => none
      match grow with
      | some (n, p) =>
        if s.logFull d then s
        else
          (s.postNat (d.logbase + p - 8) 8 (runEntry ch slot qid (n + 1)).toNat).modVat ch fun v =>
            { v with run := some (o.ctx, o.ref, n + 1) }
      | none =>
        (s.logDword o.ctx d ch (runEntry ch slot qid 1)).modVat ch fun v => { v with run := some (o.ctx, o.ref, 1) }

/-- What the gate of a context at a vat makes of an operation (R341): none while another issuer's entry is at the head;
else the state with one count used, or with the gate open because the log is exhausted. -/
def State.gatePass (s : State) (ch : Nat) (o : VOp) : Option State :=
  match (s.ctx o.ctx).dbg (·.replay) with
  | none => some s
  | some d =>
    let g := (s.vat ch).gate o.ctx s.reft
    if !o.gated || g.opened then some s
    else
      match (s.logRuns d ch)[g.pos]? with
      | none => some ((s.modVat ch fun v => v.putGate { g with opened := true }).diverge o.ctx)
      | some e =>
        let (slot, qid) := s.issuerName o.ref
        if (e.extractLsb' 44 4).toNat = slot ∧ e.extractLsb' 12 32 = qid then
          let used := g.used + 1
          let run := (e.extractLsb' 0 12).toNat
          some (s.modVat ch fun v => v.putGate
            (if run ≤ used then { g with pos := g.pos + 1, used := 0, since := some s.reft }
             else { g with used, since := some s.reft }))
        else none

/-! ### Acceptance (R225) -/

/-- A post of a sheet, not of one of its engines' operations, has been accepted: sheets that wait for it go on (R225, R230, R241). -/
def State.postAccepted (s : State) (o : VOp) : State :=
  match o.ref with
  | some r =>
    if !o.post || !o.eng.isEmpty then s
    else s.modSheet r fun sh =>
      let sh := { sh with posts := sh.posts - 1 }
      if sh.wait = .vdrain ∧ sh.posts = 0 then { sh with wait := .none } else sh
  | none => s
/-- An operation that arrives at a vat, as it is accepted there: under the content of that moment (R236). -/
def State.arrive' (s : State) (ch : Nat) (o : VOp) : VOp :=
  { o.resolve (s.tableAt ch o.ctx o.tab) with epoch := s.epochAt ch o.ctx o.tab }
/-- An operation of the input that may be accepted before the earlier ones: none of its issuer's, a sheet or an engine's operation,
to overlapping bytes stands before it (R150, R226), none that happens before it (R154, R226), and strands of one word keep their
order (R238). -/
def firstOf (input : List VOp) (i : Nat) (o : VOp) : Bool :=
  (input.take i).all fun x =>
    !(x.meets o && (x.keys.any o.prior.contains || (x.ref == o.ref && x.eng == o.eng &&
      (x.lane == o.lane || x.lane == 127 || o.lane == 127 || x.issued == o.issued))))

/-- An operation that has found the queue full waits behind those that have before it, and is counted (R225). -/
def Vat.turnAway (v : Vat) (pick : Nat) (o : VOp) : Vat :=
  { v with input := v.input.filter (·.late) ++ { o with late := true } :: (v.input.eraseIdx pick).filter (!·.late),
           full := v.full + 1 }
/-- An operation that waits has its turn (R225): each that waits before it is held at an order gate (R341). -/
def State.turnOf (s : State) (ch pick : Nat) : Bool :=
  ((s.vat ch).input.take pick).all fun x => !x.late || (s.gatePass ch x).isNone
/-- Records of operations that steps have removed are of no more use. -/
def State.sweep (s : State) : State :=
  { s with stores := s.stores.filter fun x => x.op.all fun k =>
      s.vats.any fun v => (v.2.input ++ v.2.queue).any fun o => o.keys.contains k }
/-- VAT_ACCEPT: the vat of a channel accepts an operation of its input, then takes steps on its queue; with the queue full
the operation waits, and those that wait have their turn in order (R225). -/
def execVatAccept (ch pick : Nat) (steps : List VatStep) (s : State) : Out :=
  .next <|
    let v := s.vat ch
    match v.input[pick]? with
    | none => s
    | some o =>
      if firstOf v.input pick o = false then s
      else if 64 ≤ v.queue.length then if o.late then s else s.modVat ch fun v => v.turnAway pick o
      else if o.late && !s.turnOf ch pick then s
      else
        match s.gatePass ch o with
        | none => s
        | some s =>
          let o' := s.arrive' ch o
          let s := (s.logAccept ch o).modVat ch fun v =>
            { v with input := v.input.eraseIdx pick, queue := v.queue ++ [o'] }
          let s := s.modVat ch fun v => { v with queue := steps.foldl (s.vatStep ch) v.queue }
          (s.sweep.postAccepted o).retryAll

/-! ### Application (R219, R226, R231-R233, R235) -/

/-- Bytes of a vat word. -/
def VOp.width (o : VOp) : Nat := if o.w64 then 8 else 4
/-- Bytes `[off, off + len)` of a word replaced. -/
def mergeBytes (old x : DWord) (off len : Nat) : DWord :=
  let m : DWord := (BitVec.ofNat 64 (2 ^ (8 * len) - 1)) <<< (8 * off)
  (old &&& ~~~m) ||| ((x <<< (8 * off)) &&& m)
/-- The new value of a word, or none where the operation writes nothing (R219). -/
def VOp.newValue (o : VOp) (old : DWord) : Option DWord :=
  match o.act with
  | .slot _ k ty x => if k = 0 then none else some (opValue k ty old x)
  | .load | .subLoad _ _ | .arm _ _ | .disarm => none
  | .store x => some x
  | .atom k x _ => some (atomFn k o.w64 old x)
  | .cas a b => if old = a then some b else none
  | .subStore off len x => some (mergeBytes old x off len)
/-- What the operation returns from the word's value. -/
def VOp.result (o : VOp) (old : DWord) : DWord :=
  match o.act with
  | .subLoad off len => (old >>> (8 * off)) &&& BitVec.ofNat 64 (2 ^ (8 * len) - 1)
  | _ => old
/-- A result goes to the long-latency word that waits for it (R225), or to the engine's operation that has asked for it (R147). -/
def State.vatReturn (s : State) (o : VOp) (x : DWord) : State :=
  match o.ret with
  | none =>
    if o.eng.isEmpty then s
    else
      { s with grabs := s.grabs.map fun g =>
          if o.act == .load && o.eng.contains g.who && g.va == o.va && g.val.isNone then { g with val := some (loWord x) } else g }
  | some t => s.modSheet t.ref fun sh => sh.llGive t.ll (t.keys.zip [loWord x, hiWord x])

/-- Bytes of an armed word are all 0. -/
def State.armedZero (s : State) (t : Trigger) : Bool := (s.readNat t.word (if t.w64 then 8 else 4)) == 0
/-- Two vat words share bytes. -/
def wordsMeet (a : Nat) (a64 : Bool) (b : Nat) (b64 : Bool) : Bool := a / 8 == b / 8 && (a64 || b64 || a == b)
/-- What has been applied to a trigger's word before it fires, and what releases among it published, precedes the task
(R232). -/
def State.fireMark (s : State) (t : Trigger) : State :=
  let on (x : StoreRec) : Bool :=
    (x.op.isNone && x.pa < t.word + (if t.w64 then 8 else 4) && t.word < x.pa + x.old.length) ||
    x.released.any fun y => match y with | .vat w w64 => wordsMeet w w64 t.word t.w64 | _ => false
  { s with stores := s.stores.map fun x => if on x then { x with released := .spawn (originTrigger t.va) :: x.released } else x }
/-- Triggers whose bytes a write has left 0 fire (R232). -/
def State.fire (s : State) (ch : Nat) (o : VOp) : State :=
  let hit (t : Trigger) : Bool := wordsMeet t.word t.w64 o.word o.w64 && !t.fired && s.armedZero t
  ((s.vat ch).triggers.filter hit).foldl State.fireMark <|
    s.modVat ch fun v => { v with triggers := v.triggers.map fun t => if hit t then { t with fired := true } else t }
/-- `arm` at its position: the first condition of R231 that holds, and the trigger. -/
def State.armAt (s : State) (ch : Nat) (o : VOp) (entry : DWord) (arg : Word) : State × Nat :=
  let v := s.vat ch
  if v.triggers.any fun t => t.word == o.word && t.w64 == o.w64 && !t.fired then (s, 1)
  else if 16 ≤ v.triggers.length then (s, 2)
  else if s.readNat o.word o.width = 0 then (s, 3)
  else
    let (name, s) := s.fresh
    (s.modVat ch fun v => { v with triggers := v.triggers ++
      [{ word := o.word, w64 := o.w64, ctx := o.ctx, entry, arg, va := o.va, fired := false, name }] }, 0)

/-- An operation applied synchronises as an acquire of its word (R153, R218, R242). -/
def State.opAcq (s : State) (o : VOp) : State :=
  match o.ref with
  | some r =>
    if o.acquires then
      s.acqMark r o.lane (Sync.reads o.word o.width o.scope.code r o.lane ((s.quires.find r.h).elim 0 (·.core)))
    else s
  | none => s
/-- A value that an operation leaves cuts a chain of R242: one of STORE, part of a word too (R218), or XCHG. -/
def VOp.cuts (o : VOp) : Bool :=
  match o.act with
  | .store _ | .subStore _ _ _ => true
  | .slot _ k _ _ => k == 1 || k == 14
  | _ => false
/-- What an operation that cuts a chain leaves of a release: of one at a vat the bytes beside its word (R242), of another those
beside its own bytes. -/
def VOp.cut (o : VOp) (y : Sync) : List Sync :=
  match y with
  | .word _ _ _ _ _ _ _ _ => y.cut o.word o.width
  | _ => y.cut o.range.1 o.range.2
/-- What becomes of a release whose operation has been applied: with a write, or for an `arm`, it has its place in the order
of the word (R232, R242). -/
def VOp.landed (o : VOp) (wrote : Bool) : Sync → List Sync
  | .sent k core =>
    if !o.keys.contains k then [.sent k core]
    else
      (if wrote || !ordRel o.ord then [.vat o.word o.w64] else []) ++
      (if wrote then [.word o.word o.width o.word (o.word + o.width) o.scope.code core k.ref k.lane] else [])
  | y => [y]
/-- An operation has been applied, over some bytes when it wrote: its records are those of stores, or go, and other agents'
writes are seen at once (R85, R154). -/
def State.opDone (s : State) (o : VOp) (wrote : Option (List Byte × List Byte)) : State :=
  let mine := fun (x : StoreRec) => x.op.any o.keys.contains
  let xs := s.stores.map fun x => { x with released := x.released.flatMap (o.landed wrote.isSome) }
  let made := match wrote with
    | some (old, _) => (xs.filter mine).map fun x => { x with op := none, pa := o.word, len := o.width, old }
    | none => []
  let xs := xs.filter (!mine ·) ++ made
  { s with stores := match wrote with
      | some (_, new) => if o.keys.isEmpty then xs.map fun x => x.reveal o.word new else xs
      | none => xs }
/-- The bytes that an operation leaves, written (R219), and what it fires. -/
def State.opWrite (s : State) (ch : Nat) (o : VOp) (x : DWord) : State :=
  let old := s.readBytes o.word o.width
  let new := leBytes o.width x.toNat
  let s := if o.cuts then { s with stores := s.stores.map fun x => { x with released := x.released.flatMap o.cut } } else s
  (((s.writeBytes o.word new).opDone o (some (old, new))).fire ch o)
/-- One operation applied to its word: the result returned, the word written, triggers fired. An uncorrectable error in
the word stops the quire of an operation that reads it, and discards a post or a near-memory update (R235); an engine that reads
it meets the error itself (R175). -/
def State.applyOp (s : State) (ch : Nat) (o : VOp) : State :=
  if s.ue o.word o.width && ((o.returns && o.eng.isEmpty) || o.post) then
    let s := s.opDone o none
    match o.ret with
    | some t => s.ueStop t.ref.h o.word ((s.sheet? t.ref).elim 0 (·.pc))
    | none => s.ueReport (s.ctx o.ctx).part o.word
  else
    let s := s.opAcq o
    let old := BitVec.ofNat 64 (s.readNat o.word o.width)
    match o.act with
    | .arm entry arg =>
      let (s, st) := s.armAt ch o entry arg
      (s.opDone o none).vatReturn o (BitVec.ofNat 64 st)
    | .disarm =>
      (s.opDone o none).modVat ch fun v => { v with triggers := v.triggers.filter fun t =>
        !(t.word == o.word && t.w64 == o.w64 && !t.fired) }
    | _ =>
      let s := s.vatReturn o (o.result old)
      match o.newValue old with
      | none => s.opDone o none
      | some x => s.opWrite ch o x

/-- VAT_APPLY: the operation at the head of a vat's queue is applied (R225); a re-key of its page holds it (R359). -/
def execVatApply (ch : Nat) (s : State) : Out :=
  .next <|
    match (s.vat ch).queue with
    | [] => s
    | o :: _ =>
      let writes := match o.act with | .load | .subLoad _ _ | .arm _ _ | .disarm => [] | _ => [o.word]
      match s.keyGate (.vat ch) [o.word] writes with
      | (s, false) => s
      | (s, true) => ((s.modVat ch fun v => { v with queue := v.queue.tail }).applyOp ch o).retryAll

/-! ### Engines' operations on algebra words (R147, R225, R226, R341) -/

/-- Operations that happen before an engine's operation and that no vat has applied yet (R154, R157). -/
def State.engPrior (s : State) (who : Who) : List OpKey :=
  s.stores.filterMap fun x =>
    if (match who with
      | .op id => x.released.contains (.eng id)
      | .sheet r => x.behind r 127
      | _ => false) then x.op else none
/-- An engine's operation on an algebra word of a context, for an issuing sheet or another module. -/
def State.engineOp (s : State) (who : Who) (ctx : Nat) (r : Option SheetRef) (va : DWord) (pa : Nat) (leaf : DWord) (act : VAct) :
    VOp :=
  let va := va - BitVec.ofNat 64 (pa % 4)
  { ref := r, lane := 127, word := pa / 4 * 4, w64 := false, act, ord := .rlx, scope := .device, ctx, tab := leafDTS leaf,
    va, ret := none, post := false,
    gated := ((s.ctx ctx).dbg fun d => d.record || d.replay).any fun d => d.designated va, epoch := 0, issued := s.now,
    keys := [], prior := s.engPrior who, eng := [who] }
/-- An engine's operation accepted and applied in one step, with the operations queued ahead of it (log 13): none where its vat's
queue is full or an operation of its input has found it so (R225), where the order gate of its context takes another first (R341),
and where one of its own stands before it. -/
def State.vatNow (s : State) (o : VOp) : Option State :=
  let ch := s.channel o.word
  let v := s.vat ch
  if 64 ≤ v.queue.length || v.input.any (·.late) || !firstOf (v.input ++ [o]) v.input.length o then none
  else
    (s.gatePass ch o).map fun s =>
      let o' := s.arrive' ch o
      let ahead := (s.vat ch).queue.filter fun x => x.word / 8 == o.word / 8
      let s := (s.logAccept ch o).modVat ch fun v => { v with queue := v.queue.filter fun x => x.word / 8 != o.word / 8 }
      (ahead ++ [o']).foldl (fun s x => s.applyOp ch x) s
/-- An engine's operation stands in the input of its vat, which counts it when the queue is full (R225); the order gate of its
context is there from then on (R341). -/
def State.engSend (s : State) (o : VOp) : State :=
  s.modVat (s.channel o.word) fun v =>
    let v := if o.gated then v.putGate (v.gate o.ctx s.reft) else v
    let w := { v with input := v.input ++ [o] }
    if 64 ≤ v.queue.length && firstOf w.input v.input.length o then w.turnAway v.input.length o else w
/-- An engine's operation goes to its vat (R147). -/
def State.engOp (s : State) (o : VOp) : State := (s.vatNow o).getD (s.engSend o)
/-- Some operation of an engine's has not been applied at its vat yet, merged with others or not. -/
def State.engSent (s : State) (who : Who) : Bool := s.vats.any fun v => (v.2.input ++ v.2.queue).any fun o => o.eng.contains who
/-- An engine's operation is over, or starts afresh. -/
def State.engDrop (s : State) (who : Who) : State :=
  { s with grabs := s.grabs.filter (·.who != who), fins := s.fins.filter (·.who != who) }
/-- LOADs of the algebra words that a read touches, each once, in order (R147), and whether all of them have been answered. -/
def State.algLoads (s : State) (who : Who) (ctx : Nat) (r : Option SheetRef) (xs : List (DWord × Nat × DWord)) : State × Bool :=
  let ws := ((xs.filter fun x => leafALG x.2.2).map fun x => (x.1 - BitVec.ofNat 64 (x.2.1 % 4), x.2.1 / 4 * 4, x.2.2)).eraseDups
  let s := ws.foldl (fun s x =>
    if s.grabs.any fun g => g.who == who && g.va == x.1 then s
    else
      let t : State := { s with grabs := s.grabs ++ [{ who, va := x.1, val := none }] }
      t.engOp (t.engineOp who ctx r x.1 x.2.1 x.2.2 .load)) s
  (s, ws.all fun x => s.grabs.any fun g => g.who == who && g.va == x.1 && g.val.isSome)
/-- A byte as an engine's operation reads it: of an algebra word in the value that its vat has answered (R147). -/
def State.engRead (s : State) (who : Who) (va : DWord) (pa : Nat) (leaf : DWord) : Byte :=
  if leafALG leaf then
    match (s.grabs.find? fun g => g.who == who && g.va == va - BitVec.ofNat 64 (pa % 4)).bind (·.val) with
    | some w => byteOf (w.setWidth 64) (pa % 4)
    | none => s.readByte pa
  else s.readByte pa
/-- A byte of an engine's traffic: virtual and physical address, leaf, value. -/
structure EngByte where
  va   : DWord
  pa   : Nat
  leaf : DWord
  b    : Byte
  deriving DecidableEq, Repr
/-- Consecutive bytes of one aligned unit (4 on algebra pages, 64 elsewhere), grouped. -/
def engRuns : List EngByte → List (List EngByte)
  | [] => []
  | x :: t =>
    match engRuns t with
    | (y :: r) :: rs =>
      let u := if leafALG x.leaf then 4 else 64
      if y.pa = x.pa + 1 ∧ x.pa / u = y.pa / u ∧ x.leaf = y.leaf then (x :: y :: r) :: rs else [x] :: (y :: r) :: rs
    | rs => [x] :: rs
/-- Bytes that an engine writes: plain memory at once, algebra words as STOREs at their vats (R147, R218). -/
def State.engWrite (s : State) (who : Who) (ctx : Nat) (r : Option SheetRef) (xs : List EngByte) : State :=
  (engRuns xs).foldl (fun s run =>
    match run.head? with
    | none => s
    | some x =>
      let bs := run.map (·.b)
      let v : DWord := BitVec.ofNat 64 (leNat bs)
      if leafALG x.leaf then
        s.engOp (s.engineOp who ctx r x.va x.pa x.leaf (if bs.length = 4 then .store v else .subStore (x.pa % 4) bs.length v))
      else s.openWrite x.pa bs) s
/-- An engine's operation that has made its accesses, kept until its vats have applied them. -/
def State.finPut (s : State) (f : Fin) : State := { s with fins := s.fins.filter (·.who != f.who) ++ [f] }
/-- An engine's operation has made its accesses: it ends in `k`, now or once its vats have applied them. -/
def State.engEnd (s : State) (f : Fin) (k : State → Fin → State) : State := if s.engSent f.who then s.finPut f else k s f
/-- A step of an engine's operation: the end of one that has made its accesses, or `go`. -/
def State.engStep (s : State) (who : Who) (k : State → Fin → State) (go : State → State) : State :=
  match s.fins.find? (·.who == who) with
  | some f => if s.engSent who then s else k s f
  | none => go s
/-- An operation that an engine's follows has not been applied at its vat yet, on a byte that the engine accesses past the vat
(R151, R154, R268). -/
def State.engAliased (s : State) (who : Who) (pa : Nat) : Bool :=
  match who with
  | .op id => s.stores.any fun x => x.op.isSome && x.released.contains (.eng id) && overlaps x.pa x.len pa 1
  | _ => false
/-- An engine's accesses to HBM, with their leaves, wait for a re-key like every other (R359), and off algebra pages for what they
follow at a vat: what `k` does once nothing holds them. -/
def State.engGate (s : State) (who : Who) (reads writes : List (Nat × DWord)) (k : State → State) : State :=
  if (reads ++ writes).any fun x => !leafALG x.2 && s.engAliased who x.1 then s
  else
    match s.keyGate who ((reads.map (·.1 / 64 * 64)).eraseDups) ((writes.map (·.1 / 64 * 64)).eraseDups) with
    | (s, false) => s
    | (s, true) => k s
/-- Bytes off any page, as an engine's accesses. -/
def plainPas (pas : List Nat) : List (Nat × DWord) := pas.map fun a => (a, 0)

/-! ### Triggers (R232) -/

/-- Die whose pool takes a fired record (R232): that of the channel's stack, or the lowest on which the context's
partition holds a gallery. -/
def State.triggerDie (s : State) (ch ctx : Nat) : Nat :=
  let p := s.part (s.ctx ctx).part
  let holds := fun d => (List.range 10).any fun g => p.galleries.getLsbD (10 * d + g)
  let d := ch / 64
  if holds d then d else ((List.range 4).find? holds).getD d
/-- The record of a fired trigger (R232). -/
def triggerRec (t : Trigger) : SpawnRec :=
  { spawner := none, qid := 0xFFFFFFFF, a0 := t.arg, a1 := loWord t.va, a2 := (t.va.extractLsb' 32 24).signExtend 32,
    origin := originTrigger t.va }
/-- TRIGGER_RECORD_PLACE: a fired record enters the spawn pool when there is room for it, and frees its entry. -/
def execTriggerRecordPlace (ch index : Nat) (s : State) : Out :=
  .next <|
    match (s.vat ch).triggers[index]? with
    | none => s
    | some t =>
      if !t.fired then s
      else
        match s.poolMove (s.triggerDie ch t.ctx) (.trigger ch t.name) t.ctx t.entry [triggerRec t] with
        | (s, true) => s.modVat ch fun v => { v with triggers := v.triggers.eraseIdx index }
        | (s, false) => s

/-! ### Tables (R236, R237) -/

/-- TABLE_INSTALL: an installation reaches a vat, after the earlier ones of its slot; at all 256 it is in force, counted,
and its sheet goes on. -/
def execTableInstall (id ch : Nat) (s : State) : Out :=
  .next <|
    match s.installs.find? (·.id == id) with
    | none => s
    | some x =>
      let earlier := (s.installs.takeWhile fun y => y.id != id).filter fun y => y.ctx == x.ctx && y.slot == x.slot
      if 256 ≤ ch ∨ x.done.contains ch = true ∨ earlier.any (fun y => !y.done.contains ch) = true then s
      else if x.done.length < 255 then
        { s with installs := s.installs.map fun y => if y.id = id then { y with done := ch :: y.done } else y }
      else
        let s := { s with installs := s.installs.filter (·.id != id) }
        let s := s.modCtx x.ctx fun c =>
          { c with tables := match x.image with | some t => c.tables.put x.slot t | none => c.tables.del x.slot,
                   loads := c.loads.set 0 x.slot (c.loads.get 0 x.slot + 1) }
        s.modSheet x.ref fun sh => if sh.wait = .dkload id then { sh with wait := .none } else sh

/-- A table or no table goes into a slot: the sheet waits until every vat has it (R236). -/
def installEff (e : Env) (s : State) (slot : Nat) (img : Option (List Byte)) : Eff :=
  let (id, s) := s.fresh
  .hold { s with installs := s.installs ++ [{ id, ref := e.r, ctx := e.q.ctx, slot, image := img, done := [] }] } (.dkload id)
/-- The bytes of an image: on an algebra page each word is a relaxed LOAD at its vat (R147, R236). -/
def Hit.image (h : Hit) : List (DWord × Nat × DWord) :=
  (List.range 1024).map fun i => (h.va + BitVec.ofNat 64 i, h.pa + i, h.leaf)
/-- The first byte of a range that has an uncorrectable error. -/
def State.ueIn (s : State) (pa len : Nat) : Option Nat := (List.range len).map (pa + ·) |>.find? fun a => s.ue a 1
/-- What follows of an image that has been read (R223, R236). -/
def imageEff (e : Env) (s : State) (slot : Nat) (a : DWord) (img : List Byte) : Eff :=
  match tableFault img with
  | some (row, off) =>
    .trap s (e.trapAt cDeckleInvalid a (BitVec.ofNat 32 (e.sh.idx + 16 * 127 + 2048 * row + 32768 * off)))
  | none => installEff e s slot (some img)
/-- R236: checks of R162, then validation under R223. The sheet's own operations that no vat has accepted come before the
loads of an image on an algebra page (R150, R152); an uncorrectable error in the image stops the quire (R172). -/
def execDkload (w : FE) (s : State) : Out :=
  issue {} s fun e =>
    let a := e.spair w.sa.toNat
    if s.ordHeld e .rlx .device then .wait s (.issue 15)
    else gcheck e s [(none, a)] 1024 1024 leafR false fun hits =>
      match hits with
      | [h] =>
        if leafALG h.leaf && s.vatPending e.r (fun _ => true) then .wait s (.issue 15)
        else if s.aliased e.r 127 h.pa 1024 then .wait s (.issue 15)
        else
          match s.keyGate (.sheet e.r) (blocksOf h.pa 1024) [] with
          | (s, false) => .wait s (.issue 15)
          | (s, true) =>
            match s.ueIn h.pa 1024 with
            | some pa => .placed (s.ueStop e.r.h pa e.sh.pc)
            | none =>
              if leafALG h.leaf then
                match s.algLoads (.sheet e.r) e.q.ctx (some e.r) h.image with
                | (s, false) => .wait s (.issue 15)
                | (s, true) =>
                  imageEff e (s.engDrop (.sheet e.r)) (w.mod.extractLsb' 0 2).toNat a
                    (h.image.map fun x => s.engRead (.sheet e.r) x.1 x.2.1 x.2.2)
              else imageEff e s (w.mod.extractLsb' 0 2).toNat a (s.readBytes h.pa 1024)
      | _ => .done s
/-- R236. -/
def execDkloadClr (w : FE) (s : State) : Out :=
  issue {} s fun e => installEff e s (w.mod.extractLsb' 0 2).toNat none
/-- R237. -/
def execDkquery (w : FE) (s : State) : Out :=
  issue { ll := some w.com.fs } s fun e =>
    let n := (w.mod.extractLsb' 0 2).toNat
    let lo : Nat := match e.cx.tables.find n with
      | none => 0
      | some t => 1 + ((List.range 16).map fun k => if slotPresent t k then 2 ^ (k + 1) else 0).sum
    let (id, s) := s.fresh
    .done (s.llOpen e w.com.fs id 0
      (outsOf [(.s w.sd.toNat, BitVec.ofNat 32 lo), (.s (w.sd.toNat + 1), e.cx.loads.get 0 n)]) false)

/-! ### Posts and triggers (R225, R238, R239) -/

/-- VAT_PAGE: the page is no algebra page (R238). -/
def pageCheck (e : Env) (s : State) (hits : List Hit) (k : Eff) : Eff :=
  match hits.find? fun h => !leafALG h.leaf with
  | some h => .trap s (e.trap162 cVatPage h.va (laneNo h.lane) 0)
  | none => k
/-- VAT_SLOT for an operation of slot `k` and a width, by reason (R238). -/
def slotFault (e : Env) (k : Nat) (w64 : Bool) (h : Hit) (reason : Nat) : Bool :=
  match e.cx.tables.find (leafDTS h.leaf), reason with
  | none, 0 => true
  | some t, 1 => !slotPresent t k
  | some _, 2 => k == 0
  | some t, 3 => ty64 (slotType t k) != w64
  | _, _ => false
/-- R238. -/
def execPost (w : FMk) (s : State) : Out :=
  issue { vs := mvs w.com w.t w.idx w.size.regs 1 } s fun e =>
    let k := w.kind.toNat
    let w64 : Bool := w.size = .b64
    if s.ordHeld e w.ord w.scope then .wait s (.issue 15)
    else
      gcheck e s (e.gaccs w.com w.base w.idx w.scale w.off.toInt w.size.bytes) w.size.bytes w.size.bytes leafW false fun hits =>
        pageCheck e s hits <|
          match [0, 1, 2, 3].findSome? fun r => (hits.find? fun h => slotFault e k w64 h r).map fun h => (r, h) with
          | some (r, h) => .trap s (e.trap162 cVatSlot h.va (laneNo h.lane) r)
          | none =>
            if 1024 < e.sh.posts + hits.length then .wait s (.issue 13)
            else
              let s := s.modSheet e.r fun sh => { sh with posts := sh.posts + hits.length }
              .done (hits.foldl (fun s h =>
                let t := (e.cx.tables.find (leafDTS h.leaf)).getD []
                s.vatSend (e.vop s h h.pa w64 (.slot k (slotKind t k) (slotType t k) (e.opnd h.lane w.size.regs w.t.toNat))
                  w.ord w.scope none true)) s)

/-- Accesses of `arm` and `disarm` (R239). -/
def armAccs (e : Env) (w : FE) : List Acc :=
  (strandsOf (e.sh.active w.com.gsel w.com.neg)).map fun i =>
    (some i, e.spair w.sa.toNat + (e.w (some i) w.va.toNat).signExtend 64)
/-- R239. -/
def execArm (w : FE) (s : State) : Out :=
  issue { ll := some w.com.fs, vs := [(w.va.toNat, 4)] } s fun e =>
    let w64 := w.mod.getLsbD 0
    let n := if w64 then 8 else 4
    let entry := e.spair w.sb.toNat
    if s.ordHeld e .rel .device then .wait s (.issue 15)
    else gcheck e s (armAccs e w) n n leafW false fun hits =>
      pageCheck e s hits <|
        if ¬canonical entry ∨ entry.extractLsb' 0 3 ≠ 0 then
          .trap s (e.trapAt cIllegalTarget entry (BitVec.ofNat 32 e.sh.idx))
        else
          let (id, s) := s.fresh
          let key := fun (h : Hit) => e.key h.lane (w.va.toNat + 2)
          let s := s.llOpen e w.com.fs id hits.length (hits.map fun h => { key := key h, val := none, raced := false }) false
          .done (hits.foldl (fun s h =>
            s.vatSend (e.vop s h h.pa w64 (.arm entry (e.w h.lane (w.va.toNat + 1))) .rlx .device
              (some { ref := e.r, ll := id, keys := [key h] }) false)) s)
/-- R239. -/
def execDisarm (w : FE) (s : State) : Out :=
  issue { vs := [(w.va.toNat, 4)] } s fun e =>
    let w64 := w.mod.getLsbD 0
    let n := if w64 then 8 else 4
    if s.ordHeld e .rlx .device then .wait s (.issue 15)
    else gcheck e s (armAccs e w) n n leafW false fun hits =>
      pageCheck e s hits <|
        .done (hits.foldl (fun s h => s.vatSend (e.vop s h h.pa w64 .disarm .rlx .device none false)) s)
/-- R241. -/
def execVdrain (_w : FRC) (s : State) : Out :=
  issue {} s fun e => if e.sh.posts = 0 then .done s else .hold s .vdrain

/-- An operation that waits matches the head entry of a context's gate. -/
def State.atHead (s : State) (ch ctx : Nat) : Bool :=
  (s.vat ch).input.any fun o => o.gated && o.ctx == ctx && (s.gatePass ch o).isSome
/-- The log of a gate's context has an entry for it. -/
def State.gateEntry (s : State) (ch : Nat) (g : Gate) : Bool :=
  ((s.ctx g.ctx).dbg (·.replay)).any fun d => ((s.logRuns d ch)[g.pos]?).isSome
/-- GATE_TIMEOUT: no operation has matched a closed gate's head entry for 1,000,000 REFT ticks: it opens, and the context has
diverged (R341). -/
def execGateTimeout (ch : Nat) (s : State) : Out :=
  .next <|
    let v := s.vat ch
    match v.gates.find? fun g =>
        !g.opened && (g.since.any fun t => t + 1000000 ≤ s.reft) && s.gateEntry ch g && !s.atHead ch g.ctx with
    | none => s
    | some g => ((s.modVat ch fun v => v.putGate { g with opened := true }).diverge g.ctx).retryAll

end Sys2Proof.Machine
end

