-- ==== Sys2Proof/Machine/Pool.lean ====
section
/-! DEFINITION. Pools (R173-R178), opcodes 0xA2-0xA6, and what an engine operation meets when it reads or writes memory
(R175, R181, R296, R354). -/

namespace Sys2Proof.Machine

/-! ### A quire's chamber, where it is now (R296, R297) -/

/-- Chamber bytes of a quire: in its core, or in its swap record's image. -/
def State.chamGet (s : State) (h off n : Nat) : List Byte :=
  match s.quires.find h with
  | none => []
  | some q =>
    match q.phase with
    | .swapped _ a _ _ => (List.range n).map fun i => s.ownByte (a + q.recChamber + off + i)
    | _ => (List.range n).map fun i => Tab.get 0 q.cham (off + i)
/-- Physical addresses behind a quire's chamber while it is swapped out, by block. -/
def State.chamPas (s : State) (h off n : Nat) : List Nat :=
  match s.quires.find h with
  | none => []
  | some q =>
    match q.phase with
    | .swapped _ a _ _ => blocksOf (a + q.recChamber + off) n
    | _ => []
/-- Bytes written to a quire's chamber, redirected to its image while it is swapped out (R296). -/
def State.chamPut (s : State) (h off : Nat) (bs : List Byte) : State :=
  match s.quires.find h with
  | none => s
  | some q =>
    match q.phase with
    | .swapped _ a _ _ => s.postWrite (a + q.recChamber + off) bs
    | _ => s.chamOpen h off bs

/-- Bytes of an engine's operation written there at once, its gate passed. -/
def State.chamImage (s : State) (h off : Nat) (bs : List Byte) : State :=
  match s.quires.find h with
  | none => s
  | some q =>
    match q.phase with
    | .swapped _ a _ _ => s.writeBytes (a + q.recChamber + off) bs
    | _ => s.chamOpen h off bs

/-! ### Slots (R173-R176) -/

/-- Statuses (R175). -/
def stOK : BitVec 8 := 0x00
def stSlow : BitVec 8 := 0x01
def stXlate : BitVec 8 := 0x10
def stAccess : BitVec 8 := 0x11
def stEcc : BitVec 8 := 0x12
def stTimeout : BitVec 8 := 0x20
def stLinkDown : BitVec 8 := 0x21
def stAborted : BitVec 8 := 0x22
def stStaleGen : BitVec 8 := 0x23
def stExcluded : BitVec 8 := 0x24

/-- What a slot says (R174). -/
structure SlotVal where
  status : BitVec 8
  origin : Nat
  gen    : Nat
  done   : Nat
  tag    : Word
  aux    : Word
  deriving DecidableEq, Repr
/-- The 16 bytes of a slot (R174). -/
def SlotVal.bytes (v : SlotVal) : List Byte :=
  leBytes 1 v.status.toNat ++ leBytes 1 v.origin ++ leBytes 2 v.gen ++ leBytes 4 v.done ++ leBytes 4 v.tag.toNat ++
    leBytes 4 v.aux.toNat
/-- A slot of a local engine. -/
def localSlot (status : BitVec 8) (done : Nat) (tag aux : Word) : SlotVal := { status, origin := 0, gen := 0, done, tag, aux }

/-- A pool that has room for one more reservation (R176). -/
def Pool.room (p : Pool) : Bool := p.filled + p.resv < p.n
/-- A slot reserved (R176). -/
def State.reserve (s : State) (h p : Nat) : State :=
  s.modQuire h fun q => { q with pools := q.pools.upd p fun x => { x with resv := x.resv + 1 } }
/-- The four words that `pwait` returns (R177). -/
def State.headWords (s : State) (h : Nat) (x : Pool) : List Word :=
  if x.filled = 0 then [0xFF, 0, 0, 0] else wordsOf (s.chamGet h (x.off.toNat + 16 * x.rd) 16) 4
/-- A sheet observes slots of a pool: it joins the operations that filled them (R157, R177). -/
def State.slotJoin (s : State) (r : SheetRef) (p : Nat) (which : Nat → Bool) : State :=
  s.acqMark r 127 fun y => match y with
    | .slot h q i => h == r.h && q == p && which i
    | _ => false
/-- Slots of a pool show nothing any more. -/
def State.slotDrop (s : State) (h p : Nat) (which : Nat → Bool) : State :=
  s.dropSync fun y => match y with
    | .slot h' q i => h' == h && q == p && which i
    | _ => false
/-- The slot at the read index is observed when it is filled. -/
def State.headJoin (s : State) (r : SheetRef) (p : Nat) (x : Pool) : State :=
  if x.filled = 0 then s else s.slotJoin r p (· == x.rd)
/-- An operation of an engine completes into the next slot of its pool (R157, R176). -/
def State.slotEnd (s : State) (h p id : Nat) : State :=
  match (s.quires.find h).bind fun q => q.pools.find p with
  | none => s
  | some x => s.endEng id (.slot h p ((x.rd + x.filled) % x.n))
/-- A pool word returns to a sheet (R177). -/
def State.pwaitGive (s : State) (r : SheetRef) (sd : Nat) (ws : List Word) : State :=
  s.writeRegs r (ws.zipIdx.map fun w => (.s (sd + w.2), w.1))
/-- Sheets that wait on a pool go on when a slot has filled or nothing is reserved any more (R177); those of a quire that
leaves its core keep their waits (R294), and a spinning quire that has left is then eligible to resume (R298). -/
def State.poolWake (s : State) (h p : Nat) : State :=
  match s.quires.find h with
  | none => s
  | some q =>
    match q.pools.find p with
    | none => s
    | some x =>
      let cyc := s.cycles q.core
      let go (s : State) (k : Nat) (sh : Sheet) : State :=
        let r : SheetRef := { h, k }
        if q.leaving then s
        else match sh.wait with
        | .pwait p' sd _ => 
          if p' = p ∧ x.filled ≠ 0 then
            ((s.headJoin r p x).pwaitGive r sd (s.headWords h x)).modSheet r fun sh => { (sh.noteSpin cyc) with wait := .none }
          else s
        | .pdrain p' => if p' = p ∧ x.resv = 0 then (s.slotJoin r p fun _ => true).wake r else s
        | _ => s
      let waited := x.filled != 0 && q.sheets.any fun y => match y.2.wait with | .pwait p' _ _ => p' == p | _ => false
      let s := q.sheets.foldl (fun s y => go s y.1 y.2) s
      s.modQuire h fun q =>
        match q.phase with
        | .swapped .spin a w none => if waited then { q with phase := .swapped .spin a w (some s.reft) } else q
        | _ => q
/-- An operation completes into its pool (R176): the next slot in completion order is written, and the reservation is a
filled slot. -/
def State.poolFill (s : State) (h p : Nat) (v : SlotVal) : State :=
  match (s.quires.find h).bind fun q => q.pools.find p with
  | none => s
  | some x =>
    let s := s.chamPut h (x.off.toNat + 16 * ((x.rd + x.filled) % x.n)) v.bytes
    let s := s.modQuire h fun q =>
      { q with pools := q.pools.upd p fun x => { x with filled := x.filled + 1, resv := x.resv - 1 } }
    (s.poolWake h p).retryAll

/-! ### The pool words (R177) -/

/-- A pool word whose pool is initialised, else ACCESS reason 3 (R178); no address is at fault there, and the model gives
TADDR that of the word (log 23). -/
def poolEff (e : Env) (s : State) (p : Nat) (f : Pool → Eff) : Eff :=
  match e.q.pools.find p with
  | none => .trap s (e.trap162 cAccess e.sh.pc 127 3)
  | some x => f x
/-- R177. -/
def execPinit (w : FE) (s : State) : Out :=
  issue {} s fun e =>
    let off := e.s w.sa.toNat
    let n := w.mod.toNat
    let p := w.va.toNat
    if !e.q.inCham off.toNat (16 * n) then .trap s (e.trap162 cAccess (off.setWidth 64) 127 2)
    else if off.toNat % 16 ≠ 0 then .trap s (e.trap162 cMisaligned (off.setWidth 64) 127 0)
    else if (e.q.pools.find p).any fun x => x.resv != 0 then .wait s (.issue 10)
    else
      let s := s.chamPut e.r.h off.toNat
        ((List.replicate n (localSlot 0xFF 0 0 0).bytes).flatten)
      .done ((s.slotDrop e.r.h p fun _ => true).modQuire e.r.h fun q =>
        { q with pools := q.pools.put p { off, n, rd := 0, filled := 0, resv := 0 } }).retryAll
/-- R177. -/
def execPwait (w : FE) (s : State) : Out :=
  issue {} s fun e =>
    poolEff e s w.va.toNat fun x =>
      let dl : Option DWord := if w.mod.getLsbD 0 then some (e.spair w.sa.toNat) else none
      if x.filled ≠ 0 ∨ x.resv = 0 ∨ (dl.any fun d => d.toNat ≤ s.reft) = true then
        .done ((s.headJoin e.r w.va.toNat x).pwaitGive e.r w.sd.toNat (s.headWords e.r.h x))
      else
        .hold (s.modSheet e.r fun sh => sh.noteSpin (s.cycles e.q.core)) (.pwait w.va.toNat w.sd.toNat dl)
/-- PWAIT_DEADLINE: the deadline of a waiting `pwait` has passed with nothing filled (R177); a quire that leaves its core
keeps the wait (R294, R298). -/
def execPwaitDeadline (h k : Nat) (s : State) : Out :=
  .next <|
    let r : SheetRef := { h, k }
    match s.quires.find h, s.sheet? r with
    | some q, some sh =>
      match sh.wait with
      | .pwait _ sd (some d) =>
        if s.reft < d.toNat then s
        else if q.leaving then
          s.modQuire h fun q =>
            match q.phase with
            | .swapped .spin a w none => { q with phase := .swapped .spin a w (some s.reft) }
            | _ => q
        else
          (s.pwaitGive r sd [0xFF, 0, 0, 0]).modSheet r fun sh => { (sh.noteSpin (s.cycles q.core)) with wait := .none }
      | _ => s
    | _, _ => s
/-- R177. -/
def execPrel (w : FE) (s : State) : Out :=
  issue {} s fun e =>
    poolEff e s w.va.toNat fun x =>
      if x.filled = 0 then .done s
      else
        let s := ((s.slotDrop e.r.h w.va.toNat (· == x.rd)).chamPut e.r.h (x.off.toNat + 16 * x.rd) [0xFF]).modQuire e.r.h fun q =>
          { q with pools := q.pools.put w.va.toNat { x with rd := (x.rd + 1) % x.n, filled := x.filled - 1 } }
        .done s.retryAll
/-- R177. -/
def execPstat (w : FE) (s : State) : Out :=
  issue {} s fun e =>
    let x := (e.q.pools.find w.va.toNat).getD { off := 0, n := 0, rd := 0, filled := 0, resv := 0 }
    .done (s.writeRegs e.r
      [(.s w.sd.toNat, BitVec.ofNat 32 (x.n + 2 ^ 7 * x.filled + 2 ^ 14 * x.resv + 2 ^ 21 * x.rd)), (.s (w.sd.toNat + 1), x.off)])
/-- R177. -/
def execPdrain (w : FE) (s : State) : Out :=
  issue {} s fun e =>
    poolEff e s w.va.toNat fun x => if x.resv = 0 then .done (s.slotJoin e.r w.va.toNat fun _ => true) else .hold s (.pdrain w.va.toNat)

/-! ### Engine accesses (R175, R252, R354) -/

/-- Why an engine's access does not go on: a repairable fault, or a fatal status. -/
inductive EngErr where
  | repair
  | fatal (st : BitVec 8)
  deriving DecidableEq, Repr
/-- Translation for an engine of a core: a TLB entry or a walk (R300, R302). -/
def State.engXlate (s : State) (core ctx : Nat) (va : DWord) : Walk :=
  match s.tlb core ctx va with
  | some t => .ok t
  | none => s.walk (dieOf core) ctx va
/-- An engine's access of some bytes within one page, given the walk of its page: its physical address and leaf (R162
step 6, R175, R357). -/
def State.engAt (s : State) (ctx : Nat) (va : DWord) (len : Nat) (write : Bool) (x : Walk) :
    Except EngErr (Nat × DWord) :=
  if !canonical va then .error (.fatal stAccess)
  else
    match x with
    | .repair =>
      match s.verdict with
      | some (c, p, st) =>
        if c = ctx ∧ p = (va.extractLsb' 0 56).toNat / 16384 then .error (.fatal st) else .error .repair
      | none => .error .repair
    | .fatal => .error (.fatal stXlate)
    | .denied => .error (.fatal stAccess)
    | .ok t =>
      let pa := t.pa va
      if !(if write then leafW t.leaf else leafR t.leaf) || !s.mayReach (s.ctx ctx).part pa len false then
        .error (.fatal stAccess)
      else if s.ue pa len then .error (.fatal stEcc)
      else .ok (pa, t.leaf)
/-- An access of an engine of a core. -/
def State.engByte (s : State) (core ctx : Nat) (va : DWord) (len : Nat) (write : Bool) : Except EngErr (Nat × DWord) :=
  s.engAt ctx va len write (s.engXlate core ctx va)

/-- A request of an engine stands in its die's fault buffer. -/
def State.requested (s : State) (core ctx : Nat) (va : DWord) : Bool :=
  (s.die (dieOf core)).faults.any fun f => f.ctx == ctx && f.va == va && f.ref.isNone
/-- A request of an engine put into its die's fault buffer (R304), and whether it stands there: with the buffer full it
does not, and the operation makes its accesses again (R171). -/
def State.engFault (s : State) (core ctx : Nat) (va : DWord) : State × Bool :=
  if s.requested core ctx va then (s, true)
  else if (s.die (dieOf core)).faults.length < Config.faultEntries then
    (s.modDie (dieOf core) fun d => { d with faults := d.faults ++ [{ ctx, va, ref := none }] }, true)
  else (s, false)
/-- An engine's operation ends with a status at an address: an uncorrectable error is counted (R362). -/
def State.eccCount (s : State) (core ctx : Nat) (st : BitVec 8) (va : DWord) : State :=
  if st = stEcc then
    match s.engXlate core ctx va with
    | .ok t => s.ueCount (t.pa va)
    | _ => s
  else s

end Sys2Proof.Machine
end

