-- ==== Sys2Proof/Machine/Copy.lean ====
section
/-! DEFINITION. Opcodes 0xA0, 0xA1 (R179-R182) and 0xB5, 0xB6 (R234, R235, R240): copies and near-memory commands, from
issue to completion. Each is performed in the one step in which it completes (log 13). -/

namespace Sys2Proof.Machine

/-! ### Issue of a copy (R146, R179, R180) -/

/-- Scoreboard entries of a core that are free (R146). -/
def State.boardFree (s : State) (core : Nat) : Nat := 16 - (s.core core).board.length
/-- Entries of a core's scoreboard taken. -/
def State.boardAdd (s : State) (core : Nat) (bs : List Board) : State :=
  s.modCore core fun c => { c with board := c.board ++ bs }
/-- Entries of an operation released. -/
def State.boardDrop (s : State) (core op : Nat) : State :=
  s.modCore core fun c => { c with board := c.board.filter (·.op != op) }

/-- First byte of row `i` on a side: chamber offsets are exact. -/
def Copy.rowAt (a : DWord) (str : Int) (i : Nat) : Int := a.toNat + i * str
/-- Rows that hold bytes. -/
def Copy.rowCount (c : Copy) : Nat := if c.bytes = 0 then 0 else c.rows
/-- Bounding byte range of a chamber side (R146). -/
def Copy.bounds (c : Copy) (a : DWord) (str : Int) : Int × Int :=
  let last := Copy.rowAt a str (c.rowCount - 1)
  (min (Copy.rowAt a str 0) last, max (Copy.rowAt a str 0) last + c.bytes)
/-- A side with its stride. -/
def Copy.sides (c : Copy) : List (Side × Int) := [(c.src, c.sstr), (c.dst, c.dstr)]
/-- R180: checks, then the scoreboard entries and the pool slot together, then the fork (R157). TADDR of a chamber side
out of bounds is the side's base offset (log 23). -/
def copyEff (e : Env) (s : State) (c : Copy) : Eff :=
  match c.sides.find? fun x => !x.1.cham && !canonical x.1.addr with
  | some x => .trap s (e.trap162 cAccess x.1.addr 127 0)
  | none =>
    match c.sides.find? fun x => x.1.cham && c.rowCount != 0 &&
        !e.q.inCham (c.bounds x.1.addr x.2).1 ((c.bounds x.1.addr x.2).2 - (c.bounds x.1.addr x.2).1).toNat with
    | some x => .trap s (e.trap162 cAccess x.1.addr 127 2)
    | none =>
      poolEff e s c.pool fun p =>
        let boards := if c.rowCount = 0 then [] else (c.sides.filter fun x => x.1.cham).map fun x =>
          { op := c.id, h := e.r.h, lo := (c.bounds x.1.addr x.2).1.toNat, hi := (c.bounds x.1.addr x.2).2.toNat,
            copy := true, mx := false : Board }
        if s.unplaced e.r e.sh then .wait s (.issue 15)
        else if s.boardFree e.q.core < boards.length then .wait s (.issue 12)
        else if !p.room then .wait s (.issue 10)
        else
          let s := s.reserve e.r.h c.pool
          if c.rowCount = 0 then .done (s.poolFill e.r.h c.pool (localSlot stOK 0 c.tag 0))
          else .done { ((s.boardAdd e.q.core boards).forkEng e.r c.id) with copies := s.copies ++ [c] }
/-- A copy as its word names it, without its shape (R179): chamber sides ignore the high register. -/
def copyOf (e : Env) (w : FE) (id bytes rows : Nat) (sstr dstr : Int) : Copy :=
  let side := fun (cham : Bool) (r : BitVec 6) =>
    { cham, addr := if cham then (e.s r.toNat).setWidth 64 else e.spair r.toNat : Side }
  { id, ref := e.r, src := side (w.mod.getLsbD 1) w.sa, dst := side (w.mod.getLsbD 0) w.sb, bytes, rows, sstr, dstr,
    pool := w.va.toNat, tag := e.s w.sd.toNat, slow := false }
/-- R179. -/
def execAcopy (w : FE) (s : State) : Out :=
  issue {} s fun e =>
    let (id, s) := s.fresh
    copyEff e s (copyOf e w id (e.s w.sc.toNat).toNat 1 0 0)
/-- R179. -/
def execAcopy2 (w : FE) (s : State) : Out :=
  issue {} s fun e =>
    let (id, s) := s.fresh
    let g := fun i => e.s (w.sc.toNat + i)
    copyEff e s (copyOf e w id (g 0).toNat (g 1).toNat (g 2).toInt (g 3).toInt)

/-! ### Completion of a copy (R181, R182) -/

/-- Address of byte `i` of row `r` of a side: an offset, or a virtual address modulo 2^64. -/
def Copy.byteAt (x : Side × Int) (r i : Nat) : DWord := x.1.addr + BitVec.ofInt 64 (r * x.2 + i)
/-- Bytes of the copy in source order: row and place. -/
def Copy.places (c : Copy) : List (Nat × Nat) :=
  (List.range c.rowCount).flatMap fun r => (List.range c.bytes).map fun i => (r, i)
/-- What one byte of a copy meets on a side. -/
def Copy.meets (_c : Copy) (s : State) (q : Quire) (x : Side × Int) (write : Bool) (p : Nat × Nat) :
    Except (EngErr × DWord) (Option (Nat × DWord)) :=
  if x.1.cham then .ok none
  else
    match s.engByte q.core q.ctx (Copy.byteAt x p.1 p.2) 1 write with
    | .ok a => .ok (some a)
    | .error e => .error (e, Copy.byteAt x p.1 p.2)
/-- Error of a byte, of its source first. -/
def Copy.err (c : Copy) (s : State) (q : Quire) (p : Nat × Nat) : Option (EngErr × DWord) :=
  match c.meets s q (c.src, c.sstr) false p, c.meets s q (c.dst, c.dstr) true p with
  | .error e, _ => some e
  | _, .error e => some e
  | _, _ => none
/-- Accesses of the first bytes of a copy to memory on a side: place, virtual and physical address, leaf. -/
def Copy.hits (c : Copy) (s : State) (q : Quire) (x : Side × Int) (write : Bool) (ps : List (Nat × Nat)) :
    List ((Nat × Nat) × DWord × Nat × DWord) :=
  ps.filterMap fun p =>
    match c.meets s q x write p with
    | .ok (some a) => some (p, Copy.byteAt x p.1 p.2, a.1, a.2)
    | _ => none
/-- What a byte of a copy's source holds (R181). -/
def Copy.val (c : Copy) (s : State) (q : Quire) (p : Nat × Nat) : Byte :=
  let src := (c.src, c.sstr)
  match c.meets s q src false p with
  | .ok (some a) => s.engRead (.op c.id) (Copy.byteAt src p.1 p.2) a.1 a.2
  | _ => Tab.get 0 q.cham (Copy.byteAt src p.1 p.2).toNat
/-- The first bytes of a copy written once its sources have been read (R181). -/
def Copy.put (c : Copy) (s : State) (q : Quire) (ps : List (Nat × Nat)) : State :=
  let dst := (c.dst, c.dstr)
  if c.dst.cham then ps.foldl (fun t p => t.chamOpen c.ref.h (Copy.byteAt dst p.1 p.2).toNat [c.val s q p]) s
  else
    s.engWrite (.op c.id) q.ctx (some c.ref) <| (c.hits s q dst true ps).map fun x =>
      { va := x.2.1, pa := x.2.2.1, leaf := x.2.2.2, b := c.val s q x.1 }
/-- The copy leaves its scoreboard entries and writes its slot (R146, R176). -/
def State.copyEnd (s : State) (core : Nat) (c : Copy) (v : SlotVal) : State :=
  let s := { s.engDrop (.op c.id) with copies := s.copies.filter (·.id != c.id) }
  (((s.boardDrop core c.id).slotEnd c.ref.h c.pool c.id).poolFill c.ref.h c.pool v).retryAll
/-- A copy that has made its accesses ends (R182). -/
def State.copyFin (s : State) (core : Nat) (c : Copy) (f : Fin) : State := s.copyEnd core c (localSlot f.status f.done c.tag f.aux)
/-- The first bytes of a copy performed and then its end, once no re-key and no operation that it follows holds one of them
(R151, R359) and its vats have answered and applied what it has sent them (R147, R225, R341). -/
def State.copyMove (s : State) (q : Quire) (c : Copy) (ps : List (Nat × Nat)) (f : Fin) (k : State → State) : State :=
  let from_ := c.hits s q (c.src, c.sstr) false ps
  s.engGate (.op c.id) (from_.map fun x => x.2.2) ((c.hits s q (c.dst, c.dstr) true ps).map fun x => x.2.2) fun s =>
    match s.algLoads (.op c.id) q.ctx (some c.ref) (from_.map (·.2)) with
    | (s, false) => s
    | (s, true) => (k (c.put s q ps)).engEnd f fun s f => s.copyFin q.core c f
/-- A copy ends with a fatal status at a byte: the prefix before it is written (R182). -/
def State.copyFatal (s : State) (q : Quire) (c : Copy) (p : Nat × Nat) (st : BitVec 8) (a : DWord) : State :=
  let ps := c.places.takeWhile (· ≠ p)
  s.copyMove q c ps { who := .op c.id, status := st, done := ps.length, aux := loWord a } fun s => s.eccCount q.core q.ctx st a
/-- A copy runs to its end, or meets a fault that can be repaired (R182). -/
def State.copyRun (s : State) (c : Copy) (slow : Bool) : State :=
  match s.quires.find c.ref.h with
  | none => s
  | some q =>
    s.engStep (.op c.id) (fun s f => s.copyFin q.core c f) fun s =>
    if s.tablesHeld q.ctx then s
    else
    match c.places.findSome? fun p => (c.err s q p).bind fun x => if x.1 = .repair then some x.2 else none with
    | some a =>
      match s.engFault q.core q.ctx a with
      | (s, true) => { s with copies := s.copies.map fun x => if x.id = c.id then { x with slow := true } else x }
      | (s, false) => s
    | none =>
      match c.places.findSome? fun p => (c.err s q p).map fun x => (p, x) with
      | some (p, .fatal st, a) => s.copyFatal q c p st a
      | some (_, .repair, _) => s
      | none =>
        s.copyMove q c c.places
          { who := .op c.id, status := if slow then stSlow else stOK, done := c.rowCount * c.bytes } id
/-- COPY_COMPLETE: a copy completes, or hands its ranges to the slow path (R181, R182). -/
def execCopyComplete (id : Nat) (s : State) : Out :=
  .next <|
    match s.copies.find? (·.id == id) with
    | some c => if c.slow then s else s.copyRun c false
    | none => s
/-- COPY_SLOW_PATH_DONE: the firmware slow path finishes a copy, one with a retried correctable error among them. -/
def execCopySlowPathDone (id : Nat) (s : State) : Out :=
  .next <|
    match s.copies.find? (·.id == id) with
    | some c => s.copyRun c true
    | none => s

/-! ### Near-memory commands (R234, R235, R240) -/

/-- Bytes of an element. -/
def Nm.e (n : Nm) : Nat := if n.bf then 2 else 4
/-- R240: checks in order, then the pool slot and the fork. R240 gives the ACCESS trap of reason 6 no address; the model gives TADDR
that of the word (DESIGN CHOICE, log 23). -/
def nmEff (e : Env) (s : State) (n : Nm) (sc : Word) : Eff :=
  poolEff e s n.pool fun p =>
    let addrs := [n.x, n.y] ++ if n.dot then [n.dst] else []
    match addrs.find? fun a => !canonical a with
    | some a => .trap s (e.trap162 cAccess a 127 0)
    | none =>
      if sc.extractLsb' 24 8 ≠ 0 then .trap s (e.trap162 cAccess e.sh.pc 127 6)
      else
        match ([(n.x, n.e), (n.y, n.e)] ++ if n.dot then [(n.dst, 4)] else [] : List (DWord × Nat)).find?
            fun a => a.1.toNat % a.2 != 0 with
        | some a => .trap s (e.trap162 cMisaligned a.1 127 0)
        | none =>
          if s.unplaced e.r e.sh then .wait s (.issue 15)
          else if !p.room then .wait s (.issue 10)
          else .done { ((s.reserve e.r.h n.pool).forkEng e.r n.id) with nms := s.nms ++ [n] }
/-- A command as its word names it (R240). -/
def nmOf (e : Env) (w : FE) (id : Nat) (dot : Bool) : Nm :=
  { id, ref := e.r, dot, op := (w.mod.extractLsb' 0 4).toNat, bf := w.mod.getLsbD 4, x := e.spair w.sa.toNat,
    y := e.spair w.sb.toNat, len := (e.s w.sc.toNat).toNat % 2 ^ 24, dst := e.spair w.sd.toNat,
    a := e.s (w.sd.toNat + 3), pool := w.va.toNat, tag := e.s (w.sd.toNat + 2), slow := false }
/-- R240. -/
def execNmdot (w : FE) (s : State) : Out :=
  issue {} s fun e => let (id, s) := s.fresh; nmEff e s (nmOf e w id true) (e.s w.sc.toNat)
/-- R240. -/
def execNmaxpy (w : FE) (s : State) : Out :=
  issue {} s fun e => let (id, s) := s.fresh; nmEff e s (nmOf e w id false) (e.s w.sc.toNat)

/-- rne(x * y + z) to a format, subnormals kept, from values of formats (R234). -/
def rneFma (fx fy fz out : Fmt) (x y z : Nat) : Nat :=
  (out.give .rne false false (FV.fma .rne (fx.decode x) (fy.decode y) (fz.decode z)).1).1
/-- Adjacent pairs replaced by their sums (R234). -/
def pairSums : List Word → List Word
  | a :: b :: t => rneAdd a b :: pairSums t
  | l => l
/-- The value that `nmdot` posts (R234): elements with the channel of their x. -/
def nmDotValue (bf : Bool) (els : List (Nat × Nat × Nat)) : Word :=
  if els.isEmpty then 0
  else
    let f := if bf then bf16 else fp32
    let leaf := fun c => els.foldl (fun (s : Nat) x =>
      if x.1 = c then rneFma f f fp32 fp32 x.2.1 x.2.2 s else s) 0x80000000
    ((List.range 8).foldl (fun l _ => pairSums l) ((List.range 256).map fun c => BitVec.ofNat 32 (leaf c))).headD 0
/-- Address of an element of a vector. -/
def Nm.at' (n : Nm) (v : DWord) (i : Nat) : DWord := v + BitVec.ofNat 64 (i * n.e)
/-- Error of an element: x, then y, each off algebra pages (R235). -/
def Nm.err (n : Nm) (s : State) (q : Quire) (i : Nat) : Option (EngErr × DWord) :=
  let one := fun (v : DWord) (write : Bool) =>
    match s.engByte q.core q.ctx v n.e write with
    | .error e => some (e, v)
    | .ok a => if leafALG a.2 then some (EngErr.fatal stAccess, v) else none
  (one (n.at' n.x i) false).orElse fun _ => (one (n.at' n.y i) false).orElse fun _ =>
    if n.dot then none else one (n.at' n.y i) true
/-- Error of the destination of `nmdot`, where an uncorrectable error is none (R235). -/
def Nm.dstErr (n : Nm) (s : State) (q : Quire) : Option (EngErr × DWord) :=
  if !n.dot then none
  else
    match { s with bad := [] }.engByte q.core q.ctx n.dst 4 true with
    | .error e => some (e, n.dst)
    | .ok a =>
      let bad := some (EngErr.fatal stAccess, n.dst)
      if !leafALG a.2 then bad
      else
        match s.tableAt (s.channel a.1) q.ctx (leafDTS a.2) with
        | none => bad
        | some t => if !slotPresent t n.op || n.op == 0 || slotKind t n.op == 0 || ty64 (slotType t n.op) then bad else none
/-- What a command's element holds. -/
def Nm.val (n : Nm) (s : State) (q : Quire) (v : DWord) : Nat :=
  match s.engByte q.core q.ctx v n.e false with
  | .ok a => s.readNat a.1 n.e
  | .error _ => 0
/-- A command performed (R234): its post, or its results, go to memory or a vat. A post to a word with an uncorrectable error is
discarded and reported (R235). -/
def Nm.perform (n : Nm) (s : State) (q : Quire) : State :=
  if n.dot then
    match s.engXlate q.core q.ctx n.dst with
    | .repair | .fatal | .denied => s
    | .ok x =>
      let a := (x.pa n.dst, x.leaf)
      let els := (List.range n.len).map fun i =>
        let x := n.at' n.x i
        let ch := match s.engByte q.core q.ctx x n.e false with | .ok p => s.channel p.1 | .error _ => 0
        (ch, n.val s q x, n.val s q (n.at' n.y i))
      let t := (s.tableAt (s.channel a.1) q.ctx (leafDTS a.2)).getD []
      s.engOp { (s.engineOp (.op n.id) q.ctx (some n.ref) n.dst a.1 a.2
        (.slot n.op (slotKind t n.op) (slotType t n.op) ((nmDotValue n.bf els).setWidth 64))) with post := true }
  else
    let f := if n.bf then bf16 else fp32
    let new := (List.range n.len).map fun i =>
      (i, rneFma fp32 f f f n.a.toNat (n.val s q (n.at' n.x i)) (n.val s q (n.at' n.y i)))
    s.engWrite (.op n.id) q.ctx (some n.ref) <| new.flatMap fun x =>
      match s.engByte q.core q.ctx (n.at' n.y x.1) n.e true with
      | .error _ => []
      | .ok a => (leBytes n.e x.2).zipIdx.map fun b =>
        { va := n.at' n.y x.1 + BitVec.ofNat 64 b.2, pa := a.1 + b.2, leaf := a.2, b := b.1 }
/-- Physical addresses that a command reads, and those that it writes, with their leaves. -/
def Nm.pas (n : Nm) (s : State) (q : Quire) : List (Nat × DWord) × List (Nat × DWord) :=
  let at' (v : DWord) : List (Nat × DWord) := match s.engXlate q.core q.ctx v with | .ok t => [(t.pa v, t.leaf)] | _ => []
  let xs := (List.range n.len).flatMap fun i => at' (n.at' n.x i)
  let ys := (List.range n.len).flatMap fun i => at' (n.at' n.y i)
  if n.dot then (xs ++ ys, at' n.dst) else (xs ++ ys, ys)
/-- The status of a command that is done (R235): SLOW after a repair, and after a correctable error that needed a retry,
which its reads meet or not, freely. -/
def Nm.done (n : Nm) (s : State) : BitVec 8 :=
  if n.slow || (n.len != 0 && Config.pick s.free (7000000 + n.id) % 2 == 1) then stSlow else stOK
/-- A command leaves with its slot (R235). -/
def State.nmEnd (s : State) (n : Nm) (v : SlotVal) : State :=
  (({ s.engDrop (.op n.id) with nms := s.nms.filter (·.id != n.id) }.slotEnd n.ref.h n.pool n.id).poolFill n.ref.h n.pool v).retryAll
/-- A command's first error: of its elements, ascending, then of its destination. -/
def Nm.errs (n : Nm) (s : State) (q : Quire) : List (EngErr × DWord) :=
  ((List.range n.len).filterMap (n.err s q)) ++ (n.dstErr s q).toList
/-- NM_COMPLETE: a near-memory command completes, or waits for a repair and then ends SLOW (R235). -/
def execNmComplete (id : Nat) (s : State) : Out :=
  .next <|
    match s.nms.find? (·.id == id) with
    | none => s
    | some n =>
      match s.quires.find n.ref.h with
      | none => s
      | some q =>
        s.engStep (.op id) (fun s f => s.nmEnd n (localSlot f.status f.done n.tag 0)) fun s =>
        let es := n.errs s q
        if s.tablesHeld q.ctx then s
        else match es.find? fun x => x.1 == .repair with
        | some (_, a) =>
          match s.engFault q.core q.ctx a with
          | (s, true) => { s with nms := s.nms.map fun x => if x.id = id then { x with slow := true } else x }
          | (s, false) => s
        | none =>
          match es.head? with
          | some (.fatal st, a) => (s.eccCount q.core q.ctx st a).nmEnd n (localSlot st 0 n.tag (loWord a))
          | some (.repair, _) => s
          | none =>
            s.engGate (.op id) (n.pas s q).1 (n.pas s q).2 fun s =>
              (n.perform s q).engEnd { who := .op id, status := n.done s, done := n.len * n.e } fun t f =>
                t.nmEnd n (localSlot f.status f.done n.tag 0)

end Sys2Proof.Machine
end

