-- ==== Sys2Proof/Machine/Debug.lean ====
section
/-! DEFINITION. Opcodes 0xF0-0xF4 (R334-R337, R342, R343): region edges, marks, the store hash, the stall counters; and
the resumption of a quire that stopped at an edge or a `brk` (R335). -/

namespace Sys2Proof.Machine

/-- The lowest enabled stop that an identity matches (R335). -/
def Ctx.stopAt (c : Ctx) (id : BitVec 16) : Option Nat :=
  Option.bind c.debug fun d => (List.range 4).find? fun n => d.stopen.getLsbD n && d.stopid[n]? == some id
/-- What a replay finds at a sheet's edge (R342): none when the hash agrees, else whether the context has left the log.
A log without a next entry counts as left. -/
def replayFault (e : Env) (s : State) : Option Bool :=
  match e.cx.dbg (·.replay) with
  | none => none
  | some d =>
    if e.cx.diverged then some true
    else
      let mine := fun (h : DWord) => entryKind h == 1 && h.extractLsb' 12 32 == e.q.qid && (h.extractLsb' 8 4).toNat == e.r.k
      match ((s.logPairs d).filter fun x => mine x.1)[e.sh.edges]? with
      | none => some true
      | some x => if x.2 = e.sh.hash then none else some false
/-- A region edge with an identity, 0xFFFF for a `rleave` of nothing, and the stack after it (R334-R336, R340, R342). -/
def edgeEff (e : Env) (s : State) (typ : Nat) (id : BitVec 16) (after : List (BitVec 16)) : Eff :=
  let info := fun (x : Nat) => BitVec.ofNat 32 (e.sh.idx + 16 * x + 65536 * id.toNat)
  match replayFault e s with
  | some left => .trap s (e.trapAt cReplayDiverge e.sh.pc (info (if left then 1 else 0)))
  | none =>
    let s := s.modSheet e.r fun sh => { sh with regions := after, edges := sh.edges + 1 }
    let s := (s.traceWord e typ id.toNat 0 after).logPair e.q.ctx (edgeHeader e.r.k e.q.qid id) e.sh.hash
    match e.cx.stopAt id with
    | some n => .placed (s.debugStop e { (e.trapAt cRegionStop e.sh.pc (info n)) with tpc := e.sh.pc + 8 })
    | none => .done s

/-- R343: pushes a region; a full stack discards its oldest entry (R334). -/
def execRenter (w : FI) (s : State) : Out :=
  issue {} s fun e => edgeEff e s 1 (w.imm.extractLsb' 0 16) ((w.imm.extractLsb' 0 16 :: e.sh.regions).take 8)
/-- R343: pops a region. -/
def execRleave (_w : FRC) (s : State) : Out :=
  issue {} s fun e => edgeEff e s 2 (e.sh.regions.headD 0xFFFF) e.sh.regions.tail
/-- R343: a trace record, no edge. -/
def execRmark (w : FI) (s : State) : Out :=
  issue {} s fun e => .done (s.traceWord e 3 w.imm.toNat 0 e.sh.regions)
/-- R343. -/
def execHashrd (w : FRC) (s : State) : Out :=
  issue {} s fun e =>
    .done (s.writeRegs e.r [(uniKey w.d.toNat, loWord e.sh.hash), (uniKey (w.d.toNat + 1), hiWord e.sh.hash)])
/-- R343. -/
def execStallrd (w : FRC) (s : State) : Out :=
  issue {} s fun e =>
    let n := (w.mod.extractLsb' 0 2).toNat
    let cs := (List.range 4).map fun i => 4 * n + i
    let s := s.writeRegs e.r (cs.zipIdx.map fun c => (uniKey (w.d.toNat + c.2), e.sh.stalls.get 0 c.1))
    .done (if w.mod.getLsbD 2 then s.modSheet e.r fun sh => { sh with stalls := cs.foldl (fun t c => t.set 0 c 0) sh.stalls } else s)

/-- A code word for a sheet that no word of its own can wait for: by a TLB or by a walk. -/
def State.codeAt (s : State) (r : SheetRef) (core ctx : Nat) (a : DWord) : Fetched :=
  match s.fetch r core ctx a with
  | .miss =>
    match s.walk (dieOf core) ctx a with
    | .ok t => if leafX t.leaf && s.mayReach (s.ctx ctx).part (t.pa a) 8 false then .word (s.fetchPa r (t.pa a)) else .noExec
    | _ => .miss
  | x => x
/-- A stopped sheet goes on at TPC as `rte` does (R213, R335). -/
def State.haltOver (s : State) (r : SheetRef) (q : Quire) (sh : Sheet) : State :=
  let s' := (s.modQuire r.h fun q => { q with phase := .resident, halted := none }).modSheet r Sheet.unframe
  let bad (a : DWord) : State :=
    s'.trap r { cause := cIllegalTarget, tpc := sh.pc, thdr := sh.hdrAddr, addr := a, info := BitVec.ofNat 32 (sh.idx % 16) }
  if sh.thdr.extractLsb' 0 3 ≠ 0 ∨ ¬canonical sh.thdr then bad sh.thdr
  else
    match s.codeAt r q.core q.ctx sh.thdr with
    | .miss => s
    | .noExec => s'.trap r (headerTrap cAccess sh.thdr 2048)
    | .word w =>
      match headerFault sh.unframe sh.thdr w with
      | some t => s'.trap r t
      | none =>
        let h := Header.unpack w
        let i := (sh.tpc - sh.thdr).toNat / 8
        if sh.tpc < sh.thdr ∨ h.n.toNat + 1 < i ∨ sh.tpc.extractLsb' 0 3 ≠ 0 then bad sh.tpc
        else if i = 0 then (s'.modSheet r fun sh => sh.goto sh.thdr).refetch r
        else (s'.modSheet r fun sh => (sh.goto sh.tpc).inClause h i).refetch r
/-- QUIRE_STOP_RESUME: system software resumes a quire that stopped at a region edge or a `brk`, its sheet at TPC under
R213 (R335). With no translation of THDR it stays stopped (log 40). -/
def execQuireStopResume (h : Nat) (s : State) : Out :=
  .next <|
    match s.quires.find h with
    | none => s
    | some q =>
      if q.phase ≠ .stopped true then s
      else
        match q.halted.bind fun k => (q.sheets.find k).map fun sh => (k, sh) with
        | some (k, sh) => s.haltOver { h, k } q sh
        | none => s.modQuire h fun q => { q with phase := .resident, halted := none }

end Sys2Proof.Machine
end

