-- ==== Sys2Proof/Machine/Link.lean ====
section
/-! DEFINITION. The fabric ports (R307-R311, R319, R361): flits, replay, lane repair, and the routes of groups. A message is
kept as the flit that carries its end. -/

namespace Sys2Proof.Machine

/-! ### CRC (R308) -/

/-- One byte into the CRC. -/
def crcByte (c : BitVec 64) (b : Byte) : BitVec 64 :=
  (List.range 8).foldl (fun (c : BitVec 64) _ => if c.msb then (c <<< 1) ^^^ 0x42F0E1EBA9EA3693 else c <<< 1)
    (c ^^^ (b.setWidth 64 <<< 56))
/-- CRC-64 of bytes. -/
def crc64 (bs : List Byte) : BitVec 64 := (bs.foldl crcByte (BitVec.allOnes 64)) ^^^ BitVec.allOnes 64
/-- The bytes that a flit's CRC covers. -/
def flitBytes (f : Flit) : List Byte := leBytes 2 (f.seq.toNat + 4096 * f.typ.toNat) ++ leBytes 6 f.ctl.toNat ++ f.payload
/-- A flit that arrived whole. -/
def flitOk (f : Flit) : Bool := f.payload.length == 240 && crc64 (flitBytes f) == f.crc
/-- TYPE of the flits that a message leaves in (R308, log 31). -/
def Msg.typ : Msg → BitVec 4
  | .op _ _ | .reply _ _ | .proposal _ _ _ _ _ _ | .decision _ _ _ _ => 0
  | .ack _ => 1
  | .nak _ => 2
  | .laneMap _ _ | .unreachable _ | .hello _ _ | .down => 4
  | .notice _ _ _ => 5
/-- The flit that ends a message: R308 gives SEQ, TYPE and CRC, and no coding of CTL and PAYLOAD, which are free values
(log 3). -/
def Sent.flit (x : Sent) (port : Nat) : Flit :=
  let key := 4096 * port + x.seq.toNat
  let f : Flit :=
    { seq := x.seq, typ := x.msg.typ, ctl := (Config.freeDWord key 8000000).setWidth 48,
      payload := (List.range 240).map fun i => (Config.freeWord key (8000000 + i)).setWidth 8, crc := 0 }
  { f with crc := crc64 (flitBytes f) }

/-! ### Groups and routes (R311-R314, R319) -/

def State.group? (s : State) (ctx slot : Nat) : Option Group := (s.ctx ctx).groups.find slot
def State.modGroup (s : State) (ctx slot : Nat) (f : Group → Group) : State :=
  s.modCtx ctx fun c => { c with groups := c.groups.upd slot f }
/-- The route in use to a member: its first one whose port is up and on which its node is not reported lost. -/
def State.route (s : State) (g : Group) (r : Nat) : Option Nat :=
  (g.members[r]?).bind fun m => m.routes.find? fun p => (s.port p).up && !(s.port p).lost.contains m.node
/-- Members that a member reaches, itself included. -/
def State.reached (s : State) (g : Group) : List Nat :=
  (List.range g.nmem).filter fun r => r == g.rank || (s.route g r).isSome
/-- Ports named in a route of a group that are up. -/
def State.groupPorts (s : State) (g : Group) : List Nat :=
  ((g.members.zipIdx.filter fun m => m.2 != g.rank).flatMap fun m => m.1.routes).eraseDups.filter fun p => (s.port p).up

/-! ### Sending (R308, R309) -/

/-- A message outside the sequence: ack and nak, and the control flits of a port that comes up or goes down. -/
def State.portAside (s : State) (p : Nat) (m : Msg) : State :=
  { s with outbox := s.outbox ++ [(p, { seq := (s.port p).tx, msg := m })] }
/-- A SEQ has come to pass, or is the next, given the next one. -/
def seqPast (next q : BitVec 12) : Bool := (next - q).toNat < 2048
/-- A lane map with the spare in the place of a lane. -/
def mapSpare (l : Nat) (map : List Nat) : List Nat := map.map fun x => if x = l then 4 else x
/-- The new map begins for sent flits at the SEQ that this end has named, once no replay is outstanding (R310). -/
def Port.swapSent (t : Port) : Port :=
  match t.repair with
  | some r =>
    if !r.sent && t.replay.isNone && r.mine.any (seqPast t.tx) then
      { t with sentMap := mapSpare r.lane t.sentMap, repair := some { r with sent := true } }
    else t
  | none => t
/-- A message takes the next SEQ and its place in the replay buffer. -/
def Port.put (t : Port) (m : Msg) : Port := { t.swapSent with tx := t.tx + 1, buf := t.buf ++ [(t.tx, m)] }
/-- An abort notice. -/
def Msg.isNotice (m : Msg) : Bool := m.typ == 5
/-- A message leaves on a port with the next SEQ, or waits for room in the replay buffer; abort notices wait first. -/
def State.portSend (s : State) (p : Nat) (m : Msg) : State :=
  if (s.port p).buf.length < 1024 then
    { (s.modPort p fun t => t.put m) with outbox := s.outbox ++ [(p, { seq := (s.port p).tx, msg := m })] }
  else
    s.modPort p fun t =>
      { t with queue := if m.isNotice then t.queue.takeWhile Msg.isNotice ++ m :: t.queue.dropWhile Msg.isNotice
                        else t.queue ++ [m] }
/-- Messages that waited leave as far as there is room. -/
def State.portPump (s : State) (p : Nat) : State :=
  (List.range (s.port p).queue.length).foldl (fun s _ =>
    match (s.port p).queue with
    | m :: t => if (s.port p).buf.length < 1024 then (s.modPort p fun x => { x with queue := t }).portSend p m else s
    | [] => s) s
/-- A message for a member leaves by its route. -/
def State.sendTo (s : State) (ctx slot r : Nat) (m : Msg) : State :=
  match s.group? ctx slot with
  | none => s
  | some g => (s.route g r).elim s fun p => s.portSend p m
/-- An answer leaves for the module that an operation came from: by a route of its slot's group to that node, or by the port
on which the operation arrived. -/
def State.answerOp (s : State) (op : RemoteOp) (m : Msg) : State :=
  let r := (s.group? op.ctx op.slot).bind fun g =>
    (g.members.zipIdx.find? fun x => x.1.node == op.node && x.1.ctx == op.from_).bind fun x => s.route g x.2
  let p := r.getD op.port
  if (s.port p).up then s.portSend p m else s
/-- A message on every port of a group that is up. -/
def State.flood (s : State) (g : Group) (m : Msg) : State := (s.groupPorts g).foldl (fun s p => s.portSend p m) s

/-! ### A port down (R309, R311, R319) -/

/-- Events 4 and 5 go to the partitions that hold the port (R348). -/
def State.portEvent (s : State) (p typ x : Nat) : State :=
  s.parts.foldl (fun s e => if e.2.ports.getLsbD p then s.report e.1 typ p (p + 2 ^ 32 * x) else s) s
/-- An answer, a proposal or the arrival of a `gbar`, whose word may have completed here, that was never acknowledged moves to the
next route of its member; the other operations move with their words, and notices and decisions have left on every port. -/
def State.reroute (s : State) (m : Msg) : State :=
  match m with
  | .reply op _ => s.answerOp op m
  | .proposal ctx slot r _ _ _ => s.sendTo ctx slot r m
  | .op r o =>
    match o.kind with
    | .bar _ => if (s.group? o.from_ o.slot).any (·.gen == o.gen) then s.sendTo o.from_ o.slot r m else s
    | .write _ _ | .read _ _ => s
  | .notice _ _ _ | .decision _ _ _ _ | .ack _ | .nak _ | .laneMap _ _ | .unreachable _ | .hello _ _ | .down => s
/-- A port goes down: an end with ports up reports the node behind it, and unacknowledged messages move. -/
def State.portDown (s : State) (p : Nat) : State :=
  let t := s.port p
  if !t.up then s
  else
    let s := (s.modPort p fun t =>
      { t with up := false, training := false, lanes := none, buf := [], queue := [], replay := none, fails := 0, stale := 0,
               owed := none, repair := none, downAt := s.reft, peer := none }).portEvent p 4 0
    let s := match t.peer with
      | none => s
      | some (n, _) => ((List.range 36).filter fun q => (s.port q).up).foldl (fun s q => s.portSend q (.unreachable n)) s
    ((t.buf.map (·.2)) ++ t.queue).foldl State.reroute s

/-! ### Lane repair (R310) -/

/-- The new map begins for received flits at the SEQ that the far end has named, once no replay of it is outstanding. -/
def Port.swapGot (t : Port) : Port :=
  match t.repair with
  | some r =>
    if !r.got && t.owed.isNone && r.theirs.any (seqPast t.rx) then
      { t with map := mapSpare r.lane t.map, repair := some { r with got := true } }
    else t
  | none => t
/-- At a flit boundary the new lane map begins where it can; with it in force both ways the repair is done. -/
def State.laneSwap (s : State) (p : Nat) : State :=
  let t := (s.port p).swapSent.swapGot
  match t.repair with
  | some r =>
    if r.sent && r.got then
      (s.modPort p fun _ =>
        { t with spare := false, repair := none, repairs := t.repairs.set 0 r.lane (t.repairs.get 0 r.lane + 1) }).portEvent p 5 r.lane
    else s.modPort p fun _ => t
  | none => s
/-- The data lane that a CRC failure is charged to. -/
def fecLane (f : Fec) : Nat :=
  f.bad.getD ((f.corrected.zipIdx.foldl (fun m x => if m.1 < x.1 then x else m) (0, 0)).2)
/-- A lane is charged; at 16 charges in 1,000,000 ticks the spare begins to train, when there is one. -/
def State.charge (s : State) (p : Nat) (fec : Fec) : State :=
  let t := s.port p
  let l := (t.map[fecLane fec]?).getD 0
  let times := s.reft :: ((t.charges.get [] l).filter fun x => s.reft < x + 1000000)
  let s := s.modPort p fun t => { t with charges := t.charges.set [] l times, crc := t.crc.set 0 l (t.crc.get 0 l + 1) }
  if times.length = 16 then
    (if t.spare && t.repair.isNone then s.modPort p fun t => { t with repair := some { lane := l } } else s).portEvent p 5 l
  else s

/-! ### Receiving (R308, R309) -/

/-- A flit is turned away: a nak names the next SEQ, from which the far end sends again up to the last that it had sent. -/
def State.turnBack (s : State) (p : Nat) (f : Flit) : State :=
  let t := s.port p
  let last := if flitOk f && seqPast f.seq t.rx then f.seq else t.rx
  let owed := t.owed.elim last fun y => if seqPast y last then y else last
  (s.modPort p fun t => { t with owed := some owed }).portAside p (.nak t.rx)
/-- A flit of a TYPE received on a port: a failed CRC is charged, and answered by a nak, as is a flit of the sequence that is
not the next one; flits outside the sequence have none. A flit of another TYPE than the step's is discarded. -/
def State.flitIn (s : State) (p : Nat) (typ : BitVec 4) (f : Flit) (fec : Fec) (seqd : Bool) (k : State → State) : State :=
  let t := s.port p
  if !t.up then s
  else if !flitOk f then (s.charge p fec).turnBack p f
  else if f.typ ≠ typ then s
  else if !seqd then (k s).laneSwap p
  else if f.seq ≠ t.rx then s.turnBack p f
  else
    (k ((s.modPort p fun t => { t with rx := t.rx + 1, owed := t.owed.filter fun y => f.seq != y }).portAside p
      (.ack f.seq))).laneSwap p
/-- FLIT_DATA. -/
def execFlitData (port : Nat) (f : Flit) (fec : Fec) (s : State) : Out := .next (s.flitIn port 0 f fec true fun s => s)
/-- FLIT_IDLE: no message; its errors are charged. -/
def execFlitIdle (port : Nat) (f : Flit) (fec : Fec) (s : State) : Out := .next (s.flitIn port 3 f fec false fun s => s)
/-- FLIT_ACK: sent flits up to the one named are acknowledged; a replay they cover has ended. -/
def execFlitAck (port : Nat) (f : Flit) (acked : BitVec 12) (s : State) : Out :=
  .next <| s.flitIn port 1 f f.fec false fun s =>
    if (s.port port).buf.any (·.1 == acked) then
      (s.modPort port fun t =>
        let buf := (t.buf.dropWhile (·.1 != acked)).tail
        match t.replay with
        | some (_, last, _) => if buf.any (·.1 == last) then { t with buf } else { t with buf, replay := none, fails := 0, stale := 0 }
        | none => { t with buf }).portPump port
    else s
/-- A port resends its unacknowledged flits; naks are still to come for some that had been sent behind the first. -/
def State.resend (s : State) (p stale : Nat) : State :=
  let t := s.port p
  match t.buf.head?, t.buf.getLast? with
  | some a, some b =>
    { (s.modPort p fun t => { t with replay := some (a.1, b.1, s.reft), stale }) with
      outbox := s.outbox ++ t.buf.map fun x => (p, { seq := x.1, msg := x.2 }) }
  | _, _ => s.modPort p fun t => { t with replay := none }
/-- A replay has failed: the next one starts, or after 8 in a row the port goes down, which the far end is told (log 31). -/
def State.replayFail (s : State) (p stale : Nat) : State :=
  let s := s.modPort p fun t => { t with fails := t.fails + 1 }
  if 8 ≤ (s.port p).fails then (s.portAside p .down).portDown p else s.resend p stale
/-- SPARE_TRAINED: the spare is trained, and the SEQ at which the new lane map begins for sent flits is named in a control
flit. -/
def execSpareTrained (port : Nat) (seq : BitVec 12) (s : State) : Out :=
  .next <|
    match (s.port port).repair with
    | some r =>
      if (s.port port).up && r.mine.isNone then
        ((s.modPort port fun t => { t with repair := some { r with mine := some seq } }).portSend port (.laneMap r.lane seq)).laneSwap port
      else s
    | _ => s
/-- The far end has named the SEQ at which the spare takes a lane's place in what it sends; an end with its spare to give
trains it too. -/
def Port.mapNamed (t : Port) (l : Nat) (q : BitVec 12) : Port :=
  match t.repair with
  | some r => if r.lane = l ∧ r.theirs = none then { t with repair := some { r with theirs := some q } } else t
  | none => if t.spare then { t with repair := some { lane := l, theirs := some q } } else t

/-! ### Training (R361) -/

/-- A port goes up with the lanes that trained. -/
def State.portUp (s : State) (port : Nat) (good : List Bool) : State :=
  let ok := fun i => (good[i]?).getD false
  let map := (List.range 4).map fun i => if ok i then i else 4
  (s.modPort port fun t =>
    { t with up := true, training := false, lanes := none, spare := (List.range 5).all ok, map, sentMap := map, tx := 0, rx := 0,
             buf := [], queue := [], replay := none, fails := 0, stale := 0, owed := none, charges := [], repair := none,
             lost := [] }).portEvent port 4 1
/-- A port goes up when its own training is done and the flits of the far end's have come (log 31). -/
def State.portAgree (s : State) (port : Nat) : State :=
  match (s.port port).lanes, (s.port port).peer with
  | some good, some _ => s.portUp port good
  | _, _ => s
/-- PORT_RETRY: a port that is down trains again after 10^9 ticks. -/
def execPortRetry (port : Nat) (s : State) : Out :=
  .next <|
    let t := s.port port
    if !t.up && !t.training && (s.die (port / 9)).up && t.downAt + 1000000000 ≤ s.reft then
      s.modPort port fun t => { t with training := true, lanes := none }
    else s

end Sys2Proof.Machine
end

