-- ==== Sys2Proof/Machine/Fabric.lean ====
section
/-! DEFINITION. Collective groups (R312-R332), opcodes 0xD8-0xDE: the fabric operations of this module's sheets, those
that arrive from other modules, abort agreement and re-formation. -/

namespace Sys2Proof.Machine

/-! ### The end of an operation (R317, R328) -/

/-- Rank of another member that an operation names. -/
def FabOp.target (o : FabOp) : Option Nat :=
  match o.kind with
  | .send _ _ _ t | .fetch _ _ _ t => some t
  | _ => none
/-- Length of an operation. -/
def FabOp.len (o : FabOp) : Nat :=
  match o.kind with
  | .send _ _ n _ | .fetch _ _ n _ => n
  | _ => 0
/-- A `greform`. -/
def FabOp.isReform (o : FabOp) : Bool :=
  match o.kind with
  | .reform _ | .reformMask _ => true
  | _ => false
/-- Operations pending on a slot. -/
def State.fabsOn (s : State) (ctx slot : Nat) : List FabOp := s.fabs.filter fun o => o.ctx == ctx && o.slot == slot
/-- An operation completes into its pool slot with a status, its bytes and a generation (R328). -/
def State.fabDone (s : State) (o : FabOp) (st : BitVec 8) (done gen : Nat) : State :=
  let g? := s.group? o.ctx o.slot
  let t := if st = stTimeout ∨ st = stLinkDown ∨ st = stAborted then (g?.bind (·.trip)).filter (·.gen == o.gen) else none
  let rank := match t with
    | some t => t.rank
    | none => o.target.getD (g?.elim 0 (·.rank))
  let reason := t.elim 0 (·.reason.toNat)
  let v : SlotVal :=
    { status := st, origin := rank, gen := t.elim gen (·.gen), done, tag := o.tag,
      aux := BitVec.ofNat 32 (rank % 4096 + 2 ^ 16 * reason + 2 ^ 24 * o.slot) }
  let s := { s.engDrop (.op o.id) with fabs := s.fabs.filter (·.id != o.id) }
  let core := (s.quires.find o.ref.h).elim 0 (·.core)
  ((s.boardDrop core o.id).slotEnd o.ref.h o.pool o.id).poolFill o.ref.h o.pool v

/-! ### Abort agreement (R316) -/

/-- A member originates an abort of an ACTIVE slot; it floods one origin in a generation. -/
def State.originate (s : State) (ctx slot : Nat) (reason : BitVec 8) : State :=
  match s.group? ctx slot with
  | none => s
  | some g =>
    if g.st ≠ .active ∨ g.origin then s
    else
      let t : Triple := { rank := g.rank, reason, gen := g.gen }
      (s.modGroup ctx slot fun g =>
        { g with st := .settling, origin := true, seen := [t], window := some (s.reft + 2 * g.lat) }).flood g (.notice ctx slot t)
/-- FLIT_ABORT_NOTICE: a notice of the slot's generation is taken while ACTIVE, which it ends, or while SETTLING. -/
def execFlitAbortNotice (port : Nat) (f : Flit) (ctx slot : Nat) (t : Triple) (s : State) : Out :=
  .next <| s.flitIn port 5 f f.fec true fun s =>
    match s.group? ctx slot with
    | none => s
    | some g =>
      if t.gen ≠ g.gen then s
      else if g.st = .active then
        (s.modGroup ctx slot fun g =>
          { g with st := .settling, seen := [t], window := some (s.reft + 2 * g.lat) }).flood g (.notice ctx slot t)
      else if g.st = .settling then s.modGroup ctx slot fun g => { g with seen := t :: g.seen }
      else s

/-! ### Sending an operation (R311, R323, R325) -/

/-- Bytes from an address on, in order, with what each meets, up to the first that faults. -/
def engScan (f : DWord → Except EngErr (Nat × DWord)) : Nat → DWord → List (DWord × Except EngErr (Nat × DWord))
  | 0, _ => []
  | n + 1, a =>
    let r := f a
    (a, r) ::
      match r with
      | .ok _ => engScan f n (a + 1)
      | .error _ => []
/-- Bytes of a local side; chamber bytes meet nothing. -/
def State.fabSide (s : State) (q : Quire) (x : Side) (n : Nat) (write : Bool) : List (DWord × Except EngErr (Nat × DWord)) :=
  engScan (fun a => if x.cham then .ok (0, 0) else s.engByte q.core q.ctx a 1 write) n x.addr
/-- The first fault that waits for a repair. -/
def repairOf (xs : List (DWord × Except EngErr (Nat × DWord))) : Option DWord :=
  xs.findSome? fun x => match x.2 with | .error .repair => some x.1 | _ => none
/-- The status of the first fatal fault, with the bytes before it. -/
def fatalOf (xs : List (DWord × Except EngErr (Nat × DWord))) : Option (BitVec 8 × Nat) :=
  xs.zipIdx.findSome? fun x => match x.1.2 with | .error (.fatal st) => some (st, x.2) | _ => none
/-- The accesses before a fault. -/
def hitsOf (xs : List (DWord × Except EngErr (Nat × DWord))) : List (DWord × Nat × DWord) :=
  xs.filterMap fun x => match x.2 with | .ok a => some (x.1, a.1, a.2) | .error _ => none
/-- An operation as its target gets it. -/
def FabOp.remote (o : FabOp) (node : BitVec 24) (m : Member) (rank : Nat) (kind : RemoteKind) : RemoteOp :=
  { port := 0, node, from_ := o.ctx, ctx := m.ctx, slot := o.slot, gen := o.gen, rank, num := o.id, kind, post := o.post, after := o.after }
/-- A fabric operation changed. -/
def State.modFab (s : State) (id : Nat) (f : FabOp → FabOp) : State :=
  { s with fabs := s.fabs.map fun o => if o.id = id then f o else o }
/-- An operation leaves for a member by its route. -/
def State.fabTo (s : State) (g : Group) (o : FabOp) (r : Nat) (kind : RemoteKind) : State :=
  match g.members[r]? with
  | none => s
  | some m =>
    (s.modFab o.id fun o => { o with sent := true, resend := false, port := s.route g r }).sendTo o.ctx o.slot r
      (.op r (o.remote s.cfg.node m g.rank kind))
/-- Physical addresses of some accesses, with their leaves. -/
def hitPas (xs : List (DWord × Nat × DWord)) : List (Nat × DWord) := xs.map (·.2)
/-- Bytes of checked accesses as an engine's operation reads them (R147). -/
def State.engBytes (s : State) (who : Who) (xs : List (DWord × Nat × DWord)) : List Byte :=
  xs.map fun x => s.engRead who x.1 x.2.1 x.2.2
/-- What a member's operation does with bytes that it reads at its own side, once no re-key holds them and the vats of algebra words
have answered. -/
def State.fabRead (s : State) (q : Quire) (o : FabOp) (hs : List (DWord × Nat × DWord)) (k : State → List Byte → State) : State :=
  s.engGate (.op o.id) (hitPas hs) [] fun s =>
    match s.algLoads (.op o.id) q.ctx (some o.ref) hs with
    | (s, false) => s
    | (s, true) => k (s.engDrop (.op o.id)) (s.engBytes (.op o.id) hs)
/-- An operation of an ACTIVE slot sends what it has to: a `gsend` reads its source first, or waits for a repair (R323). -/
def State.fabGo (s : State) (g : Group) (q : Quire) (o : FabOp) : State :=
  match o.kind with
  | .send loc rem n t =>
    let xs := s.fabSide q loc n false
    match repairOf xs, fatalOf xs with
    | some a, _ => (s.engFault q.core q.ctx a).1
    | none, some (st, k) => (s.eccCount q.core q.ctx st (loc.addr + BitVec.ofNat 64 k)).fabDone o st 0 o.gen
    | none, none =>
      if loc.cham then
        s.engGate (.op o.id) (plainPas (s.chamPas o.ref.h loc.addr.toNat n)) [] fun s => s.fabTo g o t (.write rem (s.chamGet o.ref.h loc.addr.toNat n))
      else s.fabRead q o (hitsOf xs) fun s bs => s.fabTo g o t (.write rem bs)
  | .fetch _ rem n t => s.fabTo g o t (.read rem n)
  | .bar i => ((List.range g.nmem).filter (· != g.rank)).foldl (fun s r => s.fabTo g o r (.bar i)) s
  | .reform _ | .reformMask _ => s
/-- What follows the `gbar` words of an instance that this module's members have issued follows one that completes (R325). -/
def State.barLink (s : State) (g : Group) (o : FabOp) (i : Nat) : State :=
  s.linkSync (fun y => match y with
    | .gbar c sl n j => sl == o.slot && n == o.gen && j == i && g.members.any fun m => m.node == s.cfg.node && m.ctx == c
    | _ => false) (.eng o.id)
/-- `gbar` words whose instance every member has issued complete (R325). -/
def State.barCheck (s : State) (ctx slot : Nat) : State :=
  match s.group? ctx slot with
  | none => s
  | some g =>
    if g.st ≠ .active then s
    else
      let count := fun r => if r = g.rank then g.bars else ((g.arrived.find? (·.1 == r)).elim 0 (·.2))
      (s.fabsOn ctx slot).foldl (fun s o =>
        match o.kind with
        | .bar i => if (List.range g.nmem).all fun r => i ≤ count r then (s.barLink g o i).fabDone o stOK 0 o.gen else s
        | _ => s) s

/-! ### Operations of other modules (R323-R325, R330, R331) -/

/-- The generation after one (R320). -/
def nextGen (g : Nat) : Nat := if 65535 ≤ g then 1 else g + 1
/-- Accesses of an operation of another module in a context: by a walker of the lowest die on which its partition holds a
gallery. -/
def State.farSide (s : State) (ctx : Nat) (va : DWord) (n : Nat) (write : Bool) : List (DWord × Except EngErr (Nat × DWord)) :=
  engScan (fun a => s.engAt ctx a 1 write (s.walk (s.triggerDie 0 ctx) ctx a)) n va
/-- Bytes for memory at checked addresses. -/
def engBytesOf (xs : List (DWord × Nat × DWord)) (bs : List Byte) : List EngByte :=
  (xs.zip bs).map fun x => { va := x.1.1, pa := x.1.2.1, leaf := x.1.2.2, b := x.2 }
/-- The far-end post (R324): its status; none for a fault that can be repaired. -/
def State.farPost (s : State) (who : Who) (ctx : Nat) (p : Nat × DWord × Word) : Option (State × BitVec 8) :=
  match s.engAt ctx p.2.1 4 true (s.walk (s.triggerDie 0 ctx) ctx p.2.1) with
  | .error .repair => none
  | .error (.fatal st) => some (s, st)
  | .ok a =>
    match if leafALG a.2 then s.tableAt (s.channel a.1) ctx (leafDTS a.2) else none with
    | none => some (s, stAccess)
    | some t =>
      if !slotPresent t p.1 || p.1 == 0 || slotKind t p.1 == 0 || ty64 (slotType t p.1) then some (s, stAccess)
      else
        some (s.engOp { s.engineOp who ctx none p.2.1 a.1 a.2
          (.slot p.1 (slotKind t p.1) (slotType t p.1) (p.2.2.setWidth 64)) with ord := .rel }, stOK)
/-- An operation of another module is counted when it ends with an uncorrectable error at a byte (R362). -/
def State.farEcc (s : State) (ctx : Nat) (st : BitVec 8) (va : DWord) : State :=
  if st = stEcc then
    match s.walk (s.triggerDie 0 ctx) ctx va with
    | .ok t => s.ueCount (t.pa va)
    | _ => s
  else s
/-- The name of an operation of another module for its accesses (R311). -/
def remoteWho (o : RemoteOp) : Who := .remote o.ctx o.slot o.gen o.rank o.num
/-- What an operation of another module meets, once no re-key holds its accesses and its vats have answered its reads. -/
def State.farAccess (s : State) (o : RemoteOp) (reads writes : List (DWord × Nat × DWord)) (k : State → State × Option FabricAnswer) :
    State × Option FabricAnswer :=
  match s.keyGate (remoteWho o) ((reads.map (·.2.1 / 64 * 64)).eraseDups) ((writes.map (·.2.1 / 64 * 64)).eraseDups) with
  | (s, false) => (s, none)
  | (s, true) =>
    match s.algLoads (remoteWho o) o.ctx none reads with
    | (s, false) => (s, none)
    | (s, true) => k s
/-- An operation of another module answers once its vats have applied what it has sent them (R324). -/
def State.farEnd (s : State) (f : Fin) : State × Option FabricAnswer :=
  if s.engSent f.who then (s.finPut f, none) else (s.engDrop f.who, some { status := f.status, done := f.done, data := f.data })
/-- What follows the accesses of an operation of another module: its far-end post, whose status it takes, once they have been
performed, and its answer (R324). A repair of the post's page does not undo them. -/
def State.farStep (s : State) (o : RemoteOp) (f : Fin) : State × Option FabricAnswer :=
  match if f.post && !s.engSent f.who then o.post else none with
  | none => s.farEnd f
  | some p =>
    match s.farPost f.who o.ctx p with
    | none => (((s.engFault (200 * s.triggerDie 0 o.ctx) o.ctx p.2.1).1).finPut f, none)
    | some (s, st) => s.farEnd { f with status := st, post := false }
/-- An operation of another module performed, with its answer (R323, R324); none while it waits, with a request for the
pager where a fault can be repaired. -/
def State.perform (s : State) (o : RemoteOp) : State × Option FabricAnswer :=
  let die := 200 * s.triggerDie 0 o.ctx
  match s.fins.find? (·.who == remoteWho o), o.kind with
  | some f, _ => s.farStep o f
  | none, .bar _ => (s, none)
  | none, .write a bs =>
    let xs := s.farSide o.ctx a bs.length true
    match repairOf xs, fatalOf xs with
    | some a, _ => ((s.engFault die o.ctx a).1, none)
    | none, some (st, n) =>
      let hs := hitsOf (xs.take n)
      s.farAccess o [] hs fun s =>
        ((s.engWrite (remoteWho o) o.ctx none (engBytesOf hs bs)).farEcc o.ctx st (a + BitVec.ofNat 64 n)).farEnd
          { who := remoteWho o, status := st, done := n }
    | none, none =>
      s.farAccess o [] (hitsOf xs) fun s =>
        (s.engWrite (remoteWho o) o.ctx none (engBytesOf (hitsOf xs) bs)).farStep o
          { who := remoteWho o, status := stOK, done := bs.length, post := o.post.isSome }
  | none, .read a n =>
    let xs := s.farSide o.ctx a n false
    match repairOf xs, fatalOf xs with
    | some a, _ => ((s.engFault die o.ctx a).1, none)
    | none, some (st, k) => (s.farEcc o.ctx st (a + BitVec.ofNat 64 k), some { status := st, done := 0, data := [] })
    | none, none =>
      s.farAccess o (hitsOf xs) [] fun s =>
        s.farStep o { who := remoteWho o, status := stOK, done := n, data := s.engBytes (remoteWho o) (hitsOf xs), post := o.post.isSome }
/-- The name under which an operation is applied once (R311). -/
def remoteKey (o : RemoteOp) : Nat × Nat × Nat × Nat × Nat := (o.ctx, o.slot, o.gen, o.rank, o.num)
/-- SEQ keeps an operation behind an earlier one that has not been performed here (R323). -/
def State.seqHeld (s : State) (ctx slot : Nat) (o : RemoteOp) : Bool :=
  o.after.any fun n => !s.applied.contains (ctx, slot, o.gen, o.rank, n)
/-- An operation that was held for a re-formation waits behind earlier ones of those (R331), but not behind one that SEQ
keeps waiting. -/
def State.linedUp (s : State) (ctx slot : Nat) (g : Group) (o : RemoteOp) : Bool :=
  g.lined.contains (o.rank, o.num) &&
  (g.held.find? fun x => g.lined.contains (x.rank, x.num) && !s.seqHeld ctx slot x) != some o
/-- What a member makes of an operation that has arrived (R319, R323, R325, R330, R331). -/
def State.heldTry (s : State) (ctx slot : Nat) (o : RemoteOp) : State :=
  match s.group? ctx slot with
  | none => s
  | some g =>
    let drop := fun (s : State) => (s.engDrop (remoteWho o)).modGroup ctx slot fun g =>
      { g with held := g.held.filter fun x => remoteKey x != remoteKey o, lined := g.lined.filter fun x => x != (o.rank, o.num) }
    let answer := fun (s : State) (a : FabricAnswer) => (drop s).answerOp o (.reply o a)
    if o.gen = g.gen then
      if g.st ≠ .active then drop s
      else if s.seqHeld ctx slot o || s.linedUp ctx slot g o then s
      else
        match o.kind with
        | .bar i =>
          let put := fun (xs : List (Nat × Nat)) =>
            (o.rank, max i ((xs.find? fun x => x.1 == o.rank).elim 0 (·.2))) :: xs.filter fun x => x.1 != o.rank
          ({ (drop s) with applied := remoteKey o :: s.applied }.modGroup ctx slot fun g =>
            { g with arrived := put g.arrived }).barCheck ctx slot
        | _ =>
          if s.tablesHeld o.ctx then s
          else match s.perform o with
          | (s, none) => s
          | (s, some a) => answer { s with applied := remoteKey o :: s.applied } a
    else if o.gen = nextGen g.gen ∧ (s.fabsOn ctx slot).any (·.isReform) = true then s
    else answer s { status := stStaleGen, done := 0, data := [] }
/-- The operations that wait at a slot, in arrival order, as often as one may free another. -/
def State.heldRun (s : State) (ctx slot : Nat) : State :=
  let n := ((s.group? ctx slot).elim [] (·.held)).length
  (List.range n).foldl (fun s _ =>
    ((s.group? ctx slot).elim [] (·.held)).foldl (fun s o => s.heldTry ctx slot o) s) s
/-- REMOTE_OP_ARRIVAL: an operation arrives from another module; a copy of one that has arrived is discarded (R311). -/
def execRemoteOpArrival (op : RemoteOp) (s : State) : Out :=
  .next <|
    match s.group? op.ctx op.slot with
    | none => s
    | some g =>
      if s.applied.contains (remoteKey op) || g.held.any (fun x => remoteKey x == remoteKey op) then s
      else (s.modGroup op.ctx op.slot fun g => { g with held := g.held ++ [op] }).heldRun op.ctx op.slot

/-! ### Answers (R323, R328, R330) -/

/-- The data of an answer written at the member, and its end; the answer is kept while a re-key holds it, and until the vats of
algebra words have applied it. -/
def State.fabWrite (s : State) (q : Quire) (o : FabOp) (a : FabricAnswer) (hs : List (DWord × Nat × DWord)) (f : Fin)
    (k : State → State) : State :=
  (s.modFab o.id fun o => { o with ans := some a }).engGate (.op o.id) [] (hitPas hs) fun s =>
    (k (s.engWrite (.op o.id) q.ctx (some o.ref) (engBytesOf hs (a.data.take o.len)))).engEnd f fun s f => s.fabDone o f.status f.done o.gen
/-- An answer is taken: a fetch writes its data, or waits for a repair with the answer. -/
def State.fabAnswer (s : State) (o : FabOp) (a : FabricAnswer) : State :=
  match s.quires.find o.ref.h with
  | none => s
  | some q =>
    s.engStep (.op o.id) (fun s f => s.fabDone o f.status f.done o.gen) fun s =>
    match o.kind with
    | .fetch loc _ n _ =>
      let data := a.data.take n
      let xs := s.fabSide q loc data.length true
      match repairOf xs, fatalOf xs with
      | some va, _ => (s.engFault q.core q.ctx va).1.modFab o.id fun o => { o with ans := some a }
      | none, some (st, k) =>
        s.fabWrite q o a (hitsOf (xs.take k))
          { who := .op o.id, status := if a.status = stOK then st else a.status, done := k } fun s =>
            s.eccCount q.core q.ctx st (loc.addr + BitVec.ofNat 64 k)
      | none, none =>
        if loc.cham then
          (s.modFab o.id fun o => { o with ans := some a }).engGate (.op o.id) []
              (plainPas (s.chamPas o.ref.h loc.addr.toNat data.length)) fun s =>
            (s.chamImage o.ref.h loc.addr.toNat data).fabDone o a.status data.length o.gen
        else s.fabWrite q o a (hitsOf xs) { who := .op o.id, status := a.status, done := data.length } id
    | .send _ _ n _ => s.fabDone o a.status (if a.status = stOK then n else a.done) o.gen
    | _ => s.fabDone o a.status 0 o.gen
/-- FABRIC_OP_COMPLETE: the target's answer to an operation that has left and has not found its routes gone. -/
def execFabricOpComplete (id : Nat) (ans : FabricAnswer) (s : State) : Out :=
  .next <|
    match s.fabs.find? (·.id == id) with
    | none => s
    | some o => if o.sent && !o.noRoute && o.ans.isNone && !o.isReform then s.fabAnswer o ans else s

/-! ### Re-formation (R320, R331, R332) -/

/-- The `greform` that drives a slot: the earliest with its mask. -/
def State.driver (s : State) (ctx slot : Nat) : Option FabOp :=
  (s.fabsOn ctx slot).find? fun o => match o.kind with | .reform _ => true | _ => false
/-- The reachable member of least rank. -/
def State.coordinator (s : State) (g : Group) : Nat := ((s.reached g).head?).getD g.rank
/-- A decision is taken at this member: it renumbers and performs what it held, or is left out, which keeps its triple and
refuses what it held (R320 step 4, R326, R331, R332). -/
def State.decide' (s : State) (ctx slot : Nat) (members : List Nat) : State :=
  match s.group? ctx slot with
  | none => s
  | some g =>
    let keep := (List.range g.nmem).filter members.contains
    let inSet := keep.contains g.rank
    let o? := s.driver ctx slot
    let early := g.held.filter fun x => x.gen == nextGen g.gen
    let s := s.modGroup ctx slot fun g =>
      let g := { g with gen := nextGen g.gen, seen := [], window := none, origin := false, bars := 0, arrived := [],
                        props := [], shut := false, decided := none }
      if inSet then
        { g with st := .active, trip := none, nmem := keep.length, rank := (keep.findIdx? (· == g.rank)).getD 0,
                 members := keep.filterMap fun r => g.members[r]?, lined := early.map fun x => (x.rank, x.num) }
      else { g with st := .excluded, held := g.held.filter fun x => x.gen != nextGen g.gen }
    let s := if inSet then s
      else early.foldl (fun s o => s.answerOp o (.reply o { status := stStaleGen, done := 0, data := [] })) s
    let s := match o? with
      | none => s
      | some o => if inSet then s.fabDone o stOK 0 (nextGen g.gen) else s.fabDone o stExcluded 0 o.gen
    s.heldRun ctx slot
/-- The collection ends: with a majority the coordinator floods its decision and takes it (R320 steps 2, 3). -/
def State.collect (s : State) (ctx slot : Nat) : State :=
  match s.group? ctx slot with
  | none => s
  | some g =>
    let s := s.modGroup ctx slot fun g => { g with shut := true }
    let set := (List.range g.nmem).filter fun r => g.props.any (·.1 == r) && g.props.all (·.2.contains r)
    if set.length * 2 ≤ g.nmem then s
    else
      (s.flood g (.decision ctx slot g.gen set)).decide' ctx slot set
/-- A coordinator that every member it reaches has answered ends the collection. -/
def State.collectIf (s : State) (ctx slot : Nat) : State :=
  match s.group? ctx slot with
  | none => s
  | some g =>
    if g.st = .reforming ∧ !g.shut ∧ s.coordinator g = g.rank ∧
        ((s.reached g).all fun r => g.props.any (·.1 == r)) = true then s.collect ctx slot
    else s
/-- A settled slot re-forms: the member's proposal goes to its coordinator (R320 step 1). -/
def State.reformStart (s : State) (ctx slot : Nat) (mask : List Byte) : State :=
  match s.group? ctx slot with
  | none => s
  | some g =>
    let set := (s.reached g).filter fun r =>
      r == g.rank || mask.isEmpty || ((mask[r / 8]?).getD 0).getLsbD (r % 8)
    let c := s.coordinator g
    let s := s.modGroup ctx slot fun g => { g with st := .reforming }
    if c = g.rank then
      (s.modGroup ctx slot fun g => { g with props := (g.rank, set) :: g.props.filter (·.1 != g.rank) }).collectIf ctx slot
    else s.sendTo ctx slot c (.proposal ctx slot c g.gen g.rank set)
/-- A `greform` with its mask meets the slot's state (R314, R320). -/
def State.reformStep (s : State) (o : FabOp) (mask : List Byte) : State :=
  match s.group? o.ctx o.slot with
  | none => s
  | some g =>
    match g.st with
    | .active => s.originate o.ctx o.slot 0x04
    | .settling | .unbound => s
    | .aborted => s.reformStart o.ctx o.slot mask
    | .reforming => s.fabDone o stAborted 0 o.gen
    | .excluded => s.fabDone o stExcluded 0 o.gen
/-- A `greform` reads its mask, waits for a repair, or completes with a fatal status (R320). -/
def State.reformMask (s : State) (q : Quire) (o : FabOp) (a : DWord) : State :=
  let xs := s.fabSide q { cham := false, addr := a } 512 false
  match repairOf xs, fatalOf xs with
  | some a, _ => (s.engFault q.core q.ctx a).1
  | none, some (st, k) => (s.eccCount q.core q.ctx st (a + BitVec.ofNat 64 k)).fabDone o st 0 o.gen
  | none, none =>
    s.fabRead q o (hitsOf xs) fun s mask =>
        (s.modFab o.id fun o => { o with kind := .reform mask }).reformStep { o with kind := .reform mask } mask
/-- What an operation can do that has not left yet, or whose data has not been written (R323). -/
def State.fabTry (s : State) (id : Nat) : State :=
  match s.fabs.find? (·.id == id) with
  | none => s
  | some o =>
    match s.quires.find o.ref.h, s.group? o.ctx o.slot with
    | some q, some g =>
      if s.tablesHeld o.ctx then s
      else
      match o.ans, o.kind with
      | some a, _ => s.fabAnswer o a
      | none, .reformMask a => s.reformMask q o a
      | none, .reform _ => s
      | none, _ => if (!o.sent || o.resend) && g.st = .active && g.gen == o.gen then s.fabGo g q o else s
    | _, _ => s
/-- Every fabric operation that waits for memory tries again. -/
def State.fabRetry (s : State) : State :=
  let s := (s.fabs.map (·.id)).foldl State.fabTry s
  s.ctxs.foldl (fun s c => c.2.groups.foldl (fun s g => s.heldRun c.1 g.1) s) s

/-! ### The words (R321, R322, R326, R327) -/

/-- The group slot of a word. -/
def gslot (w : FE) : Nat := (w.mod.extractLsb' 0 4).toNat
/-- A bound slot, else ACCESS reason 7 (R322). -/
def gBound (e : Env) (s : State) (w : FE) (k : Group → Eff) : Eff :=
  match s.group? e.q.ctx (gslot w) with
  | some g => if g.st = .unbound then .trap s (e.trap162 cAccess e.sh.pc 127 7) else k g
  | none => .trap s (e.trap162 cAccess e.sh.pc 127 7)
/-- The first of a list of checks that fails traps. -/
def gChecks (e : Env) (s : State) (cs : List (Bool × BitVec 8 × DWord × Nat)) (k : Unit → Eff) : Eff :=
  match cs.find? (·.1) with
  | some (_, cause, a, reason) => .trap s (e.trap162 cause a 127 reason)
  | none => k ()
/-- The fork of a fabric operation (R314, R315, R322): its scoreboard entry and pool slot together, its deadline, and the
state check of its slot. -/
def fabIssue (e : Env) (s : State) (w : FE) (g : Group) (kind : Nat → FKind) (post : Option (Nat × DWord × Word))
    (after : List Nat) (range : Option (Nat × Nat)) (dl : DWord) (tag : Word) : Eff :=
  poolEff e s w.va.toNat fun p =>
    if s.unplaced e.r e.sh then .wait s (.issue 15)
    else if range.isSome && s.boardFree e.q.core = 0 then .wait s (.issue 12)
    else if !p.room then .wait s (.issue 10)
    else
      let (id, s) := s.fresh
      let slot := gslot w
      let t := s.reft
      let d := max (if dl = 0 then t + g.span else dl.toNat) (t + 4 * g.lat)
      let s := (s.reserve e.r.h w.va.toNat).boardAdd e.q.core
        (range.toList.map fun r => { op := id, h := e.r.h, lo := r.1, hi := r.2, copy := false, mx := false })
      let inst := g.bars + 1
      let o : FabOp :=
        { id, ref := e.r, ctx := e.q.ctx, slot, kind := kind inst, post, after, pool := w.va.toNat, tag, d,
          exp := d - 3 * g.lat, gen := g.gen, port := none, sent := false, noRoute := false, expired := false, ans := none }
      let s := { (s.forkEng e.r id) with fabs := s.fabs ++ [o] }
      .done <|
        match o.kind, g.st with
        | _, .excluded => s.fabDone o stExcluded 0 o.gen
        | _, .reforming => s.fabDone o stAborted 0 o.gen
        | .reformMask a, _ => s.reformMask e.q o a
        | .reform m, _ => if (s.driver o.ctx slot).any (·.id == id) then s.reformStep o m else s
        | _, .aborted => s.fabDone o stAborted 0 o.gen
        | .bar _, .active =>
          ((((s.relMark e.r 127 (.gbar o.ctx slot o.gen inst)).modGroup o.ctx slot fun g => { g with bars := g.bars + 1 }).fabGo g e.q
            o)).barCheck o.ctx slot
        | _, .active => s.fabGo g e.q o
        | _, _ => s
/-- `gsend` and `gfetch` (R321-R324). -/
def xferEff (e : Env) (s : State) (w : FE) (send : Bool) : Eff :=
  poolEff e s w.va.toNat fun _ =>
    gBound e s w fun g =>
      let lc := w.mod.getLsbD 4
      let pst := w.mod.getLsbD 5
      let loc : Side := { cham := lc, addr := if lc then (e.s w.sa.toNat).setWidth 64 else e.spair w.sa.toNat }
      let rem := e.spair w.sb.toNat
      let len := (e.s w.sc.toNat).toNat
      let tw := (e.s (w.sc.toNat + 1)).toNat
      let target := tw % 4096
      let pa := e.spair (w.sc.toNat + 2)
      gChecks e s
        [(g.nmem ≤ target || target == g.rank, cAccess, e.sh.pc, 7), (!lc && !canonical loc.addr, cAccess, loc.addr, 0),
         (!canonical rem, cAccess, rem, 0), (pst && !canonical pa, cAccess, pa, 0),
         (lc && len != 0 && !e.q.inCham loc.addr.toNat len, cAccess, loc.addr, 2), (2 ^ 30 < len || 4096 ≤ tw, cAccess, e.sh.pc, 6),
         (pst && pa.toNat % 4 != 0, cMisaligned, pa, 0)] <| fun _ =>
      let after := if w.mod.getLsbD 10 then
        ((s.fabsOn e.q.ctx (gslot w)).filter fun o => o.ref == e.r && o.target == some target).map (·.id) else []
      fabIssue e s w g (fun _ => if send then .send loc rem len target else .fetch loc rem len target)
        (if pst then some ((w.mod.extractLsb' 6 4).toNat, pa, e.s (w.sd.toNat + 3)) else none) after
        (if lc then some (loc.addr.toNat, loc.addr.toNat + len) else none) (e.spair w.sd.toNat) (e.s (w.sd.toNat + 2))
/-- R323. -/
def execGsend (w : FE) (s : State) : Out := issue {} s fun e => xferEff e s w true
/-- R323. -/
def execGfetch (w : FE) (s : State) : Out := issue {} s fun e => xferEff e s w false
/-- R325. -/
def execGbar (w : FE) (s : State) : Out :=
  issue {} s fun e =>
    poolEff e s w.va.toNat fun _ =>
      gBound e s w fun g =>
        fabIssue e s w g .bar none [] none (e.spair w.sd.toNat) (e.s (w.sd.toNat + 2))
/-- Codes of R326. -/
def GState.code : GState → Nat
  | .unbound => 0 | .active => 1 | .settling => 2 | .aborted => 3 | .reforming => 4 | .excluded => 5
/-- R326: the snapshot is that of the issue. -/
def execGstat (w : FE) (s : State) : Out :=
  issue { ll := some w.com.fs } s fun e =>
    let vals : List Nat := match s.group? e.q.ctx (gslot w) with
      | none => [0, 0, 0, 0]
      | some g =>
        [g.st.code + 2 ^ 16 * g.gen, g.rank + 2 ^ 16 * g.nmem, g.trip.elim 0 fun t => t.rank + 2 ^ 16 * t.reason.toNat,
         (s.fabsOn e.q.ctx (gslot w)).length]
    let (id, s) := s.fresh
    .done (s.llOpen e w.com.fs id 0 (outsOf (vals.zipIdx.map fun v => (.s (w.sd.toNat + v.2), BitVec.ofNat 32 v.1))) false)
/-- R327. -/
def execGabort (w : FE) (s : State) : Out :=
  issue {} s fun e =>
    gBound e s w fun _ => .done (s.originate e.q.ctx (gslot w) (0x80 + ((e.s w.sa.toNat).extractLsb' 0 7).setWidth 8))
/-- R320. -/
def execGreform (w : FE) (s : State) : Out :=
  issue {} s fun e =>
    poolEff e s w.va.toNat fun _ =>
      gBound e s w fun g =>
        let a := e.spair w.sb.toNat
        gChecks e s [(a != 0 && !canonical a, cAccess, a, 0)] <| fun _ =>
          fabIssue e s w g (fun _ => if a = 0 then .reform [] else .reformMask a) none [] none (e.spair w.sa.toNat) (e.s w.sd.toNat)
/-- R327. -/
def execGdl (w : FE) (s : State) : Out :=
  issue {} s fun e =>
    gBound e s w fun g =>
      let v := (e.spair w.sa.toNat).toNat
      gChecks e s [(2 ^ 40 < v, cAccess, e.sh.pc, 6)] <| fun _ =>
        .done (s.modGroup e.q.ctx (gslot w) fun g' => { g' with span := if v = 0 then g.defdl else v })

/-! ### Events (R311, R315-R320) -/

/-- OPERATION_EXPIRY: an operation passes its expiry point, which aborts an ACTIVE slot of its generation. -/
def execOperationExpiry (id : Nat) (s : State) : Out :=
  .next <|
    match s.fabs.find? (·.id == id) with
    | none => s
    | some o =>
      if s.reft < o.exp ∨ o.expired then s
      else
        let s := s.modFab id fun o => { o with expired := true }
        if (s.group? o.ctx o.slot).any (·.gen == o.gen) then s.originate o.ctx o.slot 0x01 else s
/-- ROUTE_LOSS: an operation finds no route to its target, which aborts an ACTIVE slot of its generation. -/
def execRouteLoss (id : Nat) (s : State) : Out :=
  .next <|
    match s.fabs.find? (·.id == id) with
    | none => s
    | some o =>
      match o.target, s.group? o.ctx o.slot with
      | some t, some g =>
        if o.noRoute || g.gen != o.gen || (s.route g t).isSome then s
        else (s.modFab id fun o => { o with noRoute := true, port := none }).originate o.ctx o.slot 0x02
      | _, _ => s
/-- SETTLE: the window ends; the triple is the notice of the least origin rank, pending operations complete, and a decision
that has come is taken, or a `greform` that waited goes on (R316, R317, R320). -/
def execSettle (ctx slot : Nat) (s : State) : Out :=
  .next <|
    match s.group? ctx slot with
    | none => s
    | some g =>
      match g.window with
      | none => s
      | some t =>
        if g.st ≠ .settling ∨ s.reft < t then s
        else
          let least := g.seen.foldl (fun (m : Option Triple) x => match m with
            | none => some x
            | some y => if x.rank < y.rank then some x else some y) none
          let s := s.modGroup ctx slot fun g => { g with st := .aborted, trip := least, window := none }
          let d := s.driver ctx slot
          let s := (s.fabsOn ctx slot).foldl (fun s o =>
            match o.kind with
            | .reformMask _ => s
            | .reform _ =>
              if d.any (·.id == o.id) then s else s.fabDone o (if o.exp ≤ s.reft then stTimeout else stAborted) 0 o.gen
            | _ => s.fabDone o (if o.noRoute then stLinkDown else if o.exp ≤ s.reft then stTimeout else stAborted) 0 o.gen) s
          let s := s.heldRun ctx slot
          match g.decided, d with
          | some members, _ => s.decide' ctx slot members
          | none, some o => match o.kind with | .reform m => s.reformStart ctx slot m | _ => s
          | none, none => s
/-- GREFORM_PROPOSAL: a proposal of the slot's generation arrives at its coordinator while it collects. -/
def execGreformProposal (ctx slot rank gen : Nat) (members : List Nat) (s : State) : Out :=
  .next <|
    match s.group? ctx slot with
    | none => s
    | some g =>
      if g.gen ≠ gen ∨ g.shut then s
      else (s.modGroup ctx slot fun g => { g with props := (rank, members) :: g.props.filter (·.1 != rank) }).collectIf ctx slot
/-- COORDINATOR_TIMEOUT: REFT has reached the coordinator's own deadline less 2L. -/
def execCoordinatorTimeout (ctx slot : Nat) (s : State) : Out :=
  .next <|
    match s.group? ctx slot, s.driver ctx slot with
    | some g, some o =>
      if g.st = .reforming ∧ !g.shut ∧ s.coordinator g = g.rank ∧ o.d - 2 * g.lat ≤ s.reft then s.collect ctx slot else s
    | _, _ => s
/-- GREFORM_DECISION: a decision of the slot's generation arrives; a slot that has not settled keeps it until it has, and
the operations pending on an ACTIVE one, which no notice has reached, complete with ABORTED (log 34). -/
def execGreformDecision (ctx slot gen : Nat) (members : List Nat) (s : State) : Out :=
  .next <|
    match s.group? ctx slot with
    | none => s
    | some g =>
      if g.gen ≠ gen then s
      else if g.st = .aborted ∨ g.st = .reforming then s.decide' ctx slot members
      else if g.st = .settling then s.modGroup ctx slot fun g => { g with decided := some members }
      else if g.st = .active then
        ((s.fabsOn ctx slot).foldl (fun s o => if o.isReform then s else s.fabDone o stAborted 0 o.gen) s).decide' ctx slot members
      else s
/-- GREFORM_TIMEOUT: no decision by the effective deadline; the slot is ABORTED again, and what it held is refused. -/
def execGreformTimeout (id : Nat) (s : State) : Out :=
  .next <|
    match s.fabs.find? (·.id == id) with
    | none => s
    | some o =>
      if !o.isReform || s.reft < o.d then s
      else
        let drives := (s.driver o.ctx o.slot).any (·.id == id)
        let s := s.modGroup o.ctx o.slot fun g =>
          if drives && g.st = .reforming then { g with st := .aborted, props := [], shut := false } else g
        (s.fabDone o stTimeout 0 o.gen).heldRun o.ctx o.slot
/-- A change of reach: operations not acknowledged end to end whose port is down move to the next route, arrivals of `gbar`
are sent again (R311), and coordinators look again (R320). -/
def State.reachChanged (s : State) : State :=
  let s := s.fabs.foldl (fun s o =>
    match s.quires.find o.ref.h, s.group? o.ctx o.slot with
    | some q, some g =>
      if (g.st = .active ∨ g.st = .settling) ∧ g.gen = o.gen ∧ !o.noRoute ∧ o.sent ∧
          (o.target.isNone || o.port.all fun p => !(s.port p).up) = true then
        (s.modFab o.id fun o => { o with resend := true }).fabGo g q o
      else s
    | _, _ => s) s
  s.ctxs.foldl (fun s c => c.2.groups.foldl (fun s g => s.collectIf c.1 g.1) s) s
/-- FLIT_NAK: the sender resends from the flit named, and the flits before it have arrived. Within an outstanding replay,
that replay has failed, unless the nak is for a flit that had been sent behind the one where it began. -/
def execFlitNak (port : Nat) (f : Flit) (named : BitVec 12) (s : State) : Out :=
  .next <| State.reachChanged <| s.flitIn port 2 f f.fec false fun s =>
    let t := s.port port
    if t.buf.any (·.1 == named) then
      let buf := t.buf.dropWhile (·.1 != named)
      let again (s : State) : State := s.modPort port fun t => { t with buf }
      match t.replay with
      | some (a, b, _) =>
        if named = a ∧ t.stale ≠ 0 then s.modPort port fun t => { t with stale := t.stale - 1 }
        else if (named - a).toNat ≤ (b - a).toNat then ((again s).replayFail port (buf.length - 1)).portPump port
        else ((again s).resend port (buf.length - 1)).portPump port
      | none => ((again s).resend port (buf.length - 1)).portPump port
    else s
/-- REPLAY_TIMEOUT: no ack has covered a replay within 2,000 ticks. -/
def execReplayTimeout (port : Nat) (s : State) : Out :=
  .next <|
    match (s.port port).replay with
    | some (_, _, t) => if (s.port port).up && t + 2000 ≤ s.reft then (s.replayFail port 0).reachChanged else s
    | none => s
/-- FLIT_CONTROL: a lane map's SEQ, a node reported unreachable on the port, the far end's going down, or the node and port
behind the port. -/
def execFlitControl (port : Nat) (f : Flit) (msg : Control) (s : State) : Out :=
  .next <|
    match msg with
    | .hello n m =>
      if (s.port port).up then s.flitIn port 4 f f.fec false fun s => s.modPort port fun t => { t with peer := some (n, m) }
      else if flitOk f ∧ f.typ = 4 then
        ((s.modPort port fun t => { t with peer := some (n, m) }).portAgree port).reachChanged
      else s
    | .laneMap l q => s.flitIn port 4 f f.fec true fun s => s.modPort port fun t => t.mapNamed l q
    | .down => (s.flitIn port 4 f f.fec false fun s => s.portDown port).reachChanged
    | .unreachable n =>
      s.flitIn port 4 f f.fec true fun s =>
        (s.modPort port fun t => { t with lost := if t.lost.contains n then t.lost else n :: t.lost }).reachChanged
/-- PORT_TRAINING_DONE: with 4 good data lanes, the spare in the place of a bad one where needed, this end sends the flits
with its node and port, and the port goes up when both ends agree. -/
def execPortTrainingDone (port : Nat) (good : List Bool) (s : State) : Out :=
  .next <|
    let ok := fun i => (good[i]?).getD false
    let bad := (List.range 4).filter fun i => !ok i
    if !(s.port port).training then s
    else
      let s := s.modPort port fun t => { t with training := false, downAt := s.reft }
      if bad.isEmpty || (bad.length == 1 && ok 4) then
        (((s.modPort port fun t => { t with lanes := some good }).portAside port (.hello s.cfg.node port)).portAgree port).reachChanged
      else s

end Sys2Proof.Machine
end

