-- ==== Sys2Proof/Machine/Matrix.lean ====
section
/-! DEFINITION. The matrix engine (R101-R106, R243-R267), opcodes 0xC0-0xC8, and the siphon streams (R261-R263). The
engine of a core takes its operations in order; one K-block is one step. -/

namespace Sys2Proof.Machine

/-! ### Descriptors (R246, R247, R253) -/

/-- Half-bytes of an element of a format (R247). -/
def mxSize (f : Nat) : Nat := ([2, 2, 1, 4, 4, 2, 2][f]?).getD 2
/-- Formats that may pair (R247). -/
def mxPairs (f g : Nat) : Bool := (f ≤ 1 && g ≤ 1) || (2 ≤ f && f ≤ 4 && g == f) || (5 ≤ f && f ≤ 6 && 5 ≤ g && g ≤ 6)
/-- Scale kinds that a format allows (R247). -/
def mxScaleOk (f k : Nat) : Bool := if f = 2 then k == 2 else if f = 3 ∨ f = 4 then k == 0 else k ≤ 1
/-- A scale address of R246. -/
def scaleAddrOk (kind : Nat) (cham : Bool) (a : Nat) : Bool := if kind = 0 then a == 0 else !cham || a < 2 ^ 32

/-- A format-block descriptor; none where it is invalid (R246, R247). -/
def fmtBlockOf (bs : List Byte) : Option FmtBlock :=
  let n := fun lo len => leNat ((bs.drop lo).take len)
  let f : FmtBlock :=
    { afmt := n 0 1, bfmt := n 1 1, ask := n 2 1, bsk := n 3 1, aloc := n 4 1 % 2 == 1, bloc := n 4 1 / 2 % 2 == 1,
      ascl := BitVec.ofNat 64 (n 8 8), bscl := BitVec.ofNat 64 (n 16 8) }
  if n 4 1 < 4 && n 5 3 == 0 && n 24 8 == 0 && mxPairs f.afmt f.bfmt && mxScaleOk f.afmt f.ask && mxScaleOk f.bfmt f.bsk &&
      scaleAddrOk f.ask f.aloc (n 8 8) && scaleAddrOk f.bsk f.bloc (n 16 8) then some f
  else none
/-- A convolution descriptor with p0; none where it is invalid for K (R253). -/
def convOf (bs : List Byte) (k p0 : Nat) : Option Conv :=
  let n := fun lo len => leNat ((bs.drop lo).take len)
  let c : Conv :=
    { n := n 0 2, h := n 2 2, w := n 4 2, c := n 6 2, p := n 8 2, q := n 10 2, fh := n 12 1, fw := n 13 1, sh := n 14 1,
      sw := n 15 1, ph := n 16 1, pw := n 17 1, dh := n 18 1, dw := n 19 1, p0 }
  if [c.n, c.h, c.w, c.c, c.p, c.q, c.fh, c.fw, c.sh, c.sw, c.dh, c.dw].all (· != 0) && c.fh * c.fw * c.c == k &&
      n 20 12 == 0 then some c
  else none

/-! ### Operands (R248, R254) -/

/-- Index in X of element A[i, k], none where it is +0 and not read (R254). -/
def Conv.at (c : Conv) (i k : Nat) : Option Nat :=
  let p := c.p0 + i
  if c.n * c.p * c.q ≤ p then none
  else
    let h : Int := (p / c.q % c.p * c.sh : Nat) - (c.ph : Int) + (k / (c.c * c.fw) * c.dh : Nat)
    let w : Int := (p % c.q * c.sw : Nat) - (c.pw : Int) + (k / c.c % c.fw * c.dw : Nat)
    if 0 ≤ h ∧ h < c.h ∧ 0 ≤ w ∧ w < c.w then
      some (((p / (c.p * c.q) * c.h + h.toNat) * c.w + w.toNat) * c.c + k % c.c)
    else none
/-- A place on a side: chamber or not, and its address. -/
abbrev MxAddr := Bool × DWord
/-- The place at an offset of a side. -/
def Side.at (x : Side) (off : Nat) : MxAddr := (x.cham, x.addr + BitVec.ofNat 64 off)
/-- Offset of A[i, k] in half-bytes; none for an element that is +0 and not read. -/
def Mma.aOff (m : Mma) (i k : Nat) : Option Nat :=
  let e := mxSize m.f.afmt
  match m.conv with
  | none => some (2 * i * m.astr + k * e)
  | some c => (c.at i k).map (· * e)
/-- Offset of B[k, j] in half-bytes. -/
def Mma.bOff (m : Mma) (k j : Nat) : Nat := 2 * j * m.bstr + k * mxSize m.f.bfmt
/-- Offsets of the bytes that hold an element of `e` half-bytes at an offset in half-bytes. -/
def elemBytes (o e : Nat) : List Nat := (List.range ((e + 1) / 2)).map (o / 2 + ·)
/-- Offsets of the scales of a side for slice `i` and K-block `b` (R248): A's rows have FP32 scales of their own. -/
def scaleBytes (kind kk i b : Nat) (isA : Bool) : List Nat :=
  match kind with
  | 1 => (List.range 4).map fun t => 4 * (if isA then i * (kk / 128) + b else b) + t
  | 2 => (List.range 4).map fun t => i * (kk / 32) + 4 * b + t
  | _ => []
def Mma.ascl (m : Mma) : Side := { cham := m.f.aloc, addr := m.f.ascl }
def Mma.bscl (m : Mma) : Side := { cham := m.f.bloc, addr := m.f.bscl }
/-- Everything that K-block `b` reads but stream blocks: A and its scales, B and its scales (R248, R250, R262). -/
def Mma.reads (m : Mma) (b : Nat) : List MxAddr :=
  let ks := (List.range 128).map (128 * b + ·)
  let is := List.range 128
  (is.flatMap fun i => ks.flatMap fun k => ((m.aOff i k).elim [] fun o => elemBytes o (mxSize m.f.afmt)).map m.a.at) ++
  (is.flatMap fun i => (scaleBytes m.f.ask m.kk i b true).map m.ascl.at) ++
  (match m.b with
   | none => []
   | some side => is.flatMap fun j => ks.flatMap fun k => (elemBytes (m.bOff k j) (mxSize m.f.bfmt)).map side.at) ++
  (is.flatMap fun j => (scaleBytes m.f.bsk m.kk j b false).map m.bscl.at)

/-- A byte that an operation of the engine reads. -/
def State.mxByte (s : State) (who : Who) (q : Quire) (a : MxAddr) : Byte :=
  if a.1 then Tab.get 0 q.cham a.2.toNat
  else
    match s.engByte q.core q.ctx a.2 1 false with
    | .ok p => s.engRead who a.2 p.1 p.2
    | .error _ => 0
/-- Faults among places that the engine reads, in order (R252). -/
def State.mxErrs (s : State) (q : Quire) (as : List MxAddr) : List (EngErr × DWord) :=
  as.filterMap fun a =>
    if a.1 then none
    else
      match s.engByte q.core q.ctx a.2 1 false with
      | .ok _ => none
      | .error e => some (e, a.2)
/-- The value of an element from its bytes and its half (R87-R90, R247). -/
def mxValue (f : Nat) (bs : List Byte) (half : Nat) : FV :=
  let x := leNat bs
  match f with
  | 0 => e4m3.decode x
  | 1 => e5m2.decode x
  | 2 => e2m1.decode (x / 16 ^ half % 16)
  | 3 => bf16.decode x
  | 4 => fp16.decode x
  | 5 => .fin (128 ≤ x) (if 128 ≤ x then 256 - x else x) 0
  | _ => .fin false x 0
/-- An E8M0 scale (R90). -/
def e8m0 (x : Nat) : FV := if x = 255 then .nan false else .fin false 1 ((x : Int) - 127)
/-- What scales `ss` of slice and K-block give element `k` of the block: its E8M0 factor, or 1. -/
def mxFactor (kind : Nat) (ss : List Byte) (k : Nat) : FV :=
  if kind = 2 then e8m0 ((ss[k / 32]?).getD 0).toNat else .fin false 1 0
/-- The FP32 scale of a slice and K-block, or 1 (R103). -/
def mxScale (kind : Nat) (ss : List Byte) : FV := if kind = 1 then fp32.decode (leNat ss) else .fin false 1 0

/-- A product with its E8M0 factors (R102). An element of A that is +0 and not read gives a zero product whatever B's is,
under the scales of its block (R254). -/
def mxProduct (a : Option FV × FV) (b : FV × FV) : FV :=
  let scale := (FV.mul a.2 b.2).1
  match a.1 with
  | none => (FV.mul (.fin false 0 0) scale).1
  | some x => (FV.mul (FV.mul x b.1).1 scale).1
/-- The contribution of K-block `b` to element (i, j) (R102, R103), given a row of A and a column of B with their factors,
and the FP32 scales of both sides. -/
def mxContrib (as : List (Option FV × FV)) (bs : List (FV × FV)) (sa sb : FV) : FV :=
  let p := (as.zip bs).foldl (fun p x => (FV.add .rne p (mxProduct x.1 x.2)).1) (.fin false 0 0)
  (FV.mul p (fp32.decode (fp32.give .rne false false (FV.mul sa sb).1).1)).1
/-- The contributions of K-block `b` of an operation, in row order (R102, R103); `stream` holds B's block where it comes from the
siphon. -/
def Mma.contribs (m : Mma) (s : State) (who : Who) (q : Quire) (b : Nat) (stream : List Byte) : List FV :=
  let ks := List.range 128
  let scale := fun (side : Side) kind i isA => (scaleBytes kind m.kk i b isA).map fun o => s.mxByte who q (side.at o)
  let rows := ks.map fun i =>
    let ss := scale m.ascl m.f.ask i true
    let vs := ks.map fun k =>
      ((m.aOff i (128 * b + k)).map fun o =>
        mxValue m.f.afmt ((elemBytes o (mxSize m.f.afmt)).map fun t => s.mxByte who q (m.a.at t)) (o % 2), mxFactor m.f.ask ss k)
    (vs, mxScale m.f.ask ss)
  let cols := ks.map fun j =>
    let ss := scale m.bscl m.f.bsk j false
    let e := mxSize m.f.bfmt
    let vs := ks.map fun k =>
      match m.b with
      | some side =>
        let o := m.bOff (128 * b + k) j
        mxValue m.f.bfmt ((elemBytes o e).map fun t => s.mxByte who q (side.at t)) (o % 2)
      | none =>
        let o := 128 * e * j + e * k
        mxValue m.f.bfmt ((elemBytes o e).map fun t => (stream[t]?).getD 0) (o % 2)
    (vs.zipIdx.map fun v => (v.1, mxFactor m.f.bsk ss v.2), mxScale m.f.bsk ss)
  rows.flatMap fun r => cols.map fun c => mxContrib r.1 c.1 r.2 c.2

/-! ### Promotion (R104, R105) -/

/-- A signed number of ±1 steps. -/
def signInt (neg : Bool) (n : Nat) : Int := if neg then -(n : Int) else n
/-- rne(m / 2^k) (R104). -/
def shiftInt (m : Int) (k : Nat) : Int := signInt (m < 0) (roundShift .rne false m.natAbs k).1
/-- rne(v / 2^e) of a finite contribution, else 0 (R104). -/
def contribAt (v : FV) (e : Int) : Int :=
  match v with
  | .fin neg n x => signInt neg (roundAt .rne false n x e).1
  | _ => 0
/-- Code of a special contribution; 0 for a finite one. -/
def contribCode : FV → BitVec 2
  | .nan _ => 3
  | .inf neg => if neg then 2 else 1
  | .fin _ _ _ => 0
/-- An element after a special contribution (R104). -/
def Elem.special (x : Elem) (c : BitVec 2) : Elem :=
  if c = 0 then x
  else
    { m := 0, code := if x.code = 3 ∨ c = 3 then 3 else if x.code ≠ 0 ∧ x.code ≠ c then 3 else if x.code = 0 then c else x.code }
/-- n of a finite element at k (R104). -/
def promoteAt (e : Int) (k : Nat) (x : Elem × FV) : Int := shiftInt x.1.m k + contribAt x.2 (e + k)
/-- Every finite element fits at k. -/
def promoteFits (xs : List (Elem × FV)) (e : Int) (k : Nat) : Bool :=
  xs.all fun x => x.1.code != 0 || (promoteAt e k x).natAbs < 2 ^ 46
/-- The least k from one on at which every element fits, within the steps that E has left. -/
def promoteK (xs : List (Elem × FV)) (e : Int) : Nat → Nat → Nat
  | 0, k => k
  | n + 1, k => if promoteFits xs e k then k else promoteK xs e n (k + 1)
/-- One promotion step on elements with their contributions, at exponent E: the new elements and exponent. -/
def promote (xs : List (Elem × FV)) (e : Int) : List Elem × Int :=
  let xs := xs.map fun x => (x.1.special (contribCode x.2), x.2)
  let k := promoteK xs e (32767 - e).toNat 0
  (xs.map fun x =>
    if x.1.code ≠ 0 then x.1
    else
      let n := promoteAt e k x
      if n.natAbs < 2 ^ 46 then { m := n, code := 0 } else { m := 0, code := if n < 0 then 2 else 1 }, e + k)
/-- A tile that holds given elements. -/
def Tile.hold (t : Tile) (xs : List Elem) : Tile :=
  { t with fresh := false, el := (xs.zipIdx.map fun x => (x.2, x.1)).filter fun x => x.2 != { m := 0, code := 0 } }

/-! ### Readout (R106, R256) -/

/-- Element bytes and format of a readout. -/
def readFmt (f : Nat) : Nat × Fmt :=
  match f with
  | 0 => (4, fp32) | 1 => (2, bf16) | 2 => (1, e4m3) | _ => (1, e5m2)
/-- An element of a tile with exponent E in a format (R106). -/
def readElem (f : Fmt) (x : Elem) (e : Int) : Nat :=
  if x.code = 3 then f.nan
  else if x.code ≠ 0 then (if f.top = .e4m3 then 0x7F else f.signed (x.code = 2) f.inf)
  else if x.m = 0 then 0
  else (f.give .rne false true (.fin (x.m < 0) x.m.natAbs e)).1

/-! ### Issue (R243-R249, R253, R266) -/

/-- MATRIX with a reason (R264). -/
def mxTrap (e : Env) (s : State) (reason : Nat) : Eff := .trap s (e.trap162 cMatrix e.sh.pc 127 reason)
/-- The first of a list of checks that fails traps: cause, address, reason. -/
def mxChecks (e : Env) (s : State) (cs : List (Bool × BitVec 8 × DWord × Nat)) (k : Unit → Eff) : Eff :=
  match cs.find? (·.1) with
  | some (_, cause, a, reason) => .trap s (e.trap162 cause a 127 reason)
  | none => k ()
/-- Operations that hold a queue entry (R243). -/
def Core.mxQueue (c : Core) : List MxOp := c.mx.filter fun o => o.kind != .unsub
/-- A matrix operation issues with its chamber ranges, behind those of the core that have completed (R265), when the copies', the scoreboard's and the queue's room allow it
(R243, R249, R266). -/
def mxIssue (e : Env) (s : State) (id tile : Nat) (kind : MxKind) (ranges : List (Nat × Nat)) (k : State → State) : Eff :=
  let c := s.core e.q.core
  let ranges := ranges.filter fun r => r.1 < r.2
  if s.unplaced e.r e.sh then .wait s (.issue 15)
  else if ranges.any fun r => c.board.any fun b => b.copy && b.h == e.r.h && b.lo < r.2 && r.1 < b.hi then .wait s (.issue 12)
  else if s.boardFree e.q.core < ranges.length then .wait s (.issue 12)
  else if 32 ≤ c.mxQueue.length then .wait s (.issue 9)
  else
    let op : MxOp := { id, ref := e.r, tile, batch := e.sh.batch, kind, begun := false, fault := none }
    let s := s.boardAdd e.q.core (ranges.map fun r => { op := id, h := e.r.h, lo := r.1, hi := r.2, copy := false, mx := true })
    .done (k (((s.modCore e.q.core fun c => { c with mx := c.mx ++ [op] }).forkEng e.r id).linkSync (· == .mxs e.q.core) (.eng id)))
/-- A tile of the quire (R244). -/
def mxTile (e : Env) (s : State) (w : FE) (k : Eff) : Eff := if w.va.toNat < e.q.ntiles then k else mxTrap e s 1
/-- A side as a word names it (R245). -/
def Env.side (e : Env) (cham : Bool) (r : BitVec 6) : Side :=
  { cham, addr := if cham then (e.s r.toNat).setWidth 64 else e.spair r.toNat }
/-- Bytes of a quire's chamber. -/
def Quire.chamBytes (q : Quire) (off n : Nat) : List Byte := (List.range n).map fun i => Tab.get 0 q.cham (off + i)
/-- A stream of a quire with room for `nb` blocks of a width (R262). -/
def State.streamOk (s : State) (q : Quire) (nb size : Nat) : Bool :=
  q.sub.any fun x => ((s.gallery (galleryOf q.core)).streams.find x.1).any fun y => x.2 + nb ≤ y.t && size == 2 ^ y.ew
/-- `mx.mma` and `mx.conv` (R249, R253). -/
def mmaEff (e : Env) (s : State) (w : FE) (conv : Bool) : Eff :=
  let g := fun i => (e.s (w.sc.toNat + i)).toNat
  let kk := g 0
  let doff := g 3
  let coff := g 1
  let bs := w.mod.getLsbD 2
  let f? := fmtBlockOf (e.q.chamBytes doff 32)
  let f := f?.getD { afmt := 0, bfmt := 0, ask := 0, bsk := 0, aloc := false, bloc := false, ascl := 0, bscl := 0 }
  let c? := if conv then convOf (e.q.chamBytes coff 32) kk (e.s w.sd.toNat).toNat else none
  let m : Mma :=
    { a := e.side (w.mod.getLsbD 0) w.sa, b := if bs then none else some (e.side (w.mod.getLsbD 1) w.sb),
      astr := if conv then 0 else g 1, bstr := g 2, kk, f, conv := c? }
  let lenA := match c? with
    | some c => (c.n * c.h * c.w * c.c * mxSize f.afmt + 1) / 2
    | none => 127 * m.astr + kk * mxSize f.afmt / 2
  let lenS := fun kind (isA : Bool) => if kind = 1 then (if isA then 512 else 4) * (kk / 128) else 4 * kk
  let sides : List (Side × Nat) := [(m.a, lenA)] ++
    (m.b.toList.map fun b => (b, 127 * m.bstr + kk * mxSize f.bfmt / 2)) ++
    (if f.ask = 0 then [] else [(m.ascl, lenS f.ask true)]) ++ (if f.bsk = 0 then [] else [(m.bscl, lenS f.bsk false)])
  let desc : Nat → List (Bool × BitVec 8 × DWord × Nat) := fun off =>
    [(!e.q.inCham off 32, cAccess, BitVec.ofNat 64 off, 2), (off % 16 != 0, cMisaligned, BitVec.ofNat 64 off, 0)]
  let bAddr := (m.b.elim 0 (·.addr))
  let odd := fun (x : DWord) (n : Nat) => x.toNat % n != 0
  let pc := e.sh.pc
  mxTile e s w <|
    mxChecks e s (
      [(kk % 128 != 0 || kk == 0 || 16384 < kk, cMatrix, pc, 2)] ++ desc doff ++ (if conv then desc coff else []) ++
      [(f?.isNone, cMatrix, pc, 3), (conv && c?.isNone, cMatrix, pc, 4)] ++
      (sides.map fun x => (!x.1.cham && !canonical x.1.addr, cAccess, x.1.addr, 0)) ++
      (sides.map fun x => (x.1.cham && !e.q.inCham x.1.addr.toNat x.2, cAccess, x.1.addr, 2)) ++
      [(odd m.a.addr 16, cMisaligned, m.a.addr, 0), (odd bAddr 16, cMisaligned, bAddr, 0),
       (m.astr % 16 != 0, cMisaligned, m.a.addr, 0), (m.bstr % 16 != 0, cMisaligned, bAddr, 0),
       (f.ask == 1 && odd f.ascl 4, cMisaligned, f.ascl, 0), (f.bsk == 1 && odd f.bscl 4, cMisaligned, f.bscl, 0),
       (bs && !s.streamOk e.q (kk / 128) (mxSize f.bfmt), cMatrix, pc, 5)]) <| fun _ =>
    let (id, s) := s.fresh
    let ranges := ((sides.filter fun x => x.1.cham).map fun x => (x.1.addr.toNat, x.1.addr.toNat + x.2)) ++
      [(doff, doff + 32)] ++ (if conv then [(coff, coff + 32)] else [])
    mxIssue e s id w.va.toNat (.mma m) ranges fun s =>
      if bs then s.modQuire e.r.h fun q => { q with sub := q.sub.map fun x => (x.1, x.2 + kk / 128) } else s

/-- R255. -/
def execMxZero (w : FE) (s : State) : Out :=
  issue {} s fun e =>
    mxTile e s w <|
      let (id, s) := s.fresh
      mxIssue e s id w.va.toNat (.zero ((e.s w.sa.toNat).extractLsb' 0 16).toInt) [] fun s => s
/-- R249. -/
def execMxMma (w : FE) (s : State) : Out := issue {} s fun e => mmaEff e s w false
/-- R253. -/
def execMxConv (w : FE) (s : State) : Out := issue {} s fun e => mmaEff e s w true
/-- R256. -/
def execMxRead (w : FE) (s : State) : Out :=
  issue { ll := some w.com.fs } s fun e =>
    let dst := e.side (w.mod.getLsbD 2) w.sa
    let stride := (e.s w.sc.toNat).toNat
    let l := (e.s (w.sc.toNat + 1)).toNat
    let eb := (readFmt (w.mod.extractLsb' 0 2).toNat).1
    let len := if l = 0 then 0 else (l - 1) * stride + 128 * eb
    mxTile e s w <|
      mxChecks e s
        [(128 < l, cMatrix, e.sh.pc, 7), (!dst.cham && !canonical dst.addr, cAccess, dst.addr, 0),
         (dst.cham && l != 0 && !e.q.inCham dst.addr.toNat len, cAccess, dst.addr, 2),
         (dst.addr.toNat % 16 != 0 || stride % 16 != 0, cMisaligned, dst.addr, 0)] <| fun _ =>
      let (id, s) := s.fresh
      mxIssue e s id w.va.toNat (.read dst stride l (w.mod.extractLsb' 0 2).toNat (w.mod.getLsbD 3) id)
        (if dst.cham then [(dst.addr.toNat, dst.addr.toNat + len)] else []) fun s => s.llOpen e w.com.fs id 1 [] false

/-! ### Batches (R257-R259) -/

/-- Batch `n` of a sheet is complete: no operation of it or of an earlier batch is outstanding (R257). -/
def Core.batchDone (c : Core) (r : SheetRef) (n : Word) : Bool :=
  c.mxQueue.all fun o => o.ref != r || 2 ^ 31 ≤ (n - o.batch).toNat
/-- The batch number before another: 0 is skipped. -/
def prevBatch (n : Word) : Word := if n = 1 then 0xFFFFFFFF else n - 1
/-- R257. -/
def execMxFence (w : FE) (s : State) : Out :=
  issue {} s fun e =>
    let n := e.sh.batch
    let next := if n = 0xFFFFFFFF then 1 else n + 1
    .done ((s.writeRegs e.r [(.s w.sd.toNat, n)]).modSheet e.r fun sh =>
      { sh with batch := next, window := (sh.cur :: sh.window).take 64, cur := { n := next, status := 0, tile := 0, addr := 0 },
                mxDone := if (s.core e.q.core).batchDone e.r n then n else sh.mxDone })
/-- A sheet joins the operations of its batches up to one (R157, R257). -/
def State.batchJoin (s : State) (r : SheetRef) (n : Word) : State :=
  s.joinEng r fun y => match y with
    | .batch r' m => r' == r && (n - m).toNat < 2 ^ 31
    | _ => false
/-- The status pair of a batch (R258). -/
def State.mxGive (s : State) (r : SheetRef) (sd : Nat) (b : Batch) : State :=
  s.writeRegs r [(.s sd, BitVec.ofNat 32 (b.status.toNat + 256 * b.tile)), (.s (sd + 1), b.addr)]
/-- R258. -/
def execMxWait (w : FE) (s : State) : Out :=
  issue {} s fun e =>
    let n := e.s w.sa.toNat
    let age := (e.sh.batch - n).toNat
    match e.sh.window.find? (·.n == n) with
    | some b =>
      if n = 0 ∨ age = 0 ∨ 2 ^ 31 ≤ age then mxTrap e s 6
      else if (s.core e.q.core).batchDone e.r n then .done ((s.batchJoin e.r n).mxGive e.r w.sd.toNat b)
      else .hold s (.mxWait n w.sd.toNat)
    | none => mxTrap e s 6
/-- MXROWP (R251). -/
def Tile.rowp (t : Tile) : Word :=
  BitVec.ofNat 32 ((if t.act then 2 ^ 31 else 0) + (if t.flt then 2 ^ 30 else 0) + 2 ^ 16 * t.fstat.toNat + 2 ^ 8 * t.nblk + t.done)
/-- R259: the snapshot is that of the issue. -/
def execMxStat (w : FE) (s : State) : Out :=
  issue { ll := some w.com.fs } s fun e =>
    mxTile e s w <|
      let t := e.q.tiles.get (Tile.reserved e.q.fkey) w.va.toNat
      let d := w.sd.toNat
      let (id, s) := s.fresh
      .done (s.llOpen e w.com.fs id 0 (outsOf
        [(.s d, t.rowp), (.s (d + 1), BitVec.ofInt 32 t.e),
         (.s (d + 2), BitVec.ofNat 32 ((s.core e.q.core).mxQueue.length % 64)), (.s (d + 3), e.sh.mxDone)]) false)

/-! ### Siphon streams (R261-R263) -/

/-- Stream of a gallery after a change; a stream without subscribers closes (R263), and a block that every subscriber
has consumed is dropped (R262). -/
def Gallery.putStream (g : Gallery) (n : Nat) (x : Stream) : Gallery :=
  if x.subs.isEmpty then { g with streams := g.streams.del n }
  else
    let low := x.subs.foldl (fun m y => min m y.2.2) x.next
    { g with streams := g.streams.put n { x with blocks := x.blocks.filter fun b => low ≤ b.1, dropped := low } }
/-- A quire leaves its stream (R263). -/
def State.unsubscribe (s : State) (h : Nat) : State :=
  match s.quires.find h with
  | none => s
  | some q =>
    match q.sub with
    | none => s
    | some (n, _) =>
      let s := s.modQuire h fun q => { q with sub := none }
      s.modGallery (galleryOf q.core) fun g =>
        match g.streams.find n with
        | none => g
        | some x => g.putStream n { x with subs := x.subs.filter (·.1 != h) }
/-- A BS operation of a quire. -/
def MxOp.isBs (o : MxOp) (h : Nat) : Bool :=
  o.ref.h == h && match o.kind with | .mma m => m.b.isNone | _ => false
/-- The `mx.unsub` words of a core that no earlier BS operation of their quire holds any more take effect (R263). A BS word that has
issued after one that had not yet taken effect has passed the checks of R262, and R263 says nothing of it; the model leaves it at the
head of the engine without a block for good (DESIGN CHOICE, log 25). -/
def State.settleUnsubs (s : State) (core : Nat) : State :=
  let ops := (s.core core).mx
  let due := ops.zipIdx.filter fun x => x.1.kind == .unsub && !(ops.take x.2).any (·.isBs x.1.ref.h)
  let s := s.modCore core fun c => { c with mx := c.mx.filter fun o => !due.any fun d => d.1.id == o.id }
  due.foldl (fun s d => s.unsubscribe d.1.ref.h) s
/-- R261: the siphon answers at once. A stream with other parameters whose block 0 has been dropped too answers MISMATCH, not LATE;
R261 does not say which (DESIGN CHOICE, log 25). -/
def execMxSub (w : FE) (s : State) : Out :=
  issue {} s fun e =>
    let g := fun i => (e.s (w.sc.toNat + i)).toNat
    let base := e.spair w.sb.toNat
    let id := ((e.s w.sa.toNat).extractLsb' 0 16).toNat
    let ew := (w.mod.extractLsb' 0 2).toNat
    mxChecks e s
      [(e.q.sub.isSome, cMatrix, e.sh.pc, 9),
       (g 1 == 0 || 2 ^ 24 < g 1 || g 2 == 0 || 16 < g 2, cMatrix, e.sh.pc, 8),
       (!canonical base, cAccess, base, 0), (base.toNat % 16 != 0 || g 0 % 16 != 0, cMisaligned, base, 0)] <| fun _ =>
    let gal := galleryOf e.q.core
    let streams := (s.gallery gal).streams
    let take := fun (n : Nat) (x : Stream) =>
      (s.modGallery gal fun y => { y with streams := y.streams.put n { x with subs := x.subs ++ [(e.r.h, g 2, 0)] } }).modQuire
        e.r.h fun q => { q with sub := some (n, 0) }
    let answer := fun (s : State) (st : Word) => Eff.done (s.writeRegs e.r [(.s w.sd.toNat, st)])
    match streams.find? fun x => x.2.id == id with
    | some (n, x) =>
      if ¬(x.base = base ∧ x.stride = g 0 ∧ x.t = g 1 ∧ x.ew = ew) then answer s 2
      else if x.dropped ≠ 0 then answer s 3
      else answer (take n x) 0
    | none =>
      match (List.range 8).find? fun n => (streams.find n).isNone with
      | none => answer s 1
      | some n =>
        answer (take n { id, base, stride := g 0, t := g 1, ew, ctx := e.q.ctx, next := 0, blocks := [], subs := [], dropped := 0 }) 0
/-- R263. -/
def execMxUnsub (_w : FE) (s : State) : Out :=
  issue {} s fun e =>
    let (id, s) := s.fresh
    let op : MxOp := { id, ref := e.r, tile := 0, batch := e.sh.batch, kind := .unsub, begun := false, fault := none }
    .done ((s.modCore e.q.core fun c => { c with mx := c.mx ++ [op] }).settleUnsubs e.q.core)

/-- Virtual addresses of a block of a stream, in the order in which the block is kept (R261). -/
def Stream.addrs (x : Stream) (b : Nat) : List DWord :=
  let n := 64 * 2 ^ x.ew
  (List.range 128).flatMap fun j => (List.range n).map fun t => x.base + BitVec.ofNat 64 (j * x.stride + n * b + t)
/-- A byte of a stream as its gallery's siphon reads it: by the gallery's TLB, or a walk. -/
def State.siphonByte (s : State) (gal : Nat) (x : Stream) (va : DWord) : Except EngErr (Nat × DWord) :=
  let a := (va.extractLsb' 0 56).toNat
  s.engAt x.ctx va 1 false <|
    match (s.gallery gal).tlb.find? (·.hits x.ctx a) with
    | some t => .ok t
    | none => s.walk (gal / 10) x.ctx va
/-- Faults of the next block of a stream. -/
def State.siphonErrs (s : State) (gal : Nat) (x : Stream) : List (EngErr × DWord) :=
  (x.addrs x.next).filterMap fun a => match s.siphonByte gal x a with | .ok _ => none | .error e => some (e, a)
/-- The siphon may read a stream's next block: it lies in every subscriber's window (R262). -/
def Stream.open_ (x : Stream) : Bool := x.next < x.t && x.subs.all fun y => x.next < y.2.2 + y.2.1
/-- SIPHON_BLOCK_READ: a stream's next block is read when it lies in every subscriber's window (R262); a fault that can
be repaired is reported. -/
def execSiphonBlockRead (gallery stream : Nat) (s : State) : Out :=
  .next <|
    match (s.gallery gallery).streams.find stream with
    | none => s
    | some x =>
      if !x.open_ || s.tablesHeld x.ctx then s
      else
        match s.siphonErrs gallery x with
        | (e, a) :: _ => if e = .repair then (s.engFault (20 * gallery) x.ctx a).1 else s
        | [] =>
          let at' := (x.addrs x.next).filterMap fun a =>
            match s.siphonByte gallery x a with | .ok p => some (a, p.1, p.2) | .error _ => none
          let who : Who := .siphon gallery stream
          s.engGate who (at'.map (·.2)) [] fun s =>
            match s.algLoads who x.ctx none at' with
            | (s, false) => s
            | (s, true) =>
              let x := { x with next := x.next + 1, blocks := x.blocks.put x.next (at'.map fun p => s.engRead who p.1 p.2.1 p.2.2) }
              (s.engDrop who).modGallery gallery fun g => { g with streams := g.streams.put stream x }

/-! ### The engine's steps (R250, R252, R255, R256) -/

/-- A tile of a quire changed. -/
def State.modTile (s : State) (h t : Nat) (f : Tile → Tile) : State :=
  s.modQuire h fun q => { q with tiles := q.tiles.upd t f }
/-- The operation at the head of a core's engine, with its quire and tile. -/
def State.mxHead (s : State) (core : Nat) : Option (MxOp × Quire × Tile) :=
  match (s.core core).mxQueue with
  | [] => none
  | o :: _ => (s.quires.find o.ref.h).map fun q => (o, q, q.tiles.get (Tile.reserved q.fkey) o.tile)
/-- An operation of a core's engine changed. -/
def State.modMx (s : State) (core id : Nat) (f : MxOp → MxOp) : State :=
  s.modCore core fun c => { c with mx := c.mx.map fun o => if o.id = id then f o else o }
/-- A batch entry takes the status of an operation that ended faulted (R258). -/
def Batch.take (b : Batch) (o : MxOp) : Batch :=
  match o.fault with
  | some (st, a) => if b.n = o.batch ∧ b.status = 0 then { b with status := st, tile := o.tile, addr := a } else b
  | none => b
/-- An operation of a core completes in its batch (R157), before the later ones of the core (R265); a readout's flag is still to
clear. -/
def State.mxEnd (s : State) (core : Nat) (o : MxOp) : State :=
  let s := (s.core core).mxQueue.foldl (fun s x => s.linkSync (· == .eng o.id) (.eng x.id)) (s.linkSync (· == .eng o.id) (.mxs core))
  match o.kind with
  | .read _ _ _ _ _ _ => s.linkSync (· == .eng o.id) (.batch o.ref o.batch)
  | .zero _ | .mma _ | .unsub => s.endEng o.id (.batch o.ref o.batch)
/-- An operation completes: the queue moves on, its ranges are free, its batch learns its status, and sheets that waited
go on (R243, R258, R266). -/
def State.mxFinish (s : State) (core : Nat) (o : MxOp) : State :=
  let s := ((s.engDrop (.op o.id)).modCore core fun c => { c with mx := c.mx.filter (·.id != o.id) }).boardDrop core o.id
  let s := s.mxEnd core o
  let s := s.modSheet o.ref fun sh =>
    let sh := { sh with cur := sh.cur.take o, window := sh.window.map fun (b : Batch) => b.take o }
    match (s.core core).mxQueue.find? (·.ref == o.ref) with
    | some y => { sh with mxDone := if y.batch = o.batch then sh.mxDone else prevBatch y.batch }
    | none => { sh with mxDone := if sh.window.isEmpty then 0 else prevBatch sh.batch }
  let s := s.settleUnsubs core
  let s := match s.sheet? o.ref with
    | some sh =>
      match sh.wait with
      | .mxWait n sd =>
        if (s.core core).batchDone o.ref n then
          ((sh.window.find? fun (b : Batch) => b.n == n).elim s fun b => (s.batchJoin o.ref n).mxGive o.ref sd b).wake o.ref
        else s
      | _ => s
    | none => s
  s.retryAll

/-- MATRIX_OP_START: the operation at the head of the engine queue starts (R243, R250, R255). -/
def execMatrixOpStart (core : Nat) (s : State) : Out :=
  .next <|
    match s.mxHead core with
    | none => s
    | some (o, _, t) =>
      if o.begun then s
      else
        let s := s.modMx core o.id fun o => { o with begun := true }
        match o.kind with
        | .zero e =>
          s.modTile o.ref.h o.tile fun t =>
            { t with fresh := false, el := [], e, act := false, flt := false, fstat := 0, nblk := 0, done := 0, faddr := 0 }
        | .mma m =>
          if t.flt then s.modMx core o.id fun o => { o with fault := some (t.fstat, t.faddr) }
          else
            s.modTile o.ref.h o.tile fun t =>
              { t with act := true, flt := false, fstat := 0, nblk := m.kk / 128, done := 0, faddr := 0 }
        | .read _ _ _ _ _ _ | .unsub => s

/-- A correctable error that needs a retry, at the first of some global reads, freely. -/
def State.mxFresh (s : State) (core : Nat) (loads : List DWord) : Option DWord :=
  if Config.pick s.free (7500000 + core) % 2 = 1 then loads.head? else none
/-- A fatal fault stops an operation of the engine and faults its tile (R252). -/
def State.mxFault (s : State) (core : Nat) (o : MxOp) (st : BitVec 8) (a : DWord) : State :=
  let s := s.eccCount core ((s.quires.find o.ref.h).elim 0 (·.ctx)) st a
  (s.modTile o.ref.h o.tile fun t => { t with flt := true, fstat := st, faddr := loWord a }).modMx core o.id fun o =>
    { o with fault := some (st, loWord a) }
/-- A correctable error that needs a retry stops a block before it is formed, until the pager has seen to it (R252): one
that stands, or one that the first of the block's global reads meets now, freely and once. -/
def State.mxRetry (s : State) (core ctx : Nat) (o : MxOp) (b : Nat) (loads : List DWord) : Option DWord :=
  match o.retry with
  | some (c, a) => if c ≠ b then s.mxFresh core loads else if s.requested core ctx a then some a else none
  | none => s.mxFresh core loads
/-- The quire's stream, with the number of the block that it consumes next (R262). After an operation that has stopped on a fault
with claimed blocks unconsumed R262 does not say which block the next one takes; the model gives it the next unconsumed one (DESIGN
CHOICE, log 25). -/
def State.streamOf (s : State) (h : Nat) (q : Quire) : Option (Nat × Stream × Nat) :=
  q.sub.bind fun x => ((s.gallery (galleryOf q.core)).streams.find x.1).bind fun y =>
    (y.subs.find? (·.1 == h)).map fun z => (x.1, y, z.2.2)
/-- What an operation's next block meets: its reads, and those of a stream block that the siphon has not read (R252). -/
def State.mxFaults (s : State) (o : MxOp) (q : Quire) (m : Mma) (b : Nat) : List (EngErr × DWord) :=
  s.mxErrs q (m.reads b) ++
    match m.b, s.streamOf o.ref.h q with
    | none, some (_, x, c) => if c = x.next ∧ x.open_ = true then s.siphonErrs (galleryOf q.core) x else []
    | _, _ => []
/-- PROMOTION_STEP: the engine forms one K-block and promotes it, reports a repairable fault, or stops on a fatal one
(R104, R105, R250, R252); a stream block must have been read (R262). Of several fatal faults one counts, freely. -/
def execPromotionStep (core : Nat) (s : State) : Out :=
  .next <|
    match s.mxHead core with
    | none => s
    | some (o, q, t) =>
      match o.kind with
      | .mma m =>
        if !o.begun || o.fault.isSome || m.kk / 128 ≤ t.done || s.tablesHeld q.ctx then s
        else
          let fs := s.mxFaults o q m t.done
          match fs.find? fun x => x.1 == .repair with
          | some (_, a) => (s.engFault core q.ctx a).1
          | none =>
            match fs[Config.pick s.free core % fs.length]? with
            | some (.fatal st, a) => s.mxFault core o st a
            | some (.repair, _) => s
            | none =>
              let loads := (m.reads t.done).filterMap fun a =>
                if a.1 then none
                else match s.engByte q.core q.ctx a.2 1 false with | .ok p => some (a.2, p.1, p.2) | .error _ => none
              let stream : Option (List Byte) := match m.b with
                | some _ => some []
                | none => (s.streamOf o.ref.h q).bind fun x => x.2.1.blocks.find x.2.2
              match s.mxRetry core q.ctx o t.done (loads.map (·.1)), stream with
              | some a, _ =>
                match s.engFault core q.ctx a with
                | (s, true) => s.modMx core o.id fun o => { o with retry := some (t.done, a) }
                | (s, false) => s
              | none, none => s
              | none, some bytes =>
                s.engGate (.op o.id) (loads.map (·.2)) [] fun s =>
                match s.algLoads (.op o.id) q.ctx (some o.ref) loads with
                | (s, false) => s
                | (s, true) =>
                let xs := ((List.range 16384).map t.elem).zip (m.contribs s (.op o.id) q t.done bytes)
                let r := promote xs t.e
                let s := (s.engDrop (.op o.id)).modTile o.ref.h o.tile fun t => { (t.hold r.1) with e := r.2, done := t.done + 1 }
                match m.b, s.streamOf o.ref.h q with
                | none, some (n, x, c) =>
                  s.modGallery (galleryOf q.core) fun g =>
                    g.putStream n { x with subs := x.subs.map fun y => if y.1 = o.ref.h then (y.1, y.2.1, c + 1) else y }
                | _, _ => s
      | _ => s
/-- MATRIX_OP_COMPLETE: an `mx.zero`, or an `mx.mma` or `mx.conv` whose blocks are all promoted or that has stopped,
completes (R250, R252). -/
def execMatrixOpComplete (core : Nat) (s : State) : Out :=
  .next <|
    match s.mxHead core with
    | none => s
    | some (o, _, t) =>
      if !o.begun then s
      else
        match o.kind with
        | .zero _ => s.mxFinish core o
        | .mma m =>
          if o.fault.isSome || m.kk / 128 ≤ t.done then
            (s.modTile o.ref.h o.tile fun t => { t with act := false }).mxFinish core o
          else s
        | .read _ _ _ _ _ _ | .unsub => s

/-- A readout ends: its flag may fall, and its operation completes (R256). -/
def State.readEnd (s : State) (core : Nat) (o : MxOp) (ll : Nat) (fault : Option (BitVec 8 × Word)) : State :=
  (s.modSheet o.ref fun sh => sh.llGive ll []).mxFinish core { o with fault }
/-- MX_READ_COMPLETE: the readout at the head of the engine writes its elements and completes, waits for a repair, or
stops on a fatal fault of its writes; then each element that can be written is old or new, freely (R252, R256). -/
def execMxReadComplete (core : Nat) (s : State) : Out :=
  .next <|
    match s.mxHead core with
    | none => s
    | some (o, q, t) =>
      match o.kind with
      | .read dst stride rows fmt clr ll =>
        let (eb, f) := readFmt fmt
        let els := (List.range rows).flatMap fun i => (List.range 128).map fun j =>
          (dst.addr + BitVec.ofNat 64 (i * stride + j * eb), leBytes eb (readElem f (t.elem (128 * i + j)) t.e))
        let clear := fun (s : State) =>
          if clr then s.modTile o.ref.h o.tile fun t => { t with fresh := false, el := [] } else s
        let last (s : State) (f : Fin) : State := s.readEnd core o ll (if f.status = stOK then none else some (f.status, f.aux))
        if !o.begun then s
        else
        s.engStep (.op o.id) last fun s =>
        if s.tablesHeld q.ctx then s
        else if t.flt then s.readEnd core o ll (some (t.fstat, t.faddr))
        else if dst.cham then
          (clear (els.foldl (fun s x => s.chamOpen o.ref.h x.1.toNat x.2) s)).readEnd core o ll none
        else
          let hits := els.map fun x => (x, s.engByte q.core q.ctx x.1 eb true)
          let bad := hits.filterMap fun x => match x.2 with | .error e => some (e, x.1.1) | .ok _ => none
          let bytes := fun (keep : Nat → Bool) => (hits.zipIdx.filter fun x => keep x.2).flatMap fun x =>
            match x.1.2 with
            | .error _ => []
            | .ok a => x.1.1.2.zipIdx.map fun b =>
              { va := x.1.1.1 + BitVec.ofNat 64 b.2, pa := a.1 + b.2, leaf := a.2, b := b.1 : EngByte }
          match bad.find? fun x => x.1 == .repair with
          | some (_, a) => (s.engFault core q.ctx a).1
          | none =>
            let put (bs : List EngByte) (f : Fin) (k : State → State) : State :=
              s.engGate (.op o.id) [] (bs.map fun b => (b.pa, b.leaf)) fun s =>
                (k (s.engWrite (.op o.id) q.ctx (some o.ref) bs)).engEnd f last
            match bad[Config.pick s.free core % bad.length]? with
            | some (.fatal st, a) =>
              put (bytes fun i => Config.pick s.free (1 + i) % 2 = 1)
                { who := .op o.id, status := st, done := 0, aux := loWord a } fun s => s.eccCount core q.ctx st a
            | some (.repair, _) => s
            | none =>
              put (bytes fun _ => true) { who := .op o.id, status := stOK, done := 0 } clear
      | _ => s

end Sys2Proof.Machine
end

