-- ==== Sys2Proof/Machine/Wma.lean ====
section
/-! DEFINITION. The watermark array (R269-R283), opcodes 0xD0-0xD6. An operation takes its place in the WMA order and
completes in one step; `wm.init`, `wm.sync` and `wm.release` take theirs at their words. -/

namespace Sys2Proof.Machine

/-! ### Candidates and gains (R271-R273) -/

/-- Modes (R271): true for MAX.I32, and the two F32 modes. -/
def Extent.i32 (x : Extent) : Bool := x.mode == 1
/-- A NaN of FP32. -/
def isNaN32 (w : Word) : Bool := (fp32.decode w.toNat).isNan
/-- a > b as FP32 values, false with a NaN. -/
def above32 (a b : Word) : Bool :=
  !isNaN32 a && !isNaN32 b && 0 < FV.cmp (fp32.decode a.toNat) (fp32.decode b.toNat)
/-- A live value (R271). -/
def Extent.live (x : Extent) (c : Word) : Bool :=
  match x.mode with
  | 0 => !isNaN32 c
  | 1 => true
  | _ => above32 c 0
/-- Signed maximum. -/
def maxI32 (a b : Word) : Word := if a.toInt < b.toInt then b else a
/-- Several live pairs of one element, in the order in which they stand (R273). -/
def Extent.reduce (x : Extent) (a b : Word) : Word :=
  match x.mode with
  | 0 => minMax32 false true a b
  | 1 => maxI32 a b
  | _ => rneAdd a b
/-- The elements that a candidate touches, with their values (R273). -/
def State.touched (s : State) (h : Nat) (x : Extent) (c : Cand) : Tab Word :=
  let cham := (s.quires.find h).elim [] (·.cham)
  let word := fun off => BitVec.ofNat 32 (leNat ((List.range 4).map fun t => Tab.get 0 cham (off + t)))
  (List.range c.len).foldl (fun (t : Tab Word) i =>
    let (e, v) := if c.sparse then ((word (c.off + 8 * i)).toNat, word (c.off + 8 * i + 4)) else (c.first + i, word (c.off + 4 * i))
    if x.len ≤ e ∨ x.live v = false then t
    else t.put e ((t.find e).elim v fun a => x.reduce a v)) []
/-- New element (R271). -/
def Extent.next (x : Extent) (w c : Word) : Word :=
  match x.mode with
  | 0 => minMax32 false true w c
  | 1 => maxI32 w c
  | _ => minMax32 true true (rneAdd w c) x.cap
/-- Gain of a touched element (R271): an exact integer, or FP32 bits. -/
def Extent.gain1 (x : Extent) (w w' : Word) : Int :=
  if x.i32 then w'.toInt - w.toInt
  else if w' = w then 0 else (rneAdd w' (w ^^^ 0x80000000)).toNat
/-- A sum of gains. -/
def Extent.plus (x : Extent) (a b : Int) : Int :=
  if x.i32 then a + b else (rneAdd (BitVec.ofInt 32 a) (BitVec.ofInt 32 b)).toNat
/-- Adjacent pairs summed, one level (R272). -/
def Extent.pairs (x : Extent) : List Int → List Int
  | a :: b :: t => x.plus a b :: x.pairs t
  | l => l
/-- Element `i` of the bound extent. -/
def Quire.extElem (q : Quire) (x : Extent) (i : Nat) : Word := q.arrElem (x.base + i)
/-- G of a candidate against a quire's extent (R272): exact in MAX.I32, FP32 bits otherwise. -/
def Quire.gain (q : Quire) (x : Extent) (t : Tab Word) : Int :=
  let g := fun i => (t.find i).elim 0 fun c => x.gain1 (q.extElem x i) (x.next (q.extElem x i) c)
  (List.range ((x.len + 255) / 256)).foldl (fun acc b =>
    let s := (List.range 8).foldl (fun l _ => x.pairs l) ((List.range 256).map fun i => g (256 * b + i))
    x.plus acc (s.headD 0)) 0
/-- An array element put; every element has a free value until it is written (R269). -/
def Quire.putArr (q : Quire) (i : Nat) (w : Word) : Quire := { q with arr := q.arr.put i w }
/-- A candidate applied (R272). -/
def Quire.applyCand (q : Quire) (x : Extent) (t : Tab Word) : Quire :=
  { (t.foldl (fun q e => q.putArr (x.base + e.1) (x.next (q.extElem x e.1) e.2)) q) with ext := some { x with ver := x.ver + 1 } }

/-! ### Issue (R276) -/

/-- WMA with a reason (R282). -/
def wmTrap (e : Env) (s : State) (reason : Nat) : Eff := .trap s (e.trap162 cWma e.sh.pc 127 reason)
/-- The bound extent, else WMA reason 1 (R276 step 1). -/
def wmExt (e : Env) (s : State) (k : Extent → Eff) : Eff :=
  match e.q.ext with
  | some x => if e.q.wmag = 0 then wmTrap e s 1 else k x
  | none => wmTrap e s 1
/-- A range that a copy or a matrix operation holds (R276). -/
def State.heldByEngine (s : State) (core h lo hi : Nat) : Bool :=
  (s.core core).board.any fun b => (b.copy || b.mx) && b.h == h && b.lo < hi && lo < b.hi
/-- A descriptor in a quire's chamber; none where it is invalid (R273). -/
def candOf (q : Quire) (x : Extent) (off : Nat) : Option Cand :=
  let n := fun lo len => leNat (q.chamBytes (off + lo) len)
  let c : Cand := { off := n 0 4, len := n 4 4, key := BitVec.ofNat 32 (n 8 4), first := n 12 2, sparse := n 14 1 == 1 }
  if n 14 1 ≤ 1 ∧ n 15 1 = 0 ∧ c.key ≠ 0xFFFFFFFF ∧ c.len ≤ 16384 ∧
      (if c.sparse then c.first = 0 else c.first + c.len ≤ x.len) then some c
  else none
/-- Bytes of a candidate's data. -/
def Cand.bytes (c : Cand) : Nat := c.len * if c.sparse then 8 else 4
/-- A WMA operation issues with its range and the registers that it writes (R276, R280), once what precedes its fork at vats has its
place (R157). -/
def wmIssue (e : Env) (s : State) (fs : Bool) (lo hi sd nres : Nat) (kind : WmKind) : Eff :=
  if s.unplaced e.r e.sh then .wait s (.issue 15)
  else if s.heldByEngine e.q.core e.r.h lo hi || s.boardFree e.q.core = 0 then .wait s (.issue 12)
  else
    let (id, s) := s.fresh
    let s := s.boardAdd e.q.core [{ op := id, h := e.r.h, lo, hi, copy := false, mx := false }]
    let outs := (List.range nres).map fun i => { key := .s (sd + i), val := none, raced := false : LLOut }
    .done (((s.modCore e.q.core fun c => { c with wm := c.wm ++ [{ id, ref := e.r, ll := id, sd, kind }] }).forkEng e.r id).llOpen e fs id
      1 outs false)
/-- `n` descriptors at an offset with the checks of R276, then the operation over them. -/
def wmCands (e : Env) (s : State) (w : FE) (n : Nat) (kind : List Cand → WmKind) : Eff :=
  wmExt e s fun x =>
    let off := (e.s w.sb.toNat).toNat
    let a : DWord := BitVec.ofNat 64 off
    if off % 16 ≠ 0 then .trap s (e.trap162 cMisaligned a 127 0)
    else if !e.q.inCham off (16 * n) then .trap s (e.trap162 cAccess a 127 2)
    else if s.heldByEngine e.q.core e.r.h off (off + 16 * n) then .wait s (.issue 12)
    else
      let ds := (List.range n).map fun i => candOf e.q x (off + 16 * i)
      let cs := ds.filterMap id
      if ds.any (·.isNone) then wmTrap e s 4
      else
        mxChecks e s
          ((cs.map fun c => (c.off % (if c.sparse then 8 else 4) != 0, cMisaligned, BitVec.ofNat 64 c.off, 0)) ++
           (cs.map fun c => (c.bytes != 0 && !e.q.inCham c.off c.bytes, cAccess, BitVec.ofNat 64 c.off, 2))) <| fun _ =>
        let data := cs.filter (·.len != 0)
        wmIssue e s w.com.fs (data.foldl (fun m c => min m c.off) off)
          (data.foldl (fun m c => max m (c.off + c.bytes)) (off + 16 * n)) w.sd.toNat 4 (kind cs)

/-- Operations of a quire, and of a sheet, that have not completed. -/
def State.wmBusy (s : State) (core : Nat) (p : SheetRef → Bool) : Bool := (s.core core).wm.any fun o => p o.ref

/-- An extent bound and filled (R270). -/
def Quire.bind (q : Quire) (mode base len : Nat) (init cap : Word) : Quire :=
  { ((List.range len).foldl (fun q i => q.putArr (base + i) init) q) with ext := some { mode, cap, base, len, ver := 0 } }
/-- The place of a waiting `wm.init` among those of its quire, in the order in which they issued. -/
def Wait.wmTurn : Wait → Nat
  | .wmInit _ turn _ _ _ _ _ => turn
  | _ => 0
/-- The last place that a waiting `wm.init` of a quire has. -/
def Quire.wmLast (q : Quire) : Nat := q.sheets.foldl (fun m x => max m x.2.wait.wmTurn) 0
/-- R270: the word waits for the WMA operations of the quire that issued before it, with its operands read. -/
def execWmInit (w : FE) (s : State) : Out :=
  issue {} s fun e =>
    let g := fun i => e.s (w.sa.toNat + i)
    let mode := (w.mod.extractLsb' 0 2).toNat
    let capBad := match fp32.decode (g 3).toNat with | .fin _ _ _ => false | _ => true
    if e.q.wmag = 0 then wmTrap e s 1
    else if (g 1).toNat = 0 ∨ 16384 < (g 1).toNat ∨ 256 * e.q.wmag < (g 0).toNat + (g 1).toNat then wmTrap e s 2
    else if (mode ≠ 1 ∧ isNaN32 (g 2) = true) ∨ (mode = 2 ∧ (capBad = true ∨ above32 (g 2) (g 3) = true)) then wmTrap e s 3
    else
      let ids := ((s.core e.q.core).wm.filter fun o => o.ref.h == e.r.h).map (·.id)
      if ids.isEmpty ∧ e.q.wmLast = 0 then .done (s.modQuire e.r.h fun q => q.bind mode (g 0).toNat (g 1).toNat (g 2) (g 3))
      else .hold s (.wmInit ids (e.q.wmLast + 1) mode (g 0).toNat (g 1).toNat (g 2) (g 3))
/-- R277. -/
def execWmProbe (w : FE) (s : State) : Out :=
  issue { ll := some w.com.fs } s fun e =>
    wmCands e s w 1 fun cs => .probe (cs.headD { off := 0, len := 0, key := 0, first := 0, sparse := false })
/-- R277. -/
def execWmCommit (w : FE) (s : State) : Out :=
  issue { ll := some w.com.fs } s fun e =>
    wmCands e s w 1 fun cs =>
      .commit (cs.headD { off := 0, len := 0, key := 0, first := 0, sparse := false })
        (if w.mod.getLsbD 0 then some (e.s w.sc.toNat) else none)
/-- R278. -/
def execWmSelect (w : FE) (s : State) : Out :=
  issue { ll := some w.com.fs } s fun e =>
    wmCands e s w ((w.mod.extractLsb' 0 3).toNat + 1) fun cs => .select cs (e.spair w.sc.toNat)
/-- R279. -/
def execWmRead (w : FE) (s : State) : Out :=
  issue { ll := some w.com.fs } s fun e =>
    wmExt e s fun x =>
      let dst := (e.s w.sa.toNat).toNat
      let first := (e.s w.sb.toNat).toNat
      let n := (e.s w.sc.toNat).toNat
      mxChecks e s
        [(dst % 4 != 0, cMisaligned, BitVec.ofNat 64 dst, 0), (n != 0 && !e.q.inCham dst (4 * n), cAccess, BitVec.ofNat 64 dst, 2),
         (x.len < first + n || 16384 < n, cWma, e.sh.pc, 5)] <| fun _ =>
      wmIssue e s w.com.fs dst (dst + 4 * n) w.sd.toNat 1 (.read dst first n)
/-- R279. -/
def execWmSync (w : FE) (s : State) : Out :=
  issue {} s fun e =>
    wmExt e s fun x =>
      if s.wmBusy e.q.core (· == e.r) then .hold s (.wmSync w.sd.toNat)
      else .done ((s.joinEng e.r (· == .wma e.r)).writeRegs e.r [(.s w.sd.toNat, x.ver)])
/-- R279. -/
def execWmRelease (_w : FE) (s : State) : Out :=
  issue {} s fun e =>
    wmExt e s fun _ =>
      if s.wmBusy e.q.core (·.h == e.r.h) then .wait s (.issue 15)
      else .done (s.modQuire e.r.h fun q => { q with ext := none })

/-! ### Performance (R274, R277-R279) -/

/-- The result group (R275). -/
def wmResult (g : Int) (key ver : Word) : List Word :=
  [loWord (BitVec.ofInt 64 g), hiWord (BitVec.ofInt 64 g), key, ver]
/-- A select's choice among candidates with gains (R278). -/
def wmBest (gs : List (Cand × Tab Word × Int)) : Option (Cand × Tab Word × Int) :=
  gs.foldl (fun b x =>
    match b with
    | none => some x
    | some y => if y.2.2 < x.2.2 ∨ (y.2.2 = x.2.2 ∧ x.1.key < y.1.key) then some x else some y) none
/-- A gain above a select's threshold (R278). -/
def Extent.beats (x : Extent) (g : Int) (thr : DWord) : Bool :=
  if x.i32 then (thr.toNat : Int) < g else above32 (BitVec.ofInt 32 g) (loWord thr)
/-- An operation at its place: the state and the words that its registers get. -/
def State.wmPlace (s : State) (o : WmOp) (q : Quire) (x : Extent) : State × List Word :=
  let h := o.ref.h
  let commit := fun (t : Tab Word) => s.modQuire h fun q => q.applyCand x t
  match o.kind with
  | .probe c => (s, wmResult (q.gain x (s.touched h x c)) c.key x.ver)
  | .commit c ver =>
    if ver.any (· != x.ver) then (s, wmResult 0 0xFFFFFFFF x.ver)
    else
      let t := s.touched h x c
      (commit t, wmResult (q.gain x t) c.key (x.ver + 1))
  | .select cs thr =>
    match wmBest (cs.map fun c => let t := s.touched h x c; (c, t, q.gain x t)) with
    | some (c, t, g) =>
      if x.beats g thr then (commit t, wmResult g c.key (x.ver + 1)) else (s, wmResult 0 0xFFFFFFFF x.ver)
    | none => (s, wmResult 0 0xFFFFFFFF x.ver)
  | .read dst first n =>
    ((List.range n).foldl (fun s i => s.chamOpen h (dst + 4 * i) (leBytes 4 (q.extElem x (first + i)).toNat)) s, [x.ver])
/-- The first waiting `wm.init` of a quire, in the order in which they issued, takes its place once the operations issued before
it have completed (R270, R274). -/
def State.wmInit1 (s : State) (core h : Nat) : State :=
  match s.quires.find h with
  | none => s
  | some q =>
    let turns := (q.sheets.map fun x => x.2.wait.wmTurn).filter (· != 0)
    match q.sheets.find? fun x => x.2.wait.wmTurn != 0 && turns.all (x.2.wait.wmTurn ≤ ·) with
    | none => s
    | some x =>
      match x.2.wait with
      | .wmInit ids _ mode base len init cap =>
        if (s.core core).wm.any fun o => ids.contains o.id then s
        else (s.modQuire h fun q => q.bind mode base len init cap).wake { h, k := x.1 }
      | _ => s
/-- Those of them that can, in order. -/
def State.wmInits (s : State) (core h : Nat) : State :=
  (List.range ((s.quires.find h).elim 0 fun q => q.sheets.length)).foldl (fun s _ => s.wmInit1 core h) s
/-- WMA_OP_PERFORM: an operation of a core takes its place in the WMA order, after the earlier ones of its sheet, and
completes (R274, R280). -/
def execWmaOpPerform (core id : Nat) (s : State) : Out :=
  .next <|
    match (s.core core).wm.find? (·.id == id) with
    | none => s
    | some o =>
      match s.quires.find o.ref.h with
      | none => s
      | some q =>
        if ((s.core core).wm.takeWhile (·.id != id)).any (·.ref == o.ref) then s
        else
          match q.ext with
          | none => s
          | some x =>
            let (s, ws) := s.wmPlace o q x
            let s := (s.modCore core fun c => { c with wm := c.wm.filter (·.id != id) }).boardDrop core id
            let s := s.linkSync (· == .eng id) (.wma o.ref)
            let s := s.modSheet o.ref fun sh => sh.llGive o.ll (ws.zipIdx.map fun w => (.s (o.sd + w.2), w.1))
            let s := match (s.sheet? o.ref).map (·.wait) with
              | some (.wmSync sd) =>
                if s.wmBusy core (· == o.ref) then s
                else
                  let ver := ((s.quires.find o.ref.h).bind (·.ext)).elim 0 (·.ver)
                  ((s.joinEng o.ref (· == Sync.wma o.ref)).writeRegs o.ref [(.s sd, ver)]).wake o.ref
              | _ => s
            (s.wmInits core o.ref.h).retryAll

end Sys2Proof.Machine
end

