-- ==== Sys2Proof/Machine/Sched.lean ====
section
/-! DEFINITION. The issue choice and what completes in a core (R57-R59, R292), the spawn bins' and pools' steps (R27-R29),
`rgrow` (R38, R39), and the path from a launch queue to a core (R286-R291). -/

namespace Sys2Proof.Machine

/-! ### Issue choice (R292) -/

/-- A die issues nothing while its clock relocks (R305). -/
def State.paused (s : State) (die : Nat) : Bool := (s.die die).step.isSome
/-- Candidate `a` is chosen before `b`: the starvation guard looks at ages only. -/
def State.before (s : State) (cyc : Nat) (guard : Bool) (a b : SheetRef × Sheet) : Bool :=
  let prio := fun (x : SheetRef × Sheet) => (s.quires.find x.1.h).elim 0 fun q => (s.ctx q.ctx).desc.prio
  let pa := if guard then 0 else prio a
  let pb := if guard then 0 else prio b
  pb < pa || (pa == pb && (b.2.age cyc < a.2.age cyc || (a.2.age cyc == b.2.age cyc && a.2.slot < b.2.slot)))
/-- The sheet that a list of candidates gives. -/
def State.bestOf (s : State) (cyc : Nat) (cands : List (SheetRef × Sheet)) : Option SheetRef :=
  let guard := cands.any fun x => 192 ≤ x.2.age cyc
  (cands.foldl (fun b x =>
    match b with
    | none => some x
    | some y => if s.before cyc guard x y then some x else some y) none).map (·.1)
/-- A word that waits to issue again holds those behind it in its list while its sheet stands at it and can issue, or looks its
page up; a quire that does not run, and a die that relocks, hold nobody (R44), nor does a word that cannot issue for another
reason. -/
def State.holds (s : State) (x : Again) : Bool :=
  (s.quires.find x.ref.h).any fun q =>
    q.phase == .resident && !s.paused (dieOf q.core) && (q.sheets.find x.ref.k).any fun sh =>
      !sh.exited && sh.pc == x.pc && sh.barred.isNone && match sh.wait with
        | .none | .walk _ _ _ => true
        | _ => false
/-- A sheet whose word waits to issue again has its turn in its list: of the page repaired (R304) or re-keyed (R363). -/
def State.turn (s : State) (r : SheetRef) : Bool :=
  s.reissue.all fun y => y.ref != r || !s.holds y ||
    (s.reissue.takeWhile (· != y)).all fun x => x.list != y.list || x.ref == r || !s.holds x
/-- A word with an opcode of which `p` holds stands at an address of a sheet's code. -/
def State.opAt (s : State) (r : SheetRef) (core ctx : Nat) (a : DWord) (p : Nat → Bool) : Bool :=
  match s.fetch r core ctx a with
  | .word w => p (w.extractLsb' 56 8).toNat
  | .noExec | .miss => false
/-- Opcodes whose words take effect, within a cycle, in the order of their quire's sheet slots: pools and barriers (R177, R203). -/
def slotWord (op : Nat) : Bool := (0xA2 ≤ op && op ≤ 0xA6) || op == 0x7E
/-- Opcodes whose words are ordered, within a cycle, by core sheet slot: the matrix engine and the watermark array (R243, R274). -/
def laneWord (op : Nat) : Bool := 0xC0 ≤ op && op < 0xD8
/-- A sheet stands at a word that has its place in the order of a cycle in which a later one has issued or been written: the
pool and barrier words of a quire and the matrix and WMA words of a core, and the writes of a cycle to one Q register (R48, R177,
R203, R243, R274). It issues in the next cycle. -/
def State.late (s : State) (core : Nat) (r : SheetRef) : Bool :=
  match s.quires.find r.h, s.sheet? r with
  | some q, some sh =>
    let cyc := s.cycles core
    let now := (s.core core).busy.filter fun x => x.2.1 == cyc + 1
    let at' (y : SheetRef) (back : DWord) (p : Nat → Bool) : Bool :=
      match s.quires.find y.h, s.sheet? y with
      | some q, some z => s.opAt y core q.ctx (z.pc - back) p
      | _, _ => false
    sh.idx != 0 && sh.idx != sh.hdr.n.toNat + 1 &&
    ((q.sheets.any (fun y => r.k < y.1 && !y.2.exited) && q.qw.any fun x => x.2.cyc == cyc && x.2.ks.contains r.k) ||
     (at' r 0 slotWord && now.any fun x => x.2.2.h == r.h && r.k < x.2.2.k && at' x.2.2 8 slotWord) ||
     (at' r 0 laneWord && now.any fun x => sh.lb < x.1 && at' x.2.2 8 laneWord))
  | _, _ => false
/-- What a lane block issues from next: the sheet in progress while it can, else the choice of R292. Sheets that have
issued `yield` are candidates when no other sheet is. -/
def State.choice (s : State) (core lb : Nat) : Option SheetRef :=
  let cyc := s.cycles core
  let sheets := s.laneSheets core lb
  let cands := sheets.filter fun x => x.2.candidate cyc && s.turn x.1 && !s.late core x.1
  if cands.isEmpty then
    s.bestOf cyc (sheets.filter fun x => x.2.wait == .yield && x.2.startAt ≤ cyc && x.2.barred.isNone && !s.late core x.1)
  else
    match (s.core core).prog.find lb with
    | some r => if cands.any (·.1 == r) then some r else s.bestOf cyc cands
    | none => s.bestOf cyc cands
/-- The lane block issues a word in this cycle (R292). -/
def State.laneBusy (s : State) (core lb : Nat) : Bool := (s.core core).busy.find lb |>.any fun x => s.cycles core < x.1
/-- The lane block is in the middle of the clause or pass that it issues. -/
def State.midClause (s : State) (core lb : Nat) : Bool :=
  match (s.core core).prog.find lb with
  | some r => (s.laneSheets core lb).any fun x => x.1 == r && x.2.candidate (s.cycles core)
  | none => false
/-- ISSUE_CHOICE: a lane block's choice; after a new one, once its word has issued, the sheets that have issued `yield` are ready
(R43, R292). A task sheet whose entry header has been checked begins its first clause now (R49). -/
def execIssueChoice (core lb : Nat) (s : State) : Out :=
  .next <|
    if s.paused (dieOf core) || s.laneBusy core lb then s
    else
      match s.choice core lb with
      | none => s
      | some r =>
        let cyc := s.cycles core
        let s' := s.modSheet r fun sh =>
          let sh := if sh.wait = .yield then { sh with wait := .none } else sh
          if sh.early.isSome ∧ sh.idx ≠ 0 then { sh with began := cyc, early := none } else sh
        { (s'.modCore core fun c =>
            { c with prog := c.prog.put lb r, anew := if s.midClause core lb || c.anew.contains lb then c.anew else lb :: c.anew }) with
          cur := some r }
/-- A lane block has issued the word of a new choice: the sheets that have issued `yield` before it are ready (R292). -/
def State.endChoice (s : State) (core lb : Nat) (r : SheetRef) : State :=
  if !(s.core core).anew.contains lb then s
  else
    ((s.laneSheets core lb).foldl (fun s x => if x.1 ≠ r ∧ x.2.wait = .yield then s.wake x.1 else s) s).modCore core fun c =>
      { c with anew := c.anew.filter (· != lb) }

/-! ### Completions in a core (R58, R59, R141) -/

/-- Strand that a destination of `noise` belongs to, 96 for the uniform one. -/
def RegKey.lane : RegKey → Nat
  | .v _ l => l
  | .s _ | .q _ => 96
/-- A quire whose outstanding long-latency words still complete: a stop does not cancel them (R83). -/
def Quire.completes (q : Quire) : Bool := q.holds
/-- LONG_LATENCY_COMPLETE: a long-latency word all of whose parts have arrived writes its results, and its flag falls
(R58); `noise` takes its words now, in ascending strand order (R141). Data with an uncorrectable error never completes. -/
def execLongLatencyComplete (h k id : Nat) (s : State) : Out :=
  .next <|
    let r : SheetRef := { h, k }
    match (s.sheet? r).bind fun sh => sh.lls.find? (·.id == id) with
    | none => s
    | some l =>
      if l.left ≠ 0 ∨ l.ue.isSome = true ∨ (s.quires.find h).any Quire.completes = false then s
      else if l.noise then
        let (s, ws) := l.outs.foldl (fun (x : State × List (RegKey × Word)) o =>
          let (w, s) := x.1.noiseWord r o.key.lane
          (s, x.2 ++ [(o.key, w)])) (s, [])
        (s.modSheet r fun sh => sh.llGive id ws).llDone r id
      else s.llDone r id
/-- A byte of a load's data holds an uncorrectable error: one that stood there when it was read, or one that arises in a
block that it has read (R357). -/
def LL.hasUe (l : LL) (pa : Nat) : Bool := l.ue == some pa || l.reads.any fun x => x.1 ≤ pa && pa < x.1 + x.2
/-- MEMORY_UE: the data of a load holds an uncorrectable error, which its block has from then on: the quire stops, and
event 2 is reported (R172, R348, R357). -/
def execMemoryUe (h k pa : Nat) (s : State) : Out :=
  .next <|
    let r : SheetRef := { h, k }
    match s.quires.find h, s.sheet? r with
    | some q, some sh =>
      if q.runs ∧ (sh.lls.any fun l => l.hasUe pa) = true then
        { s with bad := if s.ue pa 1 then s.bad else pa / 64 :: s.bad }.ueStop h pa sh.pc
      else s
    | _, _ => s

/-! ### Bins and batches (R27-R29) -/

/-- BIN_TIMER_EXPIRY: a bin's timer has reached its context's bin time (R28). -/
def execBinTimerExpiry (core bin : Nat) (s : State) : Out :=
  .next <|
    match (s.core core).bins.find bin with
    | none => s
    | some x =>
      if (s.ctx x.ctx).desc.binTime ≠ 0 ∧ x.since + (s.ctx x.ctx).desc.binTime ≤ s.cycles core then s.binLaunch core bin
      else s
/-- The own batches of a core, of its bins, that it can start now: the first one with what it grants it (R291 step 1). The
slot and rows are chosen from the cycle after the bin's launch on (R49). -/
def State.batchReady (s : State) (core : Nat) : Option (Nat × RBatch × Grant) :=
  (s.core core).ready.zipIdx.findSome? fun x =>
    if x.1.bin.isSome && x.1.since < s.cycles core then (s.batchGrant core x.1).map fun g => (x.2, x.1, g) else none
/-- The batch of the pool that waits at a core and can start there now (R29, R291 step 2). -/
def State.batchMoved (s : State) (core : Nat) : Option (Nat × RBatch × Grant) :=
  (s.core core).ready.zipIdx.findSome? fun x =>
    if x.1.bin.isNone then (s.batchGrant core x.1).map fun g => (x.2, x.1, g) else none

/-- A launch that waits at a core can start there now (R36, R285, R293, R299). -/
def State.launchGrant (s : State) (core h : Nat) : Option Grant :=
  match s.quires.find h with
  | none => none
  | some q =>
    match q.phase with
    | .waiting _ =>
      if s.modeOk core q.ctx && !(s.ctx q.ctx).suspended && ((s.core core).claim.isNone || (s.core core).claim == some h) then
        s.grant core q
      else none
    | _ => none
/-- A quire that is swapped out and eligible to resume, since when (R298). -/
def Quire.eligible (q : Quire) : Option Nat :=
  match q.phase with
  | .swapped _ _ _ e => e
  | _ => none
/-- A core has switched, or switches, its mode for a quire that resumes, which it then takes (R285). -/
def State.switched (s : State) (h : Nat) : Option Nat := (s.cores.find? fun c => c.2.waitq.contains h).map (·.1)
/-- A swapped quire could start on a core now (R298). -/
def State.resumeGrant (s : State) (core h : Nat) : Option Grant :=
  match s.quires.find h with
  | none => none
  | some q =>
    if q.eligible.isSome && !(s.ctx q.ctx).suspended && s.owns (s.ctx q.ctx).part core && (s.core core).claim.isNone &&
        (match s.switched h with
         | some c => c == core && s.modeOk core q.ctx
         | none => s.modeOk core q.ctx || s.canSwitch core) then s.grant core q
    else none
/-- Since when each launch, batch and resume that a core could start now has waited, in REFT ticks: what step 2 of R291
takes, the oldest first, resumes with the same priority (R298). -/
def State.waiting (s : State) (core : Nat) : List Nat :=
  ((s.core core).waitq.filterMap fun h => (s.launchGrant core h).bind fun _ => (s.quires.find h).map (·.launched)) ++
  ((s.batchMoved core).map fun x => x.2.1.came).toList ++
  s.quires.filterMap fun x => x.2.eligible.bind fun t => (s.resumeGrant core x.1).map fun _ => t
/-- What has waited since a time may start at a core: no batch of its own bins can, and nothing older (R291). -/
def State.firstAt (s : State) (core since : Nat) : Bool :=
  (s.batchReady core).isNone && (s.waiting core).all (since ≤ ·)
/-- Steps 1 and 2 of R291 have something to start at a core. -/
def State.startable (s : State) (core : Nat) : Bool := (s.batchReady core).isSome || !(s.waiting core).isEmpty
/-- The first batch of a core's own bins for which the core has to switch its mode, which it can (R285). -/
def State.batchSwitch (s : State) (core : Nat) : Option RBatch :=
  (s.core core).ready.find? fun b =>
    b.since < s.cycles core && !(s.ctx b.ctx).suspended && (s.core core).slotted != (s.ctx b.ctx).desc.bank &&
      s.idle core && (s.core core).claim.isNone
/-- A batch that waits at a core, `i`-th there, launches; it has its place there, and among those that wait for room in the pool,
no more. -/
def State.takeBatch (s : State) (core i : Nat) (b : RBatch) (g : Grant) : State :=
  ((s.poolLeave (dieOf core) (.batch core b.name)).modCore core fun c => { c with ready := c.ready.eraseIdx i }).startBatch core b g
/-- TASK_SHEET_LAUNCH: a batch that waits at its core launches (R29, R30): one of the core's own bins, or one of the pool
when nothing that has waited longer can start (R291). The first one for which the core must switch its mode makes an idle
core do so (R285). -/
def execTaskSheetLaunch (core : Nat) (s : State) : Out :=
  .next <|
    match s.batchReady core with
    | some (i, b, g) => s.takeBatch core i b g
    | none =>
      match s.batchMoved core with
      | some (i, b, g) =>
        if s.firstAt core b.came then s.takeBatch core i b g else s
      | none =>
        match s.batchSwitch core with
        | some b => s.startSwitch core b.ctx
        | none => s
/-- A batch that waits at a core moves to the pool when there is room (R29). -/
def State.batchMove (s : State) (core i : Nat) (b : RBatch) : State :=
  match s.poolMove (dieOf core) (.batch core b.name) b.ctx b.entry b.recs with
  | (s, true) => s.modCore core fun c => { c with ready := c.ready.eraseIdx i }
  | (s, false) => s
/-- The first of the batches that have waited 1,024 cycles at a core which the pool has room for, or which takes its place among
those that wait for room (R29). -/
def State.batchOld (s : State) (core : Nat) : Option (Nat × RBatch) :=
  let d := s.die (dieOf core)
  ((s.core core).ready.zipIdx.find? fun x =>
    x.1.since + 1024 ≤ s.cycles core &&
      (!d.queue.contains (.batch core x.1.name) ||
        (s.poolFirst (dieOf core) (.batch core x.1.name) && d.records + x.1.recs.length ≤ Config.poolRecords))).map fun x => (x.2, x.1)
/-- BATCH_WAIT_EXPIRY: a ready batch that has waited 1,024 cycles at its core moves to the die spawn pool (R29). -/
def execBatchWaitExpiry (core : Nat) (s : State) : Out :=
  .next <|
    match s.batchOld core with
    | none => s
    | some (i, b) => s.batchMove core i b

/-- Cores of a die in order. -/
def coresOf (die : Nat) : List Nat := (List.range Config.coresPerDie).map (· + Config.coresPerDie * die)
/-- A core can take a batch of the pool: at once, or after a switch of its bank mode (R29). -/
def State.poolTakes (s : State) (core : Nat) (b : RBatch) : Bool :=
  s.owns (s.ctx b.ctx).part core && !(s.ctx b.ctx).suspended && (s.core core).claim.isNone && !s.startable core &&
  (s.modeOk core b.ctx || s.canSwitch core) && (s.grant core (taskQuire (s.ctx b.ctx).desc core b)).isSome
/-- The oldest batch of a die's pool that some core can take, and the lowest such core. -/
def State.poolPick (s : State) (die : Nat) : Option (Nat × RBatch × Nat) :=
  (s.die die).pool.zipIdx.findSome? fun x => ((coresOf die).find? fun c => s.poolTakes c x.1).map fun c => (x.2, x.1, c)
/-- POOL_BATCH_LAUNCH: the oldest batch that a core can take leaves the die spawn pool (R29, R291 step 3). -/
def execPoolBatchLaunch (die : Nat) (s : State) : Out :=
  .next <|
    match s.poolPick die with
    | none => s
    | some (i, b, core) =>
      let s := s.modDie die fun d => { d with pool := d.pool.eraseIdx i }
      match s.batchGrant core b with
      | some g => s.startBatch core b g
      | none =>
        let (name, s) := s.fresh
        (s.startSwitch core b.ctx).modCore core fun c =>
          { c with ready := c.ready ++ [{ b with since := s.cycles core, came := s.reft, name }] }
/-- POOL_ROOM_FREED: the first group that waits for room in a die's pool tries again; one that no longer waits leaves
its place, and one whose quire does not run lets the others pass (R29). -/
def execPoolRoomFreed (die : Nat) (s : State) : Out :=
  match (s.die die).queue.find? (!s.poolStands ·), (s.die die).queue.filter s.pooling with
  | some w, _ => .next (s.poolLeave die w)
  | none, [] => .next s
  | none, .spawn r :: _ => execSpawnRecordWrite r.h r.k s
  | none, .batch core name :: _ =>
    match (s.core core).ready.zipIdx.find? fun x => x.1.name == name && x.1.since + 1024 ≤ s.cycles core with
    | some x => .next (s.batchMove core x.2 x.1)
    | none => .next s
  | none, .trigger ch name :: _ =>
    match (s.vat ch).triggers.zipIdx.find? fun x => x.1.name == name && x.1.fired with
    | some x => execTriggerRecordPlace ch x.2 s
    | none => .next s

/-! ### `rgrow` (R38, R39) -/

/-- A waiting `rgrow` completes with a result: the sheet goes on past the word. -/
def State.rgrowEnd (s : State) (r : SheetRef) (core n : Nat) (d : RegKey) (granted : Bool) : State :=
  (s.modSheet r fun sh =>
    { ((if granted then sh.grow n else sh).advance (s.cycles core)) with wait := .none }).writeRegs r
      [(d, if granted then 1 else 0)]
/-- RGROW_GRANT: the rows that a waiting `rgrow` asks for are free (R38). -/
def execRgrowGrant (h k : Nat) (s : State) : Out :=
  .next <|
    let r : SheetRef := { h, k }
    match s.quires.find h, s.sheet? r with
    | some q, some sh =>
      match sh.wait with
      | .rgrow n d _ => if q.phase = .resident ∧ s.growFree q.core sh n = true then s.rgrowEnd r q.core n d true else s
      | _ => s
    | _, _ => s
/-- Sheets that hold a place on a core and have not exited. -/
def State.coreSheets (s : State) (core : Nat) : List (SheetRef × Sheet) :=
  s.sheets.filterMap fun x => if x.2.1.holds && x.2.1.core == core && !x.2.2.exited then some (x.1, x.2.2) else none
/-- What R39 counts as waiting, parked sheets among them (R304). -/
def Wait.stuck : Wait → Bool
  | .rgrow _ _ _ | .bar _ _ | .parked _ _ _ => true
  | _ => false
/-- The `rgrow` that R39 fails on a core: the one that issued in the earliest cycle, by core sheet slot among equals. -/
def State.oldestGrow (s : State) (core : Nat) : Option (SheetRef × Nat × RegKey) :=
  let xs := s.coreSheets core
  let grows := xs.filterMap fun x => match x.2.wait with
    | .rgrow n d t => some (x.1, n, d, t, 8 * x.2.lb + x.2.slot, s.growFree core x.2 n)
    | _ => none
  if (xs.all fun x => x.2.wait.stuck) && !(grows.any fun x => x.2.2.2.2.2) then
    (grows.foldl (fun b x =>
      match b with
      | none => some x
      | some y =>
        if x.2.2.2.1 < y.2.2.2.1 || (x.2.2.2.1 == y.2.2.2.1 && x.2.2.2.2.1 < y.2.2.2.2.1) then some x else some y)
      (none : Option (SheetRef × Nat × RegKey × Nat × Nat × Bool))).map fun x => (x.1, x.2.1, x.2.2.1)
  else none
/-- RGROW_FAIL: every sheet of the core waits in `rgrow`, on a barrier or parked: the oldest `rgrow` returns 0 (R39). -/
def execRgrowFail (core : Nat) (s : State) : Out :=
  .next <|
    match s.oldestGrow core with
    | none => s
    | some (r, n, d) => s.rgrowEnd r core n d false

/-! ### Launch records (R286-R288) -/

/-- A launch record's fields (R287). -/
structure Rec where
  entry : DWord
  x : Nat
  y : Nat
  z : Nat
  sheets : Nat
  rowg : Nat
  chamg : Nat
  tiles : Nat
  wmag : Nat
  active : Nat
  dies : Nat
  class_ : Word
  done : Nat
  zero : Bool
  sinit : List Word
  deriving DecidableEq, Repr
/-- A record in memory. -/
def State.readRec (s : State) (a : Nat) : Rec :=
  let n := fun o k => s.readNat (a + o) k
  { entry := BitVec.ofNat 64 (n 0 8), x := n 8 4, y := n 12 4, z := n 16 4, sheets := n 20 1, rowg := n 21 1, chamg := n 22 1,
    tiles := n 23 1, wmag := n 24 1, active := n 25 1, dies := n 26 1, class_ := BitVec.ofNat 32 (n 27 1), done := n 28 8,
    zero := n 36 28 == 0 && n 192 64 == 0, sinit := (List.range 32).map fun i => BitVec.ofNat 32 (n (64 + 4 * i) 4) }
/-- Dies on which a partition holds a gallery (R290). -/
def Part.dies (p : Part) : List Nat := (List.range 4).filter fun d => (List.range 10).any fun g => p.galleries.getLsbD (10 * d + g)
/-- Dies of a record's mask that its partition can use, lowest first (R290). -/
def Rec.useDies (r : Rec) (p : Part) : List Nat := p.dies.filter fun d => r.dies / 2 ^ d % 2 == 1
/-- A completion word's address is one that R287 allows. -/
def State.doneOk (s : State) (part a : Nat) : Bool :=
  a % 8 == 0 && (s.region a == .hbm || s.region a == .host) && s.reach part a && s.reach part (a + 7)
/-- Status with which a record is refused, 0 when it passes (R288). -/
def State.recStatus (s : State) (part ctx : Nat) (r : Rec) : Nat :=
  let p := s.part part
  let inR := fun (lo n hi : Nat) => decide (lo ≤ n ∧ n ≤ hi)
  if !(canonical r.entry && r.entry.extractLsb' 0 3 == 0 && inR 1 (r.x * r.y * r.z) (2 ^ 31) && inR 1 r.sheets 16 &&
      inR 1 r.rowg 32 && inR 0 r.chamg 64 && inR 0 r.tiles 2 && inR 0 r.wmag 64 && inR 1 r.active 96 && r.dies < 16 &&
      r.zero && (r.done == 0 || s.doneOk part r.done) && (s.ctx ctx).desc.ok && !(r.useDies p).isEmpty) then 3
  else if r.class_ ≠ 0 ∧ r.class_ ≠ s.cfg.class_ then 1
  else if 256 < (r.sheets + 7) / 8 * r.rowg * 8 then 2
  else 0

/-- Pending records of a queue (R286). -/
def LQueue.pending (l : LQueue) : Bool := l.rd != l.wr
/-- A ream's next linear index belongs to this die (R290). -/
def Ream.die (m : Ream) : Nat := (m.dies[m.next / 32 % m.dies.length]?).getD 0
/-- The head of a queue is opened: a head all of whose quires are placed or will never start gives way, and the next
record is checked (R288, R289), once no re-key of its page holds it (R359). A refused record ends with its completion word; one whose DONE breaks its limit has none. -/
def State.openHead (s : State) (part n : Nat) (l : LQueue) : State :=
  let put := fun (s : State) (l : LQueue) => s.modPart part fun p => { p with queues := p.queues.put n l }
  match l.head with
  | some m =>
    match s.reams.find m with
    | some x => if x.stopped then put s { l with head := none, rd := l.rd + 1 } else s
    | none => put s { l with head := none, rd := l.rd + 1 }
  | none =>
    let a := l.ring + 256 * (l.rd.toNat % 2 ^ l.k)
    if !l.pending then s
    else match s.keyGate (.queue part n) (blocksOf a 256) [] with
    | (s, false) => s
    | (s, true) =>
      let r := s.readRec a
      let st := s.recStatus part l.ctx r
      if st = 0 then
        let (id, s) := s.fresh
        let dies := r.useDies (s.part part)
        let m : Ream :=
          { part, queue := n, idx := l.rd, ctx := l.ctx, x := r.x, y := r.y, z := r.z, entry := r.entry, nsheets := r.sheets,
            rowg := r.rowg, chamg := r.chamg, ntiles := r.tiles, wmag := r.wmag, active := r.active, dies, done := r.done,
            sinit := r.sinit, qprio := l.prio, next := 0, began := 0, open_ := 0, stopped := false }
        put { s with reams := s.reams.put id m } { l with head := some id, since := (s.die m.die).cycles s.now }
      else
        let word := r.done ≠ 0 ∧ s.doneOk part r.done = true
        match if word then s.keyGate (.queue part n) [] [r.done] else (s, true) with
        | (s, false) => s
        | (s, true) =>
          put (if word then s.doneWord none r.done (st + 2 ^ 32 * (r.x * r.y * r.z % 2 ^ 32)) else s) { l with rd := l.rd + 1 }
/-- Every queue of the module: partition, number, queue. -/
def State.queues (s : State) : List (Nat × Nat × LQueue) := s.parts.flatMap fun p => p.2.queues.map fun l => (p.1, l.1, l.2)
/-- Every head opened, and every completion word written that stands due. -/
def State.openHeads (s : State) : State :=
  let s := s.reams.foldl (fun s m => s.reamEnd m.1) s
  s.queues.foldl (fun s x => s.openHead x.1 x.2.1 x.2.2) s

/-! ### Placement (R289, R290) -/

/-- A quire of a ream before its launch. -/
def Ream.quire (m : Ream) (id core since : Nat) : Quire :=
  { phase := .waiting since, ctx := m.ctx, qid := 0, core, task := false, qprio := m.qprio, nsheets := m.nsheets,
    rowg := m.rowg, chamg := m.chamg, ntiles := m.ntiles, wmag := m.wmag, active := m.active, entry := m.entry,
    sinit := m.sinit, ream := some id, lin := m.next, recs := [], launched := 0, halted := none, q := [], qw := [], bars := [], pools := [],
    joins := 0, joinAt := none, chamAt := 0, cham := [], tileAt := [], tiles := [], arrAt := 0, arr := [], fkey := 0,
    ext := none, sub := none, sheets := [] }
/-- Queue heads that name a die: partition, queue, ream (R289). -/
def State.headsAt (s : State) (die : Nat) : List (Nat × Nat × LQueue × Nat × Ream) :=
  s.queues.filterMap fun x =>
    x.2.2.head.bind fun id => (s.reams.find id).bind fun m =>
      if !m.stopped && m.next < m.x * m.y * m.z && m.die == die && !(s.ctx m.ctx).suspended then some (x.1, x.2.1, x.2.2, id, m)
      else none
/-- The core that takes a quire, offered from the die's core pointer on (R290). -/
def State.coreFor (s : State) (die : Nat) (q : Quire) : Option Nat :=
  let p := (s.die die).corePtr
  ((List.range Config.coresPerDie).map fun i => Config.coresPerDie * die + (p + i) % Config.coresPerDie).find? fun c =>
    s.owns (s.ctx q.ctx).part c && (s.core c).claim.isNone && s.covers c q && (s.modeOk c q.ctx || s.canSwitch c)
/-- Queues in the order in which a die serves those of one priority: after the queue it served last (R289). -/
def afterLast (last : Option (Nat × Nat)) (xs : List (Nat × Nat × LQueue × Nat × Ream)) : List (Nat × Nat × LQueue × Nat × Ream) :=
  match last with
  | none => xs
  | some (p, n) =>
    let later := fun (x : Nat × Nat × LQueue × Nat × Ream) => p < x.1 || (x.1 == p && n < x.2.1)
    xs.filter later ++ xs.filter (!later ·)
/-- The head that a die places, and where (R289). -/
def State.placeable (s : State) (die : Nat) : Option ((Nat × Nat × LQueue × Nat × Ream) × Nat) :=
  let xs := s.headsAt die
  [3, 2, 1, 0].findSome? fun prio =>
    (afterLast (s.die die).lastQ (xs.filter fun x => x.2.2.1.prio == prio)).findSome? fun x =>
      (s.coreFor die (x.2.2.2.2.quire x.2.2.2.1 0 0)).map fun c => (x, c)
/-- A head's quire leaves its queue for a core, where it waits for its launch (R36, R289, R290). -/
def State.placeAt (s : State) (die : Nat) (x : Nat × Nat × LQueue × Nat × Ream) (core : Nat) : State :=
  let m := x.2.2.2.2
  let (h, s) := s.fresh
  let s := { s with quires := s.quires.put h { m.quire x.2.2.2.1 core (s.cycles core) with launched := s.reft } }
  let m' := { m with next := m.next + 1, open_ := m.open_ + 1 }
  let s := { s with reams := s.reams.put x.2.2.2.1 m' }
  let l := x.2.2.1
  let l' := if m'.next = m.x * m.y * m.z then { l with head := none, rd := l.rd + 1 }
    else { l with since := (s.die m'.die).cycles s.now }
  let s := s.modPart x.1 fun p => { p with queues := p.queues.put x.2.1 l' }
  let s := s.modDie die fun d => { d with lastQ := some (x.1, x.2.1), corePtr := (core + 1) % Config.coresPerDie }
  s.modCore core fun c => { c with waitq := c.waitq ++ [h] }
/-- QUIRE_PLACE: a die's command processor checks the pending heads and deals the next quire to a core (R288-R290), when
the die is up. -/
def execQuirePlace (die : Nat) (s : State) : Out :=
  .next <|
    if !(s.die die).up then s
    else
      let s := s.openHeads
      match s.placeable die with
      | none => s
      | some (x, core) => (s.placeAt die x core).startSwitch core x.2.2.2.2.ctx

/-! ### Launches at a core (R36, R285, R291) -/

/-- The oldest waiting launch that a core can start (R291 step 2). -/
def State.launchPick (s : State) (core : Nat) : Option (Nat × Grant) :=
  (s.core core).waitq.findSome? fun h => (s.launchGrant core h).map fun g => (h, g)
/-- QUIRE_LAUNCH: the oldest launch that waits at a core and can start does, after the core's own batches and what has
waited longer (R36, R291). A core that a pre-emption clears starts nothing here (R293, R306). -/
def execQuireLaunch (core : Nat) (s : State) : Out :=
  .next <|
    if (s.core core).claim.isSome then s
    else
      match s.launchPick core with
      | none => s
      | some (h, g) => if s.firstAt core ((s.quires.find h).elim 0 (·.launched)) then s.start h core g else s
/-- The core at which a launch waits can switch its mode for it: it holds no quire and nothing else waits there (R36, R285, R306). -/
def State.ownSwitch (s : State) (core h : Nat) : Bool :=
  let c := s.core core
  c.switch.isNone && (s.onCore core).isEmpty && c.ready.isEmpty && c.waitq == [h]
/-- The first launch that has waited 1,024 cycles at a core, and the first core of the die where it fits after what comes before
it there (R36, R291). -/
def State.reofferPick (s : State) (core : Nat) : Option (Nat × Nat) :=
  (s.core core).waitq.findSome? fun h =>
    (s.quires.find h).bind fun q =>
      match q.phase with
      | .waiting since =>
        if since + 1024 ≤ s.cycles core ∧ (s.core core).claim ≠ some h ∧ (s.ctx q.ctx).suspended = false then
          ((coresOf (dieOf core)).find? fun c => (if c = core then s.firstAt core q.launched else !s.startable c) &&
            s.owns (s.ctx q.ctx).part c && (s.core c).claim.isNone &&
              (s.modeOk c q.ctx || s.canSwitch c || (c == core && s.ownSwitch c h)) && (s.grant c q).isSome).map fun c => (h, c)
        else none
      | _ => none
/-- LAUNCH_REOFFER: a launch that has waited 1,024 cycles at its core is offered to every core of the die, and the first
where it fits takes it, or switches its mode for it (R36, R285). -/
def execLaunchReoffer (core : Nat) (s : State) : Out :=
  .next <|
    match s.reofferPick core with
    | none => s
    | some (h, c) =>
      match s.launchGrant c h with
      | some g => ((s.modCore core fun x => { x with waitq := x.waitq.filter (· != h) })).start h c g
      | none =>
        let ctx := (s.quires.find h).elim 0 (·.ctx)
        if c = core then s.startSwitch core ctx
        else
          let s := s.modCore core fun x => { x with waitq := x.waitq.filter (· != h) }
          let s := s.modQuire h fun q => { q with core := c, phase := .waiting (s.cycles c), launched := s.reft }
          (s.startSwitch c ctx).modCore c fun x => { x with waitq := x.waitq ++ [h] }
/-- BANK_MODE_SWITCH: a core's switch of its bank mode ends (R285). -/
def execBankModeSwitch (core : Nat) (s : State) : Out :=
  .next <|
    match (s.core core).switch with
    | some t => if t ≤ s.cycles core then s.modCore core fun c => { c with slotted := !c.slotted, switch := none } else s
    | none => s

/-! ### The end of a quire (R202, R288) -/

/-- QUIRE_RESOURCE_RELEASE: a retired quire whose engine operations have completed gives up what it holds (R33, R202);
the last quire of a ream writes its completion word (R288). -/
def execQuireResourceRelease (h : Nat) (s : State) : Out :=
  .next <|
    match s.quires.find h with
    | none => s
    | some q =>
      if q.phase = .draining ∧ s.engineBusy h true = false then
        let s := s.unsubscribe h
        let s := { s with quires := s.quires.del h }.retryAll
        match q.ream with
        | some m => ({ (s.reamMark h m) with reams := s.reams.upd m fun x => { x with open_ := x.open_ - 1 } }).reamEnd m
        | none => s
      else s

end Sys2Proof.Machine
end

