-- ==== Sys2Proof/Machine/Record.lean ====
section
/-! DEFINITION. The bytes of a swap record (R297): its regions as a save writes them and a resume reads them back. R297
gives the places of the regions, of rows, chamber, tiles and array elements; where it only lists what a region holds, the
model puts the items in the order of the list, each at the width of its register (log 15). -/

namespace Sys2Proof.Machine

/-! ### What a save writes -/

/-- Bytes of a 96-bit mask. -/
def maskBytes (m : Mask) : List Byte := leBytes 12 m.toNat
/-- Number of the cause of a swap-out. -/
def SwapCause.code : SwapCause → Nat
  | .join => 0 | .spin => 1 | .preempt => 2 | .suspend => 3
/-- The header (R297). -/
def State.recHeader (s : State) (q : Quire) (cause : SwapCause) : List Byte :=
  let m := q.ream.bind s.reams.find
  ([q.qid.toNat, q.nsheets, q.rowg, q.chamg, q.ntiles, q.wmag, q.joins, q.lin, m.elim 0 (·.x), m.elim 0 (·.y), m.elim 0 (·.z),
    if q.halted.isSome then 1 else 0, cause.code].flatMap (leBytes 4)) ++ List.replicate 204 0
/-- The quire registers (R297): Q0-Q15, B0-B15, P0-P31. -/
def Quire.recRegs (q : Quire) : List Byte :=
  ((List.range 16).flatMap fun i => leBytes 4 (q.q.get 0 i).toNat) ++
  ((List.range 16).flatMap fun i =>
    match q.bars.find i with
    | some b => leBytes 2 b.e ++ leBytes 2 b.a ++ leBytes 2 b.phase ++ leBytes 2 1
    | none => List.replicate 8 0) ++
  ((List.range 32).flatMap fun i =>
    match q.pools.find i with
    | some p => leBytes 4 p.off.toNat ++ leBytes 4 p.n ++ leBytes 2 p.rd ++ leBytes 2 p.filled ++ leBytes 4 p.resv
    | none => List.replicate 16 0) ++ List.replicate 64 0
/-- Number of a wait. -/
def Wait.code : Wait → Nat
  | .none => 0 | .flags => 1 | .issue _ => 2 | .bar _ _ => 3 | .pwait _ _ _ => 4 | .pdrain _ => 5 | .join => 6
  | .rgrow _ _ _ => 7 | .spawn _ _ _ _ => 8 | .yield => 9 | .mxWait _ _ => 10 | .walk _ _ _ => 11 | .parked _ _ _ => 12
  | .vdrain => 13 | .wmSync _ => 14 | .dkload _ => 15 | .suspend _ => 16 | .wmInit _ _ _ _ _ _ _ => 17
/-- What a wait holds beside its number: barrier and phase; pool, registers and deadline with whether there is one; batch and
registers (R294). -/
def Wait.recBytes : Wait → List Byte
  | .bar b phase => leBytes 4 b ++ leBytes 4 phase ++ leBytes 8 0
  | .pwait p sd dl => leBytes 2 p ++ leBytes 2 sd ++ leBytes 4 (if dl.isSome then 1 else 0) ++ leBytes 8 (dl.elim 0 (·.toNat))
  | .pdrain p => leBytes 4 p ++ leBytes 12 0
  | .mxWait n sd => leBytes 4 n.toNat ++ leBytes 4 sd ++ leBytes 8 0
  | _ => leBytes 16 0
/-- The header of a sheet's clause (R294): at its start the one at the PC. -/
def Sheet.resumeAt (sh : Sheet) : DWord := if sh.idx = 0 then sh.pc else sh.hdrAddr
/-- A sheet's region (R297). -/
def Sheet.recBytes (sh : Sheet) : List Byte :=
  let w := fun (x : Word) => leBytes 4 x.toNat
  let d := fun (x : DWord) => leBytes 8 x.toNat
  leBytes 4 sh.alloc ++ ((List.range 64).flatMap fun n => w (sh.raw (.s n))) ++
  ((List.range 8).flatMap fun n => maskBytes (sh.k.get 0 n)) ++ ((List.range 16).flatMap fun n => maskBytes (sh.ms.get 0 n)) ++
  leBytes 4 sh.msp ++ ((List.range 8).flatMap fun n => leBytes 2 ((sh.regions[n]?).getD 0xFFFF).toNat) ++
  ((List.range 4).flatMap fun j => (List.range 14).flatMap fun k => w (slotRead (sh.slotAt j) k)) ++
  ((List.range 96).map fun i => sh.lstg.get 0 i) ++
  d sh.tpc ++ d sh.thdr ++ w sh.tcause ++ d sh.taddr ++ w sh.tinfo ++ w sh.tstat ++ d sh.tvec ++ w sh.sflags ++ w sh.strap ++
  ((List.range 16).flatMap fun n => w (sh.stalls.get 0 n)) ++ d sh.hash ++ w (sh.reftCap.getD 0) ++ w (sh.cycCap.getD 0) ++
  w sh.batch ++
  ((List.range 64).flatMap fun i =>
    match sh.window.find? fun b => b.n.toNat % 64 = i with
    | some b => leBytes 1 b.status.toNat ++ leBytes 1 b.tile ++ leBytes 2 0 ++ w b.addr
    | none => List.replicate 8 0) ++
  d sh.resumeAt ++ leBytes 1 sh.idx ++ leBytes 1 sh.hdr.seta.toNat ++ leBytes 1 sh.hdr.setb.toNat ++ leBytes 1 sh.hdr.le.toNat ++
  leBytes 4 sh.wait.code ++ sh.wait.recBytes ++ List.replicate 480 0
/-- Bytes of V rows of a sheet (R297): register 0 first, strand 0 first. -/
def Sheet.rowBytes (sh : Sheet) : List Byte :=
  (List.range (96 * sh.alloc)).flatMap fun i => leBytes 4 (sh.v.get 0 i).toNat
/-- A tile's region of a record (R297): elements as in R148, E and MXROWP, 8 bytes each. -/
def Tile.record (t : Tile) : List Byte :=
  ((List.range 16384).flatMap fun i => leBytes 8 (t.elem i).word.toNat) ++ leBytes 8 (BitVec.ofInt 64 t.e).toNat ++
    leBytes 8 t.rowp.toNat
/-- Mode, cap, base, length and version of the array (R297). -/
def Quire.recExtent (q : Quire) : List Byte :=
  match q.ext with
  | some x => leBytes 2 x.mode ++ leBytes 4 x.cap.toNat ++ leBytes 2 x.base ++ leBytes 4 x.len ++ leBytes 4 x.ver.toNat
  | none => List.replicate 16 0
/-- The sheet regions, empty for sheets that have exited or do not exist. -/
def Quire.recSheets (q : Quire) : List Byte :=
  (List.range 16).flatMap fun k =>
    match q.sheets.find k with
    | some sh => if sh.exited then List.replicate 0x800 0 else sh.recBytes
    | none => List.replicate 0x800 0
/-- A record put into the swap area. -/
def State.writeRecord (s : State) (q : Quire) (cause : SwapCause) (a : Nat) : State :=
  let s := s.openWrite a (s.recHeader q cause ++ q.recRegs ++ q.recSheets)
  let s := s.openWrite (a + 0x8400) ((q.sheets.filter fun x => !x.2.exited).flatMap fun x => x.2.rowBytes)
  let s := s.openWrite (a + q.recChamber) (q.chamBytes 0 (4096 * q.chamg))
  let s := s.openWrite (a + q.recTiles)
    ((List.range q.ntiles).flatMap fun t => (q.tiles.get (Tile.reserved q.fkey) t).record)
  s.openWrite (a + q.recArray)
    (((List.range (256 * q.wmag)).flatMap fun i => leBytes 4 (q.arrElem i).toNat) ++ q.recExtent)

/-! ### What a resume reads back -/

/-- Element of a tile region (R148). -/
def elemOf (w : Nat) : Elem := { m := (BitVec.ofNat 48 w).toInt, code := BitVec.ofNat 2 (w / 2 ^ 48) }
/-- A slot of a sheet's region: its words as `rdsr` reads them (R208), reserved bits 0 (R6). -/
def slotOf (w : Nat → Word) : Slot :=
  { cnt := w 0, beg := joinWords (w 1) (w 2), fin := joinWords (w 3) (w 4), nst := (w 5).setWidth 4, win := w 6 &&& 0xFFFF,
    rot := (w 7).setWidth 8, feed := w 10 ++ w 9 ++ w 8, park := w 13 ++ w 12 ++ w 11 }
/-- A sheet with the registers of its region at `a`; reserved bits read 0 (R6). -/
def State.readSheet (s : State) (a : Nat) (sh : Sheet) : Sheet :=
  let w := fun o => BitVec.ofNat 32 (s.readNat (a + o) 4)
  let d := fun o => BitVec.ofNat 64 (s.readNat (a + o) 8)
  let m := fun o => BitVec.ofNat 96 (s.readNat (a + o) 12)
  let tab := fun (n : Nat) (f : Nat → Word) => (List.range n).foldl (fun t i => Tab.set 0 t i (f i)) ([] : Tab Word)
  let masks := fun (n : Nat) (f : Nat → Mask) => (List.range n).foldl (fun t i => Tab.set 0 t i (f i)) ([] : Tab Mask)
  { sh with
    s := tab 60 fun n => w (4 + 4 * n), exm := m 244, k := masks 8 fun n => m (260 + 12 * n),
    ms := masks 16 fun n => m (356 + 12 * n), msp := s.readNat (a + 548) 4,
    regions := (List.range sh.regions.length).map fun n => BitVec.ofNat 16 (s.readNat (a + 552 + 2 * n) 2),
    slots := (List.range 4).map fun j => (j, slotOf fun k => w (568 + 56 * j + 4 * k)),
    lstg := (List.range 96).foldl (fun t i => Tab.set 0 t i (BitVec.ofNat 8 (s.readNat (a + 792 + i) 1))) [],
    tpc := d 888, thdr := d 896, tcause := w 904 &&& 0xFF, taddr := d 908, tinfo := w 916, tstat := w 920 &&& 0xF7,
    tvec := d 924, sflags := w 932 &&& 0x7F, strap := w 936 &&& 0x6F, stalls := tab 16 fun n => w (940 + 4 * n), hash := d 1004,
    reftCap := sh.reftCap.map fun _ => w 1012, cycCap := sh.cycCap.map fun _ => w 1016, batch := w 1020 }
/-- A sheet's V rows, read from `a` on (R297). -/
def State.readRows (s : State) (a : Nat) (sh : Sheet) : Tab Word :=
  (List.range (96 * sh.alloc)).foldl (fun t i => Tab.set 0 t i (BitVec.ofNat 32 (s.readNat (a + 4 * i) 4))) []
/-- A barrier of the quire registers; its phase number is the quire's own. -/
def State.readBar (s : State) (a : Nat) (b : Bar) : Bar := { b with e := s.readNat a 2, a := s.readNat (a + 2) 2 }
/-- What a record at `a` gives back to a quire (R297). The pool registers and the join counter, which operations change
while the quire is away (R296, R298), the batch window and the waits are the quire's own. -/
def State.readRecord (s : State) (q : Quire) (a : Nat) : Quire :=
  let rows := (q.sheets.filter fun x => !x.2.exited).foldl (fun (x : Nat × Tab Sheet) y =>
    (x.1 + y.2.alloc, x.2.upd y.1 fun sh =>
      { s.readSheet (a + 0x400 + 0x800 * y.1) sh with v := s.readRows (a + 0x8400 + 384 * x.1) y.2 })) (0, q.sheets)
  let e := a + q.recArray + 1024 * q.wmag
  { q with
    qid := BitVec.ofNat 32 (s.readNat a 4),
    q := (List.range 16).foldl (fun t i => Tab.set 0 t i (BitVec.ofNat 32 (s.readNat (a + 0x100 + 4 * i) 4))) [],
    bars := q.bars.map fun b => (b.1, s.readBar (a + 0x140 + 8 * b.1) b.2),
    sheets := rows.2,
    cham := Memory.write [] 0 (s.readBytes (a + q.recChamber) (4096 * q.chamg)),
    tiles := (List.range q.ntiles).foldl (fun t n =>
      let b := a + q.recTiles + 131088 * n
      t.upd n fun x =>
        { x with
          el := (List.range 16384).foldl (fun l i => Tab.set { m := 0, code := 0 } l i (elemOf (s.readNat (b + 8 * i) 8))) [],
          e := (BitVec.ofNat 64 (s.readNat (b + 131072) 8)).toInt }) q.tiles,
    arr := (List.range (256 * q.wmag)).map fun i => (i, BitVec.ofNat 32 (s.readNat (a + q.recArray + 4 * i) 4)),
    ext := q.ext.map fun _ =>
      { mode := s.readNat e 2, cap := BitVec.ofNat 32 (s.readNat (e + 2) 4), base := s.readNat (e + 6) 2,
        len := s.readNat (e + 8) 4, ver := BitVec.ofNat 32 (s.readNat (e + 12) 4) } }

end Sys2Proof.Machine
end

