-- ==== Sys2Proof/Machine/Swap.lean ====
section
/-! DEFINITION. Swap-out, pre-emption and resume (R32, R45, R293-R299, R306). -/

namespace Sys2Proof.Machine

/-! ### What starts a swap-out (R32, R45, R293) -/

/-- JOIN_SWAP_OUT: every sheet of a quire has waited in `join` for 4,096 cycles, and its context does not pin it (R32,
R285). -/
def execJoinSwapOut (h : Nat) (s : State) : Out :=
  .next <|
    match s.quires.find h with
    | none => s
    | some q =>
      if q.allJoin && q.joinAt.any (fun t => t + 4096 ≤ s.cycles q.core) && q.joins != 0 && !(s.ctx q.ctx).desc.pin then
        s.swapStart h .join
      else s
/-- For the last 4,096 cycles a sheet has waited or yielded in every span of 512 (R45). -/
def Sheet.spinning (sh : Sheet) (cyc : Nat) : Bool :=
  sh.spinFrom + 4096 ≤ cyc && (sh.wait.spins || cyc ≤ sh.spinLast + 512)
/-- A launch or a resume waits at a core, in its die's queues or in its die's spawn pool (R45). R45 does not say where a resume
waits, which R298 lets go to any core; the model counts it at the core that its quire left (DESIGN CHOICE, log 39). -/
def State.wanted (s : State) (core : Nat) : Bool :=
  !(s.core core).waitq.isEmpty || !(s.core core).ready.isEmpty || !(s.headsAt (dieOf core)).isEmpty || !(s.die (dieOf core)).pool.isEmpty ||
  s.quires.any fun x => x.2.core == core && x.2.eligible.isSome
/-- SPINNING_QUIRE_SWAP_OUT (R45). -/
def execSpinningQuireSwapOut (h : Nat) (s : State) : Out :=
  .next <|
    match s.quires.find h with
    | none => s
    | some q =>
      if q.phase = .resident ∧ (s.ctx q.ctx).desc.pin = false ∧ s.wanted q.core = true ∧
          (q.sheets.all fun x => x.2.exited || x.2.spinning (s.cycles q.core)) = true then s.swapStart h .spin
      else s

/-! ### Pre-emption (R293, R306) -/

/-- A valid leaf of the page tables below a table of level `5 - n`, in what a partition may reach (R349), maps a frame, of a
size, for which `hit` holds (R300). -/
def State.leafMaps (s : State) (part : Nat) (hit : Nat → Nat → Bool) : Nat → Nat → Bool
  | 0, _ => false
  | n + 1, tbl =>
    (List.range (levelBits (4 - n)).2).any fun i =>
      let e := BitVec.ofNat 64 (s.readNat (tbl + 8 * i) 8)
      s.mayReach part (tbl + 8 * i) 8 false && e.getLsbD 0 && if e.getLsbD 1 then hit (16384 * (e.extractLsb' 14 38).toNat) (2 ^ (levelBits (4 - n)).1)
        else s.leafMaps part hit n ((e.extractLsb' 10 42).toNat * 1024)
/-- The parts of its core's on-chip window that a quire holds (R148): start and bytes. -/
def Quire.windows (q : Quire) : List (Nat × Nat) :=
  let w := winBase + 0x100000 * q.core
  [(w + 4096 * q.chamAt, 4096 * q.chamg), (w + 0xC0000 + 1024 * q.arrAt, 1024 * q.wmag)] ++
    q.tileAt.map fun t => (w + 0x80000 + 0x20000 * t, 0x20000)
/-- A page table of some context of the quire's partition, the only one that may map it, maps a window of a quire (R148, R349). -/
def State.mapped (s : State) (q : Quire) : Bool :=
  s.ctxs.any fun c => c.2.part == (s.ctx q.ctx).part && s.leafMaps c.2.part (fun f n => q.windows.any fun w => w.1 < f + n && f < w.1 + w.2) 5 c.2.desc.ptroot
/-- Quires of a core that a context may pre-empt: lower PRIO, not pinned, no window of theirs mapped; lowest PRIO first,
then the most recently launched. -/
def State.victims (s : State) (core ctx : Nat) : List Nat :=
  let p := (s.ctx ctx).desc.prio
  let vs := (s.onCore core).filter fun x => x.2.phase == .resident && (s.ctx x.2.ctx).desc.prio < p && !(s.ctx x.2.ctx).desc.pin &&
    !s.mapped x.2
  let first (a b : Nat × Quire) : Bool :=
    let pa := (s.ctx a.2.ctx).desc.prio
    let pb := (s.ctx b.2.ctx).desc.prio
    pa < pb || (pa == pb && (b.2.launched < a.2.launched || (b.2.launched == a.2.launched && b.1 < a.1)))
  let rec ins (x : Nat × Quire) : List (Nat × Quire) → List (Nat × Quire)
    | [] => [x]
    | y :: t => if first x y then x :: y :: t else y :: ins x t
  (vs.foldl (fun l x => ins x l) []).map (·.1)
/-- The module without some quires. -/
def State.without (s : State) (hs : List Nat) : State := { s with quires := s.quires.filter fun x => !hs.contains x.1 }
/-- Swapping out victims would make a quire fit a core (R293). -/
def State.preemptFits (s : State) (core : Nat) (q : Quire) : Bool :=
  let vs := s.victims core q.ctx
  let t := s.without vs
  !vs.isEmpty && s.owns (s.ctx q.ctx).part core && (s.core core).claim.isNone &&
  (s.modeOk core q.ctx || t.canSwitch core) && (t.grant core q).isSome
/-- The head quire of a PREEMPT context that has stood unplaced for 1,024 cycles, and the lowest core of the die that
pre-emption can clear for it (R293). -/
def State.preemptPick (s : State) (die : Nat) : Option ((Nat × Nat × LQueue × Nat × Ream) × Nat) :=
  let xs := s.headsAt die
  [3, 2, 1, 0].findSome? fun prio =>
    (afterLast (s.die die).lastQ (xs.filter fun x => x.2.2.1.prio == prio)).findSome? fun x =>
      if x.2.2.1.since + 1024 ≤ (s.die die).cycles s.now ∧ (s.ctx x.2.2.2.2.ctx).desc.preempt = true then
        ((coresOf die).find? fun c => s.preemptFits c (x.2.2.2.2.quire x.2.2.2.1 c 0)).map fun c => (x, c)
      else none
/-- A victim of the core is being saved. -/
def State.clearing (s : State) (core : Nat) : Bool := (s.onCore core).any fun x => x.2.phase == .saving .preempt
/-- The next victim of a core that a pre-emption clears, while its quire does not fit, or the core is of the other mode and holds
a quire (R285, R293). -/
def State.nextVictim (s : State) (core : Nat) : Option Nat :=
  (s.core core).claim.bind fun h => (s.quires.find h).bind fun q =>
    if s.clearing core || ((s.grant core q).isSome && (s.modeOk core q.ctx || (s.onCore core).isEmpty)) then none else (s.victims core q.ctx).head?
/-- The next victim of a core, when its swap-out finds room: a pre-emption without room waits (R297). -/
def State.victimNow (s : State) (core : Nat) : Option Nat :=
  (s.nextVictim core).filter fun v => (s.quires.find v).any s.hasRoom
/-- PREEMPTION: on a die, the next victim of a core being cleared begins to leave; else a head quire that has waited long
enough takes the lowest core that can be cleared, waits there, and the first victim begins to leave (R293). -/
def execPreemption (die : Nat) (s : State) : Out :=
  .next <|
    match (coresOf die).findSome? s.victimNow with
    | some v => s.swapStart v .preempt
    | none =>
      match s.preemptPick die with
      | none => s
      | some (x, core) =>
        let h := s.next
        let s := (s.placeAt die x core).modCore core fun c => { c with claim := some h, clearAt := s.cycles core }
        match (s.victims core x.2.2.2.2.ctx).head? with
        | some v => s.swapStart v .preempt
        | none => s
/-- The claim of a core is over: no victim leaves it, its quire fits or no victim is left, and the cycle after the last
swap record has come (R306). -/
def State.claimOver (s : State) (core : Nat) : Option Nat :=
  (s.core core).claim.bind fun h =>
    if s.clearing core || (s.nextVictim core).isSome || s.cycles core ≤ (s.core core).clearAt then none else some h
/-- PREEMPT_LAUNCH: the quire for which victims have left starts, or begins the switch of the core's mode; one that still
cannot waits under R36 from now on (R285, R306). -/
def execPreemptLaunch (core : Nat) (s : State) : Out :=
  .next <|
    match s.claimOver core with
    | none => s
    | some h =>
      match s.launchGrant core h with
      | some g => s.start h core g
      | none =>
        let ctx := (s.quires.find h).elim 0 (·.ctx)
        if (s.core core).switch.isSome then s
        else if (s.core core).slotted ≠ (s.ctx ctx).desc.bank ∧ (s.onCore core).isEmpty then s.startSwitch core ctx
        else
          (s.modCore core fun c => { c with claim := none }).modQuire h fun q =>
            { q with phase := .waiting (s.cycles core), launched := s.reft }

/-! ### The save (R294-R298) -/

/-- Nothing that R295 waits for is left of a quire. -/
def State.saveReady (s : State) (h : Nat) (q : Quire) : Bool :=
  (match q.phase with | .saving _ => true | _ => false) && !s.engineBusy h false &&
  q.sheets.all fun x => x.2.lls.isEmpty && x.2.posts == 0 &&
    match x.2.wait with
    | .spawn _ _ _ _ | .dkload _ | .wmSync _ | .wmInit _ _ _ _ _ _ _ => false
    | _ => true
/-- The wait with which a sheet is saved (R294): one that stands at its word issues it again. -/
def Wait.saved : Wait → Wait
  | .walk _ _ _ | .parked _ _ _ | .rgrow _ _ _ | .issue _ => .none
  | w => w
/-- A `pwait` of one of a quire's sheets would return now (R177, R298). -/
def State.pwaitDue (s : State) (q : Quire) : Bool :=
  q.sheets.any fun x =>
    match x.2.wait with
    | .pwait p _ dl => (q.pools.find p).any (fun x => x.filled != 0) || dl.any fun d => d.toNat ≤ s.reft
    | _ => false
/-- When a quire is eligible at the moment its record is written (R51, R298). -/
def State.eligibleAt (s : State) (q : Quire) (cause : SwapCause) : Option Nat :=
  match cause with
  | .preempt => some s.reft
  | .join => if q.joins = 0 then some s.reft else none
  | .spin => if s.pwaitDue q = true ∨ (q.joins = 0 ∧ q.allJoin = true) then some s.reft else none
  | .suspend => if (s.ctx q.ctx).suspended then none else some s.reft
/-- A quire whose record stands: what the record holds leaves the core. -/
def Quire.away (q : Quire) (ph : Phase) : Quire :=
  { q with
    phase := ph, cham := [], tileAt := [], tiles := q.tiles.mapv fun t => { t with fresh := false, el := [] }, arr := [],
    sheets := q.sheets.mapv fun sh => { sh with v := [], wait := sh.wait.saved, held := [] } }
/-- Chamber sides of a quire's fabric operations as the scoreboard of its core holds them (R146, R322). -/
def State.fabBoards (s : State) (h : Nat) : List Board :=
  s.fabs.filterMap fun o =>
    match o.kind with
    | .send loc _ n _ | .fetch loc _ n _ =>
      if o.ref.h = h ∧ loc.cham = true then
        some { op := o.id, h, lo := loc.addr.toNat, hi := loc.addr.toNat + n, copy := false, mx := false }
      else none
    | _ => none
/-- SWAP_OUT_SAVE: the swap record is written at an offset of the swap area that the command processor chooses, once no
re-key holds it, and the quire leaves its core with the scoreboard entries of its fabric operations (R295-R298, R359). -/
def execSwapOutSave (h off : Nat) (s : State) : Out :=
  .next <|
    match s.quires.find h with
    | none => s
    | some q =>
      match q.phase with
      | .saving cause =>
        let c := s.ctx q.ctx
        let a := c.desc.swapbase + off
        if !s.saveReady h q || !c.swapFits off q.recEnd || !s.swapIn q off then s
        else s.engGate (.quire h) [] (plainPas (blocksOf a q.recEnd)) fun s =>
          let s := (s.writeRecord q cause a).unsubscribe h
          let s := s.modQuire h fun q => q.away (.swapped cause a s.reft (s.eligibleAt q cause))
          let s := s.modCtx q.ctx fun c => { c with swaps := c.swaps ++ [(off, q.recEnd)] }
          let s := s.modCore q.core fun c =>
            { c with board := c.board.filter (·.h != h), clearAt := if cause = .preempt then s.cycles q.core else c.clearAt }
          let drop (f : FaultReq) : Bool := f.ref.any (·.h == h)
          let s := s.modDie (dieOf q.core) fun d => { d with faults := d.faults.filter (!drop ·) }
          let mine (g : Grab) : Bool := match g.who with | .sheet r => r.h == h | _ => false
          let s := { s with reissue := s.reissue.filter (fun x => x.ref.h != h), grabs := s.grabs.filter (!mine ·) }
          (s.suspendWake q.ctx).retryAll
      | _ => s

/-! ### Resume (R298, R299) -/

/-- SPIN_RESUME_TIMEOUT: 65,536 REFT ticks have passed since a spinning quire's record was written (R298). -/
def execSpinResumeTimeout (h : Nat) (s : State) : Out :=
  .next <|
    s.modQuire h fun q =>
      match q.phase with
      | .swapped .spin a w none => if w + 65536 ≤ s.reft then { q with phase := .swapped .spin a w (some s.reft) } else q
      | _ => q
/-- No quire that left the same die and has been eligible longer could start on the core (R298). -/
def State.resumeFirst (s : State) (core h : Nat) : Bool :=
  match s.quires.find h with
  | none => false
  | some q =>
    !(s.quires.any fun x =>
      x.1 != h && dieOf x.2.core == dieOf q.core &&
      (match x.2.eligible, q.eligible with | some a, some b => a < b || (a == b && x.1 < h) | _, _ => false) &&
      (s.resumeGrant core x.1).isSome)
/-- The quire takes its new place with what it was granted: rows, chamber, tiles and array (R298); one that R335 had
stopped is still stopped. CYC may read less on the new die (R51), so the cycles of earlier writes of Q registers say
nothing any more. -/
def Quire.settle (q : Quire) (core cyc : Nat) (g : Grant) : Quire :=
  { q with
    phase := if q.halted.isSome then .stopped true else .resident,
    core, chamAt := g.chamAt, tileAt := g.tiles, arrAt := g.arrAt, joinAt := none, qw := [],
    sheets := g.sheets.foldl (fun t x => t.upd x.1 fun sh =>
      { sh with
        lb := x.2.lb, slot := x.2.slot, base := x.2.base, began := cyc, startAt := cyc, spinFrom := cyc, spinLast := cyc,
        wait := if sh.wait = .flags ∨ (sh.wait = .join ∧ q.joins = 0) then .none else sh.wait }) q.sheets }
/-- QUIRE_RESUME: an eligible quire comes back on a core when nothing there comes before it (R291, R298), or the core begins
to switch its mode for it, and waits for it (R285); its waits go on, and those whose event has come end (R294). The 4,096 cycles of R32 begin
anew for sheets that still wait in `join` (log 39). -/
def execQuireResume (h core : Nat) (s : State) : Out :=
  .next <|
    match s.quires.find h, s.resumeGrant core h with
    | some q, some g =>
      match q.phase with
      | .swapped _ a _ (some since) =>
        if !s.firstAt core since || !s.resumeFirst core h || s.boardFree core < (s.fabBoards h).length then s
        else if !s.modeOk core q.ctx then (s.startSwitch core q.ctx).modCore core fun c => { c with waitq := c.waitq ++ [h] }
        else s.engGate (.quire h) (plainPas (blocksOf a q.recEnd)) [] fun s =>
          let s := s.boardAdd core (s.fabBoards h)
          let s := { s with quires := s.quires.put h ((s.readRecord q a).settle core (s.cycles core) g) }
          let s := s.modCtx q.ctx fun c => { c with swaps := c.swaps.filter fun x => c.desc.swapbase + x.1 != a }
          let s := { s with cores := s.cores.mapv fun c => { c with waitq := c.waitq.filter (· != h) } }
          let s := s.modCore core fun c => { c with p := g.p }
          let s := if q.joins = 0 then
              q.sheets.foldl (fun s x => if x.2.wait = .join then s.joinAcq { h, k := x.1 } else s) s
            else s
          q.pools.foldl (fun s x => s.poolWake h x.1) (s.noteJoin h)
      | _ => s
    | _, _ => s

end Sys2Proof.Machine
end

