-- ==== Sys2Proof/Machine/Pager.lean ====
section
/-! DEFINITION. The walkers and the firmware pager (R84, R168-R172, R300-R304), and what management firmware does to a
die: clock steps (R305) and its noise source (R141, R348). -/

namespace Sys2Proof.Machine

/-- The 16 KiB page of a virtual address, the unit in which the pager answers. -/
def pageNo (va : DWord) : Nat := (va.extractLsb' 0 56).toNat / 16384

/-! ### Walks (R84, R169-R171, R300-R302) -/

/-- The word that a sheet's translation fault concerns: the `loop` word whose level was to open, at its clause's end
(R193), else the word or header at the PC. -/
def Sheet.faultWord (sh : Sheet) : DWord × Nat :=
  match sh.pend with
  | some p => if sh.idx = sh.hdr.n.toNat + 1 then (sh.hdrAddr + BitVec.ofNat 64 (8 * p.idx), p.idx) else (sh.pc, sh.idx)
  | none => (sh.pc, sh.idx)
/-- A translation fault that is fatal traps at the word, or at the header, that needs the page (R84, R162 step 5,
R172). -/
def Sheet.xlateTrap (sh : Sheet) (cause : BitVec 8) (reason : Nat) (va : DWord) (strand : Nat) (fetch : Bool) : Trap :=
  { cause, tpc := sh.faultWord.1, thdr := if sh.idx = 0 then sh.pc else sh.hdrAddr, addr := va,
    info := BitVec.ofNat 32 (sh.faultWord.2 % 16 + (if fetch then 0 else 16 * strand) + 2048 * reason) }
/-- A sheet's word meets a fatal fault, which ends its wait (R45); a quire that is being saved issues the word again when it resumes (R294). -/
def State.xlateFatal (s : State) (r : SheetRef) (cause : BitVec 8) (reason : Nat) (va : DWord) (strand : Nat)
    (fetch : Bool) : State :=
  match s.quires.find r.h, s.sheet? r with
  | some q, some sh =>
    let s := match sh.wait with
      | .parked _ _ _ => s.modSheet r fun sh => sh.noteSpin (s.cycles q.core)
      | _ => s
    if q.phase = .resident then s.trap r (sh.xlateTrap cause reason va strand fetch) else s.wake r
  | _, _ => s
/-- Sheets of a core that wait for a walk in a context: with address, strand and whether it is a fetch. -/
def State.walkers (s : State) (core ctx : Nat) : List (SheetRef × DWord × Nat × Bool) :=
  s.sheets.filterMap fun x =>
    match x.2.2.wait with
    | .walk va l f => if x.2.1.core = core ∧ x.2.1.ctx = ctx ∧ x.2.1.phase = .resident then some (x.1, va, l, f) else none
    | _ => none
/-- A sheet parks on a repairable fault, with a request in its die's fault buffer; with the buffer full it waits at issue,
and what it had fetched is dropped (R170, R171). A word that had its turn to issue again has had it (R44). -/
def State.park (s : State) (r : SheetRef) (core ctx : Nat) (va : DWord) (strand : Nat) (fetch : Bool) : State :=
  if (s.die (dieOf core)).faults.length < Config.faultEntries then
    let t := (s.modDie (dieOf core) fun d => { d with faults := d.faults ++ [{ ctx, va, ref := some r }] }).modSheet r fun sh =>
      { (sh.noteSpin (s.cycles core)) with wait := .parked va strand fetch }
    { t with reissue := t.reissue.filter (·.ref != r) }
  else s.modSheet r fun sh => { sh with held := [] }
/-- TRANSLATION_WALK: a walk for an address that sheets of a core wait for ends: its entry fills the TLBs and they issue
again, or they park, or the fault is fatal (R169-R172, R300-R302). It waits for the re-key of a page of the tables, and a
fetch for that of its word's page (R359). -/
def execTranslationWalk (core ctx : Nat) (va : DWord) (s : State) : Out :=
  .next <|
    let ws := s.walkers core ctx
    let held (w : SheetRef × DWord × Nat × Bool) (t : TlbEnt) : Bool := w.2.2.2 && s.rekeying (t.pa w.2.1) 8
    if (!ws.any fun w => w.2.1 == va) || s.walkHeld (dieOf core) ctx va then s
    else
      match s.walk (dieOf core) ctx va with
      | .ok t =>
        if ws.any fun w => w.2.1 == va && !held w t then
          ws.foldl (fun s w => if t.hits ctx (w.2.1.extractLsb' 0 56).toNat && !held w t then s.wake w.1 else s) (s.fillTlb core t)
        else s
      | .repair => ws.foldl (fun s w => if w.2.1 = va then s.park w.1 core ctx va w.2.2.1 w.2.2.2 else s) s
      | .denied => ws.foldl (fun s w => if w.2.1 = va then s.xlateFatal w.1 cAccess 1 va w.2.2.1 w.2.2.2 else s) s
      | .fatal => ws.foldl (fun s w => if w.2.1 = va then s.xlateFatal w.1 cXlateFatal 0 va w.2.2.1 w.2.2.2 else s) s

/-! ### The firmware pager (R169-R172, R182, R252, R304) -/

/-- A request is for a page of a context. -/
def FaultReq.on (f : FaultReq) (ctx : Nat) (va : DWord) : Bool := f.ctx == ctx && pageNo f.va == pageNo va
/-- The requests of a die on a page leave its buffer. -/
def State.faultsDrop (s : State) (die ctx : Nat) (va : DWord) : State :=
  s.modDie die fun d => { d with faults := d.faults.filter fun f => !f.on ctx va }
/-- Entries written by the pager: walkers see them at once. -/
def State.pagerWrite (s : State) (w : Nat × DWord) : State := s.openWrite w.1 (leBytes 8 w.2.toNat)
/-- A repair by the pager: entries are written; the sheets parked on the page issue their words again in the order in which they
faulted (R170, R304), and fabric operations that waited go on (R323). -/
def State.repairNow (s : State) (die ctx : Nat) (va : DWord) (writes : List (Nat × DWord)) : State :=
  let refs := ((s.die die).faults.filter (·.on ctx va)).filterMap (·.ref)
  let s := (writes.foldl State.pagerWrite s).faultsDrop die ctx va
  let up (s : State) (r : SheetRef) : State :=
    match s.quires.find r.h, s.sheet? r with
    | some q, some sh =>
      match sh.wait with
      | .parked _ _ _ =>
        let s := s.modSheet r fun sh => { (sh.noteSpin (s.cycles q.core)) with wait := .none }
        if q.phase = .resident then
          { s with reissue := s.reissue.filter (·.ref != r) ++ [{ ref := r, list := (ctx + 1, pageNo va), pc := sh.pc }] }
        else s
      | _ => s
    | _, _ => s
  (refs.foldl up s).fabRetry
/-- PAGER_REPAIR: the pager writes page-table entries. It waits for a re-key of what it writes (R359, R363). -/
def execPagerRepair (die ctx : Nat) (va : DWord) (writes : List (Nat × DWord)) (s : State) : Out :=
  .next <|
    match s.postHold (writes.map (·.1)) (.repair die ctx va writes) with
    | (s, true) => s
    | (s, false) => s.repairNow die ctx va writes

/-- What the engines of a die do once a page has been declared fatal (R182, R235, R252, R320, R323): operations that
stopped on it end with its status. -/
def State.enginesFatal (s : State) (die : Nat) : State :=
  let onDie := fun (h : Nat) => (s.quires.find h).any fun q => dieOf q.core == die
  let go := fun (s : State) (i : State → Out) => match i s with | .next s => s | _ => s
  let s := (s.copies.filter fun c => c.slow && onDie c.ref.h).foldl (fun s c => s.copyRun c true) s
  let s := (s.nms.filter fun n => n.slow && onDie n.ref.h).foldl (fun s n => go s (execNmComplete n.id)) s
  let s := s.cores.foldl (fun s c =>
    if dieOf c.1 = die then go (go s (execPromotionStep c.1)) (execMxReadComplete c.1) else s) s
  s.fabRetry
/-- PAGER_FATAL: the pager declares a page's fault fatal, for want of a translation or of a permission: parked sheets trap
(R172), engine operations end with status XLATE or ACCESS. -/
def execPagerFatal (die ctx : Nat) (va : DWord) (access : Bool) (s : State) : Out :=
  .next <|
    let fs := (s.die die).faults.filter (·.on ctx va)
    let s := s.faultsDrop die ctx va
    let one (s : State) (f : FaultReq) : State :=
      match f.ref.bind fun r => (s.sheet? r).map fun sh => (r, sh.wait) with
      | some (r, Wait.parked a l fetch) =>
        if access then s.xlateFatal r cAccess 1 a l fetch else s.xlateFatal r cXlateFatal 0 a l fetch
      | _ => s
    let s := fs.foldl one s
    if fs.any fun f => f.ref.isNone then
      { ({ s with verdict := some (ctx, pageNo va, if access then stAccess else stXlate) }.enginesFatal die) with
        verdict := none }
    else s

/-! ### Management firmware and a die (R141, R305, R348) -/

/-- An event of a die, to every partition that holds a gallery on it (R348, R349). -/
def State.reportDie (s : State) (die typ detail : Nat) : State :=
  s.parts.foldl (fun s p => if p.2.dies.contains die then s.report p.1 typ die detail else s) s
/-- CLOCK_RELOCK_DONE: a die's clock has relocked: the new step is in force, CYC goes on, and a held write takes effect
(R305). -/
def execClockRelockDone (die : Nat) (s : State) : Out :=
  .next <|
    match (s.die die).step with
    | none => s
    | some (f, t) =>
      if s.now < t then s
      else
        let held := (s.die die).heldF
        let s := s.modDie die fun d => { d with f, cycAt := s.now, step := none, heldF := none }
        match held with
        | some g => s.setClock die g
        | none => s
/-- FIRMWARE_CLOCK_STEP: management firmware steps a die's clock (R305); a step for temperature raises event 7. -/
def execFirmwareClockStep (die f : Nat) (temperature : Bool) (s : State) : Out :=
  .next <|
    if 8 < f ∨ 4 ≤ die ∨ (s.die die).up = false then s
    else
      let same := (s.die die).step.isNone && (s.die die).f == f
      let s := s.setClock die f
      if temperature && !same then s.reportDie die 7 (die + 2 ^ 32 * f) else s
/-- NOISE_SOURCE_FAIL: a die's noise source fails: it is counted, and event 3 is reported (R141, R348, R362). -/
def execNoiseSourceFail (die : Nat) (s : State) : Out :=
  .next <|
    if (s.die die).noiseFail || !(s.die die).up then s
    else
    let s := s.modDie die fun d => { d with noiseFail := true }
    ({ s with life := { s.life with noise := s.life.noise.set 0 die (s.life.noise.get 0 die + 1) } }).reportDie die 3 die

end Sys2Proof.Machine
end

