-- ==== Sys2Proof/Machine/Host.lean ====
section
/-! DEFINITION. The host's registers and commands (R345-R347), boot (R350-R352, R360, R364), the memory devices (R355,
R357, R359, R363) and the lifetime counters (R362). -/

namespace Sys2Proof.Machine

/-! ### Commands (R346, R347) -/

/-- Statuses of CMDSTAT (R347). -/
def cmdMalformed : Nat := 1
def cmdBusy : Nat := 2
def cmdNoSpace : Nat := 3
def cmdDenied : Nat := 4

/-- The first refusal of a list that holds, 0 for none. -/
def firstStatus (cs : List (Bool × Nat)) : Nat := (cs.find? (·.1)).elim 0 (·.2)
/-- A command: ignored before READY and while BUSY; refused with a status, and then it changes nothing else, or done, with
status 0 (R346, R347). DENIED is looked for first, then MALFORMED. -/
def command (part : Nat) (cs : State → List (Bool × Nat)) (f : State → State) (s : State) : Out :=
  .next <|
    if !(s.part part).ready || (s.part part).busy.isSome then s
    else
      let st := firstStatus (cs s)
      (if st = 0 then f s else s).modPart part fun p => { p with cmdstat := BitVec.ofNat 8 st }
/-- A command that reads memory: it stays BUSY while a re-key of a page with what it reads holds it, in its place among the accesses
that wait there (R359, R363), and is then done. -/
def State.cmdTry (s : State) (part : Nat) (b : Busy) (reads : List Nat) (go : State → Out) : Out :=
  if !(s.part part).ready || (s.part part).busy.any (· != b) then .next s
  else
    match s.keyGate (.cmd part) reads [] with
    | (s, false) => .next (s.modPart part fun p => { p with busy := some b })
    | (s, true) => go (if (s.part part).busy.isSome then s.modPart part fun p => { p with busy := none } else s)

/-- QUEUE (R286, R347). A queue that is configured anew starts at index 0. -/
def execQueue (part : Nat) (c : QueueCmd) (s : State) : Out :=
  command part (fun s =>
    [(!s.addrOk part c.ring (256 * 2 ^ c.k) || !s.ctxOf part c.ctx, cmdDenied),
     (decide (63 < c.q ∨ 12 < c.k ∨ 3 < c.prio ∨ c.ring % 256 ≠ 0), cmdMalformed),
     (((s.part part).queues.find c.q).any fun l => l.pending || l.head.isSome, cmdBusy)])
    (fun s =>
      let l : LQueue := { ring := c.ring, k := c.k, ctx := c.ctx, prio := c.prio, rd := 0, wr := 0, head := none, since := 0 }
      s.modPart part fun p => { p with queues := p.queues.put c.q l }) s
/-- Blocks that a command reads of an address that its partition may name. -/
def State.cmdReads (s : State) (part a n : Nat) : List Nat := if s.addrOk part a n then blocksOf a n else []
/-- CTX_CREATE (R285, R347): a CTXID of another partition's context is denied, one in use in this partition malformed. -/
def execCtxCreate (part addr : Nat) (s : State) : Out :=
  let id := fun (s : State) => s.readNat addr 2
  s.cmdTry part (.ctxCreate addr) (s.cmdReads part addr 128) <| command part (fun s =>
    let d := s.readDesc addr
    [(!s.addrOk part addr 128, cmdDenied), (!d.ok, cmdMalformed),
     (!s.addrOk part d.ptroot 2048 || !s.addrOk part d.swapbase (max 1 d.swapsize), cmdDenied),
     (decide (4095 ≤ s.ctxs.length), cmdNoSpace),
     ((s.ctxs.find (id s)).any (·.part != part), cmdDenied), ((s.ctxs.find (id s)).isSome, cmdMalformed)])
    (fun s => { s with ctxs := s.ctxs.put (id s) (Ctx.fresh part (s.readDesc addr)) })
/-- Something of a context is left: quires, spawn batches, triggers, bound group slots (R347). -/
def State.ctxBusy (s : State) (ctx : Nat) : Bool :=
  s.quires.any (·.2.ctx == ctx) || s.cores.any (fun c => c.2.bins.any (·.2.ctx == ctx) || c.2.ready.any (·.ctx == ctx)) ||
  s.dies.any (fun d => d.2.pool.any (·.ctx == ctx)) || s.vats.any (fun v => v.2.triggers.any (·.ctx == ctx)) ||
  (s.ctx ctx).groups.any (·.2.st != .unbound)
/-- CTX_DESTROY (R347). -/
def execCtxDestroy (part ctx : Nat) (s : State) : Out :=
  command part (fun s => [(!s.ctxOf part ctx, cmdDenied), (s.ctxBusy ctx, cmdBusy)])
    (fun s => { s with ctxs := s.ctxs.del ctx }) s

/-- A group descriptor's member table (R313). -/
def State.readMembers (s : State) (tab n : Nat) : List Member :=
  (List.range n).map fun i =>
    let a := tab + 16 * i
    { node := BitVec.ofNat 24 (s.readNat a 3), ctx := s.readNat (a + 4) 2,
      routes := (s.readBytes (a + 8) 4).filterMap fun b => if b.getLsbD 7 then some (b.toNat % 64) else none }
/-- Entries of a member table that break a limit of R313, a route by a port that the partition does not hold among them. -/
def State.membersBad (s : State) (part tab n rank : Nat) : Bool :=
  (List.range n).any fun i =>
    let a := tab + 16 * i
    s.readNat (a + 3) 1 != 0 || 4096 ≤ s.readNat (a + 4) 2 || s.readNat (a + 6) 2 != 0 || s.readNat (a + 12) 4 != 0 ||
      (i != rank && (s.readBytes (a + 8) 4).any fun b =>
        b.getLsbD 6 || (b.getLsbD 7 && !(s.part part).ports.getLsbD (b.toNat % 64)))
/-- GROUP_BIND (R312, R313, R347). -/
def execGroupBind (part ctx slot addr : Nat) (s : State) : Out :=
  let n := fun (s : State) (o k : Nat) => s.readNat (addr + o) k
  s.cmdTry part (.groupBind ctx slot addr) (s.cmdReads part addr 64 ++ s.cmdReads part (n s 16 8) (16 * n s 0 2)) <|
  command part (fun s =>
    [(!s.ctxOf part ctx || !s.addrOk part addr 64, cmdDenied),
     (decide (15 < slot ∨ addr % 64 ≠ 0 ∨ n s 0 2 < 1 ∨ 4096 < n s 0 2 ∨ n s 0 2 ≤ n s 2 2 ∨ n s 4 2 = 0 ∨ n s 6 2 ≠ 0 ∨
        n s 8 4 < 1000 ∨ 1000000 < n s 8 4 ∨ n s 16 8 % 16 ≠ 0 ∨ n s 24 40 ≠ 0), cmdMalformed),
     (!s.addrOk part (n s 16 8) (16 * n s 0 2), cmdDenied),
     (s.membersBad part (n s 16 8) (n s 0 2) (n s 2 2), cmdMalformed),
     ((s.group? ctx slot).any (·.st != .unbound), cmdBusy)])
    (fun s =>
      let g : Group :=
        { st := .active, nmem := n s 0 2, rank := n s 2 2, gen := n s 4 2, lat := n s 8 4, defdl := n s 12 4,
          span := n s 12 4, members := s.readMembers (n s 16 8) (n s 0 2), trip := none, seen := [], window := none,
          origin := false, bars := 0, arrived := [], props := [], shut := false, held := [] }
      s.modCtx ctx fun c => { c with groups := c.groups.put slot g })
/-- GROUP_UNBIND (R347). -/
def execGroupUnbind (part ctx slot : Nat) (s : State) : Out :=
  command part (fun s => [(!s.ctxOf part ctx, cmdDenied), (decide (15 < slot), cmdMalformed), (!(s.fabsOn ctx slot).isEmpty, cmdBusy)])
    (fun s =>
      { (s.modCtx ctx fun c => { c with groups := c.groups.del slot }) with
        applied := s.applied.filter fun k => k.1 != ctx || k.2.1 != slot }) s

/-- A debug descriptor (R333). -/
def State.readDebug (s : State) (a : Nat) : Debug :=
  let n := fun o k => s.readNat (a + o) k
  let bit := fun i => n 12 1 / 2 ^ i % 2 == 1
  { trbase := n 0 8, trsize := n 8 4, trace := bit 0, banktr := bit 1, record := bit 2, replay := bit 3, noise := bit 4,
    stop := bit 5, bankmin := n 13 1, stopid := (List.range 4).map fun i => BitVec.ofNat 16 (n (16 + 2 * i) 2),
    stopen := BitVec.ofNat 4 (n 24 1), logbase := n 32 8, logsize := n 40 8,
    ranges := (List.range 4).map fun i => (BitVec.ofNat 64 (n (64 + 16 * i) 8), BitVec.ofNat 64 (n (72 + 16 * i) 8)) }
/-- A debug descriptor breaks a limit of R333. -/
def State.debugBad (s : State) (a : Nat) : Bool :=
  let n := fun o k => s.readNat (a + o) k
  let d := s.readDebug a
  decide (a % 128 ≠ 0 ∨ d.trbase % 64 ≠ 0 ∨ d.trsize % 64 ≠ 0 ∨ d.trsize < 128 ∨ 64 ≤ n 12 1 ∨ d.bankmin < 2 ∨
    32 < d.bankmin ∨ n 14 2 ≠ 0 ∨ 16 ≤ n 24 1 ∨ n 25 7 ≠ 0 ∨ d.logbase % 4096 ≠ 0 ∨ d.logsize % 4096 ≠ 0 ∨
    d.logsize < 8192 ∨ n 48 16 ≠ 0) || (d.record && d.replay)
/-- DEBUG_BIND (R333, R347): a context that is still being suspended counts as not suspended (R299); address 0 unbinds; replay begins at the first entry of every log (R341, R342). -/
def execDebugBind (part ctx addr : Nat) (s : State) : Out :=
  s.cmdTry part (.debugBind ctx addr) (if addr = 0 then [] else s.cmdReads part addr 128) <| command part (fun s =>
    let d := s.readDebug addr
    [(!s.ctxOf part ctx || (addr != 0 && !s.addrOk part addr 128), cmdDenied),
     (addr != 0 && s.debugBad addr, cmdMalformed),
     (addr != 0 && !(s.addrOk part d.trbase d.trsize && s.addrOk part d.logbase d.logsize), cmdDenied),
     ((!(s.ctx ctx).suspended || s.toSave ctx) && s.quires.any (·.2.ctx == ctx), cmdBusy)])
    (fun s =>
      let s := s.modCtx ctx fun c =>
        { c with debug := if addr = 0 then none else some (s.readDebug addr), diverged := false, idsUsed := [], streams := [] }
      let s := { s with quires := s.quires.mapv fun q =>
        if q.ctx = ctx then { q with sheets := q.sheets.mapv fun sh => { sh with edges := 0, noises := 0 } } else q }
      { s with vats := s.vats.mapv fun v =>
          { v with gates := v.gates.filter (·.ctx != ctx), run := v.run.filter fun r => r.1 != ctx } })
/-- CTX_CTL with operand 1 (R299, R303): BUSY until the last swap record is written. -/
def execCtxCtlSuspend (part ctx : Nat) (s : State) : Out :=
  command part (fun s => [(!s.ctxOf part ctx, cmdDenied)])
    (fun s =>
      let s := s.suspendCtx ctx
      if s.toSave ctx then s.modPart part fun p => { p with busy := some (.suspend ctx) } else s) s
/-- CTX_CTL with operand 2 (R299, R303). -/
def execCtxCtlResume (part ctx : Nat) (s : State) : Out :=
  s.cmdTry part (.resume ctx) (s.cmdReads part (s.ctx ctx).desc.addr 128) <|
    command part (fun s => [(!s.ctxOf part ctx, cmdDenied)]) (fun s => s.resumeCtx ctx)
/-- A command that waits for memory tries again. -/
def State.cmdRun (s : State) (part : Nat) : State :=
  let go (x : Out) : State := match x with | .next s => s | _ => s
  match (s.part part).busy with
  | none | some (.suspend _) => s
  | some (.ctxCreate a) => go (execCtxCreate part a s)
  | some (.groupBind c n a) => go (execGroupBind part c n a s)
  | some (.debugBind c a) => go (execDebugBind part c a s)
  | some (.resume c) => go (execCtxCtlResume part c s)

/-! ### Lifetime counters (R362) -/

/-- The 8,640 bytes of R362's layout, from the counters as they stand. -/
def State.counterBytes (s : State) : List Byte :=
  ((List.range 256).flatMap fun c =>
    leBytes 4 (s.life.corrected.get 0 c) ++ leBytes 4 (s.life.uncorrected.get 0 c) ++ leBytes 4 (s.life.demotions.get 0 c) ++
      leBytes 4 (if s.retired.contains c then 1 else 0)) ++
  ((List.range 36).flatMap fun p => (List.range 5).flatMap fun l =>
    leBytes 4 ((s.port p).crc.get 0 l) ++ leBytes 4 ((s.port p).repairs.get 0 l)) ++
  ((List.range 256).flatMap fun c => leBytes 8 (s.vat c).full) ++
  ((List.range 4).flatMap fun d =>
    ((List.range 32).flatMap fun b => leBytes 4 (s.life.temp.get 0 (32 * d + b))) ++
      (List.range 32).flatMap fun b => leBytes 4 (s.life.volt.get 0 (32 * d + b))) ++
  ((List.range 4).flatMap fun d => leBytes 8 (s.life.noise.get 0 d))
/-- The histograms of the dies that are up count one reading each, whose bins are free values: the manual gives neither
when a die is read nor what is read (log 35). -/
def State.readDies (s : State) : State :=
  let bin (d k : Nat) : Nat := 32 * d + Config.pick s.free (8500000 + 2 * d + k) % 32
  let count (t : Tab Nat) (k : Nat) : Tab Nat :=
    [0, 1, 2, 3].foldl (fun t d => if (s.die d).up then t.set 0 (bin d k) (t.get 0 (bin d k) + 1) else t) t
  { s with life := { s.life with temp := count s.life.temp 0, volt := count s.life.volt 1 } }
/-- COUNTER_PERSIST: the firmware writes the counters to the flash, every 60 s and at orderly power-down (R362). -/
def execCounterPersist (s : State) : Out :=
  let s := s.readDies
  .next { s with flash := { s.flash with counters := s.counterBytes }, persisted := s.reft }
/-- COUNTERS: the flash's counters are copied to 64 KiB of host memory (R347, R362). -/
def execCounters (part addr : Nat) (s : State) : Out :=
  command part (fun s => [(!(s.region addr == .host && s.region (addr + 65535) == .host), cmdDenied)])
    (fun s => s.writeBytes addr (s.flash.counters ++ List.replicate (65536 - s.flash.counters.length) 0)) s

/-! ### Registers and BAR2 (R345, R346) -/

/-- A command that its block does not name (R347). -/
def State.refuse (s : State) (part st : Nat) : State := s.modPart part fun p => { p with cmdstat := BitVec.ofNat 8 st }
/-- A write of CMD starts the command of a block in host memory: opcode, operands packed in order, and zeros (R346, R347;
the operands' widths are those of log 14). -/
def State.runBlock (s : State) (part : Nat) (a : DWord) : State :=
  let pa := hostBase + a.toNat
  let n := fun o k => s.readNat (pa + o) k
  let go := fun (used : Nat) (i : State → Out) =>
    if (s.readBytes (pa + used) (64 - used)).all (· == 0) then match i s with | .next t => t | _ => s
    else s.refuse part cmdMalformed
  if !(s.part part).ready || (s.part part).busy.isSome then s
  else if hostTop < pa + 64 then s.refuse part cmdDenied
  else if pa % 64 ≠ 0 then s.refuse part cmdMalformed
  else
    match n 0 1 with
    | 1 => go 14 (execQueue part { q := n 1 1, ring := n 2 8, k := n 10 1, ctx := n 11 2, prio := n 13 1 })
    | 2 => go 9 (execCtxCreate part (n 1 8))
    | 3 => go 3 (execCtxDestroy part (n 1 2))
    | 4 => go 12 (execGroupBind part (n 1 2) (n 3 1) (n 4 8))
    | 5 => go 4 (execGroupUnbind part (n 1 2) (n 3 1))
    | 6 => go 11 (execDebugBind part (n 1 2) (n 3 8))
    | 7 =>
      if n 3 1 = 1 then go 4 (execCtxCtlSuspend part (n 1 2))
      else if n 3 1 = 2 then go 4 (execCtxCtlResume part (n 1 2))
      else s.refuse part cmdMalformed
    | 8 => go 9 (execCounters part (n 1 8))
    | _ => s.refuse part cmdMalformed
/-- The model's name, beyond the 1 MiB of BAR0, for the field of a function's PCIe configuration that sizes BAR2 (log 14). -/
def barControl : Nat := 2 ^ 20
/-- The host resizes its aperture, to a power of two from 1 to 64 GiB (R345). -/
def State.resizeBar2 (s : State) (part n : Nat) : State :=
  if (List.range 7).any fun k => n = 2 ^ (30 + k) then s.modPart part fun p => { p with bar2 := n } else s
/-- A write of a BAR0 register: CMD, EVTBASE, EVTSIZE, EVTHEAD, and DOORBELL q as R286 says; other offsets, and values that
break a register's limit, are ignored (R6, R346). The size of BAR2 is written here too (R345). -/
def State.hostReg (s : State) (part off : Nat) (value : DWord) : State :=
  if off = 0x100 then s.runBlock part value
  else if off = 0x200 then
    (if value.extractLsb' 0 12 = 0 then s.modPart part fun p => { p with evtbase := value } else s)
  else if off = 0x208 then
    (if (List.range 13).any fun k => value.toNat = 2 ^ (k + 4) then s.modPart part fun p => { p with evtsize := value } else s)
  else if off = 0x210 then s.modPart part fun p => { p with evthead := value }
  else if 0x1000 ≤ off ∧ off < 0x1200 ∧ off % 8 = 0 then s.ring part ((off - 0x1000) / 8) (loWord value)
  else if off = barControl then s.resizeBar2 part value.toNat
  else s
/-- Ticks of REFT since T (R360). -/
def State.sinceT (s : State) : Option Nat := s.boot.t.map fun t => (s.now - t) / Config.tickParts
/-- PCIe comes up at T + 55 µs (R360). -/
def State.linkUp (s : State) : Bool := s.sinceT.any (55000 ≤ ·)
/-- A request that reads. -/
def HostReq.reads : HostReq → Bool
  | .read _ _ => true
  | .mem _ _ | .reg _ _ => false
/-- A request of a function performed, unless a re-key holds it (R359). -/
def State.hostDo (s : State) (part id : Nat) (r : HostReq) : State × Bool :=
  match r with
  | .reg off v => (s.hostReg part off v, true)
  | .mem off bs =>
    let a := (s.part part).hbmBase + off
    match s.keyGate (.host id) [] (blocksOf a bs.length) with
    | (s, false) => (s, false)
    | (s, true) => ((s.openWrite a bs).retryAll, true)
  | .read off n =>
    let a := (s.part part).hbmBase + off
    match s.keyGate (.host id) (blocksOf a n) [] with
    | (s, false) => (s, false)
    | (s, true) => ({ s with hostGot := s.hostGot.put part (s.readBytes a n) }, true)
/-- Waiting requests of a function performed, in their order, as far as nothing holds them: a write that waits holds those behind it,
a read does not (R345, R363). -/
def State.hostRun (s : State) (part : Nat) : State :=
  ((s.hostWait.filter (·.1 == part)).foldl (fun (y : State × Bool) x =>
    if y.2 then y
    else
      match y.1.hostDo part x.2.1 x.2.2 with
      | (s, true) => ({ s with hostWait := s.hostWait.filter (·.2.1 != x.2.1) }, false)
      | (s, false) => (s, !x.2.2.reads)) (s, false)).1
/-- A request of a function arrives, once PCIe is up (R360): behind a write that waits it waits too, and a read behind a read, with
its place at the page that it is for (R345, R363). -/
def State.hostPost (s : State) (part : Nat) (r : HostReq) : State :=
  let s := s.hostRun part
  let id := s.next
  let held (s : State) : State := { s with next := s.next + 1, hostWait := s.hostWait ++ [(part, id, r)] }
  if !s.linkUp then s
  else if s.hostWait.any fun x => x.1 == part && (r.reads || !x.2.2.reads) then
    match r with
    | .mem off bs =>
      match s.keyGate (.host id) [] (blocksOf ((s.part part).hbmBase + off) bs.length) with
      | (s', false) => held s'
      | (_, true) => held s
    | .read off n =>
      match s.keyGate (.host id) (blocksOf ((s.part part).hbmBase + off) n) [] with
      | (s', false) => held s'
      | (_, true) => held s
    | .reg _ _ => held s
  else
    match s.hostDo part id r with
    | (s, true) => s
    | (s, false) => held s
/-- HOST_REGISTER_WRITE (R346). -/
def execHostRegisterWrite (part off : Nat) (value : DWord) (s : State) : Out := .next (s.hostPost part (.reg off value))
/-- DOORBELL: a host write of a queue's write index (R286, R346). -/
def execDoorbell (part q : Nat) (index : Word) (s : State) : Out :=
  .next (s.hostPost part (.reg (0x1000 + 8 * q) (index.setWidth 64)))
/-- A read of a BAR0 register (R346). -/
def State.hostRegister (s : State) (part off : Nat) : DWord :=
  let p := s.part part
  let n := fun (x : Nat) => BitVec.ofNat 64 x
  match off with
  | 0x000 => n (0x4D80 + 2 ^ 16 * (s.cfg.class_.toNat % 256) + 2 ^ 24 * part)
  | 0x008 => n ((if p.ready then 1 else 0) + (if s.boot.recovery then 2 else 0) + 2 ^ 16 * p.dropped)
  | 0x108 => n (p.cmdstat.toNat + if p.busy.isSome then 256 else 0)
  | 0x200 => p.evtbase
  | 0x208 => p.evtsize
  | 0x210 => p.evthead
  | 0x218 => p.evttail
  | _ => 0
/-- Bytes of a function's aperture onto its partition's range, as far as that range goes (R345). -/
def Part.aperture (p : Part) : Nat := min p.hbmSize p.bar2
/-- What a read through the aperture returns (R345): the bytes that stand there, the function's posted writes before them;
nothing beyond the aperture. -/
def State.hostBar2 (s : State) (part off len : Nat) : List Byte :=
  if (s.part part).aperture < off + len then [] else (s.hostRun part).readBytes ((s.part part).hbmBase + off) len
/-- HOST_BAR2_ACCESS: a host request through the aperture to the partition's HBM range, which waits on a re-key of its page; a read
follows the function's posted writes and returns `State.hostBar2`, which the model keeps in `State.hostGot` (R345, R359, R363). -/
def execHostBar2Access (part off : Nat) (write : Option (List Byte)) (len : Nat) (s : State) : Out :=
  .next <|
    match write with
    | none => if len = 0 ∨ (s.part part).aperture < off + len then s.hostRun part else s.hostPost part (.read off len)
    | some bs =>
      if bs.length ≠ len ∨ len = 0 ∨ (s.part part).aperture < off + len then s else s.hostPost part (.mem off bs)

/-! ### Boot (R350-R352, R360, R364) -/

/-- POWER_GOOD: the management cores, the flash and the boot ROM come up, and REFT starts (R13, R360). -/
def execPowerGood (s : State) : Out :=
  .next (if s.boot.power then s else { s with now := 0, boot := { s.boot with power := true } })
/-- Number of an image's header (R351). -/
def imgNum (i : Image) (o k : Nat) : Nat := leNat ((i.header.drop o).take k)
/-- The keys that an image of a type is verified against (R350): those of the boot ROM, of the accepted first stage, or the
owner's in the configuration. -/
def State.keysFor (s : State) (typ part : Nat) : List Byte :=
  match typ with
  | 1 => Config.romKeys
  | 4 => (s.part part).keys
  | _ => s.boot.keys
/-- The checks of R350 and R351 on an image of a type, against keys. The LMS signature is over the same bytes. -/
def State.imageOk (s : State) (typ : Nat) (key : List Byte) (i : Image) : Bool :=
  let signed := i.header.take 64
  i.header.length == 256 && imgNum i 0 4 == 0x4B4E4F56 && imgNum i 4 1 == typ && imgNum i 5 1 < 2 && imgNum i 8 8 == i.body.length &&
  (i.header.drop 16).take 48 == Config.sha384 i.body && imgNum i 160 96 == 0 && s.flash.svn.get 0 typ ≤ imgNum i 6 2 &&
  Config.ecdsaOk key signed ((i.header.drop 64).take 96) && Config.lmsOk key signed i.lms
/-- The checks of R352 on a configuration. -/
def State.cfgOk (s : State) (c : Config.CfgImage) : Bool :=
  let cap := Config.channelBytes * (256 - s.retired.length)
  let gib := 2 ^ 30
  let rec rising : List Nat → Bool
    | a :: b :: t => decide (a < b) && rising (b :: t)
    | _ => true
  c.disabled.length == 4 && c.disabled.all (fun d => d.length == 8 && rising d && d.all (· < 208)) &&
  1200 ≤ c.power && c.power ≤ 2400 && 1 ≤ c.parts.length && c.parts.length ≤ 8 &&
  c.parts.all (fun p => p.hbmBase % gib == 0 && p.hbmSize % gib == 0 && p.hbmBase + p.hbmSize ≤ cap) &&
  c.parts.zipIdx.all fun x => c.parts.zipIdx.all fun y =>
    x.2 == y.2 || (x.1.galleries &&& y.1.galleries == 0 && x.1.ports &&& y.1.ports == 0 &&
      (x.1.hbmBase + x.1.hbmSize ≤ y.1.hbmBase || y.1.hbmBase + y.1.hbmSize ≤ x.1.hbmBase))
/-- An accepted image: its digest and SVN are kept, and RAISE lifts the stored minimum (R351). -/
def State.acceptImage (s : State) (typ : Nat) (i : Image) : State :=
  let svn := imgNum i 6 2
  { s with
    boot := { s.boot with accepted := s.boot.accepted ++ [(typ, (i.header.drop 16).take 48, svn)] },
    flash := if imgNum i 5 1 = 1 then { s.flash with svn := s.flash.svn.set 0 typ svn } else s.flash }
/-- A refusal at the boot ROM or the first stage (R350): only the boot ROM's recovery path takes an image, and what an earlier
first stage had accepted counts no more. -/
def State.bootRefuse (s : State) : State :=
  { s with
    boot := { s.boot with stage := 0, recovery := true, accepted := [], keys := [], hv := false, t := none },
    parts := s.parts.mapv fun p => { p with image := false, ready := false } }
/-- The size of a partition's BAR2 aperture: from 1 to 64 GiB, resizable by the
host; where it starts is a free value (R345, log 14). -/
def apertureOf (part : Nat) : Nat := 2 ^ (30 + Config.pick 0 (9000000 + part) % 7)
/-- The root key of a partition, drawn from the noise source (R358): a free value (log 3). -/
def rootKey (fr part : Nat) : BitVec 256 :=
  let w := fun i => Config.freeDWord fr (0x600000 + 8 * part + i)
  w 3 ++ w 2 ++ w 1 ++ w 0
/-- The configuration in force at T (R352, R360). -/
def State.configure (s : State) (c : Config.CfgImage) : State :=
  { s with
    cfg := { class_ := c.class_, node := c.node, power := c.power, disabled := c.disabled },
    parts := c.parts.zipIdx.foldl (fun t x =>
      t.put x.2 { Part.none with
        galleries := x.1.galleries, hbmBase := x.1.hbmBase, hbmSize := x.1.hbmSize, ports := x.1.ports, keys := x.1.keys,
        bar2 := apertureOf x.2 }) [],
    boot := { s.boot with t := some s.now } }
/-- IMAGE_VERIFY: a stage of the chain verifies an image and accepts or refuses it (R350-R352): the boot ROM a first
stage, the first stage a hypervisor and a configuration, the hypervisor a partition's system image, whose root key is
drawn then (R358). -/
def execImageVerify (typ : Nat) (img : Image) (part : Nat) (s : State) : Out :=
  .next <|
    let b := s.boot
    if !b.power then s
    else
      match typ with
      | 1 =>
        if b.stage ≠ 0 then s
        else if s.imageOk 1 (s.keysFor 1 part) img then
          let s := s.acceptImage 1 img
          { s with boot := { s.boot with stage := 1, recovery := false, keys := Config.stageKeys img.body } }
        else s.bootRefuse
      | 2 =>
        if b.stage ≠ 1 ∨ b.hv = true then s
        else if s.imageOk 2 (s.keysFor 2 part) img then
          let s := s.acceptImage 2 img
          { s with boot := { s.boot with hv := true } }
        else s.bootRefuse
      | 3 =>
        if b.stage ≠ 1 ∨ b.t.isSome = true then s
        else if s.imageOk 3 (s.keysFor 3 part) img ∧ s.cfgOk (Config.cfgImage img.body) = true then
          (s.acceptImage 3 img).configure (Config.cfgImage img.body)
        else s.bootRefuse
      | 4 =>
        if b.hv = false ∨ b.t.isNone = true ∨ (s.parts.find part).isNone = true ∨ (s.part part).image = true then s
        else if s.imageOk 4 (s.keysFor 4 part) img then
          let s := (s.acceptImage 4 img).modPart part fun p => { p with image := true }
          { s with roots := s.roots.put part (rootKey s.free part) }
        else s
      | _ => s
/-- ATTESTATION_REPORT: the accepted digests and SVNs, signed (R351). -/
def execAttestationReport (s : State) : Out :=
  .next { s with boot := { s.boot with report := Config.report (s.boot.accepted.map (·.2)) } }

/-- GALLERY_UP: at T + 15 d + g µs a gallery comes up with its cores; with gallery 9 its die is up, and the die's ports
begin to train (R360, R361, R364). -/
def execGalleryUp (die gallery : Nat) (s : State) : Out :=
  .next <|
    let g := 10 * die + gallery
    if 4 ≤ die ∨ 10 ≤ gallery ∨ (s.gallery g).up = true ∨ s.sinceT.all (fun t => t < 1000 * (15 * die + gallery)) = true then s
    else
      let s := s.modGallery g fun x => { x with up := true }
      if gallery = 9 then
        let s := s.modDie die fun _ => { Die.down with up := true, cycAt := s.now }
        (List.range 9).foldl (fun s p => s.modPort (9 * die + p) fun x => { x with training := true }) s
      else s
/-- READY: at T + 55 µs the command processors and PCIe are up, and each partition whose system image has been accepted is
ready (R350, R360). -/
def execReady (s : State) : Out :=
  .next <|
    if s.sinceT.all (fun t => t < 55000) then s
    else { s with parts := s.parts.mapv fun p => if p.image then { p with ready := true } else p }

/-! ### Memory devices (R355, R357, R359, R363) -/

/-- Triggers where their words' vats are (R355). -/
def State.moveTriggers (s : State) : State :=
  let ts := s.vats.flatMap fun v => v.2.triggers
  let s := { s with vats := s.vats.mapv fun v => { v with triggers := [] } }
  ts.foldl (fun s t => s.modVat (s.channel t.word) fun v => { v with triggers := v.triggers ++ [t] }) s
/-- Step 1 of R355 is over: no quire runs, and every vat has applied its operations. -/
def State.quiet (s : State) : Bool :=
  (s.ctxs.all fun c => !s.toSave c.1) && s.copies.isEmpty && s.vats.all fun v => v.2.input.isEmpty && v.2.queue.isEmpty
/-- CHANNEL_RETIRE: the firmware retires a channel, unless a partition reaches above what is left: it suspends every
context, and once all is quiet the interleave changes, triggers move, the contexts resume and event 6 is reported (R355). -/
def execChannelRetire (ch : Nat) (s : State) : Out :=
  .next <|
    let top := Config.channelBytes * (255 - s.retired.length)
    if 256 ≤ ch ∨ s.retired.contains ch = true ∨ (s.retiring.any fun x => x.1 != ch) = true ∨
        (s.parts.any fun p => decide (top < p.2.hbmBase + p.2.hbmSize)) = true then s
    else
      let (mine, s) := match s.retiring with
        | some x => (x.2, s)
        | none =>
          let cs := s.ctxs.filterMap fun (c : Nat × Ctx) => if c.2.suspended then none else some c.1
          (cs, cs.foldl State.suspendCtx s)
      if !s.quiet then { s with retiring := some (ch, mine) }
      else
        let rec ins : List Nat → List Nat
          | [] => [ch]
          | x :: t => if ch < x then ch :: x :: t else x :: ins t
        let s := { s with retired := ins s.retired, retiring := none }.moveTriggers
        (mine.foldl State.resumeCtx s).reportAll 6 ch (ch + 2 ^ 32 * (256 - s.retired.length))
/-- Refresh class of a row group (R357); one that no scrub has moved is in the class that boot gave it, a free value
(log 4). -/
def State.refreshOf (s : State) (group : Nat) : Nat :=
  (s.refresh.find group).getD (32 * 2 ^ (Config.pick 0 (6000000 + group) % 3))
/-- The refresh period of a row group, in ms (R357). -/
def State.refreshPeriod (s : State) (group : Nat) : Nat := s.refreshOf group / (if s.hot then 2 else 1)
/-- PATROL_SCRUB: the scrub reads a row group; one with a corrected error moves to the next faster class or, at 32 ms,
counts toward its channel's retirement (R357). Row group `n` is the model's name for group n / 256 of channel n % 256. -/
def execPatrolScrub (group : Nat) (corrected : Bool) (s : State) : Out :=
  .next <|
    if !corrected then s
    else
      let ch := group % 256
      let up (t : Tab Nat) : Tab Nat := t.set 0 ch (t.get 0 ch + 1)
      { s with refresh := s.refresh.put group (max 32 (s.refreshOf group / 2)),
               life := { s.life with corrected := up s.life.corrected, demotions := up s.life.demotions } }
/-- TEMPERATURE_HIGH: above 85 °C every class refreshes at half its period (R357). -/
def execTemperatureHigh (s : State) : Out := .next { s with hot := true }
/-- TEMPERATURE_NORMAL: the classes have their own periods again (R357). -/
def execTemperatureNormal (s : State) : Out := .next { s with hot := false }
/-- What the module's own agents have waiting is performed, as far as nothing holds it (R359, R363). -/
def State.postRun (s : State) : State :=
  s.posts.foldl (fun s x =>
    let pas := match x.2 with
      | .bytes pa bs => blocksOf pa bs.length
      | .repair _ _ _ ws => ws.map (·.1)
    match s.keyGate (.post x.1) [] pas with
    | (s, false) => s
    | (s, true) =>
      let s := { s with posts := s.posts.filter (·.1 != x.1) }
      match x.2 with
      | .bytes pa bs => s.writeBytes pa bs
      | .repair die ctx va ws => s.repairNow die ctx va ws) s
/-- What waits on re-keys goes on, as far as its turn has come, sheets apart. -/
def State.rekeyRun (s : State) : State :=
  let s := s.postRun
  (s.parts.foldl (fun s p => (s.hostRun p.1).cmdRun p.1) s).fabRetry
/-- A re-key of a page or of a tree node is over: the counters under it are 0, and the sheets that waited issue their words
again in the order in which they arrived (R359, R363). -/
def State.rekeyEnd (s : State) (k : Rekey) : State :=
  let s := s.rekeyed k.key
  let ks := s.rekeys.map fun x => if x.key = k.key then { x with running := false } else x
  let s := { s with rekeys := ks.filter fun x => x.running || !x.order.isEmpty }
  let waiting := k.order.filterMap fun w => match w with
    | .sheet r => (s.sheet? r).bind fun sh =>
      match sh.wait with
      | .issue _ => some { ref := r, list := (0, k.key), pc := sh.pc : Again }
      | _ => none
    | _ => none
  { s.retryAll with reissue := s.reissue.filter (fun x => !waiting.any (·.ref == x.ref)) ++ waiting }
/-- REKEY_COMPLETE: a re-key of a page or of a tree node ends, or what still waits there after it goes on: all in the order in
which it arrived (R359, R363). -/
def execRekeyComplete (page : Nat) (s : State) : Out :=
  .next <|
    match s.rekeys.find? fun k => k.key = page with
    | none => s
    | some k => (if k.running then s.rekeyEnd k else s).rekeyRun

end Sys2Proof.Machine
end

