-- ==== Sys2Proof/Machine/Lane.lean ====
section
/-! DEFINITION. Opcodes 0x60-0x6D: lane operations (R132-R135), mask registers (R136, R137), lane numbers and
broadcasts (R138, R139), generators (R107, R140, R141); and paired words (R73-R76, R143). -/

namespace Sys2Proof.Machine

/-- Register `n` of strand `j`, active or not (R132). -/
def Env.vAt (e : Env) (n j : Nat) : Word := e.sh.read e.fr (.v (e.sh.resolve n) j)

/-! ### Shuffles (R132) -/

inductive Shfl where
  | idx | xor | up | down
  deriving DecidableEq, Repr

/-- Segment width of SUBF[2:0]. -/
def segWidth : Nat → Nat
  | 0 => 96 | 1 => 32 | 2 => 16 | 3 => 8 | 4 => 4 | _ => 2

/-- The strand that strand `s` reads, if there is one. -/
def shflSource (k : Shfl) (w : Nat) (wrap : Bool) (s : Nat) (b : Word) : Option Nat :=
  let o := s % w
  let t : Int := match k with
    | .idx => b.toNat
    | .xor => (o ^^^ b.toNat : Nat)
    | .up => o - b.toNat
    | .down => o + b.toNat
  if wrap then some (s - o + (t % w).toNat)
  else if 0 ≤ t ∧ t < w then some (s - o + t.toNat) else none

/-- A shuffle over the active strands. -/
def shuffle (k : Shfl) (w : FR) (s : State) : Out :=
  let fill := w.subf.getLsbD 4
  issue { vs := [(w.d.toNat, 1), (w.a.toNat, 1), (w.b.toNat, 1), (w.c.toNat, if fill then 1 else 0)] } s fun e =>
    .done (s.writeRegs e.r ((strandsOf (e.sh.active w.com.gsel w.com.neg)).map fun i =>
      (.v (e.sh.resolve w.d.toNat) i,
        match shflSource k (segWidth (w.subf.extractLsb' 0 3).toNat) (w.subf.getLsbD 3) i (e.vAt w.b.toNat i) with
        | some j => e.vAt w.a.toNat j
        | none => if fill then e.vAt w.c.toNat i else e.vAt w.a.toNat i)))

/-- R132. -/
def execShflIdx (w : FR) (s : State) : Out := shuffle .idx w s
/-- R132. -/
def execShflXor (w : FR) (s : State) : Out := shuffle .xor w s
/-- R132. -/
def execShflUp (w : FR) (s : State) : Out := shuffle .up w s
/-- R132. -/
def execShflDown (w : FR) (s : State) : Out := shuffle .down w s

/-! ### Votes, scans and reductions -/

/-- R133. -/
def execVote (w : FR) (s : State) : Out :=
  issue { vs := [(w.a.toNat, 1)] } s fun e =>
    let act := strandsOf (e.sh.active w.com.gsel w.com.neg)
    let p := fun i => if w.subf.getLsbD 2 then (e.vAt w.a.toNat i).getLsbD 31 else e.vAt w.a.toNat i != 0
    let m : Mask := match (w.subf.extractLsb' 0 2).toNat with
      | 0 => maskOf act p
      | 1 => if act.any p then BitVec.allOnes 96 else 0
      | 2 => if act.all p then BitVec.allOnes 96 else 0
      | _ => match act with
        | [] => 0
        | l :: _ => maskOf act fun i => e.vAt w.a.toNat i = e.vAt w.a.toNat l
    .done (s.setK e.r w.d.toNat m)

/-- The identity of a prefix or reduction op (R134). -/
def scanId (op : Nat) (t : Ty) : Word :=
  match op, t with
  | 0, .f32 => 0x80000000
  | 0, _ => 0
  | 1, .i32 => 0x7FFFFFFF
  | 1, .f32 => 0x7F800000
  | 1, _ => 0xFFFFFFFF
  | 2, .i32 => 0x80000000
  | 2, .f32 => 0xFF800000
  | 2, _ => 0
  | 3, _ => 0xFFFFFFFF
  | _, _ => 0
/-- One step acc op x (R134). -/
def scanStep (op : Nat) (t : Ty) (num : Bool) (x y : Word) : Word × Cond :=
  let f := fun (v : FV × Cond) => let r := fp32Op .rne false v; (loWord r.1, r.2)
  let dx := fp32.decode x.toNat
  let dy := fp32.decode y.toNat
  match op, t with
  | 0, .f32 => f (FV.add .rne dx dy)
  | 0, _ => (x + y, 0)
  | 1, .f32 => f (FV.minMax true num dx dy)
  | 1, _ => (loWord (minBy t (wd x) (wd y)), 0)
  | 2, .f32 => f (FV.minMax false num dx dy)
  | 2, _ => (loWord (maxBy t (wd x) (wd y)), 0)
  | 3, _ => (x &&& y, 0)
  | 4, _ => (x ||| y, 0)
  | _, _ => (x ^^^ y, 0)

/-- The prefixes over strands in ascending order (R134): destination value and condition of each strand. -/
def scanRun (step : Word → Word → Word × Cond) (excl : Bool) : Word → List (Nat × Word) → List (Nat × Word × Cond)
  | _, [] => []
  | acc, (i, x) :: xs =>
    let r := step acc x
    (i, if excl then acc else r.1, r.2) :: scanRun step excl r.1 xs

/-- R134. -/
def execScan (w : FR) (s : State) : Out :=
  issue { vs := [(w.d.toNat, 1), (w.a.toNat, 1)] } s fun e =>
    let op := (w.subf.extractLsb' 0 3).toNat
    let xs := (strandsOf (e.sh.active w.com.gsel w.com.neg)).map fun i => (i, e.vAt w.a.toNat i)
    let rs := scanRun (scanStep op w.ty (w.subf.getLsbD 4)) (w.subf.getLsbD 3) (scanId op w.ty) xs
    condEff e s (rs.map fun r => (r.1, r.2.2)) fun s =>
      s.writeRegs e.r (rs.map fun r => (.v (e.sh.resolve w.d.toNat) r.1, r.2.1))

/-- One level of the fixed tree of R135: adjacent pairs. -/
def pairUp (step : Word → Word → Word × Cond) : List Word → List Word × Cond
  | x :: y :: xs =>
    let r := step x y
    let rest := pairUp step xs
    (r.1 :: rest.1, r.2 ||| rest.2)
  | xs => (xs, 0)
/-- `n` levels of the tree. -/
def tree (step : Word → Word → Word × Cond) : Nat → List Word → List Word × Cond
  | 0, xs => (xs, 0)
  | n + 1, xs =>
    let a := pairUp step xs
    let b := tree step n a.1
    (b.1, a.2 ||| b.2)
/-- Floating-point addition over 96 strands in the tree of R135. -/
def treeSum (x : Nat → Word) : Word × Cond :=
  let step := scanStep 0 .f32 false
  let beat := fun b => tree step 5 ((List.range 32).map fun i => x (32 * b + i))
  let t := fun b => ((beat b).1.head?).getD 0
  let u := step (t 0) (t 1)
  let v := step u.1 (t 2)
  (v.1, (beat 0).2 ||| (beat 1).2 ||| (beat 2).2 ||| u.2 ||| v.2)

/-- Values combined by an operation from a first one on, with their conditions. -/
def redFold (op : Nat) (ty : Ty) (num : Bool) (a : Word) (xs : List Word) : Word × Cond :=
  xs.foldl (fun a x =>
    let r := scanStep op ty num a.1 x
    (r.1, a.2 ||| r.2)) (a, 0)
/-- R135: every inactive strand contributes e. -/
def execLred (w : FR) (s : State) : Out :=
  issue { vs := [(w.d.toNat, 1), (w.a.toNat, 1)] } s fun e =>
    let op := (w.subf.extractLsb' 0 3).toNat
    let act := e.sh.active w.com.gsel w.com.neg
    let strands := strandsOf act
    let r : Word × Cond :=
      if op = 0 ∧ w.ty = .f32 then treeSum fun i => if act.getLsbD i then e.vAt w.a.toNat i else 0x80000000
      else
        let vals := strands.map (e.vAt w.a.toNat)
        if strands.length = 96 then redFold op w.ty (w.subf.getLsbD 4) (vals.headD 0) vals.tail
        else redFold op w.ty (w.subf.getLsbD 4) (scanId op w.ty) vals
    condEff e s (if strands.isEmpty then [] else [(127, r.2)]) fun s =>
      s.writeRegs e.r (strands.map fun i => (.v (e.sh.resolve w.d.toNat) i, r.1))

/-! ### Mask registers -/

/-- R136. -/
def execKop (w : FR) (s : State) : Out :=
  issue {} s fun e =>
    let a := e.sh.k.get 0 w.a.toNat
    let b := e.sh.k.get 0 w.b.toNat
    let x : Mask := match w.subf.toNat with
      | 0 => a &&& b | 1 => a ||| b | 2 => a ^^^ b | 3 => a &&& ~~~b | 4 => ~~~a | 5 => a | 6 => BitVec.allOnes 96
      | _ => 0
    .done (s.setK e.r w.d.toNat (putMask (e.sh.k.get 0 w.d.toNat) (e.sh.active w.com.gsel w.com.neg) x))
/-- R137. -/
def execKpop (w : FR) (s : State) : Out :=
  issue {} s fun e =>
    let k := e.sh.k.get 0 w.a.toNat
    let m := if w.subf[0] then k else k &&& e.sh.active w.com.gsel w.com.neg
    .done (s.writeRegs e.r [(uniKey w.d.toNat, BitVec.ofNat 32 (strandsOf m).length)])
/-- R137. -/
def execKfirst (w : FR) (s : State) : Out :=
  issue {} s fun e =>
    let m := strandsOf (e.sh.k.get 0 w.a.toNat &&& e.sh.active w.com.gsel w.com.neg)
    let x := (if w.subf[0] then m.getLast? else m.head?).getD 96
    .done (s.writeRegs e.r [(uniKey w.d.toNat, BitVec.ofNat 32 x)])
/-- R138. -/
def execLaneid (w : FR) (s : State) : Out :=
  issue { vs := [(w.d.toNat, 1)] } s fun e =>
    .done (s.writeRegs e.r ((strandsOf (e.sh.active w.com.gsel w.com.neg)).map fun i =>
      (.v (e.sh.resolve w.d.toNat) i, BitVec.ofNat 32 i)))
/-- R139. -/
def execBcast (w : FR) (s : State) : Out :=
  issue { vs := [(w.d.toNat, 1)] } s fun e =>
    .done (s.writeRegs e.r ((strandsOf (e.sh.active w.com.gsel w.com.neg)).map fun i =>
      (.v (e.sh.resolve w.d.toNat) i, e.u w.a.toNat)))
/-- R139. -/
def execBcastGet (w : FR) (s : State) : Out :=
  issue { vs := [(w.a.toNat, 1)] } s fun e =>
    let j := (e.u w.b.toNat).toNat
    .done (s.writeRegs e.r [(uniKey w.d.toNat, if j < 96 then e.vAt w.a.toNat j else 0)])

/-! ### Generators -/

/-- One round of R107. -/
def rngRound (k0 k1 : Word) (x : Word × Word × Word × Word) (r : Nat) : Word × Word × Word × Word :=
  let x0 := x.1 + x.2.1 + k0
  let x3 := (x.2.2.2 ^^^ x0).rotateLeft 13
  let x2 := x.2.2.1 + x3 + k1
  let x1 := (x.2.1 ^^^ x2).rotateLeft 7
  let x0 := x0 ^^^ BitVec.ofNat 32 (0x9E3779B9 * (r + 1))
  (x1, x2, x3, x0)
/-- The generator of R107: four output words. -/
def rngWords (k0 k1 c0 c1 c2 c3 : Word) : List Word :=
  let x := (List.range 8).foldl (rngRound k0 k1) (c0, c1, c2, c3)
  [x.1 + c0, x.2.1 + c1, x.2.2.1 + c2, x.2.2.2 + c3]

/-- R107, R140. -/
def execRng (w : FR) (s : State) : Out :=
  issue { vs := [(w.d.toNat, 4), (w.a.toNat, 4)] } s fun e =>
    .done (s.writeRegs e.r ((strandsOf (e.sh.active w.com.gsel w.com.neg)).flatMap fun i =>
      let a := fun k => e.vAt (w.a.toNat + k) i
      (rngWords (e.u w.b.toNat) (e.u (w.b.toNat + 1)) (a 0) (a 1) (a 2) (a 3)).zipIdx.map fun x =>
        (.v (e.sh.resolve (w.d.toNat + x.2)) i, x.1)))

/-- A long-latency word whose destinations are one register for each issuer. -/
def llWord (w : FR) (noise : Bool) (val : State → Env → Option Word) (s : State) : Out :=
  issue { ll := some w.com.fs, vs := vsOf w.com [(w.d.toNat, 1)] } s fun e =>
    let (id, s) := s.fresh
    .done (s.llOpen e w.com.fs id 0
      ((e.lanes w.com).map fun l => { key := e.key l w.d.toNat, val := val s e, raced := false }) noise)
/-- R141: the words are drawn when the word completes; until then its destinations read as they did (DEDUCED from R59 and R142,
log 36; unsafe for a read before the flag clears, which R59 lets return a word that has come). -/
def execNoise (w : FR) (s : State) : Out := llWord w true (fun _ _ => none) s
/-- R141: the health that D receives is that of the issue (DEDUCED, log 36; unsafe when the source fails before the flag
clears). -/
def execNoiseSt (w : FR) (s : State) : Out :=
  llWord w false (fun s e => some (if (s.die (dieOf e.q.core)).noiseFail then 1 else 0)) s

/-! ### Paired words -/

/-- An X sub-op on values (R75): RNE, FTZ 0. -/
def xOp (sub : Nat) (a b d : DWord) : DWord × Cond :=
  let v := rd32 false
  match sub with
  | 1 => fp32Op .rne false (FV.add .rne (v a) (v b))
  | 2 => fp32Op .rne false (FV.add .rne (v a) (v b).flip)
  | 3 => fp32Op .rne false (FV.mul (v a) (v b))
  | 4 => fp32Op .rne false (FV.fma .rne (v a) (v b) (v d))
  | 5 => fp32Op .rne false (FV.minMax true false (v a) (v b))
  | 6 => fp32Op .rne false (FV.minMax false false (v a) (v b))
  | 7 => fp32Op .rne false (FV.minMax true true (v a) (v b))
  | 8 => fp32Op .rne false (FV.minMax false true (v a) (v b))
  | 9 => absNeg false false a
  | 10 => absNeg true false a
  | 11 => halves bf16 .rne false (fun x y _ => FV.add .rne x y) a b 0
  | 12 => halves bf16 .rne false (fun x y _ => FV.mul x y) a b 0
  | 13 => halves bf16 .rne false (fun x y z => FV.fma .rne x y z) a b d
  | 14 => halves fp16 .rne false (fun x y _ => FV.add .rne x y) a b 0
  | 15 => halves fp16 .rne false (fun x y _ => FV.mul x y) a b 0
  | _ => halves fp16 .rne false (fun x y z => FV.fma .rne x y z) a b d

/-- A Y sub-op of strand `i` (R76): `rd` reads register A of another strand for the shuffles. -/
def yOp (sub i : Nat) (rd : Nat → Word) (a b : DWord) : DWord × Cond :=
  match sub with
  | 0x01 => (fit32 .i32 false (val32 .i32 a + val32 .i32 b), 0)
  | 0x02 => (fit32 .i32 false (val32 .i32 a - val32 .i32 b), 0)
  | 0x03 => (fit32 .i32 false (val32 .i32 a * val32 .i32 b), 0)
  | 0x04 => (minBy .i32 a b, 0)
  | 0x05 => (maxBy .i32 a b, 0)
  | 0x06 => (minBy .n32 a b, 0)
  | 0x07 => (maxBy .n32 a b, 0)
  | 0x08 => (a &&& b, 0)
  | 0x09 => (a ||| b, 0)
  | 0x0A => (a ^^^ b, 0)
  | 0x0B => (a &&& ~~~b, 0)
  | 0x0C => (shlBy .b32 a b.toNat, 0)
  | 0x0D => (shrBy .b32 a b.toNat, 0)
  | 0x0E => (sarBy .i32 a b.toNat, 0)
  | 0x0F => (rotlBy .b32 a b.toNat, 0)
  | 0x10 => (a, 0)
  | 0x11 => (~~~a, 0)
  | 0x12 => (BitVec.ofNat 64 (popCount a 32), 0)
  | 0x13 => (BitVec.ofNat 64 (leadingZeros a 32), 0)
  | 0x14 => cvtOfInt fp32 .i32 .rne false a
  | 0x15 => cvtToInt .i32 fp32 .rz false a
  | 0x16 => (wd (match shflSource .idx 96 false i (loWord b) with | some j => rd j | none => loWord a), 0)
  | 0x17 => (wd (match shflSource .xor 96 false i (loWord b) with | some j => rd j | none => loWord a), 0)
  | _ => (BitVec.ofNat 64 i, 0)

/-- Registers of an op that the word must resolve (R73, R37): its used fields. -/
def pairVs (o : POp) (use : Option (Bool × Bool × Bool)) : List (Nat × Nat) :=
  match use with
  | some (d, a, b) => [(o.d.toNat, if d then 1 else 0), (o.a.toNat, if a then 1 else 0), (o.b.toNat, if b then 1 else 0)]
  | none => []

/-- R73-R76, R143: both ops read the state before the word; an enabled condition of either traps the whole word. -/
def execPairedWord (w : FP) (s : State) : Out :=
  issue { vs := pairVs w.x (Wf.xUse w.x.sub) ++ pairVs w.y (Wf.yUse w.y.sub) } s fun e =>
    let rs := (strandsOf (e.sh.active w.pg false)).map fun i =>
      let rd := fun (n : BitVec 7) => wd (e.vAt n.toNat i)
      (i, xOp w.x.sub.toNat (rd w.x.a) (rd w.x.b) (rd w.x.d),
        yOp w.y.sub.toNat i (e.vAt w.y.a.toNat) (rd w.y.a) (rd w.y.b))
    let x := fun (c : Cond) => if w.x.sub = 0 then 0 else c
    let y := fun (c : Cond) => if w.y.sub = 0 then 0 else c
    condEff e s (rs.map fun r => (r.1, x r.2.1.2 ||| y r.2.2.2)) fun s =>
      s.writeRegs e.r (rs.flatMap fun r =>
        (if w.x.sub = 0 then [] else [(.v (e.sh.resolve w.x.d.toNat) r.1, loWord r.2.1.1)]) ++
        (if w.y.sub = 0 then [] else [(.v (e.sh.resolve w.y.d.toNat) r.1, loWord r.2.2.1)]))

end Sys2Proof.Machine
end

