-- ==== Sys2Proof/Machine/Dispatch.lean ====
section
/-! DEFINITION. The meaning of every step: one arm per constructor of `Instr`. -/

namespace Sys2Proof.Machine

def exec (i : Instr) (s : State) : Host.Outcome State Fault Refusal :=
  match i with
  | .add w => Sys2Proof.Machine.execAdd w s
  | .addi w => Sys2Proof.Machine.execAddi w s
  | .sub w => Sys2Proof.Machine.execSub w s
  | .mulLo w => Sys2Proof.Machine.execMulLo w s
  | .mulHi w => Sys2Proof.Machine.execMulHi w s
  | .mad w => Sys2Proof.Machine.execMad w s
  | .div w => Sys2Proof.Machine.execDiv w s
  | .rem w => Sys2Proof.Machine.execRem w s
  | .min w => Sys2Proof.Machine.execMin w s
  | .max w => Sys2Proof.Machine.execMax w s
  | .abs w => Sys2Proof.Machine.execAbs w s
  | .neg w => Sys2Proof.Machine.execNeg w s
  | .and w => Sys2Proof.Machine.execAnd w s
  | .or w => Sys2Proof.Machine.execOr w s
  | .xor w => Sys2Proof.Machine.execXor w s
  | .andn w => Sys2Proof.Machine.execAndn w s
  | .not w => Sys2Proof.Machine.execNot w s
  | .andi w => Sys2Proof.Machine.execAndi w s
  | .ori w => Sys2Proof.Machine.execOri w s
  | .xori w => Sys2Proof.Machine.execXori w s
  | .shl w => Sys2Proof.Machine.execShl w s
  | .shr w => Sys2Proof.Machine.execShr w s
  | .sar w => Sys2Proof.Machine.execSar w s
  | .rotl w => Sys2Proof.Machine.execRotl w s
  | .clz w => Sys2Proof.Machine.execClz w s
  | .popc w => Sys2Proof.Machine.execPopc w s
  | .brev w => Sys2Proof.Machine.execBrev w s
  | .bfx w => Sys2Proof.Machine.execBfx w s
  | .bfi w => Sys2Proof.Machine.execBfi w s
  | .sel w => Sys2Proof.Machine.execSel w s
  | .cmp w => Sys2Proof.Machine.execCmp w s
  | .movi w => Sys2Proof.Machine.execMovi w s
  | .mov w => Sys2Proof.Machine.execMov w s
  | .addI64 w => Sys2Proof.Machine.execAddI64 w s
  | .subI64 w => Sys2Proof.Machine.execSubI64 w s
  | .mulWide w => Sys2Proof.Machine.execMulWide w s
  | .lea w => Sys2Proof.Machine.execLea w s
  | .cmpi w => Sys2Proof.Machine.execCmpi w s
  | .clamp w => Sys2Proof.Machine.execClamp w s
  | .fadd w => Sys2Proof.Machine.execFadd w s
  | .fsub w => Sys2Proof.Machine.execFsub w s
  | .fmul w => Sys2Proof.Machine.execFmul w s
  | .fma w => Sys2Proof.Machine.execFma w s
  | .fmin w => Sys2Proof.Machine.execFmin w s
  | .fmax w => Sys2Proof.Machine.execFmax w s
  | .fabs w => Sys2Proof.Machine.execFabs w s
  | .fneg w => Sys2Proof.Machine.execFneg w s
  | .fcmp w => Sys2Proof.Machine.execFcmp w s
  | .fclass w => Sys2Proof.Machine.execFclass w s
  | .fmovi w => Sys2Proof.Machine.execFmovi w s
  | .frcp w => Sys2Proof.Machine.execFrcp w s
  | .frsq w => Sys2Proof.Machine.execFrsq w s
  | .fsqrt w => Sys2Proof.Machine.execFsqrt w s
  | .fdiv w => Sys2Proof.Machine.execFdiv w s
  | .hadd2 w => Sys2Proof.Machine.execHadd2 w s
  | .hmul2 w => Sys2Proof.Machine.execHmul2 w s
  | .hfma2 w => Sys2Proof.Machine.execHfma2 w s
  | .dot4 w => Sys2Proof.Machine.execDot4 w s
  | .dot2 w => Sys2Proof.Machine.execDot2 w s
  | .fround w => Sys2Proof.Machine.execFround w s
  | .fsin w => Sys2Proof.Machine.execFsin w s
  | .fcos w => Sys2Proof.Machine.execFcos w s
  | .fexp2 w => Sys2Proof.Machine.execFexp2 w s
  | .flog2 w => Sys2Proof.Machine.execFlog2 w s
  | .ftanh w => Sys2Proof.Machine.execFtanh w s
  | .cvtF w => Sys2Proof.Machine.execCvtF w s
  | .cvtFi w => Sys2Proof.Machine.execCvtFi w s
  | .cvtIf w => Sys2Proof.Machine.execCvtIf w s
  | .cvtSr w => Sys2Proof.Machine.execCvtSr w s
  | .pack w => Sys2Proof.Machine.execPack w s
  | .unpack w => Sys2Proof.Machine.execUnpack w s
  | .shflIdx w => Sys2Proof.Machine.execShflIdx w s
  | .shflXor w => Sys2Proof.Machine.execShflXor w s
  | .shflUp w => Sys2Proof.Machine.execShflUp w s
  | .shflDown w => Sys2Proof.Machine.execShflDown w s
  | .vote w => Sys2Proof.Machine.execVote w s
  | .scan w => Sys2Proof.Machine.execScan w s
  | .lred w => Sys2Proof.Machine.execLred w s
  | .kop w => Sys2Proof.Machine.execKop w s
  | .kpop w => Sys2Proof.Machine.execKpop w s
  | .kfirst w => Sys2Proof.Machine.execKfirst w s
  | .laneid w => Sys2Proof.Machine.execLaneid w s
  | .rng w => Sys2Proof.Machine.execRng w s
  | .noise w => Sys2Proof.Machine.execNoise w s
  | .noiseSt w => Sys2Proof.Machine.execNoiseSt w s
  | .bcast w => Sys2Proof.Machine.execBcast w s
  | .bcastGet w => Sys2Proof.Machine.execBcastGet w s
  | .pairedWord w => Sys2Proof.Machine.execPairedWord w s
  | .br w => Sys2Proof.Machine.execBr w s
  | .brc w => Sys2Proof.Machine.execBrc w s
  | .brm w => Sys2Proof.Machine.execBrm w s
  | .brx w => Sys2Proof.Machine.execBrx w s
  | .call w => Sys2Proof.Machine.execCall w s
  | .ret w => Sys2Proof.Machine.execRet w s
  | .jmpi w => Sys2Proof.Machine.execJmpi w s
  | .mpush w => Sys2Proof.Machine.execMpush w s
  | .melse w => Sys2Proof.Machine.execMelse w s
  | .mpop w => Sys2Proof.Machine.execMpop w s
  | .loop w => Sys2Proof.Machine.execLoop w s
  | .lbreak w => Sys2Proof.Machine.execLbreak w s
  | .lexit w => Sys2Proof.Machine.execLexit w s
  | .spawn w => Sys2Proof.Machine.execSpawn w s
  | .join w => Sys2Proof.Machine.execJoin w s
  | .exit w => Sys2Proof.Machine.execExit w s
  | .barInit w => Sys2Proof.Machine.execBarInit w s
  | .barArr w => Sys2Proof.Machine.execBarArr w s
  | .barWait w => Sys2Proof.Machine.execBarWait w s
  | .barSync w => Sys2Proof.Machine.execBarSync w s
  | .nop w => Sys2Proof.Machine.execNop w s
  | .yield w => Sys2Proof.Machine.execYield w s
  | .rgrow w => Sys2Proof.Machine.execRgrow w s
  | .rshrink w => Sys2Proof.Machine.execRshrink w s
  | .ldG w => Sys2Proof.Machine.execLdG w s
  | .stG w => Sys2Proof.Machine.execStG w s
  | .ldC w => Sys2Proof.Machine.execLdC w s
  | .stC w => Sys2Proof.Machine.execStC w s
  | .pref w => Sys2Proof.Machine.execPref w s
  | .ldGx w => Sys2Proof.Machine.execLdGx w s
  | .stGx w => Sys2Proof.Machine.execStGx w s
  | .atom w => Sys2Proof.Machine.execAtom w s
  | .cas w => Sys2Proof.Machine.execCas w s
  | .fence w => Sys2Proof.Machine.execFence w s
  | .fenceTr w => Sys2Proof.Machine.execFenceTr w s
  | .atomC w => Sys2Proof.Machine.execAtomC w s
  | .acopy w => Sys2Proof.Machine.execAcopy w s
  | .acopy2 w => Sys2Proof.Machine.execAcopy2 w s
  | .pinit w => Sys2Proof.Machine.execPinit w s
  | .pwait w => Sys2Proof.Machine.execPwait w s
  | .prel w => Sys2Proof.Machine.execPrel w s
  | .pstat w => Sys2Proof.Machine.execPstat w s
  | .pdrain w => Sys2Proof.Machine.execPdrain w s
  | .dkload w => Sys2Proof.Machine.execDkload w s
  | .dkloadClr w => Sys2Proof.Machine.execDkloadClr w s
  | .dkquery w => Sys2Proof.Machine.execDkquery w s
  | .post w => Sys2Proof.Machine.execPost w s
  | .arm w => Sys2Proof.Machine.execArm w s
  | .disarm w => Sys2Proof.Machine.execDisarm w s
  | .nmdot w => Sys2Proof.Machine.execNmdot w s
  | .nmaxpy w => Sys2Proof.Machine.execNmaxpy w s
  | .vdrain w => Sys2Proof.Machine.execVdrain w s
  | .mxZero w => Sys2Proof.Machine.execMxZero w s
  | .mxMma w => Sys2Proof.Machine.execMxMma w s
  | .mxConv w => Sys2Proof.Machine.execMxConv w s
  | .mxRead w => Sys2Proof.Machine.execMxRead w s
  | .mxFence w => Sys2Proof.Machine.execMxFence w s
  | .mxWait w => Sys2Proof.Machine.execMxWait w s
  | .mxStat w => Sys2Proof.Machine.execMxStat w s
  | .mxSub w => Sys2Proof.Machine.execMxSub w s
  | .mxUnsub w => Sys2Proof.Machine.execMxUnsub w s
  | .wmInit w => Sys2Proof.Machine.execWmInit w s
  | .wmProbe w => Sys2Proof.Machine.execWmProbe w s
  | .wmCommit w => Sys2Proof.Machine.execWmCommit w s
  | .wmSelect w => Sys2Proof.Machine.execWmSelect w s
  | .wmRead w => Sys2Proof.Machine.execWmRead w s
  | .wmSync w => Sys2Proof.Machine.execWmSync w s
  | .wmRelease w => Sys2Proof.Machine.execWmRelease w s
  | .gsend w => Sys2Proof.Machine.execGsend w s
  | .gfetch w => Sys2Proof.Machine.execGfetch w s
  | .gbar w => Sys2Proof.Machine.execGbar w s
  | .gstat w => Sys2Proof.Machine.execGstat w s
  | .gabort w => Sys2Proof.Machine.execGabort w s
  | .greform w => Sys2Proof.Machine.execGreform w s
  | .gdl w => Sys2Proof.Machine.execGdl w s
  | .renter w => Sys2Proof.Machine.execRenter w s
  | .rleave w => Sys2Proof.Machine.execRleave w s
  | .rmark w => Sys2Proof.Machine.execRmark w s
  | .hashrd w => Sys2Proof.Machine.execHashrd w s
  | .stallrd w => Sys2Proof.Machine.execStallrd w s
  | .rdsr w => Sys2Proof.Machine.execRdsr w s
  | .wrsr w => Sys2Proof.Machine.execWrsr w s
  | .trap w => Sys2Proof.Machine.execTrap w s
  | .rte w => Sys2Proof.Machine.execRte w s
  | .brk w => Sys2Proof.Machine.execBrk w s
  | .halt w => Sys2Proof.Machine.execHalt w s
  | .illegalOpcode word => Sys2Proof.Machine.execIllegalOpcode word s
  | .clauseHeaderFetch => Sys2Proof.Machine.execClauseHeaderFetch s
  | .issueChoice core lb => Sys2Proof.Machine.execIssueChoice core lb s
  | .loopBackEdge => Sys2Proof.Machine.execLoopBackEdge s
  | .longLatencyComplete h k id => Sys2Proof.Machine.execLongLatencyComplete h k id s
  | .spawnRecordWrite h k => Sys2Proof.Machine.execSpawnRecordWrite h k s
  | .binTimerExpiry core bin => Sys2Proof.Machine.execBinTimerExpiry core bin s
  | .taskSheetLaunch core => Sys2Proof.Machine.execTaskSheetLaunch core s
  | .batchWaitExpiry core => Sys2Proof.Machine.execBatchWaitExpiry core s
  | .poolBatchLaunch die => Sys2Proof.Machine.execPoolBatchLaunch die s
  | .poolRoomFreed die => Sys2Proof.Machine.execPoolRoomFreed die s
  | .rgrowGrant h k => Sys2Proof.Machine.execRgrowGrant h k s
  | .rgrowFail core => Sys2Proof.Machine.execRgrowFail core s
  | .pwaitDeadline h k => Sys2Proof.Machine.execPwaitDeadline h k s
  | .quirePlace die => Sys2Proof.Machine.execQuirePlace die s
  | .quireLaunch core => Sys2Proof.Machine.execQuireLaunch core s
  | .launchReoffer core => Sys2Proof.Machine.execLaunchReoffer core s
  | .bankModeSwitch core => Sys2Proof.Machine.execBankModeSwitch core s
  | .quireResourceRelease h => Sys2Proof.Machine.execQuireResourceRelease h s
  | .joinSwapOut h => Sys2Proof.Machine.execJoinSwapOut h s
  | .spinningQuireSwapOut h => Sys2Proof.Machine.execSpinningQuireSwapOut h s
  | .preemption die => Sys2Proof.Machine.execPreemption die s
  | .swapOutSave h off => Sys2Proof.Machine.execSwapOutSave h off s
  | .preemptLaunch core => Sys2Proof.Machine.execPreemptLaunch core s
  | .spinResumeTimeout h => Sys2Proof.Machine.execSpinResumeTimeout h s
  | .quireResume h core => Sys2Proof.Machine.execQuireResume h core s
  | .translationWalk core ctx va => Sys2Proof.Machine.execTranslationWalk core ctx va s
  | .memoryUe h k pa => Sys2Proof.Machine.execMemoryUe h k pa s
  | .copyComplete id => Sys2Proof.Machine.execCopyComplete id s
  | .copySlowPathDone id => Sys2Proof.Machine.execCopySlowPathDone id s
  | .vatAccept ch pick steps => Sys2Proof.Machine.execVatAccept ch pick steps s
  | .vatApply ch => Sys2Proof.Machine.execVatApply ch s
  | .triggerRecordPlace ch index => Sys2Proof.Machine.execTriggerRecordPlace ch index s
  | .tableInstall id ch => Sys2Proof.Machine.execTableInstall id ch s
  | .nmComplete id => Sys2Proof.Machine.execNmComplete id s
  | .matrixOpStart core => Sys2Proof.Machine.execMatrixOpStart core s
  | .promotionStep core => Sys2Proof.Machine.execPromotionStep core s
  | .matrixOpComplete core => Sys2Proof.Machine.execMatrixOpComplete core s
  | .mxReadComplete core => Sys2Proof.Machine.execMxReadComplete core s
  | .siphonBlockRead gallery stream => Sys2Proof.Machine.execSiphonBlockRead gallery stream s
  | .wmaOpPerform core id => Sys2Proof.Machine.execWmaOpPerform core id s
  | .replayTimeout port => Sys2Proof.Machine.execReplayTimeout port s
  | .operationExpiry id => Sys2Proof.Machine.execOperationExpiry id s
  | .routeLoss id => Sys2Proof.Machine.execRouteLoss id s
  | .settle ctx slot => Sys2Proof.Machine.execSettle ctx slot s
  | .coordinatorTimeout ctx slot => Sys2Proof.Machine.execCoordinatorTimeout ctx slot s
  | .greformTimeout id => Sys2Proof.Machine.execGreformTimeout id s
  | .portRetry port => Sys2Proof.Machine.execPortRetry port s
  | .clockRelockDone die => Sys2Proof.Machine.execClockRelockDone die s
  | .gateTimeout ch => Sys2Proof.Machine.execGateTimeout ch s
  | .hostBar2Access part off write len => Sys2Proof.Machine.execHostBar2Access part off write len s
  | .galleryUp die gallery => Sys2Proof.Machine.execGalleryUp die gallery s
  | .ready => Sys2Proof.Machine.execReady s
  | .channelRetire ch => Sys2Proof.Machine.execChannelRetire ch s
  | .counterPersist => Sys2Proof.Machine.execCounterPersist s
  | .rekeyComplete page => Sys2Proof.Machine.execRekeyComplete page s
  | .tlbinvPage ctx scope => Sys2Proof.Machine.execTlbinvPage ctx scope s
  | .tlbinvContext ctx scope => Sys2Proof.Machine.execTlbinvContext ctx scope s
  | .tlbinvAll scope => Sys2Proof.Machine.execTlbinvAll scope s
  | .diefreq value => Sys2Proof.Machine.execDiefreq value s
  | .ctxctlSuspend ctx => Sys2Proof.Machine.execCtxctlSuspend ctx s
  | .ctxctlResume ctx => Sys2Proof.Machine.execCtxctlResume ctx s
  | .pagerRepair die ctx va writes => Sys2Proof.Machine.execPagerRepair die ctx va writes s
  | .pagerFatal die ctx va access => Sys2Proof.Machine.execPagerFatal die ctx va access s
  | .flitData port f fec => Sys2Proof.Machine.execFlitData port f fec s
  | .flitAck port f acked => Sys2Proof.Machine.execFlitAck port f acked s
  | .flitNak port f named => Sys2Proof.Machine.execFlitNak port f named s
  | .flitIdle port f fec => Sys2Proof.Machine.execFlitIdle port f fec s
  | .flitControl port f msg => Sys2Proof.Machine.execFlitControl port f msg s
  | .flitAbortNotice port f ctx slot t => Sys2Proof.Machine.execFlitAbortNotice port f ctx slot t s
  | .spareTrained port seq => Sys2Proof.Machine.execSpareTrained port seq s
  | .remoteOpArrival op => Sys2Proof.Machine.execRemoteOpArrival op s
  | .fabricOpComplete id ans => Sys2Proof.Machine.execFabricOpComplete id ans s
  | .greformProposal ctx slot rank gen members => Sys2Proof.Machine.execGreformProposal ctx slot rank gen members s
  | .greformDecision ctx slot gen members => Sys2Proof.Machine.execGreformDecision ctx slot gen members s
  | .portTrainingDone port good => Sys2Proof.Machine.execPortTrainingDone port good s
  | .firmwareClockStep die f temperature => Sys2Proof.Machine.execFirmwareClockStep die f temperature s
  | .noiseSourceFail die => Sys2Proof.Machine.execNoiseSourceFail die s
  | .doorbell part q index => Sys2Proof.Machine.execDoorbell part q index s
  | .queue part c => Sys2Proof.Machine.execQueue part c s
  | .ctxCreate part addr => Sys2Proof.Machine.execCtxCreate part addr s
  | .ctxDestroy part ctx => Sys2Proof.Machine.execCtxDestroy part ctx s
  | .groupBind part ctx slot addr => Sys2Proof.Machine.execGroupBind part ctx slot addr s
  | .groupUnbind part ctx slot => Sys2Proof.Machine.execGroupUnbind part ctx slot s
  | .debugBind part ctx addr => Sys2Proof.Machine.execDebugBind part ctx addr s
  | .ctxCtlSuspend part ctx => Sys2Proof.Machine.execCtxCtlSuspend part ctx s
  | .ctxCtlResume part ctx => Sys2Proof.Machine.execCtxCtlResume part ctx s
  | .counters part addr => Sys2Proof.Machine.execCounters part addr s
  | .hostRegisterWrite part off value => Sys2Proof.Machine.execHostRegisterWrite part off value s
  | .attestationReport => Sys2Proof.Machine.execAttestationReport s
  | .powerGood => Sys2Proof.Machine.execPowerGood s
  | .imageVerify typ img part => Sys2Proof.Machine.execImageVerify typ img part s
  | .patrolScrub group corrected => Sys2Proof.Machine.execPatrolScrub group corrected s
  | .temperatureHigh => Sys2Proof.Machine.execTemperatureHigh s
  | .quireStopResume h => Sys2Proof.Machine.execQuireStopResume h s
  | .temperatureNormal => Sys2Proof.Machine.execTemperatureNormal s

end Sys2Proof.Machine
end

