-- ==== Sys2Proof/Machine/Plan.lean ====
section
/-! DEFINITION. What the module does next (log 1): the order in which its agents take their steps, the fetch and decoding
of the word in issue, and how time passes. Any order of the agents is one that the agenda can give; what this file fixes
is the order that is taken when the agenda is empty. -/

namespace Sys2Proof.Machine

/-! ### Time and stall counters (R13, R20, R292, R337) -/

/-- The stall counter that counts a sheet's cycles without an issue (R337). -/
def Wait.counter : Wait → Nat
  | .none => 7
  | .flags => 0
  | .issue n => n
  | .bar _ _ => 1
  | .pwait _ _ _ | .pdrain _ => 2
  | .join => 3
  | .rgrow _ _ _ => 4
  | .spawn _ _ _ _ => 5
  | .yield => 6
  | .walk _ _ true | .parked _ _ true => 14
  | .parked _ _ false => 11
  | .vdrain => 13
  | .walk _ _ false | .mxWait _ _ | .wmSync _ | .wmInit _ _ _ _ _ _ _ | .dkload _ | .suspend _ => 15
/-- A saturating 32-bit counter risen by `n` (R337). -/
def Word.up (w : Word) (n : Nat) : Word := BitVec.ofNat 32 (min 0xFFFFFFFF (w.toNat + n))
/-- A stall counter of a sheet risen. -/
def Sheet.count (sh : Sheet) (c n : Nat) : Sheet :=
  if n = 0 then sh else { sh with stalls := sh.stalls.set 0 c (Word.up (sh.stalls.get 0 c) n) }
/-- Stall counters of a sheet after `n` cycles in which it issues nothing, in `m` of which its lane block issues another's word
(R337). A ready sheet whose word cannot issue counts as waiting for what that needs; one that could issue and is not chosen counts
as ready only while another one is, and else, with its quire stopped or being saved, or before its first cycle (R49), as other waits. -/
def Sheet.stall (sh : Sheet) (runs : Bool) (n m : Nat) : Sheet :=
  match sh.wait, sh.barred with
  | .none, none => if runs then (sh.count 7 (min n m)).count 15 (n - m) else sh.count 15 n
  | .none, some c => sh.count (if runs then c else 15) n
  | w, _ => sh.count w.counter n
/-- Cycles of a core, from `a` to `b`, in which a sheet issues no word: a lane block issues its word up to a cycle. -/
def Core.idleCycles (c : Core) (r : SheetRef) (lb a b : Nat) : Nat :=
  match c.busy.find lb with
  | some (u, x) => if x = r then b - max a u else b - a
  | none => b - a
/-- Those of them in which the lane block issues a word of another sheet. -/
def Core.otherCycles (c : Core) (r : SheetRef) (lb a b : Nat) : Nat :=
  match c.busy.find lb with
  | some (u, x) => if x = r then 0 else min b u - a
  | none => 0
/-- Sheets of a quire count the cycles in which they issue nothing (R337): those of a stopped quire too, which stay on
their core. -/
def Quire.counts (q : Quire) : Bool :=
  match q.phase with
  | .resident | .saving _ | .stopped _ => true
  | _ => false
/-- Time passes; resident sheets count the cycles of their die in which they issue nothing (R337). -/
def State.elapse (s : State) (parts : Nat) : State :=
  let t := s.pass parts
  { t with quires := t.quires.map fun q =>
      (q.1,
        if q.2.counts then
          { q.2 with sheets := q.2.sheets.map fun k =>
              let (r, c, a, b) := (({ h := q.1, k := k.1 } : SheetRef), s.core q.2.core, s.cycles q.2.core, t.cycles q.2.core)
              (k.1, if k.2.exited then k.2 else
                k.2.stall (q.2.phase == .resident) (c.idleCycles r k.2.lb a b) (c.otherCycles r k.2.lb a b)) }
        else q.2) }
/-- Parts until the next cycle of a die begins. -/
def Die.toNext (d : Die) (now : Nat) : Nat := d.period - (now - d.cycAt) % d.period
/-- Parts until the next cycle of a die that is up, or the next REFT tick, whichever comes first. -/
def State.toNext (s : State) : Nat :=
  (s.dies.filter (·.2.up)).foldl (fun n d => min n (d.2.toNext s.now)) (Config.tickParts - s.now % Config.tickParts)

/-- Beats of strands that a mask leaves (R20). -/
def beatsOf (m : Mask) : Nat := ((List.range 3).filter fun b => m.extractLsb' (32 * b) 32 != 0).length
/-- Cycles in which a word issues: a beat each for a vector word that a guard may mask (R79), at least one; one for every
other word, which acts once for its sheet (R20, R292). R20 and R292 give no figure for control words of the formats M and I
(`fence`, `fence.tr`, `renter`, `rmark`, `trap`, `brk`); the model gives them those of a vector word with their fields (DESIGN
CHOICE, log 19). -/
def issueCycles (sh : Sheet) (i : Instr) : Nat :=
  let vec (c : Com) : Nat := if c.u then 1 else max 1 (beatsOf (sh.active c.gsel c.neg))
  match i with
  | .pairedWord w => max 1 (beatsOf (sh.active w.pg false))
  | .arm w | .disarm w => vec w.com
  | .spawn w => vec w.com
  | i => match i.fields with
  | some (_, .r w) => vec w.com
  | some (_, .i w) => vec w.com
  | some (_, .m w) => vec w.com
  | some (_, .mk w) => vec w.com
  | _ => 1

/-! ### The word in issue (R52, R55, R81, R84) -/

/-- What the sheet in issue does next. -/
inductive Issuing where
  /-- No sheet is in issue. -/
  | none
  /-- At a header. -/
  | header
  /-- Past the last body word. -/
  | edge
  /-- A body word, with the cycles it takes. -/
  | word (i : Instr) (cycles : Nat)
  /-- A body word that no TLB translates: the sheet waits for a walk. -/
  | miss
  /-- A body word that traps before it executes: no execute permission, or an encoding fault. -/
  | trap (t : Trap)
  /-- A body word with an uncorrectable memory error, at a physical address. -/
  | ue (r : SheetRef) (pa : Nat) (pc : DWord)
  deriving Repr

/-- A trap of a fetch without execute permission (R84). -/
def Env.fetchTrap (e : Env) : Trap := e.trapAt cAccess e.sh.pc (BitVec.ofNat 32 (e.sh.idx + 2048))
/-- Fetch and decoding for the sheet in issue. -/
def State.issuing (s : State) : Issuing :=
  match s.env? with
  | none => .none
  | some e =>
    if e.sh.idx = 0 then .header
    else if e.sh.idx = e.sh.hdr.n.toNat + 1 then .edge
    else
      match s.fetch e.r e.q.core e.q.ctx e.sh.pc with
      | .miss => .miss
      | .noExec => .trap e.fetchTrap
      | .word w =>
        match s.fetchUe e.q.core e.q.ctx e.sh.pc with
        | some pa => .ue e.r pa e.sh.pc
        | none =>
          match decodeWord w with
          | .ok i => .word i (issueCycles e.sh i)
          | .error _ => .trap (e.trapWord cIllegalEncoding)
/-- The sheet in issue waits for the translation of its next word (R84, R169). -/
def State.fetchWait (s : State) : State :=
  match s.env? with
  | none => s
  | some e => (s.modSheet e.r fun sh => { sh with wait := .walk e.sh.pc 127 true }).leave
/-- The sheet in issue traps. -/
def State.issueTrap (s : State) (t : Trap) : State :=
  match s.cur with
  | some r => s.trap r t
  | none => s
/-- A sheet still stands at its word that issues again. -/
def State.standing (s : State) (x : Again) : Bool := (s.sheet? x.ref).any fun sh => !sh.exited && sh.pc == x.pc
/-- The state in which the sheet in issue executes a word: the free counter has moved on, and words that issued again and are done
are forgotten (R304). -/
def State.ready (s : State) : State :=
  { s with free := s.free + 1, reissue := s.reissue.filter s.standing }
/-- The word in issue has kept its sheet at its place. -/
def State.stuckAt (s t : State) : Bool :=
  match s.cur with
  | none => false
  | some r =>
    match s.sheet? r, t.sheet? r with
    | some a, some b => a.pc == b.pc && a.idx == b.idx && b.wait != .none
    | _, _ => false
/-- The word in issue has issued again and waits for something else than a walk: it has had its turn in its lists (R44). -/
def State.turnPast (s : State) (r : SheetRef) : State :=
  match s.sheet? r with
  | none => s
  | some sh =>
    match sh.wait with
    | .walk _ _ _ => s
    | _ => { s with reissue := s.reissue.filter (·.ref != r) }
/-- The lane block of the sheet that was in issue in `s` issues its word for a number of cycles and issues nothing else in
them, and its choice is over (R292); a word that waits at issue takes none. -/
def State.wordTime (s t : State) (cycles : Nat) : State :=
  match s.env? with
  | none => t
  | some e =>
    if s.stuckAt t then t.turnPast e.r
    else
      let t := (if t.grabs.isEmpty then t else t.engDrop (.sheet e.r)).endChoice e.q.core e.sh.lb e.r
      { (t.modCore e.q.core fun c => { c with busy := c.busy.put e.sh.lb (t.cycles e.q.core + cycles, e.r) }) with cur := none }

/-! ### Steps of the other agents (log 1) -/

/-- Whether an instruction is not an event that is due now: it changes nothing. -/
def State.changes (s : State) (i : Instr) : Bool :=
  match exec i s with
  | .next t => t != s
  | _ => false
/-- Steps that a core's agents may be able to take. -/
def coreEvents (n : Nat) (c : Core) : List Instr :=
  [.bankModeSwitch n, .taskSheetLaunch n, .batchWaitExpiry n, .preemptLaunch n, .quireLaunch n, .launchReoffer n,
    .rgrowFail n, .matrixOpStart n, .promotionStep n, .mxReadComplete n, .matrixOpComplete n] ++
  (c.wm.map fun o => .wmaOpPerform n o.id)
/-- Steps that concern a sheet. -/
def sheetEvents (r : SheetRef) (q : Quire) (sh : Sheet) : List Instr :=
  (sh.lls.flatMap fun l =>
    match l.ue with
    | some pa => [.memoryUe r.h r.k pa]
    | none => if l.left = 0 then [.longLatencyComplete r.h r.k l.id] else []) ++
  match sh.wait with
  | .pwait _ _ (some _) => [.pwaitDeadline r.h r.k]
  | .rgrow _ _ _ => [.rgrowGrant r.h r.k]
  | .spawn _ _ _ _ => [.spawnRecordWrite r.h r.k]
  | .walk va _ _ => [.translationWalk q.core q.ctx va]
  | _ => []
/-- Steps that concern a quire. Of several cores that fit an eligible quire R298 takes any; with an empty agenda the model takes
the lowest-numbered one (DESIGN CHOICE, log 39). -/
def State.quireEvents (s : State) (h : Nat) (q : Quire) : List Instr :=
  match q.phase with
  | .draining => [.quireResourceRelease h]
  | .resident => [.joinSwapOut h, .spinningQuireSwapOut h]
  | .saving _ => (((s.ctx q.ctx).swapRoom q.recEnd).map fun o => .swapOutSave h o).toList
  | .swapped _ _ _ none => [.spinResumeTimeout h]
  | .swapped _ _ _ (some _) =>
    (((List.range 800).find? fun c => (s.resumeGrant c h).isSome && s.firstAt c (q.eligible.getD 0) && s.resumeFirst c h).map
      fun c => .quireResume h c).toList
  | _ => []
/-- Steps that concern a vat. -/
def vatEvents (ch : Nat) (v : Vat) : List Instr :=
  ((List.range v.input.length).map (.vatAccept ch · [])) ++ (if v.gates.isEmpty then [] else [.gateTimeout ch]) ++
  (if v.queue.isEmpty then [] else [.vatApply ch]) ++
  (v.triggers.zipIdx.filterMap fun t => if t.1.fired then some (.triggerRecordPlace ch t.2) else none)
/-- Steps that concern engines and links outside the cores. -/
def State.engineEvents (s : State) : List Instr :=
  (s.vats.flatMap fun v => vatEvents v.1 v.2) ++
  (s.installs.filterMap fun i => ((List.range 256).find? fun c => !i.done.contains c).map fun c => .tableInstall i.id c) ++
  (s.copies.map fun c => if c.slow then .copySlowPathDone c.id else .copyComplete c.id) ++
  (s.nms.map fun n => .nmComplete n.id) ++
  (s.galleries.flatMap fun g => g.2.streams.map fun x => .siphonBlockRead g.1 x.1) ++
  (s.fabs.flatMap fun o => [.operationExpiry o.id, .routeLoss o.id, .greformTimeout o.id]) ++
  (s.ctxs.flatMap fun c => c.2.groups.flatMap fun g => [.settle c.1 g.1, .coordinatorTimeout c.1 g.1]) ++
  (s.ports.flatMap fun p => if p.2.replay.isSome then [.replayTimeout p.1] else if p.2.up then [] else [.portRetry p.1])
/-- Steps of the firmware and of what power-up brings. -/
def State.firmwareEvents (s : State) : List Instr :=
  (s.rekeys.map fun k => .rekeyComplete k.key) ++
  ((List.range 4).filterMap fun d => if (s.die d).step.isSome then some (.clockRelockDone d) else none) ++
  (if s.boot.t.isSome then
    ((List.range 40).filterMap fun g => if (s.gallery g).up then none else some (.galleryUp (g / 10) (g % 10))) ++ [.ready]
   else []) ++
  (s.retiring.map fun x => .channelRetire x.1).toList ++
  (if s.boot.power ∧ s.persisted + 60000000000 ≤ s.reft then [.counterPersist] else []) ++
  ((s.hostWait.map (·.1)).eraseDups.map fun p => .hostBar2Access p 0 none 0)
/-- Steps of the command processors. -/
def State.dieEvents (s : State) : List Instr :=
  s.dies.flatMap fun d =>
    if d.2.up then [.poolRoomFreed d.1, .poolBatchLaunch d.1, .quirePlace d.1, .preemption d.1] else []
/-- Every step that some agent may be able to take, in the order in which they are looked at. -/
def State.events (s : State) : List Instr :=
  s.firmwareEvents ++ s.engineEvents ++ (s.sheets.flatMap fun x => sheetEvents x.1 x.2.1 x.2.2) ++
  (s.cores.flatMap fun c => coreEvents c.1 c.2) ++ (s.quires.flatMap fun q => s.quireEvents q.1 q.2) ++ s.dieEvents
/-- Steps that come after the words of their die's cycle, at its last instant: a bin takes the records of the cycle in which
its timer expires (R50). -/
def State.lateEvents (s : State) : List Instr :=
  s.cores.flatMap fun c =>
    if (s.die (dieOf c.1)).toNext s.now ≤ s.toNext then c.2.bins.map fun b => .binTimerExpiry c.1 b.1 else []
/-- The place of a lane block's choice among those of its cycle: what stands at a header or at a clause's end first; then
the other words, those of one quire in quire sheet slot order (R177, R203); then matrix and WMA words in core sheet slot
order (R243, R274). -/
def State.laneKey (s : State) (core lb : Nat) (r : SheetRef) : Nat :=
  match s.quires.find r.h, s.sheet? r with
  | some q, some sh =>
    if sh.idx = 0 ∨ sh.idx = sh.hdr.n.toNat + 1 then lb
    else
      match s.fetch r core q.ctx sh.pc with
      | .word w => if 0xC ≤ (w.extractLsb' 60 4).toNat ∧ (w.extractLsb' 56 8).toNat < 0xD8 then 1000 + lb else 100 + 8 * r.k + lb
      | _ => 100 + 8 * r.k + lb
  | _, _ => lb
/-- A pair put in its place by key, after its equals. -/
def insertKey (x : Nat × Nat × Nat) : List (Nat × Nat × Nat) → List (Nat × Nat × Nat)
  | [] => [x]
  | y :: t => if x.1 < y.1 then x :: y :: t else y :: insertKey x t
/-- The stall counter of the wait for which the body word that a sheet stands at cannot issue now (R292, R337): to issue it would
change nothing but put its sheet into that wait. -/
def State.bars (s : State) (r : SheetRef) : Option Nat :=
  let u := { (s.modSheet r fun sh => { sh with wait := .none, barred := none }) with cur := some r }
  match u.issuing with
  | .word i _ =>
    match exec i u with
    | .next t =>
      match (t.sheet? r).map fun (sh : Sheet) => sh.wait with
      | some (.issue n) =>
        if { (t.modSheet r fun sh => { sh with wait := .none }) with cur := u.cur, cores := u.cores, next := u.next } = u then some n
        else none
      | _ => none
    | _ => none
  | _ => none
/-- Which of the sheets that are ready, or have issued `yield`, cannot issue their next word now. -/
def State.assess (s : State) : State :=
  { s with quires := s.quires.map fun q =>
      (q.1, { q.2 with sheets := q.2.sheets.map fun k =>
        (k.1, { k.2 with barred :=
          if q.2.phase = .resident ∧ !k.2.exited ∧ (k.2.wait = .none ∨ k.2.wait = .yield) then s.bars { h := q.1, k := k.1 }
          else none }) }) }
/-- Lane blocks of a core that have something to issue, in the order in which the words of a cycle take effect. -/
def State.lanesOf (s : State) (core : Nat) : List (Nat × Nat) :=
  if s.paused (dieOf core) then []
  else
    (((List.range 8).filterMap fun lb =>
      if s.laneBusy core lb then none else (s.choice core lb).map fun r => (s.laneKey core lb r, core, lb)).foldl
        (fun l x => insertKey x l) []).map (·.2)
/-- Lane blocks that have something to issue. -/
def State.lanes (s : State) : List (Nat × Nat) :=
  (s.quires.filterMap fun q => if q.2.phase = .resident then some q.2.core else none).eraseDups.flatMap s.lanesOf
/-- Task sheets whose entry header is due to be fetched, in cycle 6 of the launch, or checked, in cycle 7 (R49). -/
def State.headersDue (s : State) : List SheetRef :=
  s.sheets.filterMap fun x =>
    let cyc := s.cycles x.2.1.core
    if x.2.1.phase = .resident ∧ x.2.2.ready = true ∧ x.2.2.idx = 0 ∧ cyc < x.2.2.startAt ∧
        x.2.2.startAt ≤ cyc + (if x.2.2.early.isSome then 1 else 2) ∧ s.paused (dieOf x.2.1.core) = false then some x.1
    else none

/-- What the module does next. -/
inductive Plan where
  /-- A step of an agent. -/
  | event (i : Instr) (s : State)
  /-- A word of the sheet in issue, and its cycles. -/
  | word (i : Instr) (s : State) (cycles : Nat)
  /-- A change of state that is no step of the table: time, or a fetch that does not give a word. -/
  | idle (s : State)
  deriving Repr

/-- The agenda's head; else what the sheet in issue does; else a step that is due, fabric
operations that can go on now among them; else an entry header (R49); else the words that cannot issue are set apart (R292); else the
issue choice of the first lane block that issues nothing, in the order of `State.laneKey`; else a step that ends the cycle; else time passes to the next
cycle or tick. -/
def State.plan (s : State) : Plan :=
  match s.agenda with
  | a :: rest =>
    .event a.what { (s.elapse (Config.tickParts * a.after)) with agenda := rest, free := s.free + 1 }
  | [] =>
    match s.issuing with
    | .word i n => .word i s.ready n
    | .header => .event .clauseHeaderFetch s.ready
    | .edge => .event .loopBackEdge s.ready
    | .miss => .idle s.ready.fetchWait
    | .trap t => .idle (s.ready.issueTrap t)
    | .ue r pa pc => .idle (s.ready.ueStop r.h pa pc)
    | .none =>
      let t := { s with cur := none, free := s.free + 1 }
      match t.events.find? t.changes with
      | some i => .event i t
      | none =>
        if t.fabRetry ≠ t then .idle t.fabRetry
        else match t.headersDue with
        | r :: _ => .idle { t with cur := some r }
        | [] =>
        if t.assess ≠ t then .idle t.assess
        else match t.lanes.head? with
        | some x => .event (.issueChoice x.1 x.2) t
        | none =>
          match t.lateEvents.find? t.changes with
          | some i => .event i t
          | none => .idle (t.elapse t.toNext)

end Sys2Proof.Machine
end

