-- ==== Sys2Proof/Machine/Load.lean ====
section
/-! DEFINITION. A word placed where the module fetches next. A program reaches a sheet from power-up by the boot chain, a
context, a launch record and a launch (R285-R291, R350-R364); where no sheet is in issue, the placement stands for that
path (log 20). -/

namespace Sys2Proof.Machine

/-- Where the sheet in issue fetches its next body word, when its core translates that address for it. -/
def State.fetchPlace (s : State) : Option Nat :=
  match s.env? with
  | none => none
  | some e =>
    if 1 ≤ e.sh.idx ∧ e.sh.idx ≤ e.sh.hdr.n.toNat then
      match s.tlb e.q.core e.q.ctx e.sh.pc with
      | some t => if leafX t.leaf && s.reach (s.ctx e.q.ctx).part (t.pa e.sh.pc) then some (t.pa e.sh.pc) else none
      | none => none
    else none

/-- The page that a placed program lies in: 16 KiB from virtual and physical address 0, executable only. -/
def loadEntry (ctx : Nat) : TlbEnt := { ctx, va := 0, size := 16384, leaf := 0x43 }
/-- Header of the placed clause: 15 words, flags F0 and F1. -/
def loadHeader : Header := { n := 15, wait := 0, seta := 0, setb := 1, le := 0, yld := false }
/-- The sheet of a placed program: alone on its core, 96 strands, 256 rows, at the first body word of its clause. -/
def loadSheet : Sheet :=
  { Sheet.blank with alloc := 256, pc := 8, hdrAddr := 0, hdr := loadHeader, idx := 1, exm := lowMask 96 }
/-- The quire of a placed program. -/
def loadQuire (ctx : Nat) : Quire :=
  { phase := .resident, ctx, qid := 0, core := 0, task := false, qprio := 0, nsheets := 1, rowg := 32, chamg := 0,
    ntiles := 0, wmag := 0, active := 96, entry := 0, sinit := [], ream := none, lin := 0, recs := [], launched := 0, halted := none,
    q := [], qw := [], bars := [], pools := [], joins := 0, joinAt := none, chamAt := 0, cham := [], tileAt := [], tiles := [],
    arrAt := 0, arr := [], fkey := 0, ext := none, sub := none, sheets := [(0, loadSheet)] }
/-- A program placed on core 0: die 0 and gallery 0 up, partition 0 holding them and 1 GiB of HBM, a context, the TLB
entry, the quire, and its sheet in issue. -/
def State.loaded (s : State) : State :=
  let h := s.next
  let r : SheetRef := { h, k := 0 }
  { s with
    agenda := [], next := h + 1, cur := some r, reissue := [],
    mem := Memory.write s.mem 0 (leBytes 8 loadHeader.pack.toNat),
    stores := [],
    quires := s.quires.put h (loadQuire 1),
    dies := s.dies.put 0 { s.die 0 with up := true, step := none },
    galleries := s.galleries.put 0 { s.gallery 0 with up := true },
    cores := s.cores.put 0 { s.core 0 with prog := [(0, r)], tlb := loadEntry 1 :: (s.core 0).tlb },
    parts := s.parts.put 0 { s.part 0 with galleries := (s.part 0).galleries ||| 1, hbmBase := 0, hbmSize := 2 ^ 30 },
    ctxs := s.ctxs.put 1 (Ctx.fresh 0 { CtxDesc.none with ok := true }) }
/-- The module with a word put where it fetches next. -/
def State.place (s : State) (w : DWord) : State :=
  match s.fetchPlace with
  | some a => { s with agenda := [], mem := Memory.write s.mem a (leBytes 8 w.toNat), stores := [] }
  | none => { s.loaded with mem := Memory.write s.loaded.mem 8 (leBytes 8 w.toNat) }

end Sys2Proof.Machine
end

