-- ==== Sys2Proof/Machine/Step.lean ====
section
/-! DEFINITION. One step of the module. -/

namespace Sys2Proof.Machine

/-- One step: what `State.plan` says, executed; a word's time passes after it. -/
def step (s : State) : Host.Outcome State Fault Refusal :=
  match s.plan with
  | .event i t => exec i t
  | .word i t n =>
    match exec i t with
    | .next u => .next (t.wordTime u n)
    | .fault f => .fault f
    | .refused r => .refused r
  | .idle t => .next t

/-- `s` with an instruction's `nbits` bits, the bits above them 0, put where `step` fetches its next instruction. -/
def State.withFetchWord (s : State) (nbits w : Nat) : State := s.place (BitVec.ofNat 64 (w % 2 ^ nbits))

end Sys2Proof.Machine
end

