-- ==== Sys2Proof/Safety.lean ====
section
/-! DEFINITION. The terms in which claims are stated: what keeps the module's memory in form, when a word runs, what a word
leaves as it was, and what an answer is. -/

namespace Sys2Proof.Machine

/-- The form that every step keeps: memory is one canonical list of cells. -/
def State.Inv (s : State) : Prop := Memory.wf s.mem = true

/-- A step gives a next state of which `P` holds. -/
def Answers (o : Out) (P : State → Prop) : Prop := ∃ t, o = .next t ∧ P t

/-! ### When a word runs -/

/-- `e` is what the sheet in issue sees. -/
def Live (s : State) (e : Env) : Prop := s.env? = some e
/-- The flag set `fs` of the clause names a flag that is not full (R58). -/
def Env.flagRoom (e : Env) (fs : Bool) : Prop := e.sh.flagOf fs ≠ 15 ∧ e.sh.flags.get 0 (e.sh.flagOf fs) < 63

/-! ### Registers -/

/-- A register that exists: V registers have 96 strands (R19). -/
def RegKey.real : RegKey → Prop
  | .v _ l => l < 96
  | .s _ | .q _ => True
/-- The latest of a list of writes to a register. -/
def lastWrite (ws : List (RegKey × Word)) (key : RegKey) : Option Word := (ws.reverse.find? fun w => w.1 = key).map (·.2)
/-- Another sheet of the quire with a higher quire sheet slot has written Q register `n` in the same cycle (R46). -/
def Quire.outranked (q : Quire) (k cyc n : Nat) : Bool :=
  match q.qw.find n with
  | some x => x.cyc == cyc && x.ks.any (k < ·)
  | none => false
/-- What a register holds after a word of sheet `k` that writes `w` to it (R21, R46, R64): S63 discards it, and of the writes of one
cycle to a Q register that of the highest slot remains. -/
def landed (q : Quire) (k cyc : Nat) (key : RegKey) (w : Word) : Word :=
  match key with
  | .v _ _ => w
  | .s n => if n < 63 then w else 0
  | .q n => if q.outranked k cyc n then q.q.get 0 n else w

/-! ### What stays as it was -/

/-- A long-latency word without the marks of R59. -/
def LL.unmarked (l : LL) : LL := { l with outs := l.outs.map fun o => { o with raced := false } }
/-- A sheet without its V, S, EXM and Q registers and the marks of R59. -/
def Sheet.apart (sh : Sheet) : Sheet := { sh with v := [], s := [], exm := 0, qv := [], lls := sh.lls.map LL.unmarked }
/-- A sheet without its view of the Q registers. -/
def Sheet.lessQ (sh : Sheet) : Sheet := { sh with qv := [] }
/-- A quire without its Q registers and its sheets. -/
def Quire.apart (q : Quire) : Quire := { q with q := [], qw := [], sheets := [] }
/-- A core without the sheets in progress of its lane blocks. -/
def Core.apart (c : Core) : Core := { c with prog := [] }
/-- The module without its quires and cores, the sheet in issue, the model's next name, and what R85 leaves unseen. -/
def State.apart (s : State) : State := { s with quires := [], cores := [], cur := none, next := 0, stores := [] }

/-- A word of the sheet in issue wrote the registers `ws` and changed its sheet by `f`, and did nothing else: the rest of
the module, other quires, the quire apart from its Q registers, other sheets apart from their view of these, every
register not written, and every byte of memory are as before. -/
structure Changes (s t : State) (e : Env) (ws : List (RegKey × Word)) (f : Sheet → Sheet) : Prop where
  module : t.apart = s.apart
  cores  : ∀ n, (t.core n).apart = (s.core n).apart
  quires : ∀ h, h ≠ e.r.h → t.quires.find h = s.quires.find h
  quire  : ∃ q, t.quires.find e.r.h = some q ∧ q.apart = e.q.apart ∧
    (∀ n, q.q.get 0 n =
      match lastWrite ws (.q n) with
      | some w => landed e.q e.r.k (s.cycles e.q.core) (.q n) w
      | none => e.q.q.get 0 n) ∧
    (∀ k, k ≠ e.r.k → (q.sheets.find k).map Sheet.lessQ = (e.q.sheets.find k).map Sheet.lessQ) ∧
    ∃ sh, q.sheets.find e.r.k = some sh ∧ sh.apart = (f e.sh).apart ∧
      ∀ key, key.real → sh.raw key =
        match lastWrite ws key with
        | some w => landed e.q e.r.k (s.cycles e.q.core) key w
        | none => (f e.sh).raw key
  memory : ∀ a, t.readByte a = s.readByte a

/-- A body word did what `Changes` says and the sheet went on past it (R55); `n` names were taken for operations. -/
def Acts (s t : State) (e : Env) (ws : List (RegKey × Word)) (f : Sheet → Sheet) (n : Nat) : Prop :=
  Changes s t e ws (fun sh => (f sh).advance (s.cycles e.q.core)) ∧ t.next = s.next + n ∧ t.stores = s.stores ∧
  t.cur = if ((f e.sh).advance (s.cycles e.q.core)).idx = 0 then none else s.cur

/-- A body word did what `Changes` says, and the sheet stands past it and waits (R43). -/
def Waits (s t : State) (e : Env) (ws : List (RegKey × Word)) (f : Sheet → Sheet) (w : Wait) (n : Nat) : Prop :=
  Changes s t e ws (fun sh => { (f sh).advance (s.cycles e.q.core) with wait := w }) ∧ t.next = s.next + n ∧
  t.stores = s.stores ∧ t.cur = none
/-- A body word did what `Changes` says, and the sheet stands at the header at `a` (R184), its fetches seeing what it has
acquired (R85). -/
def Jumps (s t : State) (e : Env) (a : DWord) (ws : List (RegKey × Word)) (f : Sheet → Sheet) : Prop :=
  Changes s t e ws (fun sh => (f sh).jump a (s.cycles e.q.core)) ∧ t.next = s.next ∧ t.stores = (s.refetch e.r).stores ∧ t.cur = none

/-! ### What register words write -/

/-- The writes of a format R word: `f` gives D from A, B, C and the old D. -/
def aluWrites (e : Env) (w : FR) (nd na nb nc : Nat) (f : DWord → DWord → DWord → DWord → DWord) : List (RegKey × Word) :=
  (e.lanes w.com).flatMap fun l =>
    e.dst l nd w.d.toNat (f (e.opnd l na w.a.toNat) (e.opnd l nb w.b.toNat) (e.opnd l nc w.c.toNat) (e.opnd l nd w.d.toNat))
/-- The conditions that a format R word raises, issuer by issuer. -/
def aluConds (e : Env) (w : FR) (nd na nb nc : Nat) (f : DWord → DWord → DWord → DWord → Cond) : List (Nat × Cond) :=
  (e.lanes w.com).map fun l =>
    (laneNo l, f (e.opnd l na w.a.toNat) (e.opnd l nb w.b.toNat) (e.opnd l nc w.c.toNat) (e.opnd l nd w.d.toNat))
/-- The V operands of a format R word. -/
def aluVs (w : FR) (nd na nb nc : Nat) : List (Nat × Nat) :=
  vsOf w.com [(w.d.toNat, nd), (w.a.toNat, na), (w.b.toNat, nb), (w.c.toNat, nc)]

/-- What a compare writes (R119): a uniform register with U = 1. -/
def cmpWrites (e : Env) (c : Com) (d : BitVec 8) (f : Option Nat → Bool) : List (RegKey × Word) :=
  if c.u then (e.lanes c).map fun l => (uniKey d.toNat, if f l then 1 else 0) else []
/-- What a compare does to the masks: with U = 0 the bits of the active strands, the others kept. -/
def cmpMask (e : Env) (c : Com) (d : BitVec 8) (f : Option Nat → Bool) (sh : Sheet) : Sheet :=
  if c.u then sh
  else
    { sh with k := sh.k.set 0 d.toNat (putMask (e.sh.k.get 0 d.toNat) (e.sh.active c.gsel c.neg)
        ((e.lanes c).foldl (fun m l => if f l then m ||| (1 : Mask) <<< laneNo l else m) 0)) }

end Sys2Proof.Machine
end

