-- ==== Sys2Proof/Certificates/Slice0/Obligations.lean ====
section
/-! DEFINITION. The statements for the provers. The values that the rules give are written here from the rules, apart from
the model's own functions wherever the rule can be said without them; the terms are those of Safety.lean. -/

namespace Sys2Proof.Claims

open Sys2Proof Sys2Proof.Machine

/-! ### Values of the integer rules -/

/-- The low register of an operand as a number, read signed by i32 (R67). -/
def val (t : Ty) (x : DWord) : Int :=
  let n : Int := (x.toNat % 2 ^ 32 : Nat)
  if t = .i32 ∧ 2 ^ 31 ≤ n then n - 2 ^ 32 else n
/-- A pair as a number, read signed by i64. -/
def wide (t : Ty) (x : DWord) : Int := if t = .i64 ∧ 2 ^ 63 ≤ x.toNat then (x.toNat : Int) - 2 ^ 64 else x.toNat
/-- A number modulo 2^32, in a register. -/
def low32 (x : Int) : DWord := BitVec.ofNat 64 (x % 2 ^ 32).toNat
/-- The result that SAT = 0 or 1 gives an exact result (R113). -/
def fit (t : Ty) (sat : Bool) (x : Int) : DWord :=
  low32 (if sat then (if t = .i32 then max (-2 ^ 31) (min (2 ^ 31 - 1) x) else max 0 (min (2 ^ 32 - 1) x)) else x)
/-- Element `j` of `b` bits of a register, read signed by i32 (R129). -/
def part (t : Ty) (b j : Nat) (x : DWord) : Int :=
  let n := x.toNat / 2 ^ (b * j) % 2 ^ b
  if t = .i32 ∧ 2 ^ (b - 1) ≤ n then (n : Int) - 2 ^ b else n
/-- Width of a type in bits (R116). -/
def bitsOf (t : Ty) : Nat := if t = .b64 ∨ t = .i64 then 64 else 32
/-- Registers of a type of one or two. -/
def regsOf (t : Ty) : Nat := if t = .b64 ∨ t = .i64 ∨ t = .n64 then 2 else 1
/-- The low `w` bits of a value as a number. -/
def lowBits (w : Nat) (x : DWord) : Nat := x.toNat % 2 ^ w

/-- A format R word as a rule describes it: fields, registers of D, A, B and C, and D from A, B, C and the old D. -/
structure RRow where
  w  : FR
  nd : Nat
  na : Nat
  nb : Nat
  nc : Nat
  f  : DWord → DWord → DWord → DWord → DWord

/-- The words of R113, and the integer dot products of R129. -/
def arith : Instr → Option RRow
  | .add w => some ⟨w, 1, 1, 1, 0, fun a b _ _ => fit w.ty (w.subf.getLsbD 0) (val w.ty a + val w.ty b)⟩
  | .sub w => some ⟨w, 1, 1, 1, 0, fun a b _ _ => fit w.ty (w.subf.getLsbD 0) (val w.ty a - val w.ty b)⟩
  | .mulLo w => some ⟨w, 1, 1, 1, 0, fun a b _ _ => low32 (val w.ty a * val w.ty b)⟩
  | .mulHi w => some ⟨w, 1, 1, 1, 0, fun a b _ _ => low32 (val w.ty a * val w.ty b / 2 ^ 32)⟩
  | .mad w => some ⟨w, 1, 1, 1, 1, fun a b c _ => low32 (val w.ty a * val w.ty b + val w.ty c)⟩
  | .min w => some ⟨w, 1, 1, 1, 0, fun a b _ _ => low32 (min (val w.ty a) (val w.ty b))⟩
  | .max w => some ⟨w, 1, 1, 1, 0, fun a b _ _ => low32 (max (val w.ty a) (val w.ty b))⟩
  | .abs w => some ⟨w, 1, 1, 0, 0, fun a _ _ _ => fit .i32 (w.subf.getLsbD 0) (val .i32 a).natAbs⟩
  | .neg w => some ⟨w, 1, 1, 0, 0, fun a _ _ _ => fit .i32 (w.subf.getLsbD 0) (-val .i32 a)⟩
  | .addI64 w => some ⟨w, 2, 2, 2, 0, fun a b _ _ => BitVec.ofNat 64 (a.toNat + b.toNat)⟩
  | .subI64 w => some ⟨w, 2, 2, 2, 0, fun a b _ _ => BitVec.ofInt 64 ((a.toNat : Int) - b.toNat)⟩
  | .mulWide w => some ⟨w, 2, 1, 1, 0, fun a b _ _ => BitVec.ofInt 64 (val w.ty a * val w.ty b)⟩
  | .lea w => some ⟨w, 2, 2, 1, 0, fun a b _ _ =>
      BitVec.ofInt 64 ((a.toNat : Int) + val .i32 b * 2 ^ (w.subf.extractLsb' 0 2).toNat)⟩
  | .dot4 w => if w.ty = .i32 ∨ w.ty = .n32 then some ⟨w, 1, 1, 1, 1, fun a b c _ =>
      fit w.ty (w.subf.getLsbD 0) (val w.ty c + ((List.range 4).map fun j => part w.ty 8 j a * part w.ty 8 j b).sum)⟩ else none
  | .dot2 w => if w.ty = .i32 then some ⟨w, 1, 1, 1, 1, fun a b c _ =>
      fit w.ty (w.subf.getLsbD 0) (val w.ty c + ((List.range 2).map fun j => part w.ty 16 j a * part w.ty 16 j b).sum)⟩ else none
  | .clamp w => some ⟨w, 1, 1, 1, 1, fun a b c _ => low32 (min (max (val w.ty a) (val w.ty b)) (val w.ty c))⟩
  | _ => none

/-- Quotient and remainder of R114. -/
def quotRem (t : Ty) (a b : DWord) : Int × Int :=
  let x := val t a
  let y := val t b
  if y = 0 then (0, x) else if t = .i32 ∧ x = -2 ^ 31 ∧ y = -1 then (-2 ^ 31, 0) else (x.tdiv y, x - x.tdiv y * y)

/-- The number whose bits below `w` are `p`. -/
def ofBits (w : Nat) (p : Nat → Bool) : DWord := BitVec.ofNat 64 ((List.range w).map fun i => if p i then 2 ^ i else 0).sum

/-- The words of R116 but the shifts. -/
def logic : Instr → Option RRow
  | .and w => some ⟨w, regsOf w.ty, regsOf w.ty, regsOf w.ty, 0, fun a b _ _ => ofBits 64 fun i => a.getLsbD i && b.getLsbD i⟩
  | .or w => some ⟨w, regsOf w.ty, regsOf w.ty, regsOf w.ty, 0, fun a b _ _ => ofBits 64 fun i => a.getLsbD i || b.getLsbD i⟩
  | .xor w => some ⟨w, regsOf w.ty, regsOf w.ty, regsOf w.ty, 0, fun a b _ _ => ofBits 64 fun i => a.getLsbD i ^^ b.getLsbD i⟩
  | .andn w => some ⟨w, regsOf w.ty, regsOf w.ty, regsOf w.ty, 0, fun a b _ _ => ofBits 64 fun i => a.getLsbD i && !b.getLsbD i⟩
  | .not w => some ⟨w, regsOf w.ty, regsOf w.ty, 0, 0, fun a _ _ _ => ofBits 64 fun i => !a.getLsbD i⟩
  | .clz w => some ⟨w, 1, regsOf w.ty, 0, 0, fun a _ _ _ =>
      BitVec.ofNat 64 ((List.range (bitsOf w.ty)).countP fun i => lowBits (bitsOf w.ty) a < 2 ^ i)⟩
  | .popc w => some ⟨w, 1, regsOf w.ty, 0, 0, fun a _ _ _ =>
      BitVec.ofNat 64 ((List.range (bitsOf w.ty)).countP fun i => a.getLsbD i)⟩
  | .brev w => some ⟨w, regsOf w.ty, regsOf w.ty, 0, 0, fun a _ _ _ =>
      ofBits (bitsOf w.ty) fun i => a.getLsbD (bitsOf w.ty - 1 - i)⟩
  | _ => none
/-- The shifts of R116: A by a count. -/
def shiftBy : Instr → Option (FR × (DWord → Nat → DWord))
  | .shl w => some (w, fun a c => BitVec.ofNat 64 (lowBits (bitsOf w.ty) a * 2 ^ c % 2 ^ bitsOf w.ty))
  | .shr w => some (w, fun a c => BitVec.ofNat 64 (lowBits (bitsOf w.ty) a / 2 ^ c))
  | .sar w => some (w, fun a c =>
      if w.ty = .i64 then BitVec.ofInt 64 (wide .i64 a / 2 ^ c) else low32 (val .i32 a / 2 ^ c))
  | .rotl w => some (w, fun a c => ofBits (bitsOf w.ty) fun i => a.getLsbD ((i + bitsOf w.ty - c % bitsOf w.ty) % bitsOf w.ty))
  | _ => none

/-- Position and length of a control word of R117. -/
def fieldPos (x : DWord) : Nat := x.toNat % 256
def fieldLen (x : DWord) : Nat := min (x.toNat / 256 % 256) 32
/-- Width of a packed field, and the index that SUBF gives (R131). -/
def packBits (t : Ty) : Nat := if t = .b16 then 16 else if t = .b8 then 8 else 4
def packAt (w : FR) : Nat := w.subf.toNat % 8 * packBits w.ty
/-- The words of R117 and R131. -/
def bitsRow : Instr → Option RRow
  | .bfx w => some ⟨w, 1, 1, 1, 0, fun a b _ _ =>
      ofBits 32 fun i =>
        let j := if i < fieldLen b then i else fieldLen b - 1
        decide (0 < fieldLen b) && (decide (i < fieldLen b) || w.ty = .i32) &&
          (if fieldPos b + j < 32 then a.getLsbD (fieldPos b + j) else w.ty = .i32 && a.getLsbD 31)⟩
  | .bfi w => some ⟨w, 1, 1, 1, 1, fun a b c _ =>
      ofBits 32 fun i =>
        if fieldPos c ≤ i ∧ i < fieldPos c + fieldLen c then b.getLsbD (i - fieldPos c) else a.getLsbD i⟩
  | .pack w =>
    if w.ty = .b16 then some ⟨w, 1, 1, 1, 0, fun a b _ _ => ofBits 32 fun i => if i < 16 then a.getLsbD i else b.getLsbD (i - 16)⟩
    else some ⟨w, 1, 1, 0, 0, fun a _ _ d =>
      ofBits 32 fun i => if packAt w ≤ i ∧ i < packAt w + packBits w.ty then a.getLsbD (i - packAt w) else d.getLsbD i⟩
  | .unpack w => some ⟨w, 1, 1, 0, 0, fun a _ _ _ =>
      ofBits 32 fun i =>
        if i < packBits w.ty then a.getLsbD (packAt w + i)
        else w.subf.getLsbD 3 && a.getLsbD (packAt w + packBits w.ty - 1)⟩
  | _ => none

/-- The format I words of R115 but `cmpi`: fields, registers of A, and D from A. -/
def imm : Instr → Option (FI × Nat × (Word → Word))
  | .addi w => some (w, 1, fun a => BitVec.ofInt 32 ((a.toNat : Int) + w.imm.toNat))
  | .andi w => some (w, 1, fun a => a &&& w.imm)
  | .ori w => some (w, 1, fun a => a ||| w.imm)
  | .xori w => some (w, 1, fun a => a ^^^ w.imm)
  | .movi w => some (w, 0, fun _ => w.imm)
  | .fmovi w => some (w, 0, fun _ => w.imm)
  | _ => none

/-- Registers of an operand of `mov` (R118). -/
def movRegs (t : Ty) : Nat := if t = .b128 then 4 else regsOf t

/-- The relation that a condition code names (R119). -/
def rel (cc : Nat) (x y : Int) : Bool :=
  [decide (x = y), decide (x ≠ y), decide (x < y), decide (x ≤ y), decide (x > y), decide (x ≥ y)].getD cc false
/-- The result of `cmp` for an issuer (R119). -/
def cmpBit (e : Env) (w : FR) (l : Option Nat) : Bool :=
  if w.ty = .i64 ∨ w.ty = .n64 then
    rel (w.subf.toNat % 8) (wide w.ty (e.opnd l 2 w.a.toNat)) (wide w.ty (e.opnd l 2 w.b.toNat))
  else rel (w.subf.toNat % 8) (val w.ty (e.opnd l 1 w.a.toNat)) (val w.ty (e.opnd l 1 w.b.toNat))
/-- The immediate of `cmpi`: 29 bits, signed (R115). -/
def cmpImm (w : FI) : Int := if 2 ^ 28 ≤ w.imm.toNat % 2 ^ 29 then (w.imm.toNat % 2 ^ 29 : Nat) - 2 ^ 29 else (w.imm.toNat % 2 ^ 29 : Nat)
/-- The result of `cmpi` for an issuer (R119). -/
def cmpiBit (e : Env) (w : FI) (l : Option Nat) : Bool :=
  let a := e.opnd l 1 w.a.toNat
  match w.imm.toNat / 2 ^ 29 with
  | 6 => val .n32 a < cmpImm w % 2 ^ 32
  | 7 => val .n32 a ≥ cmpImm w % 2 ^ 32
  | cc => rel cc (val .i32 a) (cmpImm w)

/-! ### Floating point -/

/-- A format R word whose values come with conditions (R98). -/
structure FRow where
  w  : FR
  nd : Nat
  na : Nat
  nb : Nat
  nc : Nat
  f  : DWord → DWord → DWord → DWord → DWord × Cond

/-- FP32 arithmetic (R120, R121, R124): an operation on exact values, then one rounding to FP32. -/
def fp32Row : Instr → Option FRow
  | .fadd w => some ⟨w, 1, 1, 1, 0, fun a b _ _ => fp32Op w.rm w.ftz (FV.add w.rm (rd32 w.ftz a) (rd32 w.ftz b))⟩
  | .fsub w => some ⟨w, 1, 1, 1, 0, fun a b _ _ => fp32Op w.rm w.ftz (FV.add w.rm (rd32 w.ftz a) (rd32 w.ftz b).flip)⟩
  | .fmul w => some ⟨w, 1, 1, 1, 0, fun a b _ _ => fp32Op w.rm w.ftz (FV.mul (rd32 w.ftz a) (rd32 w.ftz b))⟩
  | .fma w => some ⟨w, 1, 1, 1, 1, fun a b c _ =>
      fp32Op w.rm w.ftz (FV.fma w.rm (rd32 w.ftz a) (rd32 w.ftz b) (rd32 w.ftz c))⟩
  | .fdiv w => some ⟨w, 1, 1, 1, 0, fun a b _ _ => fp32Op w.rm w.ftz (FV.div (rd32 w.ftz a) (rd32 w.ftz b))⟩
  | .fsqrt w => some ⟨w, 1, 1, 0, 0, fun a _ _ _ => fp32Op w.rm w.ftz (FV.sqrt (rd32 w.ftz a))⟩
  | .fmin w => some ⟨w, 1, 1, 1, 0, fun a b _ _ => fp32Op .rne false (FV.minMax true (w.subf.getLsbD 0) (rd32 w.ftz a) (rd32 w.ftz b))⟩
  | .fmax w => some ⟨w, 1, 1, 1, 0, fun a b _ _ => fp32Op .rne false (FV.minMax false (w.subf.getLsbD 0) (rd32 w.ftz a) (rd32 w.ftz b))⟩
  | .fabs w => some ⟨w, 1, 1, 0, 0, fun a _ _ _ => absNeg false w.ftz a⟩
  | .fneg w => some ⟨w, 1, 1, 0, 0, fun a _ _ _ => absNeg true w.ftz a⟩
  | .fround w => some ⟨w, 1, 1, 0, 0, fun a _ _ _ =>
      let r := (rd32 w.ftz a).integral w.rm
      fp32Op .rne false (r.1, (if (rd32 w.ftz a).sig then Cond.nv else 0) ||| if w.subf.getLsbD 0 && r.2 then Cond.nx else 0)⟩
  | _ => none
/-- Packed halves and dot products of fractions (R128, R129), approximate functions (R125), conversions (R130). -/
def floatRow : Instr → Option FRow
  | .hadd2 w => some ⟨w, 1, 1, 1, 0, fun a b _ _ => halves (Ty.fmt w.ty) w.rm w.ftz (fun x y _ => FV.add w.rm x y) a b 0⟩
  | .hmul2 w => some ⟨w, 1, 1, 1, 0, fun a b _ _ => halves (Ty.fmt w.ty) w.rm w.ftz (fun x y _ => FV.mul x y) a b 0⟩
  | .hfma2 w => some ⟨w, 1, 1, 1, 1, fun a b c _ => halves (Ty.fmt w.ty) w.rm w.ftz (fun x y z => FV.fma w.rm x y z) a b c⟩
  | .dot4 w => if w.ty = .i32 ∨ w.ty = .n32 then none else some ⟨w, 1, 1, 1, 1, fun a b c _ => dotFloat w 8 4 a b c⟩
  | .dot2 w => if w.ty = .i32 then none else some ⟨w, 1, 1, 1, 1, fun a b c _ => dotFloat w 16 2 a b c⟩
  | .frcp w => some ⟨w, 1, 1, 0, 0, fun a _ _ _ => approxRcp w.ftz a⟩
  | .frsq w => some ⟨w, 1, 1, 0, 0, fun a _ _ _ => approxRsq w.ftz a⟩
  | .fexp2 w => some ⟨w, 1, 1, 0, 0, fun a _ _ _ => approxExp2 w.ftz a⟩
  | .flog2 w => some ⟨w, 1, 1, 0, 0, fun a _ _ _ => approxLog2 w.ftz a⟩
  | .ftanh w => some ⟨w, 1, 1, 0, 0, fun a _ _ _ => approxTanh w.ftz a⟩
  | .fsin w => some ⟨w, 1, 1, 0, 0, fun a _ _ _ => approxTrig false w.ftz a⟩
  | .fcos w => some ⟨w, 1, 1, 0, 0, fun a _ _ _ => approxTrig true w.ftz a⟩
  | .cvtF w => some ⟨w, 1, 1, 0, 0, fun a _ _ _ =>
      let r := cvtFloat (Ty.fmt w.ty) (Ty.fmt (srcTy w)) w.rm w.ftz (w.subf.getLsbD 5) (a.toNat % 2 ^ ((Ty.fmt (srcTy w)).signAt + 1))
      (BitVec.ofNat 64 r.1, r.2)⟩
  | .cvtFi w => some ⟨w, regsOf w.ty, 1, 0, 0, fun a _ _ _ => cvtToInt w.ty (Ty.fmt (srcTy w)) w.rm w.ftz a⟩
  | .cvtIf w => some ⟨w, 1, regsOf (srcTy w), 0, 0, fun a _ _ _ => cvtOfInt (Ty.fmt w.ty) (srcTy w) w.rm w.ftz a⟩
  | .cvtSr w => some ⟨w, 1, 1, 1, 0, fun a b _ _ =>
      let r := cvtStoch (Ty.fmt w.ty) w.ftz (w.subf.getLsbD 5) (lowBits 32 a) (lowBits 16 b)
      (BitVec.ofNat 64 r.1, r.2)⟩
  | _ => none
/-- Every word with conditions but `div`, `rem`, `fcmp` and the lane operations. -/
def condRow (i : Instr) : Option FRow := (fp32Row i).or (floatRow i)

/-- Exponent and fraction bits of a format (R87, R89, R90). -/
def expBits (t : Ty) : Nat := if t = .e4m3 then 4 else if t = .f16 ∨ t = .e5m2 then 5 else if t = .e2m1 then 2 else 8
def fracBits (t : Ty) : Nat :=
  if t = .f32 then 23 else if t = .f16 then 10 else if t = .bf16 then 7 else if t = .e4m3 then 3 else if t = .e2m1 then 1 else 2
/-- The bias of a format, its highest exponent field of normal numbers and its default NaN (R87, R89, R90). -/
def bias (t : Ty) : Nat := 2 ^ (expBits t - 1) - 1
def topField (t : Ty) : Nat := if t = .e4m3 ∨ t = .e2m1 then 2 ^ expBits t - 1 else 2 ^ expBits t - 2
def defaultNan (t : Ty) : Nat :=
  if t = .f32 then 0x7FC00000 else if t = .f16 then 0x7E00 else if t = .bf16 then 0x7FC0 else if t = .e4m3 then 0x7F else 0x7E
/-- The sign, exponent field and fraction of a pattern. -/
def signOf (t : Ty) (a : DWord) : Nat := if a.getLsbD (fracBits t + expBits t) then 1 else 0
def expOf (t : Ty) (a : DWord) : Nat := a.toNat / 2 ^ fracBits t % 2 ^ expBits t
def fracOf (t : Ty) (a : DWord) : Nat := a.toNat % 2 ^ fracBits t
/-- A normal number (R88-R90). -/
def normalIn (t : Ty) (e f : Nat) : Prop := 1 ≤ e ∧ e ≤ topField t ∧ (t = .e4m3 → e = 15 → f ≠ 7)
/-- A pattern from its fields. -/
def pattern (t : Ty) (s e f : Nat) : DWord := BitVec.ofNat 64 (2 ^ (fracBits t + expBits t) * s + 2 ^ fracBits t * e + f)
/-- The infinity of a sign in a format that has one (R87, R89). -/
def infinity (t : Ty) (s : Nat) : DWord := pattern t s (2 ^ expBits t - 1) 0
/-- What an exact value out of every range leaves in a format: under a rounding mode (R91), and in the modes of R95. -/
def beyond (t : Ty) (rm : RM) (sat : Bool) (s : Nat) : DWord :=
  if t = .e2m1 then pattern t s 3 1
  else if t = .e4m3 then if sat then pattern t s 15 6 else 0x7F
  else if rm = .rne ∨ (rm = .ru ∧ s = 0) ∨ (rm = .rd ∧ s = 1) then infinity t s
  else pattern t s (2 ^ expBits t - 2) (2 ^ fracBits t - 1)
/-- The bit that `fclass` sets (R88, R89, R123). -/
def classBit (t : Ty) (x : DWord) : Nat :=
  let e := x.toNat / 2 ^ fracBits t % 2 ^ expBits t
  let f := x.toNat % 2 ^ fracBits t
  let neg := x.getLsbD (fracBits t + expBits t)
  if e = 0 ∧ f = 0 then if neg then 3 else 4
  else if e = 0 then if neg then 2 else 5
  else if t = .e4m3 then if e = 15 ∧ f = 7 then 9 else if neg then 1 else 6
  else if e < 2 ^ expBits t - 1 then if neg then 1 else 6
  else if f = 0 then if neg then 0 else 7
  else if t = .e5m2 ∨ 2 ^ (fracBits t - 1) ≤ f then 9 else 8
/-- FP32 patterns (R87, R88). -/
def nan32 (x : DWord) : Bool := classBit .f32 x = 8 || classBit .f32 x = 9
def signal32 (x : DWord) : Bool := classBit .f32 x = 8

/-! ### Lane operations -/

/-- The active strands of a word, ascending (R63). -/
def act (e : Env) (c : Com) : List Nat := strandsOf (e.sh.active c.gsel c.neg)
/-- Register `n` of strand `j`, and what it holds (R132). -/
def vreg (e : Env) (n j : Nat) : RegKey := .v (e.sh.resolve n) j
def vval (e : Env) (n j : Nat) : Word := e.sh.read e.fr (vreg e n j)
/-- An outstanding long-latency word with its destinations and the values already known (R58). -/
def held (s : State) (e : Env) (fs : Bool) (outs : List (RegKey × Option Word)) (noise : Bool) : LL :=
  { id := s.next, flag := e.sh.flagOf fs, left := 0, outs := outs.map fun o => ⟨o.1, o.2, false⟩, noise }
/-- The mask whose bit `j` is `p j`. -/
def bits96 (p : Nat → Bool) : Mask := BitVec.ofNat 96 ((List.range 96).map fun j => if p j then 2 ^ j else 0).sum
/-- A sheet with a mask register set. -/
def putK (d : BitVec 8) (p : Nat → Bool) (sh : Sheet) : Sheet := { sh with k := sh.k.set 0 d.toNat (bits96 p) }

/-- The shuffles of R132: the strand that is read, from its base, the segment width, its place and B. -/
def shuffleFrom : Instr → Option (FR × (Nat → Nat → Int))
  | .shflIdx w => some (w, fun _ b => b)
  | .shflXor w => some (w, fun o b => (o ^^^ b : Nat))
  | .shflUp w => some (w, fun o b => (o : Int) - b)
  | .shflDown w => some (w, fun o b => (o : Int) + b)
  | _ => none
/-- Segment width (R132). -/
def span (w : FR) : Nat := [96, 32, 16, 8, 4, 2].getD (w.subf.toNat % 8) 96
/-- What strand `j` of a shuffle receives (R132). -/
def shuffled (e : Env) (w : FR) (t : Nat → Nat → Int) (j : Nat) : Word :=
  let o := j % span w
  let x := t o (vval e w.b.toNat j).toNat
  if w.subf.getLsbD 3 then vval e w.a.toNat (j - o + (x % span w).toNat)
  else if 0 ≤ x ∧ x < span w then vval e w.a.toNat (j - o + x.toNat)
  else if w.subf.getLsbD 4 then vval e w.c.toNat j
  else vval e w.a.toNat j

/-- The predicate of a strand of `vote`, and bit `j` of its mask (R133). -/
def votes (e : Env) (w : FR) (j : Nat) : Bool :=
  if w.subf.getLsbD 2 then (vval e w.a.toNat j).getLsbD 31 else vval e w.a.toNat j ≠ 0
def voteBit (e : Env) (w : FR) (j : Nat) : Bool :=
  match w.subf.toNat % 4 with
  | 0 => (act e w.com).contains j && votes e w j
  | 1 => (act e w.com).any (votes e w)
  | 2 => (act e w.com).all (votes e w)
  | _ => (act e w.com).contains j && ((act e w.com).head?).any fun l => vval e w.a.toNat j = vval e w.a.toNat l
/-- Bit `j` of a mask operation (R136). -/
def kopBit (e : Env) (w : FR) (j : Nat) : Bool :=
  let a := (e.sh.k.get 0 w.a.toNat).getLsbD j
  let b := (e.sh.k.get 0 w.b.toNat).getLsbD j
  [a && b, a || b, a ^^ b, a && !b, !a, a, true, false].getD (w.subf.toNat % 8) false

/-- The value of active strands `xs` under the operation of a `scan` or `lred`, from its identity on (R134). -/
def reduced (e : Env) (w : FR) (xs : List Nat) : Word :=
  xs.foldl (fun x j => (scanStep (w.subf.toNat % 8) w.ty (w.subf.getLsbD 4) x (vval e w.a.toNat j)).1)
    (scanId (w.subf.toNat % 8) w.ty)
/-- The condition of strand `j`'s step of a `scan` (R134). -/
def scanCond (e : Env) (w : FR) (j : Nat) : Cond :=
  (scanStep (w.subf.toNat % 8) w.ty (w.subf.getLsbD 4) (reduced e w ((act e w.com).filter (· < j))) (vval e w.a.toNat j)).2
/-- Two sums of the tree of R135 added, with the conditions. -/
def joined (x y : Word × Cond) : Word × Cond :=
  let r := scanStep 0 .f32 false x.1 y.1
  (r.1, x.2 ||| y.2 ||| r.2)
/-- The sum of `2^n` leaves from leaf `b` on (R135). -/
def treeFrom (x : Nat → Word) : Nat → Nat → Word × Cond
  | 0, b => (x b, 0)
  | n + 1, b => joined (treeFrom x n b) (treeFrom x n (b + 2 ^ n))
/-- What `lred` gives, with its conditions (R135): only an inactive strand contributes the identity. -/
def lredOf (e : Env) (w : FR) : Word × Cond :=
  if w.subf.toNat % 8 = 0 ∧ w.ty = .f32 then
    let x := fun j => if (act e w.com).contains j then vval e w.a.toNat j else 0x80000000
    joined (joined (treeFrom x 5 0) (treeFrom x 5 32)) (treeFrom x 5 64)
  else
    let op := fun (x : Word × Cond) (j : Nat) =>
      let r := scanStep (w.subf.toNat % 8) w.ty (w.subf.getLsbD 4) x.1 (vval e w.a.toNat j)
      (r.1, x.2 ||| r.2)
    if (act e w.com).length = 96 then ((act e w.com).drop 1).foldl op (vval e w.a.toNat 0, 0)
    else (act e w.com).foldl op (scanId (w.subf.toNat % 8) w.ty, 0)

/-- A full instruction as a paired word means it (R75, R76, R143). -/
def plain (t : Ty) (rm : RM) (subf : BitVec 9) : FR :=
  { com := ⟨false, 0, false, false⟩, d := 0, a := 0, b := 0, c := 0, ty := t, rm, ftz := false, subf }
/-- The full instruction of an X sub-op (R75). -/
def xFull : Nat → Option FRow
  | 1 => fp32Row (.fadd (plain .f32 .rne 0))
  | 2 => fp32Row (.fsub (plain .f32 .rne 0))
  | 3 => fp32Row (.fmul (plain .f32 .rne 0))
  | 4 => fp32Row (.fma (plain .f32 .rne 0))
  | 5 => fp32Row (.fmin (plain .f32 .rne 0))
  | 6 => fp32Row (.fmax (plain .f32 .rne 0))
  | 7 => fp32Row (.fmin (plain .f32 .rne 1))
  | 8 => fp32Row (.fmax (plain .f32 .rne 1))
  | 9 => fp32Row (.fabs (plain .f32 .rne 0))
  | 10 => fp32Row (.fneg (plain .f32 .rne 0))
  | 11 => floatRow (.hadd2 (plain .bf16 .rne 0))
  | 12 => floatRow (.hmul2 (plain .bf16 .rne 0))
  | 13 => floatRow (.hfma2 (plain .bf16 .rne 0))
  | 14 => floatRow (.hadd2 (plain .f16 .rne 0))
  | 15 => floatRow (.hmul2 (plain .f16 .rne 0))
  | 16 => floatRow (.hfma2 (plain .f16 .rne 0))
  | _ => none
/-- The full instruction of a Y sub-op without conditions (R76). -/
def yFull : Nat → Option (DWord → DWord → DWord)
  | 1 => (arith (.add (plain .i32 .rne 0))).map fun x a b => x.f a b 0 0
  | 2 => (arith (.sub (plain .i32 .rne 0))).map fun x a b => x.f a b 0 0
  | 3 => (arith (.mulLo (plain .i32 .rne 0))).map fun x a b => x.f a b 0 0
  | 4 => (arith (.min (plain .i32 .rne 0))).map fun x a b => x.f a b 0 0
  | 5 => (arith (.max (plain .i32 .rne 0))).map fun x a b => x.f a b 0 0
  | 6 => (arith (.min (plain .n32 .rne 0))).map fun x a b => x.f a b 0 0
  | 7 => (arith (.max (plain .n32 .rne 0))).map fun x a b => x.f a b 0 0
  | 8 => (logic (.and (plain .b32 .rne 0))).map fun x a b => x.f a b 0 0
  | 9 => (logic (.or (plain .b32 .rne 0))).map fun x a b => x.f a b 0 0
  | 10 => (logic (.xor (plain .b32 .rne 0))).map fun x a b => x.f a b 0 0
  | 11 => (logic (.andn (plain .b32 .rne 0))).map fun x a b => x.f a b 0 0
  | 12 => (shiftBy (.shl (plain .b32 .rne 0))).map fun x a b => x.2 a b.toNat
  | 13 => (shiftBy (.shr (plain .b32 .rne 0))).map fun x a b => x.2 a b.toNat
  | 14 => (shiftBy (.sar (plain .i32 .rne 0))).map fun x a b => x.2 a b.toNat
  | 15 => (shiftBy (.rotl (plain .b32 .rne 0))).map fun x a b => x.2 a b.toNat
  | 16 => some fun a _ => a
  | 17 => (logic (.not (plain .b32 .rne 0))).map fun x a b => x.f a b 0 0
  | 18 => (logic (.popc (plain .b32 .rne 0))).map fun x a b => x.f a b 0 0
  | 19 => (logic (.clz (plain .b32 .rne 0))).map fun x a b => x.f a b 0 0
  | _ => none
/-- What the op X gives strand `j`, with its conditions; nothing when it is `nop`. -/
def xResult (e : Env) (o : POp) (j : Nat) : Option (Word × Cond) :=
  let v := fun (n : BitVec 7) => (vval e n.toNat j).setWidth 64
  (xFull o.sub.toNat).map fun x =>
    let r := x.f (v o.a) (v o.b) (v o.d) (v o.d)
    (loWord r.1, r.2)
/-- What the op Y gives strand `j`, with its conditions; nothing when it is `nop`. -/
def yResult (e : Env) (o : POp) (j : Nat) : Option (Word × Cond) :=
  let v := fun (n : BitVec 7) => (vval e n.toNat j).setWidth 64
  let from_ := fun (k : Nat) => if k < 96 then vval e o.a.toNat k else vval e o.a.toNat j
  match o.sub.toNat with
  | 0x14 => (floatRow (.cvtIf (plain .f32 .rne 0))).map fun x => let r := x.f (v o.a) 0 0 0; (loWord r.1, r.2)
  | 0x15 => (floatRow (.cvtFi (plain .i32 .rz 4))).map fun x => let r := x.f (v o.a) 0 0 0; (loWord r.1, r.2)
  | 0x16 => some (from_ (vval e o.b.toNat j).toNat, 0)
  | 0x17 => some (from_ (j ^^^ (vval e o.b.toNat j).toNat), 0)
  | 0x18 => some (BitVec.ofNat 32 j, 0)
  | n => (yFull n).map fun f => (loWord (f (v o.a) (v o.b)), 0)

/-- The conditions that a word raises (R98, R100, R122, R134, R135, R143): of its strands, 127 standing for a uniform word and for
`lred`; none where the issue checks of its V operands (R81) do not pass. -/
def raises (e : Env) : Instr → Option (List (Nat × Cond))
  | .fcmp w =>
    let cc := w.subf.toNat % 8
    if e.sh.vOk (vsOf w.com [(w.a.toNat, 1), (w.b.toNat, 1)]) then
      some ((e.lanes w.com).map fun l =>
        let a := e.opnd l 1 w.a.toNat
        let b := e.opnd l 1 w.b.toNat
        (laneNo l, if (if 2 ≤ cc ∧ cc ≤ 5 then nan32 a || nan32 b else signal32 a || signal32 b) then Cond.nv else 0))
    else none
  | .scan w =>
    if e.sh.vOk [(w.d.toNat, 1), (w.a.toNat, 1)] then some ((act e w.com).map fun j => (j, scanCond e w j)) else none
  | .lred w =>
    if e.sh.vOk [(w.d.toNat, 1), (w.a.toNat, 1)] then some (if act e w.com = [] then [] else [(127, (lredOf e w).2)]) else none
  | .pairedWord w =>
    if [w.x.d, w.x.a, w.x.b, w.y.d, w.y.a, w.y.b].all fun n => e.sh.vOk [(n.toNat, 1)] then
      some ((strandsOf (e.sh.active w.pg false)).map fun j =>
        (j, (((xResult e w.x j).map (·.2)).getD 0) ||| (((yResult e w.y j).map (·.2)).getD 0)))
    else none
  | i =>
    (condRow i).bind fun x =>
      if e.sh.vOk (aluVs x.w x.nd x.na x.nb x.nc) then
        some (aluConds e x.w x.nd x.na x.nb x.nc fun a b c d => (x.f a b c d).2)
      else none

/-! ### Words that change more than registers -/

/-- The sheet after the word in issue, its place apart. -/
def past (s : State) (e : Env) (sh : Sheet) : Sheet := sh.advance (s.cycles e.q.core)
/-- A word did what `Changes` says and the sheet went on; the record of what fetches need not see yet (R85) may change. -/
def Goes (s t : State) (e : Env) (ws : List (RegKey × Word)) (f : Sheet → Sheet) (n : Nat) : Prop :=
  Changes s t e ws (fun sh => past s e (f sh)) ∧ t.next = s.next + n ∧ t.cur = if (past s e (f e.sh)).idx = 0 then none else s.cur
/-- A word left everything as it was but its sheet's wait: it issues again when the wait ends (R43). -/
def Stalls (s t : State) (e : Env) (w : Wait) : Prop :=
  Changes s t e [] (fun sh => { sh with wait := w }) ∧ t.next = s.next ∧ t.stores = s.stores ∧ t.cur = none
/-- A word moved its sheet without a transfer, and the lane block chooses anew (R292). -/
def Moves (s t : State) (e : Env) (f : Sheet → Sheet) : Prop :=
  Changes s t e [] f ∧ t.next = s.next ∧ t.stores = s.stores ∧ t.cur = none

/-- The quires after a word: other quires are as before; the word's own quire apart from what `forget` names; its other
sheets as `others` says apart from their view of the Q registers; its own sheet as `f` says with `ws` written. -/
structure Own (s t : State) (e : Env) (forget : Quire → Quire) (others : Sheet → Sheet) (ws : List (RegKey × Word))
    (f : Sheet → Sheet) : Prop where
  quires : ∀ h, h ≠ e.r.h → t.quires.find h = s.quires.find h
  quire  : ∃ q, t.quires.find e.r.h = some q ∧ (forget q).apart = (forget e.q).apart ∧
    (∀ n, q.q.get 0 n =
      match lastWrite ws (.q n) with
      | some w => landed e.q e.r.k (s.cycles e.q.core) (.q n) w
      | none => e.q.q.get 0 n) ∧
    (∀ k, k ≠ e.r.k → (q.sheets.find k).map Sheet.lessQ = ((e.q.sheets.find k).map others).map Sheet.lessQ) ∧
    ∃ sh, q.sheets.find e.r.k = some sh ∧ sh.apart = (f e.sh).apart ∧
      ∀ key, key.real → sh.raw key =
        match lastWrite ws key with
        | some w => landed e.q e.r.k (s.cycles e.q.core) key w
        | none => (f e.sh).raw key

/-- The module apart from its quires is as before, and every byte of memory. -/
def Rest (s t : State) : Prop :=
  t.apart = s.apart ∧ (∀ n, (t.core n).apart = (s.core n).apart) ∧ ∀ a, t.readByte a = s.readByte a

/-! ### Control -/

/-- A header stands at `a`, and the sheet can fetch it (R56): for a transfer in the state in which its fetches return what it has
acquired (R85). -/
def HeaderAt (s : State) (e : Env) (a h : DWord) : Prop :=
  canonical a = true ∧ a.toNat % 8 = 0 ∧ s.fetch e.r e.q.core e.q.ctx a = .word h ∧ isHeader h = true
/-- A transfer of the sheet finds a header at `a` (R56, R85). -/
def TargetAt (s : State) (e : Env) (a h : DWord) : Prop := HeaderAt (s.refetch e.r) e a h
/-- A target within the innermost of `ldep` open levels (R199). -/
def Within (e : Env) (ldep : Nat) (a : DWord) : Prop :=
  ldep = 0 ∨ ((e.sh.slotAt (e.sh.fbase + ldep - 1)).beg ≤ a ∧ a ≤ (e.sh.slotAt (e.sh.fbase + ldep - 1)).fin)
/-- Condition of `brc` on an S register (R186). -/
def brcTaken (cc : Nat) (x : Word) : Bool :=
  let v := val .i32 (x.setWidth 64)
  ([decide (v = 0), decide (v ≠ 0), decide (v < 0), decide (v ≥ 0), decide (v > 0), decide (v ≤ 0)] : List Bool).getD cc false
/-- Condition of `brm` on m and EXM (R186). -/
def brmTaken (mode : Nat) (m exm : Mask) : Bool :=
  ([decide (m ≠ 0), decide (m = exm), decide (m = 0), decide (m ≠ exm)] : List Bool).getD mode false
/-- The header word that the sheet in issue checks now (R49, R54): one fetched ahead, or the word at its pc, with no error. -/
def HeaderNow (s : State) (e : Env) (w : DWord) : Prop :=
  (e.sh.early = some w ∨ (e.sh.early = none ∧ e.sh.startAt ≤ s.cycles e.q.core + 1 ∧
    s.fetch e.r e.q.core e.q.ctx e.sh.pc = .word w)) ∧ s.fetchUe e.q.core e.q.ctx e.sh.pc = none
/-- The address of the header after the clause in progress. -/
def nextHeader (e : Env) : DWord := e.sh.hdrAddr + BitVec.ofNat 64 (8 * (e.sh.hdr.n.toNat + 1))
/-- The link of a call (R187). -/
def linkOf (e : Env) : DWord :=
  BitVec.ofNat 64 (2 ^ 56 * (e.sh.fbase % 8) + (nextHeader e).toNat % 2 ^ 56 / 8 * 8 + e.sh.ldep % 8)
/-- LSTG of every strand. -/
def stages (p : Nat → BitVec 8) : Tab (BitVec 8) := ((List.range 96).filter fun j => p j ≠ 0).map fun j => (j, p j)
/-- The sheet with `n` levels closed, innermost first (R194, R197). -/
def closed (sh : Sheet) : Nat → Sheet
  | 0 => sh
  | n + 1 =>
    closed { sh with
      exm := sh.exm ||| (sh.slotAt (sh.fbase + sh.ldep - 1)).park
      ldep := sh.ldep - 1
      lstg := stages fun _ => if 1 < sh.ldep then 1 else 0 } n
/-- What a push leaves (R189). -/
def pushed (sh : Sheet) : Sheet :=
  if sh.msp < 16 then { sh with ms := sh.ms.set 0 sh.msp sh.exm, msp := sh.msp + 1 }
  else { sh with ms := (List.range 16).foldl (fun m k => m.set 0 k (if k = 15 then sh.exm else sh.ms.get 0 (k + 1))) sh.ms }
/-- PARK of R189. -/
def parked (sh : Sheet) : Mask :=
  bits96 fun j => (List.range (sh.fbase + sh.ldep)).any fun k => (sh.slotAt k).park.getLsbD j

/-- What trap entry leaves of a sheet (R210, R211); a `loop` word of the clause whose level is still to open is kept for a
return into the clause (R193, R213). -/
def entered (cause : BitVec 8) (tpc thdr taddr : DWord) (info : Word) (sh : Sheet) : Sheet :=
  { sh with
    tcause := cause.setWidth 32
    tpc := tpc
    thdr := thdr
    taddr := taddr
    tinfo := info
    tstat := BitVec.ofNat 32 (2 ^ 7 + 2 ^ 4 * (sh.fbase % 8) + sh.ldep % 8)
    fbase := sh.fbase + sh.ldep
    ldep := 0
    pc := sh.tvec
    hdrAddr := sh.tvec
    idx := 0
    pend := none
    kept := sh.pend.bind fun p => if tpc = sh.hdrAddr + BitVec.ofNat 64 (8 * p.idx) then none else some (sh.hdrAddr, p)
    held := []
    wait := .none }
/-- TVEC names a handler, and none is running (R210). -/
def Handled (s : State) (e : Env) : Prop :=
  e.sh.tstat.getLsbD 7 = false ∧ e.sh.tvec ≠ 0 ∧ ∃ h, HeaderAt s e e.sh.tvec h

/-! ### System registers -/

/-- What `rdsr` reads at an index, for the registers of the sheet and its place (R208). -/
def srContent (s : State) (e : Env) : List (Nat × Word) :=
  let n := fun x : Nat => BitVec.ofNat 32 x
  [(0x000, n (e.r.k + 16 * e.q.nsheets)), (0x001, e.q.qid), (0x002, n e.q.core), (0x003, n (e.q.core % 200 / 20 + 16 * (e.q.core % 20))),
   (0x004, n (e.q.core / 200)), (0x005, n (e.sh.lb + 8 * e.sh.slot + 64 * (8 * e.sh.lb + e.sh.slot))), (0x00C, n e.sh.alloc),
   (0x010, n (s.now / 720720)), (0x020, e.sh.sflags), (0x021, e.sh.strap), (0x030, n e.sh.ldep), (0x031, n e.sh.fbase),
   (0x032, n e.sh.msp), (0x180, e.sh.tpc.setWidth 32), (0x181, (e.sh.tpc >>> 32).setWidth 32), (0x182, e.sh.thdr.setWidth 32),
   (0x183, (e.sh.thdr >>> 32).setWidth 32), (0x184, e.sh.tcause), (0x185, e.sh.taddr.setWidth 32),
   (0x186, (e.sh.taddr >>> 32).setWidth 32), (0x187, e.sh.tinfo), (0x188, e.sh.tstat), (0x189, e.sh.tvec.setWidth 32),
   (0x18A, (e.sh.tvec >>> 32).setWidth 32), (0x800, n e.q.ctx), (0x801, n e.q.qprio)]
/-- A 64-bit register with its low or high word written. -/
def lowHalf (x : DWord) (v : Word) : DWord := BitVec.ofNat 64 (x.toNat / 2 ^ 32 * 2 ^ 32 + v.toNat)
def highHalf (x : DWord) (v : Word) : DWord := BitVec.ofNat 64 (x.toNat % 2 ^ 32 + 2 ^ 32 * v.toNat)
/-- What `wrsr` of a value writes at an index (R98, R99, R206, R208, R211): none where the value breaks a limit. -/
def srSet (v : Word) (sh : Sheet) : List (Nat × Option Sheet) :=
  [(0x001, some sh), (0x00C, some sh), (0x020, some { sh with sflags := v &&& 0x7F }), (0x021, some { sh with strap := v &&& 0x6F }),
   (0x030, if v.toNat ≤ 4 then some { sh with ldep := v.toNat } else none),
   (0x031, if v.toNat ≤ 4 then some { sh with fbase := v.toNat } else none),
   (0x032, if v.toNat ≤ 16 then some { sh with msp := v.toNat } else none),
   (0x180, some { sh with tpc := lowHalf sh.tpc v }), (0x181, some { sh with tpc := highHalf sh.tpc v }),
   (0x182, some { sh with thdr := lowHalf sh.thdr v }), (0x183, some { sh with thdr := highHalf sh.thdr v }),
   (0x184, some { sh with tcause := v &&& 0xFF }), (0x185, some { sh with taddr := lowHalf sh.taddr v }),
   (0x186, some { sh with taddr := highHalf sh.taddr v }), (0x187, some { sh with tinfo := v }),
   (0x188, some { sh with tstat := (sh.tstat &&& 0x80) ||| (v &&& 0x77) }), (0x189, some { sh with tvec := lowHalf sh.tvec v }),
   (0x18A, some { sh with tvec := highHalf sh.tvec v })]
/-- A trap of R81 at the word in issue (R82). -/
def refused (e : Env) (cause : BitVec 8) : Trap :=
  { cause, tpc := e.sh.pc, thdr := e.sh.hdrAddr, addr := e.sh.pc, info := BitVec.ofNat 32 e.sh.idx }
/-- A core or gallery lies in a SCOPE around a core (R14, R303): all of the module's do in scope 6. -/
def near (scope unit core : Nat) : Bool :=
  scope = 6 || [(3, 1), (4, 20), (5, 200)].any fun x => x.1 = scope && unit / x.2 == core / x.2
def nearGallery (scope g core : Nat) : Bool :=
  scope = 6 || [(4, 1), (5, 10)].any fun x => x.1 = scope && g / x.2 == core / 20 / x.2

/-! ### Memory -/

/-- An access of `n` bytes at `a` that passes R162 to plain memory at `pa`, with a leaf that `need` holds of. -/
def Plain (s : State) (e : Env) (need : DWord → Bool) (n : Nat) (a : DWord) (pa : Nat) : Prop :=
  canonical a = true ∧ a.toNat % n = 0 ∧ pa % n = 0 ∧ (s.region pa = .hbm ∨ s.region pa = .host) ∧ s.reach e.cx.part pa = true ∧
    ∃ x, s.tlb e.q.core e.q.ctx a = some x ∧ x.pa a = pa ∧ need x.leaf = true ∧ x.leaf.getLsbD 9 = false
/-- An access of `n` bytes at the address of a hit that passes R162 to an algebra page. -/
def Algebra (s : State) (e : Env) (need : DWord → Bool) (n : Nat) (h : Hit) : Prop :=
  canonical h.va = true ∧ h.va.toNat % n = 0 ∧ s.mayReach e.cx.part h.pa n false = true ∧ h.leaf.getLsbD 9 = true ∧
    need h.leaf = true ∧ ∃ x, s.tlb e.q.core e.q.ctx h.va = some x ∧ x.pa h.va = h.pa ∧ x.leaf = h.leaf
/-- A chamber access of `n` bytes at an offset that passes R162 and meets no scoreboard entry (R41, R146). -/
def InChamber (s : State) (e : Env) (n : Nat) (off : Int) : Prop :=
  0 ≤ off ∧ off + n ≤ 4096 * e.q.chamg ∧ off % n = 0 ∧
    ∀ b ∈ (s.core e.q.core).board, b.h ≠ e.r.h ∨ off.toNat + n ≤ b.lo ∨ b.hi ≤ off.toNat
/-- Words that `n` bytes of a memory fill (R161): zero-extended. -/
def loaded (mem : Nat → Byte) (a n : Nat) : List Word :=
  (List.range ((n + 3) / 4)).map fun i => BitVec.ofNat 32 (leNat ((List.range (min n 4)).map fun j => mem (a + 4 * i + j)))
/-- Bytes that a store takes from its registers (R161). -/
def dataOf (e : Env) (t n : Nat) (l : Option Nat) : List Byte :=
  (List.range n).map fun j => BitVec.ofNat 8 ((e.w l (t + j / 4)).toNat / 256 ^ (j % 4))
/-- The bytes that a list of stores leaves, strand by strand (R156). -/
def lastByte (ws : List (Nat × List Byte)) (old : Nat → Byte) (a : Nat) : Byte :=
  match ws.reverse.find? fun w => w.1 ≤ a && a < w.1 + w.2.length with
  | some w => (w.2[a - w.1]?).getD 0
  | none => old a
/-- The atomics of a word over its issuers in order: the memory they leave and the old values (R156, R165). -/
def atomics (f : Option Nat → DWord → Option DWord) (n : Nat) (pa : Option Nat → Nat) :
    List (Option Nat) → (Nat → Byte) → (Nat → Byte) × List DWord
  | [], m => (m, [])
  | l :: ls, m =>
    let old := BitVec.ofNat 64 (leNat ((List.range n).map fun j => m (pa l + j)))
    let r := atomics f n pa ls (lastByte (((f l old).toList).map fun v => (pa l, leBytes n v.toNat)) m)
    (r.1, old :: r.2)
/-- The chamber of a quire as bytes. -/
def chamber (q : Quire) (a : Nat) : Byte := q.cham.get 0 a
/-- Registers that the data of a word with a SIZE names for an issuer, with values. -/
def dataRegs (e : Env) (t : BitVec 8) (l : Option Nat) (ws : List Word) : List (RegKey × Option Word) :=
  ws.zipIdx.map fun w => (e.key l (t.toNat + w.2), some w.1)
/-- No bank record is written for chamber words (R336). -/
def Unbanked (e : Env) : Prop := ∀ d, e.cx.debug = some d → d.banktr = false
/-- The module apart from memory and its counters is as before. -/
def OnlyMemory (s t : State) : Prop :=
  t.apart = { s.apart with mem := t.mem, blockCtr := t.blockCtr, nodeCtr := t.nodeCtr, gens := t.gens } ∧ ∀ n, (t.core n).apart = (s.core n).apart
/-- Vats took the operations `ops` in order into their inputs, each with what precedes it (R154), and nothing else of the
module changed. -/
def ToVats (s t : State) (ops : List VOp) : Prop :=
  t.apart = { s.apart with vats := t.vats } ∧ (∀ n, (t.core n).apart = (s.core n).apart) ∧ (∀ a, t.readByte a = s.readByte a) ∧
    ∀ ch, (∃ new, (t.vat ch).input = (s.vat ch).input ++ new ∧
        (new.map fun o => { o with prior := [] }) = ops.filter fun o => s.channel o.word = ch) ∧ (t.vat ch).queue = (s.vat ch).queue ∧
      (t.vat ch).triggers = (s.vat ch).triggers
/-- A sheet as `retryAll` leaves it: a wait at issue ends. -/
def retried (sh : Sheet) : Sheet := match sh.wait with | .issue _ => { sh with wait := .none } | _ => sh

/-! ### The engines' words -/

/-- The engine queue and the scoreboard of the sheet's core took an operation and the ranges it holds (R243, R266, R276), and nothing
else of the module changed but the quire. -/
def Engaged (s t : State) (e : Env) (mx : List MxOp) (wm : List WmOp) (ranges : List (Nat × Nat)) : Prop :=
  let c := s.core e.q.core
  t.apart = s.apart ∧ t.next = s.next + 1 ∧ (∀ a, t.readByte a = s.readByte a) ∧
    (∀ n, n ≠ e.q.core → (t.core n).apart = (s.core n).apart) ∧
    (t.core e.q.core).apart = { c.apart with
      mx := c.mx ++ mx
      wm := c.wm ++ wm
      board := c.board ++ ranges.map fun r => ⟨s.next, e.r.h, r.1, r.2, false, !mx.isEmpty⟩ }
/-- Room for a matrix operation with its chamber ranges, and no copy in its way (R243, R266). -/
def EngineRoom (s : State) (e : Env) (ranges : List (Nat × Nat)) : Prop :=
  let c := s.core e.q.core
  c.board.length + ranges.length ≤ 16 ∧ (c.mx.filter fun o => o.kind ≠ .unsub).length < 32 ∧
    ∀ r ∈ ranges, ∀ b ∈ c.board, b.copy = true → b.h = e.r.h → b.hi ≤ r.1 ∨ r.2 ≤ b.lo
/-- Half-bytes of an element (R247). -/
def halves (f : Nat) : Nat := ([2, 2, 1, 4, 4, 2, 2] : List Nat).getD f 2
/-- The operands that `mx.mma` and `mx.conv` name (R249, R253). -/
def operands (e : Env) (w : FE) (f : FmtBlock) (c : Option Conv) : Mma :=
  let side := fun (cham : Bool) (r : BitVec 6) => (⟨cham, if cham then (e.s r.toNat).setWidth 64 else e.spair r.toNat⟩ : Side)
  let g := fun i => (e.s (w.sc.toNat + i)).toNat
  { a := side (w.mod.getLsbD 0) w.sa, b := if w.mod.getLsbD 2 then none else some (side (w.mod.getLsbD 1) w.sb),
    astr := if c.isSome then 0 else g 1, bstr := g 2, kk := g 0, f, conv := c }
/-- The sides of an operation with their extents in bytes (R248, R249 step 6, R253). -/
def reaches (m : Mma) : List (Side × Nat) :=
  let scales := fun kind one => if kind = 1 then one * (m.kk / 128) else 4 * m.kk
  (m.a, match m.conv with
    | some c => (c.n * c.h * c.w * c.c * halves m.f.afmt + 1) / 2
    | none => 127 * m.astr + m.kk * halves m.f.afmt / 2) ::
    (m.b.toList.map fun b => (b, 127 * m.bstr + m.kk * halves m.f.bfmt / 2)) ++
    (if m.f.ask = 0 then [] else [(⟨m.f.aloc, m.f.ascl⟩, scales m.f.ask 512)]) ++
    (if m.f.bsk = 0 then [] else [(⟨m.f.bloc, m.f.bscl⟩, scales m.f.bsk 4)])
/-- A place in the chamber as a range, none where it is empty. -/
def inChamber (x : Side × Nat) : List (Nat × Nat) :=
  if x.1.cham ∧ x.2 ≠ 0 then [(x.1.addr.toNat, x.1.addr.toNat + x.2)] else []
/-- A side that passes steps 5 and 6 of R249. -/
def SideOk (e : Env) (x : Side × Nat) : Prop :=
  if x.1.cham then x.1.addr.toNat + x.2 ≤ 4096 * e.q.chamg else canonical x.1.addr = true
/-- A matrix operation of the sheet in issue. -/
def mxOp (s : State) (e : Env) (tile : Nat) (kind : MxKind) : MxOp := ⟨s.next, e.r, tile, e.sh.batch, kind, false, none, none⟩
/-- A fabric operation of the sheet in issue (R315, R322). -/
def fabOp (s : State) (e : Env) (w : FE) (g : Group) (kind : FKind) (post : Option (Nat × DWord × Word)) (after : List Nat)
    (deadline : DWord) (tag : Word) : FabOp :=
  let now := s.now / 720720
  let d := max (if deadline = 0 then now + g.span else deadline.toNat) (now + 4 * g.lat)
  ⟨s.next, e.r, e.q.ctx, w.mod.toNat % 16, kind, post, after, w.va.toNat, tag, d, d - 3 * g.lat, g.gen, none, false, false, false, none,
    false⟩
/-- The slot of the fabric word `w` is bound to `g`, its pool has room, and no operation or scoreboard entry carries the name that comes next. -/
structure FabReady (s : State) (e : Env) (w : FE) (g : Group) (x : Pool) : Prop where
  group : e.cx.groups.find (w.mod.toNat % 16) = some g
  bound : g.st ≠ .unbound
  pool  : e.q.pools.find w.va.toNat = some x
  room  : x.filled + x.resv < x.n
  vats  : s.unplaced e.r e.sh = false
  board : (s.core e.q.core).board.length < 16
  fresh : ∀ o ∈ s.fabs, o.id ≠ s.next
  names : ∀ b ∈ (s.core e.q.core).board, b.op ≠ s.next

/-! ### What other agents do -/

/-- Quire `h` has started on a core as the waiting quire `q` asks (R30, R36, R47): resident, with its sheets at the header at its
entry, ready, with no flag, level or condition. -/
def Started (t : State) (h core : Nat) (q : Quire) : Prop :=
  ∃ q', t.quires.find h = some q' ∧ q'.phase = .resident ∧ q'.core = core ∧ q'.ctx = q.ctx ∧ q'.entry = q.entry ∧ q'.recs = q.recs ∧
    q'.joins = q.joins ∧ q'.sheets.length = q.nsheets ∧ ∀ x ∈ q'.sheets, x.2.pc = q.entry ∧ x.2.idx = 0 ∧ x.2.wait = .none ∧
      x.2.exited = false ∧ x.2.alloc = 8 * q.rowg ∧ x.2.exm = BitVec.ofNat 96 (2 ^ q.active - 1) ∧ x.2.flags = [] ∧ x.2.ldep = 0 ∧
      x.2.sflags = 0 ∧ x.2.batch = 1 ∧ x.2.msp = 0 ∧ ∀ n, x.2.s.get 0 n = (q.sinit[n]?).getD 0
/-- Priority of a sheet's context (R285, R292). -/
def prio (s : State) (r : SheetRef) : Nat := (s.quires.find r.h).elim 0 fun q => (s.ctx q.ctx).desc.prio
/-- The phase of a quire. -/
def phaseOf (s : State) (h : Nat) : Option Phase := (s.quires.find h).map (·.phase)

/-- A word of `n` bytes in memory. -/
def wordAt (s : State) (a n : Nat) : DWord := BitVec.ofNat 64 (leNat ((List.range n).map fun j => s.readByte (a + j)))
/-- Byte `j` of a word. -/
def nthByte (x : Nat) (j : Nat) : Byte := BitVec.ofNat 8 (x / 256 ^ j)
/-- A slot of pool `p` of quire `h` has been written (R176). -/
def Filled (s t : State) (h p : Nat) : Prop :=
  ∀ q x, s.quires.find h = some q → q.pools.find p = some x →
    ∃ q', t.quires.find h = some q' ∧ q'.pools.find p = some { x with filled := x.filled + 1, resv := x.resv - 1 }
/-- An element of `nmaxpy` (R234): y after y + a x, rounded once, subnormals kept. -/
def axpy (bf : Bool) (a x y : Nat) : Nat :=
  let f := if bf then bf16 else fp32
  (f.give .rne false false (FV.fma .rne (fp32.decode a) (f.decode x) (f.decode y)).1).1
/-- The leaf of a channel of `nmdot` (R234): -0, then the products of the elements whose x lies there, ascending. -/
def dotLeaf (bf : Bool) (els : List (Nat × Nat × Nat)) (c : Nat) : Nat :=
  let f := if bf then bf16 else fp32
  (els.filter fun x => x.1 = c).foldl (fun s x =>
    (fp32.give .rne false false (FV.fma .rne (f.decode x.2.1) (f.decode x.2.2) (fp32.decode s)).1).1) 0x80000000
/-- The sum of `2^n` channels from channel `b` on, in the fixed tree (R234). -/
def dotTree (leaf : Nat → Nat) : Nat → Nat → Word
  | 0, b => BitVec.ofNat 32 (leaf b)
  | n + 1, b => rneAdd (dotTree leaf n b) (dotTree leaf n (b + 2 ^ n))
/-- What `nmdot` posts for elements with the channel of their x (R234). -/
def dotSum (bf : Bool) (els : List (Nat × Nat × Nat)) : Word := if els = [] then 0 else dotTree (dotLeaf bf els) 8 0
/-- An engine operation has completed at once into pool `p` of the sheet in issue, which went on (R176): the slot in completion order
holds the status `st`, the pool counts it; of the module nothing else changed, of memory the chamber alone, and of the quire
what the sheets that waited for the pool find. -/
structure AtOnce (s t : State) (e : Env) (p : Nat) (x : Pool) (st : BitVec 8) : Prop where
  module : t.apart = s.apart ∧ ∀ n, (t.core n).apart = (s.core n).apart
  memory : ∀ a, (∀ c o, s.region a ≠ .win c o) → t.readByte a = s.readByte a
  others : ∀ h, h ≠ e.r.h → t.quires.find h = s.retryAll.quires.find h
  quire  : ∃ q, t.quires.find e.r.h = some q ∧ q.pools.find p = some { x with filled := x.filled + 1 } ∧
    (let slot := x.off.toNat + 16 * ((x.rd + x.filled) % x.n)
     chamber q slot = st ∧ ∀ a, a < slot ∨ slot + 16 ≤ a → chamber q a = chamber e.q a) ∧
    ∃ sh, q.sheets.find e.r.k = some sh ∧ sh.apart = (e.sh.advance (s.cycles e.q.core)).apart ∧
      ∀ key, key.real → (∀ n, key ≠ .q n) → sh.raw key = e.sh.raw key
/-- Nobody waits for the suspension of a context (R299). -/
def NoSuspend (s : State) (ctx : Nat) : Prop :=
  (∀ p ∈ s.parts, p.2.busy ≠ some (.suspend ctx)) ∧ ∀ q ∈ s.quires, ∀ x ∈ q.2.sheets, x.2.wait ≠ .suspend ctx
/-- A quire whose join counter has reached 0 (R31, R32, R298): one that a `join` swapped out, or that spun and whose sheets all wait in
`join`, is eligible to resume from now on; one that is being saved, or is swapped out otherwise, is as before; of any other the
sheets that wait in `join` go on. -/
def joinsOver (s : State) (q : Quire) : Quire :=
  let inJoin := ∀ x ∈ q.sheets, x.2.exited = true ∨ x.2.wait = .join
  match q.phase with
  | .swapped c a w none =>
    if c = .join ∨ (c = .spin ∧ inJoin) then { q with phase := .swapped c a w (some (s.now / 720720)) } else q
  | .swapped _ _ _ _ | .saving _ => q
  | .resident | .draining | .stopped _ | .waiting _ =>
    { q with joinAt := none, sheets := q.sheets.map fun x =>
        (x.1, if x.2.wait = .join then { x.2.noteSpin (s.cycles q.core) with wait := .none } else x.2) }
/-- A sheet that has exited (R202). -/
def exitOf (sh : Sheet) : Sheet := { sh with exited := true, wait := .none, lls := [], flags := [], pend := none, held := [] }
/-- Nothing of an issuer, or behind an acquire of it, waits at a vat on bytes that it accesses (R151, R152). -/
def Unqueued (s : State) (e : Env) (l : Option Nat) (pa n : Nat) : Prop :=
  ∀ x ∈ s.stores, x.op.isSome → x.ref = e.r ∨ x.known e.r (laneNo l) = true → x.pa + x.len ≤ pa ∨ pa + n ≤ x.pa
/-- An engine's operation has made no access yet that waits at a vat, and follows none that does (R147, R154, R157). -/
def Unsent (s : State) (who : Who) : Prop :=
  (∀ f ∈ s.fins, f.who ≠ who) ∧ (∀ v ∈ s.vats, ∀ o ∈ v.2.input ++ v.2.queue, who ∉ o.eng) ∧
    ∀ x ∈ s.stores, x.op.isSome → ∀ id, who = .op id → .eng id ∉ x.released
/-- Every fabric operation is done and nothing waits at a group slot (R323, R331). -/
def FabricIdle (s : State) : Prop := s.fabs = [] ∧ ∀ c ∈ s.ctxs, ∀ g ∈ c.2.groups, g.2.held = []
/-- Tile `n` of quire `h`. -/
def tileOf (s : State) (h n : Nat) : Option Tile := (s.quires.find h).bind fun q => q.tiles.find n

/-- The module has no fabric operation and no group that re-forms. -/
def Calm (s : State) : Prop := s.fabs = [] ∧ ∀ c ∈ s.ctxs, ∀ g ∈ c.2.groups, g.2.st ≠ .reforming
/-- A slot of pool `p` of quire `h` has been written, with a status (R174, R176). -/
def Posted (s t : State) (h p : Nat) (st : BitVec 8) : Prop :=
  Filled s t h p ∧ ∀ q x, s.quires.find h = some q → q.pools.find p = some x →
    ∃ q', t.quires.find h = some q' ∧ chamber q' (x.off.toNat + 16 * ((x.rd + x.filled) % x.n)) = st
/-- A message leaves on every port of a group that is up, where its replay buffer has room. -/
def Flooded (s t : State) (g : Group) (m : Msg) : Prop :=
  (∀ p ∈ s.groupPorts g, (s.port p).buf.length < 1024) →
    t.outbox = s.outbox ++ (s.groupPorts g).map fun p => (p, ⟨(s.port p).tx, m⟩)
/-- The quire `h` is not swapped out, so that what completes for it goes to its chamber and not to its record (R296). -/
def InCore (s : State) (h : Nat) : Prop := ∀ q, s.quires.find h = some q → ∀ c a w x, q.phase ≠ .swapped c a w x
/-- A group slot goes from ACTIVE to SETTLING with its member's own abort, which leaves on every port of the group (R316). -/
def Originated (s t : State) (ctx slot : Nat) (g : Group) (reason : BitVec 8) : Prop :=
  let x : Triple := ⟨g.rank, reason, g.gen⟩
  t.group? ctx slot = some { g with st := .settling, origin := true, seen := [x], window := some (s.now / 720720 + 2 * g.lat) } ∧
  Flooded s t g (.notice ctx slot x)
/-- A group slot after a decision for `set` (R320 step 4): generations run 1 to 65,535 and round. -/
def Decided (t : State) (ctx slot : Nat) (g : Group) (set : List Nat) : Prop :=
  ∃ g', t.group? ctx slot = some g' ∧ g'.gen = (if g.gen < 65535 then g.gen + 1 else 1) ∧
    (g.rank ∉ set → g'.st = .excluded ∧ g'.trip = g.trip) ∧
    (g.rank ∈ set → g'.st = .active ∧ g'.trip = none ∧ g'.nmem = set.length ∧ set[g'.rank]? = some g.rank ∧
      g'.members = set.filterMap fun r => g.members[r]?)
/-- The members that a coordinator's decision keeps (R320 step 3). -/
def kept (g : Group) (props : List (Nat × List Nat)) : List Nat :=
  (List.range g.nmem).filter fun r => props.any (fun x => x.1 = r) && props.all fun x => r ∈ x.2
/-- PCIe is up (R360), and no posted write of a partition waits (R345, R359). -/
def Posts (s : State) (part : Nat) : Prop := s.linkUp = true ∧ ∀ y ∈ s.hostWait, y.1 ≠ part
/-- A partition takes commands (R346). -/
def Takes (s : State) (part : Nat) : Prop := (s.part part).ready = true ∧ (s.part part).busy = none
/-- A command left its status and the contexts as they were (R346). -/
def Refused (s t : State) (part st : Nat) : Prop :=
  (t.part part).cmdstat.toNat = st ∧ t.ctxs = s.ctxs ∧ (t.part part).queues = (s.part part).queues ∧ t.mem = s.mem

end Sys2Proof.Claims

open Sys2Proof Sys2Proof.Machine Sys2Proof.Claims

/-- R113, R129: every integer arithmetic word and integer dot product writes the value of its row to D of every issuer and changes nothing else. -/
def Obligations.IntegerArithmetic : Prop :=
  ∀ (i : Instr) (x : RRow) (s : State) (e : Env), arith i = some x → i.wf = true → Live s e →
    e.sh.vOk (aluVs x.w x.nd x.na x.nb x.nc) = true →
    Answers (exec i s) fun t => Acts s t e (aluWrites e x.w x.nd x.na x.nb x.nc x.f) id 0

/-- R114: `div` and `rem` write quotient and remainder and raise IDZ when an issuer divides by zero; with STRAP.IDZ set they
then take INT_DIVZERO, naming the lowest such strand, and write no destination (R100). -/
def Obligations.DivisionAndRemainder : Prop :=
  ∀ (i : Instr) (w : FR) (quot : Bool) (s : State) (e : Env), i = (if quot then .div w else .rem w) → i.wf = true → Live s e →
    e.sh.vOk (aluVs w 1 1 1 0) = true →
    let zero := fun l => val w.ty (e.opnd l 1 w.b.toNat) = 0
    let raise := fun sh : Sheet => if ∃ l ∈ e.lanes w.com, zero l then sh.raise Cond.idz else sh
    ((e.sh.strap.getLsbD 5 = false ∨ ∀ l ∈ e.lanes w.com, ¬zero l) →
      Answers (exec i s) fun t => Acts s t e (aluWrites e w 1 1 1 0 fun a b _ _ =>
        low32 (if quot then (quotRem w.ty a b).1 else (quotRem w.ty a b).2)) raise 0) ∧
    (∀ l, e.sh.strap.getLsbD 5 = true → l ∈ e.lanes w.com → zero l →
      (∀ m ∈ e.lanes w.com, zero m → laneNo l ≤ laneNo m) →
      exec i s = .next ((s.modSheet e.r raise).trap e.r
        { cause := 0x34, tpc := e.sh.pc, thdr := e.sh.hdrAddr, addr := e.sh.pc,
          info := BitVec.ofNat 32 (e.sh.idx + 16 * laneNo l) })) ∧
    (w.ty = .i32 ∨ w.ty = .n32) ∧ w.subf = 0 ∧ ∀ v, encode i = some v → v.extractLsb' 56 8 = if quot then 0x07 else 0x08

/-- R115: the words with an immediate, `cmpi` apart. -/
def Obligations.ImmediateWords : Prop :=
  ∀ (i : Instr) (w : FI) (na : Nat) (f : Word → Word) (s : State) (e : Env), imm i = some (w, na, f) → Live s e →
    e.sh.vOk (vsOf w.com [(w.d.toNat, 1), (w.a.toNat, na)]) = true →
    Answers (exec i s) fun t =>
      Acts s t e ((e.lanes w.com).map fun l => (e.key l w.d.toNat, f (e.w l w.a.toNat))) id 0

/-- R116: the logic words and the counts of bits. -/
def Obligations.LogicWords : Prop :=
  ∀ (i : Instr) (x : RRow) (s : State) (e : Env), logic i = some x → i.wf = true → Live s e →
    e.sh.vOk (aluVs x.w x.nd x.na x.nb x.nc) = true →
    Answers (exec i s) fun t => Acts s t e (aluWrites e x.w x.nd x.na x.nb x.nc x.f) id 0

/-- R116: shifts by the register B, one register for every type, or with SUBF[8] by SUBF[5:0]. -/
def Obligations.ShiftWords : Prop :=
  ∀ (i : Instr) (w : FR) (f : DWord → Nat → DWord) (s : State) (e : Env), shiftBy i = some (w, f) → i.wf = true → Live s e →
    let n := regsOf w.ty
    let nb := if w.subf.getLsbD 8 then 0 else 1
    e.sh.vOk (aluVs w n n nb 0) = true →
    Answers (exec i s) fun t => Acts s t e (aluWrites e w n n nb 0 fun a b _ _ =>
      f a (if w.subf.getLsbD 8 then w.subf.toNat % 64 else b.toNat)) id 0

/-- R117, R131: bit fields and packed fields, bit by bit. -/
def Obligations.BitFields : Prop :=
  ∀ (i : Instr) (x : RRow) (s : State) (e : Env), bitsRow i = some x → i.wf = true → Live s e →
    e.sh.vOk (aluVs x.w x.nd x.na x.nb x.nc) = true →
    Answers (exec i s) fun t => Acts s t e (aluWrites e x.w x.nd x.na x.nb x.nc x.f) id 0

/-- R118: `mov` copies each register of A to the matching register of D; `sel` writes A to an issuer whose condition holds
and B to any other. -/
def Obligations.MovesAndSelects : Prop :=
  (∀ (w : FR) (s : State) (e : Env), (Instr.mov w).wf = true → Live s e →
    e.sh.vOk (vsOf w.com [(w.d.toNat, movRegs w.ty), (w.a.toNat, movRegs w.ty)]) = true →
    Answers (exec (.mov w) s) fun t => Acts s t e ((e.lanes w.com).flatMap fun l =>
      (List.range (movRegs w.ty)).map fun j => (e.key l (w.d.toNat + j), e.w l (w.a.toNat + j))) id 0) ∧
  (∀ (w : FR) (s : State) (e : Env), (Instr.sel w).wf = true → Live s e →
    e.sh.vOk (vsOf w.com [(w.d.toNat, regsOf w.ty), (w.a.toNat, regsOf w.ty), (w.b.toNat, regsOf w.ty)]) = true →
    Answers (exec (.sel w) s) fun t => Acts s t e ((e.lanes w.com).flatMap fun l =>
      let c := match l with
        | none => decide (e.u w.c.toNat ≠ 0)
        | some j => (e.sh.k.get 0 w.c.toNat).getLsbD j
      e.dst l (regsOf w.ty) w.d.toNat (e.opnd l (regsOf w.ty) (if c then w.a.toNat else w.b.toNat))) id 0) ∧
  ∀ w : FR,
    ((Instr.mov w).wf = true → w.ty = .b32 ∨ w.ty = .b64 ∨ w.ty = .b128) ∧
    ((Instr.sel w).wf = true → (w.ty = .b32 ∨ w.ty = .b64) ∧ (w.com.u = false → w.c.toNat < 8)) ∧
    (∀ v, encode (.mov w) = some v → v.extractLsb' 56 8 = 0x21) ∧ ∀ v, encode (.sel w) = some v → v.extractLsb' 56 8 = 0x1E

/-- R119: `cmp` and `cmpi` write bit s of K[D] for each active strand and leave the other bits, or write 1 or 0 to a uniform
register. -/
def Obligations.IntegerCompares : Prop :=
  (∀ (w : FR) (s : State) (e : Env), (Instr.cmp w).wf = true → Live s e →
    e.sh.vOk (vsOf w.com [(w.a.toNat, regsOf w.ty), (w.b.toNat, regsOf w.ty)]) = true →
    Answers (exec (.cmp w) s) fun t => Acts s t e (cmpWrites e w.com w.d (cmpBit e w)) (cmpMask e w.com w.d (cmpBit e w)) 0) ∧
  (∀ (w : FI) (s : State) (e : Env), (Instr.cmpi w).wf = true → Live s e →
    e.sh.vOk (vsOf w.com [(w.a.toNat, 1)]) = true →
    Answers (exec (.cmpi w) s) fun t =>
      Acts s t e (cmpWrites e w.com w.d (cmpiBit e w)) (cmpMask e w.com w.d (cmpiBit e w)) 0)

/-- R120-R130: a word with conditions, none of which traps, ORs them into SFLAGS and writes its results. Which neighbour an
approximate function gives is a free choice (log 10); the sign of an exact zero of `dot`, NV beside a NaN, `cvt.sr` unflushed and
tininess are the model's choice (log 41). -/
def Obligations.FloatWords : Prop :=
  ∀ (i : Instr) (x : FRow) (s : State) (e : Env), condRow i = some x → i.wf = true → Live s e →
    e.sh.vOk (aluVs x.w x.nd x.na x.nb x.nc) = true →
    let cs := aluConds e x.w x.nd x.na x.nb x.nc fun a b c d => (x.f a b c d).2
    (∀ y ∈ condCauses, e.sh.strap.getLsbD y.1 = true → ∀ z ∈ cs, z.2.getLsbD y.1 = false) →
    Answers (exec i s) fun t => Acts s t e (aluWrites e x.w x.nd x.na x.nb x.nc fun a b c d => (x.f a b c d).1)
      (·.raise (cs.foldl (fun k z => k ||| z.2) 0)) 0

/-- R100: when an enabled condition is raised, SFLAGS takes every condition of every strand, the word traps with the lowest
enabled cause and the lowest strand that raised it, and writes no destination; `lred` names strand 127 (R135), and either op of
a paired word traps the whole word (R143). -/
def Obligations.ConditionTraps : Prop :=
  ∀ (i : Instr) (s : State) (e : Env) (cs : List (Nat × Cond)) (bit : Nat) (cause : BitVec 8) (l : Nat × Cond),
    i.wf = true → Live s e → raises e i = some cs →
    (bit, cause) ∈ condCauses → e.sh.strap.getLsbD bit = true → l ∈ cs → l.2.getLsbD bit = true →
    (∀ m ∈ cs, m.2.getLsbD bit = true → l.1 ≤ m.1) →
    (∀ y ∈ condCauses, y.2 < cause → e.sh.strap.getLsbD y.1 = true → ∀ z ∈ cs, z.2.getLsbD y.1 = false) →
    exec i s = .next ((s.modSheet e.r fun sh => sh.raise (cs.foldl (fun k z => k ||| z.2) 0)).trap e.r
      { cause, tpc := e.sh.pc, thdr := e.sh.hdrAddr, addr := e.sh.pc, info := BitVec.ofNat 32 (e.sh.idx + 16 * l.1) })

/-- R93, R94, R120, R121: NaN results are the default NaN, NV comes with a signalling operand, the signs of `fabs` and `fneg`, and
`fmin` and `fmax` commute. R87-R91, R95-R97, R130: conversions of NaNs, infinities, zeros, of values beyond the range of the
destination, and of values that it holds exactly, which stay. -/
def Obligations.FloatSpecialValues : Prop :=
  (∀ (w : FR) (i : Instr) (x : FRow) (a b c d : DWord), i ∈ [.fadd w, .fsub w, .fmul w, .fdiv w] → fp32Row i = some x →
    nan32 a || nan32 b →
    (x.f a b c d).1 = 0x7FC00000 ∧ (x.f a b c d).2 = if signal32 a || signal32 b then Cond.nv else 0) ∧
  (∀ (w : FR) (x : FRow) (a b c d : DWord), fp32Row (.fma w) = some x → nan32 a || nan32 b || nan32 c →
    (x.f a b c d).1 = 0x7FC00000 ∧ (signal32 a || signal32 b || signal32 c → (x.f a b c d).2 = Cond.nv) ∧
      ((signal32 a || signal32 b || signal32 c) = false → (nan32 a || nan32 b) ∨ (classBit .f32 a ∉ [0, 7] ∧ classBit .f32 b ∉ [0, 7]) →
        (x.f a b c d).2 = 0)) ∧
  (∀ (w : FR) (i : Instr) (x : FRow) (a b c d : DWord), i ∈ [.fsqrt w, .fabs w, .fneg w, .fround w] → fp32Row i = some x →
    nan32 a →
    (x.f a b c d).1 = 0x7FC00000 ∧ (x.f a b c d).2 = if signal32 a then Cond.nv else 0) ∧
  (∀ (w : FR) (neg : Bool) (x : FRow) (a b c d : DWord), fp32Row (if neg then .fneg w else .fabs w) = some x → w.ftz = false →
    nan32 a = false →
    (x.f a b c d).1 = ofBits 32 (fun j => if j < 31 then a.getLsbD j else neg && !a.getLsbD 31) ∧ (x.f a b c d).2 = 0) ∧
  (∀ (w : FR) (i : Instr) (x : FRow) (a b c d : DWord), i ∈ [.fmin w, .fmax w] → fp32Row i = some x →
    x.f a b c d = x.f b a c d) ∧
  (∀ (w : FR) (i : Instr) (x : FRow) (a b c d : DWord), i ∈ [.cvtF w, .cvtSr w] → i.wf = true → floatRow i = some x →
    let t := srcTy w
    let u := w.ty
    let sat := w.subf.getLsbD 5
    let s := signOf t a
    let e := expOf t a
    let f := fracOf t a
    (t ≠ .e2m1 → classBit t a ∈ [8, 9] → x.f a b c d =
      if u = .e2m1 then (0, Cond.nv) else (BitVec.ofNat 64 (defaultNan u), if classBit t a = 8 then Cond.nv else 0)) ∧
    (t ≠ .e4m3 → t ≠ .e2m1 → e = 2 ^ expBits t - 1 → f = 0 → x.f a b c d =
      if u = .e2m1 then (pattern u s 3 1, 0)
      else if u = .e4m3 then if sat then (pattern u s 15 6, 0) else (0x7F, Cond.nv)
      else (infinity u s, 0)) ∧
    (e = 0 → f = 0 → x.f a b c d = (pattern u s 0 0, 0)) ∧
    (normalIn t e f → i = .cvtF w → bias t + (if u = .e4m3 then 9 else if u = .e2m1 then 3 else bias u + 1) ≤ e →
      x.f a b c d = (beyond u w.rm sat s, Cond.of_ ||| Cond.nx)) ∧
    (normalIn t e f → bias t < e + bias u → f * 2 ^ fracBits u % 2 ^ fracBits t = 0 →
      let e' := e + bias u - bias t
      let f' := f * 2 ^ fracBits u / 2 ^ fracBits t
      normalIn u e' f' → x.f a b c d = (pattern u s e' f', 0))) ∧
  (∀ (w : FR) (x : FRow) (a b c d : DWord), (Instr.cvtFi w).wf = true → floatRow (.cvtFi w) = some x →
    let t := srcTy w
    let s := signOf t a
    let e := expOf t a
    let f := fracOf t a
    let n := 32 * regsOf w.ty
    let signed := w.ty = .i32 ∨ w.ty = .i64
    let lo : Int := if signed then -2 ^ (n - 1) else 0
    let hi : Int := if signed then 2 ^ (n - 1) - 1 else 2 ^ n - 1
    let gives := fun (y : Int) (k : Cond) => (x.f a b c d).1.toNat % 2 ^ n = (y % 2 ^ n).toNat ∧ (x.f a b c d).2 = k
    (classBit t a ∈ [8, 9] → gives 0 Cond.nv) ∧
    (classBit t a ∈ [0, 7] → gives (if s = 1 then lo else hi) Cond.nv) ∧
    (normalIn t e f → bias t ≤ e →
      let m := (2 ^ fracBits t + f) * 2 ^ (e - bias t)
      let y : Int := if s = 1 then -(m / 2 ^ fracBits t : Nat) else (m / 2 ^ fracBits t : Nat)
      m % 2 ^ fracBits t = 0 → gives (max lo (min hi y)) (if lo ≤ y ∧ y ≤ hi then 0 else Cond.nv))) ∧
  (∀ (w : FR) (x : FRow) (a b c d : DWord), (Instr.cvtIf w).wf = true → floatRow (.cvtIf w) = some x →
    let y := if srcTy w = .i64 ∨ srcTy w = .n64 then wide (srcTy w) a else val (srcTy w) a
    (y = 0 → x.f a b c d = (0, 0)) ∧
    ∀ e r, y.natAbs = 2 ^ e + r → r < 2 ^ e → e ≤ fracBits w.ty →
      x.f a b c d = (pattern w.ty (if y < 0 then 1 else 0) (e + bias w.ty) (r * 2 ^ (fracBits w.ty - e)), 0))

/-- R122: `fcmp` writes its relation as `cmp` does; with no enabled NV raised it goes on. -/
def Obligations.FloatCompare : Prop :=
  ∀ (w : FR) (s : State) (e : Env), (Instr.fcmp w).wf = true → Live s e →
    e.sh.vOk (vsOf w.com [(w.a.toNat, 1), (w.b.toNat, 1)]) = true →
    let a := fun l => e.opnd l 1 w.a.toNat
    let b := fun l => e.opnd l 1 w.b.toNat
    let cc := w.subf.toNat % 8
    let un := fun l => nan32 (a l) || nan32 (b l)
    let o := fun l => FV.cmp (rd32 w.ftz (a l)) (rd32 w.ftz (b l))
    let bit := fun l => ([!un l && o l = 0, un l || o l ≠ 0, !un l && o l < 0, !un l && o l ≤ 0, !un l && o l > 0,
      !un l && o l ≥ 0, un l, !un l] : List Bool).getD cc false
    let nv := fun l => if 2 ≤ cc ∧ cc ≤ 5 then un l else signal32 (a l) || signal32 (b l)
    (e.sh.strap.getLsbD 0 = false ∨ ∀ l ∈ e.lanes w.com, nv l = false) →
    Answers (exec (.fcmp w) s) fun t => Acts s t e (cmpWrites e w.com w.d bit) (fun sh =>
      cmpMask e w.com w.d bit (if (e.lanes w.com).any nv then sh.raise Cond.nv else sh)) 0

/-- R123: `fclass` sets the one bit of the operand's class. -/
def Obligations.FloatClass : Prop :=
  ∀ (w : FR) (s : State) (e : Env), (Instr.fclass w).wf = true → Live s e → e.sh.vOk (aluVs w 1 1 0 0) = true →
    w.ty ∈ [Ty.f32, .f16, .bf16, .e4m3, .e5m2] ∧ w.rm = .rne ∧ w.ftz = false ∧
    (∀ v, encode (.fclass w) = some v → v.extractLsb' 56 8 = 0x39) ∧
    Answers (exec (.fclass w) s) fun t =>
      Acts s t e (aluWrites e w 1 1 0 0 fun a _ _ _ => BitVec.ofNat 64 (2 ^ classBit w.ty a)) id 0

/-- R132: each active strand of a shuffle receives A of its source strand, or the fallback value. -/
def Obligations.Shuffles : Prop :=
  ∀ (i : Instr) (w : FR) (f : Nat → Nat → Int) (s : State) (e : Env), shuffleFrom i = some (w, f) → i.wf = true → Live s e →
    e.sh.vOk [(w.d.toNat, 1), (w.a.toNat, 1), (w.b.toNat, 1), (w.c.toNat, if w.subf.getLsbD 4 then 1 else 0)] = true →
    Answers (exec i s) fun t => Acts s t e ((act e w.com).map fun j => (vreg e w.d.toNat j, shuffled e w f j)) id 0

/-- R133, R136, R137: `vote` writes every bit of a mask register, `kop` the bits of the active strands; `kpop` counts and
`kfirst` finds bits of a mask. -/
def Obligations.MaskRegisterWords : Prop :=
  ∀ (w : FR) (s : State) (e : Env), Live s e →
    let both := (act e w.com).filter fun j => (e.sh.k.get 0 w.a.toNat).getLsbD j
    ((Instr.vote w).wf = true → e.sh.vOk [(w.a.toNat, 1)] = true →
      Answers (exec (.vote w) s) fun t => Acts s t e [] (putK w.d (voteBit e w)) 0) ∧
    ((Instr.kop w).wf = true → Answers (exec (.kop w) s) fun t => Acts s t e [] (putK w.d fun j =>
      if (act e w.com).contains j then kopBit e w j else (e.sh.k.get 0 w.d.toNat).getLsbD j) 0) ∧
    ((Instr.kpop w).wf = true → Answers (exec (.kpop w) s) fun t => Acts s t e [(uniKey w.d.toNat, BitVec.ofNat 32
      (if w.subf.getLsbD 0 then (List.range 96).countP fun j => (e.sh.k.get 0 w.a.toNat).getLsbD j else both.length))] id 0) ∧
    ((Instr.kfirst w).wf = true → Answers (exec (.kfirst w) s) fun t => Acts s t e [(uniKey w.d.toNat, BitVec.ofNat 32
      (if both = [] then 96 else if w.subf.getLsbD 0 then both.foldl max 0 else both.foldl min 96))] id 0)

/-- R134, R135: prefixes in ascending strand order and reductions, sums of fractions in the fixed tree; the conditions of a
`scan` belong to strands, those of `lred` to the word, and with none enabled the word completes. -/
def Obligations.ScansAndReductions : Prop :=
  ∀ (w : FR) (s : State) (e : Env), Live s e → e.sh.vOk [(w.d.toNat, 1), (w.a.toNat, 1)] = true →
    ((Instr.scan w).wf = true → (∀ y ∈ condCauses, e.sh.strap.getLsbD y.1 = true → ∀ j ∈ act e w.com, (scanCond e w j).getLsbD y.1 = false) →
      Answers (exec (.scan w) s) fun t => Acts s t e
        ((act e w.com).map fun j => (vreg e w.d.toNat j,
          reduced e w ((act e w.com).filter fun k => if w.subf.getLsbD 3 then k < j else k ≤ j)))
        (·.raise (((act e w.com).map (scanCond e w)).foldl (· ||| ·) 0)) 0) ∧
    ((Instr.lred w).wf = true → (∀ y ∈ condCauses, e.sh.strap.getLsbD y.1 = true → (lredOf e w).2.getLsbD y.1 = false) →
      Answers (exec (.lred w) s) fun t => Acts s t e ((act e w.com).map fun j => (vreg e w.d.toNat j, (lredOf e w).1))
        (·.raise (if act e w.com = [] then 0 else (lredOf e w).2)) 0)

/-- R139: broadcasts of a uniform register to strands, and of any one strand's register, active or not, to a uniform one. -/
def Obligations.BroadcastWords : Prop :=
  ∀ (w : FR) (s : State) (e : Env), Live s e →
    (e.sh.vOk [(w.d.toNat, 1)] = true → Answers (exec (.bcast w) s) fun t =>
      Acts s t e ((act e w.com).map fun j => (vreg e w.d.toNat j, e.u w.a.toNat)) id 0) ∧
    (e.sh.vOk [(w.a.toNat, 1)] = true → Answers (exec (.bcastGet w) s) fun t =>
      Acts s t e [(uniKey w.d.toNat, if e.u w.b.toNat < 96 then vval e w.a.toNat (e.u w.b.toNat).toNat else 0)] id 0) ∧
    ((Instr.bcast w).wf = true → w.ty = .b32 ∧ w.subf.getLsbD 0 = false) ∧
    ((Instr.bcastGet w).wf = true → w.ty = .b32 ∧ w.subf.getLsbD 0 = true) ∧
    ∀ i ∈ [Instr.bcast w, .bcastGet w], ∀ v, encode i = some v → v.extractLsb' 56 8 = 0x6D

/-- R107, R140, R141: `rng` writes four words to each active strand; `noise` and `noise.st` leave their destinations
outstanding, `noise` its words to come and `noise.st` the health of the die's source. That `noise.st` gives the health at its issue
and that `noise` holds no word before it completes are the model's readings (log 36). -/
def Obligations.Generators : Prop :=
  ∀ (w : FR) (s : State) (e : Env), Live s e →
    (e.sh.vOk [(w.d.toNat, 4), (w.a.toNat, 4)] = true → Answers (exec (.rng w) s) fun t =>
      Acts s t e ((act e w.com).flatMap fun j => (List.range 4).map fun k => (vreg e (w.d.toNat + k) j,
        (rngWords (e.u w.b.toNat) (e.u (w.b.toNat + 1)) (vval e w.a.toNat j) (vval e (w.a.toNat + 1) j)
          (vval e (w.a.toNat + 2) j) (vval e (w.a.toNat + 3) j)).getD k 0)) id 0) ∧
    (e.sh.vOk (vsOf w.com [(w.d.toNat, 1)]) = true → e.flagRoom w.com.fs →
      (Answers (exec (.noise w) s) fun t => Acts s t e [] (·.llOpen
        (held s e w.com.fs ((e.lanes w.com).map fun l => (e.key l w.d.toNat, none)) true)) 1) ∧
      (Answers (exec (.noiseSt w) s) fun t => Acts s t e [] (·.llOpen
        (held s e w.com.fs ((e.lanes w.com).map fun l =>
          (e.key l w.d.toNat, some (if (s.die (dieOf e.q.core)).noiseFail then 1 else 0))) false)) 1))

/-- R73-R76, R143: both ops of a paired word read the state before it and have the effect of the full instructions named. -/
def Obligations.PairedWords : Prop :=
  ∀ (w : FP) (s : State) (e : Env), (Instr.pairedWord w).wf = true → Live s e →
    (∀ n ∈ [w.x.d, w.x.a, w.x.b, w.y.d, w.y.a, w.y.b], e.sh.vOk [(n.toNat, 1)] = true) →
    let js := strandsOf (e.sh.active w.pg false)
    let conds := js.map fun j => (((xResult e w.x j).map (·.2)).getD 0) ||| (((yResult e w.y j).map (·.2)).getD 0)
    (∀ y ∈ condCauses, e.sh.strap.getLsbD y.1 = true → ∀ c ∈ conds, c.getLsbD y.1 = false) →
    Answers (exec (.pairedWord w) s) fun t => Acts s t e
      (js.flatMap fun j => (xResult e w.x j).toList.map (fun r => (vreg e w.x.d.toNat j, r.1)) ++
        (yResult e w.y j).toList.map fun r => (vreg e w.y.d.toNat j, r.1))
      (·.raise (conds.foldl (· ||| ·) 0)) 0

/-- R184-R186, R199: `br`, `brc`, `brm` and `jmpi` go to a header within the innermost open level when their condition holds;
`brc` and `brm` go on when it does not. -/
def Obligations.Branches : Prop :=
  ∀ (s : State) (e : Env), Live s e →
    (∀ (a h : DWord), TargetAt s e a h → Within e e.sh.ldep a →
      (∀ w : FC, e.disp w.disp = a → Answers (exec (.br w) s) fun t => Jumps s t e a [] id) ∧
      (∀ w : FC, e.disp w.disp = a → (Instr.brc w).wf = true → brcTaken (w.mod.toNat % 8) (e.u w.a.toNat) = true →
        Answers (exec (.brc w) s) fun t => Jumps s t e a [] id) ∧
      (∀ w : FC, e.disp w.disp = a → brmTaken (w.mod.toNat % 4) (e.sh.k.get 0 w.a.toNat &&& e.sh.exm) e.sh.exm = true →
        Answers (exec (.brm w) s) fun t => Jumps s t e a [] id) ∧
      (∀ w : FRC, e.spair w.a.toNat = a → Answers (exec (.jmpi w) s) fun t => Jumps s t e a [] id)) ∧
    (∀ w : FC, (Instr.brc w).wf = true → brcTaken (w.mod.toNat % 8) (e.u w.a.toNat) = false →
      Answers (exec (.brc w) s) fun t => Acts s t e [] id 0) ∧
    (∀ w : FC, brmTaken (w.mod.toNat % 4) (e.sh.k.get 0 w.a.toNat &&& e.sh.exm) e.sh.exm = false →
      Answers (exec (.brm w) s) fun t => Acts s t e [] id 0)

/-- R187, R188, R190: `call` writes the link and opens a frame; `ret` restores the frame of a link, with no level open. -/
def Obligations.CallsAndReturns : Prop :=
  ∀ (s : State) (e : Env), Live s e →
    (∀ (w : FC) (h : DWord), TargetAt s e (e.disp w.disp) h → Answers (exec (.call w) s) fun t =>
      Jumps s t e (e.disp w.disp) [(.s w.a.toNat, (linkOf e).setWidth 32), (.s (w.a.toNat + 1), (linkOf e >>> 32).setWidth 32)]
        (fun sh => { sh with fbase := sh.fbase + sh.ldep, ldep := 0 })) ∧
    (∀ (w : FRC) (h : DWord),
      let l := (e.spair w.a.toNat).toNat
      let a := sext56 (BitVec.ofNat 64 (l % 2 ^ 56 / 8 * 8))
      e.sh.ldep = 0 → e.sh.fbase ≤ 4 → l < 2 ^ 59 → l / 2 ^ 56 + l % 8 ≤ 4 → TargetAt s e a h →
      Answers (exec (.ret w) s) fun t => Jumps s t e a [] fun sh => { sh with fbase := l / 2 ^ 56, ldep := l % 8 })

/-- R189: the mask stack. -/
def Obligations.MaskStackWords : Prop :=
  ∀ (w : FRC) (s : State) (e : Env), Live s e →
    let top := e.sh.ms.get 0 (e.sh.msp - 1)
    (Answers (exec (.mpush w) s) fun t => Acts s t e [] (fun sh => { pushed sh with exm := sh.exm &&& sh.k.get 0 w.a.toNat }) 0) ∧
    (Answers (exec (.melse w) s) fun t => Acts s t e []
      (fun sh => if sh.msp = 0 then sh else { sh with exm := top &&& ~~~(sh.k.get 0 w.a.toNat) &&& ~~~(parked sh) }) 0) ∧
    (Answers (exec (.mpop w) s) fun t => Acts s t e []
      (fun sh => if sh.msp = 0 then sh else { sh with exm := top &&& ~~~(parked sh), msp := sh.msp - 1 }) 0)

/-- R193, R196, R197: a `loop` notes its count for the clause's end; `lbreak` parks or drains the active strands of K[A] in the
innermost level; `lexit` and `brx` close n levels and go to a header within what remains. -/
def Obligations.LoopWords : Prop :=
  ∀ (s : State) (e : Env), Live s e →
    (∀ w : FC, e.sh.hdr.le = 0 → e.sh.pend = none →
      (∀ i, 0 < i → i < e.sh.idx → ∀ x, s.fetch e.r e.q.core e.q.ctx (e.sh.hdrAddr + BitVec.ofNat 64 (8 * i)) = .word x →
        x.toNat / 2 ^ 56 ≠ 0x78) →
      Answers (exec (.loop w) s) fun t => Acts s t e [] (fun sh =>
      { sh with pend := some { n := e.u w.a.toNat, fin := e.disp w.disp, mod := w.mod, idx := sh.idx } }) 0) ∧
    (∀ w : FC, (Instr.lbreak w).wf = true → 0 < e.sh.ldep → e.sh.fbase + e.sh.ldep ≤ 4 →
      let m := e.sh.exm &&& e.sh.k.get 0 w.a.toNat
      let j := e.sh.fbase + e.sh.ldep - 1
      let sl := e.sh.slotAt j
      Answers (exec (.lbreak w) s) fun t => Acts s t e [] (fun sh =>
        if w.mod = 1 then { sh with slots := sh.slots.put j { sl with feed := sl.feed &&& ~~~m } }
        else { sh with
          slots := sh.slots.put j { sl with feed := sl.feed &&& ~~~m, park := sl.park ||| m }
          exm := sh.exm &&& ~~~m
          lstg := stages fun i => if m.getLsbD i then 0 else sh.lstg.get 0 i }) 0) ∧
    (∀ (n : Nat) (a h : DWord), n ≤ e.sh.ldep → e.sh.fbase + e.sh.ldep ≤ 4 → TargetAt s e a h → Within e (e.sh.ldep - n) a →
      (∀ w : FC, e.disp w.disp = a → w.mod.toNat = n → (Instr.lexit w).wf = true →
        Answers (exec (.lexit w) s) fun t => Jumps s t e a [] (closed · n)) ∧
      (∀ w : FRC, e.spair w.a.toNat = a → w.mod.toNat = n → (Instr.brx w).wf = true →
        Answers (exec (.brx w) s) fun t => Jumps s t e a [] (closed · n)))

/-- R55, R193, R194: the end of a clause: with no level to open or close the next header; a `loop` opens its level or skips an
empty one; LE decides between another pass and the level's close. -/
def Obligations.ClauseEnds : Prop :=
  ∀ (s : State) (e : Env), Live s e → e.sh.idx = e.sh.hdr.n.toNat + 1 →
    let j := e.sh.fbase + e.sh.ldep - 1
    let sl := e.sh.slotAt j
    let cnt : Word := if sl.cnt = 0 then 0 else sl.cnt - 1
    let lst := fun i => ((e.sh.lstg.get 0 i <<< 1) ||| (if cnt ≠ 0 ∧ sl.feed.getLsbD i = true then 1 else 0)) &&&
      BitVec.ofNat 8 (2 ^ sl.nst.toNat - 1)
    let gone := bits96 fun i => e.sh.lstg.get 0 i ≠ 0 && lst i = 0 && e.sh.exm.getLsbD i
    (e.sh.pend = none → e.sh.hdr.le = 0 → Answers (exec .loopBackEdge s) fun t => Moves s t e fun sh => sh.goto (nextHeader e)) ∧
    (∀ (p : PLoop) (h : DWord), e.sh.pend = some p → e.sh.fbase + e.sh.ldep < 4 → HeaderAt s e p.fin h →
      (∀ i < e.sh.fbase + e.sh.ldep, (e.sh.slotAt i).nst.toNat ≤ 1) → Within e e.sh.ldep p.fin →
      (p.w = 0 ∨ (p.b + p.w ≤ 256 ∧ p.b + p.w ≤ e.sh.alloc ∧ ∀ i < e.sh.fbase + e.sh.ldep,
        (e.sh.slotAt i).w = 0 ∨ (e.sh.slotAt i).b + (e.sh.slotAt i).w ≤ p.b ∨ p.b + p.w ≤ (e.sh.slotAt i).b)) →
      Answers (exec .loopBackEdge s) fun t => Moves s t e fun sh =>
        if p.n = 0 ∨ sh.exm = 0 then sh.goto (p.fin + BitVec.ofNat 64 (8 * ((Header.unpack h).n.toNat + 1)))
        else { sh with
          ldep := sh.ldep + 1
          slots := sh.slots.put (sh.fbase + sh.ldep)
            ⟨p.n, nextHeader e, p.fin, BitVec.ofNat 4 (p.mod.toNat % 8 + 1), BitVec.ofNat 32 (256 * p.w + p.b), 0, sh.exm, 0⟩
          lstg := stages fun i => if sh.exm.getLsbD i then 1 else 0 }.goto (nextHeader e)) ∧
    (e.sh.pend = none → e.sh.hdr.le ≠ 0 → (∀ i < 96, lst i = 0) → Answers (exec .loopBackEdge s) fun t => Moves s t e fun sh =>
      (closed { sh with
        exm := sh.exm &&& ~~~gone
        slots := sh.slots.put j { sl with cnt := cnt, park := sl.park ||| gone } } 1).goto (nextHeader e)) ∧
    (∀ h : DWord, e.sh.pend = none → e.sh.hdr.le ≠ 0 → (∃ i < 96, lst i ≠ 0) → HeaderAt s e sl.beg h →
      Answers (exec .loopBackEdge s) fun t => Moves s t e fun sh =>
        { ({ sh with
            exm := sh.exm &&& ~~~gone
            lstg := stages lst
            slots := sh.slots.put j { sl with
              cnt := cnt
              park := sl.park ||| gone
              rot := if sl.w = 0 then sl.rot else BitVec.ofNat 8 ((sl.rot.toNat + sl.w - 1) % sl.w) } }.goto sl.beg) with
          began := s.cycles e.q.core })

/-- R46, R49, R54-R57, R84, R194: the entry header of a task sheet is fetched in the cycle before it is checked; a header that
passes its checks starts its clause; the sheet waits when a flag that WAIT names is not clear. Which cycles those are for a task
that did not come from a bin is the model's choice (log 27). -/
def Obligations.ClauseStarts : Prop :=
  ∀ (s : State) (e : Env) (w : DWord), Live s e → e.sh.idx = 0 →
    let cyc := s.cycles e.q.core
    let here := e.sh.startAt ≤ cyc
    (e.sh.early = none → cyc + 1 < e.sh.startAt → s.fetch e.r e.q.core e.q.ctx e.sh.pc = .word w →
      Answers (exec .clauseHeaderFetch s) fun t => Moves s t e fun sh => { sh with early := some w }) ∧
    (HeaderNow s e w → headerOk w e.sh.ldep = true →
    ((Header.unpack w).le = 0 ∨ (e.sh.fbase + e.sh.ldep ≤ 4 ∧ e.sh.pc = (e.sh.slotAt (e.sh.fbase + e.sh.ldep - 1)).fin)) →
    let clear := (List.range 12).all fun n => !(Header.unpack w).wait.getLsbD n || e.sh.flags.get 0 n = 0
    Answers (exec .clauseHeaderFetch s) fun t => Moves s t e fun sh => { sh with
      hdr := Header.unpack w
      hdrAddr := sh.pc
      pc := sh.pc + 8
      idx := 1
      qv := e.q.shown e.r.k cyc
      began := if here then cyc else sh.began
      early := if here then none else sh.early
      pend := none
      wait := if clear then .none else .flags })

/-- R26, R31-R33, R201, R202: `spawn` captures its arguments' place and its strands and stalls; `join` goes on with the
counter at 0 and waits otherwise; `exit` retires the sheet, and that of a task its records: the join counters of their spawners
fall, and where one reaches 0 the sheets that wait in `join` go on; registers, memory and the rest of the module are as before. -/
def Obligations.TaskWords : Prop :=
  ∀ (s : State) (e : Env), Live s e →
    (∀ w : FC, e.sh.vOk [(w.a.toNat, 3)] = true →
      let a := if w.mod.getLsbD 15 then e.spair (w.mod.toNat % 64) else e.disp w.disp
      (w.mod.getLsbD 15 = true → canonical a = true ∧ a.toNat % 8 = 0) →
      Answers (exec (.spawn w) s) fun t => Waits s t e [] id (.spawn a ((List.range 3).map fun i => e.sh.resolve (w.a.toNat + i))
        (act e w.com) (e.sh.lls.map (·.id))) 0) ∧
    (∀ w : FRC, e.q.joins = 0 → Answers (exec (.join w) s) fun t => Goes s t e [] id 0) ∧
    (∀ w : FRC, e.q.joins ≠ 0 → Answers (exec (.join w) s) fun t => t.cur = none ∧ Rest s t ∧
      (t.quires.find e.r.h).map (·.joinAt) = some (some (s.cycles e.q.core)) ∧
      Own s t e (fun q => { q with joinAt := none }) id [] fun sh =>
        { past s e (sh.noteSpin (s.cycles e.q.core)) with wait := .join }) ∧
    (∀ w : FRC, e.q.task = false → e.cx.suspended = false → (∃ x ∈ e.q.sheets, x.1 ≠ e.r.k ∧ x.2.exited = false) →
      Answers (exec (.exit w) s) fun t => t.cur = none ∧ Rest s t ∧
        Own s t e (fun q => { q with joinAt := none }) id [] fun sh =>
          { sh with exited := true, wait := .none, lls := [], flags := [], pend := none, held := [] }) ∧
    (∀ w : FRC, e.q.task = false → e.cx.suspended = false → e.q.recs = [] → e.cx.debug = none →
      (∀ x ∈ e.q.sheets, x.1 ≠ e.r.k → x.2.exited = true) → NoSuspend s e.q.ctx →
      Answers (exec (.exit w) s) fun t => t.cur = none ∧ Rest s t ∧ (t.quires.find e.r.h).map (·.phase) = some .draining ∧
        Own s t e (fun q => { q with phase := .resident }) id [] fun sh =>
          { sh with exited := true, wait := .none, lls := [], flags := [], pend := none, held := [] }) ∧
    (∀ w : FRC, e.q.task = true → s.unplaced e.r e.sh = false → (∀ n ∈ s.nms, n.ref ≠ e.r) →
      e.cx.suspended = false → e.cx.debug = none → (∀ x ∈ e.q.sheets, x.1 ≠ e.r.k → x.2.exited = true) →
      NoSuspend s e.q.ctx →
      Answers (exec (.exit w) s) fun t => t.cur = none ∧ Rest s t ∧ (t.quires.find e.r.h).map (·.phase) = some .draining ∧
        (t.sheet? e.r).map (·.exited) = some true ∧
        ((∀ x ∈ e.q.recs, x.spawner ≠ some e.r.h) →
          t.quires.find e.r.h = some { e.q with phase := .draining, sheets := e.q.sheets.upd e.r.k exitOf }) ∧
        ∀ h q, h ≠ e.r.h → s.quires.find h = some q →
          let n := e.q.recs.countP fun x => x.spawner = some h
          t.quires.find h = some (if q.joins ≠ 0 ∧ q.joins ≤ n then joinsOver s { q with joins := 0 } else { q with joins := q.joins - n }))

/-- R158, R203, R204, R230: barriers; an arrival that makes the count complete ends the phase and lets its waiters go on; one waits
while posts or other vat operations of its sheet are not accepted, and while an acquire of it is not applied at its vat; for those other
than posts that is the model's reading (log 12). -/
def Obligations.BarrierWords : Prop :=
  ∀ (w : FRC) (s : State) (e : Env), Live s e →
    let b := w.a.toNat
    let lessBars := fun q : Quire => { q with bars := [] }
    let bars := fun t : State => (t.quires.find e.r.h).map (·.bars)
    (∀ old : Option Bar, e.q.bars.find b = old → 1 ≤ (e.u w.b.toNat).toNat → (e.u w.b.toNat).toNat ≤ 16 →
      Answers (exec (.barInit w) s) fun t => Rest s t ∧ Own s t e lessBars id [] (past s e) ∧
        bars t = some (e.q.bars.put b ⟨(e.u w.b.toNat).toNat, 0, (old.map (·.phase)).getD 0⟩)) ∧
    (∀ x : Bar, e.q.bars.find b = some x → e.sh.posts ≠ 0 ∨ s.vatPending e.r (fun _ => true) = true ∨ s.acqPending e.r = true →
      ∀ i ∈ [Instr.barArr w, .barSync w], Answers (exec i s) fun t => Stalls s t e (.issue 15)) ∧
    (∀ x : Bar, e.q.bars.find b = some x →
      let placed := e.sh.posts = 0 ∧ s.vatPending e.r (fun _ => true) = false ∧ s.acqPending e.r = false
      let last := x.e ≤ x.a + 1
      let wake := fun sh : Sheet => if last ∧ sh.wait = .bar b x.phase then { sh with wait := .none, arrived := sh.arrived.del b } else sh
      let after := if last then { x with a := 0, phase := x.phase + 1 } else { x with a := x.a + 1 }
      (placed → Answers (exec (.barArr w) s) fun t => Rest s t ∧ bars t = some (e.q.bars.put b after) ∧
        Own s t e lessBars wake [] fun sh => past s e { sh with arrived := sh.arrived.put b x.phase }) ∧
      (placed → Answers (exec (.barSync w) s) fun t => Rest s t ∧ bars t = some (e.q.bars.put b after) ∧
        Own s t e lessBars wake [] fun sh =>
          if last then past s e { sh with arrived := (sh.arrived.put b x.phase).del b }
          else { past s e { sh with arrived := sh.arrived.put b x.phase } with wait := .bar b x.phase }) ∧
      (Answers (exec (.barWait w) s) fun t => Rest s t ∧ bars t = some e.q.bars ∧ Own s t e id id [] fun sh =>
        match sh.arrived.find b with
        | some p => if p < x.phase then past s e { sh with arrived := sh.arrived.del b } else { past s e sh with wait := .bar b p }
        | none => { past s e sh with wait := .bar b x.phase }))

/-- R38, R40, R164, R205: `nop` and prefetches do nothing; `yield` waits; `rgrow` grants rows that are free above the block, which
then read 0 whatever stood there, fails above 256 rows and waits otherwise; `rshrink` gives rows up, to no fewer than 8. -/
def Obligations.PlainWords : Prop :=
  ∀ (s : State) (e : Env), Live s e →
    (∀ w : FRC, Answers (exec (.nop w) s) fun t => Acts s t e [] id 0) ∧
    (∀ w : FM, e.sh.vOk (vsOf w.com (if w.idx = 0xFF then [] else [(w.idx.toNat, 1)])) = true →
      Answers (exec (.pref w) s) fun t => Acts s t e [] id 0) ∧
    (∀ w : FRC, Answers (exec (.yield w) s) fun t => Waits s t e [] (fun sh => sh.noteSpin (s.cycles e.q.core)) .yield 0) ∧
    (∀ w : FRC,
      let n := 8 * (w.mod.toNat / 8 % 64)
      let top := e.sh.base + e.sh.alloc
      let free := ∀ p ∈ s.spots e.q.core, p.lb = e.sh.lb → p.base + p.rows ≤ top ∨ top + n ≤ p.base
      Answers (exec (.rgrow w) s) fun t =>
        if 256 < top + n then Acts s t e [(uniKey w.d.toNat, 0)] id 0
        else if free then Acts s t e [(uniKey w.d.toNat, 1)] (fun sh =>
          { sh with alloc := sh.alloc + n, v := sh.v.filter fun x => x.1 / 96 < sh.alloc }) 0 ∧
          ∀ sh r l, t.sheet? e.r = some sh → e.sh.alloc ≤ r → l < 96 → sh.raw (.v r l) = 0
        else Stalls s t e (.rgrow (w.mod.toNat / 8 % 64) (uniKey w.d.toNat) (s.cycles e.q.core))) ∧
    (∀ w : FRC, e.cx.suspended = false →
      let rows := max 8 (e.sh.alloc - 8 * (w.mod.toNat / 8 % 64))
      Answers (exec (.rshrink w) s) fun t =>
        Acts s t e [] (fun sh => { sh with alloc := rows, v := sh.v.filter fun x => x.1 / 96 < rows }) 0)

/-- R82, R209-R211: a trap word, a breakpoint that no debugger takes and a word that is no instruction enter the handler at
TVEC with the trap registers of their cause. -/
def Obligations.TrapWords : Prop :=
  ∀ (s : State) (e : Env), Live s e → Handled s e →
    let pc := e.sh.pc
    let ends := fun (t : State) (f : Sheet → Sheet) => Changes s t e [] f ∧ t.next = s.next ∧ t.stores = s.stores ∧ t.cur = none
    (∀ w : FI, Answers (exec (.trap w) s) fun t =>
      ends t (entered 0x70 (pc + 8) e.sh.hdrAddr pc (BitVec.ofNat 32 (e.sh.idx + 2 ^ 4 * (w.imm.toNat % 2 ^ 16))))) ∧
    (∀ w : FI, (∀ d, e.cx.debug = some d → d.stop = false) → Answers (exec (.brk w) s) fun t =>
      ends t (entered 0x71 (pc + 8) e.sh.hdrAddr pc (BitVec.ofNat 32 (e.sh.idx + 2 ^ 4 * (w.imm.toNat % 2 ^ 16))))) ∧
    (∀ x : DWord, Answers (exec (.illegalOpcode x) s) fun t =>
      ends t (entered 0x01 pc e.sh.hdrAddr pc (BitVec.ofNat 32 e.sh.idx)))

/-- R193, R213: `rte` restores the frame that TSTAT holds, clears INTRAP and goes to the header at THDR, or to the body word or the
clause's end at TPC, at which a `loop` word before TPC opens its level still. -/
def Obligations.TrapReturn : Prop :=
  ∀ (w : FRC) (s : State) (e : Env) (h : DWord), Live s e → e.sh.tstat.getLsbD 7 = true → e.sh.ldep = 0 →
    TargetAt s e e.sh.thdr h →
    let back := fun sh : Sheet =>
      { sh with fbase := sh.tstat.toNat / 16 % 8, ldep := sh.tstat.toNat % 8, tstat := sh.tstat &&& ~~~(0x80 : Word) }
    let j := e.sh.tstat.toNat / 16 % 8 + e.sh.tstat.toNat % 8
    let i := (e.sh.tpc - e.sh.thdr).toNat / 8
    headerOk h (e.sh.tstat.toNat % 8) = true → ((Header.unpack h).le = 0 ∨ (j ≤ 4 ∧ e.sh.thdr = (e.sh.slotAt (j - 1)).fin)) →
    e.sh.thdr ≤ e.sh.tpc → e.sh.tpc.toNat % 8 = 0 → i ≤ (Header.unpack h).n.toNat + 1 →
    Answers (exec (.rte w) s) fun t =>
      if i = 0 then Jumps s t e e.sh.thdr [] back
      else Changes s t e [] (fun sh => { (back sh).jump sh.tpc (s.cycles e.q.core) with
          hdr := Header.unpack h
          hdrAddr := sh.thdr
          idx := i
          pend := sh.kept.bind fun x => if x.1 = sh.thdr ∧ x.2.idx < i then some x.2 else none
          kept := none }) ∧ t.cur = none

/-- R206-R208, R303: `rdsr` reads a known index, a privileged one in a privileged sheet, with the captures of R207; the contents of
the sheet's own registers. -/
def Obligations.SystemRegisterReads : Prop :=
  ∀ (w : FI) (s : State) (e : Env), Live s e → srKnown w.imm.toNat = true → (0x800 ≤ w.imm.toNat → e.cx.desc.priv = true) →
    let upper := fun x : Nat => some (BitVec.ofNat 32 (x / 2 ^ 32))
    (Answers (exec (.rdsr w) s) fun t => Acts s t e [(uniKey w.d.toNat, s.srRead e w.imm.toNat)] (fun sh =>
      if w.imm = 0x010 then { sh with reftCap := upper (s.now / 720720) }
      else if w.imm = 0x011 then { sh with reftCap := none }
      else if w.imm = 0x012 then { sh with cycCap := upper (s.cycles e.q.core) }
      else if w.imm = 0x013 then { sh with cycCap := none }
      else sh) 0) ∧
    ∀ x ∈ srContent s e, s.srRead e x.1 = x.2

/-- R206, R208: `wrsr` of a sheet register writes it, masked to its bits; a read-only index is ignored, and a value that breaks a
limit is ILLEGAL_ENCODING. -/
def Obligations.SystemRegisterWrites : Prop :=
  ∀ (w : FI) (s : State) (e : Env), Live s e → srKnown w.imm.toNat = true →
    (w.imm.toNat < 0x800 ∨ (e.cx.desc.priv = true ∧ w.imm.toNat ∉ [0x812, 0x820, 0x840])) →
    (∀ sh, e.sh.srWrite w.imm.toNat (e.u w.a.toNat) = some sh → Answers (exec (.wrsr w) s) fun t => Acts s t e [] (fun _ => sh) 0) ∧
    (e.sh.srWrite w.imm.toNat (e.u w.a.toNat) = none → exec (.wrsr w) s = .next (s.trap e.r (refused e 0x02))) ∧
    ∀ x ∈ srSet (e.u w.a.toNat) e.sh, e.sh.srWrite x.1 (e.u w.a.toNat) = x.2

/-- R206, R209, R302, R303, R305, R299: in a privileged sheet `halt` stops the quire, TLBINV drops the entries of its kind in its
scope, DIEFREQ begins a clock step, and CTXCTL suspends or resumes a context of the partition, to which no re-key of the
descriptor's page may run (R359); memory is as before, apart from the event record that reports a `halt` and the completion word of a ream that ends with it (R288). -/
def Obligations.PrivilegedWords : Prop :=
  ∀ (s : State) (e : Env), Live s e → e.cx.desc.priv = true →
    let dies := fun t : State => (t.dies.get Die.down (e.q.core / 200))
    let die := dies s
    (∀ w : FRC, Answers (exec (.halt w) s) fun t => (t.quires.find e.r.h).map (·.phase) = some (.stopped false) ∧
      (t.sheet? e.r) = some e.sh ∧
      let ring := 0x8000000000000 + (s.part e.cx.part).evtbase.toNat + 32 * (s.part e.cx.part).evttail.toNat
      ∀ a, a < ring ∨ ring + 32 ≤ a →
        (∀ m x, e.q.ream = some m → s.reams.find m = some x → x.done ≠ 0 → a < x.done ∨ x.done + 8 ≤ a) →
        t.readByte a = s.readByte a) ∧
    (∀ (i : Instr) (scope : BitVec 4) (hit : TlbEnt → Bool), 3 ≤ scope.toNat → scope.toNat ≤ 6 →
      (i, hit) ∈ [(Instr.tlbinvAll scope, fun _ : TlbEnt => true)] ∨
        (∃ c, (i = .tlbinvContext c scope ∧ hit = fun x : TlbEnt => x.ctx = c.toNat) ∨
          (i = .tlbinvPage c scope ∧ hit = fun x : TlbEnt => x.ctx = c.toNat && x.va ≤ e.sh.tlbva.toNat % 2 ^ 56 &&
            e.sh.tlbva.toNat % 2 ^ 56 < x.va + x.size)) →
      Answers (exec i s) fun t => Own s t e id id [] (past s e) ∧ (∀ a, t.readByte a = s.readByte a) ∧
        (∀ n, (t.core n).tlb = (s.core n).tlb.filter fun x => !(near scope.toNat n e.q.core && hit x)) ∧
        ∀ g, (t.gallery g).tlb = (s.gallery g).tlb.filter fun x => !(nearGallery scope.toNat g e.q.core && hit x)) ∧
    (∀ v : Word, v.toNat % 16 ≤ 8 → Answers (exec (.diefreq v) s) fun t => Own s t e id id [] (past s e) ∧
      (∀ a, t.readByte a = s.readByte a) ∧ dies t = if die.step.isSome then { die with heldF := some (v.toNat % 16) }
        else if die.f = v.toNat % 16 then die
        else { die with
          cyc := die.cyc + (s.now - die.cycAt) / die.period
          cycAt := s.now
          step := some (v.toNat % 16, s.now + 2000 * 720720) }) ∧
    (∀ (c : BitVec 12) (x : Ctx), s.ctxs.find c.toNat = some x → x.part = e.cx.part →
      (Answers (exec (.ctxctlSuspend c) s) fun t => (t.ctxs.find c.toNat).map (·.suspended) = some true ∧
        ∀ a, t.readByte a = s.readByte a) ∧
      (s.rekeys = [] → Answers (exec (.ctxctlResume c) s) fun t => (t.ctxs.find c.toNat).map (·.suspended) = some false ∧
        t.sheet? e.r = some (past s e e.sh) ∧ ∀ a, t.readByte a = s.readByte a))

/-- R58, R80-R82: what the issue of a word refuses: a privileged word in a sheet without privilege is PRIVILEGED; a flag set that
names no flag and a V operand outside the allocation are ILLEGAL_ENCODING, and a full flag holds the word. -/
def Obligations.IssueChecks : Prop :=
  ∀ (s : State) (e : Env), Live s e →
    (∀ (i : Instr) (w : FRC) (c : BitVec 12) (x : BitVec 4) (v : Word), e.cx.desc.priv = false →
      i ∈ [.halt w, .tlbinvPage c x, .tlbinvContext c x, .tlbinvAll x, .diefreq v, .ctxctlSuspend c, .ctxctlResume c] →
      exec i s = .next (s.trap e.r (refused e 0x05))) ∧
    (∀ (i : Instr) (w : FI), i ∈ [.rdsr w, .wrsr w] → srKnown w.imm.toNat = true → 0x800 ≤ w.imm.toNat → e.cx.desc.priv = false →
      exec i s = .next (s.trap e.r (refused e 0x05))) ∧
    (∀ (i : Instr) (w : FM), i ∈ [.ldG w, .ldGx w, .ldC w, .cas w] → e.sh.flagOf w.com.fs = 15 →
      exec i s = .next (s.trap e.r (refused e 0x02))) ∧
    (∀ (i : Instr) (x : RRow), ((arith i).or (logic i)).or (bitsRow i) = some x → i.wf = true →
      e.sh.vOk (aluVs x.w x.nd x.na x.nb x.nc) = false → exec i s = .next (s.trap e.r (refused e 0x02))) ∧
    (∀ (i : Instr) (w : FR), i ∈ [.noise w, .noiseSt w] → e.sh.vOk (vsOf w.com [(w.d.toNat, 1)]) = true →
      e.sh.flagOf w.com.fs ≠ 15 → 63 ≤ e.sh.flags.get 0 (e.sh.flagOf w.com.fs) →
      Answers (exec i s) fun t => Stalls s t e (.issue 15))

/-- R41, R69, R145, R161, R163: loads that pass their checks hold the bytes of their addresses, zero-extended, until the flag
clears; global ones of plain pages with no re-key, no error and nothing of theirs at a vat in their way. -/
def Obligations.LoadWords : Prop :=
  ∀ (w : FM) (s : State) (e : Env), Live s e → e.flagRoom w.com.fs → s.ordHeld e w.ord w.scope = false →
    let n := w.size.bytes
    (∀ (i : Instr) (ni : Nat) (addr : Option Nat → DWord) (pa : Option Nat → Nat),
      (i = .ldG w ∧ ni = 1 ∧ addr = fun l => e.gaddr l w.base w.idx w.scale w.off.toInt n) ∨
        (i = .ldGx w ∧ ni = 2 ∧ addr = fun l => e.gxaddr l w.base w.idx w.off.toInt n) →
      e.sh.vOk (mvs w.com w.t w.idx w.size.regs ni) = true → s.rekeys = [] → e.sh.held = [] →
      (∀ l ∈ e.lanes w.com, Plain s e leafR n (addr l) (pa l) ∧ s.ue (pa l) n = false ∧ Unqueued s e l (pa l) n) →
      Answers (exec i s) fun t => Goes s t e [] (·.llOpen { held s e w.com.fs
        ((e.lanes w.com).flatMap fun l => dataRegs e w.t l (loaded s.readByte (pa l) n)) false with
          reads := (e.lanes w.com).map fun l => (pa l, n) }) 1) ∧
    (∀ off : Option Nat → Int, (off = fun l => e.caddr l w.base w.idx w.scale w.off.toInt n) →
      e.sh.vOk (mvs w.com w.t w.idx w.size.regs 1) = true → Unbanked e → (∀ l ∈ e.lanes w.com, InChamber s e n (off l)) →
      Answers (exec (.ldC w) s) fun t => Goes s t e [] (·.llOpen (held s e w.com.fs
        ((e.lanes w.com).flatMap fun l => dataRegs e w.t l (loaded (chamber e.q) (off l).toNat n)) false)) 1)

/-- R156, R161, R163, R342: stores that pass their checks write the bytes of their registers strand by strand and nothing else
in memory or chamber; the store hash takes them. -/
def Obligations.StoreWords : Prop :=
  ∀ (w : FM) (s : State) (e : Env), Live s e → s.ordHeld e w.ord w.scope = false →
    let n := w.size.bytes
    let data := dataOf e w.t.toNat n
    (∀ (i : Instr) (ni : Nat) (addr : Option Nat → DWord) (pa : Option Nat → Nat),
      (i = .stG w ∧ ni = 1 ∧ addr = fun l => e.gaddr l w.base w.idx w.scale w.off.toInt n) ∨
        (i = .stGx w ∧ ni = 2 ∧ addr = fun l => e.gxaddr l w.base w.idx w.off.toInt n) →
      e.sh.vOk (mvs w.com w.t w.idx w.size.regs ni) = true → s.rekeys = [] → s.worn ((e.lanes w.com).map pa) = none →
      (∀ l ∈ e.lanes w.com, Plain s e leafW n (addr l) (pa l) ∧ Unqueued s e l (pa l) n) →
      Answers (exec i s) fun t => OnlyMemory s t ∧
        (∀ a, t.readByte a = lastByte ((e.lanes w.com).map fun l => (pa l, data l)) s.readByte a) ∧
        Own s t e id id [] fun sh => past s e (sh.hashAll ((e.lanes w.com).map fun l => ((addr l).toNat, data l)))) ∧
    (∀ off : Option Nat → Int, (off = fun l => e.caddr l w.base w.idx w.scale w.off.toInt n) →
      e.sh.vOk (mvs w.com w.t w.idx w.size.regs 1) = true → Unbanked e → (∀ l ∈ e.lanes w.com, InChamber s e n (off l)) →
      let ws := (e.lanes w.com).map fun l => ((off l).toNat, data l)
      Answers (exec (.stC w) s) fun t => t.apart = s.apart ∧
        (∀ q, t.quires.find e.r.h = some q → ∀ a, chamber q a = lastByte ws (chamber e.q) a) ∧
        (∀ a, (∀ c o, s.region a ≠ .win c o) → t.readByte a = s.readByte a) ∧
        Own s t e (fun q => { q with cham := [] }) id [] fun sh => past s e (sh.hashAll ws))

/-- R156, R165, R166: atomics of plain memory and of chamber act on their words one issuer after another and return the old
values; `cas` writes where the old value compares equal. -/
def Obligations.AtomicWords : Prop :=
  ∀ (s : State) (e : Env), Live s e →
    (∀ (i : Instr) (c : Com) (t idx : BitVec 8) (size : Size) (ord : Ord) (scope : Scope) (k : Nat) (addr : Option Nat → DWord)
        (f : Option Nat → DWord → Option DWord) (pa : Option Nat → Nat),
      (∃ w : FMk, i = .atom w ∧ c = w.com ∧ t = w.t ∧ idx = w.idx ∧ size = w.size ∧ ord = w.ord ∧ scope = w.scope ∧ k = 1 ∧
          (addr = fun l => e.gaddr l w.base w.idx w.scale w.off.toInt w.size.bytes) ∧
          f = fun l old => some (atomFn w.kind.toNat (w.size = .b64) old (e.opnd l w.size.regs w.t.toNat))) ∨
        (∃ w : FM, i = .cas w ∧ c = w.com ∧ t = w.t ∧ idx = w.idx ∧ size = w.size ∧ ord = w.ord ∧ scope = w.scope ∧ k = 2 ∧
          (addr = fun l => e.gaddr l w.base w.idx w.scale w.off.toInt w.size.bytes) ∧
          f = fun l old => if old = e.opnd l w.size.regs w.t.toNat then some (e.opnd l w.size.regs (w.t.toNat + w.size.regs)) else none) →
      size = .b32 ∨ size = .b64 → e.flagRoom c.fs → s.ordHeld e ord scope = false →
      e.sh.vOk (mvs c t idx (k * size.regs) 1) = true → s.rekeys = [] → s.worn ((e.lanes c).map pa) = none →
      (∀ l ∈ e.lanes c, Plain s e (fun x => leafR x && leafW x && leafAT x) size.bytes (addr l) (pa l) ∧ s.ue (pa l) size.bytes = false ∧
        Unqueued s e l (pa l) size.bytes) →
      let r := atomics f size.bytes pa (e.lanes c) s.readByte
      Answers (exec i s) fun t' => OnlyMemory s t' ∧ (∀ a, t'.readByte a = r.1 a) ∧
        Own s t' e id id [] fun sh => past s e (sh.llOpen { held s e c.fs (((e.lanes c).zip r.2).flatMap fun x : Option Nat × DWord =>
          dataRegs e t x.1 (([x.2.setWidth 32, (x.2 >>> 32).setWidth 32] : List Word).take size.regs)) false with
            reads := (e.lanes c).map fun l => (pa l, size.bytes) })) ∧
    (∀ (w : FMk) (off : Option Nat → Int), (off = fun l => e.caddr l w.base w.idx w.scale w.off.toInt w.size.bytes) →
      w.size = .b32 ∨ w.size = .b64 → e.flagRoom w.com.fs → s.ordHeld e w.ord w.scope = false →
      e.sh.vOk (mvs w.com w.t w.idx w.size.regs 1) = true → Unbanked e → (∀ l ∈ e.lanes w.com, InChamber s e w.size.bytes (off l)) →
      let r := atomics (fun l old => some (atomFn w.kind.toNat (w.size = .b64) old (e.opnd l w.size.regs w.t.toNat))) w.size.bytes
        (fun l => (off l).toNat) (e.lanes w.com) (chamber e.q)
      Answers (exec (.atomC w) s) fun t => t.apart = s.apart ∧ (∀ q, t.quires.find e.r.h = some q → ∀ a, chamber q a = r.1 a) ∧
        Own s t e (fun q => { q with cham := [] }) id [] fun sh => past s e (sh.llOpen (held s e w.com.fs
          (((e.lanes w.com).zip r.2).flatMap fun x : Option Nat × DWord =>
            dataRegs e w.t x.1 (([x.2.setWidth 32, (x.2 >>> 32).setWidth 32] : List Word).take w.size.regs)) false)))

/-- R152, R155, R167, R168: a fence with nothing of its sheet before it goes on, and the sheet's accesses come before what it orders;
`fence.tr` makes the sheet's stores seen by the walkers of its scope once the vats have applied its operations. How the model
keeps that order is its own (logs 7, 12). -/
def Obligations.FenceWords : Prop :=
  ∀ (w : FM) (s : State) (e : Env), Live s e →
    (s.ordHeld e w.ord w.scope = false → s.vatPending e.r (fun _ => true) = false →
      Answers (exec (.fence w) s) fun t => Goes s t e [] id 0 ∧
        (w.ord = .rlx → t.stores = s.stores) ∧
        (w.ord ≠ .sc → t.stores = s.stores.map fun x => x.fence e.r w.ord)) ∧
    ((∀ v ∈ s.vats, ∀ o ∈ v.2.input ++ v.2.queue, o.ref ≠ some e.r ∧ ∀ k ∈ o.keys, k.ref ≠ e.r) →
      Answers (exec (.fenceTr w) s) fun t => Goes s t e [] id 0 ∧
      t.stores = s.stores.map fun x =>
        if x.ref = e.r then { x with dies := (if w.scope.code ≤ 5 then [e.q.core / 200] else [0, 1, 2, 3]) ++ x.dies } else x)

/-- R225, R231, R232, R236-R239, R241: words that reach the vats: posts and arming in strand order, table installation, what a table
slot holds: what stands when `dkquery` issues, which is the model's reading (log 36). -/
def Obligations.VatWords : Prop :=
  ∀ (s : State) (e : Env), Live s e → e.cx.debug = none →
    (∀ (w : FMk) (hits : List Hit) (img : List Byte), s.ordHeld e w.ord w.scope = false →
      e.sh.vOk (mvs w.com w.t w.idx w.size.regs 1) = true →
      hits.map (·.lane) = e.lanes w.com → (∀ h ∈ hits, h.va = e.gaddr h.lane w.base w.idx w.scale w.off.toInt w.size.bytes ∧
        Algebra s e leafW w.size.bytes h ∧ e.cx.tables.find (leafDTS h.leaf) = some img) →
      slotPresent img w.kind.toNat = true → w.kind ≠ 0 → ty64 (slotType img w.kind.toNat) = decide (w.size = .b64) →
      e.sh.posts + hits.length ≤ 1024 →
      Answers (exec (.post w) s) fun t => Own s t e id id [] (fun sh => past s e { sh with posts := sh.posts + hits.length }) ∧
        ToVats s t (hits.map fun h => e.vop s h h.pa (w.size = .b64) (.slot w.kind.toNat (slotKind img w.kind.toNat)
          (slotType img w.kind.toNat) (e.opnd h.lane w.size.regs w.t.toNat)) w.ord w.scope none true)) ∧
    (∀ (w : FE) (hits : List Hit), s.ordHeld e .rlx .device = false → e.sh.vOk [(w.va.toNat, 4)] = true →
      hits.map (·.lane) = (act e w.com).map some →
      (∀ h ∈ hits, h.va = e.spair w.sa.toNat + (e.w h.lane w.va.toNat).signExtend 64 ∧
        Algebra s e leafW (if w.mod.getLsbD 0 then 8 else 4) h) →
      (s.ordHeld e .rel .device = false → e.flagRoom w.com.fs → canonical (e.spair w.sb.toNat) = true →
        (e.spair w.sb.toNat).toNat % 8 = 0 → Answers (exec (.arm w) s) fun t => ToVats s t (hits.map fun h => e.vop s h h.pa (w.mod.getLsbD 0)
            (.arm (e.spair w.sb.toNat) (e.w h.lane (w.va.toNat + 1))) .rlx .device
            (some ⟨e.r, s.next, [e.key h.lane (w.va.toNat + 2)]⟩) false) ∧
          Own s t e id id [] fun sh => past s e (sh.llOpen { held s e w.com.fs
            (hits.map fun h => (e.key h.lane (w.va.toNat + 2), none)) false with left := hits.length })) ∧
      (Answers (exec (.disarm w) s) fun t => Own s t e id id [] (past s e) ∧
        ToVats s t (hits.map fun h => e.vop s h h.pa (w.mod.getLsbD 0) .disarm .rlx .device none false))) ∧
    (∀ (w : FE) (img : Option (List Byte)),
      let installed := fun t : State => t.cur = none ∧
        t.apart = { s.apart with installs := s.installs ++ [⟨s.next, e.r, e.q.ctx, w.mod.toNat % 4, img, []⟩] } ∧
        Own s t e id id [] fun sh => { past s e sh with wait := .dkload s.next }
      (∀ pa, img = some (s.readBytes pa 1024) → tableFault (s.readBytes pa 1024) = none → s.ordHeld e .rlx .device = false →
        s.rekeys = [] → s.ue pa 1024 = false → Unqueued s e none pa 1024 → Plain s e leafR 1024 (e.spair w.sa.toNat) pa → Answers (exec (.dkload w) s) installed) ∧
      (img = none → Answers (exec (.dkloadClr w) s) installed)) ∧
    (∀ w : FE, e.flagRoom w.com.fs → Answers (exec (.dkquery w) s) fun t => Acts s t e [] (·.llOpen (held s e w.com.fs
      [(.s w.sd.toNat, some (match e.cx.tables.find (w.mod.toNat % 4) with
          | none => 0
          | some t => ofBits 32 (fun j => j = 0 || (j ≤ 16 && slotPresent t (j - 1))) |>.setWidth 32)),
        (.s (w.sd.toNat + 1), some (e.cx.loads.get 0 (w.mod.toNat % 4)))] false)) 1) ∧
    (∀ w : FRC, e.sh.posts = 0 → Answers (exec (.vdrain w) s) fun t => Acts s t e [] id 0) ∧
    (∀ w : FRC, e.sh.posts ≠ 0 → Answers (exec (.vdrain w) s) fun t => Waits s t e [] id .vdrain 0)

/-- R157, R173-R178: pools: their slots, heads, statuses and waits; `pwait` and `pdrain` join the operations that filled the slots. -/
def Obligations.PoolWords : Prop :=
  ∀ (w : FE) (s : State) (e : Env), Live s e →
    let p := w.va.toNat
    let off := (e.s w.sa.toNat).toNat
    let pools := fun t : State => (t.quires.find e.r.h).map (·.pools)
    (off % 16 = 0 → off + 16 * w.mod.toNat ≤ 4096 * e.q.chamg → (∀ x, e.q.pools.find p = some x → x.resv = 0) →
      Answers (exec (.pinit w) s) fun t => t.apart = s.apart ∧ pools t = some (e.q.pools.put p ⟨e.s w.sa.toNat, w.mod.toNat, 0, 0, 0⟩) ∧
        Own s.retryAll t e (fun q => { q with cham := [], pools := [] }) retried [] (past s e) ∧
        ∀ q, t.quires.find e.r.h = some q → ∀ a, chamber q a =
          if off ≤ a ∧ a < off + 16 * w.mod.toNat then if (a - off) % 16 = 0 then 0xFF else 0 else chamber e.q a) ∧
    (∀ x, e.q.pools.find p = some x →
      let late := ∃ d : DWord, w.mod.getLsbD 0 = true ∧ d = e.spair w.sa.toNat ∧ d.toNat ≤ s.now / 720720
      let head := (List.range 4).map fun j => (RegKey.s (w.sd.toNat + j),
        if x.filled = 0 then if j = 0 then (0xFF : Word) else 0
        else BitVec.ofNat 32 (leNat ((List.range 4).map fun b => chamber e.q (x.off.toNat + 16 * x.rd + 4 * j + b))))
      (x.filled ≠ 0 ∨ x.resv = 0 ∨ late → Answers (exec (.pwait w) s) fun t => Goes s t e head id 0 ∧
        t.stores = (s.headJoin e.r p x).stores) ∧
      (x.filled = 0 → x.resv ≠ 0 → ¬late → Answers (exec (.pwait w) s) fun t =>
        Waits s t e [] (·.noteSpin (s.cycles e.q.core)) (.pwait p w.sd.toNat (if w.mod.getLsbD 0 then some (e.spair w.sa.toNat) else none)) 0) ∧
      (x.filled = 0 → Answers (exec (.prel w) s) fun t => Acts s t e [] id 0) ∧
      (x.filled ≠ 0 → Answers (exec (.prel w) s) fun t =>
        t.apart = s.apart ∧ pools t = some (e.q.pools.put p { x with rd := (x.rd + 1) % x.n, filled := x.filled - 1 }) ∧
        Own s.retryAll t e (fun q => { q with cham := [], pools := [] }) retried [] (past s e) ∧
        ∀ q, t.quires.find e.r.h = some q → ∀ a, chamber q a = if a = x.off.toNat + 16 * x.rd then 0xFF else chamber e.q a) ∧
      (x.resv = 0 → Answers (exec (.pdrain w) s) fun t => Goes s t e [] id 0 ∧
        t.stores = (s.slotJoin e.r p fun _ => true).stores) ∧
      (x.resv ≠ 0 → Answers (exec (.pdrain w) s) fun t => Waits s t e [] id (.pdrain p) 0)) ∧
    (Answers (exec (.pstat w) s) fun t => Acts s t e
      (match e.q.pools.find p with
        | some x => [(.s w.sd.toNat, BitVec.ofNat 32 (x.n + 2 ^ 7 * x.filled + 2 ^ 14 * x.resv + 2 ^ 21 * x.rd)), (.s (w.sd.toNat + 1), x.off)]
        | none => [(.s w.sd.toNat, 0), (.s (w.sd.toNat + 1), 0)]) id 0)

/-- R146, R176, R179, R180, R240: copies and near-memory commands that pass their checks reserve a slot and a copy its scoreboard
entries, and go their way; a copy of no bytes completes at once with status OK in its slot. That they wait for what the sheet has at the
vats is the model's reading (log 12), here and at the words of the engines and the fabric. -/
def Obligations.CopyWords : Prop :=
  ∀ (w : FE) (s : State) (e : Env) (x : Pool), Live s e → e.q.pools.find w.va.toNat = some x → x.filled + x.resv < x.n →
    s.unplaced e.r e.sh = false →
    let pools := fun t : State => (t.quires.find e.r.h).map (·.pools)
    let took := some (e.q.pools.upd w.va.toNat fun x => { x with resv := x.resv + 1 })
    (∀ (i : Instr) (c : Copy),
      (i = .acopy w ∧ c = copyOf e w s.next (e.s w.sc.toNat).toNat 1 0 0) ∨
        (i = .acopy2 w ∧ c = copyOf e w s.next (e.s w.sc.toNat).toNat (e.s (w.sc.toNat + 1)).toNat (e.s (w.sc.toNat + 2)).toInt
          (e.s (w.sc.toNat + 3)).toInt) →
      (∀ y ∈ c.sides, y.1.cham = false → canonical y.1.addr = true) →
      (c.bytes ≠ 0 → c.rows ≠ 0 →
        (∀ y ∈ c.sides, y.1.cham = true → 0 ≤ (c.bounds y.1.addr y.2).1 ∧ (c.bounds y.1.addr y.2).2 ≤ 4096 * e.q.chamg) →
        (s.core e.q.core).board.length + 2 ≤ 16 →
        Answers (exec i s) fun t => t.apart = { s.apart with copies := s.copies ++ [c] } ∧ pools t = took ∧ t.next = s.next + 1 ∧
          (t.core e.q.core).board = (s.core e.q.core).board ++ (c.sides.filter (·.1.cham)).map (fun y =>
            ⟨c.id, e.r.h, (c.bounds y.1.addr y.2).1.toNat, (c.bounds y.1.addr y.2).2.toNat, true, false⟩) ∧
          (∀ a, t.readByte a = s.readByte a) ∧ Own s t e (fun q => { q with pools := [] }) id [] (past s e)) ∧
      (c.bytes = 0 ∨ c.rows = 0 → Answers (exec i s) fun t =>
        t.copies = s.copies ∧ (pools t).map (·.find w.va.toNat) = some (some { x with filled := x.filled + 1 }) ∧
        AtOnce s t e w.va.toNat x 0x00)) ∧
    (∀ (i : Instr) (n : Nm), (i = .nmdot w ∧ n = nmOf e w s.next true) ∨ (i = .nmaxpy w ∧ n = nmOf e w s.next false) →
      canonical n.x = true → canonical n.y = true → (n.dot = true → canonical n.dst = true ∧ n.dst.toNat % 4 = 0) →
      n.x.toNat % (if n.bf then 2 else 4) = 0 → n.y.toNat % (if n.bf then 2 else 4) = 0 → (e.s w.sc.toNat).toNat < 2 ^ 24 →
      Answers (exec i s) fun t => t.apart = { s.apart with nms := s.nms ++ [n] } ∧ pools t = took ∧ t.next = s.next + 1 ∧
        (∀ a, t.readByte a = s.readByte a) ∧ Own s t e (fun q => { q with pools := [] }) id [] (past s e))

/-- R243-R256, R262: matrix operations that pass their checks enter the engine queue with their operands as R245, R246 and R253 name
them, and take their chamber ranges. -/
def Obligations.MatrixOperations : Prop :=
  ∀ (w : FE) (s : State) (e : Env), Live s e → w.va.toNat < e.q.ntiles → s.unplaced e.r e.sh = false →
    let side := fun (cham : Bool) (r : BitVec 6) => (⟨cham, if cham then (e.s r.toNat).setWidth 64 else e.spair r.toNat⟩ : Side)
    (EngineRoom s e [] → Answers (exec (.mxZero w) s) fun t => Engaged s t e [mxOp s e w.va.toNat (.zero
        (let x : Nat := (e.s w.sa.toNat).toNat % 2 ^ 16; if x < 2 ^ 15 then (x : Int) else (x : Int) - 2 ^ 16))] [] [] ∧
      Own s t e id id [] (past s e)) ∧
    (∀ (i : Instr) (f : FmtBlock) (c : Option Conv) (descs : List Nat),
      let m := operands e w f c
      let off := (e.s (w.sc.toNat + 3)).toNat
      let conv := (e.s (w.sc.toNat + 1)).toNat
      let bytes := fun off => (List.range 32).map fun j => chamber e.q (off + j)
      let ranges := (reaches m).flatMap inChamber ++ descs.map fun d => (d, d + 32)
      (i = .mxMma w ∧ c = none ∧ descs = [off]) ∨
        (i = .mxConv w ∧ c.isSome ∧ convOf (bytes conv) m.kk (e.s w.sd.toNat).toNat = c ∧ descs = [off, conv]) →
      m.kk % 128 = 0 → m.kk ≠ 0 → m.kk ≤ 16384 → (∀ d ∈ descs, d + 32 ≤ 4096 * e.q.chamg ∧ d % 16 = 0) →
      fmtBlockOf (bytes off) = some f → (∀ x ∈ reaches m, SideOk e x) → m.a.addr.toNat % 16 = 0 →
      (∀ b ∈ m.b, b.addr.toNat % 16 = 0) → m.astr % 16 = 0 → m.bstr % 16 = 0 → (f.ask = 1 → f.ascl.toNat % 4 = 0) →
      (f.bsk = 1 → f.bscl.toNat % 4 = 0) →
      (m.b = none → ∃ n k x, e.q.sub = some (n, k) ∧ (s.gallery (e.q.core / 20)).streams.find n = some x ∧ k + m.kk / 128 ≤ x.t ∧
        halves f.bfmt = 2 ^ x.ew) →
      EngineRoom s e ranges →
      Answers (exec i s) fun t => Engaged s t e [mxOp s e w.va.toNat (.mma m)] [] ranges ∧
        Own s t e (fun q => { q with sub := none }) id [] (past s e) ∧
        (t.quires.find e.r.h).map (·.sub) = some (e.q.sub.map fun x => (x.1, if m.b = none then x.2 + m.kk / 128 else x.2))) ∧
    (let dst := side (w.mod.getLsbD 2) w.sa
     let stride := (e.s w.sc.toNat).toNat
     let l := (e.s (w.sc.toNat + 1)).toNat
     let len := if l = 0 then 0 else (l - 1) * stride + 128 * ([4, 2, 1, 1] : List Nat).getD (w.mod.toNat % 4) 1
     e.flagRoom w.com.fs → l ≤ 128 → (l ≠ 0 → SideOk e (dst, len)) → (dst.cham = false → canonical dst.addr = true) →
     dst.addr.toNat % 16 = 0 → stride % 16 = 0 → EngineRoom s e (inChamber (dst, len)) →
     Answers (exec (.mxRead w) s) fun t =>
       Engaged s t e [mxOp s e w.va.toNat (.read dst stride l (w.mod.toNat % 4) (w.mod.getLsbD 3) s.next)] [] (inChamber (dst, len)) ∧
         Own s t e id id [] fun sh => past s e (sh.llOpen { held s e w.com.fs [] false with left := 1 }))

/-- R257-R263: batches, statuses and streams: `mx.fence`, `mx.wait`, `mx.stat`, `mx.sub` and `mx.unsub`. That `mx.sub` is
answered at once (log 25) and that `mx.stat` gives what stands at its issue (log 36) are the model's readings. -/
def Obligations.MatrixControl : Prop :=
  ∀ (w : FE) (s : State) (e : Env), Live s e →
    let c := s.core e.q.core
    let complete := fun n : Word => ∀ o ∈ c.mx, o.kind ≠ .unsub → o.ref = e.r → 2 ^ 31 ≤ (n - o.batch).toNat
    let n := e.sh.batch
    let next := if n = 0xFFFFFFFF then 1 else n + 1
    (∀ done : Bool, (done = true ↔ complete n) → Answers (exec (.mxFence w) s) fun t =>
      Acts s t e [(.s w.sd.toNat, n)] (fun sh => { sh with
        batch := next
        window := (sh.cur :: sh.window).take 64
        cur := ⟨next, 0, 0, 0⟩
        mxDone := if done then n else sh.mxDone }) 0) ∧
    (∀ b : Batch, let n := e.s w.sa.toNat
      n ≠ 0 → n ≠ e.sh.batch → (e.sh.batch - n).toNat < 2 ^ 31 → (e.sh.window.find? fun x => x.n = n) = some b →
      (complete n → Answers (exec (.mxWait w) s) fun t =>
        Goes s t e [(.s w.sd.toNat, BitVec.ofNat 32 (b.status.toNat + 2 ^ 8 * b.tile)), (.s (w.sd.toNat + 1), b.addr)] id 0 ∧
          t.stores = (s.batchJoin e.r n).stores) ∧
      (¬complete n → Answers (exec (.mxWait w) s) fun t => Waits s t e [] id (.mxWait n w.sd.toNat) 0)) ∧
    (∀ x : Tile, w.va.toNat < e.q.ntiles → e.flagRoom w.com.fs → e.q.tiles.get (Tile.reserved e.q.fkey) w.va.toNat = x →
      let bit := fun (b : Bool) k => if b then 2 ^ k else 0
      Answers (exec (.mxStat w) s) fun t => Acts s t e [] (·.llOpen (held s e w.com.fs
        [(.s w.sd.toNat, some (BitVec.ofNat 32 (bit x.act 31 + bit x.flt 30 + 2 ^ 16 * x.fstat.toNat + 2 ^ 8 * x.nblk + x.done))),
         (.s (w.sd.toNat + 1), some (BitVec.ofInt 32 x.e)),
         (.s (w.sd.toNat + 2), some (BitVec.ofNat 32 ((c.mx.filter fun o => o.kind ≠ .unsub).length % 2 ^ 6))),
         (.s (w.sd.toNat + 3), some e.sh.mxDone)] false)) 1) ∧
    (let base := e.spair w.sb.toNat
     let stride := (e.s w.sc.toNat).toNat
     let total := (e.s (w.sc.toNat + 1)).toNat
     let window := (e.s (w.sc.toNat + 2)).toNat
     let streams := fun t : State => (t.gallery (e.q.core / 20)).streams
     let named := fun y : Nat × Stream => y.2.id = (e.s w.sa.toNat).toNat % 2 ^ 16
     let same := fun x : Stream => x.base = base ∧ x.stride = stride ∧ x.t = total ∧ x.ew = w.mod.toNat % 4
     let refuses := fun st : Word => Answers (exec (.mxSub w) s) fun t => Acts s t e [(.s w.sd.toNat, st)] id 0
     let joins := fun (k : Nat) (x : Stream) => Answers (exec (.mxSub w) s) fun t =>
       t.apart = { s.apart with galleries := t.galleries } ∧ (∀ m, (t.core m).apart = (s.core m).apart) ∧
         streams t = (streams s).put k { x with subs := x.subs ++ [(e.r.h, window, 0)] } ∧
         (t.quires.find e.r.h).map (·.sub) = some (some (k, 0)) ∧
         Own s t e (fun q => { q with sub := none }) id [(.s w.sd.toNat, 0)] (past s e)
     e.q.sub = none → 1 ≤ total → total ≤ 2 ^ 24 → 1 ≤ window → window ≤ 16 → canonical base = true → base.toNat % 16 = 0 →
     stride % 16 = 0 →
     (∀ k x, (streams s).find? (fun y => named y) = some (k, x) →
       (¬same x → refuses 2) ∧ (same x → x.dropped ≠ 0 → refuses 3) ∧ (same x → x.dropped = 0 → joins k x)) ∧
     ((∀ y ∈ streams s, ¬named y) → (∀ k, k < 8 → ((streams s).find k).isSome) → refuses 1) ∧
     (∀ k, k < 8 → (∀ y ∈ streams s, ¬named y) → (streams s).find k = none → (∀ j, j < k → ((streams s).find j).isSome) →
       joins k ⟨(e.s w.sa.toNat).toNat % 2 ^ 16, base, stride, total, w.mod.toNat % 4, e.q.ctx, 0, [], [], 0⟩)) ∧
    (∀ bs : Bool, (∀ o ∈ c.mx, o.kind ≠ .unsub ∧ o.id < s.next) →
      (bs = true ↔ ∃ o ∈ c.mx, o.ref.h = e.r.h ∧ ∃ m, o.kind = .mma m ∧ m.b = none) →
      Answers (exec (.mxUnsub w) s) fun t => t.next = s.next + 1 ∧
        Own s t e (fun q => { q with sub := none }) id [] (past s e) ∧
        if bs then Engaged s t e [mxOp s e 0 .unsub] [] [] ∧ (t.quires.find e.r.h).map (·.sub) = some e.q.sub
        else (t.quires.find e.r.h).map (·.sub) = some none ∧ (t.core e.q.core).mx = c.mx ∧
          ∀ k m x, e.q.sub = some (k, m) → (s.gallery (e.q.core / 20)).streams.find k = some x →
            ((t.gallery (e.q.core / 20)).streams.find k).map (·.subs) =
              let others := x.subs.filter fun y => y.1 ≠ e.r.h
              if others = [] then none else some others)

/-- R157, R269-R280: watermark words that pass their checks: `wm.init` binds and fills, after the operations and the waiting `wm.init`
words of its quire, the operations enter the array's order with the
range they cover, `wm.sync` reads the version, `wm.release` unbinds. -/
def Obligations.WmaWords : Prop :=
  ∀ (w : FE) (s : State) (e : Env), Live s e → e.q.wmag ≠ 0 →
    let c := s.core e.q.core
    let quiet := ∀ o ∈ c.wm, o.ref.h ≠ e.r.h
    let ext := fun t : State => (t.quires.find e.r.h).map (·.ext)
    (let g := fun i => e.s (w.sa.toNat + i)
     let mode := w.mod.toNat % 4
     let lo := (g 0).toNat
     let n := (g 1).toNat
     1 ≤ n → n ≤ 16384 → lo + n ≤ 256 * e.q.wmag → (mode ≠ 1 → nan32 ((g 2).setWidth 64) = false) →
     (mode = 2 → classBit .f32 ((g 3).setWidth 64) ∉ [0, 7, 8, 9] ∧ FV.cmp (fp32.decode (g 2).toNat) (fp32.decode (g 3).toNat) ≤ 0) →
     (¬quiet ∨ e.q.wmLast ≠ 0 → Answers (exec (.wmInit w) s) fun t =>
       Waits s t e [] id (.wmInit ((c.wm.filter fun o => o.ref.h = e.r.h).map (·.id)) (e.q.wmLast + 1) mode lo n (g 2) (g 3)) 0) ∧
     (quiet → e.q.wmLast = 0 → Answers (exec (.wmInit w) s) fun t => Rest s t ∧ ext t = some (some ⟨mode, g 3, lo, n, 0⟩) ∧
       Own s t e (fun q => { q with ext := none, arr := [] }) id [] (past s e) ∧
       ∀ q, t.quires.find e.r.h = some q → ∀ i, q.arrElem i = if lo ≤ i ∧ i < lo + n then g 2 else e.q.arrElem i)) ∧
    (∀ x : Extent, e.q.ext = some x →
      let free := fun lo hi => c.board.length < 16 ∧
        ∀ b ∈ c.board, (b.copy = true ∨ b.mx = true) → b.h = e.r.h → b.hi ≤ lo ∨ hi ≤ b.lo
      let goes := fun (i : Instr) (lo hi n : Nat) (kind : WmKind) => s.unplaced e.r e.sh = false → Answers (exec i s) fun t =>
        Engaged s t e [] [⟨s.next, e.r, s.next, w.sd.toNat, kind⟩] [(lo, hi)] ∧
          Own s t e id id [] fun sh => past s e (sh.llOpen { held s e w.com.fs
            ((List.range n).map fun j => (.s (w.sd.toNat + j), none)) false with left := 1 })
      (∀ (i : Instr) (n : Nat) (cs : List Cand) (kind : WmKind), e.flagRoom w.com.fs →
        (∃ y, cs = [y] ∧ n = 1 ∧ ((i = .wmProbe w ∧ kind = .probe y) ∨ (i = .wmCommit w ∧ kind = .commit y
          (if w.mod.getLsbD 0 then some (e.s w.sc.toNat) else none)))) ∨
          (i = .wmSelect w ∧ n = w.mod.toNat % 8 + 1 ∧ kind = .select cs (e.spair w.sc.toNat)) →
        let off := (e.s w.sb.toNat).toNat
        let unit := fun y : Cand => if y.sparse then 8 else 4
        let covers := (off, off + 16 * n) :: (cs.filter (·.len ≠ 0)).map fun y => (y.off, y.off + unit y * y.len)
        let lo := covers.foldl (fun m y => min m y.1) off
        let hi := covers.foldl (fun m y => max m y.2) off
        off % 16 = 0 → off + 16 * n ≤ 4096 * e.q.chamg → ((List.range n).map fun j => candOf e.q x (off + 16 * j)) = cs.map some →
        (∀ y ∈ cs, y.off % unit y = 0 ∧ (y.len ≠ 0 → y.off + unit y * y.len ≤ 4096 * e.q.chamg)) → free off (off + 16 * n) → free lo hi →
        goes i lo hi 4 kind) ∧
      (let dst := (e.s w.sa.toNat).toNat
       let n := (e.s w.sc.toNat).toNat
       e.flagRoom w.com.fs → dst % 4 = 0 → (n ≠ 0 → dst + 4 * n ≤ 4096 * e.q.chamg) → (e.s w.sb.toNat).toNat + n ≤ x.len → n ≤ 16384 →
       free dst (dst + 4 * n) → goes (.wmRead w) dst (dst + 4 * n) 1 (.read dst (e.s w.sb.toNat).toNat n)) ∧
      ((∀ o ∈ c.wm, o.ref ≠ e.r) → Answers (exec (.wmSync w) s) fun t => Goes s t e [(.s w.sd.toNat, x.ver)] id 0 ∧
        t.stores = (s.joinEng e.r (· == .wma e.r)).stores) ∧
      ((∃ o ∈ c.wm, o.ref = e.r) → Answers (exec (.wmSync w) s) fun t => Waits s t e [] id (.wmSync w.sd.toNat) 0) ∧
      (quiet → Answers (exec (.wmRelease w) s) fun t => Rest s t ∧ ext t = some none ∧
        Own s t e (fun q => { q with ext := none }) id [] (past s e)))

/-- R314-R327: fabric words of a bound slot: an operation issued while SETTLING joins the pending set, one of an ACTIVE slot with a
route leaves on it, one of an EXCLUDED slot completes at once; `gstat`, `gabort` and `gdl`. That `gstat` gives what stands at its
issue is the model's reading (log 36). -/
def Obligations.FabricWords : Prop :=
  ∀ (w : FE) (s : State) (e : Env) (g : Group), Live s e →
    let slot := w.mod.toNat % 16
    let pools := fun t : State => (t.quires.find e.r.h).map (·.pools)
    let group := fun t : State => (t.ctx e.q.ctx).groups.find slot
    (∀ x : Pool, FabReady s e w g x →
      let took := some (e.q.pools.upd w.va.toNat fun x => { x with resv := x.resv + 1 })
      let pends := fun (i : Instr) (o : FabOp) (range : List (Nat × Nat)) => Answers (exec i s) fun t =>
        t.apart = { s.apart with fabs := s.fabs ++ [o] } ∧ t.next = s.next + 1 ∧ pools t = took ∧ (∀ a, t.readByte a = s.readByte a) ∧
          (t.core e.q.core).board = (s.core e.q.core).board ++ range.map (fun r => ⟨s.next, e.r.h, r.1, r.2, false, false⟩) ∧
          Own s t e (fun q => { q with pools := [] }) id [] (past s e)
      (∀ (i : Instr) (send : Bool) (m : Member) (p : Nat), (i = .gsend w ∧ send = true) ∨ (i = .gfetch w ∧ send = false) →
        let lc := w.mod.getLsbD 4
        let loc : Side := ⟨lc, if lc then (e.s w.sa.toNat).setWidth 64 else e.spair w.sa.toNat⟩
        let rem := e.spair w.sb.toNat
        let n := (e.s w.sc.toNat).toNat
        let tgt := (e.s (w.sc.toNat + 1)).toNat
        let pa := e.spair (w.sc.toNat + 2)
        let post := if w.mod.getLsbD 5 then some (w.mod.toNat / 64 % 16, pa, e.s (w.sd.toNat + 3)) else none
        let range := if lc then [(loc.addr.toNat, loc.addr.toNat + n)] else []
        let o := fun after => fabOp s e w g (if send then .send loc rem n tgt else .fetch loc rem n tgt) post after (e.spair w.sd.toNat)
          (e.s (w.sd.toNat + 2))
        tgt < g.nmem → tgt < 4096 → tgt ≠ g.rank → (n ≠ 0 → SideOk e (loc, n)) → (lc = false → canonical loc.addr = true) → canonical rem = true → n ≤ 2 ^ 30 →
        (w.mod.getLsbD 5 = true → canonical pa = true ∧ pa.toNat % 4 = 0) →
        (g.st = .settling → w.mod.getLsbD 10 = false → pends i (o []) range) ∧
        (g.st = .active → lc = true ∨ send = false → w.mod.getLsbD 10 = false → g.members[tgt]? = some m →
          s.route g tgt = some p → (s.port p).buf.length < 1024 →
          Answers (exec i s) fun t => t.fabs = s.fabs ++ [{ o [] with sent := true, port := some p }] ∧ pools t = took ∧
            t.outbox = s.outbox ++ [(p, ⟨(s.port p).tx, .op tgt ⟨0, s.cfg.node, e.q.ctx, m.ctx, slot, g.gen, g.rank, s.next,
              if send then .write rem ((List.range n).map fun j => chamber e.q (loc.addr.toNat + j)) else .read rem n, post, []⟩⟩)] ∧
            (∀ a, t.readByte a = s.readByte a) ∧ Own s t e (fun q => { q with pools := [] }) id [] (past s e)) ∧
        (g.st = .excluded → Answers (exec i s) fun t => t.fabs = s.fabs ∧
          (pools t).map (·.find w.va.toNat) = some (some { x with filled := x.filled + 1 }) ∧ AtOnce s t e w.va.toNat x 0x24)) ∧
      (let o := fabOp s e w g (.bar (g.bars + 1)) none [] (e.spair w.sd.toNat) (e.s (w.sd.toNat + 2))
       (g.st = .settling → pends (.gbar w) o []) ∧
       (g.st = .active → (∃ r, r < g.nmem ∧ r ≠ g.rank ∧ ∀ y ∈ g.arrived, y.1 = r → y.2 ≤ g.bars) →
         Answers (exec (.gbar w) s) fun t => (∃ y ∈ t.fabs, y.id = s.next ∧ y.kind = .bar (g.bars + 1)) ∧
           (group t).map (·.bars) = some (g.bars + 1) ∧
           ((∀ y ∈ s.fabs, y.ctx = e.q.ctx → y.slot = slot → ∀ i, y.kind = .bar i →
               ∃ r, r < g.nmem ∧ r ≠ g.rank ∧ ∀ z ∈ g.arrived, z.1 = r → z.2 < i) →
             (∀ a, t.readByte a = s.readByte a) ∧ Own s t e (fun q => { q with pools := [] }) id [] (past s e)))) ∧
      (e.spair w.sb.toNat = 0 →
        let o := fabOp s e w g (.reform []) none [] (e.spair w.sa.toNat) (e.s w.sd.toNat)
        (g.st = .settling → pends (.greform w) o []) ∧
        (g.st = .active → g.origin = false → (∀ y ∈ s.fabs, y.ctx = e.q.ctx → y.slot = slot → ∀ m, y.kind ≠ .reform m) →
          Answers (exec (.greform w) s) fun t => o ∈ t.fabs ∧ (group t).map (·.st) = some .settling ∧
            (group t).map (·.seen) = some [⟨g.rank, 0x04, g.gen⟩] ∧ (∀ a, t.readByte a = s.readByte a) ∧
            Own s t e (fun q => { q with pools := [] }) id [] (past s e)))) ∧
    (e.flagRoom w.com.fs → e.cx.groups.find slot = some g → Answers (exec (.gstat w) s) fun t => Acts s t e [] (·.llOpen (held s e w.com.fs
      [(.s w.sd.toNat, some (BitVec.ofNat 32 (g.st.code + 2 ^ 16 * g.gen))),
       (.s (w.sd.toNat + 1), some (BitVec.ofNat 32 (g.rank + 2 ^ 16 * g.nmem))),
       (.s (w.sd.toNat + 2), some (BitVec.ofNat 32 (g.trip.elim 0 fun y => y.rank + 2 ^ 16 * y.reason.toNat))),
       (.s (w.sd.toNat + 3), some (BitVec.ofNat 32 (s.fabs.filter fun o => o.ctx = e.q.ctx ∧ o.slot = slot).length))] false)) 1) ∧
    (e.cx.groups.find slot = some g → g.st ≠ .unbound →
      (g.st ≠ .active → Answers (exec (.gabort w) s) fun t => Acts s t e [] id 0) ∧
      (g.st = .active → g.origin = false → Answers (exec (.gabort w) s) fun t => Own s t e id id [] (past s e) ∧
        (∀ a, t.readByte a = s.readByte a) ∧ group t = some { g with
          st := .settling
          origin := true
          seen := [⟨g.rank, BitVec.ofNat 8 (0x80 + (e.s w.sa.toNat).toNat % 2 ^ 7), g.gen⟩]
          window := some (s.now / 720720 + 2 * g.lat) }) ∧
      ((e.spair w.sa.toNat).toNat ≤ 2 ^ 40 → Answers (exec (.gdl w) s) fun t =>
        t.apart = { s.apart with ctxs := t.ctxs } ∧ Own s t e id id [] (past s e) ∧
          group t = some { g with span := if e.spair w.sa.toNat = 0 then g.defdl else (e.spair w.sa.toNat).toNat }))

/-- R334-R337, R342, R343: with no debug context, a region edge pushes or pops its region and counts; a mark does nothing; the store
hash and the stall counters are read. -/
def Obligations.RegionWords : Prop :=
  ∀ (s : State) (e : Env), Live s e →
    (∀ w : FI, e.cx.debug = none → Answers (exec (.renter w) s) fun t =>
      Acts s t e [] (fun sh => { sh with regions := (BitVec.ofNat 16 w.imm.toNat :: sh.regions).take 8, edges := sh.edges + 1 }) 0) ∧
    (∀ w : FRC, e.cx.debug = none → Answers (exec (.rleave w) s) fun t =>
      Acts s t e [] (fun sh => { sh with regions := sh.regions.tail, edges := sh.edges + 1 }) 0) ∧
    (∀ w : FI, e.cx.debug = none → Answers (exec (.rmark w) s) fun t => Acts s t e [] id 0) ∧
    (∀ w : FRC, Answers (exec (.hashrd w) s) fun t => Acts s t e [(uniKey w.d.toNat, e.sh.hash.setWidth 32),
      (uniKey (w.d.toNat + 1), (e.sh.hash >>> 32).setWidth 32)] id 0) ∧
    (∀ w : FRC, let n := 4 * (w.mod.toNat % 4)
      Answers (exec (.stallrd w) s) fun t => Acts s t e
        ((List.range 4).map fun j => (uniKey (w.d.toNat + j), e.sh.stalls.get 0 (n + j)))
        (fun sh => if w.mod.getLsbD 2 then { sh with stalls := (List.range 4).foldl (fun t j => t.set 0 (n + j) 0) sh.stalls } else sh) 0)

/-- R26-R32, R38, R39, R58, R172, R177, R232, R285, R292: what happens to sheets, bins, batches and the die spawn pool beside words, when
its condition holds. -/
def Obligations.SheetAndTaskEvents : Prop :=
  ∀ (s : State),
    (∀ (core lb : Nat) (r : SheetRef) (sh : Sheet), (s.die (core / 200)).step = none → (s.core core).busy.find lb = none →
      (s.core core).prog.find lb = none → s.reissue = [] → (r, sh) ∈ s.laneSheets core lb → sh.wait = .none → sh.barred = none → sh.startAt ≤ s.cycles core →
      (∀ y ∈ s.laneSheets core lb, y.2.wait = .none → s.cycles core - y.2.began < 192) →
      (∀ y ∈ s.laneSheets core lb, y.1 ≠ r → y.2.wait ≠ .none ∨ s.cycles core < y.2.startAt ∨ prio s y.1 < prio s r) →
      s.late core r = false →
      Answers (exec (.issueChoice core lb) s) fun t => t.cur = some r ∧ (t.core core).prog.find lb = some r) ∧
    (∀ (h k id : Nat) (q : Quire) (sh : Sheet) (l : LL), s.quires.find h = some q → q.sheets.find k = some sh →
      (sh.lls.find? fun l => l.id = id) = some l → l.left = 0 → l.ue = none → l.noise = false → (∀ o ∈ l.outs, o.raced = false) →
      q.phase = .resident →
      let ws := l.outs.filterMap fun o => o.val.map fun v => (o.key, v)
      Answers (exec (.longLatencyComplete h k id) s) fun t => ∃ sh', t.sheet? ⟨h, k⟩ = some sh' ∧
        sh'.lls.map LL.id = (sh.lls.map LL.id).filter (· ≠ id) ∧ sh'.flags.get 0 l.flag = sh.flags.get 0 l.flag - 1 ∧
        ∀ key, key.real → (∀ n, key ≠ .q n) → sh'.raw key =
          match lastWrite ws key with
          | some w => landed q k (s.cycles q.core) key w
          | none => sh.raw key) ∧
    (∀ (h k i j : Nat) (q : Quire) (sh : Sheet) (entry : DWord) (args ids : List Nat) (x : Bin), s.quires.find h = some q →
      q.sheets.find k = some sh → q.phase = .resident → sh.wait = .spawn entry args [j] ids → (∀ l ∈ sh.lls, l.id ∉ ids) →
      s.unplaced ⟨h, k⟩ sh = false → (∀ n ∈ s.nms, n.ref ≠ ⟨h, k⟩) → (s.core q.core).ready = [] →
      ((s.core q.core).bins.find? fun y => y.2.ctx = q.ctx ∧ y.2.entry = entry) = some (i, x) →
      (s.core q.core).bins.find i = some x → x.recs.length < 95 → (s.ctx q.ctx).desc.binTime ≠ 0 → q.joins + 1 < 2 ^ 32 →
      Answers (exec (.spawnRecordWrite h k) s) fun t => ((t.core q.core).bins.find i).map (·.recs) =
          some (x.recs ++ [spawnRec h q sh s.free args j]) ∧ (t.sheet? ⟨h, k⟩).map (·.wait) = some .none ∧
        (t.quires.find h).map (·.joins) = some (q.joins + 1)) ∧
    (∀ (h k n m since : Nat) (q : Quire) (sh : Sheet), s.quires.find h = some q → q.sheets.find k = some sh → q.phase = .resident →
      sh.wait = .rgrow n (.s m) since → m < 63 → sh.base + sh.alloc + 8 * n ≤ 256 →
      (∀ p ∈ s.spots q.core, p.lb = sh.lb → p.base + p.rows ≤ sh.base + sh.alloc ∨ sh.base + sh.alloc + 8 * n ≤ p.base) →
      Answers (exec (.rgrowGrant h k) s) fun t => ∃ sh', t.sheet? ⟨h, k⟩ = some sh' ∧ sh'.alloc = sh.alloc + 8 * n ∧ sh'.wait = .none ∧
        sh'.raw (.s m) = 1) ∧
    (∀ (core n m : Nat) (r : SheetRef) (sh : Sheet), s.oldestGrow core = some (r, n, .s m) → s.sheet? r = some sh → m < 63 →
      Answers (exec (.rgrowFail core) s) fun t => ∃ sh', t.sheet? r = some sh' ∧ sh'.alloc = sh.alloc ∧ sh'.wait = .none ∧
        sh'.raw (.s m) = 0) ∧
    (∀ (h k p sd : Nat) (d : DWord) (sh : Sheet), s.sheet? ⟨h, k⟩ = some sh → sh.wait = .pwait p sd (some d) → sd + 3 < 63 →
      d.toNat ≤ s.now / 720720 →
      Answers (exec (.pwaitDeadline h k) s) fun t => ∃ sh', t.sheet? ⟨h, k⟩ = some sh' ∧ sh'.wait = .none ∧ sh'.raw (.s sd) = 0xFF ∧
        ∀ j, 1 ≤ j → j ≤ 3 → sh'.raw (.s (sd + j)) = 0) ∧
    (∀ (core at' : Nat), (s.core core).switch = some at' → at' ≤ s.cycles core → Answers (exec (.bankModeSwitch core) s) fun t =>
      t.core core = { s.core core with slotted := !(s.core core).slotted, switch := none } ∧ (∀ n, n ≠ core → t.core n = s.core n) ∧
        t.apart = s.apart ∧ t.quires = s.quires) ∧
    (∀ (h k pa : Nat) (q : Quire) (sh : Sheet), s.quires.find h = some q → q.sheets.find k = some sh → q.phase = .resident →
      (∃ l ∈ sh.lls, l.ue = some pa) → Answers (exec (.memoryUe h k pa) s) fun t => phaseOf t h = some (.stopped false) ∧
        t.life.uncorrected.get 0 (s.channel pa) = s.life.uncorrected.get 0 (s.channel pa) + 1) ∧
    (∀ (core bin : Nat) (x : Bin), (s.core core).bins.find bin = some x → (s.ctx x.ctx).desc.binTime ≠ 0 →
      x.since + (s.ctx x.ctx).desc.binTime ≤ s.cycles core →
      Answers (exec (.binTimerExpiry core bin) s) fun t => (t.core core).bins.find bin = none ∧
        (t.core core).ready = (s.core core).ready ++
          [{ ctx := x.ctx, entry := x.entry, recs := x.recs, since := s.cycles core, bin := some bin, name := s.next }]) ∧
    (∀ (core i : Nat) (b : RBatch) (g : Grant), s.batchReady core = some (i, b, g) → Answers (exec (.taskSheetLaunch core) s) fun t =>
      (t.core core).ready = (s.core core).ready.eraseIdx i ∧ Started t s.next core (taskQuire (s.ctx b.ctx).desc core b)) ∧
    (∀ (core i : Nat) (b : RBatch), s.batchOld core = some (i, b) → (s.die (core / 200)).queue = [] →
      (s.die (core / 200)).records + b.recs.length ≤ Config.poolRecords → Answers (exec (.batchWaitExpiry core) s) fun t =>
        (t.core core).ready = (s.core core).ready.eraseIdx i ∧
          (t.die (core / 200)).records = (s.die (core / 200)).records + b.recs.length) ∧
    (∀ (die i core : Nat) (b : RBatch) (g : Grant), s.poolPick die = some (i, b, core) → s.batchGrant core b = some g →
      Answers (exec (.poolBatchLaunch die) s) fun t => (t.die die).pool = (s.die die).pool.eraseIdx i ∧
        Started t s.next core (taskQuire (s.ctx b.ctx).desc core b)) ∧
    (∀ (die core name : Nat) (rest : List PoolWait), (s.die die).queue = .batch core name :: rest →
      (∀ b ∈ (s.core core).ready, b.name ≠ name) →
      Answers (exec (.poolRoomFreed die) s) fun t => (t.die die).queue = (s.die die).queue.filter (· ≠ .batch core name)) ∧
    (∀ (die core i : Nat) (b : RBatch) (rest : List PoolWait), (s.die die).queue = .batch core b.name :: rest → core / 200 = die →
      (∀ w ∈ rest, s.poolStands w = true) → (s.core core).ready[i]? = some b → b.since + 1024 ≤ s.cycles core →
      (∀ j y, j < i → (s.core core).ready[j]? = some y → y.name ≠ b.name) →
      (s.die die).records + b.recs.length ≤ Config.poolRecords →
      Answers (exec (.poolRoomFreed die) s) fun t => (t.core core).ready = (s.core core).ready.eraseIdx i ∧
        (t.die die).records = (s.die die).records + b.recs.length ∧
        (t.die die).queue = (s.die die).queue.filter (· ≠ .batch core b.name) ∧
        (∀ n, n ≠ core → t.core n = s.core n) ∧ t.quires = s.quires ∧ (∀ a, t.readByte a = s.readByte a) ∧
        ∀ r ∈ b.recs, ∃ y ∈ (t.die die).pool, y.ctx = b.ctx ∧ y.entry = b.entry ∧ r ∈ y.recs) ∧
    (∀ (ch i : Nat) (x : Trigger), (s.vat ch).triggers[i]? = some x → x.fired = true →
      let die := s.triggerDie ch x.ctx
      (s.die die).queue = [] → (s.die die).records + 1 ≤ Config.poolRecords → Answers (exec (.triggerRecordPlace ch i) s) fun t =>
        (t.vat ch).triggers = (s.vat ch).triggers.eraseIdx i ∧ (t.die die).records = (s.die die).records + 1 ∧
          ∃ b ∈ (t.die die).pool, b.ctx = x.ctx ∧ b.entry = x.entry ∧ triggerRec x ∈ b.recs)

/-- R32, R36, R45, R202, R285, R289-R291, R293-R298, R306, R335: quires placed, launched, moved, released, swapped out, saved, resumed, when
its condition holds; a quire stopped at a region edge or a `brk` goes on at TPC as R213 says. What a swap record holds is the model's choice (log 15). -/
def Obligations.QuireEvents : Prop :=
  ∀ (s : State),
    (∀ (die core : Nat) (x : Nat × Nat × LQueue × Nat × Ream), (s.die die).up = true → s.openHeads.placeable die = some (x, core) →
      Answers (exec (.quirePlace die) s) fun t => let o := s.openHeads
        (∃ q, t.quires.find o.next = some q ∧ q.phase = .waiting (o.cycles core) ∧ q.core = core ∧ q.ctx = x.2.2.2.2.ctx ∧
          q.lin = x.2.2.2.2.next ∧ q.entry = x.2.2.2.2.entry) ∧ (t.core core).waitq = (o.core core).waitq ++ [o.next] ∧
          (t.reams.find x.2.2.2.1).map (·.next) = some (x.2.2.2.2.next + 1)) ∧
    (∀ (core h : Nat) (g : Grant) (q : Quire), s.batchReady core = none → (s.core core).claim = none → s.launchPick core = some (h, g) →
      s.quires.find h = some q → (∀ since ∈ s.waiting core, q.launched ≤ since) → Answers (exec (.quireLaunch core) s) fun t => Started t h core q ∧ h ∉ (t.core core).waitq) ∧
    (∀ (core c h : Nat) (g : Grant) (q : Quire), s.reofferPick core = some (h, c) → s.launchGrant c h = some g → s.quires.find h = some q →
      Answers (exec (.launchReoffer core) s) fun t => Started t h c q ∧ h ∉ (t.core core).waitq) ∧
    (∀ (h : Nat) (q : Quire), s.quires.find h = some q → q.phase = .draining → s.engineBusy h true = false →
      Answers (exec (.quireResourceRelease h) s) fun t => t.quires.find h = none ∧
        ∀ h', h' ≠ h → phaseOf t h' = phaseOf s h') ∧
    (∀ (h : Nat) (q : Quire), s.quires.find h = some q → q.phase = .resident → s.hasRoom q = true →
      let leaves := fun (i : Instr) (cause : SwapCause) => Answers (exec i s) fun t => phaseOf t h = some (.saving cause) ∧
        (∀ h', h' ≠ h → t.quires.find h' = s.quires.find h') ∧ (∀ a, t.readByte a = s.readByte a) ∧ ∀ r, t.cur = some r → r.h ≠ h
      (∀ at', (∀ x ∈ q.sheets, x.2.exited = true ∨ x.2.wait = .join) → q.joinAt = some at' → at' + 4096 ≤ s.cycles q.core → q.joins ≠ 0 → (s.ctx q.ctx).desc.pin = false →
        leaves (.joinSwapOut h) .join) ∧
      ((s.ctx q.ctx).desc.pin = false → s.wanted q.core = true →
        (∀ x ∈ q.sheets, x.2.exited = true ∨ x.2.spinning (s.cycles q.core) = true) → leaves (.spinningQuireSwapOut h) .spin) ∧
      (∀ die, (coresOf die).findSome? s.victimNow = some h → leaves (.preemption die) .preempt)) ∧
    (∀ (h off : Nat) (q : Quire) (cause : SwapCause), s.quires.find h = some q → q.phase = .saving cause → s.saveReady h q = true →
      (s.ctx q.ctx).swapFits off q.recEnd = true →
      let a := (s.ctx q.ctx).desc.swapbase + off
      a + q.recEnd ≤ s.hbmTop → s.swapIn q off = true → s.rekeys = [] → s.worn (blocksOf a q.recEnd) = none →
      Answers (exec (.swapOutSave h off) s) fun t =>
        (∃ e, phaseOf t h = some (.swapped cause a (s.now / 720720) e)) ∧
          (t.ctx q.ctx).swaps = (s.ctx q.ctx).swaps ++ [(off, q.recEnd)] ∧
          (∀ j, j < 4096 * q.chamg → t.readByte (a + q.recChamber + j) = chamber q j) ∧
          ∀ b, b < s.hbmTop → b < a ∨ a + q.recEnd ≤ b → t.readByte b = s.readByte b) ∧
    (∀ (core h : Nat) (g : Grant) (q : Quire), s.claimOver core = some h → s.launchGrant core h = some g → s.quires.find h = some q →
      Answers (exec (.preemptLaunch core) s) fun t => Started t h core q ∧ (t.core core).claim = none) ∧
    (∀ (h a w : Nat), phaseOf s h = some (.swapped .spin a w none) → w + 65536 ≤ s.now / 720720 →
      Answers (exec (.spinResumeTimeout h) s) fun t => phaseOf t h = some (.swapped .spin a w (some (s.now / 720720)))) ∧
    (∀ (h core a w e : Nat) (cause : SwapCause) (q : Quire) (g : Grant), s.quires.find h = some q →
      q.phase = .swapped cause a w (some e) → s.resumeGrant core h = some g → s.batchReady core = none →
      (∀ since ∈ s.waiting core, e ≤ since) → s.resumeFirst core h = true → s.modeOk core q.ctx = true → s.rekeys = [] →
      (s.core core).board.length + (s.fabBoards h).length ≤ 16 → Answers (exec (.quireResume h core) s) fun t =>
        ∃ q', t.quires.find h = some q' ∧ q'.phase = (if q.halted.isSome then .stopped true else .resident) ∧ q'.core = core ∧ q'.tileAt = g.tiles ∧ q'.chamAt = g.chamAt ∧
          (t.core core).p = g.p ∧ ∀ j, j < 4096 * q.chamg → chamber q' j = s.readByte (a + q.recChamber + j)) ∧
    (∀ (h : Nat) (q : Quire), s.quires.find h = some q → q.phase = .stopped true →
      (q.halted = none → Answers (exec (.quireStopResume h) s) fun t => phaseOf t h = some .resident ∧ Rest s t ∧
        ∀ h', h' ≠ h → t.quires.find h' = s.quires.find h') ∧
      ∀ (k : Nat) (sh : Sheet) (w : DWord), q.halted = some k → q.sheets.find k = some sh →
        canonical sh.thdr = true → sh.thdr.toNat % 8 = 0 → s.fetch ⟨h, k⟩ q.core q.ctx sh.thdr = .word w → isHeader w = true →
        let ldep := sh.tstat.toNat % 8
        let fbase := sh.tstat.toNat / 16 % 8
        let i := (sh.tpc - sh.thdr).toNat / 8
        headerOk w ldep = true →
        ((Header.unpack w).le = 0 ∨ (fbase + ldep ≤ 4 ∧ sh.thdr = (sh.slotAt (fbase + ldep - 1)).fin)) →
        sh.thdr ≤ sh.tpc → sh.tpc.toNat % 8 = 0 → i ≤ (Header.unpack w).n.toNat + 1 →
        Answers (exec (.quireStopResume h) s) fun t => phaseOf t h = some .resident ∧ Rest s t ∧
          (∀ h', h' ≠ h → t.quires.find h' = s.quires.find h') ∧ ∃ sh', t.sheet? ⟨h, k⟩ = some sh' ∧ sh'.idx = i ∧
          sh'.pc = (if i = 0 then sh.thdr else sh.tpc) ∧ sh'.fbase = fbase ∧ sh'.ldep = ldep ∧
          sh'.tstat = sh.tstat &&& ~~~(0x80 : Word))

/-- R169-R172, R182, R219, R221, R225, R235-R237, R302, R304, R341: walks, the firmware pager, copies, near-memory commands and the vats, when
their condition holds. That an engine's operation ends once the vats have applied what it has sent them is the model's reading of R147
and R225 (log 13). -/
def Obligations.MemoryEvents : Prop :=
  ∀ (s : State),
    (∀ (core ctx strand : Nat) (va : DWord) (fetch : Bool) (x : TlbEnt) (r : SheetRef) (q : Quire) (sh : Sheet),
      s.quires.find r.h = some q → q.sheets.find r.k = some sh → q.core = core → q.ctx = ctx → q.phase = .resident →
      s.rekeys = [] → sh.wait = .walk va strand fetch → s.walk (core / 200) ctx va = .ok x → x.hits ctx (va.extractLsb' 0 56).toNat = true →
      Answers (exec (.translationWalk core ctx va) s) fun t => (t.sheet? r).map (·.wait) = some .none ∧ t.tlb core ctx va = some x) ∧
    (∀ (core ctx strand : Nat) (va : DWord) (fetch : Bool) (r : SheetRef) (sh : Sheet), s.walkers core ctx = [(r, va, strand, fetch)] →
      s.rekeys = [] → s.sheet? r = some sh → s.walk (core / 200) ctx va = .repair → (s.die (core / 200)).faults.length < 1024 →
      Answers (exec (.translationWalk core ctx va) s) fun t => (t.sheet? r).map (·.wait) = some (.parked va strand fetch) ∧
        (t.die (core / 200)).faults = (s.die (core / 200)).faults ++ [⟨ctx, va, some r⟩]) ∧
    (∀ (die ctx strand pa : Nat) (va a x : DWord) (fetch : Bool) (r : SheetRef) (sh : Sheet), s.sheet? r = some sh →
      sh.wait = .parked a strand fetch → ⟨ctx, a, some r⟩ ∈ (s.die die).faults →
      (a.extractLsb' 0 56).toNat / 16384 = (va.extractLsb' 0 56).toNat / 16384 → FabricIdle s → pa + 8 ≤ s.hbmTop →
      s.rekeys = [] → s.worn [pa] = none →
      Answers (exec (.pagerRepair die ctx va [(pa, x)]) s) fun t => (t.sheet? r).map (·.wait) = some .none ∧
        (∀ f ∈ (t.die die).faults, f.ctx = ctx → (f.va.extractLsb' 0 56).toNat / 16384 ≠ (va.extractLsb' 0 56).toNat / 16384) ∧
        ∀ j, j < 8 → t.readByte (pa + j) = nthByte x.toNat j) ∧
    (∀ (die ctx strand : Nat) (va a : DWord) (fetch access : Bool) (r : SheetRef) (q : Quire) (sh : Sheet), s.quires.find r.h = some q →
      q.sheets.find r.k = some sh → q.phase = .resident → sh.wait = .parked a strand fetch → sh.pend = none → sh.tstat.getLsbD 7 = false →
      s.vectorOk r q.core q.ctx sh.tvec = true → ((s.die die).faults.filter fun f => f.on ctx va) = [⟨ctx, a, some r⟩] →
      Answers (exec (.pagerFatal die ctx va access) s) fun t => ∃ sh', t.sheet? r = some sh' ∧ sh'.pc = sh.tvec ∧ sh'.wait = .none ∧
        sh'.tcause = (if access then 0x21 else 0x23) ∧ sh'.taddr = a ∧ sh'.tpc = sh.pc ∧ sh'.tstat.getLsbD 7 = true) ∧
    (∀ (i : Instr) (id pa : Nat) (c : Copy) (q : Quire), (s.copies.find? fun c => c.id = id) = some c →
      (i = .copyComplete id ∧ c.slow = false) ∨ i = .copySlowPathDone id → s.quires.find c.ref.h = some q → q.phase = .resident →
      Unsent s (.op id) → c.src.cham = true → c.src.addr.toNat + c.bytes ≤ 2 ^ 32 → c.dst.cham = false → c.rows = 1 → pa + c.bytes ≤ s.hbmTop →
      s.rekeys = [] → s.worn ((List.range c.bytes).map (pa + ·)) = none →
      (∀ j, j < c.bytes → ∃ leaf, s.engByte q.core q.ctx (c.dst.addr + BitVec.ofNat 64 j) 1 true = .ok (pa + j, leaf) ∧
        leaf.getLsbD 9 = false) →
      Answers (exec i s) fun t => (∀ j, j < c.bytes → t.readByte (pa + j) = chamber q (c.src.addr.toNat + j)) ∧
        (∀ b, b < s.hbmTop → b < pa ∨ pa + c.bytes ≤ b → t.readByte b = s.readByte b) ∧
        t.copies = s.copies.filter (fun y => y.id ≠ id) ∧ Filled s t c.ref.h c.pool) ∧
    (∀ (id : Nat) (n : Nm) (q : Quire), (s.nms.find? fun n => n.id = id) = some n → s.quires.find n.ref.h = some q → n.dot = false →
      n.len = 0 → q.phase = .resident → s.rekeys = [] → Unsent s (.op id) → Answers (exec (.nmComplete id) s) fun t =>
        t.nms = s.nms.filter (fun y => y.id ≠ id) ∧ Filled s t n.ref.h n.pool) ∧
    (∀ (id : Nat) (n : Nm) (q : Quire) (px py : Nat → Nat), (s.nms.find? fun n => n.id = id) = some n →
      s.quires.find n.ref.h = some q → q.phase = .resident → s.rekeys = [] → Unsent s (.op id) →
      let width := if n.bf then 2 else 4
      let reads := fun (v : DWord) (write : Bool) (p : Nat → Nat) => ∀ i, i < n.len → ∃ leaf,
        s.engByte q.core q.ctx (v + BitVec.ofNat 64 (i * width)) width write = .ok (p i, leaf) ∧ leaf.getLsbD 9 = false
      let old := fun p => (wordAt s p width).toNat
      reads n.x false px → reads n.y false py →
      (n.dot = false → reads n.y true py → s.worn ((List.range n.len).map py) = none → (∀ i, i < n.len → py i + width ≤ s.hbmTop) →
        (∀ i j, i < j → j < n.len → py i + width ≤ py j ∨ py j + width ≤ py i) → Answers (exec (.nmComplete id) s) fun t =>
          (∀ i j, i < n.len → j < width → t.readByte (py i + j) = nthByte (axpy n.bf n.a.toNat (old (px i)) (old (py i))) j) ∧
          (∀ b, b < s.hbmTop → (∀ i, i < n.len → b < py i ∨ py i + width ≤ b) → t.readByte b = s.readByte b) ∧
          t.nms = s.nms.filter (fun y => y.id ≠ id) ∧ Filled s t n.ref.h n.pool) ∧
      (∀ (pd k ty : Nat) (leaf : DWord) (img : List Byte), n.dot = true →
        s.engByte q.core q.ctx n.dst 4 true = .ok (pd, leaf) → leaf.getLsbD 9 = true → pd % 4 = 0 → pd + 4 ≤ s.hbmTop →
        s.ue pd 4 = false → s.worn [pd] = none → (s.ctx q.ctx).debug = none →
        s.tableAt (s.channel pd) q.ctx (leaf.toNat / 2 ^ 10 % 4) = some img → n.op ≠ 0 → slotPresent img n.op = true →
        slotKind img n.op = k → slotType img n.op = ty → k ≠ 0 → ty64 ty = false →
        (∀ o ∈ (s.vat (s.channel pd)).queue, o.word / 8 ≠ pd / 8) → (s.vat (s.channel pd)).triggers = [] →
        (s.vat (s.channel pd)).queue.length < 64 → (∀ o ∈ (s.vat (s.channel pd)).input, o.late = false) →
        Answers (exec (.nmComplete id) s) fun t =>
          let els := (List.range n.len).map fun i => (s.channel (px i), old (px i), old (py i))
          (∀ j, j < 4 → t.readByte (pd + j) = nthByte (opValue k ty (wordAt s pd 4) ((dotSum n.bf els).setWidth 64)).toNat j) ∧
          (∀ b, b < s.hbmTop → b < pd ∨ pd + 4 ≤ b → t.readByte b = s.readByte b) ∧
          t.nms = s.nms.filter (fun y => y.id ≠ id) ∧ Filled s t n.ref.h n.pool)) ∧
    (∀ (ch pick : Nat) (o : VOp), let v := s.vat ch
      v.input[pick]? = some o → v.queue.length < 64 → firstOf v.input pick o = true → o.gated = false →
      (o.late = true → ∀ x ∈ v.input.take pick, x.late = false) →
      let arrived := { o.resolve (s.tableAt ch o.ctx o.tab) with epoch := s.epochAt ch o.ctx o.tab }
      (Answers (exec (.vatAccept ch pick []) s) fun t => (t.vat ch).input = v.input.eraseIdx pick ∧
        (t.vat ch).queue = v.queue ++ [arrived] ∧ (∀ a, t.readByte a = s.readByte a) ∧
        ∀ r sh, o.ref = some r → s.sheet? r = some sh → (t.sheet? r).map (·.posts) = some (if o.post ∧ o.eng = [] then sh.posts - 1 else sh.posts) ∧
          (o.post = true → o.eng = [] → sh.wait = .vdrain → (t.sheet? r).map (·.wait) = some (if sh.posts - 1 = 0 then .none else .vdrain))) ∧
      ∀ (a : VOp) (img : List Byte) (n m kn tn km tm : Nat) (x y : DWord), v.queue = [a] → a.act = .slot n kn tn x →
        arrived.act = .slot m km tm y → kn ≠ 0 → km ≠ 0 → a.ord = .rlx → o.ord = .rlx → a.gated = false → a.ret = none → o.ret = none → a.word = o.word →
        a.w64 = o.w64 → a.ctx = o.ctx → a.tab = o.tab → a.epoch = arrived.epoch → s.tableAt ch o.ctx o.tab = some img →
        slotPresent img n = true → slotPresent img m = true →
        let entry := relEntry img n m
        let c := entry / 256 % 16
        ty64 (slotType img n) = o.w64 → ty64 (slotType img c) = o.w64 →
        Answers (exec (.vatAccept ch pick [.relation 0]) s) fun t => (t.vat ch).queue.map (·.act) =
          match entry % 16 with
          | 1 => [arrived.act, a.act]
          | 2 => [.slot c (slotKind img c) (slotType img c) (combValue (entry / 16 % 16) (slotType img n) x y)]
          | 3 => [a.act]
          | 4 => [arrived.act]
          | 5 => if cancels (entry.testBit 13) (slotType img n) x y then [] else [a.act, arrived.act]
          | _ => [a.act, arrived.act]) ∧
    (∀ (ch n k ty : Nat) (o : VOp) (rest : List VOp) (x : DWord), (s.vat ch).queue = o :: rest → o.act = .slot n k ty x → k ≠ 0 →
      o.ret = none → let w := if o.w64 then 8 else 4
      o.word + w ≤ s.hbmTop → s.ue o.word w = false → s.rekeys = [] → s.worn [o.word] = none → (s.vat ch).triggers = [] →
      Answers (exec (.vatApply ch) s) fun t => (t.vat ch).queue = rest ∧
        (∀ j, j < w → t.readByte (o.word + j) = nthByte (opValue k ty (wordAt s o.word w) x).toNat j) ∧
        ∀ b, b < o.word ∨ o.word + w ≤ b → t.readByte b = s.readByte b) ∧
    (∀ (id ch : Nat) (x : Install) (c : Ctx), (s.installs.find? fun x => x.id = id) = some x → ch < 256 → ch ∉ x.done →
      (∀ y ∈ s.installs, y.id ≠ id → y.ctx ≠ x.ctx ∨ y.slot ≠ x.slot) → s.ctxs.find x.ctx = some c →
      (x.done.length < 255 → Answers (exec (.tableInstall id ch) s) fun t => t.ctxs = s.ctxs ∧
        (t.installs.find? fun x => x.id = id).map (·.done) = some (ch :: x.done)) ∧
      (x.done.length = 255 → Answers (exec (.tableInstall id ch) s) fun t => (t.ctx x.ctx).tables.find x.slot = x.image ∧
        (t.ctx x.ctx).loads.get 0 x.slot = c.loads.get 0 x.slot + 1 ∧ t.installs = s.installs.filter (fun y => y.id ≠ id) ∧
        ∀ sh, s.sheet? x.ref = some sh → sh.wait = .dkload id → (t.sheet? x.ref).map (·.wait) = some .none)) ∧
    (∀ (ch since : Nat) (g : Gate) (d : Debug) (c : Ctx), (s.vat ch).gates = [g] → g.opened = false → g.since = some since →
      since + 1000000 ≤ s.now / 720720 → c.debug = some d → d.replay = true → g.pos < (s.logRuns d ch).length → s.ctxs.find g.ctx = some c →
      (∀ x ∈ (s.vat ch).input, x.gated = true → x.ctx = g.ctx → s.gatePass ch x = none) →
      Answers (exec (.gateTimeout ch) s) fun t => (t.vat ch).gates = [{ g with opened := true }] ∧ (t.ctx g.ctx).diverged = true ∧
        (t.vat ch).input = (s.vat ch).input) ∧
    (∀ (i : Instr) (id : Nat) (f : Machine.Fin) (q : Quire), (s.fins.find? fun f => f.who = .op id) = some f → q.phase = .resident →
      let sent := ∃ v ∈ s.vats, ∃ o ∈ v.2.input ++ v.2.queue, .op id ∈ o.eng
      (∀ c : Copy, (s.copies.find? fun c => c.id = id) = some c → (i = .copyComplete id ∧ c.slow = false) ∨ i = .copySlowPathDone id →
        s.quires.find c.ref.h = some q → (sent → Answers (exec i s) fun t => t = s) ∧
          (¬sent → Answers (exec i s) fun t => t.copies = s.copies.filter (fun y => y.id ≠ id) ∧ Filled s t c.ref.h c.pool)) ∧
      (∀ n : Nm, (s.nms.find? fun n => n.id = id) = some n → i = .nmComplete id → s.quires.find n.ref.h = some q →
        (sent → Answers (exec i s) fun t => t = s) ∧
          (¬sent → Answers (exec i s) fun t => t.nms = s.nms.filter (fun y => y.id ≠ id) ∧ Filled s t n.ref.h n.pool)))

/-- R104, R243, R250-R258, R262, R274, R275, R277-R279: the matrix engine starts, promotes and completes the operation at the head of its queue; a
siphon reads a block; the watermark array performs an operation of each kind; when their condition holds. -/
def Obligations.EngineEvents : Prop :=
  ∀ (s : State),
    (∀ (core : Nat) (o : MxOp) (q : Quire) (x : Tile), s.mxHead core = some (o, q, x) → q.tiles.find o.tile = some x →
      (o.begun = false → ∀ e, o.kind = .zero e → Answers (exec (.matrixOpStart core) s) fun t => tileOf t o.ref.h o.tile =
        some { x with fresh := false, el := [], e := e, act := false, flt := false, fstat := 0, nblk := 0, done := 0, faddr := 0 }) ∧
      (o.begun = false → ∀ m, o.kind = .mma m → x.flt = false → Answers (exec (.matrixOpStart core) s) fun t =>
        tileOf t o.ref.h o.tile = some { x with act := true, flt := false, fstat := 0, nblk := m.kk / 128, done := 0, faddr := 0 }) ∧
      (∀ m, o.kind = .mma m → o.begun = true → o.fault = none → o.retry = none → x.done < m.kk / 128 → s.rekeys = [] → s.mxFaults o q m x.done = [] → m.b.isSome →
        (∀ a ∈ m.reads x.done, a.1 = true) → Answers (exec (.promotionStep core) s) fun t => ∃ y, tileOf t o.ref.h o.tile = some y ∧
          y.done = x.done + 1 ∧ y.act = x.act ∧ y.nblk = x.nblk ∧
          y.e = (promote (((List.range 16384).map x.elem).zip (m.contribs s (.op o.id) q x.done [])) x.e).2) ∧
      (o.begun = true → (o.kind = .zero x.e ∨ ∃ m, o.kind = .mma m ∧ (o.fault.isSome ∨ m.kk / 128 ≤ x.done)) →
        Answers (exec (.matrixOpComplete core) s) fun t => (∀ y ∈ (t.core core).mx, y.id ≠ o.id) ∧
          (∀ b ∈ (t.core core).board, b.op ≠ o.id) ∧
          ∀ sh, q.sheets.find o.ref.k = some sh → (t.sheet? o.ref).map (·.window) = some (sh.window.map fun b =>
            match o.fault with
            | some (st, a) => if b.n = o.batch ∧ b.status = 0 then { b with status := st, tile := o.tile, addr := a } else b
            | none => b)) ∧
      (∀ (dst : Side) (stride fmt ll : Nat) (clr : Bool), o.kind = .read dst stride 1 fmt clr ll → o.begun = true → x.flt = false → s.rekeys = [] → Unsent s (.op o.id) →
        dst.cham = true → dst.addr.toNat + 512 ≤ 2 ^ 32 → let f := readFmt fmt
        Answers (exec (.mxReadComplete core) s) fun t => (∀ y ∈ (t.core core).mx, y.id ≠ o.id) ∧
          (∀ q', t.quires.find o.ref.h = some q' → ∀ i j, i < 128 → j < f.1 →
            chamber q' (dst.addr.toNat + i * f.1 + j) = nthByte (readElem f.2 (x.elem i) x.e) j) ∧
          tileOf t o.ref.h o.tile = some (if clr then { x with fresh := false, el := [] } else x))) ∧
    (∀ (g n : Nat) (x : Stream), (s.gallery g).streams.find n = some x → x.next < x.t → (∀ y ∈ x.subs, x.next < y.2.2 + y.2.1) →
      s.rekeys = [] → (∀ a ∈ x.addrs x.next, ∃ pa leaf, s.siphonByte g x a = .ok (pa, leaf) ∧ leaf.getLsbD 9 = false) →
      Answers (exec (.siphonBlockRead g n) s) fun t => ∃ y, (t.gallery g).streams.find n = some y ∧ y.next = x.next + 1 ∧
        y.subs = x.subs ∧ (y.blocks.find x.next).map List.length = some (128 * (64 * 2 ^ x.ew)) ∧ ∀ a, t.readByte a = s.readByte a) ∧
    (∀ (core id : Nat) (o : WmOp) (q : Quire) (sh : Sheet) (x : Extent), ((s.core core).wm.find? fun o => o.id = id) = some o →
      (∀ y ∈ (s.core core).wm, y.id ≠ id → y.ref ≠ o.ref) → s.quires.find o.ref.h = some q → q.sheets.find o.ref.k = some sh →
      q.ext = some x → (∀ y ∈ q.sheets, ∀ ids n m b l v c, y.2.wait ≠ .wmInit ids n m b l v c) →
      let ext := fun t : State => (t.quires.find o.ref.h).map (·.ext)
      let value := fun (ws : List Word) (key : RegKey) => (List.range ws.length).findSome? fun j =>
        if key = .s (o.sd + j) then ws[j]? else none
      let done := fun (t : State) (ws : List Word) => (t.core core).wm = (s.core core).wm.filter (fun y => y.id ≠ id) ∧
        (∀ b ∈ (t.core core).board, b.op ≠ id) ∧ (t.sheet? o.ref).map (fun y => y.lls.map fun l => (l.id, l.left)) =
          some (sh.lls.map fun l => (l.id, if l.id = o.ll then l.left - 1 else l.left)) ∧
        (t.sheet? o.ref).map (fun y => y.lls.map fun l => l.outs.map fun d => (d.key, d.val)) =
          some (sh.lls.map fun l => l.outs.map fun d => (d.key, if l.id = o.ll then (value ws d.key).or d.val else d.val))
      let gain := fun c => q.gain x (s.touched o.ref.h x c)
      let result := fun (g : Int) (key ver : Word) => [BitVec.ofInt 32 g, BitVec.ofInt 32 (g / 2 ^ 32), key, ver]
      let applied := fun (t : State) (c : Cand) => ext t = some (some { x with ver := x.ver + 1 }) ∧
        ∀ q', t.quires.find o.ref.h = some q' → ∀ i, q'.arrElem i =
          let touched := s.touched o.ref.h x c
          if x.base ≤ i then (touched.find (i - x.base)).elim (q.arrElem i) fun y => x.next (q.arrElem i) y else q.arrElem i
      (∀ c, o.kind = .probe c → Answers (exec (.wmaOpPerform core id) s) fun t => done t (result (gain c) c.key x.ver) ∧
        ext t = some (some x)) ∧
      (∀ c, o.kind = .commit c none → Answers (exec (.wmaOpPerform core id) s) fun t =>
        done t (result (gain c) c.key (x.ver + 1)) ∧ applied t c) ∧
      (∀ c v, o.kind = .commit c (some v) → v ≠ x.ver → Answers (exec (.wmaOpPerform core id) s) fun t =>
        done t (result 0 0xFFFFFFFF x.ver) ∧ ext t = some (some x)) ∧
      (∀ c, o.kind = .commit c (some x.ver) → Answers (exec (.wmaOpPerform core id) s) fun t =>
        done t (result (gain c) c.key (x.ver + 1)) ∧ applied t c) ∧
      (∀ cs thr c, o.kind = .select cs thr → c ∈ cs → (∀ y ∈ cs, gain y < gain c ∨ (gain y = gain c ∧ (c.key < y.key ∨ y = c))) →
        let above := if x.mode = 1 then decide ((thr.toNat : Int) < gain c) else
          !nan32 (low32 (gain c)) && !nan32 (thr.setWidth 32 |>.setWidth 64) &&
            decide (0 < FV.cmp (fp32.decode (low32 (gain c)).toNat) (fp32.decode (thr.toNat % 2 ^ 32)))
        Answers (exec (.wmaOpPerform core id) s) fun t =>
          if above then done t (result (gain c) c.key (x.ver + 1)) ∧ applied t c
          else done t (result 0 0xFFFFFFFF x.ver) ∧ ext t = some (some x)) ∧
      (∀ dst first n, o.kind = .read dst first n → Answers (exec (.wmaOpPerform core id) s) fun t => done t [x.ver] ∧
        ext t = some (some x) ∧ ∀ q', t.quires.find o.ref.h = some q' → ∀ a, chamber q' a =
          if dst ≤ a ∧ a < dst + 4 * n then nthByte (q.arrElem (x.base + first + (a - dst) / 4)).toNat ((a - dst) % 4) else chamber q a))

/-- R308-R311, R315-R317, R319, R320, R323-R326, R330, R331, R361: ports, abort agreement, operations of other modules and
re-formation, when their condition holds. That acks name one flit and cover the earlier ones, how a replay and a repair end, and
that a port waits for the far end's flits are the model's reading (log 31), that of two `greform` operations the first drives the
slot and the other ends at the settle too (log 32), that a decision which comes first is kept, or ends what is pending on an ACTIVE
slot, its choice (log 34). -/
def Obligations.FabricEvents : Prop :=
  ∀ (s : State),
    (∀ (p : Nat) (f : Flit) (fec : Fec), let x := s.port p
      let heard := if x.owed = some f.seq then none else x.owed
      let acked := (p, (⟨x.tx, .ack f.seq⟩ : Machine.Sent))
      let nak := (p, (⟨x.tx, .nak x.rx⟩ : Machine.Sent))
      x.up = true → x.repair = none →
      (flitOk f = true → f.typ = 0 → f.seq = x.rx → Answers (exec (.flitData p f fec) s) fun t =>
        t.port p = { x with rx := x.rx + 1, owed := heard } ∧ t.outbox = s.outbox ++ [acked]) ∧
      (flitOk f = true → f.typ = 0 → f.seq ≠ x.rx → Answers (exec (.flitData p f fec) s) fun t =>
        (∃ y, t.port p = { x with owed := some y }) ∧ t.outbox = s.outbox ++ [nak]) ∧
      (∀ a b c l n y, flitOk f = false →
        (∀ i ∈ [Instr.flitData p f fec, .flitIdle p f fec], Answers (exec i s) fun t =>
          t.outbox = s.outbox ++ [nak] ∧ (t.port p).rx = x.rx ∧ (t.port p).buf = x.buf ∧
          let l := (x.map[fecLane fec]?).getD 0
          (t.port p).crc.get 0 l = x.crc.get 0 l + 1) ∧
        ∀ i ∈ [Instr.flitAck p f a, .flitAbortNotice p f c n y, .flitControl p f (.hello b l)], Answers (exec i s) fun t => t.outbox = s.outbox ++ [nak] ∧
          (t.port p).rx = x.rx ∧ (t.port p).buf = x.buf ∧ t.ctxs = s.ctxs ∧
          let l := (x.map[fecLane f.fec]?).getD 0
          (t.port p).crc.get 0 l = x.crc.get 0 l + 1) ∧
      (∀ a b c n m l q y, flitOk f = true → Calm s →
        ∀ i ∈ [(Instr.flitData p f fec, 0), (.flitAck p f a, 1), (.flitNak p f a, 2), (.flitIdle p f fec, 3),
          (.flitControl p f (.hello b l), 4), (.flitControl p f (.laneMap l q), 4), (.flitControl p f (.unreachable m), 4), (.flitControl p f .down, 4),
          (.flitAbortNotice p f c n y, 5)],
          f.typ.toNat ≠ i.2 → Answers (exec i.1 s) fun t => t = s) ∧
      (flitOk f = true → f.typ = 3 → Answers (exec (.flitIdle p f fec) s) fun t => t = s) ∧
      (∀ a, flitOk f = true → f.typ = 1 → x.queue = [] → a ∈ x.buf.map (·.1) → Answers (exec (.flitAck p f a) s) fun t =>
        let rest := (x.buf.dropWhile fun y => y.1 ≠ a).tail
        (t.port p).buf = rest ∧ t.outbox = s.outbox ∧
        (∀ b c w, x.replay = some (b, c, w) → c ∉ rest.map (·.1) → (t.port p).replay = none ∧ (t.port p).fails = 0)) ∧
      (∀ a, flitOk f = true → f.typ = 2 → Calm s → x.queue = [] → a ∈ x.buf.map (·.1) →
        let rest := x.buf.dropWhile fun y => y.1 ≠ a
        let again := fun t : State => (t.port p).buf = rest ∧ t.outbox = s.outbox ++ rest.map (fun y => (p, ⟨y.1, y.2⟩)) ∧
          (t.port p).replay.map (fun y => (y.1, y.2.2)) = some (a, s.now / 720720)
        (x.replay = none → Answers (exec (.flitNak p f a) s) fun t => again t ∧ (t.port p).fails = x.fails) ∧
        (∀ c w, x.replay = some (a, c, w) → x.stale ≠ 0 → Answers (exec (.flitNak p f a) s) fun t =>
          t.port p = { x with stale := x.stale - 1 } ∧ t.outbox = s.outbox) ∧
        (∀ c w, x.replay = some (a, c, w) → x.stale = 0 → x.fails < 7 → Answers (exec (.flitNak p f a) s) fun t =>
          again t ∧ (t.port p).fails = x.fails + 1)) ∧
      (∀ n, flitOk f = true → f.typ = 4 → f.seq = x.rx → Calm s → Answers (exec (.flitControl p f (.unreachable n)) s) fun t =>
        n ∈ (t.port p).lost ∧ (t.port p).rx = x.rx + 1 ∧ ∀ m ∈ x.lost, m ∈ (t.port p).lost) ∧
      (flitOk f = true → f.typ = 4 → Calm s → Answers (exec (.flitControl p f .down) s) fun t =>
        (t.port p).up = false ∧ (t.port p).buf = [] ∧ (t.port p).peer = none ∧ (t.port p).downAt = s.now / 720720) ∧
      (∀ ctx slot a g, flitOk f = true → f.typ = 5 → f.seq = x.rx → s.group? ctx slot = some g →
        (a.gen = g.gen → g.st = .active → (∀ q ∈ s.groupPorts g, (s.port q).buf.length < 1024) →
          Answers (exec (.flitAbortNotice p f ctx slot a) s) fun t =>
            t.group? ctx slot = some { g with st := .settling, seen := [a], window := some (s.now / 720720 + 2 * g.lat) } ∧
            t.outbox = s.outbox ++ acked :: (s.groupPorts g).map fun q => (q, ⟨(s.port q).tx, .notice ctx slot a⟩)) ∧
        (a.gen = g.gen → g.st = .settling → Answers (exec (.flitAbortNotice p f ctx slot a) s) fun t =>
          t.group? ctx slot = some { g with seen := a :: g.seen }) ∧
        (a.gen ≠ g.gen → Answers (exec (.flitAbortNotice p f ctx slot a) s) fun t => t.group? ctx slot = some g))) ∧
    (∀ (p : Nat) (f : Flit) (n : BitVec 24) (m : Nat), let x := s.port p
      flitOk f = true → f.typ = 4 → Calm s →
      (x.up = true → Answers (exec (.flitControl p f (.hello n m)) s) fun t => (t.port p).peer = some (n, m)) ∧
      ((x.up = true ∧ x.repair = none) ∨ (x.up = false ∧ x.lanes = none) → Answers (exec (.flitControl p f (.hello n m)) s) fun t =>
        t.port p = { x with peer := some (n, m) }) ∧
      (∀ good, x.up = false → x.lanes = some good → Answers (exec (.flitControl p f (.hello n m)) s) fun t =>
        (t.port p).up = true ∧ (t.port p).peer = some (n, m) ∧ (t.port p).tx = 0 ∧ (t.port p).rx = 0 ∧ (t.port p).buf = [] ∧
          (t.port p).lost = [])) ∧
    (∀ (p l : Nat) (q : BitVec 12), let x := s.port p
      let spared := fun m : List Nat => m.map fun y => if y = l then 4 else y
      let named := fun t : State => (t.port p).repair.map fun r => (r.lane, r.mine, r.theirs, r.got)
      x.up = true →
      (x.repair = some ⟨l, none, none, false, false⟩ → x.buf.length < 1024 → Answers (exec (.spareTrained p q) s) fun t =>
        named t = some (l, some q, none, false) ∧ t.outbox = s.outbox ++ [(p, ⟨x.tx, .laneMap l q⟩)]) ∧
      (∀ f, flitOk f = true → f.typ = 4 → f.seq = x.rx → x.owed = none →
        ((x.repair = none ∧ x.spare = true) ∨ x.repair = some ⟨l, none, none, false, false⟩ →
          (2048 ≤ (x.rx + 1 - q).toNat → Answers (exec (.flitControl p f (.laneMap l q)) s) fun t =>
            t.port p = { x with rx := x.rx + 1, repair := some ⟨l, none, some q, false, false⟩ }) ∧
          ((x.rx + 1 - q).toNat < 2048 → Answers (exec (.flitControl p f (.laneMap l q)) s) fun t =>
            t.port p = { x with rx := x.rx + 1, map := spared x.map, repair := some ⟨l, none, some q, false, true⟩ })) ∧
        (∀ a, x.repair = some ⟨l, some a, none, true, false⟩ → (x.rx + 1 - q).toNat < 2048 →
          Answers (exec (.flitControl p f (.laneMap l q)) s) fun t => (t.port p).map = spared x.map ∧ (t.port p).spare = false ∧
            (t.port p).repair = none ∧ (t.port p).repairs.get 0 l = x.repairs.get 0 l + 1))) ∧
    (∀ (p : Nat) (a b : BitVec 12) (since : Nat), let x := s.port p
      x.up = true → x.replay = some (a, b, since) → since + 2000 ≤ s.now / 720720 → Calm s →
      (x.fails < 7 → x.buf ≠ [] → Answers (exec (.replayTimeout p) s) fun t => (t.port p).fails = x.fails + 1 ∧
        (t.port p).buf = x.buf ∧ t.outbox = s.outbox ++ x.buf.map (fun y => (p, ⟨y.1, y.2⟩)) ∧
        (t.port p).replay.map (fun y => y.2.2) = some (s.now / 720720)) ∧
      (x.fails = 7 → Answers (exec (.replayTimeout p) s) fun t => (t.port p).up = false ∧ (t.port p).buf = [] ∧
        (t.port p).downAt = s.now / 720720 ∧ ∃ more, t.outbox = s.outbox ++ (p, ⟨x.tx, .down⟩) :: more)) ∧
    (∀ (p : Nat), let x := s.port p
      (x.up = false → x.training = false → (s.die (p / 9)).up = true → x.downAt + 1000000000 ≤ s.now / 720720 →
        Answers (exec (.portRetry p) s) fun t => t.port p = { x with training := true, lanes := none }) ∧
      (x.training = true → Calm s →
        (∀ (l : Nat) (b : Bool), l ≤ 4 → (l < 4 → b = false) →
          let good := (List.range 5).map fun i => if i = 4 then l < 4 || b else i ≠ l
          let hello := [(p, (⟨x.tx, .hello s.cfg.node p⟩ : Machine.Sent))]
          (x.peer = none → Answers (exec (.portTrainingDone p good) s) fun t => t.outbox = s.outbox ++ hello ∧
            t.port p = { x with training := false, downAt := s.now / 720720, lanes := some good }) ∧
          (∀ y, x.peer = some y → Answers (exec (.portTrainingDone p good) s) fun t => t.outbox = s.outbox ++ hello ∧
            (t.port p).up = true ∧ (t.port p).training = false ∧ (t.port p).peer = some y ∧ (t.port p).spare = b ∧
            (t.port p).map = (List.range 4).map fun i => if i = l then 4 else i)) ∧
        (∀ l, l < 4 → Answers (exec (.portTrainingDone p ((List.range 5).map fun i => i ≠ l ∧ i ≠ 4)) s) fun t =>
          t.port p = { x with training := false, downAt := s.now / 720720 } ∧ t.outbox = s.outbox))) ∧
    (∀ (id : Nat) (o : FabOp) (g : Group), (s.fabs.find? fun o => o.id = id) = some o → s.group? o.ctx o.slot = some g →
      o.gen = g.gen → g.st = .active → g.origin = false →
      (o.expired = false → o.exp ≤ s.now / 720720 → Answers (exec (.operationExpiry id) s) fun t =>
        Originated s t o.ctx o.slot g 0x01 ∧ t.fabs = s.fabs.map fun y => if y.id = id then { y with expired := true } else y) ∧
      (∀ loc rem n r, o.kind = .send loc rem n r ∨ o.kind = .fetch loc rem n r → o.noRoute = false → s.route g r = none →
        Answers (exec (.routeLoss id) s) fun t => Originated s t o.ctx o.slot g 0x02 ∧
          t.fabs = s.fabs.map fun y => if y.id = id then { y with noRoute := true, port := none } else y)) ∧
    (∀ (ctx slot w : Nat) (g : Group), s.group? ctx slot = some g → g.st = .settling → g.window = some w →
      w ≤ s.now / 720720 → g.seen ≠ [] → g.held = [] →
      let pending := s.fabs.filter fun y => y.ctx = ctx ∧ y.slot = slot
      (∀ o, g.decided = none → pending = [o] → InCore s o.ref.h → (∀ m, o.kind ≠ .reform m) → (∀ a, o.kind ≠ .reformMask a) →
        Answers (exec (.settle ctx slot) s) fun t =>
          (∃ x ∈ g.seen, (∀ y ∈ g.seen, x.rank ≤ y.rank) ∧
            t.group? ctx slot = some { g with st := .aborted, trip := some x, window := none }) ∧
          (∀ y ∈ t.fabs, y.id ≠ o.id) ∧
          Posted s t o.ref.h o.pool (if o.noRoute then 0x21 else if o.exp ≤ s.now / 720720 then 0x20 else 0x22)) ∧
      (∀ o d m n, g.decided = none → pending = [d, o] → d.id ≠ o.id → d.kind = .reform m → o.kind = .reform n → InCore s o.ref.h →
        Answers (exec (.settle ctx slot) s) fun t => (∀ y ∈ t.fabs, y.id ≠ o.id) ∧
          (d.ref.h ≠ o.ref.h → Posted s t o.ref.h o.pool (if o.exp ≤ s.now / 720720 then 0x20 else 0x22))) ∧
      (∀ xs, g.decided = some xs → pending = [] → Answers (exec (.settle ctx slot) s) fun t =>
        ∃ x ∈ g.seen, Decided t ctx slot { g with trip := some x } ((List.range g.nmem).filter fun r => r ∈ xs))) ∧
    (∀ (id : Nat) (o : FabOp) (ans : FabricAnswer) (q : Quire), (s.fabs.find? fun o => o.id = id) = some o →
      s.quires.find o.ref.h = some q → InCore s o.ref.h → Unsent s (.op id) → o.sent = true → o.noRoute = false → o.ans = none →
      (∀ loc rem n r, o.kind = .send loc rem n r → Answers (exec (.fabricOpComplete id ans) s) fun t =>
        t.fabs = s.fabs.filter (fun y => y.id ≠ id) ∧ Posted s t o.ref.h o.pool ans.status) ∧
      (∀ loc rem n r x, o.kind = .fetch loc rem n r → loc.cham = true → q.pools.find o.pool = some x →
        let slot := x.off.toNat + 16 * ((x.rd + x.filled) % x.n)
        Answers (exec (.fabricOpComplete id ans) s) fun t => t.fabs = s.fabs.filter (fun y => y.id ≠ id) ∧
          Posted s t o.ref.h o.pool ans.status ∧
          ∃ q', t.quires.find o.ref.h = some q' ∧ ∀ j, j < n → j < ans.data.length → let a := loc.addr.toNat + j
            a < slot ∨ slot + 16 ≤ a → chamber q' a = (ans.data[j]?).getD 0)) ∧
    (∀ (op : RemoteOp) (g : Group), s.group? op.ctx op.slot = some g →
      let key := (op.ctx, op.slot, op.gen, op.rank, op.num)
      let lined := g.lined.filter fun x => x ≠ (op.rank, op.num)
      (key ∈ s.applied → Answers (exec (.remoteOpArrival op) s) fun t => t = s) ∧
      (key ∉ s.applied → g.held = [] →
        (op.gen ≠ g.gen → (∀ o ∈ s.fabs, ∀ m a, o.kind ≠ .reform m ∧ o.kind ≠ .reformMask a) →
          Answers (exec (.remoteOpArrival op) s) fun t => t.outbox = (s.answerOp op (.reply op ⟨0x23, 0, []⟩)).outbox ∧
            t.mem = s.mem ∧ t.applied = s.applied) ∧
        (op.gen = g.gen → g.st ≠ .active → Answers (exec (.remoteOpArrival op) s) fun t =>
          t.group? op.ctx op.slot = some { g with lined } ∧ t.outbox = s.outbox ∧ t.mem = s.mem ∧ t.applied = s.applied) ∧
        (op.gen = g.gen → g.st = .active → op.after = [] → ∀ i, op.kind = .bar i → g.arrived = [] →
          (∀ o ∈ s.fabs, ∀ n, o.kind ≠ .bar n) → Answers (exec (.remoteOpArrival op) s) fun t =>
            t.group? op.ctx op.slot = some { g with arrived := [(op.rank, i)], lined } ∧ t.applied = key :: s.applied) ∧
        (op.gen = g.gen → g.st = .active → op.after = [] → op.post = none → Unsent s (remoteWho op) → ∀ a bs pa, op.kind = .write a bs →
          pa + bs.length ≤ s.hbmTop → s.rekeys = [] → (∀ j, j < bs.length → s.worn [pa + j] = none) →
          (∀ j, j < bs.length → ∃ leaf, s.engAt op.ctx (a + BitVec.ofNat 64 j) 1 true
            (s.walk (s.triggerDie 0 op.ctx) op.ctx (a + BitVec.ofNat 64 j)) = .ok (pa + j, leaf) ∧ leaf.getLsbD 9 = false) →
          Answers (exec (.remoteOpArrival op) s) fun t => t.applied = key :: s.applied ∧
            (∀ j, j < bs.length → t.readByte (pa + j) = (bs[j]?).getD 0) ∧
            t.outbox = (s.answerOp op (.reply op ⟨0, bs.length, []⟩)).outbox))) ∧
    (∀ (ctx slot rank gen : Nat) (xs : List Nat) (g : Group), s.group? ctx slot = some g → g.gen = gen → g.held = [] →
      (g.st = .aborted ∨ g.st = .reforming → Answers (exec (.greformDecision ctx slot gen xs) s) fun t =>
        Decided t ctx slot g ((List.range g.nmem).filter fun r => r ∈ xs)) ∧
      (g.st = .settling → Answers (exec (.greformDecision ctx slot gen xs) s) fun t =>
        t.group? ctx slot = some { g with decided := some xs }) ∧
      (g.st = .active → (∀ y ∈ s.fabs, y.ctx ≠ ctx ∨ y.slot ≠ slot) → Answers (exec (.greformDecision ctx slot gen xs) s) fun t =>
        Decided t ctx slot g ((List.range g.nmem).filter fun r => r ∈ xs)) ∧
      (g.shut = false → let props := (rank, xs) :: g.props.filter fun x => x.1 ≠ rank
        (g.st = .aborted → Answers (exec (.greformProposal ctx slot rank gen xs) s) fun t =>
          t.group? ctx slot = some { g with props }) ∧
        (g.st = .reforming → s.coordinator g = g.rank → (∀ r ∈ s.reached g, r ∈ props.map (·.1)) → g.nmem < 2 * (kept g props).length →
          Answers (exec (.greformProposal ctx slot rank gen xs) s) fun t => Decided t ctx slot g (kept g props) ∧
            Flooded s t g (.decision ctx slot gen (kept g props))))) ∧
    (∀ (ctx slot : Nat) (g : Group) (o : FabOp), s.group? ctx slot = some g → s.driver ctx slot = some o → g.st = .reforming →
      g.held = [] →
      (g.shut = false → s.coordinator g = g.rank → o.d - 2 * g.lat ≤ s.now / 720720 →
        (2 * (kept g g.props).length ≤ g.nmem → Answers (exec (.coordinatorTimeout ctx slot) s) fun t =>
          t.group? ctx slot = some { g with shut := true } ∧ t.outbox = s.outbox ∧ t.fabs = s.fabs) ∧
        (g.nmem < 2 * (kept g g.props).length → Answers (exec (.coordinatorTimeout ctx slot) s) fun t =>
          Decided t ctx slot g (kept g g.props) ∧ Flooded s t g (.decision ctx slot g.gen (kept g g.props)))) ∧
      (o.d ≤ s.now / 720720 → (s.fabs.find? fun y => y.id = o.id) = some o → InCore s o.ref.h →
        Answers (exec (.greformTimeout o.id) s) fun t =>
          t.group? ctx slot = some { g with st := .aborted, props := [], shut := false } ∧ (∀ y ∈ t.fabs, y.id ≠ o.id) ∧
          Posted s t o.ref.h o.pool 0x20))

/-- R141, R285, R286, R299, R305, R312, R313, R333, R345-R347, R350-R352, R355, R357-R364: a die's clock and noise source, the
host's registers and commands, boot, and the memory devices, when their condition holds. Commands as steps, the place at which the host sizes BAR2, and the refresh and
retirement steps are the model's choice (logs 14, 35). -/
def Obligations.ModuleEvents : Prop :=
  ∀ (s : State),
    (∀ (die : Nat), let d := s.die die
      (∀ f w, d.step = some (f, w) → w ≤ s.now → d.heldF = none → Answers (exec (.clockRelockDone die) s) fun t =>
        t.die die = { d with f, cycAt := s.now, step := none }) ∧
      (∀ f, f ≤ 8 → die < 4 → d.up = true → d.step = none → d.f ≠ f → Answers (exec (.firmwareClockStep die f false) s) fun t =>
        t.die die = { d with cyc := d.cycles s.now, cycAt := s.now, step := some (f, s.now + 2000 * 720720) }) ∧
      (d.up = true → d.noiseFail = false → Answers (exec (.noiseSourceFail die) s) fun t =>
        t.die die = { d with noiseFail := true } ∧ t.life.noise.get 0 die = s.life.noise.get 0 die + 1)) ∧
    (∀ (part q : Nat) (i : DWord) (l : LQueue), (s.part part).queues.find q = some l → q < 64 → Posts s part →
      let goes := (s.part part).ready ∧ (l.wr - l.rd).toNat ≤ (i.setWidth 32 - l.rd).toNat ∧ (i.setWidth 32 - l.rd).toNat ≤ 2 ^ l.k
      let done := fun t : State => t.part part = { s.part part with queues := (s.part part).queues.put q { l with wr := i.setWidth 32 } }
      (goes → Answers (exec (.doorbell part q (i.setWidth 32)) s) done ∧
        Answers (exec (.hostRegisterWrite part (0x1000 + 8 * q) i) s) done) ∧
      (¬goes → Answers (exec (.doorbell part q (i.setWidth 32)) s) fun t => t = s)) ∧
    (∀ (part : Nat) (v : DWord), Posts s part →
      let block := 0x8000000000000 + v.toNat
      (v.toNat % 64 = 0 → block + 64 ≤ 0xC000000000000 →
        (s.readNat block 1 = 3 → (∀ j, 3 ≤ j → j < 64 → s.readByte (block + j) = 0) →
          exec (.hostRegisterWrite part 0x100 v) s = exec (.ctxDestroy part (s.readNat (block + 1) 2)) s) ∧
        (Takes s part → s.readNat block 1 = 0 ∨ 8 < s.readNat block 1 → Answers (exec (.hostRegisterWrite part 0x100 v) s) fun t =>
          Refused s t part 1)) ∧
      (v.toNat % 4096 = 0 → Answers (exec (.hostRegisterWrite part 0x200 v) s) fun t => t.part part = { s.part part with evtbase := v }) ∧
      (∀ k, k ≤ 12 → Answers (exec (.hostRegisterWrite part 0x208 (BitVec.ofNat 64 (16 * 2 ^ k))) s) fun t =>
        t.part part = { s.part part with evtsize := BitVec.ofNat 64 (16 * 2 ^ k) }) ∧
      (∀ k, k ≤ 6 → Answers (exec (.hostRegisterWrite part 0x100000 (BitVec.ofNat 64 (2 ^ (30 + k)))) s) fun t =>
        t.part part = { s.part part with bar2 := 2 ^ (30 + k) }) ∧
      Answers (exec (.hostRegisterWrite part 0x210 v) s) fun t => t.part part = { s.part part with evthead := v }) ∧
    (∀ (part : Nat), Takes s part →
      (∀ c : QueueCmd, s.addrOk part c.ring (256 * 2 ^ c.k) = true → s.ctxOf part c.ctx = true → c.q < 64 → c.k ≤ 12 → c.prio ≤ 3 →
        c.ring % 256 = 0 → (∀ l, (s.part part).queues.find c.q = some l → l.rd = l.wr ∧ l.head = none) →
        Answers (exec (.queue part c) s) fun t => (t.part part).cmdstat = 0 ∧ ∃ l, (t.part part).queues.find c.q = some l ∧
          l.ring = c.ring ∧ l.k = c.k ∧ l.ctx = c.ctx ∧ l.prio = c.prio ∧ l.head = none ∧ l.rd = l.wr) ∧
      (∀ c : QueueCmd, s.ctxOf part c.ctx = false → Answers (exec (.queue part c) s) fun t => Refused s t part 4) ∧
      (∀ a, s.addrOk part a 128 = true → (s.readDesc a).ok = true → s.addrOk part (s.readDesc a).ptroot 2048 = true →
        s.addrOk part (s.readDesc a).swapbase (max 1 (s.readDesc a).swapsize) = true → s.ctxs.find (s.readNat a 2) = none →
        s.ctxs.length < 4095 → s.rekeys = [] → Answers (exec (.ctxCreate part a) s) fun t => (t.part part).cmdstat = 0 ∧
          t.ctxs.find (s.readNat a 2) = some (Ctx.fresh part (s.readDesc a)) ∧
          ∀ c, c ≠ s.readNat a 2 → t.ctxs.find c = s.ctxs.find c) ∧
      (∀ a, s.addrOk part a 128 = true → (s.readDesc a).ok = false → s.rekeys = [] → Answers (exec (.ctxCreate part a) s) fun t => Refused s t part 1) ∧
      (∀ ctx slot, s.ctxOf part ctx = true →
        (s.ctxBusy ctx = false → Answers (exec (.ctxDestroy part ctx) s) fun t => (t.part part).cmdstat = 0 ∧ t.ctxs.find ctx = none ∧
          ∀ c, c ≠ ctx → t.ctxs.find c = s.ctxs.find c) ∧
        (s.ctxBusy ctx = true → Answers (exec (.ctxDestroy part ctx) s) fun t => Refused s t part 2) ∧
        (slot ≤ 15 → (∀ o ∈ s.fabs, o.ctx ≠ ctx ∨ o.slot ≠ slot) → Answers (exec (.groupUnbind part ctx slot) s) fun t =>
          (t.part part).cmdstat = 0 ∧ t.group? ctx slot = none) ∧
        ((∀ q ∈ s.quires, q.2.ctx ≠ ctx) → Answers (exec (.debugBind part ctx 0) s) fun t => (t.part part).cmdstat = 0 ∧
          (t.ctx ctx).debug = none ∧ (t.ctx ctx).diverged = false) ∧
        (∀ a, let d := s.readDebug a
          (∀ q ∈ s.quires, q.2.ctx ≠ ctx) → a ≠ 0 → s.addrOk part a 128 = true → s.debugBad a = false →
          s.addrOk part d.trbase d.trsize = true → s.addrOk part d.logbase d.logsize = true → s.rekeys = [] →
          Answers (exec (.debugBind part ctx a) s) fun t => (t.part part).cmdstat = 0 ∧ (t.ctx ctx).debug = some d) ∧
        ((∀ q ∈ s.quires, q.2.ctx ≠ ctx) → Answers (exec (.ctxCtlSuspend part ctx) s) fun t => (t.part part).cmdstat = 0 ∧
          (t.part part).busy = none ∧ (t.ctx ctx).suspended = true) ∧
        (s.toSave ctx = true → (∃ q ∈ s.quires, q.2.ctx = ctx) → Answers (exec (.debugBind part ctx 0) s) fun t => Refused s t part 2) ∧
        (s.rekeys = [] → Answers (exec (.ctxCtlResume part ctx) s) fun t => (t.part part).cmdstat = 0 ∧ (t.ctx ctx).suspended = false ∧
          ∀ h q c a w, s.quires.find h = some q → q.ctx = ctx → q.phase = .swapped c a w none → c = .suspend →
            (t.quires.find h).map (·.phase) = some (.swapped c a w (some (s.now / 720720))))) ∧
      (∀ ctx slot addr, let n := fun o k => s.readNat (addr + o) k
        s.ctxOf part ctx = true → s.addrOk part addr 64 = true → slot ≤ 15 → addr % 64 = 0 → 1 ≤ n 0 2 → n 0 2 ≤ 4096 →
        n 2 2 < n 0 2 → n 4 2 ≠ 0 → n 6 2 = 0 → 1000 ≤ n 8 4 → n 8 4 ≤ 1000000 → n 16 8 % 16 = 0 → n 24 40 = 0 →
        s.addrOk part (n 16 8) (16 * n 0 2) = true → s.membersBad part (n 16 8) (n 0 2) (n 2 2) = false → s.group? ctx slot = none →
        s.rekeys = [] → Answers (exec (.groupBind part ctx slot addr) s) fun t => (t.part part).cmdstat = 0 ∧ ∃ g, t.group? ctx slot = some g ∧
          g.st = .active ∧ g.nmem = n 0 2 ∧ g.rank = n 2 2 ∧ g.gen = n 4 2 ∧ g.lat = n 8 4 ∧ g.span = n 12 4 ∧ g.trip = none ∧
          g.members.length = n 0 2) ∧
      (∀ a, s.region a = .host → s.region (a + 65535) = .host → s.flash.counters.length ≤ 65536 →
        Answers (exec (.counters part a) s) fun t => (t.part part).cmdstat = 0 ∧
          ∀ j, j < s.flash.counters.length → t.readByte (a + j) = (s.flash.counters[j]?).getD 0)) ∧
    (∀ (part off : Nat) (bs : List Byte), let a := (s.part part).hbmBase + off
      Posts s part →
      (∀ n, (n = 0 ∨ min (s.part part).hbmSize (s.part part).bar2 < off + n → Answers (exec (.hostBar2Access part off none n) s) fun t =>
          t = s) ∧
        (n ≠ 0 → off + n ≤ min (s.part part).hbmSize (s.part part).bar2 → s.rekeys = [] →
          Answers (exec (.hostBar2Access part off none n) s) fun t =>
            t = { s with hostGot := s.hostGot.put part ((List.range n).map fun j => s.readByte (a + j)) })) ∧
      (off + bs.length ≤ min (s.part part).hbmSize (s.part part).bar2 →
        s.hostBar2 part off bs.length = (List.range bs.length).map fun j => s.readByte (a + j)) ∧
      (bs ≠ [] → off + bs.length ≤ min (s.part part).hbmSize (s.part part).bar2 → a + bs.length ≤ s.hbmTop → s.rekeys = [] →
        (∀ j, j < bs.length → s.worn [a + j] = none) → Answers (exec (.hostBar2Access part off (some bs) bs.length) s) fun t =>
          (∀ j, j < bs.length → t.readByte (a + j) = (bs[j]?).getD 0) ∧
          ∀ b, b < a ∨ a + bs.length ≤ b → t.readByte b = s.readByte b)) ∧
    (Answers (exec .attestationReport s) fun t =>
      t = { s with boot := { s.boot with report := Config.report (s.boot.accepted.map (·.2)) } }) ∧
    (s.boot.power = false → Answers (exec .powerGood s) fun t => t = { s with now := 0, boot := { s.boot with power := true } }) ∧
    (∀ (i : Image) (part : Nat), s.boot.power = true →
      let refused := fun t : State => t.boot.stage = 0 ∧ t.boot.recovery = true ∧ t.flash = s.flash ∧ t.boot.hv = false ∧
        t.boot.t = none ∧ t.boot.accepted = []
      (s.boot.stage = 0 → Answers (exec (.imageVerify 1 i part) s) fun t =>
        if s.imageOk 1 Config.romKeys i then t.boot.stage = 1 ∧ t.boot.recovery = false ∧ t.boot.keys = Config.stageKeys i.body ∧
          t.boot.accepted.length = s.boot.accepted.length + 1
        else refused t) ∧
      (s.boot.stage = 1 → s.boot.hv = false → Answers (exec (.imageVerify 2 i part) s) fun t =>
        if s.imageOk 2 s.boot.keys i then t.boot.hv = true ∧ t.boot.stage = 1 else refused t) ∧
      (s.boot.stage = 1 → s.boot.t = none → Answers (exec (.imageVerify 3 i part) s) fun t =>
        let c := Config.cfgImage i.body
        if s.imageOk 3 s.boot.keys i ∧ s.cfgOk c then t.boot.t = some s.now ∧ t.cfg.node = c.node ∧ t.cfg.class_ = c.class_ ∧
          t.parts.length = c.parts.length
        else refused t) ∧
      (s.boot.hv = true → s.boot.t.isSome = true → ∀ p, s.parts.find part = some p → p.image = false →
        Answers (exec (.imageVerify 4 i part) s) fun t =>
          if s.imageOk 4 p.keys i then (t.part part).image = true ∧ t.boot.stage = s.boot.stage else t = s)) ∧
    (∀ (die g t0 : Nat), die < 4 → g < 10 → (s.gallery (10 * die + g)).up = false → s.boot.t = some t0 →
      1000 * (15 * die + g) ≤ (s.now - t0) / 720720 → Answers (exec (.galleryUp die g) s) fun t =>
        (t.gallery (10 * die + g)).up = true ∧ ((t.die die).up = if g = 9 then true else (s.die die).up) ∧
        (g = 9 → (t.die die).cycles t.now = 0 ∧ (t.die die).f = 0 ∧ ∀ p, p < 9 → (t.port (9 * die + p)).training = true)) ∧
    (∀ (t0 : Nat), s.boot.t = some t0 → 55000 ≤ (s.now - t0) / 720720 → Answers (exec .ready s) fun t =>
      ∀ n p, s.parts.find n = some p → (t.part n).ready = if p.image then true else p.ready) ∧
    (∀ (ch : Nat), ch < 256 → ch ∉ s.retired → s.retiring = none → s.ctxs = [] → s.copies = [] →
      (∀ p ∈ s.parts, p.2.hbmBase + p.2.hbmSize ≤ 1610612736 * (255 - s.retired.length)) →
      ((∀ v ∈ s.vats, v.2.input = [] ∧ v.2.queue = []) → Answers (exec (.channelRetire ch) s) fun t =>
        t.retiring = none ∧ ∀ c, c ∈ t.retired ↔ c = ch ∨ c ∈ s.retired) ∧
      ((∃ v ∈ s.vats, v.2.queue ≠ []) → Answers (exec (.channelRetire ch) s) fun t => t = { s with retiring := some (ch, []) })) ∧
    (Answers (exec .counterPersist s) fun t => t.persisted = s.now / 720720 ∧
      ∀ c j, c < 256 → j < 4 → t.flash.counters[16 * c + j]? = some (nthByte (s.life.corrected.get 0 c) j) ∧
        t.flash.counters[16 * c + 4 + j]? = some (nthByte (s.life.uncorrected.get 0 c) j)) ∧
    (∀ (page : Nat) (k : Rekey), s.rekeys = [k] → k.key = page → k.running = true → s.hostWait = [] → s.posts = [] →
      (∀ p ∈ s.parts, ∀ b, p.2.busy = some b → ∃ c, b = .suspend c) → FabricIdle s → Answers (exec (.rekeyComplete page) s) fun t =>
      (∀ x ∈ t.rekeys, x.key = page → x.running = false) ∧
      (page < 2 ^ 60 → ∀ b, b / 256 = page → t.blockCtr.get 0 b = 0)) ∧
    (∀ (n : Nat), (Answers (exec (.patrolScrub n false) s) fun t => t = s) ∧
      Answers (exec (.patrolScrub n true) s) fun t => t.refreshOf n = max 32 (s.refreshOf n / 2) ∧
        t.life.corrected.get 0 (n % 256) = s.life.corrected.get 0 (n % 256) + 1) ∧
    (Answers (exec .temperatureHigh s) fun t => t = { s with hot := true } ∧ ∀ n, t.refreshPeriod n = s.refreshOf n / 2) ∧
    (Answers (exec .temperatureNormal s) fun t => t = { s with hot := false } ∧ ∀ n, t.refreshPeriod n = s.refreshOf n)

/-- R47, R217, R285, R360: what power-up leaves, and what a sheet, a context and a core begin with. That memory reads 0 then is the
model's choice (log 2). -/
def Obligations.ResetValues : Prop :=
  let s := State.reset
  s.boot.power = false ∧ s.now = 0 ∧ s.cur = none ∧ (∀ d, (s.die d).up = false) ∧ (∀ g, (s.gallery g).up = false) ∧
  (∀ p, (s.port p).up = false ∧ (s.port p).training = false) ∧ (∀ p, (s.part p).ready = false ∧ (s.part p).image = false) ∧
  (∀ c, s.ctxs.find c = none ∧ s.quires.find c = none) ∧ (∀ c, (s.core c).slotted = false) ∧ (∀ a, s.readByte a = 0) ∧
  (∀ p d c n, (Ctx.fresh p d).tables.find n = none ∧ (Ctx.fresh p d).groups.find c = none) ∧
  let sh := Sheet.blank
  (∀ r l, sh.raw (.v r l) = 0) ∧ (∀ n, n < 60 → sh.raw (.s n) = 0) ∧ (∀ n, sh.k.get 0 n = 0 ∧ sh.flags.get 0 n = 0 ∧ sh.lstg.get 0 n = 0) ∧
  sh.msp = 0 ∧ sh.regions = [] ∧ sh.ldep = 0 ∧ (∀ n, sh.slots.get Slot.zero n = ⟨0, 0, 0, 0, 0, 0, 0, 0⟩) ∧
  sh.tpc = 0 ∧ sh.thdr = 0 ∧ sh.tcause = 0 ∧ sh.taddr = 0 ∧ sh.tinfo = 0 ∧ sh.tstat = 0 ∧ sh.tvec = 0 ∧ sh.sflags = 0

/-- The memory of the module is in form after power-up. -/
def Obligations.ResetInvariant : Prop := State.Inv State.reset

/-- R52, R55, R84: with nothing on the agenda, the sheet in issue executes the word that its pc names, or a header at the start of a
clause, or what follows its last word; an agenda's head is executed first. The agenda, the counter of free values and the time that a
word takes are the model's (logs 1, 3, 9). -/
def Obligations.StepRunsDecodedWord : Prop :=
  ∀ (s : State) (e : Env),
    (s.agenda = [] → Live s e →
      (∀ (x : TlbEnt) (i : Instr), 1 ≤ e.sh.idx → e.sh.idx ≤ e.sh.hdr.n.toNat → s.tlb e.q.core e.q.ctx e.sh.pc = some x →
        x.leaf.getLsbD 6 = true → s.mayReach (s.ctx e.q.ctx).part (x.pa e.sh.pc) 8 false = true → s.ue (x.pa e.sh.pc) 8 = false → s.stores = [] → s.rekeys = [] →
        decodeWord (BitVec.ofNat 64 (leNat ((List.range 8).map fun j => s.readByte (x.pa e.sh.pc + j)))) = .ok i →
        step s =
          match exec i s.ready with
          | .next t => .next (s.ready.wordTime t (issueCycles e.sh i))
          | .fault f => .fault f
          | .refused r => .refused r) ∧
      (e.sh.idx = 0 → step s = exec .clauseHeaderFetch s.ready) ∧
      (e.sh.idx = e.sh.hdr.n.toNat + 1 → step s = exec .loopBackEdge s.ready)) ∧
    ∀ (a : Agenda) (rest : List Agenda), s.agenda = a :: rest →
      step s = exec a.what { (s.elapse (720720 * a.after)) with agenda := rest, free := s.free + 1 }

/-- R52, R62-R78: what some words written out bit by bit stand for. -/
def Obligations.DecodedWords : Prop :=
  decodeWord 0x30000A080C004400 = .ok (.fadd
    { com := { neg := false, gsel := 0, u := false, fs := false }, d := 5, a := 4, b := 6, c := 0, ty := .f32, rm := .rz, ftz := false,
      subf := 0 }) ∧
  decodeWord 0x2600020280000050 = .ok (.cmpi
    { com := { neg := false, gsel := 0, u := false, fs := false }, d := 1, a := 1, imm := 0x40000028 }) ∧
  decodeWord 0xF804080000000020 = .ok (.rdsr
    { com := { neg := false, gsel := 0, u := true, fs := false }, d := 4, a := 0, imm := 0x10 }) ∧
  decodeWord 0xB700000000000000 = .ok (.vdrain
    { com := { neg := false, gsel := 0, u := false, fs := false }, d := 0, a := 0, b := 0, c := 0, mod := 0 })

/-- R62-R78: an instruction that has a word decodes from its word, with every field; and the decoder gives a word only as the
instruction whose word it is, so that no bit of a word is dropped. -/
def Obligations.DecodeAndEncodeAgree : Prop :=
  (∀ (i : Instr) (w : DWord), i.wf = true → encode i = some w → decodeWord w = .ok i) ∧
  (∀ (w : DWord) (i : Instr), decodeWord w = .ok i → encode i = some w)

/-- Memory stays one canonical list of cells: from every state in which it is one, each step leaves it one. -/
def Obligations.StepKeepsMemoryCanonical : Prop := ∀ (s t : State), s.Inv → step s = .next t → t.Inv

/-- R138: each active strand of D takes its own number, and nothing else changes. -/
def Obligations.LaneidRule : Prop :=
  ∀ (s : State) (e : Env) (w : FR), Live s e → (Instr.laneid w).wf = true → e.sh.vOk [(w.d.toNat, 1)] = true →
    w.ty = .i32 ∧ w.a = 0 ∧ w.b = 0 ∧ w.c = 0 ∧ (∀ v, encode (.laneid w) = some v → v.extractLsb' 56 8 = 0x6A) ∧
    Answers (exec (.laneid w) s) fun t =>
      Acts s t e ((act e w.com).map fun j => (vreg e w.d.toNat j, BitVec.ofNat 32 j)) id 0

/-- R54: a header in which N is 0, SETA or SETB is 12 to 14, LE is 5 to 7, LE names a level that is not the innermost open one, or a
bit of [27:0] is set raises ILLEGAL_CLAUSE (0x03) when it is fetched, and no body word of its clause issues; a header with LE = 0
and none of these raises nothing. -/
def Obligations.HeaderRule : Prop :=
  ∀ (s : State) (e : Env) (w : DWord), Live s e → e.sh.idx = 0 → HeaderNow s e w → w.toNat / 2 ^ 56 = 0 →
    let n := w.toNat / 2 ^ 52 % 16
    let seta := w.toNat / 2 ^ 36 % 16
    let setb := w.toNat / 2 ^ 32 % 16
    let le := w.toNat / 2 ^ 29 % 8
    let bad := n = 0 ∨ (12 ≤ seta ∧ seta ≤ 14) ∨ (12 ≤ setb ∧ setb ≤ 14) ∨ 5 ≤ le ∨ (le ≠ 0 ∧ le ≠ e.sh.ldep) ∨
      w.toNat % 2 ^ 28 ≠ 0
    (bad → ∃ x, x.cause = 0x03 ∧ x.tpc = e.sh.pc ∧ exec .clauseHeaderFetch s = .next (s.trap e.r x)) ∧
    (bad → e.sh.tstat.getLsbD 7 = false → s.vectorOk e.r e.q.core e.q.ctx e.sh.tvec = true →
      Answers (exec .clauseHeaderFetch s) fun t => ∃ u, t.sheet? e.r = some u ∧ u.tcause = 0x03 ∧ u.tpc = e.sh.pc ∧
        u.pc = e.sh.tvec ∧ u.idx = 0) ∧
    (¬bad → le = 0 → Answers (exec .clauseHeaderFetch s) fun t => ∃ u, t.sheet? e.r = some u ∧ u.idx = 1 ∧ u.pc = e.sh.pc + 8 ∧
      u.tcause = e.sh.tcause)
end

