-- ==== Sys2Proof/Laws/Tab.lean ====
section
/-! SUPPORT. The laws of sparse tables: what `find`, `get`, `put`, `del` and `set` give of one another, that every
operation keeps the canonical form, and that a table in that form is determined by what it reads as. -/

namespace Sys2Proof.Machine

variable {α : Type}

/-! ### Reads of updates -/

@[simp] theorem Tab.find_nil (n : Nat) : Tab.find ([] : Tab α) n = none := rfl

@[simp] theorem Tab.find_put_self (t : Tab α) (n : Nat) (x : α) : (t.put n x).find n = some x := by
  induction t with
  | nil => simp [Tab.put, Tab.find]
  | cons e t ih =>
    obtain ⟨k, v⟩ := e
    unfold Tab.put
    split
    · simp [Tab.find]
    · split
      · simp [Tab.find]
      · rename_i h1 h2
        simp [Tab.find, h2, ih]

@[simp] theorem Tab.find_put_other (t : Tab α) {m n : Nat} (x : α) (h : m ≠ n) : (t.put n x).find m = t.find m := by
  induction t with
  | nil => simp [Tab.put, Tab.find, h]
  | cons e t ih =>
    obtain ⟨k, v⟩ := e
    unfold Tab.put
    split
    · simp [Tab.find, h]
    · split
      · rename_i h2
        subst h2
        simp [Tab.find, h]
      · simp only [Tab.find, ih]

theorem Tab.find_put (t : Tab α) (m n : Nat) (x : α) : (t.put n x).find m = if m = n then some x else t.find m := by
  by_cases h : m = n
  · subst h; simp
  · simp [h]

@[simp] theorem Tab.find_del_self (t : Tab α) (n : Nat) : (t.del n).find n = none := by
  induction t with
  | nil => rfl
  | cons e t ih =>
    obtain ⟨k, v⟩ := e
    unfold Tab.del
    split
    · exact ih
    · rename_i ne
      simp only [Tab.find, ne, if_false, ih]

@[simp] theorem Tab.find_del_other (t : Tab α) {m n : Nat} (h : m ≠ n) : (t.del n).find m = t.find m := by
  induction t with
  | nil => rfl
  | cons e t ih =>
    obtain ⟨k, v⟩ := e
    unfold Tab.del
    split
    · rename_i h2
      subst h2
      simp only [Tab.find, h, if_false, ih]
    · simp only [Tab.find, ih]

@[simp] theorem Tab.upd_nil (n : Nat) (f : α → α) : Tab.upd ([] : Tab α) n f = [] := rfl

theorem Tab.upd_cons (k : Nat) (v : α) (t : Tab α) (n : Nat) (f : α → α) :
    Tab.upd ((k, v) :: t) n f = (if k = n then (k, f v) else (k, v)) :: t.upd n f := rfl

@[simp] theorem Tab.find_upd_self (t : Tab α) (n : Nat) (f : α → α) : (t.upd n f).find n = (t.find n).map f := by
  induction t with
  | nil => rfl
  | cons e t ih =>
    obtain ⟨k, v⟩ := e
    rw [Tab.upd_cons]
    by_cases h : n = k
    · subst h; simp [Tab.find]
    · simp [Ne.symm h, Tab.find, h, ih]

@[simp] theorem Tab.find_upd_other (t : Tab α) {m n : Nat} (f : α → α) (h : m ≠ n) : (t.upd n f).find m = t.find m := by
  induction t with
  | nil => rfl
  | cons e t ih =>
    obtain ⟨k, v⟩ := e
    rw [Tab.upd_cons]
    by_cases h1 : k = n
    · subst h1; simp [Tab.find, h, ih]
    · simp [Tab.find, h1, ih]

@[simp] theorem Tab.find_mapv (t : Tab α) (n : Nat) (f : α → α) : (t.mapv f).find n = (t.find n).map f := by
  induction t with
  | nil => rfl
  | cons e t ih =>
    obtain ⟨k, v⟩ := e
    by_cases h : n = k <;> simp [Tab.mapv, Tab.find, h]
    exact ih

@[simp] theorem Tab.get_put_self (d : α) (t : Tab α) (n : Nat) (x : α) : (t.put n x).get d n = x := by simp [Tab.get]

@[simp] theorem Tab.get_put_other (d : α) (t : Tab α) {m n : Nat} (x : α) (h : m ≠ n) :
    (t.put n x).get d m = t.get d m := by simp [Tab.get, h]

/-! ### The order of keys -/

theorem Tab.above_mono {t : Tab α} {lo hi : Nat} (h : Tab.above hi t = true) (le : lo ≤ hi) : Tab.above lo t = true := by
  cases t with
  | nil => rfl
  | cons e t =>
    obtain ⟨k, v⟩ := e
    simp only [Tab.above, Bool.and_eq_true, decide_eq_true_eq] at h ⊢
    exact ⟨by omega, h.2⟩

theorem Tab.find_above {t : Tab α} {lo n : Nat} (h : Tab.above lo t = true) (lt : n < lo) : t.find n = none := by
  induction t generalizing lo with
  | nil => rfl
  | cons e t ih =>
    obtain ⟨k, v⟩ := e
    simp only [Tab.above, Bool.and_eq_true, decide_eq_true_eq] at h
    have ne : n ≠ k := by omega
    simp only [Tab.find, ne, if_false]
    exact ih h.2 (by omega)

theorem Tab.above_put {t : Tab α} {lo n : Nat} (x : α) (h : Tab.above lo t = true) (le : lo ≤ n) :
    Tab.above lo (t.put n x) = true := by
  induction t generalizing lo with
  | nil => simp [Tab.put, Tab.above, le]
  | cons e t ih =>
    obtain ⟨k, v⟩ := e
    simp only [Tab.above, Bool.and_eq_true, decide_eq_true_eq] at h
    unfold Tab.put
    split
    · simp only [Tab.above, Bool.and_eq_true, decide_eq_true_eq]
      exact ⟨le, by omega, h.2⟩
    · split
      · rename_i eq
        subst eq
        simpa [Tab.above, le] using h.2
      · simp only [Tab.above, Bool.and_eq_true, decide_eq_true_eq]
        exact ⟨h.1, ih h.2 (by omega)⟩

theorem Tab.above_del {t : Tab α} {lo : Nat} (n : Nat) (h : Tab.above lo t = true) : Tab.above lo (t.del n) = true := by
  induction t generalizing lo with
  | nil => rfl
  | cons e t ih =>
    obtain ⟨k, v⟩ := e
    simp only [Tab.above, Bool.and_eq_true, decide_eq_true_eq] at h
    unfold Tab.del
    split
    · exact Tab.above_mono (ih h.2) (by omega)
    · simp only [Tab.above, Bool.and_eq_true, decide_eq_true_eq]
      exact ⟨h.1, ih h.2⟩

/-! ### Entries -/

theorem Tab.mem_put {t : Tab α} {n : Nat} {x : α} {e : Nat × α} (h : e ∈ t.put n x) : e = (n, x) ∨ e ∈ t := by
  induction t with
  | nil => simpa [Tab.put] using h
  | cons a t ih =>
    obtain ⟨k, v⟩ := a
    unfold Tab.put at h
    split at h
    · simpa using h
    · split at h
      · rcases List.mem_cons.1 h with h | h
        · exact .inl h
        · exact .inr (List.mem_cons_of_mem _ h)
      · rcases List.mem_cons.1 h with h | h
        · exact .inr (h ▸ List.mem_cons_self)
        · rcases ih h with h | h
          · exact .inl h
          · exact .inr (List.mem_cons_of_mem _ h)

theorem Tab.mem_del {t : Tab α} {n : Nat} {e : Nat × α} (h : e ∈ t.del n) : e ∈ t := by
  induction t with
  | nil => simp [Tab.del] at h
  | cons a t ih =>
    obtain ⟨k, v⟩ := a
    unfold Tab.del at h
    split at h
    · exact List.mem_cons_of_mem _ (ih h)
    · rcases List.mem_cons.1 h with h | h
      · exact h ▸ List.mem_cons_self
      · exact List.mem_cons_of_mem _ (ih h)

theorem Tab.mem_of_find {t : Tab α} {n : Nat} {x : α} (h : t.find n = some x) : (n, x) ∈ t := by
  induction t with
  | nil => simp at h
  | cons e t ih =>
    obtain ⟨k, v⟩ := e
    unfold Tab.find at h
    split at h
    · rename_i eq
      cases h
      exact eq ▸ List.mem_cons_self
    · exact List.mem_cons_of_mem _ (ih h)

theorem Tab.eq_of_find {t u : Tab α} {lo : Nat} (ht : Tab.above lo t = true) (hu : Tab.above lo u = true)
    (h : ∀ n, t.find n = u.find n) : t = u := by
  induction t generalizing lo u with
  | nil =>
    cases u with
    | nil => rfl
    | cons e u => exact absurd (h e.1) (by simp [Tab.find])
  | cons e t ih =>
    obtain ⟨k, v⟩ := e
    cases u with
    | nil => exact absurd (h k) (by simp [Tab.find])
    | cons f u =>
      obtain ⟨m, w⟩ := f
      simp only [Tab.above, Bool.and_eq_true, decide_eq_true_eq] at ht hu
      have hk : k = m := by
        by_contra ne
        rcases Nat.lt_or_gt_of_ne ne with lt | lt
        · have := h k
          rw [show Tab.find ((m, w) :: u) k = none from by
            simp only [Tab.find, ne, if_false]
            exact Tab.find_above hu.2 (by omega)] at this
          simp [Tab.find] at this
        · have := h m
          rw [show Tab.find ((k, v) :: t) m = none from by
            simp only [Tab.find, Ne.symm ne, if_false]
            exact Tab.find_above ht.2 (by omega)] at this
          simp [Tab.find] at this
      subst hk
      have hv : v = w := by simpa [Tab.find] using h k
      subst hv
      congr 1
      refine ih ht.2 hu.2 fun n => ?_
      by_cases hn : n = k
      · subst hn
        rw [Tab.find_above ht.2 (by omega), Tab.find_above hu.2 (by omega)]
      · simpa [Tab.find, hn] using h n

/-! ### The canonical form -/

variable [DecidableEq α]

theorem Tab.wf_iff {d : α} {t : Tab α} : Tab.wf d t = true ↔ Tab.above 0 t = true ∧ ∀ e ∈ t, e.2 ≠ d := by
  simp [Tab.wf]

@[simp] theorem Tab.wf_nil (d : α) : Tab.wf d [] = true := rfl

theorem Tab.wf_set {d : α} {t : Tab α} (n : Nat) (x : α) (h : Tab.wf d t = true) : Tab.wf d (t.set d n x) = true := by
  rw [Tab.wf_iff] at h ⊢
  unfold Tab.set
  split
  · exact ⟨Tab.above_del n h.1, fun e he => h.2 e (Tab.mem_del he)⟩
  · rename_i ne
    refine ⟨Tab.above_put x h.1 (Nat.zero_le n), fun e he => ?_⟩
    rcases Tab.mem_put he with rfl | he
    · exact ne
    · exact h.2 e he

@[simp] theorem Tab.get_set_self (d : α) (t : Tab α) (n : Nat) (x : α) : (t.set d n x).get d n = x := by
  unfold Tab.set
  split
  · rename_i eq
    simp [Tab.get, eq]
  · simp

@[simp] theorem Tab.get_set_other (d : α) (t : Tab α) {m n : Nat} (x : α) (h : m ≠ n) : (t.set d n x).get d m = t.get d m := by
  unfold Tab.set
  split
  · simp [Tab.get, h]
  · simp [h]

/-- Equal contents are equal tables. -/
theorem Tab.eq_of_get {d : α} {t u : Tab α} (ht : Tab.wf d t = true) (hu : Tab.wf d u = true)
    (h : ∀ n, t.get d n = u.get d n) : t = u := by
  rw [Tab.wf_iff] at ht hu
  refine Tab.eq_of_find ht.1 hu.1 fun n => ?_
  have hn := h n
  unfold Tab.get at hn
  cases ht' : t.find n with
  | none =>
    cases hu' : u.find n with
    | none => rfl
    | some y =>
      rw [ht', hu'] at hn
      exact absurd hn.symm (hu.2 _ (Tab.mem_of_find hu'))
  | some x =>
    cases hu' : u.find n with
    | none =>
      rw [ht', hu'] at hn
      exact absurd hn (ht.2 _ (Tab.mem_of_find ht'))
    | some y =>
      rw [ht', hu'] at hn
      simpa using hn

end Sys2Proof.Machine
end

