-- ==== Sys2Proof/Laws/Memory.lean ====
section
/-! SUPPORT. Memory as a canonical list of cells: every memory operation keeps the form, a read after a write gives what was
written, and a write leaves every other address alone. -/

namespace Sys2Proof.Machine

/-! ### Bytes of a list of cells -/

theorem Memory.wf_write {mem : List Host.Cell} (pa : Nat) (bs : List Byte) (h : Memory.wf mem = true) :
    Memory.wf (Memory.write mem pa bs) = true := by
  induction bs generalizing mem pa with
  | nil => exact h
  | cons b bs ih => exact ih (pa + 1) (Tab.wf_set pa b h)

/-- A write leaves every address outside its bytes alone. -/
theorem Memory.get_write_other {mem : List Host.Cell} {pa a : Nat} {bs : List Byte} (h : a < pa ∨ pa + bs.length ≤ a) :
    Tab.get Memory.blank (Memory.write mem pa bs) a = Tab.get Memory.blank mem a := by
  induction bs generalizing mem pa with
  | nil => rfl
  | cons b bs ih =>
    simp only [List.length_cons] at h
    unfold Memory.write
    rw [ih (by omega), Tab.get_set_other _ _ _ (by omega)]

/-- A read after a write gives what was written. -/
theorem Memory.get_write_self {mem : List Host.Cell} {pa i : Nat} {bs : List Byte} (h : i < bs.length) :
    Tab.get Memory.blank (Memory.write mem pa bs) (pa + i) = bs[i] := by
  induction bs generalizing mem pa i with
  | nil => simp at h
  | cons b bs ih =>
    unfold Memory.write
    cases i with
    | zero =>
      rw [Memory.get_write_other (by omega)]
      exact Tab.get_set_self _ _ pa b
    | succ i =>
      simp only [List.length_cons] at h
      rw [show pa + (i + 1) = pa + 1 + i by omega, ih (by omega)]
      rfl

/-- Equal contents are equal memories. -/
theorem Memory.eq_of_get {m n : List Host.Cell} (hm : Memory.wf m = true) (hn : Memory.wf n = true)
    (h : ∀ a, Tab.get Memory.blank m a = Tab.get Memory.blank n a) : m = n := Tab.eq_of_get hm hn h

/-! ### Bytes written to a physical address -/

@[simp] theorem State.modQuire_mem (s : State) (h : Nat) (f : Quire → Quire) : (s.modQuire h f).mem = s.mem := rfl
@[simp] theorem State.modPart_mem (s : State) (n : Nat) (f : Part → Part) : (s.modPart n f).mem = s.mem := rfl

@[simp] theorem State.ring_mem (s : State) (part q : Nat) (i : Word) : (s.ring part q i).mem = s.mem := by
  unfold State.ring
  split
  · rfl
  · split <;> rfl

/-- Bytes written change memory in HBM and host memory only, and there by `Memory.write`. -/
theorem State.writeBytes_mem (s : State) (pa : Nat) (bs : List Byte) :
    (s.writeBytes pa bs).mem = s.mem ∨ (s.writeBytes pa bs).mem = Memory.write s.mem pa bs := by
  cases r : s.region pa with
  | hbm => right; simp only [State.writeBytes, r]
  | host => right; simp only [State.writeBytes, r]
  | bell n q off => left; simp only [State.writeBytes, r]; split <;> simp
  | win c off =>
    left
    simp only [State.writeBytes, r]
    by_cases lt : off < 0x80000
    · simp only [lt, if_true]
      cases s.chamOwner c off <;> simp
    · simp only [lt, if_false]
  | none => left; simp only [State.writeBytes, r]

theorem State.writeBytes_wf {s : State} (pa : Nat) (bs : List Byte) (h : Memory.wf s.mem = true) :
    Memory.wf (s.writeBytes pa bs).mem = true := by
  rcases s.writeBytes_mem pa bs with e | e <;> rw [e]
  · exact h
  · exact Memory.wf_write pa bs h

theorem State.writeNat_wf {s : State} (pa n x : Nat) (h : Memory.wf s.mem = true) :
    Memory.wf (s.writeNat pa n x).mem = true := State.writeBytes_wf pa _ h

/-- Memory lists nothing at reset. -/
theorem State.reset_wf : Memory.wf State.reset.mem = true := rfl

end Sys2Proof.Machine
end

