-- ==== Sys2Proof/Laws/State.lean ====
section
/-! SUPPORT. One lemma per field of `State` for each of its updates: what an update does not name, it leaves. Then what each
update's own field reads as after it, and the words' last operations (`leave`, `advance`, `goto`). -/

namespace Sys2Proof.Machine

/-! ### `State.pass` -/

@[simp] theorem State.pass_agenda (s : State) (p : Nat) : (s.pass p).agenda = s.agenda := rfl
@[simp] theorem State.pass_free (s : State) (p : Nat) : (s.pass p).free = s.free := rfl
@[simp] theorem State.pass_cur (s : State) (p : Nat) : (s.pass p).cur = s.cur := rfl
@[simp] theorem State.pass_reissue (s : State) (p : Nat) : (s.pass p).reissue = s.reissue := rfl
@[simp] theorem State.pass_next (s : State) (p : Nat) : (s.pass p).next = s.next := rfl
@[simp] theorem State.pass_mem (s : State) (p : Nat) : (s.pass p).mem = s.mem := rfl
@[simp] theorem State.pass_bad (s : State) (p : Nat) : (s.pass p).bad = s.bad := rfl
@[simp] theorem State.pass_stores (s : State) (p : Nat) : (s.pass p).stores = s.stores := rfl
@[simp] theorem State.pass_blockCtr (s : State) (p : Nat) : (s.pass p).blockCtr = s.blockCtr := rfl
@[simp] theorem State.pass_nodeCtr (s : State) (p : Nat) : (s.pass p).nodeCtr = s.nodeCtr := rfl
@[simp] theorem State.pass_gens (s : State) (p : Nat) : (s.pass p).gens = s.gens := rfl
@[simp] theorem State.pass_rekeys (s : State) (p : Nat) : (s.pass p).rekeys = s.rekeys := rfl
@[simp] theorem State.pass_refresh (s : State) (p : Nat) : (s.pass p).refresh = s.refresh := rfl
@[simp] theorem State.pass_hot (s : State) (p : Nat) : (s.pass p).hot = s.hot := rfl
@[simp] theorem State.pass_retired (s : State) (p : Nat) : (s.pass p).retired = s.retired := rfl
@[simp] theorem State.pass_roots (s : State) (p : Nat) : (s.pass p).roots = s.roots := rfl
@[simp] theorem State.pass_quires (s : State) (p : Nat) : (s.pass p).quires = s.quires := rfl
@[simp] theorem State.pass_dies (s : State) (p : Nat) : (s.pass p).dies = s.dies := rfl
@[simp] theorem State.pass_galleries (s : State) (p : Nat) : (s.pass p).galleries = s.galleries := rfl
@[simp] theorem State.pass_cores (s : State) (p : Nat) : (s.pass p).cores = s.cores := rfl
@[simp] theorem State.pass_vats (s : State) (p : Nat) : (s.pass p).vats = s.vats := rfl
@[simp] theorem State.pass_ports (s : State) (p : Nat) : (s.pass p).ports = s.ports := rfl
@[simp] theorem State.pass_ctxs (s : State) (p : Nat) : (s.pass p).ctxs = s.ctxs := rfl
@[simp] theorem State.pass_parts (s : State) (p : Nat) : (s.pass p).parts = s.parts := rfl
@[simp] theorem State.pass_reams (s : State) (p : Nat) : (s.pass p).reams = s.reams := rfl
@[simp] theorem State.pass_copies (s : State) (p : Nat) : (s.pass p).copies = s.copies := rfl
@[simp] theorem State.pass_nms (s : State) (p : Nat) : (s.pass p).nms = s.nms := rfl
@[simp] theorem State.pass_installs (s : State) (p : Nat) : (s.pass p).installs = s.installs := rfl
@[simp] theorem State.pass_fabs (s : State) (p : Nat) : (s.pass p).fabs = s.fabs := rfl
@[simp] theorem State.pass_applied (s : State) (p : Nat) : (s.pass p).applied = s.applied := rfl
@[simp] theorem State.pass_outbox (s : State) (p : Nat) : (s.pass p).outbox = s.outbox := rfl
@[simp] theorem State.pass_hostWait (s : State) (p : Nat) : (s.pass p).hostWait = s.hostWait := rfl
@[simp] theorem State.pass_posts (s : State) (p : Nat) : (s.pass p).posts = s.posts := rfl
@[simp] theorem State.pass_retiring (s : State) (p : Nat) : (s.pass p).retiring = s.retiring := rfl
@[simp] theorem State.pass_verdict (s : State) (p : Nat) : (s.pass p).verdict = s.verdict := rfl
@[simp] theorem State.pass_boot (s : State) (p : Nat) : (s.pass p).boot = s.boot := rfl
@[simp] theorem State.pass_cfg (s : State) (p : Nat) : (s.pass p).cfg = s.cfg := rfl
@[simp] theorem State.pass_flash (s : State) (p : Nat) : (s.pass p).flash = s.flash := rfl
@[simp] theorem State.pass_life (s : State) (p : Nat) : (s.pass p).life = s.life := rfl
@[simp] theorem State.pass_persisted (s : State) (p : Nat) : (s.pass p).persisted = s.persisted := rfl
@[simp] theorem State.pass_hostGot (s : State) (p : Nat) : (s.pass p).hostGot = s.hostGot := rfl
@[simp] theorem State.pass_grabs (s : State) (p : Nat) : (s.pass p).grabs = s.grabs := rfl
@[simp] theorem State.pass_fins (s : State) (p : Nat) : (s.pass p).fins = s.fins := rfl

/-! ### `State.modDie` -/

@[simp] theorem State.modDie_now (s : State) (n : Nat) (f : Die → Die) : (s.modDie n f).now = s.now := rfl
@[simp] theorem State.modDie_agenda (s : State) (n : Nat) (f : Die → Die) : (s.modDie n f).agenda = s.agenda := rfl
@[simp] theorem State.modDie_free (s : State) (n : Nat) (f : Die → Die) : (s.modDie n f).free = s.free := rfl
@[simp] theorem State.modDie_cur (s : State) (n : Nat) (f : Die → Die) : (s.modDie n f).cur = s.cur := rfl
@[simp] theorem State.modDie_reissue (s : State) (n : Nat) (f : Die → Die) : (s.modDie n f).reissue = s.reissue := rfl
@[simp] theorem State.modDie_next (s : State) (n : Nat) (f : Die → Die) : (s.modDie n f).next = s.next := rfl
@[simp] theorem State.modDie_mem (s : State) (n : Nat) (f : Die → Die) : (s.modDie n f).mem = s.mem := rfl
@[simp] theorem State.modDie_bad (s : State) (n : Nat) (f : Die → Die) : (s.modDie n f).bad = s.bad := rfl
@[simp] theorem State.modDie_stores (s : State) (n : Nat) (f : Die → Die) : (s.modDie n f).stores = s.stores := rfl
@[simp] theorem State.modDie_blockCtr (s : State) (n : Nat) (f : Die → Die) : (s.modDie n f).blockCtr = s.blockCtr := rfl
@[simp] theorem State.modDie_nodeCtr (s : State) (n : Nat) (f : Die → Die) : (s.modDie n f).nodeCtr = s.nodeCtr := rfl
@[simp] theorem State.modDie_gens (s : State) (n : Nat) (f : Die → Die) : (s.modDie n f).gens = s.gens := rfl
@[simp] theorem State.modDie_rekeys (s : State) (n : Nat) (f : Die → Die) : (s.modDie n f).rekeys = s.rekeys := rfl
@[simp] theorem State.modDie_refresh (s : State) (n : Nat) (f : Die → Die) : (s.modDie n f).refresh = s.refresh := rfl
@[simp] theorem State.modDie_hot (s : State) (n : Nat) (f : Die → Die) : (s.modDie n f).hot = s.hot := rfl
@[simp] theorem State.modDie_retired (s : State) (n : Nat) (f : Die → Die) : (s.modDie n f).retired = s.retired := rfl
@[simp] theorem State.modDie_roots (s : State) (n : Nat) (f : Die → Die) : (s.modDie n f).roots = s.roots := rfl
@[simp] theorem State.modDie_quires (s : State) (n : Nat) (f : Die → Die) : (s.modDie n f).quires = s.quires := rfl
@[simp] theorem State.modDie_galleries (s : State) (n : Nat) (f : Die → Die) : (s.modDie n f).galleries = s.galleries := rfl
@[simp] theorem State.modDie_cores (s : State) (n : Nat) (f : Die → Die) : (s.modDie n f).cores = s.cores := rfl
@[simp] theorem State.modDie_vats (s : State) (n : Nat) (f : Die → Die) : (s.modDie n f).vats = s.vats := rfl
@[simp] theorem State.modDie_ports (s : State) (n : Nat) (f : Die → Die) : (s.modDie n f).ports = s.ports := rfl
@[simp] theorem State.modDie_ctxs (s : State) (n : Nat) (f : Die → Die) : (s.modDie n f).ctxs = s.ctxs := rfl
@[simp] theorem State.modDie_parts (s : State) (n : Nat) (f : Die → Die) : (s.modDie n f).parts = s.parts := rfl
@[simp] theorem State.modDie_reams (s : State) (n : Nat) (f : Die → Die) : (s.modDie n f).reams = s.reams := rfl
@[simp] theorem State.modDie_copies (s : State) (n : Nat) (f : Die → Die) : (s.modDie n f).copies = s.copies := rfl
@[simp] theorem State.modDie_nms (s : State) (n : Nat) (f : Die → Die) : (s.modDie n f).nms = s.nms := rfl
@[simp] theorem State.modDie_installs (s : State) (n : Nat) (f : Die → Die) : (s.modDie n f).installs = s.installs := rfl
@[simp] theorem State.modDie_fabs (s : State) (n : Nat) (f : Die → Die) : (s.modDie n f).fabs = s.fabs := rfl
@[simp] theorem State.modDie_applied (s : State) (n : Nat) (f : Die → Die) : (s.modDie n f).applied = s.applied := rfl
@[simp] theorem State.modDie_outbox (s : State) (n : Nat) (f : Die → Die) : (s.modDie n f).outbox = s.outbox := rfl
@[simp] theorem State.modDie_hostWait (s : State) (n : Nat) (f : Die → Die) : (s.modDie n f).hostWait = s.hostWait := rfl
@[simp] theorem State.modDie_posts (s : State) (n : Nat) (f : Die → Die) : (s.modDie n f).posts = s.posts := rfl
@[simp] theorem State.modDie_retiring (s : State) (n : Nat) (f : Die → Die) : (s.modDie n f).retiring = s.retiring := rfl
@[simp] theorem State.modDie_verdict (s : State) (n : Nat) (f : Die → Die) : (s.modDie n f).verdict = s.verdict := rfl
@[simp] theorem State.modDie_boot (s : State) (n : Nat) (f : Die → Die) : (s.modDie n f).boot = s.boot := rfl
@[simp] theorem State.modDie_cfg (s : State) (n : Nat) (f : Die → Die) : (s.modDie n f).cfg = s.cfg := rfl
@[simp] theorem State.modDie_flash (s : State) (n : Nat) (f : Die → Die) : (s.modDie n f).flash = s.flash := rfl
@[simp] theorem State.modDie_life (s : State) (n : Nat) (f : Die → Die) : (s.modDie n f).life = s.life := rfl
@[simp] theorem State.modDie_persisted (s : State) (n : Nat) (f : Die → Die) : (s.modDie n f).persisted = s.persisted := rfl
@[simp] theorem State.modDie_hostGot (s : State) (n : Nat) (f : Die → Die) : (s.modDie n f).hostGot = s.hostGot := rfl
@[simp] theorem State.modDie_grabs (s : State) (n : Nat) (f : Die → Die) : (s.modDie n f).grabs = s.grabs := rfl
@[simp] theorem State.modDie_fins (s : State) (n : Nat) (f : Die → Die) : (s.modDie n f).fins = s.fins := rfl

/-! ### `State.modGallery` -/

@[simp] theorem State.modGallery_now (s : State) (n : Nat) (f : Gallery → Gallery) : (s.modGallery n f).now = s.now := rfl
@[simp] theorem State.modGallery_agenda (s : State) (n : Nat) (f : Gallery → Gallery) : (s.modGallery n f).agenda = s.agenda := rfl
@[simp] theorem State.modGallery_free (s : State) (n : Nat) (f : Gallery → Gallery) : (s.modGallery n f).free = s.free := rfl
@[simp] theorem State.modGallery_cur (s : State) (n : Nat) (f : Gallery → Gallery) : (s.modGallery n f).cur = s.cur := rfl
@[simp] theorem State.modGallery_reissue (s : State) (n : Nat) (f : Gallery → Gallery) : (s.modGallery n f).reissue = s.reissue := rfl
@[simp] theorem State.modGallery_next (s : State) (n : Nat) (f : Gallery → Gallery) : (s.modGallery n f).next = s.next := rfl
@[simp] theorem State.modGallery_mem (s : State) (n : Nat) (f : Gallery → Gallery) : (s.modGallery n f).mem = s.mem := rfl
@[simp] theorem State.modGallery_bad (s : State) (n : Nat) (f : Gallery → Gallery) : (s.modGallery n f).bad = s.bad := rfl
@[simp] theorem State.modGallery_stores (s : State) (n : Nat) (f : Gallery → Gallery) : (s.modGallery n f).stores = s.stores := rfl
@[simp] theorem State.modGallery_blockCtr (s : State) (n : Nat) (f : Gallery → Gallery) : (s.modGallery n f).blockCtr = s.blockCtr := rfl
@[simp] theorem State.modGallery_nodeCtr (s : State) (n : Nat) (f : Gallery → Gallery) : (s.modGallery n f).nodeCtr = s.nodeCtr := rfl
@[simp] theorem State.modGallery_gens (s : State) (n : Nat) (f : Gallery → Gallery) : (s.modGallery n f).gens = s.gens := rfl
@[simp] theorem State.modGallery_rekeys (s : State) (n : Nat) (f : Gallery → Gallery) : (s.modGallery n f).rekeys = s.rekeys := rfl
@[simp] theorem State.modGallery_refresh (s : State) (n : Nat) (f : Gallery → Gallery) : (s.modGallery n f).refresh = s.refresh := rfl
@[simp] theorem State.modGallery_hot (s : State) (n : Nat) (f : Gallery → Gallery) : (s.modGallery n f).hot = s.hot := rfl
@[simp] theorem State.modGallery_retired (s : State) (n : Nat) (f : Gallery → Gallery) : (s.modGallery n f).retired = s.retired := rfl
@[simp] theorem State.modGallery_roots (s : State) (n : Nat) (f : Gallery → Gallery) : (s.modGallery n f).roots = s.roots := rfl
@[simp] theorem State.modGallery_quires (s : State) (n : Nat) (f : Gallery → Gallery) : (s.modGallery n f).quires = s.quires := rfl
@[simp] theorem State.modGallery_dies (s : State) (n : Nat) (f : Gallery → Gallery) : (s.modGallery n f).dies = s.dies := rfl
@[simp] theorem State.modGallery_cores (s : State) (n : Nat) (f : Gallery → Gallery) : (s.modGallery n f).cores = s.cores := rfl
@[simp] theorem State.modGallery_vats (s : State) (n : Nat) (f : Gallery → Gallery) : (s.modGallery n f).vats = s.vats := rfl
@[simp] theorem State.modGallery_ports (s : State) (n : Nat) (f : Gallery → Gallery) : (s.modGallery n f).ports = s.ports := rfl
@[simp] theorem State.modGallery_ctxs (s : State) (n : Nat) (f : Gallery → Gallery) : (s.modGallery n f).ctxs = s.ctxs := rfl
@[simp] theorem State.modGallery_parts (s : State) (n : Nat) (f : Gallery → Gallery) : (s.modGallery n f).parts = s.parts := rfl
@[simp] theorem State.modGallery_reams (s : State) (n : Nat) (f : Gallery → Gallery) : (s.modGallery n f).reams = s.reams := rfl
@[simp] theorem State.modGallery_copies (s : State) (n : Nat) (f : Gallery → Gallery) : (s.modGallery n f).copies = s.copies := rfl
@[simp] theorem State.modGallery_nms (s : State) (n : Nat) (f : Gallery → Gallery) : (s.modGallery n f).nms = s.nms := rfl
@[simp] theorem State.modGallery_installs (s : State) (n : Nat) (f : Gallery → Gallery) : (s.modGallery n f).installs = s.installs := rfl
@[simp] theorem State.modGallery_fabs (s : State) (n : Nat) (f : Gallery → Gallery) : (s.modGallery n f).fabs = s.fabs := rfl
@[simp] theorem State.modGallery_applied (s : State) (n : Nat) (f : Gallery → Gallery) : (s.modGallery n f).applied = s.applied := rfl
@[simp] theorem State.modGallery_outbox (s : State) (n : Nat) (f : Gallery → Gallery) : (s.modGallery n f).outbox = s.outbox := rfl
@[simp] theorem State.modGallery_hostWait (s : State) (n : Nat) (f : Gallery → Gallery) : (s.modGallery n f).hostWait = s.hostWait := rfl
@[simp] theorem State.modGallery_posts (s : State) (n : Nat) (f : Gallery → Gallery) : (s.modGallery n f).posts = s.posts := rfl
@[simp] theorem State.modGallery_retiring (s : State) (n : Nat) (f : Gallery → Gallery) : (s.modGallery n f).retiring = s.retiring := rfl
@[simp] theorem State.modGallery_verdict (s : State) (n : Nat) (f : Gallery → Gallery) : (s.modGallery n f).verdict = s.verdict := rfl
@[simp] theorem State.modGallery_boot (s : State) (n : Nat) (f : Gallery → Gallery) : (s.modGallery n f).boot = s.boot := rfl
@[simp] theorem State.modGallery_cfg (s : State) (n : Nat) (f : Gallery → Gallery) : (s.modGallery n f).cfg = s.cfg := rfl
@[simp] theorem State.modGallery_flash (s : State) (n : Nat) (f : Gallery → Gallery) : (s.modGallery n f).flash = s.flash := rfl
@[simp] theorem State.modGallery_life (s : State) (n : Nat) (f : Gallery → Gallery) : (s.modGallery n f).life = s.life := rfl
@[simp] theorem State.modGallery_persisted (s : State) (n : Nat) (f : Gallery → Gallery) : (s.modGallery n f).persisted = s.persisted := rfl
@[simp] theorem State.modGallery_hostGot (s : State) (n : Nat) (f : Gallery → Gallery) : (s.modGallery n f).hostGot = s.hostGot := rfl
@[simp] theorem State.modGallery_grabs (s : State) (n : Nat) (f : Gallery → Gallery) : (s.modGallery n f).grabs = s.grabs := rfl
@[simp] theorem State.modGallery_fins (s : State) (n : Nat) (f : Gallery → Gallery) : (s.modGallery n f).fins = s.fins := rfl

/-! ### `State.modCore` -/

@[simp] theorem State.modCore_now (s : State) (n : Nat) (f : Core → Core) : (s.modCore n f).now = s.now := rfl
@[simp] theorem State.modCore_agenda (s : State) (n : Nat) (f : Core → Core) : (s.modCore n f).agenda = s.agenda := rfl
@[simp] theorem State.modCore_free (s : State) (n : Nat) (f : Core → Core) : (s.modCore n f).free = s.free := rfl
@[simp] theorem State.modCore_cur (s : State) (n : Nat) (f : Core → Core) : (s.modCore n f).cur = s.cur := rfl
@[simp] theorem State.modCore_reissue (s : State) (n : Nat) (f : Core → Core) : (s.modCore n f).reissue = s.reissue := rfl
@[simp] theorem State.modCore_next (s : State) (n : Nat) (f : Core → Core) : (s.modCore n f).next = s.next := rfl
@[simp] theorem State.modCore_mem (s : State) (n : Nat) (f : Core → Core) : (s.modCore n f).mem = s.mem := rfl
@[simp] theorem State.modCore_bad (s : State) (n : Nat) (f : Core → Core) : (s.modCore n f).bad = s.bad := rfl
@[simp] theorem State.modCore_stores (s : State) (n : Nat) (f : Core → Core) : (s.modCore n f).stores = s.stores := rfl
@[simp] theorem State.modCore_blockCtr (s : State) (n : Nat) (f : Core → Core) : (s.modCore n f).blockCtr = s.blockCtr := rfl
@[simp] theorem State.modCore_nodeCtr (s : State) (n : Nat) (f : Core → Core) : (s.modCore n f).nodeCtr = s.nodeCtr := rfl
@[simp] theorem State.modCore_gens (s : State) (n : Nat) (f : Core → Core) : (s.modCore n f).gens = s.gens := rfl
@[simp] theorem State.modCore_rekeys (s : State) (n : Nat) (f : Core → Core) : (s.modCore n f).rekeys = s.rekeys := rfl
@[simp] theorem State.modCore_refresh (s : State) (n : Nat) (f : Core → Core) : (s.modCore n f).refresh = s.refresh := rfl
@[simp] theorem State.modCore_hot (s : State) (n : Nat) (f : Core → Core) : (s.modCore n f).hot = s.hot := rfl
@[simp] theorem State.modCore_retired (s : State) (n : Nat) (f : Core → Core) : (s.modCore n f).retired = s.retired := rfl
@[simp] theorem State.modCore_roots (s : State) (n : Nat) (f : Core → Core) : (s.modCore n f).roots = s.roots := rfl
@[simp] theorem State.modCore_quires (s : State) (n : Nat) (f : Core → Core) : (s.modCore n f).quires = s.quires := rfl
@[simp] theorem State.modCore_dies (s : State) (n : Nat) (f : Core → Core) : (s.modCore n f).dies = s.dies := rfl
@[simp] theorem State.modCore_galleries (s : State) (n : Nat) (f : Core → Core) : (s.modCore n f).galleries = s.galleries := rfl
@[simp] theorem State.modCore_vats (s : State) (n : Nat) (f : Core → Core) : (s.modCore n f).vats = s.vats := rfl
@[simp] theorem State.modCore_ports (s : State) (n : Nat) (f : Core → Core) : (s.modCore n f).ports = s.ports := rfl
@[simp] theorem State.modCore_ctxs (s : State) (n : Nat) (f : Core → Core) : (s.modCore n f).ctxs = s.ctxs := rfl
@[simp] theorem State.modCore_parts (s : State) (n : Nat) (f : Core → Core) : (s.modCore n f).parts = s.parts := rfl
@[simp] theorem State.modCore_reams (s : State) (n : Nat) (f : Core → Core) : (s.modCore n f).reams = s.reams := rfl
@[simp] theorem State.modCore_copies (s : State) (n : Nat) (f : Core → Core) : (s.modCore n f).copies = s.copies := rfl
@[simp] theorem State.modCore_nms (s : State) (n : Nat) (f : Core → Core) : (s.modCore n f).nms = s.nms := rfl
@[simp] theorem State.modCore_installs (s : State) (n : Nat) (f : Core → Core) : (s.modCore n f).installs = s.installs := rfl
@[simp] theorem State.modCore_fabs (s : State) (n : Nat) (f : Core → Core) : (s.modCore n f).fabs = s.fabs := rfl
@[simp] theorem State.modCore_applied (s : State) (n : Nat) (f : Core → Core) : (s.modCore n f).applied = s.applied := rfl
@[simp] theorem State.modCore_outbox (s : State) (n : Nat) (f : Core → Core) : (s.modCore n f).outbox = s.outbox := rfl
@[simp] theorem State.modCore_hostWait (s : State) (n : Nat) (f : Core → Core) : (s.modCore n f).hostWait = s.hostWait := rfl
@[simp] theorem State.modCore_posts (s : State) (n : Nat) (f : Core → Core) : (s.modCore n f).posts = s.posts := rfl
@[simp] theorem State.modCore_retiring (s : State) (n : Nat) (f : Core → Core) : (s.modCore n f).retiring = s.retiring := rfl
@[simp] theorem State.modCore_verdict (s : State) (n : Nat) (f : Core → Core) : (s.modCore n f).verdict = s.verdict := rfl
@[simp] theorem State.modCore_boot (s : State) (n : Nat) (f : Core → Core) : (s.modCore n f).boot = s.boot := rfl
@[simp] theorem State.modCore_cfg (s : State) (n : Nat) (f : Core → Core) : (s.modCore n f).cfg = s.cfg := rfl
@[simp] theorem State.modCore_flash (s : State) (n : Nat) (f : Core → Core) : (s.modCore n f).flash = s.flash := rfl
@[simp] theorem State.modCore_life (s : State) (n : Nat) (f : Core → Core) : (s.modCore n f).life = s.life := rfl
@[simp] theorem State.modCore_persisted (s : State) (n : Nat) (f : Core → Core) : (s.modCore n f).persisted = s.persisted := rfl
@[simp] theorem State.modCore_hostGot (s : State) (n : Nat) (f : Core → Core) : (s.modCore n f).hostGot = s.hostGot := rfl
@[simp] theorem State.modCore_grabs (s : State) (n : Nat) (f : Core → Core) : (s.modCore n f).grabs = s.grabs := rfl
@[simp] theorem State.modCore_fins (s : State) (n : Nat) (f : Core → Core) : (s.modCore n f).fins = s.fins := rfl

/-! ### `State.modVat` -/

@[simp] theorem State.modVat_now (s : State) (n : Nat) (f : Vat → Vat) : (s.modVat n f).now = s.now := rfl
@[simp] theorem State.modVat_agenda (s : State) (n : Nat) (f : Vat → Vat) : (s.modVat n f).agenda = s.agenda := rfl
@[simp] theorem State.modVat_free (s : State) (n : Nat) (f : Vat → Vat) : (s.modVat n f).free = s.free := rfl
@[simp] theorem State.modVat_cur (s : State) (n : Nat) (f : Vat → Vat) : (s.modVat n f).cur = s.cur := rfl
@[simp] theorem State.modVat_reissue (s : State) (n : Nat) (f : Vat → Vat) : (s.modVat n f).reissue = s.reissue := rfl
@[simp] theorem State.modVat_next (s : State) (n : Nat) (f : Vat → Vat) : (s.modVat n f).next = s.next := rfl
@[simp] theorem State.modVat_mem (s : State) (n : Nat) (f : Vat → Vat) : (s.modVat n f).mem = s.mem := rfl
@[simp] theorem State.modVat_bad (s : State) (n : Nat) (f : Vat → Vat) : (s.modVat n f).bad = s.bad := rfl
@[simp] theorem State.modVat_stores (s : State) (n : Nat) (f : Vat → Vat) : (s.modVat n f).stores = s.stores := rfl
@[simp] theorem State.modVat_blockCtr (s : State) (n : Nat) (f : Vat → Vat) : (s.modVat n f).blockCtr = s.blockCtr := rfl
@[simp] theorem State.modVat_nodeCtr (s : State) (n : Nat) (f : Vat → Vat) : (s.modVat n f).nodeCtr = s.nodeCtr := rfl
@[simp] theorem State.modVat_gens (s : State) (n : Nat) (f : Vat → Vat) : (s.modVat n f).gens = s.gens := rfl
@[simp] theorem State.modVat_rekeys (s : State) (n : Nat) (f : Vat → Vat) : (s.modVat n f).rekeys = s.rekeys := rfl
@[simp] theorem State.modVat_refresh (s : State) (n : Nat) (f : Vat → Vat) : (s.modVat n f).refresh = s.refresh := rfl
@[simp] theorem State.modVat_hot (s : State) (n : Nat) (f : Vat → Vat) : (s.modVat n f).hot = s.hot := rfl
@[simp] theorem State.modVat_retired (s : State) (n : Nat) (f : Vat → Vat) : (s.modVat n f).retired = s.retired := rfl
@[simp] theorem State.modVat_roots (s : State) (n : Nat) (f : Vat → Vat) : (s.modVat n f).roots = s.roots := rfl
@[simp] theorem State.modVat_quires (s : State) (n : Nat) (f : Vat → Vat) : (s.modVat n f).quires = s.quires := rfl
@[simp] theorem State.modVat_dies (s : State) (n : Nat) (f : Vat → Vat) : (s.modVat n f).dies = s.dies := rfl
@[simp] theorem State.modVat_galleries (s : State) (n : Nat) (f : Vat → Vat) : (s.modVat n f).galleries = s.galleries := rfl
@[simp] theorem State.modVat_cores (s : State) (n : Nat) (f : Vat → Vat) : (s.modVat n f).cores = s.cores := rfl
@[simp] theorem State.modVat_ports (s : State) (n : Nat) (f : Vat → Vat) : (s.modVat n f).ports = s.ports := rfl
@[simp] theorem State.modVat_ctxs (s : State) (n : Nat) (f : Vat → Vat) : (s.modVat n f).ctxs = s.ctxs := rfl
@[simp] theorem State.modVat_parts (s : State) (n : Nat) (f : Vat → Vat) : (s.modVat n f).parts = s.parts := rfl
@[simp] theorem State.modVat_reams (s : State) (n : Nat) (f : Vat → Vat) : (s.modVat n f).reams = s.reams := rfl
@[simp] theorem State.modVat_copies (s : State) (n : Nat) (f : Vat → Vat) : (s.modVat n f).copies = s.copies := rfl
@[simp] theorem State.modVat_nms (s : State) (n : Nat) (f : Vat → Vat) : (s.modVat n f).nms = s.nms := rfl
@[simp] theorem State.modVat_installs (s : State) (n : Nat) (f : Vat → Vat) : (s.modVat n f).installs = s.installs := rfl
@[simp] theorem State.modVat_fabs (s : State) (n : Nat) (f : Vat → Vat) : (s.modVat n f).fabs = s.fabs := rfl
@[simp] theorem State.modVat_applied (s : State) (n : Nat) (f : Vat → Vat) : (s.modVat n f).applied = s.applied := rfl
@[simp] theorem State.modVat_outbox (s : State) (n : Nat) (f : Vat → Vat) : (s.modVat n f).outbox = s.outbox := rfl
@[simp] theorem State.modVat_hostWait (s : State) (n : Nat) (f : Vat → Vat) : (s.modVat n f).hostWait = s.hostWait := rfl
@[simp] theorem State.modVat_posts (s : State) (n : Nat) (f : Vat → Vat) : (s.modVat n f).posts = s.posts := rfl
@[simp] theorem State.modVat_retiring (s : State) (n : Nat) (f : Vat → Vat) : (s.modVat n f).retiring = s.retiring := rfl
@[simp] theorem State.modVat_verdict (s : State) (n : Nat) (f : Vat → Vat) : (s.modVat n f).verdict = s.verdict := rfl
@[simp] theorem State.modVat_boot (s : State) (n : Nat) (f : Vat → Vat) : (s.modVat n f).boot = s.boot := rfl
@[simp] theorem State.modVat_cfg (s : State) (n : Nat) (f : Vat → Vat) : (s.modVat n f).cfg = s.cfg := rfl
@[simp] theorem State.modVat_flash (s : State) (n : Nat) (f : Vat → Vat) : (s.modVat n f).flash = s.flash := rfl
@[simp] theorem State.modVat_life (s : State) (n : Nat) (f : Vat → Vat) : (s.modVat n f).life = s.life := rfl
@[simp] theorem State.modVat_persisted (s : State) (n : Nat) (f : Vat → Vat) : (s.modVat n f).persisted = s.persisted := rfl
@[simp] theorem State.modVat_hostGot (s : State) (n : Nat) (f : Vat → Vat) : (s.modVat n f).hostGot = s.hostGot := rfl
@[simp] theorem State.modVat_grabs (s : State) (n : Nat) (f : Vat → Vat) : (s.modVat n f).grabs = s.grabs := rfl
@[simp] theorem State.modVat_fins (s : State) (n : Nat) (f : Vat → Vat) : (s.modVat n f).fins = s.fins := rfl

/-! ### `State.modPort` -/

@[simp] theorem State.modPort_now (s : State) (n : Nat) (f : Port → Port) : (s.modPort n f).now = s.now := rfl
@[simp] theorem State.modPort_agenda (s : State) (n : Nat) (f : Port → Port) : (s.modPort n f).agenda = s.agenda := rfl
@[simp] theorem State.modPort_free (s : State) (n : Nat) (f : Port → Port) : (s.modPort n f).free = s.free := rfl
@[simp] theorem State.modPort_cur (s : State) (n : Nat) (f : Port → Port) : (s.modPort n f).cur = s.cur := rfl
@[simp] theorem State.modPort_reissue (s : State) (n : Nat) (f : Port → Port) : (s.modPort n f).reissue = s.reissue := rfl
@[simp] theorem State.modPort_next (s : State) (n : Nat) (f : Port → Port) : (s.modPort n f).next = s.next := rfl
@[simp] theorem State.modPort_mem (s : State) (n : Nat) (f : Port → Port) : (s.modPort n f).mem = s.mem := rfl
@[simp] theorem State.modPort_bad (s : State) (n : Nat) (f : Port → Port) : (s.modPort n f).bad = s.bad := rfl
@[simp] theorem State.modPort_stores (s : State) (n : Nat) (f : Port → Port) : (s.modPort n f).stores = s.stores := rfl
@[simp] theorem State.modPort_blockCtr (s : State) (n : Nat) (f : Port → Port) : (s.modPort n f).blockCtr = s.blockCtr := rfl
@[simp] theorem State.modPort_nodeCtr (s : State) (n : Nat) (f : Port → Port) : (s.modPort n f).nodeCtr = s.nodeCtr := rfl
@[simp] theorem State.modPort_gens (s : State) (n : Nat) (f : Port → Port) : (s.modPort n f).gens = s.gens := rfl
@[simp] theorem State.modPort_rekeys (s : State) (n : Nat) (f : Port → Port) : (s.modPort n f).rekeys = s.rekeys := rfl
@[simp] theorem State.modPort_refresh (s : State) (n : Nat) (f : Port → Port) : (s.modPort n f).refresh = s.refresh := rfl
@[simp] theorem State.modPort_hot (s : State) (n : Nat) (f : Port → Port) : (s.modPort n f).hot = s.hot := rfl
@[simp] theorem State.modPort_retired (s : State) (n : Nat) (f : Port → Port) : (s.modPort n f).retired = s.retired := rfl
@[simp] theorem State.modPort_roots (s : State) (n : Nat) (f : Port → Port) : (s.modPort n f).roots = s.roots := rfl
@[simp] theorem State.modPort_quires (s : State) (n : Nat) (f : Port → Port) : (s.modPort n f).quires = s.quires := rfl
@[simp] theorem State.modPort_dies (s : State) (n : Nat) (f : Port → Port) : (s.modPort n f).dies = s.dies := rfl
@[simp] theorem State.modPort_galleries (s : State) (n : Nat) (f : Port → Port) : (s.modPort n f).galleries = s.galleries := rfl
@[simp] theorem State.modPort_cores (s : State) (n : Nat) (f : Port → Port) : (s.modPort n f).cores = s.cores := rfl
@[simp] theorem State.modPort_vats (s : State) (n : Nat) (f : Port → Port) : (s.modPort n f).vats = s.vats := rfl
@[simp] theorem State.modPort_ctxs (s : State) (n : Nat) (f : Port → Port) : (s.modPort n f).ctxs = s.ctxs := rfl
@[simp] theorem State.modPort_parts (s : State) (n : Nat) (f : Port → Port) : (s.modPort n f).parts = s.parts := rfl
@[simp] theorem State.modPort_reams (s : State) (n : Nat) (f : Port → Port) : (s.modPort n f).reams = s.reams := rfl
@[simp] theorem State.modPort_copies (s : State) (n : Nat) (f : Port → Port) : (s.modPort n f).copies = s.copies := rfl
@[simp] theorem State.modPort_nms (s : State) (n : Nat) (f : Port → Port) : (s.modPort n f).nms = s.nms := rfl
@[simp] theorem State.modPort_installs (s : State) (n : Nat) (f : Port → Port) : (s.modPort n f).installs = s.installs := rfl
@[simp] theorem State.modPort_fabs (s : State) (n : Nat) (f : Port → Port) : (s.modPort n f).fabs = s.fabs := rfl
@[simp] theorem State.modPort_applied (s : State) (n : Nat) (f : Port → Port) : (s.modPort n f).applied = s.applied := rfl
@[simp] theorem State.modPort_outbox (s : State) (n : Nat) (f : Port → Port) : (s.modPort n f).outbox = s.outbox := rfl
@[simp] theorem State.modPort_hostWait (s : State) (n : Nat) (f : Port → Port) : (s.modPort n f).hostWait = s.hostWait := rfl
@[simp] theorem State.modPort_posts (s : State) (n : Nat) (f : Port → Port) : (s.modPort n f).posts = s.posts := rfl
@[simp] theorem State.modPort_retiring (s : State) (n : Nat) (f : Port → Port) : (s.modPort n f).retiring = s.retiring := rfl
@[simp] theorem State.modPort_verdict (s : State) (n : Nat) (f : Port → Port) : (s.modPort n f).verdict = s.verdict := rfl
@[simp] theorem State.modPort_boot (s : State) (n : Nat) (f : Port → Port) : (s.modPort n f).boot = s.boot := rfl
@[simp] theorem State.modPort_cfg (s : State) (n : Nat) (f : Port → Port) : (s.modPort n f).cfg = s.cfg := rfl
@[simp] theorem State.modPort_flash (s : State) (n : Nat) (f : Port → Port) : (s.modPort n f).flash = s.flash := rfl
@[simp] theorem State.modPort_life (s : State) (n : Nat) (f : Port → Port) : (s.modPort n f).life = s.life := rfl
@[simp] theorem State.modPort_persisted (s : State) (n : Nat) (f : Port → Port) : (s.modPort n f).persisted = s.persisted := rfl
@[simp] theorem State.modPort_hostGot (s : State) (n : Nat) (f : Port → Port) : (s.modPort n f).hostGot = s.hostGot := rfl
@[simp] theorem State.modPort_grabs (s : State) (n : Nat) (f : Port → Port) : (s.modPort n f).grabs = s.grabs := rfl
@[simp] theorem State.modPort_fins (s : State) (n : Nat) (f : Port → Port) : (s.modPort n f).fins = s.fins := rfl

/-! ### `State.modPart` -/

@[simp] theorem State.modPart_now (s : State) (n : Nat) (f : Part → Part) : (s.modPart n f).now = s.now := rfl
@[simp] theorem State.modPart_agenda (s : State) (n : Nat) (f : Part → Part) : (s.modPart n f).agenda = s.agenda := rfl
@[simp] theorem State.modPart_free (s : State) (n : Nat) (f : Part → Part) : (s.modPart n f).free = s.free := rfl
@[simp] theorem State.modPart_cur (s : State) (n : Nat) (f : Part → Part) : (s.modPart n f).cur = s.cur := rfl
@[simp] theorem State.modPart_reissue (s : State) (n : Nat) (f : Part → Part) : (s.modPart n f).reissue = s.reissue := rfl
@[simp] theorem State.modPart_next (s : State) (n : Nat) (f : Part → Part) : (s.modPart n f).next = s.next := rfl
@[simp] theorem State.modPart_bad (s : State) (n : Nat) (f : Part → Part) : (s.modPart n f).bad = s.bad := rfl
@[simp] theorem State.modPart_stores (s : State) (n : Nat) (f : Part → Part) : (s.modPart n f).stores = s.stores := rfl
@[simp] theorem State.modPart_blockCtr (s : State) (n : Nat) (f : Part → Part) : (s.modPart n f).blockCtr = s.blockCtr := rfl
@[simp] theorem State.modPart_nodeCtr (s : State) (n : Nat) (f : Part → Part) : (s.modPart n f).nodeCtr = s.nodeCtr := rfl
@[simp] theorem State.modPart_gens (s : State) (n : Nat) (f : Part → Part) : (s.modPart n f).gens = s.gens := rfl
@[simp] theorem State.modPart_rekeys (s : State) (n : Nat) (f : Part → Part) : (s.modPart n f).rekeys = s.rekeys := rfl
@[simp] theorem State.modPart_refresh (s : State) (n : Nat) (f : Part → Part) : (s.modPart n f).refresh = s.refresh := rfl
@[simp] theorem State.modPart_hot (s : State) (n : Nat) (f : Part → Part) : (s.modPart n f).hot = s.hot := rfl
@[simp] theorem State.modPart_retired (s : State) (n : Nat) (f : Part → Part) : (s.modPart n f).retired = s.retired := rfl
@[simp] theorem State.modPart_roots (s : State) (n : Nat) (f : Part → Part) : (s.modPart n f).roots = s.roots := rfl
@[simp] theorem State.modPart_quires (s : State) (n : Nat) (f : Part → Part) : (s.modPart n f).quires = s.quires := rfl
@[simp] theorem State.modPart_dies (s : State) (n : Nat) (f : Part → Part) : (s.modPart n f).dies = s.dies := rfl
@[simp] theorem State.modPart_galleries (s : State) (n : Nat) (f : Part → Part) : (s.modPart n f).galleries = s.galleries := rfl
@[simp] theorem State.modPart_cores (s : State) (n : Nat) (f : Part → Part) : (s.modPart n f).cores = s.cores := rfl
@[simp] theorem State.modPart_vats (s : State) (n : Nat) (f : Part → Part) : (s.modPart n f).vats = s.vats := rfl
@[simp] theorem State.modPart_ports (s : State) (n : Nat) (f : Part → Part) : (s.modPart n f).ports = s.ports := rfl
@[simp] theorem State.modPart_ctxs (s : State) (n : Nat) (f : Part → Part) : (s.modPart n f).ctxs = s.ctxs := rfl
@[simp] theorem State.modPart_reams (s : State) (n : Nat) (f : Part → Part) : (s.modPart n f).reams = s.reams := rfl
@[simp] theorem State.modPart_copies (s : State) (n : Nat) (f : Part → Part) : (s.modPart n f).copies = s.copies := rfl
@[simp] theorem State.modPart_nms (s : State) (n : Nat) (f : Part → Part) : (s.modPart n f).nms = s.nms := rfl
@[simp] theorem State.modPart_installs (s : State) (n : Nat) (f : Part → Part) : (s.modPart n f).installs = s.installs := rfl
@[simp] theorem State.modPart_fabs (s : State) (n : Nat) (f : Part → Part) : (s.modPart n f).fabs = s.fabs := rfl
@[simp] theorem State.modPart_applied (s : State) (n : Nat) (f : Part → Part) : (s.modPart n f).applied = s.applied := rfl
@[simp] theorem State.modPart_outbox (s : State) (n : Nat) (f : Part → Part) : (s.modPart n f).outbox = s.outbox := rfl
@[simp] theorem State.modPart_hostWait (s : State) (n : Nat) (f : Part → Part) : (s.modPart n f).hostWait = s.hostWait := rfl
@[simp] theorem State.modPart_posts (s : State) (n : Nat) (f : Part → Part) : (s.modPart n f).posts = s.posts := rfl
@[simp] theorem State.modPart_retiring (s : State) (n : Nat) (f : Part → Part) : (s.modPart n f).retiring = s.retiring := rfl
@[simp] theorem State.modPart_verdict (s : State) (n : Nat) (f : Part → Part) : (s.modPart n f).verdict = s.verdict := rfl
@[simp] theorem State.modPart_boot (s : State) (n : Nat) (f : Part → Part) : (s.modPart n f).boot = s.boot := rfl
@[simp] theorem State.modPart_cfg (s : State) (n : Nat) (f : Part → Part) : (s.modPart n f).cfg = s.cfg := rfl
@[simp] theorem State.modPart_flash (s : State) (n : Nat) (f : Part → Part) : (s.modPart n f).flash = s.flash := rfl
@[simp] theorem State.modPart_life (s : State) (n : Nat) (f : Part → Part) : (s.modPart n f).life = s.life := rfl
@[simp] theorem State.modPart_persisted (s : State) (n : Nat) (f : Part → Part) : (s.modPart n f).persisted = s.persisted := rfl
@[simp] theorem State.modPart_hostGot (s : State) (n : Nat) (f : Part → Part) : (s.modPart n f).hostGot = s.hostGot := rfl
@[simp] theorem State.modPart_grabs (s : State) (n : Nat) (f : Part → Part) : (s.modPart n f).grabs = s.grabs := rfl
@[simp] theorem State.modPart_fins (s : State) (n : Nat) (f : Part → Part) : (s.modPart n f).fins = s.fins := rfl

/-! ### `State.modCtx` -/

@[simp] theorem State.modCtx_now (s : State) (n : Nat) (f : Ctx → Ctx) : (s.modCtx n f).now = s.now := rfl
@[simp] theorem State.modCtx_agenda (s : State) (n : Nat) (f : Ctx → Ctx) : (s.modCtx n f).agenda = s.agenda := rfl
@[simp] theorem State.modCtx_free (s : State) (n : Nat) (f : Ctx → Ctx) : (s.modCtx n f).free = s.free := rfl
@[simp] theorem State.modCtx_cur (s : State) (n : Nat) (f : Ctx → Ctx) : (s.modCtx n f).cur = s.cur := rfl
@[simp] theorem State.modCtx_reissue (s : State) (n : Nat) (f : Ctx → Ctx) : (s.modCtx n f).reissue = s.reissue := rfl
@[simp] theorem State.modCtx_next (s : State) (n : Nat) (f : Ctx → Ctx) : (s.modCtx n f).next = s.next := rfl
@[simp] theorem State.modCtx_mem (s : State) (n : Nat) (f : Ctx → Ctx) : (s.modCtx n f).mem = s.mem := rfl
@[simp] theorem State.modCtx_bad (s : State) (n : Nat) (f : Ctx → Ctx) : (s.modCtx n f).bad = s.bad := rfl
@[simp] theorem State.modCtx_stores (s : State) (n : Nat) (f : Ctx → Ctx) : (s.modCtx n f).stores = s.stores := rfl
@[simp] theorem State.modCtx_blockCtr (s : State) (n : Nat) (f : Ctx → Ctx) : (s.modCtx n f).blockCtr = s.blockCtr := rfl
@[simp] theorem State.modCtx_nodeCtr (s : State) (n : Nat) (f : Ctx → Ctx) : (s.modCtx n f).nodeCtr = s.nodeCtr := rfl
@[simp] theorem State.modCtx_gens (s : State) (n : Nat) (f : Ctx → Ctx) : (s.modCtx n f).gens = s.gens := rfl
@[simp] theorem State.modCtx_rekeys (s : State) (n : Nat) (f : Ctx → Ctx) : (s.modCtx n f).rekeys = s.rekeys := rfl
@[simp] theorem State.modCtx_refresh (s : State) (n : Nat) (f : Ctx → Ctx) : (s.modCtx n f).refresh = s.refresh := rfl
@[simp] theorem State.modCtx_hot (s : State) (n : Nat) (f : Ctx → Ctx) : (s.modCtx n f).hot = s.hot := rfl
@[simp] theorem State.modCtx_retired (s : State) (n : Nat) (f : Ctx → Ctx) : (s.modCtx n f).retired = s.retired := rfl
@[simp] theorem State.modCtx_roots (s : State) (n : Nat) (f : Ctx → Ctx) : (s.modCtx n f).roots = s.roots := rfl
@[simp] theorem State.modCtx_quires (s : State) (n : Nat) (f : Ctx → Ctx) : (s.modCtx n f).quires = s.quires := rfl
@[simp] theorem State.modCtx_dies (s : State) (n : Nat) (f : Ctx → Ctx) : (s.modCtx n f).dies = s.dies := rfl
@[simp] theorem State.modCtx_galleries (s : State) (n : Nat) (f : Ctx → Ctx) : (s.modCtx n f).galleries = s.galleries := rfl
@[simp] theorem State.modCtx_cores (s : State) (n : Nat) (f : Ctx → Ctx) : (s.modCtx n f).cores = s.cores := rfl
@[simp] theorem State.modCtx_vats (s : State) (n : Nat) (f : Ctx → Ctx) : (s.modCtx n f).vats = s.vats := rfl
@[simp] theorem State.modCtx_ports (s : State) (n : Nat) (f : Ctx → Ctx) : (s.modCtx n f).ports = s.ports := rfl
@[simp] theorem State.modCtx_parts (s : State) (n : Nat) (f : Ctx → Ctx) : (s.modCtx n f).parts = s.parts := rfl
@[simp] theorem State.modCtx_reams (s : State) (n : Nat) (f : Ctx → Ctx) : (s.modCtx n f).reams = s.reams := rfl
@[simp] theorem State.modCtx_copies (s : State) (n : Nat) (f : Ctx → Ctx) : (s.modCtx n f).copies = s.copies := rfl
@[simp] theorem State.modCtx_nms (s : State) (n : Nat) (f : Ctx → Ctx) : (s.modCtx n f).nms = s.nms := rfl
@[simp] theorem State.modCtx_installs (s : State) (n : Nat) (f : Ctx → Ctx) : (s.modCtx n f).installs = s.installs := rfl
@[simp] theorem State.modCtx_fabs (s : State) (n : Nat) (f : Ctx → Ctx) : (s.modCtx n f).fabs = s.fabs := rfl
@[simp] theorem State.modCtx_applied (s : State) (n : Nat) (f : Ctx → Ctx) : (s.modCtx n f).applied = s.applied := rfl
@[simp] theorem State.modCtx_outbox (s : State) (n : Nat) (f : Ctx → Ctx) : (s.modCtx n f).outbox = s.outbox := rfl
@[simp] theorem State.modCtx_hostWait (s : State) (n : Nat) (f : Ctx → Ctx) : (s.modCtx n f).hostWait = s.hostWait := rfl
@[simp] theorem State.modCtx_posts (s : State) (n : Nat) (f : Ctx → Ctx) : (s.modCtx n f).posts = s.posts := rfl
@[simp] theorem State.modCtx_retiring (s : State) (n : Nat) (f : Ctx → Ctx) : (s.modCtx n f).retiring = s.retiring := rfl
@[simp] theorem State.modCtx_verdict (s : State) (n : Nat) (f : Ctx → Ctx) : (s.modCtx n f).verdict = s.verdict := rfl
@[simp] theorem State.modCtx_boot (s : State) (n : Nat) (f : Ctx → Ctx) : (s.modCtx n f).boot = s.boot := rfl
@[simp] theorem State.modCtx_cfg (s : State) (n : Nat) (f : Ctx → Ctx) : (s.modCtx n f).cfg = s.cfg := rfl
@[simp] theorem State.modCtx_flash (s : State) (n : Nat) (f : Ctx → Ctx) : (s.modCtx n f).flash = s.flash := rfl
@[simp] theorem State.modCtx_life (s : State) (n : Nat) (f : Ctx → Ctx) : (s.modCtx n f).life = s.life := rfl
@[simp] theorem State.modCtx_persisted (s : State) (n : Nat) (f : Ctx → Ctx) : (s.modCtx n f).persisted = s.persisted := rfl
@[simp] theorem State.modCtx_hostGot (s : State) (n : Nat) (f : Ctx → Ctx) : (s.modCtx n f).hostGot = s.hostGot := rfl
@[simp] theorem State.modCtx_grabs (s : State) (n : Nat) (f : Ctx → Ctx) : (s.modCtx n f).grabs = s.grabs := rfl
@[simp] theorem State.modCtx_fins (s : State) (n : Nat) (f : Ctx → Ctx) : (s.modCtx n f).fins = s.fins := rfl

/-! ### `State.modQuire` -/

@[simp] theorem State.modQuire_now (s : State) (h : Nat) (f : Quire → Quire) : (s.modQuire h f).now = s.now := rfl
@[simp] theorem State.modQuire_agenda (s : State) (h : Nat) (f : Quire → Quire) : (s.modQuire h f).agenda = s.agenda := rfl
@[simp] theorem State.modQuire_free (s : State) (h : Nat) (f : Quire → Quire) : (s.modQuire h f).free = s.free := rfl
@[simp] theorem State.modQuire_cur (s : State) (h : Nat) (f : Quire → Quire) : (s.modQuire h f).cur = s.cur := rfl
@[simp] theorem State.modQuire_reissue (s : State) (h : Nat) (f : Quire → Quire) : (s.modQuire h f).reissue = s.reissue := rfl
@[simp] theorem State.modQuire_next (s : State) (h : Nat) (f : Quire → Quire) : (s.modQuire h f).next = s.next := rfl
@[simp] theorem State.modQuire_bad (s : State) (h : Nat) (f : Quire → Quire) : (s.modQuire h f).bad = s.bad := rfl
@[simp] theorem State.modQuire_stores (s : State) (h : Nat) (f : Quire → Quire) : (s.modQuire h f).stores = s.stores := rfl
@[simp] theorem State.modQuire_blockCtr (s : State) (h : Nat) (f : Quire → Quire) : (s.modQuire h f).blockCtr = s.blockCtr := rfl
@[simp] theorem State.modQuire_nodeCtr (s : State) (h : Nat) (f : Quire → Quire) : (s.modQuire h f).nodeCtr = s.nodeCtr := rfl
@[simp] theorem State.modQuire_gens (s : State) (h : Nat) (f : Quire → Quire) : (s.modQuire h f).gens = s.gens := rfl
@[simp] theorem State.modQuire_rekeys (s : State) (h : Nat) (f : Quire → Quire) : (s.modQuire h f).rekeys = s.rekeys := rfl
@[simp] theorem State.modQuire_refresh (s : State) (h : Nat) (f : Quire → Quire) : (s.modQuire h f).refresh = s.refresh := rfl
@[simp] theorem State.modQuire_hot (s : State) (h : Nat) (f : Quire → Quire) : (s.modQuire h f).hot = s.hot := rfl
@[simp] theorem State.modQuire_retired (s : State) (h : Nat) (f : Quire → Quire) : (s.modQuire h f).retired = s.retired := rfl
@[simp] theorem State.modQuire_roots (s : State) (h : Nat) (f : Quire → Quire) : (s.modQuire h f).roots = s.roots := rfl
@[simp] theorem State.modQuire_dies (s : State) (h : Nat) (f : Quire → Quire) : (s.modQuire h f).dies = s.dies := rfl
@[simp] theorem State.modQuire_galleries (s : State) (h : Nat) (f : Quire → Quire) : (s.modQuire h f).galleries = s.galleries := rfl
@[simp] theorem State.modQuire_cores (s : State) (h : Nat) (f : Quire → Quire) : (s.modQuire h f).cores = s.cores := rfl
@[simp] theorem State.modQuire_vats (s : State) (h : Nat) (f : Quire → Quire) : (s.modQuire h f).vats = s.vats := rfl
@[simp] theorem State.modQuire_ports (s : State) (h : Nat) (f : Quire → Quire) : (s.modQuire h f).ports = s.ports := rfl
@[simp] theorem State.modQuire_ctxs (s : State) (h : Nat) (f : Quire → Quire) : (s.modQuire h f).ctxs = s.ctxs := rfl
@[simp] theorem State.modQuire_parts (s : State) (h : Nat) (f : Quire → Quire) : (s.modQuire h f).parts = s.parts := rfl
@[simp] theorem State.modQuire_reams (s : State) (h : Nat) (f : Quire → Quire) : (s.modQuire h f).reams = s.reams := rfl
@[simp] theorem State.modQuire_copies (s : State) (h : Nat) (f : Quire → Quire) : (s.modQuire h f).copies = s.copies := rfl
@[simp] theorem State.modQuire_nms (s : State) (h : Nat) (f : Quire → Quire) : (s.modQuire h f).nms = s.nms := rfl
@[simp] theorem State.modQuire_installs (s : State) (h : Nat) (f : Quire → Quire) : (s.modQuire h f).installs = s.installs := rfl
@[simp] theorem State.modQuire_fabs (s : State) (h : Nat) (f : Quire → Quire) : (s.modQuire h f).fabs = s.fabs := rfl
@[simp] theorem State.modQuire_applied (s : State) (h : Nat) (f : Quire → Quire) : (s.modQuire h f).applied = s.applied := rfl
@[simp] theorem State.modQuire_outbox (s : State) (h : Nat) (f : Quire → Quire) : (s.modQuire h f).outbox = s.outbox := rfl
@[simp] theorem State.modQuire_hostWait (s : State) (h : Nat) (f : Quire → Quire) : (s.modQuire h f).hostWait = s.hostWait := rfl
@[simp] theorem State.modQuire_posts (s : State) (h : Nat) (f : Quire → Quire) : (s.modQuire h f).posts = s.posts := rfl
@[simp] theorem State.modQuire_retiring (s : State) (h : Nat) (f : Quire → Quire) : (s.modQuire h f).retiring = s.retiring := rfl
@[simp] theorem State.modQuire_verdict (s : State) (h : Nat) (f : Quire → Quire) : (s.modQuire h f).verdict = s.verdict := rfl
@[simp] theorem State.modQuire_boot (s : State) (h : Nat) (f : Quire → Quire) : (s.modQuire h f).boot = s.boot := rfl
@[simp] theorem State.modQuire_cfg (s : State) (h : Nat) (f : Quire → Quire) : (s.modQuire h f).cfg = s.cfg := rfl
@[simp] theorem State.modQuire_flash (s : State) (h : Nat) (f : Quire → Quire) : (s.modQuire h f).flash = s.flash := rfl
@[simp] theorem State.modQuire_life (s : State) (h : Nat) (f : Quire → Quire) : (s.modQuire h f).life = s.life := rfl
@[simp] theorem State.modQuire_persisted (s : State) (h : Nat) (f : Quire → Quire) : (s.modQuire h f).persisted = s.persisted := rfl
@[simp] theorem State.modQuire_hostGot (s : State) (h : Nat) (f : Quire → Quire) : (s.modQuire h f).hostGot = s.hostGot := rfl
@[simp] theorem State.modQuire_grabs (s : State) (h : Nat) (f : Quire → Quire) : (s.modQuire h f).grabs = s.grabs := rfl
@[simp] theorem State.modQuire_fins (s : State) (h : Nat) (f : Quire → Quire) : (s.modQuire h f).fins = s.fins := rfl

/-! ### `State.modSheet` -/

@[simp] theorem State.modSheet_now (s : State) (r : SheetRef) (f : Sheet → Sheet) : (s.modSheet r f).now = s.now := rfl
@[simp] theorem State.modSheet_agenda (s : State) (r : SheetRef) (f : Sheet → Sheet) : (s.modSheet r f).agenda = s.agenda := rfl
@[simp] theorem State.modSheet_free (s : State) (r : SheetRef) (f : Sheet → Sheet) : (s.modSheet r f).free = s.free := rfl
@[simp] theorem State.modSheet_cur (s : State) (r : SheetRef) (f : Sheet → Sheet) : (s.modSheet r f).cur = s.cur := rfl
@[simp] theorem State.modSheet_reissue (s : State) (r : SheetRef) (f : Sheet → Sheet) : (s.modSheet r f).reissue = s.reissue := rfl
@[simp] theorem State.modSheet_next (s : State) (r : SheetRef) (f : Sheet → Sheet) : (s.modSheet r f).next = s.next := rfl
@[simp] theorem State.modSheet_mem (s : State) (r : SheetRef) (f : Sheet → Sheet) : (s.modSheet r f).mem = s.mem := rfl
@[simp] theorem State.modSheet_bad (s : State) (r : SheetRef) (f : Sheet → Sheet) : (s.modSheet r f).bad = s.bad := rfl
@[simp] theorem State.modSheet_stores (s : State) (r : SheetRef) (f : Sheet → Sheet) : (s.modSheet r f).stores = s.stores := rfl
@[simp] theorem State.modSheet_blockCtr (s : State) (r : SheetRef) (f : Sheet → Sheet) : (s.modSheet r f).blockCtr = s.blockCtr := rfl
@[simp] theorem State.modSheet_nodeCtr (s : State) (r : SheetRef) (f : Sheet → Sheet) : (s.modSheet r f).nodeCtr = s.nodeCtr := rfl
@[simp] theorem State.modSheet_gens (s : State) (r : SheetRef) (f : Sheet → Sheet) : (s.modSheet r f).gens = s.gens := rfl
@[simp] theorem State.modSheet_rekeys (s : State) (r : SheetRef) (f : Sheet → Sheet) : (s.modSheet r f).rekeys = s.rekeys := rfl
@[simp] theorem State.modSheet_refresh (s : State) (r : SheetRef) (f : Sheet → Sheet) : (s.modSheet r f).refresh = s.refresh := rfl
@[simp] theorem State.modSheet_hot (s : State) (r : SheetRef) (f : Sheet → Sheet) : (s.modSheet r f).hot = s.hot := rfl
@[simp] theorem State.modSheet_retired (s : State) (r : SheetRef) (f : Sheet → Sheet) : (s.modSheet r f).retired = s.retired := rfl
@[simp] theorem State.modSheet_roots (s : State) (r : SheetRef) (f : Sheet → Sheet) : (s.modSheet r f).roots = s.roots := rfl
@[simp] theorem State.modSheet_dies (s : State) (r : SheetRef) (f : Sheet → Sheet) : (s.modSheet r f).dies = s.dies := rfl
@[simp] theorem State.modSheet_galleries (s : State) (r : SheetRef) (f : Sheet → Sheet) : (s.modSheet r f).galleries = s.galleries := rfl
@[simp] theorem State.modSheet_cores (s : State) (r : SheetRef) (f : Sheet → Sheet) : (s.modSheet r f).cores = s.cores := rfl
@[simp] theorem State.modSheet_vats (s : State) (r : SheetRef) (f : Sheet → Sheet) : (s.modSheet r f).vats = s.vats := rfl
@[simp] theorem State.modSheet_ports (s : State) (r : SheetRef) (f : Sheet → Sheet) : (s.modSheet r f).ports = s.ports := rfl
@[simp] theorem State.modSheet_ctxs (s : State) (r : SheetRef) (f : Sheet → Sheet) : (s.modSheet r f).ctxs = s.ctxs := rfl
@[simp] theorem State.modSheet_parts (s : State) (r : SheetRef) (f : Sheet → Sheet) : (s.modSheet r f).parts = s.parts := rfl
@[simp] theorem State.modSheet_reams (s : State) (r : SheetRef) (f : Sheet → Sheet) : (s.modSheet r f).reams = s.reams := rfl
@[simp] theorem State.modSheet_copies (s : State) (r : SheetRef) (f : Sheet → Sheet) : (s.modSheet r f).copies = s.copies := rfl
@[simp] theorem State.modSheet_nms (s : State) (r : SheetRef) (f : Sheet → Sheet) : (s.modSheet r f).nms = s.nms := rfl
@[simp] theorem State.modSheet_installs (s : State) (r : SheetRef) (f : Sheet → Sheet) : (s.modSheet r f).installs = s.installs := rfl
@[simp] theorem State.modSheet_fabs (s : State) (r : SheetRef) (f : Sheet → Sheet) : (s.modSheet r f).fabs = s.fabs := rfl
@[simp] theorem State.modSheet_applied (s : State) (r : SheetRef) (f : Sheet → Sheet) : (s.modSheet r f).applied = s.applied := rfl
@[simp] theorem State.modSheet_outbox (s : State) (r : SheetRef) (f : Sheet → Sheet) : (s.modSheet r f).outbox = s.outbox := rfl
@[simp] theorem State.modSheet_hostWait (s : State) (r : SheetRef) (f : Sheet → Sheet) : (s.modSheet r f).hostWait = s.hostWait := rfl
@[simp] theorem State.modSheet_posts (s : State) (r : SheetRef) (f : Sheet → Sheet) : (s.modSheet r f).posts = s.posts := rfl
@[simp] theorem State.modSheet_retiring (s : State) (r : SheetRef) (f : Sheet → Sheet) : (s.modSheet r f).retiring = s.retiring := rfl
@[simp] theorem State.modSheet_verdict (s : State) (r : SheetRef) (f : Sheet → Sheet) : (s.modSheet r f).verdict = s.verdict := rfl
@[simp] theorem State.modSheet_boot (s : State) (r : SheetRef) (f : Sheet → Sheet) : (s.modSheet r f).boot = s.boot := rfl
@[simp] theorem State.modSheet_cfg (s : State) (r : SheetRef) (f : Sheet → Sheet) : (s.modSheet r f).cfg = s.cfg := rfl
@[simp] theorem State.modSheet_flash (s : State) (r : SheetRef) (f : Sheet → Sheet) : (s.modSheet r f).flash = s.flash := rfl
@[simp] theorem State.modSheet_life (s : State) (r : SheetRef) (f : Sheet → Sheet) : (s.modSheet r f).life = s.life := rfl
@[simp] theorem State.modSheet_persisted (s : State) (r : SheetRef) (f : Sheet → Sheet) : (s.modSheet r f).persisted = s.persisted := rfl
@[simp] theorem State.modSheet_hostGot (s : State) (r : SheetRef) (f : Sheet → Sheet) : (s.modSheet r f).hostGot = s.hostGot := rfl
@[simp] theorem State.modSheet_grabs (s : State) (r : SheetRef) (f : Sheet → Sheet) : (s.modSheet r f).grabs = s.grabs := rfl
@[simp] theorem State.modSheet_fins (s : State) (r : SheetRef) (f : Sheet → Sheet) : (s.modSheet r f).fins = s.fins := rfl

/-! ### `State.writeRegs` -/

@[simp] theorem State.writeRegs_now (s : State) (r : SheetRef) (ws : List (RegKey × Word)) : (s.writeRegs r ws).now = s.now := rfl
@[simp] theorem State.writeRegs_agenda (s : State) (r : SheetRef) (ws : List (RegKey × Word)) : (s.writeRegs r ws).agenda = s.agenda := rfl
@[simp] theorem State.writeRegs_free (s : State) (r : SheetRef) (ws : List (RegKey × Word)) : (s.writeRegs r ws).free = s.free := rfl
@[simp] theorem State.writeRegs_cur (s : State) (r : SheetRef) (ws : List (RegKey × Word)) : (s.writeRegs r ws).cur = s.cur := rfl
@[simp] theorem State.writeRegs_reissue (s : State) (r : SheetRef) (ws : List (RegKey × Word)) : (s.writeRegs r ws).reissue = s.reissue := rfl
@[simp] theorem State.writeRegs_next (s : State) (r : SheetRef) (ws : List (RegKey × Word)) : (s.writeRegs r ws).next = s.next := rfl
@[simp] theorem State.writeRegs_mem (s : State) (r : SheetRef) (ws : List (RegKey × Word)) : (s.writeRegs r ws).mem = s.mem := rfl
@[simp] theorem State.writeRegs_bad (s : State) (r : SheetRef) (ws : List (RegKey × Word)) : (s.writeRegs r ws).bad = s.bad := rfl
@[simp] theorem State.writeRegs_stores (s : State) (r : SheetRef) (ws : List (RegKey × Word)) : (s.writeRegs r ws).stores = s.stores := rfl
@[simp] theorem State.writeRegs_blockCtr (s : State) (r : SheetRef) (ws : List (RegKey × Word)) : (s.writeRegs r ws).blockCtr = s.blockCtr := rfl
@[simp] theorem State.writeRegs_nodeCtr (s : State) (r : SheetRef) (ws : List (RegKey × Word)) : (s.writeRegs r ws).nodeCtr = s.nodeCtr := rfl
@[simp] theorem State.writeRegs_gens (s : State) (r : SheetRef) (ws : List (RegKey × Word)) : (s.writeRegs r ws).gens = s.gens := rfl
@[simp] theorem State.writeRegs_rekeys (s : State) (r : SheetRef) (ws : List (RegKey × Word)) : (s.writeRegs r ws).rekeys = s.rekeys := rfl
@[simp] theorem State.writeRegs_refresh (s : State) (r : SheetRef) (ws : List (RegKey × Word)) : (s.writeRegs r ws).refresh = s.refresh := rfl
@[simp] theorem State.writeRegs_hot (s : State) (r : SheetRef) (ws : List (RegKey × Word)) : (s.writeRegs r ws).hot = s.hot := rfl
@[simp] theorem State.writeRegs_retired (s : State) (r : SheetRef) (ws : List (RegKey × Word)) : (s.writeRegs r ws).retired = s.retired := rfl
@[simp] theorem State.writeRegs_roots (s : State) (r : SheetRef) (ws : List (RegKey × Word)) : (s.writeRegs r ws).roots = s.roots := rfl
@[simp] theorem State.writeRegs_dies (s : State) (r : SheetRef) (ws : List (RegKey × Word)) : (s.writeRegs r ws).dies = s.dies := rfl
@[simp] theorem State.writeRegs_galleries (s : State) (r : SheetRef) (ws : List (RegKey × Word)) : (s.writeRegs r ws).galleries = s.galleries := rfl
@[simp] theorem State.writeRegs_cores (s : State) (r : SheetRef) (ws : List (RegKey × Word)) : (s.writeRegs r ws).cores = s.cores := rfl
@[simp] theorem State.writeRegs_vats (s : State) (r : SheetRef) (ws : List (RegKey × Word)) : (s.writeRegs r ws).vats = s.vats := rfl
@[simp] theorem State.writeRegs_ports (s : State) (r : SheetRef) (ws : List (RegKey × Word)) : (s.writeRegs r ws).ports = s.ports := rfl
@[simp] theorem State.writeRegs_ctxs (s : State) (r : SheetRef) (ws : List (RegKey × Word)) : (s.writeRegs r ws).ctxs = s.ctxs := rfl
@[simp] theorem State.writeRegs_parts (s : State) (r : SheetRef) (ws : List (RegKey × Word)) : (s.writeRegs r ws).parts = s.parts := rfl
@[simp] theorem State.writeRegs_reams (s : State) (r : SheetRef) (ws : List (RegKey × Word)) : (s.writeRegs r ws).reams = s.reams := rfl
@[simp] theorem State.writeRegs_copies (s : State) (r : SheetRef) (ws : List (RegKey × Word)) : (s.writeRegs r ws).copies = s.copies := rfl
@[simp] theorem State.writeRegs_nms (s : State) (r : SheetRef) (ws : List (RegKey × Word)) : (s.writeRegs r ws).nms = s.nms := rfl
@[simp] theorem State.writeRegs_installs (s : State) (r : SheetRef) (ws : List (RegKey × Word)) : (s.writeRegs r ws).installs = s.installs := rfl
@[simp] theorem State.writeRegs_fabs (s : State) (r : SheetRef) (ws : List (RegKey × Word)) : (s.writeRegs r ws).fabs = s.fabs := rfl
@[simp] theorem State.writeRegs_applied (s : State) (r : SheetRef) (ws : List (RegKey × Word)) : (s.writeRegs r ws).applied = s.applied := rfl
@[simp] theorem State.writeRegs_outbox (s : State) (r : SheetRef) (ws : List (RegKey × Word)) : (s.writeRegs r ws).outbox = s.outbox := rfl
@[simp] theorem State.writeRegs_hostWait (s : State) (r : SheetRef) (ws : List (RegKey × Word)) : (s.writeRegs r ws).hostWait = s.hostWait := rfl
@[simp] theorem State.writeRegs_posts (s : State) (r : SheetRef) (ws : List (RegKey × Word)) : (s.writeRegs r ws).posts = s.posts := rfl
@[simp] theorem State.writeRegs_retiring (s : State) (r : SheetRef) (ws : List (RegKey × Word)) : (s.writeRegs r ws).retiring = s.retiring := rfl
@[simp] theorem State.writeRegs_verdict (s : State) (r : SheetRef) (ws : List (RegKey × Word)) : (s.writeRegs r ws).verdict = s.verdict := rfl
@[simp] theorem State.writeRegs_boot (s : State) (r : SheetRef) (ws : List (RegKey × Word)) : (s.writeRegs r ws).boot = s.boot := rfl
@[simp] theorem State.writeRegs_cfg (s : State) (r : SheetRef) (ws : List (RegKey × Word)) : (s.writeRegs r ws).cfg = s.cfg := rfl
@[simp] theorem State.writeRegs_flash (s : State) (r : SheetRef) (ws : List (RegKey × Word)) : (s.writeRegs r ws).flash = s.flash := rfl
@[simp] theorem State.writeRegs_life (s : State) (r : SheetRef) (ws : List (RegKey × Word)) : (s.writeRegs r ws).life = s.life := rfl
@[simp] theorem State.writeRegs_persisted (s : State) (r : SheetRef) (ws : List (RegKey × Word)) : (s.writeRegs r ws).persisted = s.persisted := rfl
@[simp] theorem State.writeRegs_hostGot (s : State) (r : SheetRef) (ws : List (RegKey × Word)) : (s.writeRegs r ws).hostGot = s.hostGot := rfl
@[simp] theorem State.writeRegs_grabs (s : State) (r : SheetRef) (ws : List (RegKey × Word)) : (s.writeRegs r ws).grabs = s.grabs := rfl
@[simp] theorem State.writeRegs_fins (s : State) (r : SheetRef) (ws : List (RegKey × Word)) : (s.writeRegs r ws).fins = s.fins := rfl

/-! ### `State.setK` -/

@[simp] theorem State.setK_now (s : State) (r : SheetRef) (n : Nat) (m : Mask) : (s.setK r n m).now = s.now := rfl
@[simp] theorem State.setK_agenda (s : State) (r : SheetRef) (n : Nat) (m : Mask) : (s.setK r n m).agenda = s.agenda := rfl
@[simp] theorem State.setK_free (s : State) (r : SheetRef) (n : Nat) (m : Mask) : (s.setK r n m).free = s.free := rfl
@[simp] theorem State.setK_cur (s : State) (r : SheetRef) (n : Nat) (m : Mask) : (s.setK r n m).cur = s.cur := rfl
@[simp] theorem State.setK_reissue (s : State) (r : SheetRef) (n : Nat) (m : Mask) : (s.setK r n m).reissue = s.reissue := rfl
@[simp] theorem State.setK_next (s : State) (r : SheetRef) (n : Nat) (m : Mask) : (s.setK r n m).next = s.next := rfl
@[simp] theorem State.setK_mem (s : State) (r : SheetRef) (n : Nat) (m : Mask) : (s.setK r n m).mem = s.mem := rfl
@[simp] theorem State.setK_bad (s : State) (r : SheetRef) (n : Nat) (m : Mask) : (s.setK r n m).bad = s.bad := rfl
@[simp] theorem State.setK_stores (s : State) (r : SheetRef) (n : Nat) (m : Mask) : (s.setK r n m).stores = s.stores := rfl
@[simp] theorem State.setK_blockCtr (s : State) (r : SheetRef) (n : Nat) (m : Mask) : (s.setK r n m).blockCtr = s.blockCtr := rfl
@[simp] theorem State.setK_nodeCtr (s : State) (r : SheetRef) (n : Nat) (m : Mask) : (s.setK r n m).nodeCtr = s.nodeCtr := rfl
@[simp] theorem State.setK_gens (s : State) (r : SheetRef) (n : Nat) (m : Mask) : (s.setK r n m).gens = s.gens := rfl
@[simp] theorem State.setK_rekeys (s : State) (r : SheetRef) (n : Nat) (m : Mask) : (s.setK r n m).rekeys = s.rekeys := rfl
@[simp] theorem State.setK_refresh (s : State) (r : SheetRef) (n : Nat) (m : Mask) : (s.setK r n m).refresh = s.refresh := rfl
@[simp] theorem State.setK_hot (s : State) (r : SheetRef) (n : Nat) (m : Mask) : (s.setK r n m).hot = s.hot := rfl
@[simp] theorem State.setK_retired (s : State) (r : SheetRef) (n : Nat) (m : Mask) : (s.setK r n m).retired = s.retired := rfl
@[simp] theorem State.setK_roots (s : State) (r : SheetRef) (n : Nat) (m : Mask) : (s.setK r n m).roots = s.roots := rfl
@[simp] theorem State.setK_dies (s : State) (r : SheetRef) (n : Nat) (m : Mask) : (s.setK r n m).dies = s.dies := rfl
@[simp] theorem State.setK_galleries (s : State) (r : SheetRef) (n : Nat) (m : Mask) : (s.setK r n m).galleries = s.galleries := rfl
@[simp] theorem State.setK_cores (s : State) (r : SheetRef) (n : Nat) (m : Mask) : (s.setK r n m).cores = s.cores := rfl
@[simp] theorem State.setK_vats (s : State) (r : SheetRef) (n : Nat) (m : Mask) : (s.setK r n m).vats = s.vats := rfl
@[simp] theorem State.setK_ports (s : State) (r : SheetRef) (n : Nat) (m : Mask) : (s.setK r n m).ports = s.ports := rfl
@[simp] theorem State.setK_ctxs (s : State) (r : SheetRef) (n : Nat) (m : Mask) : (s.setK r n m).ctxs = s.ctxs := rfl
@[simp] theorem State.setK_parts (s : State) (r : SheetRef) (n : Nat) (m : Mask) : (s.setK r n m).parts = s.parts := rfl
@[simp] theorem State.setK_reams (s : State) (r : SheetRef) (n : Nat) (m : Mask) : (s.setK r n m).reams = s.reams := rfl
@[simp] theorem State.setK_copies (s : State) (r : SheetRef) (n : Nat) (m : Mask) : (s.setK r n m).copies = s.copies := rfl
@[simp] theorem State.setK_nms (s : State) (r : SheetRef) (n : Nat) (m : Mask) : (s.setK r n m).nms = s.nms := rfl
@[simp] theorem State.setK_installs (s : State) (r : SheetRef) (n : Nat) (m : Mask) : (s.setK r n m).installs = s.installs := rfl
@[simp] theorem State.setK_fabs (s : State) (r : SheetRef) (n : Nat) (m : Mask) : (s.setK r n m).fabs = s.fabs := rfl
@[simp] theorem State.setK_applied (s : State) (r : SheetRef) (n : Nat) (m : Mask) : (s.setK r n m).applied = s.applied := rfl
@[simp] theorem State.setK_outbox (s : State) (r : SheetRef) (n : Nat) (m : Mask) : (s.setK r n m).outbox = s.outbox := rfl
@[simp] theorem State.setK_hostWait (s : State) (r : SheetRef) (n : Nat) (m : Mask) : (s.setK r n m).hostWait = s.hostWait := rfl
@[simp] theorem State.setK_posts (s : State) (r : SheetRef) (n : Nat) (m : Mask) : (s.setK r n m).posts = s.posts := rfl
@[simp] theorem State.setK_retiring (s : State) (r : SheetRef) (n : Nat) (m : Mask) : (s.setK r n m).retiring = s.retiring := rfl
@[simp] theorem State.setK_verdict (s : State) (r : SheetRef) (n : Nat) (m : Mask) : (s.setK r n m).verdict = s.verdict := rfl
@[simp] theorem State.setK_boot (s : State) (r : SheetRef) (n : Nat) (m : Mask) : (s.setK r n m).boot = s.boot := rfl
@[simp] theorem State.setK_cfg (s : State) (r : SheetRef) (n : Nat) (m : Mask) : (s.setK r n m).cfg = s.cfg := rfl
@[simp] theorem State.setK_flash (s : State) (r : SheetRef) (n : Nat) (m : Mask) : (s.setK r n m).flash = s.flash := rfl
@[simp] theorem State.setK_life (s : State) (r : SheetRef) (n : Nat) (m : Mask) : (s.setK r n m).life = s.life := rfl
@[simp] theorem State.setK_persisted (s : State) (r : SheetRef) (n : Nat) (m : Mask) : (s.setK r n m).persisted = s.persisted := rfl
@[simp] theorem State.setK_hostGot (s : State) (r : SheetRef) (n : Nat) (m : Mask) : (s.setK r n m).hostGot = s.hostGot := rfl
@[simp] theorem State.setK_grabs (s : State) (r : SheetRef) (n : Nat) (m : Mask) : (s.setK r n m).grabs = s.grabs := rfl
@[simp] theorem State.setK_fins (s : State) (r : SheetRef) (n : Nat) (m : Mask) : (s.setK r n m).fins = s.fins := rfl

/-! ### `State.wake` -/

@[simp] theorem State.wake_now (s : State) (r : SheetRef) : (s.wake r).now = s.now := rfl
@[simp] theorem State.wake_agenda (s : State) (r : SheetRef) : (s.wake r).agenda = s.agenda := rfl
@[simp] theorem State.wake_free (s : State) (r : SheetRef) : (s.wake r).free = s.free := rfl
@[simp] theorem State.wake_cur (s : State) (r : SheetRef) : (s.wake r).cur = s.cur := rfl
@[simp] theorem State.wake_reissue (s : State) (r : SheetRef) : (s.wake r).reissue = s.reissue := rfl
@[simp] theorem State.wake_next (s : State) (r : SheetRef) : (s.wake r).next = s.next := rfl
@[simp] theorem State.wake_mem (s : State) (r : SheetRef) : (s.wake r).mem = s.mem := rfl
@[simp] theorem State.wake_bad (s : State) (r : SheetRef) : (s.wake r).bad = s.bad := rfl
@[simp] theorem State.wake_stores (s : State) (r : SheetRef) : (s.wake r).stores = s.stores := rfl
@[simp] theorem State.wake_blockCtr (s : State) (r : SheetRef) : (s.wake r).blockCtr = s.blockCtr := rfl
@[simp] theorem State.wake_nodeCtr (s : State) (r : SheetRef) : (s.wake r).nodeCtr = s.nodeCtr := rfl
@[simp] theorem State.wake_gens (s : State) (r : SheetRef) : (s.wake r).gens = s.gens := rfl
@[simp] theorem State.wake_rekeys (s : State) (r : SheetRef) : (s.wake r).rekeys = s.rekeys := rfl
@[simp] theorem State.wake_refresh (s : State) (r : SheetRef) : (s.wake r).refresh = s.refresh := rfl
@[simp] theorem State.wake_hot (s : State) (r : SheetRef) : (s.wake r).hot = s.hot := rfl
@[simp] theorem State.wake_retired (s : State) (r : SheetRef) : (s.wake r).retired = s.retired := rfl
@[simp] theorem State.wake_roots (s : State) (r : SheetRef) : (s.wake r).roots = s.roots := rfl
@[simp] theorem State.wake_dies (s : State) (r : SheetRef) : (s.wake r).dies = s.dies := rfl
@[simp] theorem State.wake_galleries (s : State) (r : SheetRef) : (s.wake r).galleries = s.galleries := rfl
@[simp] theorem State.wake_cores (s : State) (r : SheetRef) : (s.wake r).cores = s.cores := rfl
@[simp] theorem State.wake_vats (s : State) (r : SheetRef) : (s.wake r).vats = s.vats := rfl
@[simp] theorem State.wake_ports (s : State) (r : SheetRef) : (s.wake r).ports = s.ports := rfl
@[simp] theorem State.wake_ctxs (s : State) (r : SheetRef) : (s.wake r).ctxs = s.ctxs := rfl
@[simp] theorem State.wake_parts (s : State) (r : SheetRef) : (s.wake r).parts = s.parts := rfl
@[simp] theorem State.wake_reams (s : State) (r : SheetRef) : (s.wake r).reams = s.reams := rfl
@[simp] theorem State.wake_copies (s : State) (r : SheetRef) : (s.wake r).copies = s.copies := rfl
@[simp] theorem State.wake_nms (s : State) (r : SheetRef) : (s.wake r).nms = s.nms := rfl
@[simp] theorem State.wake_installs (s : State) (r : SheetRef) : (s.wake r).installs = s.installs := rfl
@[simp] theorem State.wake_fabs (s : State) (r : SheetRef) : (s.wake r).fabs = s.fabs := rfl
@[simp] theorem State.wake_applied (s : State) (r : SheetRef) : (s.wake r).applied = s.applied := rfl
@[simp] theorem State.wake_outbox (s : State) (r : SheetRef) : (s.wake r).outbox = s.outbox := rfl
@[simp] theorem State.wake_hostWait (s : State) (r : SheetRef) : (s.wake r).hostWait = s.hostWait := rfl
@[simp] theorem State.wake_posts (s : State) (r : SheetRef) : (s.wake r).posts = s.posts := rfl
@[simp] theorem State.wake_retiring (s : State) (r : SheetRef) : (s.wake r).retiring = s.retiring := rfl
@[simp] theorem State.wake_verdict (s : State) (r : SheetRef) : (s.wake r).verdict = s.verdict := rfl
@[simp] theorem State.wake_boot (s : State) (r : SheetRef) : (s.wake r).boot = s.boot := rfl
@[simp] theorem State.wake_cfg (s : State) (r : SheetRef) : (s.wake r).cfg = s.cfg := rfl
@[simp] theorem State.wake_flash (s : State) (r : SheetRef) : (s.wake r).flash = s.flash := rfl
@[simp] theorem State.wake_life (s : State) (r : SheetRef) : (s.wake r).life = s.life := rfl
@[simp] theorem State.wake_persisted (s : State) (r : SheetRef) : (s.wake r).persisted = s.persisted := rfl
@[simp] theorem State.wake_hostGot (s : State) (r : SheetRef) : (s.wake r).hostGot = s.hostGot := rfl
@[simp] theorem State.wake_grabs (s : State) (r : SheetRef) : (s.wake r).grabs = s.grabs := rfl
@[simp] theorem State.wake_fins (s : State) (r : SheetRef) : (s.wake r).fins = s.fins := rfl

/-! ### `State.refetch` -/

@[simp] theorem State.refetch_now (s : State) (r : SheetRef) : (s.refetch r).now = s.now := rfl
@[simp] theorem State.refetch_agenda (s : State) (r : SheetRef) : (s.refetch r).agenda = s.agenda := rfl
@[simp] theorem State.refetch_free (s : State) (r : SheetRef) : (s.refetch r).free = s.free := rfl
@[simp] theorem State.refetch_cur (s : State) (r : SheetRef) : (s.refetch r).cur = s.cur := rfl
@[simp] theorem State.refetch_reissue (s : State) (r : SheetRef) : (s.refetch r).reissue = s.reissue := rfl
@[simp] theorem State.refetch_next (s : State) (r : SheetRef) : (s.refetch r).next = s.next := rfl
@[simp] theorem State.refetch_mem (s : State) (r : SheetRef) : (s.refetch r).mem = s.mem := rfl
@[simp] theorem State.refetch_bad (s : State) (r : SheetRef) : (s.refetch r).bad = s.bad := rfl
@[simp] theorem State.refetch_blockCtr (s : State) (r : SheetRef) : (s.refetch r).blockCtr = s.blockCtr := rfl
@[simp] theorem State.refetch_nodeCtr (s : State) (r : SheetRef) : (s.refetch r).nodeCtr = s.nodeCtr := rfl
@[simp] theorem State.refetch_gens (s : State) (r : SheetRef) : (s.refetch r).gens = s.gens := rfl
@[simp] theorem State.refetch_rekeys (s : State) (r : SheetRef) : (s.refetch r).rekeys = s.rekeys := rfl
@[simp] theorem State.refetch_refresh (s : State) (r : SheetRef) : (s.refetch r).refresh = s.refresh := rfl
@[simp] theorem State.refetch_hot (s : State) (r : SheetRef) : (s.refetch r).hot = s.hot := rfl
@[simp] theorem State.refetch_retired (s : State) (r : SheetRef) : (s.refetch r).retired = s.retired := rfl
@[simp] theorem State.refetch_roots (s : State) (r : SheetRef) : (s.refetch r).roots = s.roots := rfl
@[simp] theorem State.refetch_quires (s : State) (r : SheetRef) : (s.refetch r).quires = s.quires := rfl
@[simp] theorem State.refetch_dies (s : State) (r : SheetRef) : (s.refetch r).dies = s.dies := rfl
@[simp] theorem State.refetch_galleries (s : State) (r : SheetRef) : (s.refetch r).galleries = s.galleries := rfl
@[simp] theorem State.refetch_cores (s : State) (r : SheetRef) : (s.refetch r).cores = s.cores := rfl
@[simp] theorem State.refetch_vats (s : State) (r : SheetRef) : (s.refetch r).vats = s.vats := rfl
@[simp] theorem State.refetch_ports (s : State) (r : SheetRef) : (s.refetch r).ports = s.ports := rfl
@[simp] theorem State.refetch_ctxs (s : State) (r : SheetRef) : (s.refetch r).ctxs = s.ctxs := rfl
@[simp] theorem State.refetch_parts (s : State) (r : SheetRef) : (s.refetch r).parts = s.parts := rfl
@[simp] theorem State.refetch_reams (s : State) (r : SheetRef) : (s.refetch r).reams = s.reams := rfl
@[simp] theorem State.refetch_copies (s : State) (r : SheetRef) : (s.refetch r).copies = s.copies := rfl
@[simp] theorem State.refetch_nms (s : State) (r : SheetRef) : (s.refetch r).nms = s.nms := rfl
@[simp] theorem State.refetch_installs (s : State) (r : SheetRef) : (s.refetch r).installs = s.installs := rfl
@[simp] theorem State.refetch_fabs (s : State) (r : SheetRef) : (s.refetch r).fabs = s.fabs := rfl
@[simp] theorem State.refetch_applied (s : State) (r : SheetRef) : (s.refetch r).applied = s.applied := rfl
@[simp] theorem State.refetch_outbox (s : State) (r : SheetRef) : (s.refetch r).outbox = s.outbox := rfl
@[simp] theorem State.refetch_hostWait (s : State) (r : SheetRef) : (s.refetch r).hostWait = s.hostWait := rfl
@[simp] theorem State.refetch_posts (s : State) (r : SheetRef) : (s.refetch r).posts = s.posts := rfl
@[simp] theorem State.refetch_retiring (s : State) (r : SheetRef) : (s.refetch r).retiring = s.retiring := rfl
@[simp] theorem State.refetch_verdict (s : State) (r : SheetRef) : (s.refetch r).verdict = s.verdict := rfl
@[simp] theorem State.refetch_boot (s : State) (r : SheetRef) : (s.refetch r).boot = s.boot := rfl
@[simp] theorem State.refetch_cfg (s : State) (r : SheetRef) : (s.refetch r).cfg = s.cfg := rfl
@[simp] theorem State.refetch_flash (s : State) (r : SheetRef) : (s.refetch r).flash = s.flash := rfl
@[simp] theorem State.refetch_life (s : State) (r : SheetRef) : (s.refetch r).life = s.life := rfl
@[simp] theorem State.refetch_persisted (s : State) (r : SheetRef) : (s.refetch r).persisted = s.persisted := rfl
@[simp] theorem State.refetch_hostGot (s : State) (r : SheetRef) : (s.refetch r).hostGot = s.hostGot := rfl
@[simp] theorem State.refetch_grabs (s : State) (r : SheetRef) : (s.refetch r).grabs = s.grabs := rfl
@[simp] theorem State.refetch_fins (s : State) (r : SheetRef) : (s.refetch r).fins = s.fins := rfl

/-! ### `State.llOpen` -/

@[simp] theorem State.llOpen_now (s : State) (e : Env) (fs : Bool) (id left : Nat) (outs : List LLOut) (noise : Bool) : (s.llOpen e fs id left outs noise).now = s.now := rfl
@[simp] theorem State.llOpen_agenda (s : State) (e : Env) (fs : Bool) (id left : Nat) (outs : List LLOut) (noise : Bool) : (s.llOpen e fs id left outs noise).agenda = s.agenda := rfl
@[simp] theorem State.llOpen_free (s : State) (e : Env) (fs : Bool) (id left : Nat) (outs : List LLOut) (noise : Bool) : (s.llOpen e fs id left outs noise).free = s.free := rfl
@[simp] theorem State.llOpen_cur (s : State) (e : Env) (fs : Bool) (id left : Nat) (outs : List LLOut) (noise : Bool) : (s.llOpen e fs id left outs noise).cur = s.cur := rfl
@[simp] theorem State.llOpen_reissue (s : State) (e : Env) (fs : Bool) (id left : Nat) (outs : List LLOut) (noise : Bool) : (s.llOpen e fs id left outs noise).reissue = s.reissue := rfl
@[simp] theorem State.llOpen_next (s : State) (e : Env) (fs : Bool) (id left : Nat) (outs : List LLOut) (noise : Bool) : (s.llOpen e fs id left outs noise).next = s.next := rfl
@[simp] theorem State.llOpen_mem (s : State) (e : Env) (fs : Bool) (id left : Nat) (outs : List LLOut) (noise : Bool) : (s.llOpen e fs id left outs noise).mem = s.mem := rfl
@[simp] theorem State.llOpen_bad (s : State) (e : Env) (fs : Bool) (id left : Nat) (outs : List LLOut) (noise : Bool) : (s.llOpen e fs id left outs noise).bad = s.bad := rfl
@[simp] theorem State.llOpen_stores (s : State) (e : Env) (fs : Bool) (id left : Nat) (outs : List LLOut) (noise : Bool) : (s.llOpen e fs id left outs noise).stores = s.stores := rfl
@[simp] theorem State.llOpen_blockCtr (s : State) (e : Env) (fs : Bool) (id left : Nat) (outs : List LLOut) (noise : Bool) : (s.llOpen e fs id left outs noise).blockCtr = s.blockCtr := rfl
@[simp] theorem State.llOpen_nodeCtr (s : State) (e : Env) (fs : Bool) (id left : Nat) (outs : List LLOut) (noise : Bool) : (s.llOpen e fs id left outs noise).nodeCtr = s.nodeCtr := rfl
@[simp] theorem State.llOpen_gens (s : State) (e : Env) (fs : Bool) (id left : Nat) (outs : List LLOut) (noise : Bool) : (s.llOpen e fs id left outs noise).gens = s.gens := rfl
@[simp] theorem State.llOpen_rekeys (s : State) (e : Env) (fs : Bool) (id left : Nat) (outs : List LLOut) (noise : Bool) : (s.llOpen e fs id left outs noise).rekeys = s.rekeys := rfl
@[simp] theorem State.llOpen_refresh (s : State) (e : Env) (fs : Bool) (id left : Nat) (outs : List LLOut) (noise : Bool) : (s.llOpen e fs id left outs noise).refresh = s.refresh := rfl
@[simp] theorem State.llOpen_hot (s : State) (e : Env) (fs : Bool) (id left : Nat) (outs : List LLOut) (noise : Bool) : (s.llOpen e fs id left outs noise).hot = s.hot := rfl
@[simp] theorem State.llOpen_retired (s : State) (e : Env) (fs : Bool) (id left : Nat) (outs : List LLOut) (noise : Bool) : (s.llOpen e fs id left outs noise).retired = s.retired := rfl
@[simp] theorem State.llOpen_roots (s : State) (e : Env) (fs : Bool) (id left : Nat) (outs : List LLOut) (noise : Bool) : (s.llOpen e fs id left outs noise).roots = s.roots := rfl
@[simp] theorem State.llOpen_dies (s : State) (e : Env) (fs : Bool) (id left : Nat) (outs : List LLOut) (noise : Bool) : (s.llOpen e fs id left outs noise).dies = s.dies := rfl
@[simp] theorem State.llOpen_galleries (s : State) (e : Env) (fs : Bool) (id left : Nat) (outs : List LLOut) (noise : Bool) : (s.llOpen e fs id left outs noise).galleries = s.galleries := rfl
@[simp] theorem State.llOpen_cores (s : State) (e : Env) (fs : Bool) (id left : Nat) (outs : List LLOut) (noise : Bool) : (s.llOpen e fs id left outs noise).cores = s.cores := rfl
@[simp] theorem State.llOpen_vats (s : State) (e : Env) (fs : Bool) (id left : Nat) (outs : List LLOut) (noise : Bool) : (s.llOpen e fs id left outs noise).vats = s.vats := rfl
@[simp] theorem State.llOpen_ports (s : State) (e : Env) (fs : Bool) (id left : Nat) (outs : List LLOut) (noise : Bool) : (s.llOpen e fs id left outs noise).ports = s.ports := rfl
@[simp] theorem State.llOpen_ctxs (s : State) (e : Env) (fs : Bool) (id left : Nat) (outs : List LLOut) (noise : Bool) : (s.llOpen e fs id left outs noise).ctxs = s.ctxs := rfl
@[simp] theorem State.llOpen_parts (s : State) (e : Env) (fs : Bool) (id left : Nat) (outs : List LLOut) (noise : Bool) : (s.llOpen e fs id left outs noise).parts = s.parts := rfl
@[simp] theorem State.llOpen_reams (s : State) (e : Env) (fs : Bool) (id left : Nat) (outs : List LLOut) (noise : Bool) : (s.llOpen e fs id left outs noise).reams = s.reams := rfl
@[simp] theorem State.llOpen_copies (s : State) (e : Env) (fs : Bool) (id left : Nat) (outs : List LLOut) (noise : Bool) : (s.llOpen e fs id left outs noise).copies = s.copies := rfl
@[simp] theorem State.llOpen_nms (s : State) (e : Env) (fs : Bool) (id left : Nat) (outs : List LLOut) (noise : Bool) : (s.llOpen e fs id left outs noise).nms = s.nms := rfl
@[simp] theorem State.llOpen_installs (s : State) (e : Env) (fs : Bool) (id left : Nat) (outs : List LLOut) (noise : Bool) : (s.llOpen e fs id left outs noise).installs = s.installs := rfl
@[simp] theorem State.llOpen_fabs (s : State) (e : Env) (fs : Bool) (id left : Nat) (outs : List LLOut) (noise : Bool) : (s.llOpen e fs id left outs noise).fabs = s.fabs := rfl
@[simp] theorem State.llOpen_applied (s : State) (e : Env) (fs : Bool) (id left : Nat) (outs : List LLOut) (noise : Bool) : (s.llOpen e fs id left outs noise).applied = s.applied := rfl
@[simp] theorem State.llOpen_outbox (s : State) (e : Env) (fs : Bool) (id left : Nat) (outs : List LLOut) (noise : Bool) : (s.llOpen e fs id left outs noise).outbox = s.outbox := rfl
@[simp] theorem State.llOpen_hostWait (s : State) (e : Env) (fs : Bool) (id left : Nat) (outs : List LLOut) (noise : Bool) : (s.llOpen e fs id left outs noise).hostWait = s.hostWait := rfl
@[simp] theorem State.llOpen_posts (s : State) (e : Env) (fs : Bool) (id left : Nat) (outs : List LLOut) (noise : Bool) : (s.llOpen e fs id left outs noise).posts = s.posts := rfl
@[simp] theorem State.llOpen_retiring (s : State) (e : Env) (fs : Bool) (id left : Nat) (outs : List LLOut) (noise : Bool) : (s.llOpen e fs id left outs noise).retiring = s.retiring := rfl
@[simp] theorem State.llOpen_verdict (s : State) (e : Env) (fs : Bool) (id left : Nat) (outs : List LLOut) (noise : Bool) : (s.llOpen e fs id left outs noise).verdict = s.verdict := rfl
@[simp] theorem State.llOpen_boot (s : State) (e : Env) (fs : Bool) (id left : Nat) (outs : List LLOut) (noise : Bool) : (s.llOpen e fs id left outs noise).boot = s.boot := rfl
@[simp] theorem State.llOpen_cfg (s : State) (e : Env) (fs : Bool) (id left : Nat) (outs : List LLOut) (noise : Bool) : (s.llOpen e fs id left outs noise).cfg = s.cfg := rfl
@[simp] theorem State.llOpen_flash (s : State) (e : Env) (fs : Bool) (id left : Nat) (outs : List LLOut) (noise : Bool) : (s.llOpen e fs id left outs noise).flash = s.flash := rfl
@[simp] theorem State.llOpen_life (s : State) (e : Env) (fs : Bool) (id left : Nat) (outs : List LLOut) (noise : Bool) : (s.llOpen e fs id left outs noise).life = s.life := rfl
@[simp] theorem State.llOpen_persisted (s : State) (e : Env) (fs : Bool) (id left : Nat) (outs : List LLOut) (noise : Bool) : (s.llOpen e fs id left outs noise).persisted = s.persisted := rfl
@[simp] theorem State.llOpen_hostGot (s : State) (e : Env) (fs : Bool) (id left : Nat) (outs : List LLOut) (noise : Bool) : (s.llOpen e fs id left outs noise).hostGot = s.hostGot := rfl
@[simp] theorem State.llOpen_grabs (s : State) (e : Env) (fs : Bool) (id left : Nat) (outs : List LLOut) (noise : Bool) : (s.llOpen e fs id left outs noise).grabs = s.grabs := rfl
@[simp] theorem State.llOpen_fins (s : State) (e : Env) (fs : Bool) (id left : Nat) (outs : List LLOut) (noise : Bool) : (s.llOpen e fs id left outs noise).fins = s.fins := rfl

/-! ### `State.leave`, `State.advance`, `State.goto`: the sheet in issue goes on or leaves -/

@[simp] theorem State.leave_now (s : State) : s.leave.now = s.now := by
  unfold State.leave
  split
  · rfl
  · split <;> rfl
@[simp] theorem State.leave_agenda (s : State) : s.leave.agenda = s.agenda := by
  unfold State.leave
  split
  · rfl
  · split <;> rfl
@[simp] theorem State.leave_free (s : State) : s.leave.free = s.free := by
  unfold State.leave
  split
  · rfl
  · split <;> rfl
@[simp] theorem State.leave_reissue (s : State) : s.leave.reissue = s.reissue := by
  unfold State.leave
  split
  · rfl
  · split <;> rfl
@[simp] theorem State.leave_next (s : State) : s.leave.next = s.next := by
  unfold State.leave
  split
  · rfl
  · split <;> rfl
@[simp] theorem State.leave_mem (s : State) : s.leave.mem = s.mem := by
  unfold State.leave
  split
  · rfl
  · split <;> rfl
@[simp] theorem State.leave_bad (s : State) : s.leave.bad = s.bad := by
  unfold State.leave
  split
  · rfl
  · split <;> rfl
@[simp] theorem State.leave_stores (s : State) : s.leave.stores = s.stores := by
  unfold State.leave
  split
  · rfl
  · split <;> rfl
@[simp] theorem State.leave_blockCtr (s : State) : s.leave.blockCtr = s.blockCtr := by
  unfold State.leave
  split
  · rfl
  · split <;> rfl
@[simp] theorem State.leave_nodeCtr (s : State) : s.leave.nodeCtr = s.nodeCtr := by
  unfold State.leave
  split
  · rfl
  · split <;> rfl
@[simp] theorem State.leave_gens (s : State) : s.leave.gens = s.gens := by
  unfold State.leave
  split
  · rfl
  · split <;> rfl
@[simp] theorem State.leave_rekeys (s : State) : s.leave.rekeys = s.rekeys := by
  unfold State.leave
  split
  · rfl
  · split <;> rfl
@[simp] theorem State.leave_refresh (s : State) : s.leave.refresh = s.refresh := by
  unfold State.leave
  split
  · rfl
  · split <;> rfl
@[simp] theorem State.leave_hot (s : State) : s.leave.hot = s.hot := by
  unfold State.leave
  split
  · rfl
  · split <;> rfl
@[simp] theorem State.leave_retired (s : State) : s.leave.retired = s.retired := by
  unfold State.leave
  split
  · rfl
  · split <;> rfl
@[simp] theorem State.leave_roots (s : State) : s.leave.roots = s.roots := by
  unfold State.leave
  split
  · rfl
  · split <;> rfl
@[simp] theorem State.leave_quires (s : State) : s.leave.quires = s.quires := by
  unfold State.leave
  split
  · rfl
  · split <;> rfl
@[simp] theorem State.leave_dies (s : State) : s.leave.dies = s.dies := by
  unfold State.leave
  split
  · rfl
  · split <;> rfl
@[simp] theorem State.leave_galleries (s : State) : s.leave.galleries = s.galleries := by
  unfold State.leave
  split
  · rfl
  · split <;> rfl
@[simp] theorem State.leave_vats (s : State) : s.leave.vats = s.vats := by
  unfold State.leave
  split
  · rfl
  · split <;> rfl
@[simp] theorem State.leave_ports (s : State) : s.leave.ports = s.ports := by
  unfold State.leave
  split
  · rfl
  · split <;> rfl
@[simp] theorem State.leave_ctxs (s : State) : s.leave.ctxs = s.ctxs := by
  unfold State.leave
  split
  · rfl
  · split <;> rfl
@[simp] theorem State.leave_parts (s : State) : s.leave.parts = s.parts := by
  unfold State.leave
  split
  · rfl
  · split <;> rfl
@[simp] theorem State.leave_reams (s : State) : s.leave.reams = s.reams := by
  unfold State.leave
  split
  · rfl
  · split <;> rfl
@[simp] theorem State.leave_copies (s : State) : s.leave.copies = s.copies := by
  unfold State.leave
  split
  · rfl
  · split <;> rfl
@[simp] theorem State.leave_nms (s : State) : s.leave.nms = s.nms := by
  unfold State.leave
  split
  · rfl
  · split <;> rfl
@[simp] theorem State.leave_installs (s : State) : s.leave.installs = s.installs := by
  unfold State.leave
  split
  · rfl
  · split <;> rfl
@[simp] theorem State.leave_fabs (s : State) : s.leave.fabs = s.fabs := by
  unfold State.leave
  split
  · rfl
  · split <;> rfl
@[simp] theorem State.leave_applied (s : State) : s.leave.applied = s.applied := by
  unfold State.leave
  split
  · rfl
  · split <;> rfl
@[simp] theorem State.leave_outbox (s : State) : s.leave.outbox = s.outbox := by
  unfold State.leave
  split
  · rfl
  · split <;> rfl
@[simp] theorem State.leave_hostWait (s : State) : s.leave.hostWait = s.hostWait := by
  unfold State.leave
  split
  · rfl
  · split <;> rfl
@[simp] theorem State.leave_posts (s : State) : s.leave.posts = s.posts := by
  unfold State.leave
  split
  · rfl
  · split <;> rfl
@[simp] theorem State.leave_retiring (s : State) : s.leave.retiring = s.retiring := by
  unfold State.leave
  split
  · rfl
  · split <;> rfl
@[simp] theorem State.leave_verdict (s : State) : s.leave.verdict = s.verdict := by
  unfold State.leave
  split
  · rfl
  · split <;> rfl
@[simp] theorem State.leave_boot (s : State) : s.leave.boot = s.boot := by
  unfold State.leave
  split
  · rfl
  · split <;> rfl
@[simp] theorem State.leave_cfg (s : State) : s.leave.cfg = s.cfg := by
  unfold State.leave
  split
  · rfl
  · split <;> rfl
@[simp] theorem State.leave_flash (s : State) : s.leave.flash = s.flash := by
  unfold State.leave
  split
  · rfl
  · split <;> rfl
@[simp] theorem State.leave_life (s : State) : s.leave.life = s.life := by
  unfold State.leave
  split
  · rfl
  · split <;> rfl
@[simp] theorem State.leave_persisted (s : State) : s.leave.persisted = s.persisted := by
  unfold State.leave
  split
  · rfl
  · split <;> rfl
@[simp] theorem State.leave_hostGot (s : State) : s.leave.hostGot = s.hostGot := by
  unfold State.leave
  split
  · rfl
  · split <;> rfl
@[simp] theorem State.leave_grabs (s : State) : s.leave.grabs = s.grabs := by
  unfold State.leave
  split
  · rfl
  · split <;> rfl
@[simp] theorem State.leave_fins (s : State) : s.leave.fins = s.fins := by
  unfold State.leave
  split
  · rfl
  · split <;> rfl
@[simp] theorem State.advance_now (s : State) (e : Env) : (s.advance e).now = s.now := by
  unfold State.advance
  simp only
  split <;> simp
@[simp] theorem State.advance_agenda (s : State) (e : Env) : (s.advance e).agenda = s.agenda := by
  unfold State.advance
  simp only
  split <;> simp
@[simp] theorem State.advance_free (s : State) (e : Env) : (s.advance e).free = s.free := by
  unfold State.advance
  simp only
  split <;> simp
@[simp] theorem State.advance_reissue (s : State) (e : Env) : (s.advance e).reissue = s.reissue := by
  unfold State.advance
  simp only
  split <;> simp
@[simp] theorem State.advance_next (s : State) (e : Env) : (s.advance e).next = s.next := by
  unfold State.advance
  simp only
  split <;> simp
@[simp] theorem State.advance_mem (s : State) (e : Env) : (s.advance e).mem = s.mem := by
  unfold State.advance
  simp only
  split <;> simp
@[simp] theorem State.advance_bad (s : State) (e : Env) : (s.advance e).bad = s.bad := by
  unfold State.advance
  simp only
  split <;> simp
@[simp] theorem State.advance_stores (s : State) (e : Env) : (s.advance e).stores = s.stores := by
  unfold State.advance
  simp only
  split <;> simp
@[simp] theorem State.advance_blockCtr (s : State) (e : Env) : (s.advance e).blockCtr = s.blockCtr := by
  unfold State.advance
  simp only
  split <;> simp
@[simp] theorem State.advance_nodeCtr (s : State) (e : Env) : (s.advance e).nodeCtr = s.nodeCtr := by
  unfold State.advance
  simp only
  split <;> simp
@[simp] theorem State.advance_gens (s : State) (e : Env) : (s.advance e).gens = s.gens := by
  unfold State.advance
  simp only
  split <;> simp
@[simp] theorem State.advance_rekeys (s : State) (e : Env) : (s.advance e).rekeys = s.rekeys := by
  unfold State.advance
  simp only
  split <;> simp
@[simp] theorem State.advance_refresh (s : State) (e : Env) : (s.advance e).refresh = s.refresh := by
  unfold State.advance
  simp only
  split <;> simp
@[simp] theorem State.advance_hot (s : State) (e : Env) : (s.advance e).hot = s.hot := by
  unfold State.advance
  simp only
  split <;> simp
@[simp] theorem State.advance_retired (s : State) (e : Env) : (s.advance e).retired = s.retired := by
  unfold State.advance
  simp only
  split <;> simp
@[simp] theorem State.advance_roots (s : State) (e : Env) : (s.advance e).roots = s.roots := by
  unfold State.advance
  simp only
  split <;> simp
@[simp] theorem State.advance_dies (s : State) (e : Env) : (s.advance e).dies = s.dies := by
  unfold State.advance
  simp only
  split <;> simp
@[simp] theorem State.advance_galleries (s : State) (e : Env) : (s.advance e).galleries = s.galleries := by
  unfold State.advance
  simp only
  split <;> simp
@[simp] theorem State.advance_vats (s : State) (e : Env) : (s.advance e).vats = s.vats := by
  unfold State.advance
  simp only
  split <;> simp
@[simp] theorem State.advance_ports (s : State) (e : Env) : (s.advance e).ports = s.ports := by
  unfold State.advance
  simp only
  split <;> simp
@[simp] theorem State.advance_ctxs (s : State) (e : Env) : (s.advance e).ctxs = s.ctxs := by
  unfold State.advance
  simp only
  split <;> simp
@[simp] theorem State.advance_parts (s : State) (e : Env) : (s.advance e).parts = s.parts := by
  unfold State.advance
  simp only
  split <;> simp
@[simp] theorem State.advance_reams (s : State) (e : Env) : (s.advance e).reams = s.reams := by
  unfold State.advance
  simp only
  split <;> simp
@[simp] theorem State.advance_copies (s : State) (e : Env) : (s.advance e).copies = s.copies := by
  unfold State.advance
  simp only
  split <;> simp
@[simp] theorem State.advance_nms (s : State) (e : Env) : (s.advance e).nms = s.nms := by
  unfold State.advance
  simp only
  split <;> simp
@[simp] theorem State.advance_installs (s : State) (e : Env) : (s.advance e).installs = s.installs := by
  unfold State.advance
  simp only
  split <;> simp
@[simp] theorem State.advance_fabs (s : State) (e : Env) : (s.advance e).fabs = s.fabs := by
  unfold State.advance
  simp only
  split <;> simp
@[simp] theorem State.advance_applied (s : State) (e : Env) : (s.advance e).applied = s.applied := by
  unfold State.advance
  simp only
  split <;> simp
@[simp] theorem State.advance_outbox (s : State) (e : Env) : (s.advance e).outbox = s.outbox := by
  unfold State.advance
  simp only
  split <;> simp
@[simp] theorem State.advance_hostWait (s : State) (e : Env) : (s.advance e).hostWait = s.hostWait := by
  unfold State.advance
  simp only
  split <;> simp
@[simp] theorem State.advance_posts (s : State) (e : Env) : (s.advance e).posts = s.posts := by
  unfold State.advance
  simp only
  split <;> simp
@[simp] theorem State.advance_retiring (s : State) (e : Env) : (s.advance e).retiring = s.retiring := by
  unfold State.advance
  simp only
  split <;> simp
@[simp] theorem State.advance_verdict (s : State) (e : Env) : (s.advance e).verdict = s.verdict := by
  unfold State.advance
  simp only
  split <;> simp
@[simp] theorem State.advance_boot (s : State) (e : Env) : (s.advance e).boot = s.boot := by
  unfold State.advance
  simp only
  split <;> simp
@[simp] theorem State.advance_cfg (s : State) (e : Env) : (s.advance e).cfg = s.cfg := by
  unfold State.advance
  simp only
  split <;> simp
@[simp] theorem State.advance_flash (s : State) (e : Env) : (s.advance e).flash = s.flash := by
  unfold State.advance
  simp only
  split <;> simp
@[simp] theorem State.advance_life (s : State) (e : Env) : (s.advance e).life = s.life := by
  unfold State.advance
  simp only
  split <;> simp
@[simp] theorem State.advance_persisted (s : State) (e : Env) : (s.advance e).persisted = s.persisted := by
  unfold State.advance
  simp only
  split <;> simp
@[simp] theorem State.advance_hostGot (s : State) (e : Env) : (s.advance e).hostGot = s.hostGot := by
  unfold State.advance
  simp only
  split <;> simp
@[simp] theorem State.advance_grabs (s : State) (e : Env) : (s.advance e).grabs = s.grabs := by
  unfold State.advance
  simp only
  split <;> simp
@[simp] theorem State.advance_fins (s : State) (e : Env) : (s.advance e).fins = s.fins := by
  unfold State.advance
  simp only
  split <;> simp
@[simp] theorem State.goto_now (s : State) (e : Env) (a : DWord) : (s.goto e a).now = s.now := by
  simp [State.goto]
@[simp] theorem State.goto_agenda (s : State) (e : Env) (a : DWord) : (s.goto e a).agenda = s.agenda := by
  simp [State.goto]
@[simp] theorem State.goto_free (s : State) (e : Env) (a : DWord) : (s.goto e a).free = s.free := by
  simp [State.goto]
@[simp] theorem State.goto_reissue (s : State) (e : Env) (a : DWord) : (s.goto e a).reissue = s.reissue := by
  simp [State.goto]
@[simp] theorem State.goto_next (s : State) (e : Env) (a : DWord) : (s.goto e a).next = s.next := by
  simp [State.goto]
@[simp] theorem State.goto_mem (s : State) (e : Env) (a : DWord) : (s.goto e a).mem = s.mem := by
  simp [State.goto]
@[simp] theorem State.goto_bad (s : State) (e : Env) (a : DWord) : (s.goto e a).bad = s.bad := by
  simp [State.goto]
@[simp] theorem State.goto_blockCtr (s : State) (e : Env) (a : DWord) : (s.goto e a).blockCtr = s.blockCtr := by
  simp [State.goto]
@[simp] theorem State.goto_nodeCtr (s : State) (e : Env) (a : DWord) : (s.goto e a).nodeCtr = s.nodeCtr := by
  simp [State.goto]
@[simp] theorem State.goto_gens (s : State) (e : Env) (a : DWord) : (s.goto e a).gens = s.gens := by
  simp [State.goto]
@[simp] theorem State.goto_rekeys (s : State) (e : Env) (a : DWord) : (s.goto e a).rekeys = s.rekeys := by
  simp [State.goto]
@[simp] theorem State.goto_refresh (s : State) (e : Env) (a : DWord) : (s.goto e a).refresh = s.refresh := by
  simp [State.goto]
@[simp] theorem State.goto_hot (s : State) (e : Env) (a : DWord) : (s.goto e a).hot = s.hot := by
  simp [State.goto]
@[simp] theorem State.goto_retired (s : State) (e : Env) (a : DWord) : (s.goto e a).retired = s.retired := by
  simp [State.goto]
@[simp] theorem State.goto_roots (s : State) (e : Env) (a : DWord) : (s.goto e a).roots = s.roots := by
  simp [State.goto]
@[simp] theorem State.goto_dies (s : State) (e : Env) (a : DWord) : (s.goto e a).dies = s.dies := by
  simp [State.goto]
@[simp] theorem State.goto_galleries (s : State) (e : Env) (a : DWord) : (s.goto e a).galleries = s.galleries := by
  simp [State.goto]
@[simp] theorem State.goto_vats (s : State) (e : Env) (a : DWord) : (s.goto e a).vats = s.vats := by
  simp [State.goto]
@[simp] theorem State.goto_ports (s : State) (e : Env) (a : DWord) : (s.goto e a).ports = s.ports := by
  simp [State.goto]
@[simp] theorem State.goto_ctxs (s : State) (e : Env) (a : DWord) : (s.goto e a).ctxs = s.ctxs := by
  simp [State.goto]
@[simp] theorem State.goto_parts (s : State) (e : Env) (a : DWord) : (s.goto e a).parts = s.parts := by
  simp [State.goto]
@[simp] theorem State.goto_reams (s : State) (e : Env) (a : DWord) : (s.goto e a).reams = s.reams := by
  simp [State.goto]
@[simp] theorem State.goto_copies (s : State) (e : Env) (a : DWord) : (s.goto e a).copies = s.copies := by
  simp [State.goto]
@[simp] theorem State.goto_nms (s : State) (e : Env) (a : DWord) : (s.goto e a).nms = s.nms := by
  simp [State.goto]
@[simp] theorem State.goto_installs (s : State) (e : Env) (a : DWord) : (s.goto e a).installs = s.installs := by
  simp [State.goto]
@[simp] theorem State.goto_fabs (s : State) (e : Env) (a : DWord) : (s.goto e a).fabs = s.fabs := by
  simp [State.goto]
@[simp] theorem State.goto_applied (s : State) (e : Env) (a : DWord) : (s.goto e a).applied = s.applied := by
  simp [State.goto]
@[simp] theorem State.goto_outbox (s : State) (e : Env) (a : DWord) : (s.goto e a).outbox = s.outbox := by
  simp [State.goto]
@[simp] theorem State.goto_hostWait (s : State) (e : Env) (a : DWord) : (s.goto e a).hostWait = s.hostWait := by
  simp [State.goto]
@[simp] theorem State.goto_posts (s : State) (e : Env) (a : DWord) : (s.goto e a).posts = s.posts := by
  simp [State.goto]
@[simp] theorem State.goto_retiring (s : State) (e : Env) (a : DWord) : (s.goto e a).retiring = s.retiring := by
  simp [State.goto]
@[simp] theorem State.goto_verdict (s : State) (e : Env) (a : DWord) : (s.goto e a).verdict = s.verdict := by
  simp [State.goto]
@[simp] theorem State.goto_boot (s : State) (e : Env) (a : DWord) : (s.goto e a).boot = s.boot := by
  simp [State.goto]
@[simp] theorem State.goto_cfg (s : State) (e : Env) (a : DWord) : (s.goto e a).cfg = s.cfg := by
  simp [State.goto]
@[simp] theorem State.goto_flash (s : State) (e : Env) (a : DWord) : (s.goto e a).flash = s.flash := by
  simp [State.goto]
@[simp] theorem State.goto_life (s : State) (e : Env) (a : DWord) : (s.goto e a).life = s.life := by
  simp [State.goto]
@[simp] theorem State.goto_persisted (s : State) (e : Env) (a : DWord) : (s.goto e a).persisted = s.persisted := by
  simp [State.goto]
@[simp] theorem State.goto_hostGot (s : State) (e : Env) (a : DWord) : (s.goto e a).hostGot = s.hostGot := by
  simp [State.goto]
@[simp] theorem State.goto_grabs (s : State) (e : Env) (a : DWord) : (s.goto e a).grabs = s.grabs := by
  simp [State.goto]
@[simp] theorem State.goto_fins (s : State) (e : Env) (a : DWord) : (s.goto e a).fins = s.fins := by
  simp [State.goto]
@[simp] theorem State.holdAt_now (s : State) (e : Env) (w : Wait) : (s.holdAt e w).now = s.now := by
  simp [State.holdAt]
@[simp] theorem State.holdAt_agenda (s : State) (e : Env) (w : Wait) : (s.holdAt e w).agenda = s.agenda := by
  simp [State.holdAt]
@[simp] theorem State.holdAt_free (s : State) (e : Env) (w : Wait) : (s.holdAt e w).free = s.free := by
  simp [State.holdAt]
@[simp] theorem State.holdAt_reissue (s : State) (e : Env) (w : Wait) : (s.holdAt e w).reissue = s.reissue := by
  simp [State.holdAt]
@[simp] theorem State.holdAt_next (s : State) (e : Env) (w : Wait) : (s.holdAt e w).next = s.next := by
  simp [State.holdAt]
@[simp] theorem State.holdAt_mem (s : State) (e : Env) (w : Wait) : (s.holdAt e w).mem = s.mem := by
  simp [State.holdAt]
@[simp] theorem State.holdAt_bad (s : State) (e : Env) (w : Wait) : (s.holdAt e w).bad = s.bad := by
  simp [State.holdAt]
@[simp] theorem State.holdAt_stores (s : State) (e : Env) (w : Wait) : (s.holdAt e w).stores = s.stores := by
  simp [State.holdAt]
@[simp] theorem State.holdAt_blockCtr (s : State) (e : Env) (w : Wait) : (s.holdAt e w).blockCtr = s.blockCtr := by
  simp [State.holdAt]
@[simp] theorem State.holdAt_nodeCtr (s : State) (e : Env) (w : Wait) : (s.holdAt e w).nodeCtr = s.nodeCtr := by
  simp [State.holdAt]
@[simp] theorem State.holdAt_gens (s : State) (e : Env) (w : Wait) : (s.holdAt e w).gens = s.gens := by
  simp [State.holdAt]
@[simp] theorem State.holdAt_rekeys (s : State) (e : Env) (w : Wait) : (s.holdAt e w).rekeys = s.rekeys := by
  simp [State.holdAt]
@[simp] theorem State.holdAt_refresh (s : State) (e : Env) (w : Wait) : (s.holdAt e w).refresh = s.refresh := by
  simp [State.holdAt]
@[simp] theorem State.holdAt_hot (s : State) (e : Env) (w : Wait) : (s.holdAt e w).hot = s.hot := by
  simp [State.holdAt]
@[simp] theorem State.holdAt_retired (s : State) (e : Env) (w : Wait) : (s.holdAt e w).retired = s.retired := by
  simp [State.holdAt]
@[simp] theorem State.holdAt_roots (s : State) (e : Env) (w : Wait) : (s.holdAt e w).roots = s.roots := by
  simp [State.holdAt]
@[simp] theorem State.holdAt_dies (s : State) (e : Env) (w : Wait) : (s.holdAt e w).dies = s.dies := by
  simp [State.holdAt]
@[simp] theorem State.holdAt_galleries (s : State) (e : Env) (w : Wait) : (s.holdAt e w).galleries = s.galleries := by
  simp [State.holdAt]
@[simp] theorem State.holdAt_vats (s : State) (e : Env) (w : Wait) : (s.holdAt e w).vats = s.vats := by
  simp [State.holdAt]
@[simp] theorem State.holdAt_ports (s : State) (e : Env) (w : Wait) : (s.holdAt e w).ports = s.ports := by
  simp [State.holdAt]
@[simp] theorem State.holdAt_ctxs (s : State) (e : Env) (w : Wait) : (s.holdAt e w).ctxs = s.ctxs := by
  simp [State.holdAt]
@[simp] theorem State.holdAt_parts (s : State) (e : Env) (w : Wait) : (s.holdAt e w).parts = s.parts := by
  simp [State.holdAt]
@[simp] theorem State.holdAt_reams (s : State) (e : Env) (w : Wait) : (s.holdAt e w).reams = s.reams := by
  simp [State.holdAt]
@[simp] theorem State.holdAt_copies (s : State) (e : Env) (w : Wait) : (s.holdAt e w).copies = s.copies := by
  simp [State.holdAt]
@[simp] theorem State.holdAt_nms (s : State) (e : Env) (w : Wait) : (s.holdAt e w).nms = s.nms := by
  simp [State.holdAt]
@[simp] theorem State.holdAt_installs (s : State) (e : Env) (w : Wait) : (s.holdAt e w).installs = s.installs := by
  simp [State.holdAt]
@[simp] theorem State.holdAt_fabs (s : State) (e : Env) (w : Wait) : (s.holdAt e w).fabs = s.fabs := by
  simp [State.holdAt]
@[simp] theorem State.holdAt_applied (s : State) (e : Env) (w : Wait) : (s.holdAt e w).applied = s.applied := by
  simp [State.holdAt]
@[simp] theorem State.holdAt_outbox (s : State) (e : Env) (w : Wait) : (s.holdAt e w).outbox = s.outbox := by
  simp [State.holdAt]
@[simp] theorem State.holdAt_hostWait (s : State) (e : Env) (w : Wait) : (s.holdAt e w).hostWait = s.hostWait := by
  simp [State.holdAt]
@[simp] theorem State.holdAt_posts (s : State) (e : Env) (w : Wait) : (s.holdAt e w).posts = s.posts := by
  simp [State.holdAt]
@[simp] theorem State.holdAt_retiring (s : State) (e : Env) (w : Wait) : (s.holdAt e w).retiring = s.retiring := by
  simp [State.holdAt]
@[simp] theorem State.holdAt_verdict (s : State) (e : Env) (w : Wait) : (s.holdAt e w).verdict = s.verdict := by
  simp [State.holdAt]
@[simp] theorem State.holdAt_boot (s : State) (e : Env) (w : Wait) : (s.holdAt e w).boot = s.boot := by
  simp [State.holdAt]
@[simp] theorem State.holdAt_cfg (s : State) (e : Env) (w : Wait) : (s.holdAt e w).cfg = s.cfg := by
  simp [State.holdAt]
@[simp] theorem State.holdAt_flash (s : State) (e : Env) (w : Wait) : (s.holdAt e w).flash = s.flash := by
  simp [State.holdAt]
@[simp] theorem State.holdAt_life (s : State) (e : Env) (w : Wait) : (s.holdAt e w).life = s.life := by
  simp [State.holdAt]
@[simp] theorem State.holdAt_persisted (s : State) (e : Env) (w : Wait) : (s.holdAt e w).persisted = s.persisted := by
  simp [State.holdAt]
@[simp] theorem State.holdAt_hostGot (s : State) (e : Env) (w : Wait) : (s.holdAt e w).hostGot = s.hostGot := by
  simp [State.holdAt]
@[simp] theorem State.holdAt_grabs (s : State) (e : Env) (w : Wait) : (s.holdAt e w).grabs = s.grabs := by
  simp [State.holdAt]
@[simp] theorem State.holdAt_fins (s : State) (e : Env) (w : Wait) : (s.holdAt e w).fins = s.fins := by
  simp [State.holdAt]

end Sys2Proof.Machine
end

