-- ==== Sys2Proof/Laws/Register.lean ====
section
/-! SUPPORT. What writing registers does: to a sheet, to a quire, and through `State.writeRegs`. -/

namespace Sys2Proof.Machine

/-! ### Lists of writes -/

@[simp] theorem lastWrite_nil (key : RegKey) : lastWrite [] key = none := rfl

theorem lastWrite_append (ws : List (RegKey × Word)) (w : RegKey × Word) (key : RegKey) :
    lastWrite (ws ++ [w]) key = if w.1 = key then some w.2 else lastWrite ws key := by
  unfold lastWrite
  rw [List.reverse_append]
  by_cases h : w.1 = key <;> simp [h]

/-! ### A sheet -/

theorem getLsbD_low32 (j : Nat) : (4294967295#96).getLsbD j = decide (j < 32) := by
  rw [show (4294967295#96 : Mask) = BitVec.ofNat 96 (2 ^ 32 - 1) from rfl, BitVec.getLsbD_ofNat, Nat.testBit_two_pow_sub_one]
  by_cases h : j < 32
  · have : j < 96 := by omega
    simp [h, this]
  · simp [h]

theorem getElem_low32 (j : Nat) (h : j < 96) : (4294967295#96)[j] = decide (j < 32) := by
  rw [← getLsbD_low32, BitVec.getLsbD_eq_getElem h]

theorem setMaskWord_self (m : Mask) (i : Nat) (w : Word) (h : i < 3) : (setMaskWord m i w).extractLsb' (32 * i) 32 = w := by
  apply BitVec.eq_of_getLsbD_eq
  intro j hj
  have h1 : 32 * i + j < 96 := by omega
  simp [setMaskWord, hj, h1, getLsbD_low32]

theorem setMaskWord_other (m : Mask) (i j : Nat) (w : Word) (h : i ≠ j) :
    (setMaskWord m i w).extractLsb' (32 * j) 32 = m.extractLsb' (32 * j) 32 := by
  apply BitVec.eq_of_getLsbD_eq
  intro b hb
  by_cases h1 : 32 * j + b < 96
  · by_cases h2 : 32 * j + b < 32 * i
    · simp [setMaskWord, hb, h1, h2]
    · have h3 : ¬32 * j + b - 32 * i < 32 := by omega
      have h5 : w.getLsbD (32 * j + b - 32 * i) = false := BitVec.getLsbD_of_ge _ _ (by omega)
      simp [setMaskWord, hb, h1, h2, h3, h5, getElem_low32]
  · have : m.getLsbD (32 * j + b) = false := BitVec.getLsbD_of_ge _ _ (by omega)
    simp [setMaskWord, h1, this]

@[simp] theorem Sheet.race_raw (sh : Sheet) (key k : RegKey) : (sh.race key).raw k = sh.raw k := by cases k <;> rfl

@[simp] theorem Sheet.race_apart (sh : Sheet) (key : RegKey) : (sh.race key).apart = sh.apart := by
  unfold Sheet.race Sheet.apart
  simp only [List.map_map]
  congr 1
  apply List.map_congr_left
  intro l _
  simp only [Function.comp, LL.unmarked, List.map_map]
  congr 1
  apply List.map_congr_left
  intro o _
  simp only [Function.comp]
  split <;> rfl

@[simp] theorem Sheet.setReg_apart (sh : Sheet) (key : RegKey) (w : Word) : (sh.setReg key w).apart = sh.apart := by
  cases key with
  | v r l => rfl
  | s n =>
    unfold Sheet.setReg
    simp only
    split
    · rfl
    · split <;> rfl
  | q n => rfl

/-- A register written reads as written; S63 reads 0, and every other register as before. -/
theorem Sheet.raw_setReg (sh : Sheet) (key k : RegKey) (w : Word) (hk : key.real) (hk' : k.real) :
    (sh.setReg key w).raw k =
      if key = k then (match key with | .s n => if n < 63 then w else 0 | _ => w) else sh.raw k := by
  cases key with
  | v r l =>
    cases k with
    | v r' l' =>
      simp only [RegKey.real] at hk hk'
      by_cases h : r = r' ∧ l = l'
      · obtain ⟨rfl, rfl⟩ := h; simp [Sheet.setReg, Sheet.raw]
      · have : 96 * r' + l' ≠ 96 * r + l := by omega
        have h' : RegKey.v r l ≠ RegKey.v r' l' := by simpa using h
        simp [Sheet.setReg, Sheet.raw, this, h']
    | s n => rfl
    | q n => rfl
  | s n =>
    cases k with
    | v r l =>
      simp only [Sheet.setReg, reduceCtorEq, if_false]
      split
      · rfl
      · split <;> rfl
    | q m =>
      simp only [Sheet.setReg, reduceCtorEq, if_false]
      split
      · rfl
      · split <;> rfl
    | s m =>
      by_cases h : n = m
      · subst h
        by_cases h1 : n < 60
        · have : n < 63 := by omega
          simp [Sheet.setReg, Sheet.raw, h1, this]
        · by_cases h2 : n < 63
          · simp only [Sheet.setReg, Sheet.raw, h1, h2, if_true, if_false]
            exact setMaskWord_self _ _ _ (by omega)
          · simp [Sheet.raw, h1, h2]
      · have h' : RegKey.s n ≠ RegKey.s m := by simpa using h
        simp only [h', if_false]
        by_cases h1 : n < 60
        · by_cases h2 : m < 60 <;> simp [Sheet.setReg, Sheet.raw, h1, h2, Ne.symm h]
        · by_cases h2 : n < 63
          · by_cases h3 : m < 60
            · simp [Sheet.setReg, Sheet.raw, h1, h2, h3]
            · by_cases h4 : m < 63
              · simp only [Sheet.setReg, Sheet.raw, h1, h2, h3, h4, if_true, if_false]
                exact setMaskWord_other _ _ _ _ (by omega)
              · simp [Sheet.raw, h3, h4]
          · simp [Sheet.setReg, Sheet.raw, h1, h2]
  | q n =>
    cases k with
    | v r l => rfl
    | s m => rfl
    | q m =>
      by_cases h : n = m
      · subst h; simp [Sheet.setReg, Sheet.raw]
      · have h' : RegKey.q n ≠ RegKey.q m := by simpa using h
        simp [Sheet.setReg, Sheet.raw, Ne.symm h, h']

/-! ### A quire -/

/-- `q'` is quire `q`, with own sheet `sh`, after sheet `k` wrote `ws` in cycle `cyc`. -/
structure Wrote (q q' : Quire) (k cyc : Nat) (sh : Sheet) (ws : List (RegKey × Word)) : Prop where
  apart  : q'.apart = q.apart
  ranks  : ∀ n, q'.outranked k cyc n = q.outranked k cyc n
  qs     : ∀ n, q'.q.get 0 n =
    match lastWrite ws (.q n) with
    | some w => landed q k cyc (.q n) w
    | none => q.q.get 0 n
  others : ∀ j, j ≠ k → (q'.sheets.find j).map Sheet.lessQ = (q.sheets.find j).map Sheet.lessQ
  own    : ∃ sh', q'.sheets.find k = some sh' ∧ sh'.apart = sh.apart ∧
    ∀ key, key.real → sh'.raw key =
      match lastWrite ws key with
      | some w => landed q k cyc key w
      | none => sh.raw key

theorem Wrote.nil {q : Quire} {k cyc : Nat} {sh : Sheet} (h : q.sheets.find k = some sh) : Wrote q q k cyc sh [] :=
  ⟨rfl, fun _ => rfl, fun _ => rfl, fun _ _ => rfl, sh, h, rfl, fun _ _ => rfl⟩

/-- The view of a Q register set in every sheet of a list. -/
theorem showQ_foldl (js : List Nat) (q : Quire) (n : Nat) (v : Word) :
    (js.foldl (fun q j => q.showQ j n v) q).apart = q.apart ∧
      (∀ j, ((js.foldl (fun q j => q.showQ j n v) q).sheets.find j).map Sheet.lessQ = (q.sheets.find j).map Sheet.lessQ) ∧
      (∀ j, j ∉ js → (js.foldl (fun q j => q.showQ j n v) q).sheets.find j = q.sheets.find j) := by
  induction js generalizing q with
  | nil => exact ⟨rfl, fun _ => rfl, fun _ _ => rfl⟩
  | cons a js ih =>
    obtain ⟨h1, h4, h5⟩ := ih (q.showQ a n v)
    refine ⟨h1, fun j => (h4 j).trans ?_, fun j hj => ?_⟩
    · by_cases h : j = a
      · subst h
        simp only [Quire.showQ, Quire.modSheet, Tab.find_upd_self, Option.map_map]
        rfl
      · simp only [Quire.showQ, Quire.modSheet, Tab.find_upd_other _ _ h]
    · rw [List.mem_cons, not_or] at hj
      exact (h5 j hj.2).trans (by simp only [Quire.showQ, Quire.modSheet, Tab.find_upd_other _ _ hj.1])

theorem Quire.rivals_self (q : Quire) (k cyc n : Nat) : k ∉ q.rivals k cyc n := by
  unfold Quire.rivals
  split
  · split <;> simp
  · simp

theorem Quire.rivals_any (q : Quire) (k cyc n : Nat) : (q.rivals k cyc n).any (k < ·) = q.outranked k cyc n := by
  unfold Quire.rivals Quire.outranked
  cases q.qw.find n with
  | none => rfl
  | some x =>
    obtain ⟨c, ks, pv⟩ := x
    by_cases hc : c = cyc
    · simp only [hc, if_true, beq_self_eq_true, Bool.true_and, List.any_filter]
      congr 1
      funext x
      by_cases hx : k < x
      · have : x ≠ k := by omega
        simp [this]
      · simp [hx]
    · simp [hc]

/-- A Q register written: its value, who has written it, and what the sheets see. -/
theorem Quire.writeQ_spec (q : Quire) (k cyc n : Nat) (w : Word) :
    let v := if q.outranked k cyc n then q.q.get 0 n else w
    (q.writeQ k cyc n w).apart = q.apart ∧ (q.writeQ k cyc n w).q = q.q.set 0 n v ∧
      (q.writeQ k cyc n w).qw = q.qw.put n ⟨cyc, k :: q.rivals k cyc n, q.before cyc n⟩ ∧
      (∀ j, ((q.writeQ k cyc n w).sheets.find j).map Sheet.lessQ = (q.sheets.find j).map Sheet.lessQ) ∧
      (q.writeQ k cyc n w).sheets.find k = (q.sheets.find k).map fun sh => { sh with qv := sh.qv.set 0 n v } := by
  intro v
  have hv : (if (q.rivals k cyc n).any (k < ·) then q.q.get 0 n else w) = v := by rw [Quire.rivals_any]
  obtain ⟨h1, h2, h3⟩ := showQ_foldl (q.rivals k cyc n) (q.showQ k n v) n v
  refine ⟨?_, ?_, rfl, fun j => ?_, ?_⟩
  · simp only [Quire.writeQ, hv]; exact h1
  · simp only [Quire.writeQ, hv]
  · simp only [Quire.writeQ, hv, List.foldl_cons]
    refine (h2 j).trans ?_
    by_cases h : j = k
    · subst h
      simp only [Quire.showQ, Quire.modSheet, Tab.find_upd_self, Option.map_map]
      rfl
    · simp only [Quire.showQ, Quire.modSheet, Tab.find_upd_other _ _ h]
  · simp only [Quire.writeQ, hv, List.foldl_cons]
    rw [h3 k (Quire.rivals_self q k cyc n)]
    simp only [Quire.showQ, Quire.modSheet, Tab.find_upd_self]

theorem Wrote.write {q q' : Quire} {k cyc : Nat} {sh : Sheet} {ws : List (RegKey × Word)} (H : Wrote q q' k cyc sh ws)
    (key : RegKey) (w : Word) (hr : key.real) : Wrote q (q'.write k cyc key w) k cyc sh (ws ++ [(key, w)]) := by
  obtain ⟨sh', hf, ha, hv⟩ := H.own
  have base : ∀ key' : RegKey, key'.real → ((sh'.race key).setReg key w).raw key' =
      if key = key' then (match key with | .s n => if n < 63 then w else 0 | _ => w) else sh'.raw key' := fun key' h => by
    rw [Sheet.raw_setReg _ _ _ _ hr h, Sheet.race_raw]
  cases key with
  | v r l =>
    refine ⟨H.apart, H.ranks, fun n => ?_, fun j hj => ?_, (sh'.race (.v r l)).setReg (.v r l) w, ?_, ?_, fun key' h => ?_⟩
    · rw [lastWrite_append]; simpa [Quire.write, Quire.modSheet] using H.qs n
    · rw [← H.others j hj]; simp only [Quire.write, Quire.modSheet, Tab.find_upd_other _ _ hj]
    · simp only [Quire.write, Quire.modSheet, Tab.find_upd_self, hf, Option.map_some]
    · rw [Sheet.setReg_apart, Sheet.race_apart, ha]
    · rw [base key' h, lastWrite_append]
      split
      · rename_i e; subst e; rfl
      · exact hv key' h
  | s n =>
    refine ⟨H.apart, H.ranks, fun n => ?_, fun j hj => ?_, (sh'.race (.s n)).setReg (.s n) w, ?_, ?_, fun key' h => ?_⟩
    · rw [lastWrite_append]; simpa [Quire.write, Quire.modSheet] using H.qs n
    · rw [← H.others j hj]; simp only [Quire.write, Quire.modSheet, Tab.find_upd_other _ _ hj]
    · simp only [Quire.write, Quire.modSheet, Tab.find_upd_self, hf, Option.map_some]
    · rw [Sheet.setReg_apart, Sheet.race_apart, ha]
    · rw [base key' h, lastWrite_append]
      split
      · rename_i e; subst e; rfl
      · exact hv key' h
  | q n =>
    obtain ⟨a1, a2, a3, a4, a5⟩ := (q'.modSheet k fun sh => (sh.race (.q n)).setReg (.q n) w).writeQ_spec k cyc n w
    have hval : (if (q'.modSheet k fun sh => (sh.race (.q n)).setReg (.q n) w).outranked k cyc n then
        (q'.modSheet k fun sh => (sh.race (.q n)).setReg (.q n) w).q.get 0 n else w) = landed q k cyc (.q n) w := by
      show (if q'.outranked k cyc n then q'.q.get 0 n else w) = _
      rw [H.ranks n, H.qs n, landed]
      split
      · rename_i ho
        split
        · simp [landed, ho]
        · rfl
      · rfl
    rw [hval] at a2 a5
    refine ⟨a1.trans H.apart, fun m => ?_, fun m => ?_, fun j hj => ?_,
      { (sh'.race (.q n)).setReg (.q n) w with
        qv := ((sh'.race (.q n)).setReg (.q n) w).qv.set 0 n (landed q k cyc (.q n) w) }, ?_, ?_, fun key' h => ?_⟩
    · rw [← H.ranks m]
      by_cases hm : m = n
      · subst hm
        rw [← Quire.rivals_any q']
        simp only [Quire.write, Quire.outranked, a3, Tab.find_put_self, beq_self_eq_true, Bool.true_and, List.any_cons,
          Nat.lt_irrefl, decide_false, Bool.false_or]
        rfl
      · simp only [Quire.write, Quire.outranked, a3, Tab.find_put_other _ _ hm]
        rfl
    · rw [lastWrite_append]
      simp only [Quire.write, a2]
      by_cases hm : m = n
      · subst hm; simp
      · have hm' : RegKey.q n ≠ RegKey.q m := by simpa using Ne.symm hm
        simp only [Tab.get_set_other _ _ _ hm, hm', if_false]
        exact H.qs m
    · rw [← H.others j hj]
      refine (a4 j).trans ?_
      simp only [Quire.modSheet, Tab.find_upd_other _ _ hj]
    · refine a5.trans ?_
      simp only [Quire.modSheet, Tab.find_upd_self, hf, Option.map_some]
    · exact (Sheet.setReg_apart _ _ _).trans ((Sheet.race_apart _ _).trans ha)
    · rw [lastWrite_append]
      by_cases hq : RegKey.q n = key'
      · subst hq; simp [Sheet.raw]
      · simp only [hq, if_false]
        rw [← hv key' h, ← Sheet.race_raw sh' (.q n) key']
        cases key' with
        | v r l => rfl
        | s m => rfl
        | q m =>
          have : m ≠ n := fun e => hq (by rw [e])
          simp [Sheet.raw, Sheet.setReg, this]

/-- Registers written by a sheet, one after another. -/
theorem Wrote.foldl {q q' : Quire} {k cyc : Nat} {sh : Sheet} {ws : List (RegKey × Word)} (H : Wrote q q' k cyc sh ws)
    (vs : List (RegKey × Word)) (hr : ∀ w ∈ vs, w.1.real) :
    Wrote q (vs.foldl (fun q w => q.write k cyc w.1 w.2) q') k cyc sh (ws ++ vs) := by
  induction vs generalizing q' ws with
  | nil => simpa using H
  | cons v vs ih =>
    have := ih (H.write v.1 v.2 (hr v List.mem_cons_self)) fun w hw => hr w (List.mem_cons_of_mem _ hw)
    simpa using this

end Sys2Proof.Machine
end

