-- ==== Sys2Proof/Laws/Frame.lean ====
section
/-! SUPPORT. What a word of the sheet in issue leaves as it was: `Changes` and `Acts` for states that edit the word's own
quire, write registers, and go on, wait or transfer. -/

namespace Sys2Proof.Machine

/-! ### The sheet in issue -/

/-- What the sheet in issue sees is what stands in the state. -/
theorem Live.spec {s : State} {e : Env} (L : Live s e) :
    s.cur = some e.r ∧ s.quires.find e.r.h = some e.q ∧ e.q.sheets.find e.r.k = some e.sh ∧ e.q.phase = .resident ∧
      e.sh.ready = true ∧ e.cx = s.ctx e.q.ctx ∧ e.fr = s.free := by
  unfold Live State.env? at L
  split at L
  · simp at L
  · rename_i r hr
    split at L
    · simp at L
    · rename_i q hq
      split at L
      · simp at L
      · rename_i sh hs
        split at L
        · rename_i hc
          cases L
          exact ⟨hr, hq, hs, hc.1, hc.2, rfl, rfl⟩
        · simp at L

theorem Live.cur {s : State} {e : Env} (L : Live s e) : s.cur = some e.r := L.spec.1
theorem Live.find {s : State} {e : Env} (L : Live s e) : s.quires.find e.r.h = some e.q := L.spec.2.1
theorem Live.sheet {s : State} {e : Env} (L : Live s e) : e.q.sheets.find e.r.k = some e.sh := L.spec.2.2.1

/-! ### What a byte of memory depends on -/

/-- The parts of the quires that memory windows show. -/
def State.views (s : State) : List (Nat × Quire) := s.quires.map fun x => (x.1, x.2.apart)

theorem State.onCore_views (s : State) (core : Nat) :
    ({ s with quires := s.views } : State).onCore core = (s.onCore core).map fun x => (x.1, x.2.apart) := by
  unfold State.onCore State.views
  rw [List.filter_map]
  rfl

theorem State.readWin_views (s : State) (core off : Nat) :
    ({ s with quires := s.views } : State).readWin core off = s.readWin core off := by
  have hc : ({ s with quires := s.views } : State).chamOwner core off = (s.chamOwner core off).map fun x => (x.1, x.2.apart) := by
    unfold State.chamOwner
    rw [State.onCore_views, List.find?_map]
    rfl
  have ht : ∀ k, ({ s with quires := s.views } : State).tileOwner core k = (s.tileOwner core k).map fun x => (x.1.apart, x.2) := by
    intro k
    unfold State.tileOwner
    rw [State.onCore_views, List.findSome?_map]
    generalize s.onCore core = l
    induction l with
    | nil => rfl
    | cons x l ih =>
      simp only [List.findSome?_cons, Function.comp, Quire.apart]
      cases x.2.tileAt.findIdx? (· == k) with
      | none => exact ih
      | some i => rfl
  unfold State.readWin
  split
  · rw [hc]; cases s.chamOwner core off <;> rfl
  · split
    · simp only [ht]
      cases s.tileOwner core ((off - 524288) / 131072) <;> rfl
    · split
      · simp only [State.onCore_views, List.find?_map]
        generalize s.onCore core = l
        have : ((fun x : Nat × Quire => decide (x.2.arrAt * 256 ≤ (off - 0xC0000) / 4) &&
              decide ((off - 0xC0000) / 4 < (x.2.arrAt + x.2.wmag) * 256)) ∘ fun x : Nat × Quire => (x.1, x.2.apart)) =
            fun x : Nat × Quire => decide (x.2.arrAt * 256 ≤ (off - 0xC0000) / 4) &&
              decide ((off - 0xC0000) / 4 < (x.2.arrAt + x.2.wmag) * 256) := rfl
        rw [this]
        cases l.find? (fun x : Nat × Quire => decide (x.2.arrAt * 256 ≤ (off - 0xC0000) / 4) &&
              decide ((off - 0xC0000) / 4 < (x.2.arrAt + x.2.wmag) * 256)) <;> rfl
      · rfl

theorem State.readWin_congr {s t : State} (h : t.views = s.views) (core off : Nat) : t.readWin core off = s.readWin core off := by
  rw [← State.readWin_views s, ← State.readWin_views t, h]
  rfl

/-- A byte reads the same in two states with the same memory, retired channels, partitions and views of the quires. -/
theorem State.readByte_congr {s t : State} (hm : t.mem = s.mem) (hr : t.retired = s.retired) (hp : t.parts = s.parts)
    (hv : t.views = s.views) (a : Nat) : t.readByte a = s.readByte a := by
  have hreg : t.region a = s.region a := by unfold State.region State.hbmTop; rw [hr]
  unfold State.readByte
  rw [hreg]
  split
  · rw [hm]
  · rw [hm]
  · exact State.readWin_congr hv _ _
  · simp only [State.part, hp]
  · rfl

/-! ### Edits of the word's own quire -/

theorem Tab.upd_id {α : Type} (t : Tab α) (n : Nat) : t.upd n id = t := by
  induction t with
  | nil => rfl
  | cons e t ih => obtain ⟨k, v⟩ := e; rw [Tab.upd_cons, ih]; split <;> rfl

theorem Tab.upd_upd {α : Type} (t : Tab α) (n : Nat) (f g : α → α) : (t.upd n f).upd n g = t.upd n (g ∘ f) := by
  induction t with
  | nil => rfl
  | cons e t ih =>
    obtain ⟨k, v⟩ := e
    rw [Tab.upd_cons, Tab.upd_cons]
    split
    · rename_i h; rw [Tab.upd_cons, if_pos h, ih]; rfl
    · rename_i h; rw [Tab.upd_cons, if_neg h, ih]

/-- `t` is `s` with quire `h` changed by `g`, which leaves its own parts alone, and sheets in progress changed. -/
structure Edit (s t : State) (h : Nat) (g : Quire → Quire) : Prop where
  module : t.apart = s.apart
  cores  : ∀ n, (t.core n).apart = (s.core n).apart
  quires : t.quires = s.quires.upd h g
  own    : ∀ q, (g q).apart = q.apart

theorem Edit.refl (s : State) (h : Nat) : Edit s s h id := ⟨rfl, fun _ => rfl, (Tab.upd_id _ _).symm, fun _ => rfl⟩

theorem Edit.trans {s t u : State} {h : Nat} {g g' : Quire → Quire} (A : Edit s t h g) (B : Edit t u h g') :
    Edit s u h (g' ∘ g) :=
  ⟨B.module.trans A.module, fun n => (B.cores n).trans (A.cores n), by rw [B.quires, A.quires, Tab.upd_upd],
    fun q => (B.own _).trans (A.own q)⟩

theorem Edit.modQuire (s : State) (h : Nat) (g : Quire → Quire) (hg : ∀ q, (g q).apart = q.apart) :
    Edit s (s.modQuire h g) h g := ⟨rfl, fun _ => rfl, rfl, hg⟩

theorem Edit.modSheet (s : State) (r : SheetRef) (f : Sheet → Sheet) :
    Edit s (s.modSheet r f) r.h fun q => q.modSheet r.k f := Edit.modQuire _ _ _ fun _ => rfl

theorem Edit.next (s : State) (h n : Nat) : Edit s { s with next := n } h id :=
  ⟨rfl, fun _ => rfl, (Tab.upd_id _ _).symm, fun _ => rfl⟩

theorem Edit.stores (s : State) (h : Nat) (x : List StoreRec) : Edit s { s with stores := x } h id :=
  ⟨rfl, fun _ => rfl, (Tab.upd_id _ _).symm, fun _ => rfl⟩

theorem Quire.write_apart (q : Quire) (k cyc : Nat) (key : RegKey) (w : Word) : (q.write k cyc key w).apart = q.apart := by
  cases key with
  | v r l => rfl
  | s n => rfl
  | q n => exact (Quire.writeQ_spec _ k cyc n w).1

theorem Quire.writes_apart (ws : List (RegKey × Word)) (q : Quire) (k cyc : Nat) :
    (ws.foldl (fun q w => q.write k cyc w.1 w.2) q).apart = q.apart := by
  induction ws generalizing q with
  | nil => rfl
  | cons w ws ih => exact (ih _).trans (q.write_apart k cyc w.1 w.2)

theorem Quire.writes_core (ws : List (RegKey × Word)) (q : Quire) (k cyc : Nat) :
    (ws.foldl (fun q w => q.write k cyc w.1 w.2) q).core = q.core := by
  have h := congrArg Quire.core (Quire.writes_apart ws q k cyc)
  exact h

/-- `writeRegs` computes the cycle of each write from a core number that no write changes. -/
theorem Edit.writeRegs (s : State) (r : SheetRef) (ws : List (RegKey × Word)) :
    Edit s (s.writeRegs r ws) r.h fun q => ws.foldl (fun p w => p.write r.k (s.cycles q.core) w.1 w.2) q := by
  have key : ∀ (ws : List (RegKey × Word)) (q p : Quire), p.core = q.core →
      ws.foldl (fun p w => p.write r.k (s.cycles p.core) w.1 w.2) p =
        ws.foldl (fun p w => p.write r.k (s.cycles q.core) w.1 w.2) p := by
    intro ws
    induction ws with
    | nil => intros; rfl
    | cons w ws ih =>
      intro q p h
      simp only [List.foldl_cons, h]
      have hp := congrArg Quire.core (p.write_apart r.k (s.cycles q.core) w.1 w.2)
      exact ih q _ (Eq.trans hp h)
  refine ⟨rfl, fun _ => rfl, ?_, fun q => Quire.writes_apart ws q _ _⟩
  unfold State.writeRegs State.modQuire
  simp only
  congr 1
  funext q
  exact key ws q q rfl

theorem Core.unprog_apart (c : Core) (lb : Nat) (r : SheetRef) : (c.unprog lb r).apart = c.apart := by
  unfold Core.unprog; split <;> rfl

theorem State.modCore_apart (s : State) (c n : Nat) (f : Core → Core) (hf : ∀ x, (f x).apart = x.apart) :
    ((s.modCore c f).core n).apart = (s.core n).apart := by
  by_cases hn : n = c
  · subst hn; simp only [State.core, State.modCore, Tab.get_put_self]; exact hf _
  · simp only [State.core, State.modCore, Tab.get_put_other _ _ _ hn]

theorem Edit.leave (s : State) (h : Nat) : Edit s s.leave h id := by
  refine ⟨?_, fun n => ?_, ?_, fun _ => rfl⟩ <;> unfold State.leave <;> split
  · rfl
  · split <;> rfl
  · rfl
  · split
    · rfl
    · rename_i q _
      exact State.modCore_apart s q.core n (·.unprog _ _) fun c => c.unprog_apart _ _
  · exact (Tab.upd_id _ _).symm
  · rw [Tab.upd_id]; split <;> rfl

theorem Edit.cycles {s t : State} {h : Nat} {g : Quire → Quire} (E : Edit s t h g) (core : Nat) : t.cycles core = s.cycles core := by
  have h1 := congrArg State.dies E.module
  have h2 := congrArg State.now E.module
  simp only [State.apart] at h1 h2
  unfold State.cycles State.die
  rw [h1, h2]

theorem Edit.views {s t : State} {h : Nat} {g : Quire → Quire} (E : Edit s t h g) : t.views = s.views := by
  unfold State.views
  rw [E.quires]
  unfold Tab.upd
  rw [List.map_map]
  refine List.map_congr_left fun x _ => ?_
  simp only [Function.comp]
  split
  · rw [E.own]
  · rfl

/-- An edit of the word's own quire that wrote registers is a `Changes`. -/
theorem Edit.changes {s t : State} {e : Env} {g : Quire → Quire} {f : Sheet → Sheet} {ws : List (RegKey × Word)}
    (L : Live s e) (E : Edit s t e.r.h g) (q0 : Quire) (h1 : q0.q = e.q.q) (h2 : q0.qw = e.q.qw)
    (h3 : ∀ k, k ≠ e.r.k → (q0.sheets.find k).map Sheet.lessQ = (e.q.sheets.find k).map Sheet.lessQ)
    (W : Wrote q0 (g e.q) e.r.k (s.cycles e.q.core) (f e.sh) ws) : Changes s t e ws f := by
  have hl : ∀ key w, landed q0 e.r.k (s.cycles e.q.core) key w = landed e.q e.r.k (s.cycles e.q.core) key w := by
    intro key w
    cases key with
    | v r l => rfl
    | s n => rfl
    | q n =>
      have : q0.outranked e.r.k (s.cycles e.q.core) n = e.q.outranked e.r.k (s.cycles e.q.core) n := by
        unfold Quire.outranked; rw [h2]
      simp only [landed, this, h1]
  have m1 := congrArg State.mem E.module
  have m2 := congrArg State.retired E.module
  have m3 := congrArg State.parts E.module
  obtain ⟨sh, hs, ha, hr⟩ := W.own
  refine ⟨E.module, E.cores, fun h hh => by rw [E.quires, Tab.find_upd_other _ _ hh],
    ⟨g e.q, by rw [E.quires, Tab.find_upd_self, L.find]; rfl, E.own _, fun n => ?_, fun k hk => ?_, sh, hs, ha, fun key hk => ?_⟩,
    State.readByte_congr m1 m2 m3 E.views⟩
  · rw [W.qs n, h1]
    cases lastWrite ws (.q n) with
    | none => rfl
    | some w => exact hl _ w
  · rw [W.others k hk, h3 k hk]
  · rw [hr key hk]
    cases lastWrite ws key with
    | none => rfl
    | some w => exact hl _ w

/-! ### Sheets that go on -/

/-- A change of a sheet that leaves its registers alone and does not look at them. -/
structure Steady (a : Sheet → Sheet) : Prop where
  apart : ∀ x y : Sheet, x.apart = y.apart → (a x).apart = (a y).apart
  raw   : ∀ (x : Sheet) key, (a x).raw key = x.raw key

theorem Steady.id : Steady id := ⟨fun _ _ h => h, fun _ _ => rfl⟩
theorem Steady.comp {a b : Sheet → Sheet} (A : Steady a) (B : Steady b) : Steady (a ∘ b) :=
  ⟨fun _ _ h => A.apart _ _ (B.apart _ _ h), fun x key => (A.raw _ key).trans (B.raw x key)⟩
theorem raw_congr {x y : Sheet} (hv : x.v = y.v) (hs : x.s = y.s) (he : x.exm = y.exm) (hq : x.qv = y.qv) (key : RegKey) :
    x.raw key = y.raw key := by
  cases key <;> simp only [Sheet.raw, hv, hs, he, hq]

theorem Sheet.advance_apart (x : Sheet) (now : Nat) : (x.advance now).apart = x.apart.advance now := by
  unfold Sheet.advance Sheet.apart
  simp only
  split <;> rfl
theorem Steady.advance (now : Nat) : Steady (·.advance now) :=
  ⟨fun x y h => by rw [Sheet.advance_apart, Sheet.advance_apart, h],
    fun x key => by
      unfold Sheet.advance
      split <;> exact raw_congr rfl rfl rfl rfl key⟩
theorem Steady.jump (a : DWord) (cyc : Nat) : Steady (·.jump a cyc) :=
  ⟨fun _ _ h => congrArg (Sheet.jump · a cyc) h, fun _ key => raw_congr rfl rfl rfl rfl key⟩
theorem Steady.wait (w : Wait) : Steady fun sh => { sh with wait := w } :=
  ⟨fun _ _ h => congrArg (fun sh : Sheet => { sh with wait := w }) h, fun _ key => raw_congr rfl rfl rfl rfl key⟩
theorem Steady.raise (c : Cond) : Steady (·.raise c) :=
  ⟨fun _ _ h => congrArg (Sheet.raise · c) h, fun _ key => raw_congr rfl rfl rfl rfl key⟩
theorem Sheet.llOpen_apart (x : Sheet) (l : LL) : (x.llOpen l).apart = x.apart.llOpen l.unmarked := by
  unfold Sheet.llOpen Sheet.apart
  rw [List.map_append]
  rfl
theorem Steady.llOpen (l : LL) : Steady (·.llOpen l) :=
  ⟨fun x y h => by rw [Sheet.llOpen_apart, Sheet.llOpen_apart, h], fun _ key => raw_congr rfl rfl rfl rfl key⟩

theorem Wrote.steady {q q' : Quire} {k cyc : Nat} {sh : Sheet} {ws : List (RegKey × Word)} {a : Sheet → Sheet}
    (W : Wrote q q' k cyc sh ws) (S : Steady a) : Wrote q (q'.modSheet k a) k cyc (a sh) ws := by
  obtain ⟨sh', hf, ha, hr⟩ := W.own
  refine ⟨W.apart, W.ranks, W.qs, fun j hj => ?_, a sh', ?_, S.apart _ _ ha, fun key hk => ?_⟩
  · rw [← W.others j hj]; simp only [Quire.modSheet, Tab.find_upd_other _ _ hj]
  · simp only [Quire.modSheet, Tab.find_upd_self, hf, Option.map_some]
  · rw [S.raw, S.raw, hr key hk]

/-- A quire whose own sheet was changed by `f` and then wrote registers. -/
theorem Wrote.of_sheet {q : Quire} {k cyc : Nat} {sh : Sheet} (hf : q.sheets.find k = some sh) (f : Sheet → Sheet)
    (ws : List (RegKey × Word)) (hr : ∀ w ∈ ws, w.1.real) :
    Wrote (q.modSheet k f) (ws.foldl (fun p w => p.write k cyc w.1 w.2) (q.modSheet k f)) k cyc (f sh) ws := by
  have : (q.modSheet k f).sheets.find k = some (f sh) := by simp only [Quire.modSheet, Tab.find_upd_self, hf, Option.map_some]
  simpa using (Wrote.nil this).foldl ws hr

theorem modSheet_others (q : Quire) (k : Nat) (f : Sheet → Sheet) (j : Nat) (hj : j ≠ k) :
    ((q.modSheet k f).sheets.find j).map Sheet.lessQ = (q.sheets.find j).map Sheet.lessQ := by
  simp only [Quire.modSheet, Tab.find_upd_other _ _ hj]

/-- The state of a word's sheet in a state that edits its quire. -/
theorem Edit.sheet? {s t : State} {e : Env} {g : Quire → Quire} (L : Live s e) (E : Edit s t e.r.h g) :
    t.sheet? e.r = (g e.q).sheets.find e.r.k := by
  unfold State.sheet?
  rw [E.quires, Tab.find_upd_self, L.find]
  rfl

theorem State.leave_cur (s : State) : s.leave.cur = none := by
  unfold State.leave
  split
  · rename_i h; exact h
  · split <;> rfl

/-- What a word left, and the sheet on past it. -/
theorem Edit.acts {s t : State} {e : Env} {g : Quire → Quire} {f : Sheet → Sheet} {ws : List (RegKey × Word)} {n : Nat}
    (L : Live s e) (E : Edit s t e.r.h g) (q0 : Quire) (h1 : q0.q = e.q.q) (h2 : q0.qw = e.q.qw)
    (h3 : ∀ k, k ≠ e.r.k → (q0.sheets.find k).map Sheet.lessQ = (e.q.sheets.find k).map Sheet.lessQ)
    (W : Wrote q0 (g e.q) e.r.k (s.cycles e.q.core) (f e.sh) ws) (hn : t.next = s.next + n) (hs : t.stores = s.stores)
    (hc : t.cur = s.cur) : Acts s (t.advance e) e ws f n := by
  have hcyc : t.cycles e.q.core = s.cycles e.q.core := E.cycles _
  have W' := W.steady (Steady.advance (s.cycles e.q.core))
  have E' := E.trans (Edit.modSheet t e.r fun sh => sh.advance (s.cycles e.q.core))
  have Ch := E'.changes (f := fun sh => (f sh).advance (s.cycles e.q.core)) L q0 h1 h2 h3 W'
  have hidx : ((t.modSheet e.r fun sh => sh.advance (s.cycles e.q.core)).sheet? e.r).any (·.idx == 0) =
      (((f e.sh).advance (s.cycles e.q.core)).idx == 0) := by
    obtain ⟨sh, hf, ha, -⟩ := W'.own
    have h := congrArg Sheet.idx ha
    rw [E'.sheet? L]
    show ((_ : Option Sheet)).any _ = _
    simp only [Function.comp, hf, Option.any_some]
    simp only [Sheet.apart] at h
    rw [h]
  unfold State.advance
  simp only [hcyc, hidx]
  by_cases hi : ((f e.sh).advance (s.cycles e.q.core)).idx = 0
  · simp only [hi, beq_self_eq_true, if_true]
    have E'' := E'.trans (Edit.leave _ _)
    refine ⟨E''.changes (f := fun sh => (f sh).advance (s.cycles e.q.core)) L q0 h1 h2 h3 W', ?_, ?_, ?_⟩
    · simpa using hn
    · simpa using hs
    · rw [State.leave_cur, hi]; rfl
  · simp only [hi, beq_iff_eq, if_false]
    refine ⟨Ch, hn, hs, ?_⟩
    simpa [hi] using hc

/-- A word that changes its sheet, then writes registers. -/
theorem acts_sheet_regs {s : State} {e : Env} (L : Live s e) (f : Sheet → Sheet) (ws : List (RegKey × Word))
    (hr : ∀ w ∈ ws, w.1.real) : Acts s (((s.modSheet e.r f).writeRegs e.r ws).advance e) e ws f 0 :=
  ((Edit.modSheet s e.r f).trans (Edit.writeRegs _ e.r ws)).acts L (e.q.modSheet e.r.k f) rfl rfl (modSheet_others _ _ _)
    (Wrote.of_sheet L.sheet f ws hr) rfl rfl rfl
/-- A word that writes registers. -/
theorem acts_regs {s : State} {e : Env} (L : Live s e) (ws : List (RegKey × Word)) (hr : ∀ w ∈ ws, w.1.real) :
    Acts s ((s.writeRegs e.r ws).advance e) e ws id 0 :=
  (Edit.writeRegs s e.r ws).acts L e.q rfl rfl (fun _ _ => rfl)
    (by simpa using (Wrote.nil L.sheet).foldl ws hr) rfl rfl rfl
/-- A word that changes its sheet. -/
theorem acts_sheet {s : State} {e : Env} (L : Live s e) (f : Sheet → Sheet) :
    Acts s ((s.modSheet e.r f).advance e) e [] f 0 :=
  (Edit.modSheet s e.r f).acts L (e.q.modSheet e.r.k f) rfl rfl (modSheet_others _ _ _)
    (by simpa using Wrote.of_sheet (cyc := s.cycles e.q.core) L.sheet f [] (by simp)) rfl rfl rfl
/-- A word that takes a name and changes its sheet. -/
theorem acts_next {s : State} {e : Env} (L : Live s e) (f : Sheet → Sheet) (n : Nat) :
    Acts s ((({ s with next := s.next + n } : State).modSheet e.r f).advance e) e [] f n :=
  ((Edit.next s e.r.h (s.next + n)).trans (Edit.modSheet _ e.r f)).acts L (e.q.modSheet e.r.k f) rfl rfl (modSheet_others _ _ _)
    (by simpa using Wrote.of_sheet (cyc := s.cycles e.q.core) L.sheet f [] (by simp)) rfl rfl rfl
/-- A word that only goes on. -/
theorem acts_none {s : State} {e : Env} (L : Live s e) : Acts s (s.advance e) e [] id 0 :=
  (Edit.refl s e.r.h).acts L e.q rfl rfl (fun _ _ => rfl) (Wrote.nil L.sheet) rfl rfl rfl
/-- A word that writes registers, then changes its sheet apart from them. -/
theorem acts_regs_sheet {s : State} {e : Env} (L : Live s e) (ws : List (RegKey × Word)) (hr : ∀ w ∈ ws, w.1.real)
    {f : Sheet → Sheet} (S : Steady f) : Acts s (((s.writeRegs e.r ws).modSheet e.r f).advance e) e ws f 0 :=
  ((Edit.writeRegs s e.r ws).trans (Edit.modSheet _ e.r f)).acts L e.q rfl rfl (fun _ _ => rfl)
    ((by simpa using (Wrote.nil L.sheet).foldl ws hr : Wrote e.q _ e.r.k (s.cycles e.q.core) e.sh ws).steady S) rfl rfl rfl

/-! ### Sheets that wait or transfer -/

/-- What a word left, and the sheet past it and waiting. -/
theorem Edit.waits {s t : State} {e : Env} {g : Quire → Quire} {f : Sheet → Sheet} {ws : List (RegKey × Word)} {n : Nat}
    (w : Wait) (L : Live s e) (E : Edit s t e.r.h g) (q0 : Quire) (h1 : q0.q = e.q.q) (h2 : q0.qw = e.q.qw)
    (h3 : ∀ k, k ≠ e.r.k → (q0.sheets.find k).map Sheet.lessQ = (e.q.sheets.find k).map Sheet.lessQ)
    (W : Wrote q0 (g e.q) e.r.k (s.cycles e.q.core) (f e.sh) ws) (hn : t.next = s.next + n) (hs : t.stores = s.stores) :
    Waits s (t.holdAt e w) e ws f w n := by
  have hcyc : t.cycles e.q.core = s.cycles e.q.core := E.cycles _
  have W' := (W.steady (Steady.advance (s.cycles e.q.core))).steady (Steady.wait w)
  unfold State.holdAt State.advance
  simp only [hcyc]
  have E1 := E.trans (Edit.modSheet t e.r fun sh => sh.advance (s.cycles e.q.core))
  split
  · have E2 := ((E1.trans (Edit.leave _ _)).trans (Edit.modSheet _ e.r fun sh => { sh with wait := w })).trans (Edit.leave _ _)
    exact ⟨E2.changes (f := fun sh => { (f sh).advance (s.cycles e.q.core) with wait := w }) L q0 h1 h2 h3 W',
      by simpa using hn, by simpa using hs, State.leave_cur _⟩
  · have E2 := (E1.trans (Edit.modSheet _ e.r fun sh => { sh with wait := w })).trans (Edit.leave _ _)
    exact ⟨E2.changes (f := fun sh => { (f sh).advance (s.cycles e.q.core) with wait := w }) L q0 h1 h2 h3 W',
      by simpa using hn, by simpa using hs, State.leave_cur _⟩

/-- What a word left, and the sheet at a header. -/
theorem Edit.jumps {s t : State} {e : Env} {g : Quire → Quire} {f : Sheet → Sheet} {ws : List (RegKey × Word)} (a : DWord)
    (L : Live s e) (E : Edit s t e.r.h g) (q0 : Quire) (h1 : q0.q = e.q.q) (h2 : q0.qw = e.q.qw)
    (h3 : ∀ k, k ≠ e.r.k → (q0.sheets.find k).map Sheet.lessQ = (e.q.sheets.find k).map Sheet.lessQ)
    (W : Wrote q0 (g e.q) e.r.k (s.cycles e.q.core) (f e.sh) ws) (hn : t.next = s.next) (hs : t.stores = s.stores) :
    Jumps s (t.goto e a) e a ws f := by
  have hcyc : t.cycles e.q.core = s.cycles e.q.core := E.cycles _
  unfold State.goto
  rw [hcyc]
  let c := s.cycles e.q.core
  have E1 := ((E.trans (Edit.modSheet t e.r fun sh => sh.jump a c)).trans
    (Edit.stores _ _ ((t.modSheet e.r fun sh => sh.jump a c).refetch e.r).stores)).trans (Edit.leave _ _)
  refine ⟨E1.changes (f := fun sh => (f sh).jump a c) L q0 h1 h2 h3 (W.steady (Steady.jump a c)), ?_, ?_, State.leave_cur _⟩
  · show ((((t.modSheet e.r fun sh => sh.jump a c).refetch e.r)).leave).next = _
    simpa [State.refetch] using hn
  · show ((((t.modSheet e.r fun sh => sh.jump a c).refetch e.r)).leave).stores = _
    simp [State.refetch, hs]

/-- A word that changes its sheet and waits. -/
theorem waits_sheet {s : State} {e : Env} (L : Live s e) (f : Sheet → Sheet) (w : Wait) :
    Waits s ((s.modSheet e.r f).holdAt e w) e [] f w 0 :=
  (Edit.modSheet s e.r f).waits w L (e.q.modSheet e.r.k f) rfl rfl (modSheet_others _ _ _)
    (by simpa using Wrote.of_sheet (cyc := s.cycles e.q.core) L.sheet f [] (by simp)) rfl rfl
/-- A word that waits. -/
theorem waits_none {s : State} {e : Env} (L : Live s e) (w : Wait) : Waits s (s.holdAt e w) e [] id w 0 :=
  (Edit.refl s e.r.h).waits w L e.q rfl rfl (fun _ _ => rfl) (Wrote.nil L.sheet) rfl rfl
/-- A transfer. -/
theorem jumps_none {s : State} {e : Env} (L : Live s e) (a : DWord) : Jumps s (s.goto e a) e a [] id :=
  (Edit.refl s e.r.h).jumps a L e.q rfl rfl (fun _ _ => rfl) (Wrote.nil L.sheet) rfl rfl
/-- A word that changes its sheet and transfers. -/
theorem jumps_sheet {s : State} {e : Env} (L : Live s e) (f : Sheet → Sheet) (a : DWord) :
    Jumps s ((s.modSheet e.r f).goto e a) e a [] f :=
  (Edit.modSheet s e.r f).jumps a L (e.q.modSheet e.r.k f) rfl rfl (modSheet_others _ _ _)
    (by simpa using Wrote.of_sheet (cyc := s.cycles e.q.core) L.sheet f [] (by simp)) rfl rfl
/-- A word that writes registers, changes its sheet apart from them, and transfers. -/
theorem jumps_regs_sheet {s : State} {e : Env} (L : Live s e) (ws : List (RegKey × Word)) (hr : ∀ w ∈ ws, w.1.real)
    {f : Sheet → Sheet} (S : Steady f) (a : DWord) :
    Jumps s (((s.writeRegs e.r ws).modSheet e.r f).goto e a) e a ws f :=
  ((Edit.writeRegs s e.r ws).trans (Edit.modSheet _ e.r f)).jumps a L e.q rfl rfl (fun _ _ => rfl)
    ((by simpa using (Wrote.nil L.sheet).foldl ws hr : Wrote e.q _ e.r.k (s.cycles e.q.core) e.sh ws).steady S) rfl rfl

end Sys2Proof.Machine
end

