-- ==== Sys2Proof/Laws/Issue.lean ====
section
/-! SUPPORT. One spec lemma for each shared operation of a body word: `issue`, the ends of a word, conditions, and the
register words over their issuers. -/

namespace Sys2Proof.Machine

/-! ### Issue -/

theorem issue_dead (w : Issue) {s : State} (body : Env → Eff) (h : s.env? = none) : issue w s body = .fault .noSheetInIssue := by
  unfold issue; rw [h]

/-- What a word's issue can do: nothing in issue, a trap of R81, the wait of R58, or its own effect. -/
theorem issue_cases (w : Issue) {s : State} {e : Env} (L : Live s e) (body : Env → Eff) :
    issue w s body = .next (Eff.finish e <|
      if w.ll.any (fun fs => e.sh.flagOf fs = 15) then .trap s (e.trapWord cIllegalEncoding)
      else if w.priv && !e.cx.desc.priv then .trap s (e.trapWord cPrivileged)
      else if !e.sh.vOk w.vs then .trap s (e.trapWord cIllegalEncoding)
      else if w.ll.any (fun fs => 63 ≤ e.sh.flags.get 0 (e.sh.flagOf fs)) then .wait s (.issue 15)
      else body e) := by
  unfold Live at L; unfold issue; rw [L]

/-- A word with V operands only. -/
theorem issue_regs {vs : List (Nat × Nat)} {s : State} {e : Env} (L : Live s e) (body : Env → Eff) (h : e.sh.vOk vs = true) :
    issue { vs } s body = .next ((body e).finish e) := by
  rw [issue_cases _ L]; simp [h]
/-- A word without operands that are checked. -/
theorem issue_plain {s : State} {e : Env} (L : Live s e) (body : Env → Eff) : issue {} s body = .next ((body e).finish e) :=
  issue_regs L body rfl
/-- A long-latency word. -/
theorem issue_ll {fs : Bool} {vs : List (Nat × Nat)} {s : State} {e : Env} (L : Live s e) (body : Env → Eff)
    (h : e.sh.vOk vs = true) (hf : e.flagRoom fs) : issue { ll := some fs, vs } s body = .next ((body e).finish e) := by
  have h2 : ¬63 ≤ e.sh.flags.get 0 (e.sh.flagOf fs) := by have := hf.2; omega
  rw [issue_cases _ L]; simp [h, hf.1, h2]
/-- A privileged word. -/
theorem issue_priv {s : State} {e : Env} (L : Live s e) (body : Env → Eff) (h : e.cx.desc.priv = true) :
    issue { priv := true } s body = .next ((body e).finish e) := by
  rw [issue_cases _ L]; simp [h, Sheet.vOk]
/-- A privileged word of a context without privilege. -/
theorem issue_unpriv {s : State} {e : Env} (L : Live s e) (body : Env → Eff) (h : e.cx.desc.priv = false) :
    issue { priv := true } s body = .next (s.trap e.r (e.trapWord cPrivileged)) := by
  rw [issue_cases _ L]; simp [h, Eff.finish]
/-- A long-latency word whose flag set names no flag. -/
theorem issue_noFlag {fs : Bool} {vs : List (Nat × Nat)} {s : State} {e : Env} (L : Live s e) (body : Env → Eff)
    (h : e.sh.flagOf fs = 15) : issue { ll := some fs, vs } s body = .next (s.trap e.r (e.trapWord cIllegalEncoding)) := by
  rw [issue_cases _ L]; simp [h, Eff.finish]
/-- A word with a V operand outside the allocation. -/
theorem issue_noRow {vs : List (Nat × Nat)} {s : State} {e : Env} (L : Live s e) (body : Env → Eff) (h : e.sh.vOk vs = false) :
    issue { vs } s body = .next (s.trap e.r (e.trapWord cIllegalEncoding)) := by
  rw [issue_cases _ L]; simp [h, Eff.finish]

/-! ### Issuers and their registers -/

theorem strandsOf_lt {m : Mask} {i : Nat} (h : i ∈ strandsOf m) : i < 96 := by
  unfold strandsOf at h
  exact List.mem_range.1 (List.mem_filter.1 h).1

theorem uniKey_real (n : Nat) : (uniKey n).real := by unfold uniKey; split <;> trivial

theorem Env.key_real {e : Env} {c : Com} {l : Option Nat} (h : l ∈ e.lanes c) (n : Nat) : (e.key l n).real := by
  unfold Env.lanes at h
  split at h
  · simp only [List.mem_singleton] at h; subst h; exact uniKey_real n
  · simp only [List.mem_map] at h
    obtain ⟨i, hi, rfl⟩ := h
    exact strandsOf_lt hi

theorem Env.dst_real {e : Env} {c : Com} {l : Option Nat} (h : l ∈ e.lanes c) (k n : Nat) (x : DWord) :
    ∀ w ∈ e.dst l k n x, w.1.real := by
  intro w hw
  unfold Env.dst at hw
  split at hw
  · simp at hw
  · simp only [List.mem_singleton] at hw; subst hw; exact e.key_real h n
  · simp only [List.mem_cons, List.not_mem_nil, or_false] at hw
    rcases hw with rfl | rfl
    · exact e.key_real h n
    · exact e.key_real h (n + 1)

/-! ### Conditions -/

theorem condAll_zero (l : List (Option Nat)) (f : Option Nat → Nat) : condAll (l.map fun x => (f x, 0)) = 0 := by
  have : ∀ (l : List (Option Nat)) (c : Cond), (l.map fun x => (f x, (0 : Cond))).foldl (fun c x => c ||| x.2) c = c := by
    intro l
    induction l with
    | nil => intro c; rfl
    | cons a l ih => intro c; simp only [List.map_cons, List.foldl_cons]; rw [ih]; simp
  exact this l 0

theorem condTrap_zero (st : Word) (l : List (Option Nat)) (f : Option Nat → Nat) : condTrap st (l.map fun x => (f x, 0)) = none := by
  unfold condTrap
  rw [List.findSome?_eq_none_iff]
  intro c _
  split
  · rw [List.find?_eq_none.2 (by intro x hx; simp only [List.mem_map] at hx; obtain ⟨_, _, rfl⟩ := hx; simp)]
    rfl
  · rfl

theorem Sheet.raise_zero (sh : Sheet) : sh.raise 0 = sh := by
  unfold Sheet.raise
  simp

/-- A word whose conditions do not trap: SFLAGS takes them, and its destinations are written (R98, R100). -/
theorem condEff_done {e : Env} {s : State} {raised : List (Nat × Cond)} (write : State → State)
    (h : condTrap e.sh.strap raised = none) :
    (condEff e s raised write).finish e = (write (s.modSheet e.r fun sh => sh.raise (condAll raised))).advance e := by
  unfold condEff; rw [h]; rfl
/-- A word one of whose conditions traps: SFLAGS takes them all, and no destination is written (R100). -/
theorem condEff_trap {e : Env} {s : State} {raised : List (Nat × Cond)} (write : State → State) {cause : BitVec 8} {strand : Nat}
    (h : condTrap e.sh.strap raised = some (cause, strand)) :
    (condEff e s raised write).finish e =
      (s.modSheet e.r fun sh => sh.raise (condAll raised)).trap e.r
        (e.trapAt cause e.sh.pc (BitVec.ofNat 32 (e.sh.idx + 16 * strand))) := by
  unfold condEff; rw [h]; rfl

theorem Acts.congr {s t : State} {e : Env} {ws : List (RegKey × Word)} {f g : Sheet → Sheet} {n : Nat}
    (A : Acts s t e ws f n) (h : f e.sh = g e.sh) : Acts s t e ws g n := by
  obtain ⟨C, h1, h2, h3⟩ := A
  refine ⟨⟨C.module, C.cores, C.quires, ?_, C.memory⟩, h1, h2, ?_⟩
  · have := C.quire; simp only [h] at this; exact this
  · simpa only [h] using h3

/-! ### Register words -/

theorem aluWrites_real (e : Env) (w : FR) (nd na nb nc : Nat) (f : DWord → DWord → DWord → DWord → DWord) :
    ∀ x ∈ aluWrites e w nd na nb nc f, x.1.real := by
  intro x hx
  simp only [aluWrites, List.mem_flatMap] at hx
  obtain ⟨l, hl, hx⟩ := hx
  exact e.dst_real hl _ _ _ x hx

theorem alu_next {w : FR} {nd na nb nc : Nat} {f : DWord → DWord → DWord → DWord → DWord × Cond} {s : State} {e : Env}
    (L : Live s e) (hv : e.sh.vOk (aluVs w nd na nb nc) = true) :
    alu w nd na nb nc f s = .next ((condEff e s (aluConds e w nd na nb nc fun a b c d => (f a b c d).2) fun s =>
      s.writeRegs e.r (aluWrites e w nd na nb nc fun a b c d => (f a b c d).1)).finish e) := by
  unfold alu
  unfold aluVs at hv
  rw [issue_regs L _ hv]
  simp only [aluConds, aluWrites, List.map_map, List.flatMap_map]
  rfl

/-- A format R word whose conditions do not trap. -/
theorem alu_acts {w : FR} {nd na nb nc : Nat} {f : DWord → DWord → DWord → DWord → DWord × Cond} {s : State} {e : Env}
    (L : Live s e) (hv : e.sh.vOk (aluVs w nd na nb nc) = true)
    (hc : condTrap e.sh.strap (aluConds e w nd na nb nc fun a b c d => (f a b c d).2) = none) :
    Answers (alu w nd na nb nc f s) fun t => Acts s t e (aluWrites e w nd na nb nc fun a b c d => (f a b c d).1)
      (·.raise (condAll (aluConds e w nd na nb nc fun a b c d => (f a b c d).2))) 0 := by
  refine ⟨_, alu_next L hv, ?_⟩
  rw [condEff_done _ hc]
  exact acts_sheet_regs L _ _ (aluWrites_real _ _ _ _ _ _ _)
/-- A format R word one of whose conditions traps. -/
theorem alu_traps {w : FR} {nd na nb nc : Nat} {f : DWord → DWord → DWord → DWord → DWord × Cond} {s : State} {e : Env}
    {cause : BitVec 8} {strand : Nat} (L : Live s e) (hv : e.sh.vOk (aluVs w nd na nb nc) = true)
    (hc : condTrap e.sh.strap (aluConds e w nd na nb nc fun a b c d => (f a b c d).2) = some (cause, strand)) :
    alu w nd na nb nc f s = .next
      ((s.modSheet e.r fun sh => sh.raise (condAll (aluConds e w nd na nb nc fun a b c d => (f a b c d).2))).trap e.r
        (e.trapAt cause e.sh.pc (BitVec.ofNat 32 (e.sh.idx + 16 * strand)))) := by
  rw [alu_next L hv, condEff_trap _ hc]
/-- A format R word that raises no condition. -/
theorem aluInt_acts {w : FR} {nd na nb nc : Nat} {f : DWord → DWord → DWord → DWord → DWord} {s : State} {e : Env}
    (L : Live s e) (hv : e.sh.vOk (aluVs w nd na nb nc) = true) :
    Answers (aluInt w nd na nb nc f s) fun t => Acts s t e (aluWrites e w nd na nb nc f) id 0 := by
  have hz : condAll (aluConds e w nd na nb nc fun _ _ _ _ => 0) = 0 := condAll_zero _ _
  obtain ⟨t, ht, A⟩ := alu_acts (f := fun a b c d => (f a b c d, 0)) L hv (condTrap_zero _ _ _)
  refine ⟨t, ht, A.congr ?_⟩
  show e.sh.raise _ = _
  rw [hz, Sheet.raise_zero]
  rfl
/-- A format I word. -/
theorem aluImm_acts {w : FI} {na : Nat} {f : Word → Word} {s : State} {e : Env} (L : Live s e)
    (hv : e.sh.vOk (vsOf w.com [(w.d.toNat, 1), (w.a.toNat, na)]) = true) :
    Answers (aluImm w na f s) fun t =>
      Acts s t e ((e.lanes w.com).map fun l => (e.key l w.d.toNat, f (e.w l w.a.toNat))) id 0 := by
  refine ⟨_, issue_regs L _ hv, acts_regs L _ fun x hx => ?_⟩
  simp only [List.mem_map] at hx
  obtain ⟨l, hl, rfl⟩ := hx
  exact e.key_real hl _

/-- A compare whose conditions do not trap. -/
theorem compare_acts {c : Com} {d : BitVec 8} {vs : List (Nat × Nat)} {f : Env → Option Nat → Bool × Cond} {s : State}
    {e : Env} (L : Live s e) (hv : e.sh.vOk (vsOf c vs) = true)
    (hc : condTrap e.sh.strap ((e.lanes c).map fun l => (laneNo l, (f e l).2)) = none) :
    Answers (compare c d vs f s) fun t => Acts s t e (cmpWrites e c d fun l => (f e l).1)
      (fun sh => cmpMask e c d (fun l => (f e l).1) (sh.raise (condAll ((e.lanes c).map fun l => (laneNo l, (f e l).2))))) 0 := by
  unfold compare
  refine ⟨_, issue_regs L _ hv, ?_⟩
  simp only [List.map_map, Function.comp_def, List.foldl_map]
  rw [condEff_done _ hc]
  unfold cmpWrites cmpMask
  split
  · refine acts_sheet_regs L _ _ fun x hx => ?_
    simp only [List.mem_map] at hx
    obtain ⟨l, hl, rfl⟩ := hx
    exact uniKey_real _
  · have := acts_sheet L (fun sh => { sh.raise (condAll ((e.lanes c).map fun l => (laneNo l, (f e l).2))) with
        k := (sh.raise (condAll ((e.lanes c).map fun l => (laneNo l, (f e l).2)))).k.set 0 d.toNat
          (putMask (e.sh.k.get 0 d.toNat) (e.sh.active c.gsel c.neg)
            ((e.lanes c).foldl (fun m l => if (f e l).1 then m ||| (1 : Mask) <<< laneNo l else m) 0)) })
    refine cast ?_ this
    congr 1
    unfold State.setK State.modSheet State.modQuire
    simp only [Tab.upd_upd, Function.comp_def, Quire.modSheet]

end Sys2Proof.Machine
end

