-- ==== Sys2Proof/Laws/Order.lean ====
section
/-! SUPPORT. What the marks of happens-before (R85, R152-R158) can do: each changes the records of accesses and nothing else of
the module, so that registers, memory and waits are as before. -/

namespace Sys2Proof.Machine

theorem State.touch_eq (s : State) (r : SheetRef) (lane pa len : Nat) (acq rel write : Bool) :
    s.touch r lane pa len acq rel write = { s with stores := (s.touch r lane pa len acq rel write).stores } := rfl
theorem State.relMark_eq (s : State) (r : SheetRef) (lane : Nat) (y : Sync) :
    s.relMark r lane y = { s with stores := (s.relMark r lane y).stores } := rfl
theorem State.acqMark_eq (s : State) (r : SheetRef) (lane : Nat) (p : Sync → Bool) :
    s.acqMark r lane p = { s with stores := (s.acqMark r lane p).stores } := rfl
theorem State.linkSync_eq (s : State) (p : Sync → Bool) (y : Sync) :
    s.linkSync p y = { s with stores := (s.linkSync p y).stores } := rfl
theorem State.dropSync_eq (s : State) (p : Sync → Bool) : s.dropSync p = { s with stores := (s.dropSync p).stores } := rfl
theorem State.refetch_eq (s : State) (r : SheetRef) : s.refetch r = { s with stores := (s.refetch r).stores } := rfl
theorem State.forkEng_eq (s : State) (r : SheetRef) (id : Nat) : s.forkEng r id = { s with stores := (s.forkEng r id).stores } := rfl
theorem State.joinEng_eq (s : State) (r : SheetRef) (p : Sync → Bool) :
    s.joinEng r p = { s with stores := (s.joinEng r p).stores } := rfl
theorem State.endEng_eq (s : State) (id : Nat) (y : Sync) : s.endEng id y = { s with stores := (s.endEng id y).stores } := rfl
theorem State.slotJoin_eq (s : State) (r : SheetRef) (p : Nat) (which : Nat → Bool) :
    s.slotJoin r p which = { s with stores := (s.slotJoin r p which).stores } := rfl
theorem State.slotDrop_eq (s : State) (h p : Nat) (which : Nat → Bool) :
    s.slotDrop h p which = { s with stores := (s.slotDrop h p which).stores } := rfl
theorem State.batchJoin_eq (s : State) (r : SheetRef) (n : Word) :
    s.batchJoin r n = { s with stores := (s.batchJoin r n).stores } := rfl
theorem State.cutAt_eq (s : State) (loc len : Nat) : s.cutAt loc len = { s with stores := (s.cutAt loc len).stores } := rfl
theorem State.scFence_eq (s : State) (e : Env) (scope : Scope) :
    s.scFence e scope = { s with stores := (s.scFence e scope).stores } := rfl

/-- The slot at the read index is joined when it is filled; the records alone change. -/
theorem State.headJoin_eq (s : State) (r : SheetRef) (p : Nat) (x : Pool) :
    s.headJoin r p x = { s with stores := (s.headJoin r p x).stores } := by
  unfold State.headJoin
  split <;> rfl
/-- An operation that completes in its pool slot is what the slot then shows; the records alone change. -/
theorem State.slotEnd_eq (s : State) (h p id : Nat) : s.slotEnd h p id = { s with stores := (s.slotEnd h p id).stores } := by
  unfold State.slotEnd
  split <;> rfl

/-- An issuer that has acquired an access has every later access behind it (R153, R154). -/
theorem StoreRec.hb_of_known {x : StoreRec} {r : SheetRef} {lane : Nat} (h : x.known r lane = true) (pa len : Nat) (rel write : Bool) :
    x.hb r lane pa len rel write = true := by
  unfold StoreRec.hb
  rw [h, Bool.true_or, Bool.true_or, Bool.true_or]
/-- A release of an issuer is behind what the issuer has acquired (R152). -/
theorem StoreRec.behind_of_known {x : StoreRec} {r : SheetRef} {lane : Nat} (h : x.known r lane = true) : x.behind r lane = true := by
  unfold StoreRec.behind
  rw [h, Bool.or_true, Bool.true_or]

end Sys2Proof.Machine
end

