-- ==== Sys2Proof/Tests/Slice0.lean ====
section
/-! SUPPORT. Tests. Decoding: words packed bit by bit from 05_encodings.md R62-R79 (the spec's own example words among them). Form: a
term for each encoding check that the check refuses. Values: results that the spec states or that follow by hand. Witnesses: for each
statement with hypotheses, concrete states and operands that meet them all, given to the statement itself. -/

namespace Sys2Proof.Tests

open Sys2Proof Sys2Proof.Machine Sys2Proof.Claims

set_option Elab.async false

/-! ### Decoding -/

def reads (l : List (Nat × Instr)) : Bool := l.all fun x => decodeTableWord 64 x.1 = some x.2
def c0 : Com := ⟨false, 0, false, false⟩
def cu : Com := ⟨false, 0, true, false⟩

theorem test_decode_integer : reads [
  (0x01000A080C001001, .add ⟨c0, 5, 4, 6, 0, .n32, .rne, false, 1⟩),
  (0x02980E13FFFFFFFE, .addi ⟨⟨true, 3, false, false⟩, 7, 9, 0xffffffff⟩),
  (0x03049E0406000000, .sub ⟨cu, 79, 2, 3, 0, .i32, .rne, false, 0⟩),
  (0x04000205FE000000, .mulLo ⟨c0, 1, 2, 255, 0, .i32, .rne, false, 0⟩),
  (0x0540020406000000, .mulHi ⟨⟨false, 8, false, false⟩, 1, 2, 3, 0, .i32, .rne, false, 0⟩),
  (0x0600020407000000, .mad ⟨c0, 1, 2, 3, 128, .i32, .rne, false, 0⟩),
  (0x070012100E000000, .div ⟨c0, 9, 8, 7, 0, .i32, .rne, false, 0⟩),
  (0x080012100E001000, .rem ⟨c0, 9, 8, 7, 0, .n32, .rne, false, 0⟩),
  (0x0900020406000000, .min ⟨c0, 1, 2, 3, 0, .i32, .rne, false, 0⟩),
  (0x0A00020406000000, .max ⟨c0, 1, 2, 3, 0, .i32, .rne, false, 0⟩),
  (0x0B00020400000001, .abs ⟨c0, 1, 2, 0, 0, .i32, .rne, false, 1⟩),
  (0x0C00020400000000, .neg ⟨c0, 1, 2, 0, 0, .i32, .rne, false, 0⟩),
  (0x0D0002040600C000, .and ⟨c0, 1, 2, 3, 0, .b32, .rne, false, 0⟩),
  (0x0E0004080C00D000, .or ⟨c0, 2, 4, 6, 0, .b64, .rne, false, 0⟩),
  (0x0F0002040600C000, .xor ⟨c0, 1, 2, 3, 0, .b32, .rne, false, 0⟩),
  (0x100002040600C000, .andn ⟨c0, 1, 2, 3, 0, .b32, .rne, false, 0⟩),
  (0x110002040000C000, .not ⟨c0, 1, 2, 0, 0, .b32, .rne, false, 0⟩),
  (0x1200020500000002, .andi ⟨c0, 1, 2, 0x80000001⟩),
  (0x1300020400000006, .ori ⟨c0, 1, 2, 3⟩),
  (0x1400020400000008, .xori ⟨c0, 1, 2, 4⟩),
  (0x150002040600C000, .shl ⟨c0, 1, 2, 3, 0, .b32, .rne, false, 0⟩),
  (0x160004080000D13F, .shr ⟨c0, 2, 4, 0, 0, .b64, .rne, false, 319⟩),
  (0x1700020406000000, .sar ⟨c0, 1, 2, 3, 0, .i32, .rne, false, 0⟩),
  (0x180002040000C11F, .rotl ⟨c0, 1, 2, 0, 0, .b32, .rne, false, 287⟩),
  (0x190002040000D000, .clz ⟨c0, 1, 2, 0, 0, .b64, .rne, false, 0⟩),
  (0x1A0002040000C000, .popc ⟨c0, 1, 2, 0, 0, .b32, .rne, false, 0⟩),
  (0x1B0004080000D000, .brev ⟨c0, 2, 4, 0, 0, .b64, .rne, false, 0⟩),
  (0x1C00020406001000, .bfx ⟨c0, 1, 2, 3, 0, .n32, .rne, false, 0⟩),
  (0x1D0002040608C000, .bfi ⟨c0, 1, 2, 3, 4, .b32, .rne, false, 0⟩),
  (0x1E000204060EC000, .sel ⟨c0, 1, 2, 3, 7, .b32, .rne, false, 0⟩),
  (0x1F000E0406000005, .cmp ⟨c0, 7, 2, 3, 0, .i32, .rne, false, 5⟩),
  (0x20049E002468ACF0, .movi ⟨cu, 79, 0, 0x12345678⟩),
  (0x210008100000E000, .mov ⟨c0, 4, 8, 0, 0, .b128, .rne, false, 0⟩),
  (0x220004080C002000, .addI64 ⟨c0, 2, 4, 6, 0, .i64, .rne, false, 0⟩),
  (0x230004080C002000, .subI64 ⟨c0, 2, 4, 6, 0, .i64, .rne, false, 0⟩),
  (0x240004060A001000, .mulWide ⟨c0, 2, 3, 5, 0, .n32, .rne, false, 0⟩),
  (0x250004080A003003, .lea ⟨c0, 2, 4, 5, 0, .n64, .rne, false, 3⟩),
  (0x2600020280000050, .cmpi ⟨c0, 1, 1, 0x40000028⟩),
  (0x2700020406080000, .clamp ⟨c0, 1, 2, 3, 4, .i32, .rne, false, 0⟩)] = true := by decide +kernel
theorem test_decode_float : reads [
  (0x30000A080C004400, .fadd ⟨c0, 5, 4, 6, 0, .f32, .rz, false, 0⟩),
  (0x3100020406004A00, .fsub ⟨c0, 1, 2, 3, 0, .f32, .ru, true, 0⟩),
  (0x3200020406004C00, .fmul ⟨c0, 1, 2, 3, 0, .f32, .rd, false, 0⟩),
  (0x3300020406084000, .fma ⟨c0, 1, 2, 3, 4, .f32, .rne, false, 0⟩),
  (0x3400020406004001, .fmin ⟨c0, 1, 2, 3, 0, .f32, .rne, false, 1⟩),
  (0x3500020406004000, .fmax ⟨c0, 1, 2, 3, 0, .f32, .rne, false, 0⟩),
  (0x3600020400004000, .fabs ⟨c0, 1, 2, 0, 0, .f32, .rne, false, 0⟩),
  (0x3700020400004000, .fneg ⟨c0, 1, 2, 0, 0, .f32, .rne, false, 0⟩),
  (0x3800040608004007, .fcmp ⟨c0, 2, 3, 4, 0, .f32, .rne, false, 7⟩),
  (0x3900020400008000, .fclass ⟨c0, 1, 2, 0, 0, .e5m2, .rne, false, 0⟩),
  (0x3B0002007F000000, .fmovi ⟨c0, 1, 0, 0x3f800000⟩),
  (0x3C00020400004000, .frcp ⟨c0, 1, 2, 0, 0, .f32, .rne, false, 0⟩),
  (0x3D00020400004000, .frsq ⟨c0, 1, 2, 0, 0, .f32, .rne, false, 0⟩),
  (0x3E00020400004800, .fsqrt ⟨c0, 1, 2, 0, 0, .f32, .ru, false, 0⟩),
  (0x3F00020406004000, .fdiv ⟨c0, 1, 2, 3, 0, .f32, .rne, false, 0⟩),
  (0x4000020406006000, .hadd2 ⟨c0, 1, 2, 3, 0, .bf16, .rne, false, 0⟩),
  (0x4100020406005000, .hmul2 ⟨c0, 1, 2, 3, 0, .f16, .rne, false, 0⟩),
  (0x4200020406085000, .hfma2 ⟨c0, 1, 2, 3, 4, .f16, .rne, false, 0⟩),
  (0x4300020406087000, .dot4 ⟨c0, 1, 2, 3, 4, .e4m3, .rne, false, 0⟩),
  (0x4400020406080001, .dot2 ⟨c0, 1, 2, 3, 4, .i32, .rne, false, 1⟩),
  (0x4600020400004C01, .fround ⟨c0, 1, 2, 0, 0, .f32, .rd, false, 1⟩),
  (0x5000020400004000, .fsin ⟨c0, 1, 2, 0, 0, .f32, .rne, false, 0⟩),
  (0x5100020400004000, .fcos ⟨c0, 1, 2, 0, 0, .f32, .rne, false, 0⟩),
  (0x5200020400004000, .fexp2 ⟨c0, 1, 2, 0, 0, .f32, .rne, false, 0⟩),
  (0x5300020400004000, .flog2 ⟨c0, 1, 2, 0, 0, .f32, .rne, false, 0⟩),
  (0x5400020400004200, .ftanh ⟨c0, 1, 2, 0, 0, .f32, .rne, true, 0⟩),
  (0x5600020400007024, .cvtF ⟨c0, 1, 2, 0, 0, .e4m3, .rne, false, 36⟩),
  (0x5700040600002405, .cvtFi ⟨c0, 2, 3, 0, 0, .i64, .rz, false, 5⟩),
  (0x5800020400004003, .cvtIf ⟨c0, 1, 2, 0, 0, .f32, .rne, false, 3⟩),
  (0x5900020406006004, .cvtSr ⟨c0, 1, 2, 3, 0, .bf16, .rne, false, 4⟩),
  (0x5A00020400009007, .pack ⟨c0, 1, 2, 0, 0, .e2m1, .rne, false, 7⟩),
  (0x5B0002040000A00B, .unpack ⟨c0, 1, 2, 0, 0, .b8, .rne, false, 11⟩)] = true := by decide +kernel
theorem test_decode_lane : reads [
  (0x600002040600C005, .shflIdx ⟨c0, 1, 2, 3, 0, .b32, .rne, false, 5⟩),
  (0x610002040608C011, .shflXor ⟨c0, 1, 2, 3, 4, .b32, .rne, false, 17⟩),
  (0x620002040600C009, .shflUp ⟨c0, 1, 2, 3, 0, .b32, .rne, false, 9⟩),
  (0x630002040600C000, .shflDown ⟨c0, 1, 2, 3, 0, .b32, .rne, false, 0⟩),
  (0x64000E040000C006, .vote ⟨c0, 7, 2, 0, 0, .b32, .rne, false, 6⟩),
  (0x650002040000401A, .scan ⟨c0, 1, 2, 0, 0, .f32, .rne, false, 26⟩),
  (0x6600020400001001, .lred ⟨c0, 1, 2, 0, 0, .n32, .rne, false, 1⟩),
  (0x6700020406000003, .kop ⟨c0, 1, 2, 3, 0, .i32, .rne, false, 3⟩),
  (0x6800080400000001, .kpop ⟨c0, 4, 2, 0, 0, .i32, .rne, false, 1⟩),
  (0x6900080400000000, .kfirst ⟨c0, 4, 2, 0, 0, .i32, .rne, false, 0⟩),
  (0x6A00120000000000, .laneid ⟨c0, 9, 0, 0, 0, .i32, .rne, false, 0⟩),
  (0x6B0008100C000000, .rng ⟨c0, 4, 8, 6, 0, .i32, .rne, false, 0⟩),
  (0x6C0206000000C000, .noise ⟨⟨false, 0, false, true⟩, 3, 0, 0, 0, .b32, .rne, false, 0⟩),
  (0x6C0406000000C001, .noiseSt ⟨cu, 3, 0, 0, 0, .b32, .rne, false, 1⟩),
  (0x6D00069E0000C000, .bcast ⟨c0, 3, 79, 0, 0, .b32, .rne, false, 0⟩),
  (0x6D0007900800C001, .bcastGet ⟨c0, 3, 200, 4, 0, .b32, .rne, false, 1⟩),
  (0xE910082064810500, .pairedWord ⟨9, ⟨4, 1, 2, 3⟩, ⟨18, 2, 5, 0⟩⟩),
  (0xE0000000063F8000, .pairedWord ⟨0, ⟨0, 0, 0, 0⟩, ⟨24, 127, 0, 0⟩⟩)] = true := by decide +kernel
theorem test_decode_control : reads [
  (0x7001FFFFFF000000, .br ⟨c0, 33554431, 0, 0⟩),
  (0x71000000054F0005, .brc ⟨c0, 5, 79, 5⟩),
  (0x7201FFFFFD020000, .brm ⟨c0, 33554429, 2, 0⟩),
  (0x7300007400000004, .brx ⟨c0, 0, 58, 0, 0, 4⟩),
  (0x7400000010140000, .call ⟨c0, 16, 20, 0⟩),
  (0x7500002800000000, .ret ⟨c0, 0, 20, 0, 0, 0⟩),
  (0x7600000C00000000, .jmpi ⟨c0, 0, 6, 0, 0, 0⟩),
  (0x7700000E00000000, .mpush ⟨c0, 0, 7, 0, 0, 0⟩),
  (0x7700000600000001, .melse ⟨c0, 0, 3, 0, 0, 1⟩),
  (0x7700000000000002, .mpop ⟨c0, 0, 0, 0, 0, 2⟩),
  (0x780000000904100F, .loop ⟨c0, 9, 4, 4111⟩),
  (0x7900000000050001, .lbreak ⟨c0, 0, 5, 1⟩),
  (0x7A00000003000002, .lexit ⟨c0, 3, 0, 2⟩),
  (0x7B10000007FD0000, .spawn ⟨⟨false, 2, false, false⟩, 7, 253, 0⟩),
  (0x7B0000000001803A, .spawn ⟨c0, 0, 1, 32826⟩),
  (0x7C00000000000000, .join ⟨c0, 0, 0, 0, 0, 0⟩),
  (0x7D00000000000000, .exit ⟨c0, 0, 0, 0, 0, 0⟩),
  (0x7E00001E08000000, .barInit ⟨c0, 0, 15, 4, 0, 0⟩),
  (0x7E00000200000001, .barArr ⟨c0, 0, 1, 0, 0, 1⟩),
  (0x7E00000200000002, .barWait ⟨c0, 0, 1, 0, 0, 2⟩),
  (0x7E00000200000003, .barSync ⟨c0, 0, 1, 0, 0, 3⟩),
  (0x7F00000000000000, .nop ⟨c0, 0, 0, 0, 0, 0⟩),
  (0x7F00000000000001, .yield ⟨c0, 0, 0, 0, 0, 1⟩),
  (0x7F00080000000102, .rgrow ⟨c0, 4, 0, 0, 0, 258⟩),
  (0x7F0000000000000B, .rshrink ⟨c0, 0, 0, 0, 0, 11⟩)] = true := by decide +kernel
theorem test_decode_memory : reads [
  (0x800208501C19FFFF, .ldG ⟨⟨false, 0, false, true⟩, 4, 10, 3, .fabric, .acq, .b128, 3, 32767⟩),
  (0x810808501B270001, .stG ⟨⟨false, 1, false, false⟩, 4, 10, 3, .device, .rel, .b64, 2, 1⟩),
  (0x82000E581944C000, .ldC ⟨c0, 7, 11, 3, .quire, .sc, .b32, 1, 16384⟩),
  (0x83040E5FF8820000, .stC ⟨cu, 7, 11, 255, .sheet, .rlx, .b16, 0, 0⟩),
  (0x850401D7FA000000, .pref ⟨cu, 0, 58, 255, .gallery, .rlx, .b8, 0, 0⟩),
  (0x860009F830840000, .ldGx ⟨c0, 4, 63, 6, .sheet, .rlx, .b32, 0, 0⟩),
  (0x8700086031A00000, .stGx ⟨c0, 4, 12, 6, .core, .rel, .b8, 0, 0⟩),
  (0x900008501B345BFF, .atom ⟨c0, 4, 10, 3, .device, .ar, .b32, 0, 11, 1023⟩),
  (0x910008501B360000, .cas ⟨c0, 4, 10, 3, .device, .ar, .b64, 0, 0⟩),
  (0x920001FFFB400000, .fence ⟨c0, 0, 63, 255, .device, .sc, .b8, 0, 0⟩),
  (0x930001FFFB800000, .fenceTr ⟨c0, 0, 63, 255, .host, .rlx, .b8, 0, 0⟩),
  (0x940008501916C400, .atomC ⟨c0, 4, 10, 3, .quire, .acq, .b64, 1, 8, 1024⟩),
  (0xA00010828C3E0003, .acopy ⟨c0, 2, 4, 5, 6, 31, 3⟩),
  (0xA10010840C060001, .acopy2 ⟨c0, 2, 4, 8, 6, 3, 1⟩),
  (0xA200380000060040, .pinit ⟨c0, 7, 0, 0, 0, 3, 64⟩),
  (0xA300100010060001, .pwait ⟨c0, 2, 0, 0, 8, 3, 1⟩),
  (0xA4000000003C0000, .prel ⟨c0, 0, 0, 0, 0, 30, 0⟩),
  (0xA500000010060000, .pstat ⟨c0, 0, 0, 0, 8, 3, 0⟩),
  (0xA600000000060000, .pdrain ⟨c0, 0, 0, 0, 0, 3, 0⟩),
  (0xB000100001FE0003, .dkload ⟨c0, 2, 0, 0, 0, 255, 3⟩),
  (0xB000000001FE0005, .dkloadClr ⟨c0, 0, 0, 0, 0, 255, 5⟩),
  (0xB100000009FE0002, .dkquery ⟨c0, 0, 0, 0, 4, 255, 2⟩),
  (0xB20008501B247805, .post ⟨c0, 4, 10, 3, .device, .rel, .b32, 0, 15, 5⟩),
  (0xB300108000100001, .arm ⟨c0, 2, 4, 0, 0, 8, 1⟩),
  (0xB400100000100000, .disarm ⟨c0, 2, 0, 0, 0, 8, 0⟩),
  (0xB500108390060015, .nmdot ⟨c0, 2, 4, 7, 8, 3, 21⟩),
  (0xB600108390060010, .nmaxpy ⟨c0, 2, 4, 7, 8, 3, 16⟩),
  (0xB700000000000000, .vdrain ⟨c0, 0, 0, 0, 0, 0⟩)] = true := by decide +kernel
theorem test_decode_engine : reads [
  (0xC000280000020000, .mxZero ⟨c0, 5, 0, 0, 0, 1, 0⟩),
  (0xC100414600020001, .mxMma ⟨c0, 8, 10, 12, 0, 1, 1⟩),
  (0xC20010040C000004, .mxConv ⟨c0, 2, 0, 8, 6, 0, 4⟩),
  (0xC30210020002000F, .mxRead ⟨⟨false, 0, false, true⟩, 2, 0, 4, 0, 1, 15⟩),
  (0xC40000003DFE0000, .mxFence ⟨c0, 0, 0, 0, 30, 255, 0⟩),
  (0xC500180075FE0000, .mxWait ⟨c0, 3, 0, 0, 58, 255, 0⟩),
  (0xC600000010020000, .mxStat ⟨c0, 0, 0, 0, 8, 1, 0⟩),
  (0xC70018840BFE0002, .mxSub ⟨c0, 3, 4, 8, 5, 255, 2⟩),
  (0xC800000001FE0000, .mxUnsub ⟨c0, 0, 0, 0, 0, 255, 0⟩),
  (0xD000400001FE0002, .wmInit ⟨c0, 8, 0, 0, 0, 255, 2⟩),
  (0xD10000A011FE0000, .wmProbe ⟨c0, 0, 5, 0, 8, 255, 0⟩),
  (0xD20000A311FE0001, .wmCommit ⟨c0, 0, 5, 6, 8, 255, 1⟩),
  (0xD30000A311FE0007, .wmSelect ⟨c0, 0, 5, 6, 8, 255, 7⟩),
  (0xD400084189FE0000, .wmRead ⟨c0, 1, 2, 3, 4, 255, 0⟩),
  (0xD500000013FE0000, .wmSync ⟨c0, 0, 0, 0, 9, 255, 0⟩),
  (0xD600000001FE0000, .wmRelease ⟨c0, 0, 0, 0, 0, 255, 0⟩)] = true := by decide +kernel
theorem test_decode_fabric : reads [
  (0xD800108418060435, .gsend ⟨c0, 2, 4, 8, 12, 3, 1077⟩),
  (0xD90010841806000F, .gfetch ⟨c0, 2, 4, 8, 12, 3, 15⟩),
  (0xDA000000103E000F, .gbar ⟨c0, 0, 0, 0, 8, 31, 15⟩),
  (0xDB02000011FE0001, .gstat ⟨⟨false, 0, false, true⟩, 0, 0, 0, 8, 255, 1⟩),
  (0xDC00280001FE0002, .gabort ⟨c0, 5, 0, 0, 0, 255, 2⟩),
  (0xDD0010800A060001, .greform ⟨c0, 2, 4, 0, 5, 3, 1⟩),
  (0xDE00100001FE0003, .gdl ⟨c0, 2, 0, 0, 0, 255, 3⟩)] = true := by decide +kernel
theorem test_decode_system : reads [
  (0xF00000000001FFFC, .renter ⟨c0, 0, 0, 0xfffe⟩),
  (0xF100000000000000, .rleave ⟨c0, 0, 0, 0, 0, 0⟩),
  (0xF2000001FFFFFFFE, .rmark ⟨c0, 0, 0, 0xffffffff⟩),
  (0xF300740000000000, .hashrd ⟨c0, 58, 0, 0, 0, 0⟩),
  (0xF400700000000007, .stallrd ⟨c0, 56, 0, 0, 0, 7⟩),
  (0xF804080000000020, .rdsr ⟨cu, 4, 0, 16⟩),
  (0xF904000A00001080, .wrsr ⟨cu, 0, 5, 0x840⟩),
  (0xFA0000000001FFFE, .trap ⟨c0, 0, 0, 0xffff⟩),
  (0xFB00000000000000, .rte ⟨c0, 0, 0, 0, 0, 0⟩),
  (0xFC0000000000000E, .brk ⟨c0, 0, 0, 7⟩),
  (0xFD00000000000000, .halt ⟨c0, 0, 0, 0, 0, 0⟩)] = true := by decide +kernel

/-! ### Words that are no instruction, and terms that are ill-formed -/

def rejects (l : List Nat) : Bool := l.all fun w => decodeTableWord 64 w = none
/-- Reserved opcodes and pair SUBs are the instruction that raises ILLEGAL_OPCODE (R80). -/
theorem test_decode_reserved : (([0x00, 0x28, 0x2F, 0x3A, 0x45, 0x47, 0x55, 0x5C, 0x6E, 0x84, 0x88, 0x95, 0xA7, 0xB8, 0xC9, 0xD7, 0xDF, 0xF5,
    0xFE, 0xFF] : List Nat).all fun o => decodeTableWord 64 (o * 2 ^ 56 + 5) = some (.illegalOpcode (BitVec.ofNat 64 (o * 2 ^ 56 + 5)))) = true ∧
    reads [(0xE000000006400000, .illegalOpcode 0xE000000006400000), (0xE444000000000000, .illegalOpcode 0xE444000000000000)] = true := by
  decide +kernel
/-- TYPE 15, format I bit 0, SCOPE 9, ORD 5, SIZE 5, selectors out of range, and an unused field (R66-R78). -/
theorem test_decode_refused : rejects [0x010000000000F000, 0x0200000000000001, 0x80000E57FC800000, 0x80000E57F8500000, 0x80000E57F80A0000,
    0x7F00000000000004, 0x7700000000000003, 0x6C0000000000C002, 0x6D0000000000C002, 0x70000000FF010000] = true := by decide +kernel
/-- The checks of R63, R64, R65, R66, R69, R72, R74 and R79, one ill-formed term each. -/
theorem test_wf_common : ([.add ⟨⟨true, 0, false, false⟩, 1, 2, 3, 0, .i32, .rne, false, 0⟩, .add ⟨⟨false, 1, true, false⟩, 1, 2, 3, 0, .i32, .rne, false, 0⟩,
    .add ⟨⟨false, 0, false, true⟩, 1, 2, 3, 0, .i32, .rne, false, 0⟩, .add ⟨cu, 80, 2, 3, 0, .i32, .rne, false, 0⟩, .add ⟨c0, 1, 2, 3, 1, .i32, .rne, false, 0⟩,
    .add ⟨c0, 1, 2, 3, 0, .f32, .rne, false, 0⟩, .add ⟨c0, 1, 2, 3, 0, .i32, .rz, false, 0⟩, .add ⟨c0, 1, 2, 3, 0, .i32, .rne, true, 0⟩,
    .add ⟨c0, 1, 2, 3, 0, .i32, .rne, false, 2⟩, .addI64 ⟨c0, 1, 2, 4, 0, .i64, .rne, false, 0⟩, .mov ⟨c0, 4, 2, 0, 0, .b128, .rne, false, 0⟩,
    .kop ⟨c0, 8, 0, 0, 0, .i32, .rne, false, 0⟩, .br ⟨⟨false, 1, false, false⟩, 0, 0, 0⟩, .br ⟨cu, 0, 0, 0⟩, .rdsr ⟨c0, 0, 0, 0⟩,
    .ldG ⟨c0, 0, 59, 0, .sheet, .rlx, .b8, 0, 0⟩, .ldG ⟨cu, 0, 63, 0, .sheet, .rlx, .b8, 0, 0⟩, .ldG ⟨c0, 1, 63, 0, .sheet, .rlx, .b64, 0, 0⟩,
    .pdrain ⟨c0, 1, 0, 0, 0, 3, 0⟩, .pdrain ⟨c0, 0, 0, 0, 0, 32, 0⟩, .pdrain ⟨c0, 0, 0, 0, 0, 3, 1⟩, .mxUnsub ⟨c0, 0, 0, 0, 0, 0, 0⟩, .mxZero ⟨c0, 0, 0, 0, 0, 2, 0⟩,
    .pairedWord ⟨0, ⟨0, 1, 0, 0⟩, ⟨0, 0, 0, 0⟩⟩, .pairedWord ⟨0, ⟨1, 1, 2, 3⟩, ⟨1, 1, 1, 0⟩⟩, .pairedWord ⟨0, ⟨1, 1, 2, 3⟩, ⟨1, 2, 6, 0⟩⟩,
    .pairedWord ⟨0, ⟨1, 1, 2, 3⟩, ⟨1, 2, 1, 7⟩⟩, .pairedWord ⟨0, ⟨0x11, 1, 2, 3⟩, ⟨0, 0, 0, 0⟩⟩] : List Instr).all (fun i => !i.wf) = true := by decide +kernel
/-- The entries' own checks (R115-R144). -/
theorem test_wf_lanes : ([.shl ⟨c0, 1, 2, 0, 0, .b32, .rne, false, 0x120⟩, .shl ⟨c0, 1, 2, 3, 0, .b32, .rne, false, 0x101⟩, .cmp ⟨c0, 8, 2, 3, 0, .i32, .rne, false, 0⟩,
    .cmp ⟨c0, 1, 2, 3, 0, .i32, .rne, false, 6⟩, .sel ⟨c0, 1, 2, 3, 8, .b32, .rne, false, 0⟩, .movi ⟨c0, 1, 1, 0⟩, .fmin ⟨c0, 1, 2, 3, 0, .f32, .rz, false, 0⟩,
    .fadd ⟨c0, 1, 2, 3, 0, .f16, .rne, false, 0⟩, .frcp ⟨c0, 1, 2, 0, 0, .f32, .rd, false, 0⟩, .fcmp ⟨c0, 1, 2, 3, 0, .f32, .rne, false, 8⟩,
    .fround ⟨c0, 1, 2, 0, 0, .f32, .rne, false, 2⟩, .hadd2 ⟨c0, 1, 2, 3, 0, .f32, .rne, false, 0⟩, .dot4 ⟨c0, 1, 2, 3, 4, .e4m3, .rne, false, 1⟩,
    .dot2 ⟨c0, 1, 2, 3, 4, .n32, .rne, false, 0⟩, .cvtF ⟨c0, 1, 2, 0, 0, .f32, .rne, false, 4⟩, .cvtF ⟨c0, 1, 2, 0, 0, .e5m2, .rne, false, 0x24⟩,
    .cvtFi ⟨c0, 1, 2, 0, 0, .i64, .rne, false, 4⟩, .cvtIf ⟨c0, 1, 2, 0, 0, .e4m3, .rne, false, 0⟩, .cvtSr ⟨c0, 1, 2, 3, 0, .f32, .rne, false, 5⟩,
    .pack ⟨c0, 1, 2, 0, 0, .b8, .rne, false, 4⟩, .unpack ⟨c0, 1, 2, 0, 0, .b16, .rne, false, 2⟩, .shflIdx ⟨c0, 1, 2, 3, 0, .b32, .rne, false, 6⟩,
    .shflIdx ⟨c0, 1, 2, 3, 0, .b32, .rne, false, 8⟩, .shflIdx ⟨c0, 1, 2, 3, 4, .b32, .rne, false, 0⟩, .vote ⟨c0, 1, 2, 0, 0, .b32, .rne, false, 7⟩,
    .scan ⟨c0, 1, 2, 0, 0, .i32, .rne, false, 3⟩, .scan ⟨c0, 1, 2, 0, 0, .i32, .rne, false, 0x11⟩, .lred ⟨c0, 1, 2, 0, 0, .i32, .rne, false, 8⟩,
    .kop ⟨c0, 1, 2, 3, 0, .i32, .rne, false, 4⟩, .kop ⟨c0, 1, 2, 0, 0, .i32, .rne, false, 6⟩, .kpop ⟨c0, 80, 1, 0, 0, .i32, .rne, false, 0⟩,
    .rng ⟨c0, 2, 4, 0, 0, .i32, .rne, false, 0⟩, .rng ⟨c0, 4, 4, 1, 0, .i32, .rne, false, 0⟩, .noiseSt ⟨c0, 1, 0, 0, 0, .b32, .rne, false, 0⟩,
    .laneid ⟨c0, 1, 1, 0, 0, .i32, .rne, false, 0⟩, .bcast ⟨c0, 1, 80, 0, 0, .b32, .rne, false, 0⟩] : List Instr).all (fun i => !i.wf) = true := by decide +kernel
/-- The entries' own checks (R145-R343). -/
theorem test_wf_system : ([.brc ⟨c0, 0, 0, 6⟩, .brm ⟨c0, 0, 8, 0⟩, .brm ⟨c0, 0, 0, 4⟩, .call ⟨c0, 0, 60, 0⟩, .call ⟨c0, 0, 3, 0⟩, .brx ⟨c0, 0, 2, 0, 0, 5⟩,
    .brx ⟨c0, 0, 2, 0, 0, 0⟩, .loop ⟨c0, 0, 0, 0x100⟩, .lbreak ⟨c0, 0, 0, 2⟩, .lexit ⟨c0, 0, 0, 0⟩, .lexit ⟨c0, 0, 0, 5⟩, .spawn ⟨c0, 0, 254, 0⟩,
    .spawn ⟨c0, 0, 0, 0x8001⟩, .spawn ⟨c0, 0, 0, 0x803C⟩, .barInit ⟨c0, 0, 16, 0, 0, 0⟩, .barArr ⟨c0, 0, 1, 1, 0, 1⟩, .yield ⟨c0, 0, 0, 0, 0, 0⟩,
    .rgrow ⟨c0, 4, 0, 0, 0, 2⟩, .rgrow ⟨c0, 4, 0, 0, 0, 2 + 8 * 33⟩, .rshrink ⟨c0, 4, 0, 0, 0, 11⟩, .ldG ⟨c0, 0, 63, 0, .sheet, .rel, .b8, 0, 0⟩,
    .stG ⟨c0, 0, 63, 0, .sheet, .acq, .b8, 0, 0⟩, .ldC ⟨c0, 0, 0, 0, .core, .rlx, .b8, 0, 0⟩, .ldGx ⟨c0, 0, 63, 0, .sheet, .rlx, .b8, 1, 0⟩,
    .ldGx ⟨c0, 0, 63, 1, .sheet, .rlx, .b8, 0, 0⟩, .pref ⟨c0, 0, 63, 0, .die, .rlx, .b8, 0, 0⟩, .atom ⟨c0, 0, 63, 0, .sheet, .rlx, .b64, 0, 9, 0⟩,
    .atom ⟨c0, 0, 63, 0, .sheet, .rlx, .b16, 0, 0, 0⟩, .atom ⟨c0, 0, 63, 0, .sheet, .rlx, .b32, 0, 12, 0⟩, .cas ⟨c0, 1, 63, 0, .sheet, .rlx, .b32, 0, 0⟩,
    .fence ⟨c0, 0, 63, 255, .device, .rlx, .b8, 0, 0⟩, .fence ⟨c0, 0, 63, 255, .strand, .sc, .b8, 0, 0⟩, .fenceTr ⟨c0, 0, 63, 255, .quire, .rlx, .b8, 0, 0⟩,
    .acopy2 ⟨c0, 2, 4, 5, 0, 3, 0⟩, .acopy ⟨c0, 1, 4, 5, 0, 3, 0⟩, .pinit ⟨c0, 0, 0, 0, 0, 3, 65⟩, .pinit ⟨c0, 0, 0, 0, 0, 3, 0⟩, .pwait ⟨c0, 2, 0, 0, 8, 3, 0⟩,
    .pwait ⟨c0, 0, 0, 0, 60, 3, 0⟩, .dkloadClr ⟨c0, 0, 0, 0, 0, 255, 1⟩, .post ⟨c0, 0, 63, 0, .sheet, .acq, .b32, 0, 0, 0⟩, .arm ⟨c0, 0, 0, 0, 0, 1, 0⟩,
    .nmdot ⟨c0, 0, 0, 0, 2, 3, 0⟩, .nmaxpy ⟨c0, 0, 0, 0, 0, 3, 1⟩, .mxMma ⟨c0, 0, 0, 0, 0, 0, 6⟩, .mxMma ⟨c0, 0, 2, 0, 0, 0, 4⟩, .mxMma ⟨c0, 0, 0, 0, 1, 0, 0⟩,
    .mxRead ⟨c0, 60, 0, 0, 0, 0, 0⟩, .mxSub ⟨c0, 0, 0, 0, 0, 255, 3⟩, .wmInit ⟨c0, 0, 0, 0, 0, 255, 3⟩, .wmCommit ⟨c0, 0, 0, 1, 0, 255, 0⟩,
    .wmProbe ⟨c0, 0, 0, 0, 0, 254, 0⟩, .gsend ⟨c0, 0, 0, 0, 0, 0, 0x40⟩, .gdl ⟨c0, 59, 0, 0, 0, 255, 0⟩, .renter ⟨c0, 0, 0, 0xFFFF⟩, .hashrd ⟨c0, 60, 0, 0, 0, 0⟩,
    .stallrd ⟨c0, 60, 0, 0, 0, 0⟩, .rdsr ⟨cu, 0, 0, 0x1000⟩, .trap ⟨c0, 0, 0, 0x10000⟩, .rte ⟨c0, 0, 0, 0, 0, 1⟩, .illegalOpcode 0x01FF000000000000] : List Instr).all
    (fun i => !i.wf) = true := by decide +kernel

/-! ### Small states -/

/-- A machine with one sheet of 96 strands in issue, at the second body word of its clause. -/
def s0 : State := State.reset.loaded
def r0 : SheetRef := ⟨s0.cur.elim 0 (·.h), 0⟩
def blankEnv : Env := ⟨r0, loadQuire 1, loadSheet, s0.ctx 1, 0⟩
def en (s : State) : Env := s.env?.getD blankEnv
theorem live (s : State) (h : s.env?.isSome = true) : Live s (en s) := by
  unfold Live en
  cases hs : s.env? with
  | none => simp [hs] at h
  | some e => rfl
theorem alive : s0.env?.isSome = true := by decide +kernel
def Runs (o : Out) : Prop := ∃ t, o = .next t
theorem runs {o : Out} {P : State → Prop} (h : Answers o P) : Runs o := h.imp fun _ ht => ht.1
def sheet (f : Sheet → Sheet) (s : State := s0) : State := s.modSheet r0 f
def quire (f : Quire → Quire) (s : State := s0) : State := s.modQuire r0.h f
/-- V registers: register, strand and value. -/
def setV (l : List (Nat × Nat × Word)) (s : State := s0) : State :=
  sheet (fun sh => { sh with v := l.foldl (fun t x => t.set 0 (96 * x.1 + x.2.1) x.2.2) sh.v }) s
/-- S registers. -/
def setS (l : List (Nat × Nat)) (s : State := s0) : State :=
  sheet (fun sh => { sh with s := l.foldl (fun t x => t.set 0 x.1 (BitVec.ofNat 32 x.2)) sh.s }) s
/-- V1, V2 and V3 of strand 3. -/
def abc (a b c : Word) : State := setV [(1, 3, a), (2, 3, b), (3, 3, c)]
def fr (d a b c : BitVec 8) (ty : Ty) (subf : BitVec 9 := 0) : FR := ⟨c0, d, a, b, c, ty, .rne, false, subf⟩
/-- What a register of strand 3 holds after a word. -/
def gives (i : Instr) (s : State) (n : Nat) : Option Word :=
  match exec i s with
  | .next t => (t.sheet? r0).map fun sh => sh.raw (.v n 3)
  | _ => none

/-! ### Values (09_vector_scalar_instructions.md R113, R114; 08_number_cases.md) -/

theorem test_sub_saturates : gives (.sub (fr 4 1 2 0 .n32 1)) (abc 3 5 0) 4 = some 0 := by decide +kernel
theorem test_add_wraps : gives (.add (fr 4 1 2 0 .i32)) (abc 0x7FFFFFFF 1 0) 4 = some 0x80000000 := by decide +kernel
theorem test_abs_least : gives (.abs (fr 4 1 0 0 .i32)) (abc 0x80000000 0 0) 4 = some 0x80000000 ∧
    gives (.abs (fr 4 1 0 0 .i32 1)) (abc 0x80000000 0 0) 4 = some 0x7FFFFFFF := by decide +kernel
theorem test_clamp_crossed : gives (.clamp (fr 4 1 2 3 .i32)) (abc 7 9 0xFFFFFFFE) 4 = some 0xFFFFFFFE := by decide +kernel
theorem test_div_least : gives (.div (fr 4 1 2 0 .i32)) (abc 0x80000000 0xFFFFFFFF 0) 4 = some 0x80000000 ∧
    gives (.rem (fr 4 1 2 0 .i32)) (abc 0xFFFFFFF9 2 0) 4 = some 0xFFFFFFFF := by decide +kernel
/-- The bytes of "FP8 and MXFP4 bytes", converted to FP32. -/
theorem test_cvt_fp8 : (([(0x7E, 0x43E00000), (0x7F, 0x7FC00000), (0xC4, 0xC0400000), (0x01, 0x3B000000)] : List (Word × Word)).all fun x =>
      gives (.cvtF (fr 4 1 0 0 .f32 7)) (abc x.1 0 0) 4 = some x.2) = true ∧
    (([(0x7B, 0x47600000), (0x7C, 0x7F800000), (0xFD, 0x7FC00000), (0x03, 0x38400000)] : List (Word × Word)).all fun x =>
      gives (.cvtF (fr 4 1 0 0 .f32 8)) (abc x.1 0 0) 4 = some x.2) = true := by decide +kernel
/-- The nibbles of "FP8 and MXFP4 bytes" before their scale. -/
theorem test_cvt_e2m1 : (([(0xE, 0xC0800000), (0x9, 0xBF000000), (0x7, 0x40C00000), (0x3, 0x3FC00000)] : List (Word × Word)).all fun x =>
      gives (.cvtF (fr 4 1 0 0 .f32 9)) (abc x.1 0 0) 4 = some x.2) = true := by decide +kernel
/-- "One value, two random draws". -/
theorem test_cvt_sr : gives (.cvtSr (fr 4 1 2 0 .bf16 4)) (abc 0x3F80A000 0xFFFF1234 0) 4 = some 0x3F80 ∧
    gives (.cvtSr (fr 4 1 2 0 .bf16 4)) (abc 0x3F80A000 0x0000A000 0) 4 = some 0x3F81 := by decide +kernel
/-- "A renormalisation step and what it drops". -/
theorem test_renormalise : promote [(⟨2 ^ 45 + 3, 0⟩, .fin false (2 ^ 45) (-20)), (⟨5, 0⟩, .fin false 0 0), (⟨-7, 0⟩, .fin false 0 0)] (-20) =
    ([⟨2 ^ 45 + 2, 0⟩, ⟨2, 0⟩, ⟨-4, 0⟩], -19) := by decide +kernel
/-- "Why the promotion order fixes a tile". -/
theorem test_promotion_order :
    let run := fun (cs : List Nat) => cs.foldl (fun (x : Elem × Int) c =>
      let r := promote [(x.1, .fin false c 0)] x.2
      (r.1.headD x.1, r.2)) (⟨0, 0⟩, 0)
    run [2 ^ 46 - 1, 1, 1] = (⟨2 ^ 45, 0⟩, 1) ∧ run [1, 1, 2 ^ 46 - 1] = (⟨2 ^ 45 + 1, 0⟩, 1) := by decide +kernel

/-! ### Witnesses: register words -/

def rowOk (f : Instr → Option RRow) (i : Instr) : Bool :=
  match f i with
  | some x => i.wf && (en s0).sh.vOk (aluVs x.w x.nd x.na x.nb x.nc)
  | none => false
/-- A statement over rows meets every word of a list of well-formed words of its rows. -/
theorem rows_run (f : Instr → Option RRow) (l : List Instr) (hl : l.all (rowOk f) = true)
    (h : ∀ (i : Instr) (x : RRow) (s : State) (e : Env), f i = some x → i.wf = true → Live s e →
      e.sh.vOk (aluVs x.w x.nd x.na x.nb x.nc) = true → Answers (exec i s) fun t => Acts s t e (aluWrites e x.w x.nd x.na x.nb x.nc x.f) id 0) :
    ∀ i ∈ l, Runs (exec i s0) := by
  intro i hi
  have hr := List.all_eq_true.mp hl i hi
  unfold rowOk at hr
  split at hr
  · rename_i x hx
    rw [Bool.and_eq_true] at hr
    exact runs (h i x s0 (en s0) hx hr.1 (live s0 alive) hr.2)
  · cases hr
theorem test_witness_IntegerArithmetic (h : Obligations.IntegerArithmetic) : ∀ i ∈ [.add (fr 4 1 2 0 .n32 1), .sub (fr 4 1 2 0 .i32),
    .mulLo (fr 4 1 2 0 .i32), .mulHi (fr 4 1 2 0 .n32), .mad (fr 4 1 2 3 .i32), .min (fr 4 1 2 0 .i32), .max (fr 4 1 2 0 .i32),
    .abs (fr 4 1 0 0 .i32 1), .neg (fr 4 1 0 0 .i32), .addI64 (fr 4 2 6 0 .i64), .subI64 (fr 4 2 6 0 .i64), .mulWide (fr 4 1 2 0 .n32),
    .lea (fr 4 2 1 0 .n64 3), .dot4 (fr 4 1 2 3 .n32), .dot2 (fr 4 1 2 3 .i32 1), .clamp (fr 4 1 2 3 .n32)], Runs (exec i s0) :=
  rows_run arith _ (by decide +kernel) h
theorem test_witness_LogicWords (h : Obligations.LogicWords) : ∀ i ∈ [.and (fr 4 1 2 0 .b32), .or (fr 4 2 6 0 .b64), .xor (fr 255 1 2 0 .b32),
    .andn (fr 4 1 2 0 .b32), .not (fr 4 2 0 0 .b64), .clz (fr 4 2 0 0 .b64), .popc (fr 4 1 0 0 .b32), .brev (fr 4 1 0 0 .b32)], Runs (exec i s0) :=
  rows_run logic _ (by decide +kernel) h
theorem test_witness_BitFields (h : Obligations.BitFields) : ∀ i ∈ [.bfx (fr 4 1 2 0 .i32), .bfi (fr 4 1 2 3 .b32), .pack (fr 4 1 2 0 .b16),
    .pack (fr 4 1 0 0 .b8 3), .unpack (fr 4 1 0 0 .e2m1 15)], Runs (exec i s0) := rows_run bitsRow _ (by decide +kernel) h
/-- Division by 0 with no trap, and with the trap of IDZ, at strand 0. -/
def idz : State := sheet (fun sh => { sh with strap := 0x20 })
theorem test_witness_DivisionAndRemainder (h : Obligations.DivisionAndRemainder) : Runs (exec (.div (fr 4 1 2 0 .i32)) s0) ∧
    Runs (exec (.rem (fr 4 1 2 0 .n32)) s0) ∧ Runs (exec (.div (fr 4 1 2 0 .i32)) idz) :=
  ⟨runs ((h _ _ true s0 (en s0) rfl (by decide +kernel) (live _ alive) (by decide +kernel)).1 (.inl (by decide +kernel))),
   runs ((h _ _ false s0 (en s0) rfl (by decide +kernel) (live _ alive) (by decide +kernel)).1 (.inl (by decide +kernel))),
   ⟨_, (h _ _ true idz (en idz) rfl (by decide +kernel) (live _ (by decide +kernel)) (by decide +kernel)).2.1 (some 0) (by decide +kernel)
     (by decide +kernel) (by decide +kernel) (by decide +kernel)⟩⟩
theorem test_witness_ImmediateWords (h : Obligations.ImmediateWords) : Runs (exec (.addi ⟨c0, 4, 1, 7⟩) s0) ∧ Runs (exec (.andi ⟨c0, 4, 1, 7⟩) s0) ∧
    Runs (exec (.ori ⟨c0, 4, 1, 7⟩) s0) ∧ Runs (exec (.xori ⟨c0, 4, 1, 7⟩) s0) ∧ Runs (exec (.movi ⟨cu, 4, 0, 7⟩) s0) ∧
    Runs (exec (.fmovi ⟨c0, 4, 0, 7⟩) s0) :=
  ⟨runs (h _ _ _ _ s0 (en s0) rfl (live _ alive) (by decide +kernel)),
   runs (h _ _ _ _ s0 (en s0) rfl (live _ alive) (by decide +kernel)),
   runs (h _ _ _ _ s0 (en s0) rfl (live _ alive) (by decide +kernel)),
   runs (h _ _ _ _ s0 (en s0) rfl (live _ alive) (by decide +kernel)),
   runs (h _ _ _ _ s0 (en s0) rfl (live _ alive) (by decide +kernel)),
   runs (h _ _ _ _ s0 (en s0) rfl (live _ alive) (by decide +kernel))⟩
theorem test_witness_ShiftWords (h : Obligations.ShiftWords) : Runs (exec (.shl (fr 4 1 2 0 .b32)) s0) ∧ Runs (exec (.shr (fr 4 2 0 0 .b64 0x13F)) s0) ∧
    Runs (exec (.sar (fr 4 2 1 0 .i64)) s0) ∧ Runs (exec (.rotl (fr 4 1 0 0 .b32 0x11F)) s0) :=
  ⟨runs (h _ _ _ s0 (en s0) rfl (by decide +kernel) (live _ alive) (by decide +kernel)),
   runs (h _ _ _ s0 (en s0) rfl (by decide +kernel) (live _ alive) (by decide +kernel)),
   runs (h _ _ _ s0 (en s0) rfl (by decide +kernel) (live _ alive) (by decide +kernel)),
   runs (h _ _ _ s0 (en s0) rfl (by decide +kernel) (live _ alive) (by decide +kernel))⟩
theorem test_witness_MovesAndSelects (h : Obligations.MovesAndSelects) : Runs (exec (.mov (fr 4 8 0 0 .b128)) s0) ∧
    Runs (exec (.sel (fr 4 1 2 7 .b32)) s0) :=
  ⟨runs (h.1 _ s0 (en s0) (by decide +kernel) (live _ alive) (by decide +kernel)),
   runs (h.2.1 _ s0 (en s0) (by decide +kernel) (live _ alive) (by decide +kernel))⟩
theorem test_witness_IntegerCompares (h : Obligations.IntegerCompares) : Runs (exec (.cmp (fr 7 2 4 0 .i64 5)) s0) ∧
    Runs (exec (.cmpi ⟨c0, 1, 1, 0xE0000001⟩) s0) :=
  ⟨runs (h.1 _ s0 (en s0) (by decide +kernel) (live _ alive) (by decide +kernel)),
   runs (h.2 _ s0 (en s0) (by decide +kernel) (live _ alive) (by decide +kernel))⟩
def frowOk (i : Instr) : Bool :=
  match condRow i with
  | some x => i.wf && (en s0).sh.vOk (aluVs x.w x.nd x.na x.nb x.nc)
  | none => false
/-- STRAP is 0, so no condition traps. -/
theorem test_witness_FloatWords (h : Obligations.FloatWords) : ∀ i ∈ [.fadd (fr 4 1 2 0 .f32), .fsub (fr 4 1 2 0 .f32), .fmul (fr 4 1 2 0 .f32),
    .fma (fr 4 1 2 3 .f32), .fdiv (fr 4 1 2 0 .f32), .fsqrt (fr 4 1 0 0 .f32), .fmin (fr 4 1 2 0 .f32 1), .fmax (fr 4 1 2 0 .f32),
    .fabs (fr 4 1 0 0 .f32), .fneg (fr 4 1 0 0 .f32), .fround (fr 4 1 0 0 .f32 1), .hadd2 (fr 4 1 2 0 .f16), .hmul2 (fr 4 1 2 0 .bf16),
    .hfma2 (fr 4 1 2 3 .f16), .dot4 (fr 4 1 2 3 .e5m2), .dot2 (fr 4 1 2 3 .bf16), .frcp (fr 4 1 0 0 .f32), .frsq (fr 4 1 0 0 .f32),
    .fexp2 (fr 4 1 0 0 .f32), .flog2 (fr 4 1 0 0 .f32), .ftanh (fr 4 1 0 0 .f32), .fsin (fr 4 1 0 0 .f32), .fcos (fr 4 1 0 0 .f32),
    .cvtF (fr 4 1 0 0 .e4m3 0x24), .cvtFi (fr 4 1 0 0 .n64 5), .cvtIf (fr 4 2 0 0 .bf16 3), .cvtSr (fr 4 1 2 0 .f16 4)],
    Runs (exec i s0) := by
  intro i hi
  have hr := List.all_eq_true.mp (by decide +kernel : List.all _ frowOk = true) i hi
  unfold frowOk at hr
  split at hr
  · rename_i x hx
    rw [Bool.and_eq_true] at hr
    exact runs (h i x s0 (en s0) hx hr.1 (live s0 alive) hr.2 fun y _ hy => by
      rw [show (en s0).sh.strap = 0 by decide +kernel] at hy
      simp at hy)
  · cases hr
/-- 1 / 0 at every strand, with the trap of DIVZERO. -/
def dz : State := sheet (fun sh => { sh with strap := 2, s := (sh.s.set 0 1 0x3F800000) })
/-- The premises of the statement on a word that traps, together. -/
abbrev trapsOk (i : Instr) (s : State) (bit : Nat) (cause : BitVec 8) (l : Nat × Cond) : Prop :=
  let cs := (raises (en s) i).getD []
  (i.wf = true ∧ s.env?.isSome = true ∧ raises (en s) i = some cs ∧ (bit, cause) ∈ condCauses ∧ (en s).sh.strap.getLsbD bit = true) ∧
  l ∈ cs ∧ l.2.getLsbD bit = true ∧ (∀ m ∈ cs, m.2.getLsbD bit = true → l.1 ≤ m.1) ∧
  ∀ y ∈ condCauses, y.2 < cause → (en s).sh.strap.getLsbD y.1 = true → ∀ z ∈ cs, z.2.getLsbD y.1 = false
theorem trap_runs (h : Obligations.ConditionTraps) {i : Instr} {s : State} {bit : Nat} {cause : BitVec 8} {l : Nat × Cond}
    (k : trapsOk i s bit cause l) : Runs (exec i s) :=
  ⟨_, h i s (en s) _ bit cause l k.1.1 (live _ k.1.2.1) k.1.2.2.1 k.1.2.2.2.1 k.1.2.2.2.2 k.2.1 k.2.2.1 k.2.2.2.1 k.2.2.2.2⟩
/-- The trap of NV, with V1 of strand 3 a signalling NaN. -/
def nv : State := sheet (fun sh => { sh with strap := 1 }) (abc 0x7F800001 0 0)
/-- A uniform division, a compare of strand 3, a scan, a reduction (strand 127) and a pair. -/
theorem test_witness_ConditionTraps (h : Obligations.ConditionTraps) : Runs (exec (.fdiv ⟨cu, 4, 1, 2, 0, .f32, .rne, false, 0⟩) dz) ∧
    Runs (exec (.fcmp (fr 7 1 2 0 .f32 2)) nv) ∧ Runs (exec (.scan (fr 4 1 0 0 .f32)) nv) ∧ Runs (exec (.lred (fr 4 1 0 0 .f32)) nv) ∧
    Runs (exec (.pairedWord ⟨0, ⟨1, 4, 1, 2⟩, ⟨0x12, 7, 6, 0⟩⟩) nv) :=
  ⟨trap_runs h (bit := 1) (cause := 0x31) (l := (127, Cond.dz)) (by decide +kernel),
   trap_runs h (bit := 0) (cause := 0x30) (l := (3, Cond.nv)) (by decide +kernel),
   trap_runs h (bit := 0) (cause := 0x30) (l := (3, Cond.nv)) (by decide +kernel),
   trap_runs h (bit := 0) (cause := 0x30) (l := (127, Cond.nv)) (by decide +kernel),
   trap_runs h (bit := 0) (cause := 0x30) (l := (3, Cond.nv)) (by decide +kernel)⟩
theorem test_witness_FloatSpecialValues (h : Obligations.FloatSpecialValues) :
    (fp32Op .rne false (FV.add .rne (rd32 false 0x7F800001) (rd32 false 0))).1 = 0x7FC00000 ∧
    (fp32Op .rne false (FV.sqrt (rd32 false 0xFFC00000))).1 = 0x7FC00000 ∧ (absNeg true false 0xFF800000).2 = 0 ∧
    (fp32Op .rne false (FV.minMax true false (rd32 false 0) (rd32 false 0x80000000)) =
      fp32Op .rne false (FV.minMax true false (rd32 false 0x80000000) (rd32 false 0))) ∧
    (fp32Op .rne false (FV.fma .rne (rd32 false 0) (rd32 false 5) (rd32 false 0x7F800001))).2 = Cond.nv :=
  ⟨(h.1 (fr 4 1 2 0 .f32) (.fadd (fr 4 1 2 0 .f32)) _ 0x7F800001 0 0 0 (by decide) rfl (by decide)).1,
   (h.2.2.1 (fr 4 1 0 0 .f32) (.fsqrt (fr 4 1 0 0 .f32)) _ 0xFFC00000 0 0 0 (by decide) rfl (by decide)).1,
   (h.2.2.2.1 (fr 4 1 0 0 .f32) true _ 0xFF800000 0 0 0 rfl rfl (by decide)).2,
   h.2.2.2.2.1 (fr 4 1 2 0 .f32) (.fmin (fr 4 1 2 0 .f32)) _ 0 0x80000000 0 0 (by decide) rfl,
   (h.2.1 (fr 4 1 2 8 .f32) _ 0 5 0x7F800001 0 rfl (by decide)).2.1 (by decide)⟩
/-- To e4m3 with SAT from FP32, and the other way. -/
def narrowing : FR := { fr 4 1 0 0 .e4m3 36 with ftz := false }
/-- A NaN, an infinity, -0, 512 and 448 to e4m3; a quiet NaN, -infinity, 2^31 and -2^31 to i32; 2^24 - 1 from i32. -/
theorem test_witness_FloatSpecialValues_conversions (h : Obligations.FloatSpecialValues) :
    let f := fun a => ((floatRow (.cvtF narrowing)).elim (0, 0) fun x => x.f a 0 0 0)
    let g := fun a => ((floatRow (.cvtFi (fr 4 1 0 0 .i32 4))).elim (0, 0) fun x => x.f a 0 0 0)
    (f 0x7F800001 = (0x7F, Cond.nv) ∧ f 0xFF800000 = (0xFE, 0) ∧ f 0x80000000 = (0x80, 0) ∧ f 0x44000000 = (0x7E, Cond.of_ ||| Cond.nx) ∧
      f 0x43E00000 = (0x7E, 0)) ∧
    ((g 0x7FC00000).1.toNat % 2 ^ 32 = 0 ∧ (g 0xFF800000).1.toNat % 2 ^ 32 = 2 ^ 31 ∧ (g 0x4F000000).2 = Cond.nv ∧ (g 0xCF000000).2 = 0) ∧
    ((floatRow (.cvtIf (fr 4 1 0 0 .f32 0))).elim 0 fun x => (x.f 0xFFFFFF 0 0 0).1) = 0x4B7FFFFF :=
  have c := fun a => h.2.2.2.2.2.1 narrowing (.cvtF narrowing) _ a 0 0 0 (.head _) (by decide) rfl
  have i := fun a => h.2.2.2.2.2.2.1 (fr 4 1 0 0 .i32 4) _ a 0 0 0 (by decide) rfl
  ⟨⟨(c 0x7F800001).1 (by decide) (by decide), (c 0xFF800000).2.1 (by decide) (by decide) rfl rfl, (c 0x80000000).2.2.1 rfl rfl,
    (c 0x44000000).2.2.2.1 ⟨by decide, by decide, by decide⟩ rfl (by decide),
    (c 0x43E00000).2.2.2.2 ⟨by decide, by decide, by decide⟩ (by decide) (by decide) ⟨by decide, by decide, by decide⟩⟩,
   ⟨((i 0x7FC00000).1 (by decide)).1, ((i 0xFF800000).2.1 (by decide)).1, ((i 0x4F000000).2.2 ⟨by decide, by decide, by decide⟩ (by decide) (by decide)).2,
    ((i 0xCF000000).2.2 ⟨by decide, by decide, by decide⟩ (by decide) (by decide)).2⟩,
   (congrArg Prod.fst ((h.2.2.2.2.2.2.2 (fr 4 1 0 0 .f32 0) _ 0xFFFFFF 0 0 0 (by decide) rfl).2 23 (2 ^ 23 - 1) (by decide) (by decide) (by decide))).trans
     (by decide +kernel)⟩
theorem test_witness_FloatCompare (h : Obligations.FloatCompare) : Runs (exec (.fcmp (fr 7 2 4 0 .f32 7)) s0) ∧
    Runs (exec (.fcmp (fr 7 2 4 0 .f32 2)) (sheet (fun sh => { sh with strap := 1 }))) :=
  ⟨runs (h _ s0 (en s0) (by decide +kernel) (live _ alive) (by decide +kernel) (.inl (by decide +kernel))),
   runs (h _ _ (en _) (by decide +kernel) (live _ (by decide +kernel)) (by decide +kernel) (.inr (by decide +kernel)))⟩
theorem test_witness_FloatClass (h : Obligations.FloatClass) : Runs (exec (.fclass (fr 4 1 0 0 .e4m3)) s0) :=
  runs (h _ s0 (en s0) (by decide +kernel) (live _ alive) (by decide +kernel)).2.2.2.2
theorem test_witness_Shuffles (h : Obligations.Shuffles) : Runs (exec (.shflIdx (fr 4 1 2 3 .b32 0x11)) s0) ∧ Runs (exec (.shflXor (fr 4 1 2 0 .b32 5)) s0) ∧
    Runs (exec (.shflUp (fr 4 1 2 0 .b32 9)) s0) ∧ Runs (exec (.shflDown (fr 4 1 2 0 .b32)) s0) :=
  ⟨runs (h _ _ _ s0 (en s0) rfl (by decide +kernel) (live _ alive) (by decide +kernel)),
   runs (h _ _ _ s0 (en s0) rfl (by decide +kernel) (live _ alive) (by decide +kernel)),
   runs (h _ _ _ s0 (en s0) rfl (by decide +kernel) (live _ alive) (by decide +kernel)),
   runs (h _ _ _ s0 (en s0) rfl (by decide +kernel) (live _ alive) (by decide +kernel))⟩
theorem test_witness_MaskRegisterWords (h : Obligations.MaskRegisterWords) : Runs (exec (.vote (fr 4 1 0 0 .b32 6)) s0) ∧
    Runs (exec (.kop (fr 4 1 2 0 .i32 3)) s0) ∧ Runs (exec (.kpop (fr 4 1 0 0 .i32 1)) s0) ∧ Runs (exec (.kfirst (fr 4 1 0 0 .i32)) s0) :=
  ⟨runs ((h _ s0 (en s0) (live _ alive)).1 (by decide +kernel) (by decide +kernel)), runs ((h _ s0 (en s0) (live _ alive)).2.1 (by decide +kernel)),
   runs ((h _ s0 (en s0) (live _ alive)).2.2.1 (by decide +kernel)), runs ((h _ s0 (en s0) (live _ alive)).2.2.2 (by decide +kernel))⟩
theorem test_witness_ScansAndReductions (h : Obligations.ScansAndReductions) : Runs (exec (.scan (fr 4 1 0 0 .f32 8)) s0) ∧
    Runs (exec (.lred (fr 4 1 0 0 .f32)) s0) :=
  ⟨runs ((h (fr 4 1 0 0 .f32 8) s0 (en s0) (live _ alive) (by decide +kernel)).1 (by decide +kernel) fun y _ hy => by
      rw [show (en s0).sh.strap = 0 by decide +kernel] at hy
      simp at hy),
   runs ((h (fr 4 1 0 0 .f32) s0 (en s0) (live _ alive) (by decide +kernel)).2 (by decide +kernel) fun y _ hy => by
      rw [show (en s0).sh.strap = 0 by decide +kernel] at hy
      simp at hy)⟩
theorem test_witness_BroadcastWords (h : Obligations.BroadcastWords) : Runs (exec (.bcast (fr 4 79 0 0 .b32)) s0) ∧
    Runs (exec (.bcastGet (fr 4 1 6 0 .b32 1)) s0) :=
  ⟨runs ((h _ s0 (en s0) (live _ alive)).1 (by decide +kernel)), runs ((h _ s0 (en s0) (live _ alive)).2.1 (by decide +kernel))⟩
theorem test_witness_Generators (h : Obligations.Generators) : Runs (exec (.rng (fr 4 8 6 0 .i32)) s0) ∧ Runs (exec (.noise (fr 4 0 0 0 .b32)) s0) ∧
    Runs (exec (.noiseSt (fr 4 0 0 0 .b32 1)) s0) :=
  ⟨runs ((h _ s0 (en s0) (live _ alive)).1 (by decide +kernel)),
   runs ((h _ s0 (en s0) (live _ alive)).2 (by decide +kernel) (by unfold Env.flagRoom; decide +kernel)).1,
   runs ((h _ s0 (en s0) (live _ alive)).2 (by decide +kernel) (by unfold Env.flagRoom; decide +kernel)).2⟩
theorem test_witness_PairedWords (h : Obligations.PairedWords) : Runs (exec (.pairedWord ⟨0, ⟨4, 1, 2, 3⟩, ⟨0x12, 2, 5, 0⟩⟩) s0) :=
  runs (h _ s0 (en s0) (by decide +kernel) (live _ alive) (by decide +kernel) fun y _ hy => by
      rw [show (en s0).sh.strap = 0 by decide +kernel] at hy
      simp at hy)
theorem test_witness_LaneidRule (h : Obligations.LaneidRule) : Runs (exec (.laneid (fr 9 0 0 0 .i32)) s0) :=
  runs (h s0 (en s0) _ (live _ alive) (by decide +kernel) (by decide +kernel)).2.2.2.2.2

/-! ### Witnesses: control, tasks, traps, system registers -/

/-- Headers at 0x200 (N = 2) and 0x300 (N = 1, LE = 1) beside the clause in progress. -/
def prog : State := { s0 with mem := Memory.write (Memory.write s0.mem 0x200 (leBytes 8 0x002000FF00000000)) 0x300 (leBytes 8 0x001000FF20000000) }
def fc (disp : BitVec 25) (a : BitVec 8 := 0) (mod : BitVec 16 := 0) : FC := ⟨c0, disp, a, mod⟩
def rc (a : BitVec 8 := 0) (mod : BitVec 17 := 0) (d b : BitVec 8 := 0) : FRC := ⟨c0, d, a, b, 0, mod⟩
theorem plive : Live prog (en prog) := live _ (by decide +kernel)
theorem header_at (s : State) (e : Env) (a h : DWord) (hc : canonical a = true) (hm : a.toNat % 8 = 0)
    (hf : s.fetch e.r e.q.core e.q.ctx a = .word h) (hh : isHeader h = true) : HeaderAt s e a h := ⟨hc, hm, hf, hh⟩
def lvl (cnt beg fin nst : Nat) (win : Word := 0) : Slot :=
  ⟨BitVec.ofNat 32 cnt, BitVec.ofNat 64 beg, BitVec.ofNat 64 fin, BitVec.ofNat 4 nst, win, 0, lowMask 96, 0⟩
theorem test_witness_Branches (h : Obligations.Branches) :
    let p := setS [(6, 0x200), (7, 0)] prog
    Runs (exec (.br (fc 0x40)) p) ∧ Runs (exec (.brc (fc 0x40 4 5)) p) ∧ Runs (exec (.brm (fc 0x40 1 2)) p) ∧ Runs (exec (.jmpi (rc 6)) p) ∧
      Runs (exec (.brc (fc 0x40 4 1)) p) ∧ Runs (exec (.brm (fc 0x40 1 0)) p) :=
  have hp := h (setS [(6, 0x200), (7, 0)] prog) (en _) (live _ (by decide +kernel))
  have ht := hp.1 0x200 0x002000FF00000000
    (header_at _ _ _ _ (by decide +kernel) (by decide +kernel) (by decide +kernel) (by decide +kernel)) (.inl (by decide +kernel))
  ⟨runs (ht.1 (fc 0x40) (by decide +kernel)), runs (ht.2.1 (fc 0x40 4 5) (by decide +kernel) (by decide +kernel) (by decide +kernel)),
   runs (ht.2.2.1 (fc 0x40 1 2) (by decide +kernel) (by decide +kernel)), runs (ht.2.2.2 (rc 6) (by decide +kernel)),
   runs (hp.2.1 (fc 0x40 4 1) (by decide +kernel) (by decide +kernel)), runs (hp.2.2 (fc 0x40 1 0) (by decide +kernel))⟩
/-- With a level open, a target at the level's last header is within it. -/
def inLevel : State := sheet (fun sh => { sh with ldep := 1, fbase := 3, slots := [(3, lvl 2 0x200 0x300 1)] }) prog
theorem test_witness_Branches_level (h : Obligations.Branches) : Runs (exec (.br (fc 0x60)) inLevel) :=
  runs (((h inLevel (en _) (live _ (by decide +kernel))).1 0x300 0x001000FF20000000
    (header_at _ _ _ _ (by decide +kernel) (by decide +kernel) (by decide +kernel) (by decide +kernel))
    (.inr ⟨by decide +kernel, by decide +kernel⟩)).1 (fc 0x60) (by decide +kernel))
def linked : State := sheet (fun sh => { sh with fbase := 4, s := ((sh.s.set 0 4 0x202).set 0 5 0x02000000) }) prog
theorem test_witness_CallsAndReturns (h : Obligations.CallsAndReturns) : Runs (exec (.call (fc 0x40 20)) prog) ∧ Runs (exec (.ret (rc 4)) linked) :=
  ⟨runs ((h prog (en prog) plive).1 (fc 0x40 20) 0x002000FF00000000
     (header_at _ _ _ _ (by decide +kernel) (by decide +kernel) (by decide +kernel) (by decide +kernel))),
   runs ((h linked (en _) (live _ (by decide +kernel))).2 (rc 4) 0x002000FF00000000 (by decide +kernel) (by decide +kernel) (by decide +kernel)
     (by decide +kernel) (header_at _ _ _ _ (by decide +kernel) (by decide +kernel) (by decide +kernel) (by decide +kernel)))⟩
theorem test_witness_MaskStackWords (h : Obligations.MaskStackWords) : Runs (exec (.mpush (rc 7)) s0) ∧ Runs (exec (.melse (rc 7 1)) s0) ∧
    Runs (exec (.mpop (rc 0 2)) s0) :=
  ⟨runs (h _ s0 (en s0) (live _ alive)).1, runs (h _ s0 (en s0) (live _ alive)).2.1, runs (h _ s0 (en s0) (live _ alive)).2.2⟩
/-- At the third word of the clause, after a `nop`. -/
def third : State := sheet (fun sh => { sh with idx := 2, pc := 16 }) { prog with mem := Memory.write prog.mem 8 (leBytes 8 0x7F00000000000000) }
def twoLevels : State := sheet (fun sh => { sh with ldep := 2, fbase := 2, slots := [(2, lvl 2 0x200 0x300 1), (3, lvl 2 0x200 0x300 1)] })
  (setS [(6, 0x200), (7, 0)] prog)
theorem test_witness_LoopWords (h : Obligations.LoopWords) : Runs (exec (.loop (fc 0x40 6 0)) third) ∧ Runs (exec (.lbreak (fc 0 0 1)) inLevel) ∧
    Runs (exec (.lexit (fc 0x40 0 1)) twoLevels) ∧ Runs (exec (.lexit (fc 0x40 0 2)) twoLevels) ∧ Runs (exec (.brx (rc 6 2)) twoLevels) :=
  have hx := h twoLevels (en _) (live _ (by decide +kernel))
  have ha := header_at twoLevels (en twoLevels) 0x200 0x002000FF00000000 (by decide +kernel) (by decide +kernel) (by decide +kernel) (by decide +kernel)
  ⟨runs ((h third (en third) (live _ (by decide +kernel))).1 (fc 0x40 6 0) (by decide +kernel) (by decide +kernel) fun i h0 h1 x hx => by
     have h2 : (en third).sh.idx = 2 := by decide +kernel
     obtain rfl : i = 1 := by omega
     rw [show third.fetch (en third).r (en third).q.core (en third).q.ctx ((en third).sh.hdrAddr + BitVec.ofNat 64 (8 * 1)) =
       .word 0x7F00000000000000 by decide +kernel] at hx
     cases hx
     decide),
   runs ((h inLevel (en _) (live _ (by decide +kernel))).2.1 (fc 0 0 1) (by decide +kernel) (by decide +kernel) (by decide +kernel)),
   runs ((hx.2.2 1 0x200 0x002000FF00000000 (by decide +kernel) (by decide +kernel) ha (.inr ⟨by decide +kernel, by decide +kernel⟩)).1 (fc 0x40 0 1)
     (by decide +kernel) (by decide +kernel) (by decide +kernel)),
   runs ((hx.2.2 2 0x200 0x002000FF00000000 (by decide +kernel) (by decide +kernel) ha (.inl (by decide +kernel))).1 (fc 0x40 0 2)
     (by decide +kernel) (by decide +kernel) (by decide +kernel)),
   runs ((hx.2.2 2 0x200 0x002000FF00000000 (by decide +kernel) (by decide +kernel) ha (.inl (by decide +kernel))).2 (rc 6 2)
     (by decide +kernel) (by decide +kernel) (by decide +kernel))⟩
/-- At a clause's end: no level; a `loop` to open, its window at the end of the allocation; the last pass and one before it. -/
def atEnd (f : Sheet → Sheet) : State := sheet (fun sh => f { sh with idx := 16 }) prog
def opening : State := atEnd fun sh => { sh with
  fbase := 3
  slots := [(0, lvl 0 0 0 1), (1, lvl 0 0 0 1), (2, lvl 0 0 0 1 0x0400)]
  pend := some ⟨3, 0x200, 0xFC08, 2⟩ }
def closing (cnt : Nat) : State := atEnd fun sh => { sh with ldep := 1, hdr := { sh.hdr with le := 1 }, slots := [(0, lvl cnt 0x200 0x300 1)] }
theorem test_witness_ClauseEnds (h : Obligations.ClauseEnds) : Runs (exec .loopBackEdge (atEnd id)) ∧ Runs (exec .loopBackEdge opening) ∧
    Runs (exec .loopBackEdge (closing 1)) ∧ Runs (exec .loopBackEdge (closing 2)) :=
  ⟨runs ((h (atEnd id) (en _) (live _ (by decide +kernel)) (by decide +kernel)).1 (by decide +kernel) (by decide +kernel)),
   runs ((h opening (en _) (live _ (by decide +kernel)) (by decide +kernel)).2.1 ⟨3, 0x200, 0xFC08, 2⟩ 0x002000FF00000000 (by decide +kernel) (by decide +kernel)
     (header_at _ _ _ _ (by decide +kernel) (by decide +kernel) (by decide +kernel) (by decide +kernel)) (by decide +kernel) (.inl (by decide +kernel))
     (.inr (by decide +kernel))),
   runs ((h (closing 1) (en _) (live _ (by decide +kernel)) (by decide +kernel)).2.2.1 (by decide +kernel) (by decide +kernel) (by decide +kernel)),
   runs ((h (closing 2) (en _) (live _ (by decide +kernel)) (by decide +kernel)).2.2.2 0x002000FF00000000 (by decide +kernel) (by decide +kernel) ⟨0, by decide +kernel⟩
     (header_at _ _ _ _ (by decide +kernel) (by decide +kernel) (by decide +kernel) (by decide +kernel)))⟩
def atHeader (pc ldep : Nat) : State := sheet (fun sh => { sh with idx := 0, pc := BitVec.ofNat 64 pc, ldep, slots := [(0, lvl 2 0x200 0x300 1)] }) prog
/-- A sheet whose first word is three cycles away. -/
def ahead : State := sheet (fun sh => { sh with startAt := 3 }) (atHeader 0x200 0)
abbrev headOk (s : State) (w : DWord) : Prop :=
  (s.env?.isSome = true ∧ (en s).sh.idx = 0) ∧ (en s).sh.early = none ∧ (en s).sh.startAt ≤ s.cycles (en s).q.core + 1 ∧
    s.fetch (en s).r (en s).q.core (en s).q.ctx (en s).sh.pc = .word w ∧ s.fetchUe (en s).q.core (en s).q.ctx (en s).sh.pc = none
theorem head_at {s : State} {w : DWord} (h : headOk s w) : Live s (en s) ∧ (en s).sh.idx = 0 ∧ HeaderNow s (en s) w :=
  ⟨live _ h.1.1, h.1.2, .inr ⟨h.2.1, h.2.2.1, h.2.2.2.1⟩, h.2.2.2.2⟩
theorem test_witness_ClauseStarts (h : Obligations.ClauseStarts) : Runs (exec .clauseHeaderFetch (atHeader 0x200 0)) ∧
    Runs (exec .clauseHeaderFetch (atHeader 0x300 1)) ∧ Runs (exec .clauseHeaderFetch ahead) :=
  have a := head_at (s := atHeader 0x200 0) (w := 0x002000FF00000000) (by decide +kernel)
  have b := head_at (s := atHeader 0x300 1) (w := 0x001000FF20000000) (by decide +kernel)
  ⟨runs ((h _ (en _) _ a.1 a.2.1).2 a.2.2 (by decide +kernel) (.inl (by decide +kernel))),
   runs ((h _ (en _) _ b.1 b.2.1).2 b.2.2 (by decide +kernel) (.inr (by decide +kernel))),
   runs ((h ahead (en _) 0x002000FF00000000 (live _ (by decide +kernel)) (by decide +kernel)).1 (by decide +kernel) (by decide +kernel) (by decide +kernel))⟩
/-- A second sheet of the quire, and outstanding spawned tasks. -/
def pairQ (other : Sheet) (joins : Nat) : State := quire (fun q => { q with nsheets := 2, joins, sheets := q.sheets ++ [(1, other)] })
def alone : State := pairQ { loadSheet with exited := true } 0
/-- A task of a record that quire 70 spawned, whose one sheet waits in `join`. -/
def tasked : State :=
  let s := quire (fun q => { q with task := true, recs := [⟨some 70, 0, 0, 0, 0, 0⟩] })
  { s with quires := s.quires.put 70 { loadQuire 1 with joins := 1, sheets := [(0, { loadSheet with wait := .join })] } }
theorem test_witness_TaskWords (h : Obligations.TaskWords) :
    Runs (exec (.spawn (fc 0x40 253)) s0) ∧ Runs (exec (.spawn (fc 0 0 0x8006)) (setS [(6, 0x200), (7, 0)])) ∧
    Runs (exec (.join (rc)) s0) ∧ Runs (exec (.join (rc)) (pairQ loadSheet 1)) ∧ Runs (exec (.exit (rc)) (pairQ loadSheet 0)) ∧
    Runs (exec (.exit (rc)) alone) ∧ Runs (exec (.exit (rc)) tasked) :=
  ⟨runs ((h s0 (en s0) (live _ alive)).1 (fc 0x40 253) (by decide +kernel) (by decide +kernel)),
   runs ((h (setS [(6, 0x200), (7, 0)]) (en _) (live _ (by decide +kernel))).1 (fc 0 0 0x8006) (by decide +kernel) (by decide +kernel)),
   runs ((h s0 (en s0) (live _ alive)).2.1 (rc) (by decide +kernel)),
   runs ((h (pairQ loadSheet 1) (en _) (live _ (by decide +kernel))).2.2.1 (rc) (by decide +kernel)),
   runs ((h (pairQ loadSheet 0) (en _) (live _ (by decide +kernel))).2.2.2.1 (rc) (by decide +kernel) (by decide +kernel) ⟨(1, loadSheet), by decide +kernel⟩),
   runs ((h alone (en _) (live _ (by decide +kernel))).2.2.2.2.1 (rc) (by decide +kernel) (by decide +kernel) (by decide +kernel) (by decide +kernel)
     (by decide +kernel) ⟨by decide +kernel, by decide +kernel⟩),
   runs ((h tasked (en _) (live _ (by decide +kernel))).2.2.2.2.2 (rc) (by decide +kernel) (by decide +kernel) (by decide +kernel)
     (by decide +kernel) (by decide +kernel) (by decide +kernel) ⟨by decide +kernel, by decide +kernel⟩)⟩
def barred (a : Nat) : State := quire (fun q => { q with bars := [(15, ⟨2, a, 5⟩)] }) (setS [(4, 16), (5, 1)])
def posting (s : State) : State := sheet (fun sh => { sh with posts := 1 }) s
theorem test_witness_BarrierWords (h : Obligations.BarrierWords) :
    Runs (exec (.barInit (rc 0 0 0 4)) (barred 0)) ∧ Runs (exec (.barInit (rc 15 0 0 5)) (barred 0)) ∧ Runs (exec (.barArr (rc 15 1)) (barred 0)) ∧
    Runs (exec (.barSync (rc 15 3)) (barred 1)) ∧ Runs (exec (.barWait (rc 15 2)) (barred 0)) ∧ Runs (exec (.barArr (rc 15 1)) (posting (barred 0))) :=
  have l0 := live (barred 0) (by decide +kernel)
  ⟨runs ((h (rc 0 0 0 4) _ _ l0).1 none (by decide +kernel) (by decide +kernel) (by decide +kernel)),
   runs ((h (rc 15 0 0 5) _ _ l0).1 (some ⟨2, 0, 5⟩) (by decide +kernel) (by decide +kernel) (by decide +kernel)),
   runs (((h (rc 15 1) _ _ l0).2.2 ⟨2, 0, 5⟩ (by decide +kernel)).1 (by decide +kernel)),
   runs (((h (rc 15 3) (barred 1) (en _) (live _ (by decide +kernel))).2.2 ⟨2, 1, 5⟩ (by decide +kernel)).2.1 (by decide +kernel)),
   runs ((h (rc 15 2) _ _ l0).2.2 ⟨2, 0, 5⟩ (by decide +kernel)).2.2,
   runs ((h (rc 15 1) (posting (barred 0)) (en _) (live _ (by decide +kernel))).2.1 ⟨2, 0, 5⟩ (by decide +kernel) (.inl (by decide +kernel)) _ (.head _))⟩
theorem test_witness_PlainWords (h : Obligations.PlainWords) : Runs (exec (.nop (rc)) s0) ∧ Runs (exec (.pref ⟨c0, 0, 58, 255, .core, .rlx, .b8, 0, 0⟩) s0) ∧
    Runs (exec (.yield (rc 0 1)) s0) ∧ Runs (exec (.rgrow (rc 0 10 4)) s0) ∧ Runs (exec (.rshrink (rc 0 11)) s0) :=
  have p := h s0 (en s0) (live _ alive)
  ⟨runs (p.1 _), runs (p.2.1 _ (by decide +kernel)), runs (p.2.2.1 _), (p.2.2.2.1 (rc 0 10 4)).imp fun _ ht => ht.1, runs (p.2.2.2.2 _ (by decide +kernel))⟩
def handled : State := sheet (fun sh => { sh with tvec := 0x200, ldep := 1 }) prog
theorem test_witness_TrapWords (h : Obligations.TrapWords) : Runs (exec (.trap ⟨c0, 0, 0, 0xFFFF⟩) handled) ∧ Runs (exec (.brk ⟨c0, 0, 0, 7⟩) handled) ∧
    Runs (exec (.illegalOpcode 0xFF00000000000000) handled) :=
  have p := h handled (en handled) (live _ (by decide +kernel)) ⟨by decide +kernel, by decide +kernel, 0x002000FF00000000,
    header_at _ _ _ _ (by decide +kernel) (by decide +kernel) (by decide +kernel) (by decide +kernel)⟩
  ⟨runs (p.1 _), runs (p.2.1 _ fun d hd => by rw [show (en handled).cx.debug = none by decide +kernel] at hd; cases hd), runs (p.2.2 _)⟩
/-- In a handler, to return to the header, to a body word and to the clause's end. -/
def trapped (tpc : DWord) : State := sheet (fun sh => { sh with tstat := 0x80, thdr := 0x200, tpc }) prog
theorem test_witness_TrapReturn (h : Obligations.TrapReturn) :
    (∃ t, exec (.rte (rc)) (trapped 0x200) = .next t) ∧ (∃ t, exec (.rte (rc)) (trapped 0x218) = .next t) :=
  ⟨(h (rc) (trapped 0x200) (en _) 0x002000FF00000000 (live _ (by decide +kernel)) (by decide +kernel) (by decide +kernel)
     (header_at _ _ _ _ (by decide +kernel) (by decide +kernel) (by decide +kernel) (by decide +kernel)) (by decide +kernel) (.inl (by decide +kernel))
     (by decide +kernel) (by decide +kernel) (by decide +kernel)).imp fun _ ht => ht.1,
   (h (rc) (trapped 0x218) (en _) 0x002000FF00000000 (live _ (by decide +kernel)) (by decide +kernel) (by decide +kernel)
     (header_at _ _ _ _ (by decide +kernel) (by decide +kernel) (by decide +kernel) (by decide +kernel)) (by decide +kernel) (.inl (by decide +kernel))
     (by decide +kernel) (by decide +kernel) (by decide +kernel)).imp fun _ ht => ht.1⟩
/-- The placed program in a privileged context. -/
def priv : State := s0.modCtx 1 fun c => { c with desc := { c.desc with priv := true } }
theorem vlive : Live priv (en priv) := live _ (by decide +kernel)
theorem test_witness_SystemRegisterReads (h : Obligations.SystemRegisterReads) : Runs (exec (.rdsr ⟨cu, 4, 0, 0x10⟩) s0) ∧
    Runs (exec (.rdsr ⟨cu, 79, 0, 0x801⟩) priv) :=
  ⟨runs (h ⟨cu, 4, 0, 0x10⟩ s0 (en s0) (live _ alive) (by decide +kernel) (by decide +kernel)).1,
   runs (h ⟨cu, 79, 0, 0x801⟩ priv (en priv) vlive (by decide +kernel) (by decide +kernel)).1⟩
theorem test_witness_SystemRegisterWrites (h : Obligations.SystemRegisterWrites) : Runs (exec (.wrsr ⟨cu, 0, 4, 0x20⟩) s0) ∧
    Runs (exec (.wrsr ⟨cu, 0, 4, 0x32⟩) (setS [(4, 17)])) ∧ Runs (exec (.wrsr ⟨cu, 0, 4, 0x810⟩) priv) :=
  ⟨runs ((h ⟨cu, 0, 4, 0x20⟩ s0 (en s0) (live _ alive) (by decide +kernel) (.inl (by decide +kernel))).1 _ rfl),
   ⟨_, (h ⟨cu, 0, 4, 0x32⟩ (setS [(4, 17)]) (en _) (live _ (by decide +kernel)) (by decide +kernel) (.inl (by decide +kernel))).2.1 (by decide +kernel)⟩,
   runs ((h ⟨cu, 0, 4, 0x810⟩ priv (en priv) vlive (by decide +kernel) (.inr (by decide +kernel))).1 _ rfl)⟩
theorem test_witness_PrivilegedWords (h : Obligations.PrivilegedWords) : Runs (exec (.halt (rc)) priv) ∧ Runs (exec (.tlbinvAll 3) priv) ∧
    Runs (exec (.tlbinvContext 1 6) priv) ∧ Runs (exec (.tlbinvPage 1 4) priv) ∧ Runs (exec (.diefreq 8) priv) ∧ Runs (exec (.ctxctlSuspend 1) priv) ∧
    Runs (exec (.ctxctlResume 1) priv) :=
  have p := h priv (en priv) vlive (by decide +kernel)
  ⟨runs (p.1 _), runs (p.2.1 (.tlbinvAll 3) 3 _ (by decide) (by decide) (.inl (List.mem_singleton.mpr rfl))),
   runs (p.2.1 (.tlbinvContext 1 6) 6 _ (by decide) (by decide) (.inr ⟨1, .inl ⟨rfl, rfl⟩⟩)),
   runs (p.2.1 (.tlbinvPage 1 4) 4 _ (by decide) (by decide) (.inr ⟨1, .inr ⟨rfl, rfl⟩⟩)), runs (p.2.2.1 8 (by decide)),
   runs (p.2.2.2 1 (Ctx.fresh 0 { CtxDesc.none with ok := true, priv := true }) (by decide +kernel) (by decide +kernel)).1,
   runs ((p.2.2.2 1 (Ctx.fresh 0 { CtxDesc.none with ok := true, priv := true }) (by decide +kernel) (by decide +kernel)).2 rfl)⟩
/-- A flag set that names no flag, and a full flag. -/
def flagless : State := sheet (fun sh => { sh with hdr := { sh.hdr with seta := 15 } })
def fullFlag : State := sheet (fun sh => { sh with flags := [(0, 63)] })
def few : State := sheet (fun sh => { sh with alloc := 8 })
theorem test_witness_IssueChecks (h : Obligations.IssueChecks) : Runs (exec (.halt (rc)) s0) ∧ Runs (exec (.rdsr ⟨cu, 0, 0, 0x800⟩) s0) ∧
    Runs (exec (.ldC ⟨c0, 0, 0, 0, .sheet, .rlx, .b8, 0, 0⟩) flagless) ∧ Runs (exec (.add (fr 8 1 2 0 .i32)) few) ∧
    Runs (exec (.noise (fr 4 0 0 0 .b32)) fullFlag) :=
  have p := h s0 (en s0) (live _ alive)
  ⟨⟨_, p.1 (.halt (rc)) (rc) 0 0 0 (by decide +kernel) (.head _)⟩,
   ⟨_, p.2.1 (.rdsr ⟨cu, 0, 0, 0x800⟩) _ (.head _) (by decide +kernel) (by decide +kernel) (by decide +kernel)⟩,
   ⟨_, (h flagless (en _) (live _ (by decide +kernel))).2.2.1 _ ⟨c0, 0, 0, 0, .sheet, .rlx, .b8, 0, 0⟩ (.tail _ (.tail _ (.head _))) (by decide +kernel)⟩,
   ⟨_, (h few (en _) (live _ (by decide +kernel))).2.2.2.1 (.add (fr 8 1 2 0 .i32)) _ rfl (by decide +kernel) (by decide +kernel)⟩,
   runs ((h fullFlag (en _) (live _ (by decide +kernel))).2.2.2.2 (.noise (fr 4 0 0 0 .b32)) _ (.head _) (by decide +kernel) (by decide +kernel) (by decide +kernel))⟩
/-- A bad header: its handler is at 0x200; and a good one. -/
def badHeader : State := sheet (fun sh => { sh with idx := 0, pc := 0x300, tvec := 0x200 }) prog
theorem test_witness_HeaderRule (h : Obligations.HeaderRule) : Runs (exec .clauseHeaderFetch badHeader) ∧ Runs (exec .clauseHeaderFetch (atHeader 0x200 0)) :=
  have a := head_at (s := badHeader) (w := 0x001000FF20000000) (by decide +kernel)
  have b := head_at (s := atHeader 0x200 0) (w := 0x002000FF00000000) (by decide +kernel)
  ⟨runs ((h _ (en _) _ a.1 a.2.1 a.2.2 (by decide +kernel)).2.1 (by decide +kernel) (by decide +kernel) (by decide +kernel)),
   runs ((h _ (en _) _ b.1 b.2.1 b.2.2 (by decide +kernel)).2.2 (by decide +kernel) (by decide +kernel))⟩

/-! ### Witnesses: memory, vats, pools, copies -/

/-- Two plain pages, at 0x40000 and at the top of the first GiB, and an algebra page with table slot 1, at 0x48000; chamber, tiles, array. -/
def pages : List TlbEnt := [⟨1, 0x100000, 16384, 0x400F1⟩, ⟨1, 0x104000, 16384, 0x3FFFC0F1⟩, ⟨1, 0x108000, 16384, 0x486F1⟩]
def mapped : State :=
  quire (fun q => { q with chamg := 1, ntiles := 2, wmag := 1 })
    (setS [(10, 0x100000), (12, 0x107FF0), (14, 0x108000), (16, 4080)] (s0.modCore 0 fun c => { c with tlb := pages ++ c.tlb }))
def fm (base : BitVec 6) (size : Size) (t : BitVec 8 := 4) (ord : Ord := .rlx) : FM := ⟨cu, t, base, 255, .sheet, ord, size, 0, 0⟩
def fmk (base : BitVec 6) (size : Size) (kind : BitVec 4) (t : BitVec 8 := 4) : FMk := ⟨cu, t, base, 255, .sheet, .rlx, size, 0, kind, 0⟩
theorem mlive : Live mapped (en mapped) := live _ (by decide +kernel)
theorem only {P : Option Nat → Prop} {ls : List (Option Nat)} (h : ls = [none]) (p : P none) : ∀ l ∈ ls, P l := by
  subst h
  simpa using p
theorem plain_at (s : State) (e : Env) (need : DWord → Bool) (n : Nat) (a : DWord) (pa : Nat) (x : TlbEnt)
    (h : canonical a = true ∧ a.toNat % n = 0 ∧ pa % n = 0 ∧ (s.region pa = .hbm ∨ s.region pa = .host) ∧ s.reach e.cx.part pa = true)
    (hx : s.tlb e.q.core e.q.ctx a = some x ∧ x.pa a = pa ∧ need x.leaf = true ∧ x.leaf.getLsbD 9 = false) : Plain s e need n a pa :=
  ⟨h.1, h.2.1, h.2.2.1, h.2.2.2.1, h.2.2.2.2, x, hx⟩
theorem chamber_at (s : State) (e : Env) (n : Nat) (off : Int) (h : 0 ≤ off ∧ off + n ≤ 4096 * e.q.chamg ∧ off % n = 0)
    (hb : (s.core e.q.core).board = []) : InChamber s e n off := ⟨h.1, h.2.1, h.2.2, by simp [hb]⟩
theorem unbanked (e : Env) (h : e.cx.debug = none) : Unbanked e := by simp [Unbanked, h]
theorem room (e : Env) (fs : Bool) (h : e.sh.flagOf fs ≠ 15 ∧ e.sh.flags.get 0 (e.sh.flagOf fs) < 63) : e.flagRoom fs := h
theorem unqueued (s : State) (e : Env) (l : Option Nat) (pa n : Nat) (h : s.stores = []) : Unqueued s e l pa n := by simp [Unqueued, h]
/-- The first bytes of a page, the last 16 before the algebra page, and the last of the chamber. -/
theorem test_witness_LoadWords (h : Obligations.LoadWords) : Runs (exec (.ldG (fm 10 .b64)) mapped) ∧ Runs (exec (.ldG (fm 12 .b128)) mapped) ∧
    Runs (exec (.ldGx (fm 10 .b8)) mapped) ∧ Runs (exec (.ldC (fm 16 .b128)) mapped) :=
  have g := fun w => h w mapped (en mapped) mlive
  have f : (en mapped).flagRoom false := room _ _ (by decide +kernel)
  ⟨runs ((g (fm 10 .b64) f (by decide +kernel)).1 _ 1 _ (fun _ => 0x40000) (.inl ⟨rfl, rfl, rfl⟩) (by decide +kernel) (by decide +kernel) (by decide +kernel)
     (only (by decide +kernel) ⟨plain_at _ _ _ _ _ _ ⟨1, 0x100000, 16384, 0x400F1⟩ (by decide +kernel) (by decide +kernel), by decide +kernel, unqueued _ _ _ _ _ rfl⟩)),
   runs ((g (fm 12 .b128) f (by decide +kernel)).1 _ 1 _ (fun _ => 0x3FFFFFF0) (.inl ⟨rfl, rfl, rfl⟩) (by decide +kernel) (by decide +kernel) (by decide +kernel)
     (only (by decide +kernel) ⟨plain_at _ _ _ _ _ _ ⟨1, 0x104000, 16384, 0x3FFFC0F1⟩ (by decide +kernel) (by decide +kernel), by decide +kernel, unqueued _ _ _ _ _ rfl⟩)),
   runs ((g (fm 10 .b8) f (by decide +kernel)).1 _ 2 _ (fun _ => 0x40000) (.inr ⟨rfl, rfl, rfl⟩) (by decide +kernel) (by decide +kernel) (by decide +kernel)
     (only (by decide +kernel) ⟨plain_at _ _ _ _ _ _ ⟨1, 0x100000, 16384, 0x400F1⟩ (by decide +kernel) (by decide +kernel), by decide +kernel, unqueued _ _ _ _ _ rfl⟩)),
   runs ((g (fm 16 .b128) f (by decide +kernel)).2 _ rfl (by decide +kernel) (unbanked _ (by decide +kernel))
     (only (by decide +kernel) (chamber_at _ _ _ _ (by decide +kernel) (by decide +kernel))))⟩
theorem test_witness_StoreWords (h : Obligations.StoreWords) : Runs (exec (.stG (fm 12 .b128)) mapped) ∧ Runs (exec (.stGx (fm 10 .b16)) mapped) ∧
    Runs (exec (.stC (fm 16 .b128)) mapped) :=
  have g := fun w => h w mapped (en mapped) mlive
  ⟨runs ((g (fm 12 .b128) (by decide +kernel)).1 _ 1 _ (fun _ => 0x3FFFFFF0) (.inl ⟨rfl, rfl, rfl⟩) (by decide +kernel) (by decide +kernel) (by decide +kernel)
     (only (by decide +kernel) ⟨plain_at _ _ _ _ _ _ ⟨1, 0x104000, 16384, 0x3FFFC0F1⟩ (by decide +kernel) (by decide +kernel), unqueued _ _ _ _ _ rfl⟩)),
   runs ((g (fm 10 .b16) (by decide +kernel)).1 _ 2 _ (fun _ => 0x40000) (.inr ⟨rfl, rfl, rfl⟩) (by decide +kernel) (by decide +kernel) (by decide +kernel)
     (only (by decide +kernel) ⟨plain_at _ _ _ _ _ _ ⟨1, 0x100000, 16384, 0x400F1⟩ (by decide +kernel) (by decide +kernel), unqueued _ _ _ _ _ rfl⟩)),
   runs ((g (fm 16 .b128) (by decide +kernel)).2 _ rfl (by decide +kernel) (unbanked _ (by decide +kernel))
     (only (by decide +kernel) (chamber_at _ _ _ _ (by decide +kernel) (by decide +kernel))))⟩
theorem test_witness_AtomicWords (h : Obligations.AtomicWords) : Runs (exec (.atom (fmk 10 .b32 11)) mapped) ∧ Runs (exec (.cas (fm 10 .b64)) mapped) ∧
    Runs (exec (.atomC (fmk 16 .b64 8)) mapped) :=
  have g := h mapped (en mapped) mlive
  have f : (en mapped).flagRoom false := room _ _ (by decide +kernel)
  ⟨runs (g.1 _ _ _ _ _ _ _ _ _ _ (fun _ => 0x40000) (.inl ⟨fmk 10 .b32 11, rfl, rfl, rfl, rfl, rfl, rfl, rfl, rfl, rfl, rfl⟩) (.inl rfl) f (by decide +kernel)
     (by decide +kernel) (by decide +kernel) (by decide +kernel)
     (only (by decide +kernel) ⟨plain_at _ _ _ _ _ _ ⟨1, 0x100000, 16384, 0x400F1⟩ (by decide +kernel) (by decide +kernel), by decide +kernel, unqueued _ _ _ _ _ rfl⟩)),
   runs (g.1 _ _ _ _ _ _ _ _ _ _ (fun _ => 0x40000) (.inr ⟨fm 10 .b64, rfl, rfl, rfl, rfl, rfl, rfl, rfl, rfl, rfl, rfl⟩) (.inr rfl) f (by decide +kernel)
     (by decide +kernel) (by decide +kernel) (by decide +kernel)
     (only (by decide +kernel) ⟨plain_at _ _ _ _ _ _ ⟨1, 0x100000, 16384, 0x400F1⟩ (by decide +kernel) (by decide +kernel), by decide +kernel, unqueued _ _ _ _ _ rfl⟩)),
   runs (g.2 (fmk 16 .b64 8) _ rfl (.inr rfl) f (by decide +kernel) (by decide +kernel) (unbanked _ (by decide +kernel))
     (only (by decide +kernel) (chamber_at _ _ _ _ (by decide +kernel) (by decide +kernel))))⟩
theorem test_witness_FenceWords (h : Obligations.FenceWords) : Runs (exec (.fence ⟨c0, 0, 63, 255, .device, .sc, .b8, 0, 0⟩) s0) ∧
    Runs (exec (.fenceTr ⟨c0, 0, 63, 255, .host, .rlx, .b8, 0, 0⟩) s0) :=
  ⟨runs ((h _ s0 (en s0) (live _ alive)).1 (by decide +kernel) (by decide +kernel)),
   (((h _ s0 (en s0) (live _ alive)).2 (by decide +kernel)).imp fun _ ht => ht.1)⟩
/-- The first bytes of a table image with slots 1 (32-bit add) and 2 (64-bit add); a sheet with the one strand 0. -/
def image : List Byte := (List.range 48).map fun a => if a = 0 then 0xFF else if a = 16 ∨ a = 32 ∨ a = 33 then 2 else 0
def alg : State := sheet (fun sh => { sh with exm := 1 }) (mapped.modCtx 1 fun c => { c with tables := [(1, image)] })
/-- The table image at 0x40400 whose bytes are 0 but for KIND 1 of slot 1. -/
def loadable : State :=
  let s := setS [(20, 0x100400)] alg
  { s with mem := Memory.write s.mem 0x40410 [1] }
theorem header_len : (leBytes 8 loadHeader.pack.toNat).length = 8 := by decide +kernel
theorem loadable_byte (i : Nat) : imgB (loadable.readBytes 0x40400 1024) i = if i = 16 then 1 else 0 := by
  have hm : loadable.mem = Memory.write (Memory.write [] 0 (leBytes 8 loadHeader.pack.toNat)) 0x40410 [1] := by decide +kernel
  have ht : 0x50000 ≤ loadable.hbmTop := by decide +kernel
  unfold imgB State.readBytes
  by_cases hi : i < 1024
  · have hr : loadable.region (0x40400 + i) = .hbm := by
      unfold State.region
      rw [if_pos (by omega)]
    rw [List.getElem?_map, List.getElem?_range hi]
    simp only [Option.map_some, Option.getD_some, State.readByte, hr, hm]
    by_cases h16 : i = 16
    · subst h16
      decide +kernel
    · rw [Memory.get_write_other (by simp only [List.length_singleton]; omega), Memory.get_write_other (by rw [header_len]; omega), if_neg h16]
      rfl
  · rw [List.getElem?_eq_none (by simp; omega), if_neg (by omega)]
    rfl
theorem loadable_ok : tableFault (loadable.readBytes 0x40400 1024) = none := by
  have hb := loadable_byte
  generalize loadable.readBytes 0x40400 1024 = img at hb
  have hp : relPairs img = (List.range 256).map fun i => (i / 16, i % 16, 0) :=
    List.map_congr_left fun i _ => by
      unfold relEntry
      rw [hb, hb, if_neg (by omega), if_neg (by omega)]
  have hr : ∀ r ∈ [1, 2, 3, 4, 5, 6, 7, 8], rowFails img r = [] := by
    intro r hr
    simp only [List.mem_cons, List.not_mem_nil, or_false] at hr
    rcases hr with rfl | rfl | rfl | rfl | rfl | rfl | rfl | rfl <;>
      (unfold rowFails; simp only [hp, relEntry, slotPresent, slotKind, slotType, slotFp, hb]; decide +kernel)
  unfold tableFault
  rw [List.findSome?_eq_none_iff]
  intro r h
  rw [hr r h]
  rfl
def hit (l : Option Nat) : Hit := ⟨l, 0x108000, 0x48000, 0x486F1⟩
def feE (sa sb sc sd : BitVec 6) (va : BitVec 8) (mod : BitVec 17) : FE := ⟨c0, sa, sb, sc, sd, va, mod⟩
theorem algebra_at (s : State) (e : Env) (need : DWord → Bool) (n : Nat) (h : Hit) (x : TlbEnt)
    (hh : canonical h.va = true ∧ h.va.toNat % n = 0 ∧ s.mayReach e.cx.part h.pa n false = true ∧ h.leaf.getLsbD 9 = true ∧ need h.leaf = true)
    (hx : s.tlb e.q.core e.q.ctx h.va = some x ∧ x.pa h.va = h.pa ∧ x.leaf = h.leaf) : Algebra s e need n h :=
  ⟨hh.1, hh.2.1, hh.2.2.1, hh.2.2.2.1, hh.2.2.2.2, x, hx⟩
def posted (n : Nat) : State := sheet (fun sh => { sh with posts := n }) alg
theorem test_witness_VatWords (h : Obligations.VatWords) : Runs (exec (.post (fmk 14 .b32 1)) alg) ∧ Runs (exec (.arm (feE 14 10 0 0 0 1)) alg) ∧
    Runs (exec (.disarm (feE 14 0 0 0 0 0)) alg) ∧ Runs (exec (.dkload (feE 20 0 0 0 255 3)) loadable) ∧
    Runs (exec (.dkloadClr (feE 0 0 0 0 255 4)) alg) ∧ Runs (exec (.dkquery (feE 0 0 0 8 255 1)) alg) ∧ Runs (exec (.vdrain (rc)) alg) ∧
    Runs (exec (.vdrain (rc)) (posted 1)) :=
  have g := h alg (en alg) (live _ (by decide +kernel)) (by decide +kernel)
  have gl := h loadable (en _) (live _ (by decide +kernel)) (by decide +kernel)
  have gp := h (posted 1) (en (posted 1)) (live _ (by decide +kernel)) (by decide +kernel)
  have f : (en alg).flagRoom false := room _ _ (by decide +kernel)
  have arm := fun (w : FE) (hw : w.va = 0 ∧ w.sa = 14 ∧ w.com = c0) (hn : Algebra alg (en alg) leafW (if w.mod.getLsbD 0 then 8 else 4) (hit (some 0))) =>
    g.2.1 w [hit (some 0)] (by decide +kernel) (by rw [hw.1]; decide +kernel) (by rw [hw.2.2]; decide +kernel) (by
      intro x hx
      rw [List.mem_singleton] at hx
      subst hx
      exact ⟨by rw [hw.1, hw.2.1]; decide +kernel, hn⟩)
  ⟨runs (g.1 (fmk 14 .b32 1) [hit none] image (by decide +kernel) (by decide +kernel) (by decide +kernel) (by
      intro x hx
      rw [List.mem_singleton] at hx
      subst hx
      exact ⟨by decide +kernel, algebra_at _ _ _ _ _ ⟨1, 0x108000, 16384, 0x486F1⟩ (by decide +kernel) (by decide +kernel), by decide +kernel⟩)
     (by decide +kernel) (by decide +kernel) (by decide +kernel) (by decide +kernel)),
   runs ((arm (feE 14 10 0 0 0 1) ⟨rfl, rfl, rfl⟩ (algebra_at _ _ _ _ _ ⟨1, 0x108000, 16384, 0x486F1⟩ (by decide +kernel) (by decide +kernel))).1 (by decide +kernel) f
     (by decide +kernel) (by decide +kernel)),
   runs (arm (feE 14 0 0 0 0 0) ⟨rfl, rfl, rfl⟩ (algebra_at _ _ _ _ _ ⟨1, 0x108000, 16384, 0x486F1⟩ (by decide +kernel) (by decide +kernel))).2,
   runs ((gl.2.2.1 (feE 20 0 0 0 255 3) (some (loadable.readBytes 0x40400 1024))).1 0x40400 rfl loadable_ok (by decide +kernel) (by decide +kernel) (by decide +kernel)
     (unqueued _ _ _ _ _ rfl) (plain_at _ _ _ _ _ _ ⟨1, 0x100000, 16384, 0x400F1⟩ (by decide +kernel) (by decide +kernel))),
   runs ((g.2.2.1 (feE 0 0 0 0 255 4) none).2 rfl), runs (g.2.2.2.1 (feE 0 0 0 8 255 1) f), runs (g.2.2.2.2.1 _ (by decide +kernel)),
   runs (gp.2.2.2.2.2 _ (by decide +kernel))⟩
def pooled (filled resv rd : Nat) : State := quire (fun q => { q with pools := [(3, ⟨16, 4, rd, filled, resv⟩)] }) (setS [(2, 3072)] mapped)
theorem test_witness_PoolWords (h : Obligations.PoolWords) : Runs (exec (.pinit (feE 2 0 0 0 31 64)) (pooled 0 0 0)) ∧
    Runs (exec (.pwait (feE 0 0 0 8 3 0)) (pooled 1 0 3)) ∧ Runs (exec (.pwait (feE 0 0 0 8 3 0)) (pooled 0 0 0)) ∧
    Runs (exec (.pwait (feE 4 0 0 8 3 1)) (pooled 0 1 0)) ∧ Runs (exec (.pwait (feE 2 0 0 8 3 1)) (pooled 0 1 0)) ∧
    Runs (exec (.prel (feE 0 0 0 0 3 0)) (pooled 0 1 0)) ∧ Runs (exec (.prel (feE 0 0 0 0 3 0)) (pooled 4 0 3)) ∧
    Runs (exec (.pdrain (feE 0 0 0 0 3 0)) (pooled 1 0 0)) ∧ Runs (exec (.pdrain (feE 0 0 0 0 3 0)) (pooled 0 1 0)) ∧
    Runs (exec (.pstat (feE 0 0 0 8 3 0)) (pooled 1 1 0)) :=
  have g := fun w a b c (hl : Live (pooled a b c) (en (pooled a b c))) => h w (pooled a b c) _ hl
  have l000 := live (pooled 0 0 0) (by decide +kernel)
  have l010 := live (pooled 0 1 0) (by decide +kernel)
  have l100 := live (pooled 1 0 0) (by decide +kernel)
  have l103 := live (pooled 1 0 3) (by decide +kernel)
  have l403 := live (pooled 4 0 3) (by decide +kernel)
  have l110 := live (pooled 1 1 0) (by decide +kernel)
  ⟨runs ((g (feE 2 0 0 0 31 64) _ _ _ l000).1 (by decide +kernel) (by decide +kernel) fun x hx => by
     rw [show (en (pooled 0 0 0)).q.pools.find (feE 2 0 0 0 31 64).va.toNat = none by decide +kernel] at hx
     cases hx),
   runs (((g (feE 0 0 0 8 3 0) _ _ _ l103).2.1 ⟨16, 4, 3, 1, 0⟩ (by decide +kernel)).1 (.inl (by decide))),
   runs (((g (feE 0 0 0 8 3 0) _ _ _ l000).2.1 ⟨16, 4, 0, 0, 0⟩ (by decide +kernel)).1 (.inr (.inl (by decide)))),
   runs (((g (feE 4 0 0 8 3 1) _ _ _ l010).2.1 ⟨16, 4, 0, 0, 1⟩ (by decide +kernel)).1 (.inr (.inr ⟨_, by decide, rfl, by decide +kernel⟩))),
   runs (((g (feE 2 0 0 8 3 1) _ _ _ l010).2.1 ⟨16, 4, 0, 0, 1⟩ (by decide +kernel)).2.1 (by decide) (by decide) (by
     rintro ⟨d, -, rfl, hd⟩
     revert hd
     decide +kernel)),
   runs (((g (feE 0 0 0 0 3 0) _ _ _ l010).2.1 ⟨16, 4, 0, 0, 1⟩ (by decide +kernel)).2.2.1 (by decide)),
   runs (((g (feE 0 0 0 0 3 0) _ _ _ l403).2.1 ⟨16, 4, 3, 4, 0⟩ (by decide +kernel)).2.2.2.1 (by decide)),
   runs (((g (feE 0 0 0 0 3 0) _ _ _ l100).2.1 ⟨16, 4, 0, 1, 0⟩ (by decide +kernel)).2.2.2.2.1 (by decide)),
   runs (((g (feE 0 0 0 0 3 0) _ _ _ l010).2.1 ⟨16, 4, 0, 0, 1⟩ (by decide +kernel)).2.2.2.2.2 (by decide)),
   runs (g (feE 0 0 0 8 3 0) _ _ _ l110).2.2⟩
/-- S4 = 16 bytes, S5 = 2 rows; the chamber's last 16 bytes at S16; a pool with its last slot free. -/
def copying (bytes rows : Nat) : State :=
  quire (fun q => { q with pools := [(3, ⟨16, 4, 2, 1, 0⟩)] }) (setS [(4, bytes), (5, rows), (6, 16), (7, 16)] mapped)
theorem test_witness_CopyWords (h : Obligations.CopyWords) : Runs (exec (.acopy (feE 10 16 4 0 3 1)) (copying 16 1)) ∧
    Runs (exec (.acopy2 (feE 10 12 4 0 3 0)) (copying 16 2)) ∧ Runs (exec (.acopy (feE 10 12 4 0 3 0)) (copying 0 1)) ∧
    Runs (exec (.nmdot (feE 10 12 4 8 3 16)) (copying 16 1)) ∧ Runs (exec (.nmaxpy (feE 10 12 4 8 3 0)) (copying 0xFFFFFF 1)) :=
  have g := fun w b r (hl : Live (copying b r) (en (copying b r))) (hp : (en (copying b r)).q.pools.find w.va.toNat = some ⟨16, 4, 2, 1, 0⟩) =>
    h w (copying b r) _ ⟨16, 4, 2, 1, 0⟩ hl hp (by decide)
  have l1 := live (copying 16 1) (by decide +kernel)
  ⟨runs (((g (feE 10 16 4 0 3 1) _ _ l1 (by decide +kernel) (by decide +kernel)).1 _ _ (.inl ⟨rfl, rfl⟩) (by decide +kernel)).1 (by decide +kernel) (by decide +kernel)
     (by decide +kernel) (by decide +kernel)),
   runs (((g (feE 10 12 4 0 3 0) 16 2 (live _ (by decide +kernel)) (by decide +kernel) (by decide +kernel)).1 _ _ (.inr ⟨rfl, rfl⟩) (by decide +kernel)).1
     (by decide +kernel) (by decide +kernel) (by decide +kernel) (by decide +kernel)),
   runs (((g (feE 10 12 4 0 3 0) 0 1 (live _ (by decide +kernel)) (by decide +kernel) (by decide +kernel)).1 _ _ (.inl ⟨rfl, rfl⟩) (by decide +kernel)).2
     (.inl (by decide +kernel))),
   runs ((g (feE 10 12 4 8 3 16) _ _ l1 (by decide +kernel) (by decide +kernel)).2 _ _ (.inl ⟨rfl, rfl⟩) (by decide +kernel) (by decide +kernel) (by decide +kernel)
     (by decide +kernel) (by decide +kernel) (by decide +kernel)),
   runs ((g (feE 10 12 4 8 3 0) 0xFFFFFF 1 (live _ (by decide +kernel)) (by decide +kernel) (by decide +kernel)).2 _ _ (.inr ⟨rfl, rfl⟩) (by decide +kernel)
     (by decide +kernel) (by decide +kernel) (by decide +kernel) (by decide +kernel) (by decide +kernel))⟩

/-! ### Witnesses: engines, fabric, regions -/

/-- Operands of a matrix operation in S20-S23, with a format block of zeros at 0x200 and a convolution of 1 by 1 by 128 at 0x400. -/
def eng (kk astr : Nat) (subs : Option (Nat × Nat) := none) (mx : List MxOp := []) : State :=
  (setS [(20, kk), (21, astr), (22, 16), (23, 0x200), (28, 0), (30, 16), (31, 128)]
    (quire (fun q => { q with
      sub := subs
      cham := ([1, 0, 1, 0, 1, 0, 128, 0, 1, 0, 1, 0, 1, 1, 1, 1, 0, 0, 1, 1] : List Byte).zipIdx.foldl (fun t x => t.set 0 (0x400 + x.2) x.1) [] }) mapped)).modCore 0
    fun c => { c with mx }
def streamed (kk : Nat) : State :=
  (eng kk 16 (some (2, 0))).modGallery 0 fun g => { g with streams := [(2, ⟨7, 0x100000, 0, 1, 1, 1, 0, [], [(0, 1, 0)], 0⟩)] }
def zeroFmt : FmtBlock := ⟨0, 0, 0, 0, false, false, 0, 0⟩
theorem roomy (s : State) (e : Env) (rs : List (Nat × Nat)) (h : (s.core e.q.core).board = []) (h2 : (s.core e.q.core).mx = []) (hr : rs.length ≤ 16) :
    EngineRoom s e rs := by
  refine ⟨by rw [h]; simpa using hr, by rw [h2]; decide, fun r _ b hb => ?_⟩
  rw [h] at hb
  cases hb
def sideOk (e : Env) (x : Side × Nat) : Bool :=
  if x.1.cham then decide (x.1.addr.toNat + x.2 ≤ 4096 * e.q.chamg) else canonical x.1.addr
theorem sides_ok (e : Env) (l : List (Side × Nat)) (h : l.all (sideOk e) = true) : ∀ x ∈ l, SideOk e x := fun x hx => by
  have := List.all_eq_true.mp h x hx
  unfold sideOk at this
  unfold SideOk
  split at this
  · rw [if_pos ‹_›]
    exact of_decide_eq_true this
  · rw [if_neg ‹_›]
    exact this
theorem test_witness_MatrixOperations (h : Obligations.MatrixOperations) : Runs (exec (.mxZero (feE 4 0 0 0 1 0)) (eng 128 16)) ∧
    Runs (exec (.mxMma (feE 16 12 20 0 1 0)) (eng 16384 16)) ∧ Runs (exec (.mxMma (feE 4 12 20 0 0 1)) (eng 128 16)) ∧
    Runs (exec (.mxMma (feE 10 0 20 0 0 4)) (streamed 128)) ∧ Runs (exec (.mxConv (feE 10 12 20 28 0 0)) (eng 128 0x400)) ∧
    Runs (exec (.mxRead (feE 4 0 30 0 1 12)) (eng 128 16)) :=
  have l := live (eng 128 16) (by decide +kernel)
  have l0 := live (eng 16384 16) (by decide +kernel)
  have ls := live (streamed 128) (by decide +kernel)
  have lc := live (eng 128 0x400) (by decide +kernel)
  ⟨runs ((h (feE 4 0 0 0 1 0) _ _ l (by decide +kernel) (by decide +kernel)).1 (roomy _ _ _ (by decide +kernel) (by decide +kernel) (by decide +kernel))),
   runs ((h (feE 16 12 20 0 1 0) _ _ l0 (by decide +kernel) (by decide +kernel)).2.1 _ zeroFmt none [0x200] (.inl ⟨rfl, rfl, by decide +kernel⟩) (by decide +kernel)
     (by decide +kernel) (by decide +kernel) (by decide +kernel) (by decide +kernel) (sides_ok _ _ (by decide +kernel)) (by decide +kernel) (by decide +kernel)
     (by decide +kernel) (by decide +kernel) (by decide +kernel) (by decide +kernel) (by intro hb; cases hb)
     (roomy _ _ _ (by decide +kernel) (by decide +kernel) (by decide +kernel))),
   runs ((h (feE 4 12 20 0 0 1) _ _ l (by decide +kernel) (by decide +kernel)).2.1 _ zeroFmt none [0x200] (.inl ⟨rfl, rfl, by decide +kernel⟩) (by decide +kernel)
     (by decide +kernel) (by decide +kernel) (by decide +kernel) (by decide +kernel) (sides_ok _ _ (by decide +kernel)) (by decide +kernel) (by decide +kernel)
     (by decide +kernel) (by decide +kernel) (by decide +kernel) (by decide +kernel) (by intro hb; cases hb)
     (roomy _ _ _ (by decide +kernel) (by decide +kernel) (by decide +kernel))),
   runs ((h (feE 10 0 20 0 0 4) _ _ ls (by decide +kernel) (by decide +kernel)).2.1 _ zeroFmt none [0x200] (.inl ⟨rfl, rfl, by decide +kernel⟩) (by decide +kernel)
     (by decide +kernel) (by decide +kernel) (by decide +kernel) (by decide +kernel) (sides_ok _ _ (by decide +kernel)) (by decide +kernel) (by decide +kernel)
     (by decide +kernel) (by decide +kernel) (by decide +kernel) (by decide +kernel)
     (fun _ => ⟨2, 0, ⟨7, 0x100000, 0, 1, 1, 1, 0, [], [(0, 1, 0)], 0⟩, by decide +kernel⟩)
     (roomy _ _ _ (by decide +kernel) (by decide +kernel) (by decide +kernel))),
   runs ((h (feE 10 12 20 28 0 0) _ _ lc (by decide +kernel) (by decide +kernel)).2.1 _ zeroFmt (some ⟨1, 1, 1, 128, 1, 1, 1, 1, 1, 1, 0, 0, 1, 1, 0⟩) [0x200, 0x400]
     (.inr ⟨rfl, rfl, by decide +kernel, by decide +kernel⟩) (by decide +kernel)
     (by decide +kernel) (by decide +kernel) (by decide +kernel) (by decide +kernel) (sides_ok _ _ (by decide +kernel)) (by decide +kernel) (by decide +kernel)
     (by decide +kernel) (by decide +kernel) (by decide +kernel) (by decide +kernel) (by intro hb; cases hb)
     (roomy _ _ _ (by decide +kernel) (by decide +kernel) (by decide +kernel))),
   runs ((h (feE 4 0 30 0 1 12) _ _ l (by decide +kernel) (by decide +kernel)).2.2 (room _ _ (by decide +kernel)) (by decide +kernel)
     (fun _ => sides_ok _ [_] (by decide +kernel) _ (.head _)) (by decide +kernel) (by decide +kernel) (by decide +kernel)
     (roomy _ _ _ (by decide +kernel) (by decide +kernel) (by decide +kernel)))⟩
/-- Batch 2 in progress, batch 1 closed; an operation of the open batch, or one of B streaming, in the engine queue. -/
def batched (mx : List MxOp) (streams : Tab Stream := []) (sub : Option (Nat × Nat) := none) : State :=
  (sheet (fun sh => { sh with batch := 2, window := [⟨1, 0, 0, 0⟩] })
    (setS [(4, 1), (6, 7), (20, 0), (21, 1), (22, 16)] (eng 128 16 sub mx))).modGallery 0 fun g => { g with streams }
def zop (b : Word) : MxOp := ⟨0, r0, 0, b, .zero 0, false, none, none⟩
def bsop : MxOp := ⟨0, r0, 0, 1, .mma ⟨⟨false, 0⟩, none, 0, 0, 128, zeroFmt, none⟩, false, none, none⟩
def stream (base : DWord) (dropped : BitVec 32) : Stream := ⟨7, base, 0, 1, 1, 1, 0, [], [(9, 1, 0)], dropped.toNat⟩
def others (n : Nat) : Tab Stream := (List.range n).map fun i => (i, { stream 0 0 with id := 100 + i })
/-- The premises of `mx.sub` on S6, the pair at S10, and S20 to S22. -/
abbrev streamOk (s : State) : Prop :=
  let e := en s
  (s.env?.isSome = true ∧ e.q.sub = none ∧ 1 ≤ (e.s 21).toNat ∧ (e.s 21).toNat ≤ 2 ^ 24 ∧ 1 ≤ (e.s 22).toNat ∧ (e.s 22).toNat ≤ 16) ∧
    canonical (e.spair 10) = true ∧ (e.spair 10).toNat % 16 = 0 ∧ (e.s 20).toNat % 16 = 0
theorem test_witness_MatrixControl (h : Obligations.MatrixControl) : Runs (exec (.mxFence (feE 0 0 0 8 255 0)) (batched [])) ∧
    Runs (exec (.mxFence (feE 0 0 0 8 255 0)) (batched [zop 2])) ∧ Runs (exec (.mxWait (feE 4 0 0 8 255 0)) (batched [zop 2])) ∧
    Runs (exec (.mxWait (feE 4 0 0 8 255 0)) (batched [zop 1])) ∧ Runs (exec (.mxStat (feE 0 0 0 8 1 0)) (batched [zop 1])) ∧
    Runs (exec (.mxSub (feE 6 10 20 8 255 1)) (batched [] [(2, stream 0x100010 0)])) ∧
    Runs (exec (.mxSub (feE 6 10 20 8 255 1)) (batched [] [(2, stream 0x100000 1)])) ∧
    Runs (exec (.mxSub (feE 6 10 20 8 255 1)) (batched [] [(2, stream 0x100000 0)])) ∧ Runs (exec (.mxSub (feE 6 10 20 8 255 1)) (batched [] (others 8))) ∧
    Runs (exec (.mxSub (feE 6 10 20 8 255 1)) (batched [] (others 7))) ∧ Runs (exec (.mxUnsub (feE 0 0 0 0 255 0)) (batched [] (others 1) (some (0, 0)))) ∧
    Runs (exec (.mxUnsub (feE 0 0 0 0 255 0)) (batched [bsop] (others 1) (some (0, 0)))) :=
  have g := fun w mx st su (hl : Live (batched mx st su) (en (batched mx st su))) => h w (batched mx st su) _ hl
  have l0 := live (batched []) (by decide +kernel)
  have l2 := live (batched [zop 2]) (by decide +kernel)
  have l1 := live (batched [zop 1]) (by decide +kernel)
  have sub := fun st (k : streamOk (batched [] st)) =>
    (g (feE 6 10 20 8 255 1) [] st none (live _ k.1.1)).2.2.2.1 k.1.2.1 k.1.2.2.1 k.1.2.2.2.1 k.1.2.2.2.2.1 k.1.2.2.2.2.2 k.2.1 k.2.2.1 k.2.2.2
  have sa := sub [(2, stream 0x100010 0)] (by decide +kernel)
  have sb := sub [(2, stream 0x100000 1)] (by decide +kernel)
  have sc := sub [(2, stream 0x100000 0)] (by decide +kernel)
  have s8 := sub (others 8) (by decide +kernel)
  have s7 := sub (others 7) (by decide +kernel)
  ⟨runs ((g (feE 0 0 0 8 255 0) _ _ _ l0).1 true (by decide +kernel)), runs ((g (feE 0 0 0 8 255 0) _ _ _ l2).1 false (by decide +kernel)),
   runs (((g (feE 4 0 0 8 255 0) _ _ _ l2).2.1 ⟨1, 0, 0, 0⟩ (by decide +kernel) (by decide +kernel) (by decide +kernel) (by decide +kernel)).1 (by decide +kernel)),
   runs (((g (feE 4 0 0 8 255 0) _ _ _ l1).2.1 ⟨1, 0, 0, 0⟩ (by decide +kernel) (by decide +kernel) (by decide +kernel) (by decide +kernel)).2 (by decide +kernel)),
   runs ((g (feE 0 0 0 8 1 0) _ _ _ l1).2.2.1 _ (by decide +kernel) (room _ _ (by decide +kernel)) rfl),
   runs ((sa.1 2 _ rfl).1 (by decide +kernel)), runs ((sb.1 2 _ rfl).2.1 (by decide +kernel) (by decide +kernel)),
   (((sc.1 2 _ rfl).2.2 (by decide +kernel) (by decide +kernel)).imp fun _ ht => ht.1),
   runs (s8.2.1 (by decide +kernel) (by decide +kernel)),
   ((s7.2.2 7 (by decide) (by decide +kernel) (by decide +kernel) (by decide +kernel)).imp fun _ ht => ht.1),
   ((g (feE 0 0 0 0 255 0) [] (others 1) (some (0, 0)) (live _ (by decide +kernel))).2.2.2.2 false (by decide +kernel)
     ⟨fun hf => (by cases hf), fun ⟨o, ho, _⟩ => absurd ho (by rw [show ((batched [] (others 1) (some (0, 0))).core (en (batched [] (others 1) (some (0, 0)))).q.core).mx = [] by decide +kernel]; exact List.not_mem_nil)⟩).imp fun _ ht => ht.1,
   ((g (feE 0 0 0 0 255 0) [bsop] (others 1) (some (0, 0)) (live _ (by decide +kernel))).2.2.2.2 true (by decide +kernel)
     ⟨fun _ => ⟨bsop, by decide +kernel, by decide +kernel, _, rfl, rfl⟩, fun _ => rfl⟩).imp fun _ ht => ht.1⟩
/-- An extent of 256 elements in mode 2 below 1.0; candidates of length 0, whose blocks are zeros, at the chamber's end. -/
def marked (ext : Option Extent) (wm : List WmOp := []) : State :=
  (quire (fun q => { q with ext }) (setS [(4, 0), (5, 256), (6, 0xBF800000), (7, 0x3F800000), (8, 4064), (9, 0), (10, 255), (11, 1)] mapped)).modCore 0
    fun c => { c with wm }
def ext0 : Extent := ⟨2, 0x3F800000, 0, 256, 3⟩
def empty0 : Cand := ⟨0, 0, 0, 0, false⟩
theorem test_witness_WmaWords (h : Obligations.WmaWords) : Runs (exec (.wmInit (feE 4 0 0 0 255 2)) (marked none)) ∧
    Runs (exec (.wmProbe (feE 0 8 0 20 255 0)) (marked (some ext0))) ∧ Runs (exec (.wmCommit (feE 0 8 6 20 255 1)) (marked (some ext0))) ∧
    Runs (exec (.wmSelect (feE 0 8 4 20 255 1)) (marked (some ext0))) ∧ Runs (exec (.wmRead (feE 4 10 11 20 255 0)) (marked (some ext0))) ∧
    Runs (exec (.wmSync (feE 0 0 0 20 255 0)) (marked (some ext0))) ∧
    Runs (exec (.wmSync (feE 0 0 0 20 255 0)) (marked (some ext0) [⟨9, r0, 9, 0, .read 0 0 0⟩])) ∧
    Runs (exec (.wmRelease (feE 0 0 0 0 255 0)) (marked (some ext0))) ∧
    Runs (exec (.wmInit (feE 4 0 0 0 255 2)) (marked none [⟨9, r0, 9, 0, .read 0 0 0⟩])) :=
  have l := live (marked (some ext0)) (by decide +kernel)
  have f : (en (marked (some ext0))).flagRoom false := room _ _ (by decide +kernel)
  have x := fun w => (h w _ _ l (by decide +kernel)).2 ext0 (by decide +kernel)
  have wi := fun wm (hl : Live (marked none wm) (en (marked none wm))) hm => (h (feE 4 0 0 0 255 2) (marked none wm) (en _) hl hm).1
  ⟨runs ((wi [] (live _ (by decide +kernel)) (by decide +kernel) (by decide +kernel) (by decide +kernel) (by decide +kernel)
     (by decide +kernel) (by decide +kernel)).2 (by decide +kernel) rfl),
   runs ((x (feE 0 8 0 20 255 0)).1 _ 1 [empty0] (.probe empty0) f (.inl ⟨empty0, rfl, rfl, .inl ⟨rfl, rfl⟩⟩) (by decide +kernel) (by decide +kernel) (by decide +kernel)
     (by decide +kernel) (by decide +kernel) (by decide +kernel) (by decide +kernel)),
   runs ((x (feE 0 8 6 20 255 1)).1 _ 1 [empty0] _ f (.inl ⟨empty0, rfl, rfl, .inr ⟨rfl, rfl⟩⟩) (by decide +kernel) (by decide +kernel) (by decide +kernel)
     (by decide +kernel) (by decide +kernel) (by decide +kernel) (by decide +kernel)),
   runs ((x (feE 0 8 4 20 255 1)).1 _ 2 [empty0, empty0] _ f (.inr ⟨rfl, by decide +kernel, rfl⟩) (by decide +kernel) (by decide +kernel) (by decide +kernel)
     (by decide +kernel) (by decide +kernel) (by decide +kernel) (by decide +kernel)),
   runs ((x (feE 4 10 11 20 255 0)).2.1 f (by decide +kernel) (by decide +kernel) (by decide +kernel) (by decide +kernel) (by decide +kernel) (by decide +kernel)),
   runs ((x (feE 0 0 0 20 255 0)).2.2.1 (by decide +kernel)),
   runs (((h (feE 0 0 0 20 255 0) (marked (some ext0) [⟨9, r0, 9, 0, .read 0 0 0⟩]) (en _) (live _ (by decide +kernel)) (by decide +kernel)).2 ext0
     (by decide +kernel)).2.2.2.1 (by decide +kernel)),
   runs ((x (feE 0 0 0 0 255 0)).2.2.2.2 (by decide +kernel)),
   runs ((wi [⟨9, r0, 9, 0, .read 0 0 0⟩] (live _ (by decide +kernel)) (by decide +kernel) (by decide +kernel) (by decide +kernel) (by decide +kernel)
     (by decide +kernel) (by decide +kernel)).1 (.inl (by decide +kernel)))⟩
/-- Group slot 5 of context 1 with four members; ports 0 to 3 of die 0 up; an operation of 16 bytes to member 3. -/
def mem4 (n : Nat) : Member := ⟨BitVec.ofNat 24 n, n + 1, if n = 2 then [] else [n]⟩
def grp (st : GState) : Group := {
  st, nmem := 4, rank := 1, gen := 7, lat := 1000, defdl := 5000, span := 6000, members := [mem4 0, mem4 1, mem4 2, mem4 3]
  trip := none, seen := [], window := none, origin := false, bars := 2, arrived := [(0, 1), (2, 3)], props := [], shut := false, held := [] }
def fab (st : GState) (fabs : List FabOp := []) : State :=
  let s := setS [(20, 16), (21, 3), (22, 0x100000), (23, 0), (24, 0), (25, 0), (26, 9), (27, 5), (28, 0), (29, 256)]
    (quire (fun q => { q with pools := [(3, ⟨16, 4, 2, 1, 1⟩)] }) mapped)
  let s := s.modCtx 1 fun c => { c with groups := [(5, grp st)] }
  { s with ports := [(0, { Port.down with up := true }), (3, { Port.down with up := true })], fabs }
theorem ready5 (w : FE) (st : GState) (_hl : Live (fab st) (en (fab st)))
    (h : (en (fab st)).cx.groups.find (w.mod.toNat % 16) = some (grp st) ∧ (grp st).st ≠ .unbound ∧
      (en (fab st)).q.pools.find w.va.toNat = some ⟨16, 4, 2, 1, 1⟩ ∧ (fab st).unplaced (en (fab st)).r (en (fab st)).sh = false ∧
      ((fab st).core (en (fab st)).q.core).board.length < 16 ∧ (fab st).fabs = [] ∧ ((fab st).core (en (fab st)).q.core).board = []) : FabReady (fab st) (en (fab st)) w (grp st) ⟨16, 4, 2, 1, 1⟩ :=
  ⟨h.1, h.2.1, h.2.2.1, by decide, h.2.2.2.1, h.2.2.2.2.1, (by rw [h.2.2.2.2.2.1]; intro o ho; cases ho),
    by rw [h.2.2.2.2.2.2]; intro o ho; cases ho⟩
def gx : FE := feE 16 10 20 24 3 0x35
theorem test_witness_FabricWords (h : Obligations.FabricWords) : Runs (exec (.gsend gx) (fab .settling)) ∧ Runs (exec (.gsend gx) (fab .active)) ∧
    Runs (exec (.gfetch gx) (fab .excluded)) ∧ Runs (exec (.gbar (feE 0 0 0 24 3 5)) (fab .settling)) ∧ Runs (exec (.gbar (feE 0 0 0 24 3 5)) (fab .active)) ∧
    Runs (exec (.greform (feE 24 24 0 26 3 5)) (fab .settling)) ∧ Runs (exec (.greform (feE 24 24 0 26 3 5)) (fab .active)) ∧
    Runs (exec (.gstat (feE 0 0 0 24 255 5)) (fab .active)) ∧ Runs (exec (.gabort (feE 26 0 0 0 255 5)) (fab .aborted)) ∧
    Runs (exec (.gabort (feE 26 0 0 0 255 5)) (fab .active)) ∧ Runs (exec (.gdl (feE 28 0 0 0 255 5)) (fab .active)) :=
  have ls := live (fab .settling) (by decide +kernel)
  have la := live (fab .active) (by decide +kernel)
  have lx := live (fab .excluded) (by decide +kernel)
  have lb := live (fab .aborted) (by decide +kernel)
  have go := fun w st (hl : Live (fab st) (en (fab st))) => h w (fab st) (en (fab st)) (grp st) hl
  have gs := (go gx _ ls).1 _ (ready5 gx _ ls (by decide +kernel))
  have ga := (go gx _ la).1 _ (ready5 gx _ la (by decide +kernel))
  have gxx := (go gx _ lx).1 _ (ready5 gx _ lx (by decide +kernel))
  have bs := (go (feE 0 0 0 24 3 5) _ ls).1 _ (ready5 _ _ ls (by decide +kernel))
  have ba := (go (feE 0 0 0 24 3 5) _ la).1 _ (ready5 _ _ la (by decide +kernel))
  have rs := (go (feE 24 24 0 26 3 5) _ ls).1 _ (ready5 _ _ ls (by decide +kernel))
  have ra := (go (feE 24 24 0 26 3 5) _ la).1 _ (ready5 _ _ la (by decide +kernel))
  ⟨runs ((gs.1 (.gsend gx) true (mem4 3) 3 (.inl ⟨rfl, rfl⟩) (by decide +kernel) (by decide +kernel) (by decide +kernel) (fun _ => sides_ok _ [_] (by decide +kernel) _ (.head _))
     (fun hf => absurd hf (by decide +kernel)) (by decide +kernel) (by decide +kernel) (by decide +kernel)).1 (by decide +kernel) (by decide +kernel)),
   runs ((ga.1 (.gsend gx) true (mem4 3) 3 (.inl ⟨rfl, rfl⟩) (by decide +kernel) (by decide +kernel) (by decide +kernel) (fun _ => sides_ok _ [_] (by decide +kernel) _ (.head _))
     (fun hf => absurd hf (by decide +kernel)) (by decide +kernel) (by decide +kernel) (by decide +kernel)).2.1 (by decide +kernel) (.inl (by decide +kernel)) (by decide +kernel) (by decide +kernel)
     (by decide +kernel) (by decide +kernel)),
   runs ((gxx.1 (.gfetch gx) false (mem4 3) 3 (.inr ⟨rfl, rfl⟩) (by decide +kernel) (by decide +kernel) (by decide +kernel) (fun _ => sides_ok _ [_] (by decide +kernel) _ (.head _))
     (fun hf => absurd hf (by decide +kernel)) (by decide +kernel) (by decide +kernel) (by decide +kernel)).2.2 (by decide +kernel)),
   runs (bs.2.1.1 (by decide +kernel)), runs (ba.2.1.2 (by decide +kernel) ⟨0, by decide +kernel, by decide +kernel, by decide +kernel⟩),
   runs ((rs.2.2 (by decide +kernel)).1 (by decide +kernel)),
   runs ((ra.2.2 (by decide +kernel)).2 (by decide +kernel) (by decide +kernel) (by
     rw [show (fab .active).fabs = [] by decide +kernel]
     intro y hy
     cases hy)),
   runs ((go (feE 0 0 0 24 255 5) _ la).2.1 (room _ _ (by decide +kernel)) (by decide +kernel)),
   runs (((go (feE 26 0 0 0 255 5) _ lb).2.2 (by decide +kernel) (by decide +kernel)).1 (by decide +kernel)),
   runs (((go (feE 26 0 0 0 255 5) _ la).2.2 (by decide +kernel) (by decide +kernel)).2.1 (by decide +kernel) (by decide +kernel)),
   runs (((go (feE 28 0 0 0 255 5) _ la).2.2 (by decide +kernel) (by decide +kernel)).2.2 (by decide +kernel))⟩
theorem test_witness_RegionWords (h : Obligations.RegionWords) : Runs (exec (.renter ⟨c0, 0, 0, 0xFFFE⟩) s0) ∧ Runs (exec (.rleave (rc)) s0) ∧
    Runs (exec (.rmark ⟨c0, 0, 0, 7⟩) s0) ∧ Runs (exec (.hashrd (rc 0 0 58)) s0) ∧ Runs (exec (.stallrd (rc 0 7 56)) s0) :=
  have p := h s0 (en s0) (live _ alive)
  ⟨runs (p.1 _ (by decide +kernel)), runs (p.2.1 _ (by decide +kernel)), runs (p.2.2.1 _ (by decide +kernel)), runs (p.2.2.2.1 _), runs (p.2.2.2.2 _)⟩

/-! ### Witnesses: events of sheets, tasks and quires -/

theorem some_of {α : Type} {o : Option α} (h : o.isSome = true) : o = some (o.get h) := (Option.some_get h).symm
/-- Time has run, and context 1 names its task and swap resources. -/
def later : State :=
  ({ s0 with now := 720720 * 100000 } : State).modCtx 1 fun c => { c with desc := { c.desc with
    bintime := 50, taskrows := 2, taskcham := 1, swapbase := 0x100000, swapsize := 0x100000, prio := 1 } }
def small (f : Sheet → Sheet) : State := sheet (fun sh => f { sh with alloc := 16 }) later
def cyc : Nat := later.cycles 0
def sh0 (s : State) : Sheet := (s.sheet? r0).getD loadSheet
def qu0 (s : State) : Quire := (s.quires.find r0.h).getD (loadQuire 1)
def recOf (i : Nat) : SpawnRec := { spawner := some 0, qid := 5, a0 := BitVec.ofNat 32 i, a1 := 2, a2 := 3, origin := 7 }
def ready : State := (small fun sh => { sh with began := cyc }).modCore 0 fun c => { c with prog := [] }
def llw : LL := { id := 77, flag := 3, left := 0, outs := [⟨.s 5, some 9, false⟩, ⟨.v 2 7, some 8, false⟩, ⟨.v 3 1, none, false⟩], noise := false }
def waitingLl : State := small fun sh => { sh with lls := [llw], flags := [(3, 1)] }
def bin (n : Nat) (since : Nat) : Bin := ⟨1, 0x400, (List.range n).map recOf, since⟩
def spawning (n : Nat) : State :=
  (small fun sh => { sh with wait := .spawn 0x400 [1, 2, 3] [95] [70] }).modCore 0 fun c => { c with bins := [(4, bin n cyc)] }
def growing (n : Nat) : State := small fun sh => { sh with wait := .rgrow n (.s 62) 0 }
/-- The same beside a sheet that holds the rows above. -/
def blocked : State := (growing 3).modQuire r0.h fun q => { q with nsheets := 2, sheets := q.sheets ++ [(1, { loadSheet with alloc := 8, base := 16, wait := .bar 0 0 })] }
def pwaiting : State := small fun sh => { sh with wait := .pwait 3 59 (some 100000) }
def switching : State := later.modCore 0 fun c => { c with switch := some cyc }
def broken : State := small fun sh => { sh with lls := [{ llw with left := 1, ue := some 0x1234 }] }
def batch0 : RBatch := { ctx := 1, entry := 0x600, recs := [recOf 9], since := 0, bin := some 2, name := 44 }
def bins (ready : List RBatch) : State := (small id).modCore 0 fun c => { c with bins := [(4, bin 2 (cyc - 50))], ready }
def pool : State := (small id).modDie 0 fun d => { d with pool := [{ batch0 with bin := none }] }
def roomed : State := (small id).modDie 0 fun d => { d with queue := [.batch 3 41, .trigger 8 42] }
/-- A group that waits at core 0 for the die's pool. -/
def pooling : State := ((small id).modCore 0 fun c => { c with ready := [batch0] }).modDie 0 fun d => { d with queue := [.batch 0 44] }
def trig : Trigger := { word := 0x40, va := 0x1000040, w64 := false, ctx := 1, entry := 0x700, arg := 5, fired := true }
def fired : State := later.modVat 0 fun v => { v with triggers := [trig] }
theorem test_witness_SheetAndTaskEvents (h : Obligations.SheetAndTaskEvents) :
    Runs (exec (.issueChoice 0 0) ready) ∧ Runs (exec (.longLatencyComplete r0.h 0 77) waitingLl) ∧ Runs (exec (.spawnRecordWrite r0.h 0) (spawning 94)) ∧
    Runs (exec (.rgrowGrant r0.h 0) (growing 30)) ∧ Runs (exec (.rgrowFail 0) blocked) ∧ Runs (exec (.pwaitDeadline r0.h 0) pwaiting) ∧
    Runs (exec (.bankModeSwitch 0) switching) ∧ Runs (exec (.memoryUe r0.h 0 0x1234) broken) ∧ Runs (exec (.binTimerExpiry 0 4) (bins [])) ∧
    Runs (exec (.taskSheetLaunch 0) (bins [batch0])) ∧ Runs (exec (.batchWaitExpiry 0) (bins [batch0])) ∧ Runs (exec (.poolBatchLaunch 0) pool) ∧
    Runs (exec (.poolRoomFreed 0) roomed) ∧ Runs (exec (.poolRoomFreed 0) pooling) ∧ Runs (exec (.triggerRecordPlace 0 0) fired) :=
  ⟨runs (by
     refine (h ready).1 0 0 r0 (sh0 ready) ?_ ?_ ?_ ?_ ?_ ?_ ?_ ?_ ?_ ?_ ?_
     all_goals decide +kernel),
   runs (by
     refine (h waitingLl).2.1 r0.h 0 77 (qu0 waitingLl) (sh0 waitingLl) llw ?_ ?_ ?_ ?_ ?_ ?_ ?_ ?_
     all_goals decide +kernel),
   runs (by
     refine (h (spawning 94)).2.2.1 r0.h 0 4 95 (qu0 (spawning 94)) (sh0 (spawning 94)) 0x400 [1, 2, 3] [70] (bin 94 cyc) ?_ ?_ ?_ ?_ ?_ ?_ ?_ ?_ ?_ ?_ ?_ ?_ ?_
     all_goals decide +kernel),
   runs ((h (growing 30)).2.2.2.1 r0.h 0 30 62 0 (qu0 (growing 30)) (sh0 (growing 30)) (by decide +kernel) (by decide +kernel) (by decide +kernel) (by decide +kernel)
     (by decide +kernel) (by decide +kernel) (by decide +kernel)),
   runs ((h blocked).2.2.2.2.1 0 3 62 r0 (sh0 blocked) (by decide +kernel) (by decide +kernel) (by decide +kernel)),
   runs ((h pwaiting).2.2.2.2.2.1 r0.h 0 3 59 100000 (sh0 pwaiting) (by decide +kernel) (by decide +kernel) (by decide +kernel) (by decide +kernel)),
   runs ((h switching).2.2.2.2.2.2.1 0 cyc (by decide +kernel) (by decide +kernel)),
   runs ((h broken).2.2.2.2.2.2.2.1 r0.h 0 0x1234 (qu0 broken) (sh0 broken) (by decide +kernel) (by decide +kernel) (by decide +kernel) (by decide +kernel)),
   runs ((h (bins [])).2.2.2.2.2.2.2.2.1 0 4 (bin 2 (cyc - 50)) (by decide +kernel) (by decide +kernel) (by decide +kernel)),
   runs ((h (bins [batch0])).2.2.2.2.2.2.2.2.2.1 0 _ _ _ (some_of (by decide +kernel))),
   runs ((h (bins [batch0])).2.2.2.2.2.2.2.2.2.2.1 0 0 batch0 (by decide +kernel) (by decide +kernel) (by decide +kernel)),
   runs ((h pool).2.2.2.2.2.2.2.2.2.2.2.1 0 0 0 { batch0 with bin := none } _ (by decide +kernel) (some_of (by decide +kernel))),
   runs ((h roomed).2.2.2.2.2.2.2.2.2.2.2.2.1 0 3 41 [.trigger 8 42] (by decide +kernel) (by decide +kernel)),
   runs ((h pooling).2.2.2.2.2.2.2.2.2.2.2.2.2.1 0 0 0 batch0 [] (by decide +kernel) (by decide) (fun w hw => by cases hw) (by decide +kernel) (by decide +kernel)
     (fun j y hj => absurd hj (Nat.not_lt_zero j)) (by decide +kernel)),
   runs ((h fired).2.2.2.2.2.2.2.2.2.2.2.2.2.2 0 0 trig (by decide +kernel) (by decide +kernel) (by decide +kernel) (by decide +kernel))⟩
def ream0 : Ream := { part := 0, queue := 2, idx := 0, ctx := 1, x := 40, y := 1, z := 1, entry := 0x800, nsheets := 2, rowg := 2, chamg := 1, ntiles := 1, wmag := 1, active := 50,
                      dies := [0], done := 0, sinit := [3, 4], qprio := 1, next := 3, began := 3, open_ := 3, stopped := false }
def launching : State :=
  ({ later with quires := [], cur := none, reams := [(60, ream0)] } : State).modPart 0 fun p =>
    { p with queues := [(2, { ring := 0, k := 3, ctx := 1, prio := 1, rd := 0, wr := 1, head := some 60, since := 0 })] }
/-- A quire that waits at core 0 since time 0. -/
def wq : Quire := { loadQuire 1 with phase := .waiting 0, core := 0, nsheets := 2, rowg := 2, chamg := 1, ntiles := 1, active := 50, sheets := [], sinit := [3, 4] }
def waiting (claim : Option Nat) : State :=
  ({ later with quires := [(55, wq)], cur := none } : State).modCore 0 fun c => { c with waitq := [55], claim }
def joined (phase : Phase) : State :=
  (small fun sh => { sh with wait := .join, spinFrom := cyc - 4096, spinLast := cyc }).modQuire r0.h fun q => { q with phase, joinAt := some (cyc - 4096), joins := 1, rowg := 2, chamg := 1 }
def spun : State := (joined .resident).modCore 0 fun c => { c with waitq := [99] }
def claimed : State :=
  ({ joined .resident with
      quires := (joined .resident).quires.put 66 { wq with ctx := 2, nsheets := 16, rowg := 32 }
      ctxs := (joined .resident).ctxs.put 2 { later.ctx 1 with desc := { (later.ctx 1).desc with prio := 3 } } } : State).modCore 0 fun c => { c with claim := some 66 }
def swapped (cause : SwapCause) (e : Option Nat) (now : Nat := 100000) : State := { joined (.swapped cause 0x102000 7 e) with now := 720720 * now }
/-- Stopped at the first body word of the clause at 0x200 (R335). -/
def halting : State :=
  { (joined (.stopped true)).modQuire r0.h fun q => { q with halted := some 0, sheets := q.sheets.mapv fun sh => { sh with
      thdr := 0x200, tpc := 0x208, tstat := 0x80 } } with mem := prog.mem }
theorem test_witness_QuireEvents (h : Obligations.QuireEvents) : Runs (exec (.quirePlace 0) launching) ∧ Runs (exec (.quireLaunch 0) (waiting none)) ∧
    Runs (exec (.launchReoffer 0) (waiting (some 99))) ∧ Runs (exec (.quireResourceRelease r0.h) (joined .draining)) ∧
    Runs (exec (.joinSwapOut r0.h) (joined .resident)) ∧ Runs (exec (.spinningQuireSwapOut r0.h) spun) ∧ Runs (exec (.preemption 0) claimed) ∧
    Runs (exec (.swapOutSave r0.h 0x2000) (joined (.saving .join))) ∧ Runs (exec (.preemptLaunch 0) (waiting (some 55))) ∧
    Runs (exec (.spinResumeTimeout r0.h) (swapped .spin none (7 + 65536))) ∧ Runs (exec (.quireResume r0.h 0) (swapped .suspend (some 9))) ∧
    Runs (exec (.quireStopResume r0.h) (joined (.stopped true))) ∧ Runs (exec (.quireStopResume r0.h) halting) :=
  have hj := (h (joined .resident)).2.2.2.2.1 r0.h (qu0 (joined .resident)) (by decide +kernel) (by decide +kernel) (by decide +kernel)
  ⟨runs ((h launching).1 0 _ _ (by decide +kernel) (some_of (by decide +kernel))),
   runs ((h (waiting none)).2.1 0 _ _ wq (by decide +kernel) (by decide +kernel) (some_of (by decide +kernel)) (by decide +kernel) (by decide +kernel)),
   runs ((h (waiting (some 99))).2.2.1 0 1 55 _ wq (by decide +kernel) (some_of (by decide +kernel)) (by decide +kernel)),
   runs ((h (joined .draining)).2.2.2.1 r0.h (qu0 (joined .draining)) (by decide +kernel) (by decide +kernel) (by decide +kernel)),
   runs (hj.1 (cyc - 4096) (by decide +kernel) (by decide +kernel) (by decide +kernel) (by decide +kernel) (by decide +kernel)),
   runs (((h spun).2.2.2.2.1 r0.h (qu0 spun) (by decide +kernel) (by decide +kernel) (by decide +kernel)).2.1 (by decide +kernel) (by decide +kernel) (by decide +kernel)),
   runs (((h claimed).2.2.2.2.1 r0.h (qu0 claimed) (by decide +kernel) (by decide +kernel) (by decide +kernel)).2.2 0 (by decide +kernel)),
   runs (by
     refine (h (joined (.saving .join))).2.2.2.2.2.1 r0.h 0x2000 (qu0 (joined (.saving .join))) .join ?_ ?_ ?_ ?_ ?_ ?_ ?_ ?_
     all_goals decide +kernel),
   runs ((h (waiting (some 55))).2.2.2.2.2.2.1 0 55 _ wq (by decide +kernel) (some_of (by decide +kernel)) (by decide +kernel)),
   runs ((h (swapped .spin none (7 + 65536))).2.2.2.2.2.2.2.1 r0.h 0x102000 7 (by decide +kernel) (by decide +kernel)),
   runs ((h (swapped .suspend (some 9))).2.2.2.2.2.2.2.2.1 r0.h 0 0x102000 7 9 .suspend (qu0 (swapped .suspend (some 9))) _ (by decide +kernel) (by decide +kernel)
     (some_of (by decide +kernel)) (by decide +kernel) (by decide +kernel) (by decide +kernel) (by decide +kernel) (by decide +kernel) (by decide +kernel)),
   runs (((h (joined (.stopped true))).2.2.2.2.2.2.2.2.2 r0.h (qu0 (joined (.stopped true))) (by decide +kernel) (by decide +kernel)).1 (by decide +kernel)),
   runs (((h halting).2.2.2.2.2.2.2.2.2 r0.h (qu0 halting) (by decide +kernel) (by decide +kernel)).2 0 (sh0 halting) 0x002000FF00000000 (by decide +kernel)
     (by decide +kernel) (by decide +kernel) (by decide +kernel) (by decide +kernel) (by decide +kernel) (by decide +kernel) (.inl (by decide +kernel))
     (by decide +kernel) (by decide +kernel) (by decide +kernel))⟩

/-! ### Witnesses: events of memory and engines -/

def va0 : DWord := 0x203000
/-- The sheet at a walk of `va0`, with nothing in a TLB, and a page table for context 1 at 0x200000 where `built` says so. -/
def walking (built : Bool) : State :=
  let s := ((sheet fun sh => { sh with wait := .walk va0 3 false }).modCore 0 fun c => { c with tlb := [] }).modCtx 1 fun c =>
    { c with desc := { c.desc with ptroot := 0x200000 } }
  let m := ([(0x200000, 0x204001), (0x204000, 0x208001), (0x208000, 0x20C001), (0x20C008, 0x210001), (0x210000, 0x40F3)] : List (Nat × Nat)).foldl
    (fun m x => Memory.write m x.1 (leBytes 8 x.2)) s.mem
  if built then { s with mem := m } else s
def parked0 : State := ((sheet (fun sh => { sh with wait := .parked va0 3 false, tvec := 0x200 }) prog).modDie 0 fun d =>
  { d with faults := [⟨1, va0, some r0⟩, ⟨1, 0x8888888, none⟩] })
def mtime : State := { quire (fun q => { q with pools := [(3, ⟨16, 4, 2, 1, 1⟩)] }) mapped with now := 720720 * 2000000 }
def copy0 (slow : Bool) : Copy := { id := 40, ref := r0, src := ⟨true, 4080⟩, dst := ⟨false, 0x103FF0⟩, bytes := 16, rows := 1, sstr := 0, dstr := 0, pool := 3, tag := 9, slow }
def copied (slow : Bool) : State := { mtime with copies := [copy0 slow] }
def nm0 : Nm := { id := 40, ref := r0, dot := false, op := 0, bf := false, x := 0x100000, y := 0x100000, len := 0, dst := 0, a := 0, pool := 3, tag := 0, slow := false }
def nmed : State := { mtime with nms := [nm0] }
/-- The same of two elements, with 1.0 for `a` or with slot 1 and the algebra page for the sum. -/
def nm1 (dot : Bool) : Nm := { nm0 with dot, op := 1, y := 0x100010, len := 2, dst := 0x108000, a := 0x3F800000 }
def nmed1 (dot : Bool) : State := { mtime.modCtx 1 fun c => { c with tables := [(1, image)] } with nms := [nm1 dot] }
/-- Operations of channel 0 on one word: adds of slot 1, in the queue and as a post of the sheet in the input. -/
def vop (ref : Option SheetRef) (post : Bool) (x : DWord) : VOp :=
  { ref, lane := 3, word := 0x48000, w64 := false, act := .slot 1 2 0 x, ord := .rlx, scope := .device, ctx := 1, tab := 1, va := 0x108000, ret := none, post,
    gated := false, epoch := 0, issued := 5, keys := [], prior := [] }
def ch0 : Nat := s0.channel 0x48000
def vats (queue : List VOp) : State :=
  ((sheet (fun sh => { sh with posts := 1, wait := .vdrain }) mtime).modCtx 1 fun c => { c with tables := [(1, image)] }).modVat ch0 fun v =>
    { v with input := [vop (some r0) true 7], queue }
def install (done : List Nat) : State :=
  { sheet (fun sh => { sh with wait := .dkload 50 }) mtime with installs := [⟨50, r0, 1, 2, some image, done⟩] }
def gate0 : Gate := { ctx := 1, pos := 3, used := 2, opened := false, since := some 5 }
/-- Replays the log at 0x60000, whose stream of channel 7 has four runs of quire id 5 (R340). -/
def replay0 : Debug := ⟨0, 0, false, false, false, true, false, false, 0, [], 0, 0x60000, 8192, []⟩
def gated : State :=
  let s := (mtime.modCtx 1 fun c => { c with debug := some replay0 }).modVat 7 fun v =>
    { v with gates := [gate0], input := [{ vop none false 0 with gated := true }] }
  { s with mem := ([(0x60078, 4096), (0x61000, 0x70000000005003), (0x61008, 0x70000000005003), (0x61010, 0x70000000005003),
      (0x61018, 0x70000000005003)] : List (Nat × Nat)).foldl (fun m x => Memory.write m x.1 (leBytes 8 x.2)) s.mem }
/-- An operation that has made its accesses, with one of an engine's in a vat's queue. -/
def fin0 : Machine.Fin := { who := .op 40, status := 0, done := 16 }
def ending (eng : List Who) : State :=
  { mtime.modVat 7 fun v => { v with queue := [{ vop none false 3 with eng }] } with copies := [copy0 false], nms := [nm0], fins := [fin0] }
theorem unsent (s : State) (who : Who) (h : s.fins = [] ∧ s.stores = [] ∧ (s.vats.all fun v => (v.2.input ++ v.2.queue).all fun o => o.eng = []) = true) :
    Unsent s who := by
  refine ⟨fun f hf => (by rw [h.1] at hf; cases hf), fun v hv o ho hw => ?_, fun x hx => (by rw [h.2.1] at hx; cases hx)⟩
  have := List.all_eq_true.mp (List.all_eq_true.mp h.2.2 v hv) o ho
  rw [of_decide_eq_true this] at hw
  cases hw
theorem test_witness_MemoryEvents (h : Obligations.MemoryEvents) : Runs (exec (.translationWalk 0 1 va0) (walking true)) ∧
    Runs (exec (.translationWalk 0 1 va0) (walking false)) ∧ Runs (exec (.pagerRepair 0 1 (va0 + 8) [(0x60000, 5)]) parked0) ∧
    Runs (exec (.pagerFatal 0 1 (va0 + 8) true) parked0) ∧ Runs (exec (.copyComplete 40) (copied false)) ∧ Runs (exec (.copySlowPathDone 40) (copied true)) ∧
    Runs (exec (.nmComplete 40) nmed) ∧ Runs (exec (.vatAccept ch0 0 []) (vats [])) ∧ Runs (exec (.vatAccept ch0 0 [.relation 0]) (vats [vop none false 3])) ∧
    Runs (exec (.vatApply ch0) (vats [vop none false 3])) ∧ Runs (exec (.tableInstall 50 255) (install [])) ∧
    Runs (exec (.tableInstall 50 255) (install (List.range 255))) ∧ Runs (exec (.gateTimeout 7) gated) ∧
    Runs (exec (.nmComplete 40) (nmed1 false)) ∧ Runs (exec (.nmComplete 40) (nmed1 true)) ∧
    Runs (exec (.copyComplete 40) (ending [])) ∧ Runs (exec (.copyComplete 40) (ending [.op 40])) ∧ Runs (exec (.nmComplete 40) (ending [])) ∧
    Runs (exec (.nmComplete 40) (ending [.op 40])) :=
  have cp : ∀ (slow : Bool) (i : Instr), (i = .copyComplete 40 ∧ (copy0 slow).slow = false) ∨ i = .copySlowPathDone 40 → Runs (exec i (copied slow)) :=
    fun slow i hi => runs (by
      refine (h (copied slow)).2.2.2.2.1 i 40 0x43FF0 (copy0 slow) (qu0 (copied slow)) ?_ hi ?_ ?_ (unsent _ _ (by cases slow <;> decide +kernel)) ?_ ?_ ?_ ?_ ?_ ?_ ?_ fun j hj => ⟨0x400F1, by
        have hall : ∀ slow : Bool, ∀ j < 16, (copied slow).engByte (qu0 (copied slow)).core (qu0 (copied slow)).ctx ((copy0 slow).dst.addr + BitVec.ofNat 64 j) 1 true =
          .ok (0x43FF0 + j, 0x400F1) := by decide +kernel
        exact hall slow j hj, by decide⟩
      all_goals cases slow <;> decide +kernel)
  have near : ∀ (dot write : Bool), ∀ i < 2, (nmed1 dot).engByte (qu0 (nmed1 dot)).core (qu0 (nmed1 dot)).ctx (0x100000 + BitVec.ofNat 64 (i * 4)) 4 write =
      .ok (0x40000 + 4 * i, 0x400F1) ∧
      (nmed1 dot).engByte (qu0 (nmed1 dot)).core (qu0 (nmed1 dot)).ctx (0x100010 + BitVec.ofNat 64 (i * 4)) 4 write = .ok (0x40010 + 4 * i, 0x400F1) := by
    decide +kernel
  have nm := fun dot hf hq hp hr => (h (nmed1 dot)).2.2.2.2.2.2.1 40 (nm1 dot) (qu0 (nmed1 dot)) (fun i => 0x40000 + 4 * i) (fun i => 0x40010 + 4 * i) hf hq hp hr (unsent _ _ (by cases dot <;> decide +kernel))
    (fun i hi => ⟨_, (near dot false i hi).1, by decide⟩) (fun i hi => ⟨_, (near dot false i hi).2, by decide⟩)
  have fin := fun eng => (h (ending eng)).2.2.2.2.2.2.2.2.2.2.2 (.copyComplete 40) 40 fin0 (qu0 (ending [])) rfl (by decide +kernel)
  have fin' := fun eng => (h (ending eng)).2.2.2.2.2.2.2.2.2.2.2 (.nmComplete 40) 40 fin0 (qu0 (ending [])) rfl (by decide +kernel)
  ⟨runs (by
     refine (h (walking true)).1 0 1 3 va0 false ⟨1, 0x200000, 16384, 0x40F3⟩ r0 (qu0 (walking true)) (sh0 (walking true)) ?_ ?_ ?_ ?_ ?_ ?_ ?_ ?_ ?_
     all_goals decide +kernel),
   runs ((h (walking false)).2.1 0 1 3 va0 false r0 (sh0 (walking false)) (by decide +kernel) (by decide +kernel) (by decide +kernel) (by decide +kernel) (by decide +kernel)),
   runs ((h parked0).2.2.1 0 1 3 0x60000 (va0 + 8) va0 5 false r0 (sh0 parked0) (by decide +kernel) (by decide +kernel) (by decide +kernel) (by decide +kernel)
     ⟨by decide +kernel, by decide +kernel⟩ (by decide +kernel) (by decide +kernel) (by decide +kernel)),
   runs (by
     refine (h parked0).2.2.2.1 0 1 3 (va0 + 8) va0 false true r0 (qu0 parked0) (sh0 parked0) ?_ ?_ ?_ ?_ ?_ ?_ ?_ ?_
     all_goals decide +kernel),
   cp false (.copyComplete 40) (.inl ⟨rfl, rfl⟩), cp true (.copySlowPathDone 40) (.inr rfl),
   runs ((h nmed).2.2.2.2.2.1 40 nm0 (qu0 nmed) rfl (by decide +kernel) (by decide +kernel) (by decide +kernel) (by decide +kernel) (by decide +kernel) (unsent _ _ (by decide +kernel))),
   runs ((h (vats [])).2.2.2.2.2.2.2.1 ch0 0 (vop (some r0) true 7) (by decide +kernel) (by decide +kernel) (by decide +kernel) (by decide +kernel) (by decide +kernel)).1,
   runs (by
     refine ((h (vats [vop none false 3])).2.2.2.2.2.2.2.1 ch0 0 (vop (some r0) true 7) ?_ ?_ ?_ ?_ ?_).2
       (vop none false 3) image 1 1 2 0 2 0 3 7 ?_ ?_ ?_ ?_ ?_ ?_ ?_ ?_ ?_ ?_ ?_ ?_ ?_ ?_ ?_ ?_ ?_ ?_ ?_ ?_
     all_goals decide +kernel),
   runs (by
     refine (h (vats [vop none false 3])).2.2.2.2.2.2.2.2.1 ch0 1 2 0 (vop none false 3) [] 3 ?_ ?_ ?_ ?_ ?_ ?_ ?_ ?_ ?_
     all_goals decide +kernel),
   runs (((h (install [])).2.2.2.2.2.2.2.2.2.1 50 255 ⟨50, r0, 1, 2, some image, []⟩ ((install []).ctx 1) (by decide +kernel) (by decide +kernel) (by decide +kernel)
     (by decide +kernel) (by decide +kernel)).1 (by decide +kernel)),
   runs (((h (install (List.range 255))).2.2.2.2.2.2.2.2.2.1 50 255 ⟨50, r0, 1, 2, some image, List.range 255⟩ ((install []).ctx 1) (by decide +kernel) (by decide +kernel)
     (by decide +kernel) (by decide +kernel) (by decide +kernel)).2 (by decide +kernel)),
   runs (by
     refine (h gated).2.2.2.2.2.2.2.2.2.2.1 7 5 gate0 replay0 (gated.ctx 1) ?_ ?_ ?_ ?_ ?_ ?_ ?_ ?_ ?_
     all_goals decide +kernel),
   runs ((nm false (by decide +kernel) (by decide +kernel) (by decide +kernel) (by decide +kernel)).1 rfl (fun i hi => ⟨_, (near false true i hi).2, by decide⟩)
     (by decide +kernel) (by decide +kernel) fun i j hij _ => .inl (by show 0x40010 + 4 * i + 4 ≤ 0x40010 + 4 * j; omega)),
   runs (by
     refine (nm true ?_ ?_ ?_ ?_).2 0x48000 2 0 0x486F1 image ?_ ?_ ?_ ?_ ?_ ?_ ?_ ?_ ?_ ?_ ?_ ?_ ?_ ?_ ?_ ?_ ?_ ?_ ?_
     all_goals decide +kernel),
   runs (((fin []).1 (copy0 false) rfl (.inl ⟨rfl, rfl⟩) (by decide +kernel)).2 (by decide +kernel)),
   runs (((fin [.op 40]).1 (copy0 false) rfl (.inl ⟨rfl, rfl⟩) (by decide +kernel)).1 (by decide +kernel)),
   runs (((fin' []).2 nm0 rfl rfl (by decide +kernel)).2 (by decide +kernel)), runs (((fin' [.op 40]).2 nm0 rfl rfl (by decide +kernel)).1 (by decide +kernel))⟩
/-- A tile with two blocks of its operation done, and an operation on it at the head of the engine's queue. -/
def tile0 (done : Nat) : Tile := { fresh := false, key := 5, el := [(0, ⟨9, 0⟩)], e := -3, act := true, flt := false, fstat := 0, nblk := 2, done, faddr := 0 }
def mma0 : Mma := ⟨⟨true, 0⟩, some ⟨true, 0⟩, 16, 16, 256, zeroFmt, none⟩
def headed (kind : MxKind) (begun : Bool) (done : Nat := 1) : State :=
  (sheet (fun sh => { sh with window := [⟨7, 0, 0, 0⟩] }) (quire (fun q => { q with tiles := [(1, tile0 done)] }) mtime)).modCore 0 fun c =>
    { c with mx := [⟨30, r0, 1, 7, kind, begun, none, none⟩], board := [⟨30, r0.h, 0, 10, false, true⟩] }
def sipping : State := mtime.modGallery 0 fun g => { g with tlb := pages, streams := [(2, ⟨7, 0x100000, 0, 100, 0, 1, 3, [], [(99, 1, 3)], 0⟩)] }
theorem sips : ∀ t < 64, sipping.siphonByte 0 ⟨7, 0x100000, 0, 100, 0, 1, 3, [], [(99, 1, 3)], 0⟩ (0x100000 + BitVec.ofNat 64 (192 + t)) =
    .ok (0x400C0 + t, 0x400F1) := by decide +kernel
def marking (kind : WmKind) : State :=
  (sheet (fun sh => { sh with lls := [{ id := 8, flag := 1, left := 1, outs := [], noise := false }] }) (quire (fun q => { q with ext := some ext0 }) mtime)).modCore 0 fun c =>
    { c with wm := [⟨7, r0, 8, 5, kind⟩], board := [⟨7, r0.h, 0, 100, false, false⟩] }
/-- With both operands in the chamber and no scales, every read is of the chamber. -/
theorem reads_chamber (b : Nat) : ∀ a ∈ mma0.reads b, a.1 = true := by
  intro a ha
  simp only [Mma.reads, mma0, zeroFmt, scaleBytes, List.map_nil, List.mem_append, List.mem_flatMap, List.mem_map, List.not_mem_nil, and_false, exists_false,
    or_false] at ha
  obtain ⟨_, _, _, _, _, _, rfl⟩ | ⟨_, _, _, _, _, _, rfl⟩ := ha <;> rfl
theorem errs_chamber (s : State) (q : Quire) (xs : List MxAddr) (h : ∀ a ∈ xs, a.1 = true) : s.mxErrs q xs = [] := by
  unfold State.mxErrs
  rw [List.filterMap_eq_nil_iff]
  intro a ha
  rw [if_pos (h a ha)]
theorem faults_chamber (s : State) (o : MxOp) (q : Quire) (b : Nat) {m : Mma} (hm : m = mma0) (h : ∀ a ∈ m.reads b, a.1 = true) : s.mxFaults o q m b = [] := by
  unfold State.mxFaults
  rw [errs_chamber _ _ _ h, hm]
  rfl
theorem test_witness_EngineEvents (h : Obligations.EngineEvents) : Runs (exec (.matrixOpStart 0) (headed (.zero 9) false)) ∧
    Runs (exec (.matrixOpStart 0) (headed (.mma mma0) false)) ∧ Runs (exec (.promotionStep 0) (headed (.mma mma0) true)) ∧
    Runs (exec (.matrixOpComplete 0) (headed (.mma mma0) true 2)) ∧ Runs (exec (.mxReadComplete 0) (headed (.read ⟨true, 300⟩ 512 1 0 true 4) true)) ∧
    Runs (exec (.siphonBlockRead 0 2) sipping) ∧ Runs (exec (.wmaOpPerform 0 7) (marking (.probe empty0))) ∧
    Runs (exec (.wmaOpPerform 0 7) (marking (.commit empty0 none))) ∧ Runs (exec (.wmaOpPerform 0 7) (marking (.commit empty0 (some 77)))) ∧
    Runs (exec (.wmaOpPerform 0 7) (marking (.commit empty0 (some 3)))) ∧ Runs (exec (.wmaOpPerform 0 7) (marking (.select [empty0] 5))) ∧
    Runs (exec (.wmaOpPerform 0 7) (marking (.read 100 254 2))) :=
  have hd := fun kind begun done (hh : (headed kind begun done).mxHead 0 = some (⟨30, r0, 1, 7, kind, begun, none, none⟩, qu0 (headed kind begun done), tile0 done)) =>
    (h (headed kind begun done)).1 0 _ _ _ hh rfl
  have wm := fun kind (hh : ((marking kind).core 0).wm.find? (fun o => o.id = 7) = some ⟨7, r0, 8, 5, kind⟩ ∧
      (∀ y ∈ ((marking kind).core 0).wm, y.id ≠ 7 → y.ref ≠ r0) ∧ (marking kind).quires.find r0.h = some (qu0 (marking kind)) ∧
      (qu0 (marking kind)).sheets.find 0 = some (sh0 (marking kind)) ∧ (qu0 (marking kind)).ext = some ext0 ∧
      ∀ y ∈ (qu0 (marking kind)).sheets, y.2.wait = .none) =>
    (h (marking kind)).2.2 0 7 _ (qu0 (marking kind)) (sh0 (marking kind)) ext0 hh.1 hh.2.1 hh.2.2.1 hh.2.2.2.1 hh.2.2.2.2.1
      fun y hy _ _ _ _ _ _ _ hw => by rw [hh.2.2.2.2.2 y hy] at hw; cases hw
  have w1 := wm (.probe empty0) (by decide +kernel)
  have w2 := wm (.commit empty0 none) (by decide +kernel)
  have w3 := wm (.commit empty0 (some 77)) (by decide +kernel)
  have w4 := wm (.commit empty0 (some 3)) (by decide +kernel)
  have w5 := wm (.select [empty0] 5) (by decide +kernel)
  have w6 := wm (.read 100 254 2) (by decide +kernel)
  ⟨runs ((hd (.zero 9) false 1 (by decide +kernel)).1 rfl 9 rfl), runs ((hd (.mma mma0) false 1 (by decide +kernel)).2.1 rfl mma0 rfl rfl),
   runs ((hd (.mma mma0) true 1 (by decide +kernel)).2.2.1 mma0 rfl rfl rfl rfl (by decide) rfl (faults_chamber _ _ _ _ rfl (reads_chamber _)) rfl (reads_chamber 1)),
   runs ((hd (.mma mma0) true 2 (by decide +kernel)).2.2.2.1 rfl (.inr ⟨mma0, rfl, .inr (by decide)⟩)),
   runs ((hd (.read ⟨true, 300⟩ 512 1 0 true 4) true 1 (by decide +kernel)).2.2.2.2 _ _ _ _ _ rfl rfl rfl rfl (unsent _ _ (by decide +kernel)) rfl (by decide)),
   runs ((h sipping).2.1 0 2 ⟨7, 0x100000, 0, 100, 0, 1, 3, [], [(99, 1, 3)], 0⟩ (by decide +kernel) (by decide +kernel) (by decide +kernel) (by decide +kernel) fun a ha => by
     simp only [Stream.addrs, List.mem_flatMap, List.mem_map, List.mem_range] at ha
     obtain ⟨j, -, t, ht, rfl⟩ := ha
     rw [show j * 0 + 64 * 2 ^ 0 * 3 + t = 192 + t by omega]
     exact ⟨_, _, sips t ht, by decide⟩),
   runs (w1.1 empty0 rfl), runs (w2.2.1 empty0 rfl), runs (w3.2.2.1 empty0 77 rfl (by decide)), runs (w4.2.2.2.1 empty0 rfl),
   runs (w5.2.2.2.2.1 [empty0] 5 empty0 rfl (.head _) fun y hy => .inr (by rw [List.mem_singleton.mp hy]; exact ⟨rfl, .inr rfl⟩)),
   runs (w6.2.2.2.2.2 100 254 2 rfl)⟩

/-! ### Witnesses: fabric events, module events -/

def noFec : Fec := { bad := none, corrected := [] }
/-- A flit of a type with its CRC, or with another. -/
def crcFlit (typ : BitVec 4) (seq : BitVec 12) (p : List Byte) (off : BitVec 64) : Flit := ⟨seq, typ, 0, p, crc64 (flitBytes ⟨seq, typ, 0, p, 0, noFec⟩) + off, noFec⟩
def flit (typ : BitVec 4) (seq : BitVec 12) (off : BitVec 64 := 0) : Flit := crcFlit typ seq (List.replicate 240 0) off
theorem crcFlit_ok (typ : BitVec 4) (seq : BitVec 12) (p : List Byte) (h : p.length = 240) : flitOk (crcFlit typ seq p 0) = true := by
  have h2 : flitBytes (crcFlit typ seq p 0) = flitBytes ⟨seq, typ, 0, p, 0, noFec⟩ := rfl
  have h3 : (crcFlit typ seq p 0).payload.length = 240 := h
  have h4 : (crcFlit typ seq p 0).crc = crc64 (flitBytes ⟨seq, typ, 0, p, 0, noFec⟩) := BitVec.add_zero _
  simp only [flitOk, h2, h3, h4, BEq.rfl, Bool.and_self]
theorem crcFlit_bad (typ : BitVec 4) (seq : BitVec 12) (p : List Byte) : flitOk (crcFlit typ seq p 1) = false := by
  have h2 : flitBytes (crcFlit typ seq p 1) = flitBytes ⟨seq, typ, 0, p, 0, noFec⟩ := rfl
  have h4 : (crcFlit typ seq p 1).crc = crc64 (flitBytes ⟨seq, typ, 0, p, 0, noFec⟩) + 1 := rfl
  simp only [flitOk, h2, h4]
  generalize crc64 (flitBytes ⟨seq, typ, 0, p, 0, noFec⟩) = c
  simp
theorem flit_ok (typ : BitVec 4) (seq : BitVec 12) : flitOk (flit typ seq) = true := crcFlit_ok typ seq _ List.length_replicate
theorem flit_bad (typ : BitVec 4) (seq : BitVec 12) : flitOk (flit typ seq 1) = false := crcFlit_bad typ seq _
theorem in_core (s : State) (h : Nat) (q : Quire) (k : s.quires.find h = some q ∧ q.phase = .resident) : InCore s h := fun q' hq c a w x hp => by
  rw [k.1] at hq
  cases hq
  rw [k.2] at hp
  cases hp
/-- Port 0 expects SEQ 9 and has three flits unacknowledged; ports 2 and 3 are up. -/
def link (f : Port → Port := id) (fabs : List FabOp := []) (g : Group := grp .active) (applied : List (Nat × Nat × Nat × Nat × Nat) := []) : State :=
  { (fab .active).modCtx 1 fun c => { c with groups := [(5, g)] } with
    ports := [(0, f { Port.down with up := true, rx := 9, tx := 30, buf := [(27, .unreachable 1), (28, .unreachable 2), (29, .unreachable 3)] }),
      (2, { Port.down with up := true }), (3, { Port.down with up := true })]
    now := 720720 * 3000000000, fabs, applied }
theorem calm (s : State) (h : s.fabs = [] ∧ s.ctxs.all (fun c => c.2.groups.all fun g => g.2.st ≠ .reforming) = true) : Calm s :=
  ⟨h.1, fun c hc g hg => by simpa using List.all_eq_true.mp (List.all_eq_true.mp h.2 c hc) g hg⟩
theorem calm_link (f : Port → Port) : Calm (link f) := by
  have hc : (link.ctxs.all fun c => c.2.groups.all fun g => g.2.st ≠ .reforming) = true := by decide +kernel
  exact calm _ ⟨rfl, hc⟩
def fop (kind : FKind) (pool d exp : Nat) (noRoute : Bool := false) : FabOp := {
  id := 900, ref := r0, ctx := 1, slot := 5, kind, post := none, after := [], pool, tag := 0, d, exp, gen := 7, port := some 3, sent := true, noRoute
  expired := false, ans := none }
def remote (gen : Nat) (kind : RemoteKind) : RemoteOp :=
  { port := 2, node := 50, from_ := 4, ctx := 1, slot := 5, gen, rank := 2, num := 40, kind, post := none, after := [] }
/-- The same port with a lane repair, with a replay, and in training. -/
def mending (r : Option Repair) : State := link fun x => { x with repair := r }
def replaying (fails : Nat) (stale : Nat := 0) : State := link fun x => { x with replay := some (28, 29, 2999998000), fails, stale }
def training (peer : Option (BitVec 24 × Nat)) : State := link fun _ => { Port.down with training := true, peer }
def retrying : State := (link fun _ => { Port.down with downAt := 2000000000 }).modDie 0 fun d => { d with up := true }
theorem test_witness_FabricEvents_flits (h : Obligations.FabricEvents) :
    (Runs (exec (.flitData 0 (flit 0 9) noFec) link) ∧ Runs (exec (.flitData 0 (flit 0 10) noFec) link) ∧
     Runs (exec (.flitData 0 (flit 0 9 1) noFec) link) ∧ Runs (exec (.flitAck 0 (flit 1 9 1) 28) link) ∧
     Runs (exec (.flitData 0 (flit 1 9) noFec) link) ∧ Runs (exec (.flitIdle 0 (flit 3 9) noFec) link) ∧
     Runs (exec (.flitAck 0 (flit 1 9) 29) (replaying 2))) ∧
    (Runs (exec (.flitNak 0 (flit 2 9) 28) link) ∧ Runs (exec (.flitNak 0 (flit 2 9) 28) (replaying 2 1)) ∧
     Runs (exec (.flitNak 0 (flit 2 9) 28) (replaying 6)) ∧ Runs (exec (.flitControl 0 (flit 4 9) (.unreachable 77)) link) ∧
     Runs (exec (.flitControl 0 (flit 4 9) .down) link)) ∧
    (Runs (exec (.flitAbortNotice 0 (flit 5 9) 1 5 ⟨2, 0x81, 7⟩) link) ∧
     Runs (exec (.flitAbortNotice 0 (flit 5 9) 1 5 ⟨2, 0x81, 7⟩) (link id [] (grp .settling))) ∧
     Runs (exec (.flitAbortNotice 0 (flit 5 9) 1 5 ⟨2, 0x81, 6⟩) link)) :=
  have p := fun f g q => (h (link f [] g)).1 0 q noFec
  have p0 := fun q => p id (grp .active) q (by decide +kernel) (by decide +kernel)
  have r := fun n m hu hr => ((h (replaying n m)).1 0 (flit 2 9) noFec hu hr).2.2.2.2.2.2.1 28 (flit_ok 2 9) rfl (calm_link _) rfl
  have c0 := calm link (by decide +kernel)
  ⟨⟨runs ((p0 (flit 0 9)).1 (flit_ok 0 9) rfl (by decide +kernel)), runs ((p0 (flit 0 10)).2.1 (flit_ok 0 10) rfl (by decide +kernel)),
    runs (((p0 (flit 0 9 1)).2.2.1 0 0 0 0 0 ⟨0, 0, 0⟩ (flit_bad 0 9)).1 _ (.head _)), runs (((p0 (flit 1 9 1)).2.2.1 28 0 0 0 0 ⟨0, 0, 0⟩ (flit_bad 1 9)).2 _ (.head _)),
    runs ((p0 (flit 1 9)).2.2.2.1 0 0 0 0 0 0 0 ⟨0, 0, 0⟩ (flit_ok 1 9) c0 (_, 0) (.head _) (by decide)), runs ((p0 (flit 3 9)).2.2.2.2.1 (flit_ok 3 9) rfl),
    runs (((h (replaying 2)).1 0 (flit 1 9) noFec (by decide +kernel) (by decide +kernel)).2.2.2.2.2.1 29 (flit_ok 1 9) rfl (by decide +kernel) (by decide +kernel))⟩,
   ⟨runs (((p0 (flit 2 9)).2.2.2.2.2.2.1 28 (flit_ok 2 9) rfl c0 (by decide +kernel) (by decide +kernel)).1 (by decide +kernel)),
    runs ((r 2 1 (by decide +kernel) (by decide +kernel) (by decide +kernel)).2.1 29 2999998000 (by decide +kernel) (by decide +kernel)),
    runs ((r 6 0 (by decide +kernel) (by decide +kernel) (by decide +kernel)).2.2 29 2999998000 (by decide +kernel) (by decide +kernel) (by decide +kernel)),
    runs ((p0 (flit 4 9)).2.2.2.2.2.2.2.1 77 (flit_ok 4 9) rfl (by decide +kernel) c0), runs ((p0 (flit 4 9)).2.2.2.2.2.2.2.2.1 (flit_ok 4 9) rfl c0)⟩,
   ⟨runs (((p0 (flit 5 9)).2.2.2.2.2.2.2.2.2 1 5 ⟨2, 0x81, 7⟩ (grp .active) (flit_ok 5 9) rfl (by decide +kernel) (by decide +kernel)).1 rfl rfl
      (by decide +kernel)),
    runs (((p id (grp .settling) (flit 5 9) (by decide +kernel) (by decide +kernel)).2.2.2.2.2.2.2.2.2 1 5 ⟨2, 0x81, 7⟩ (grp .settling) (flit_ok 5 9) rfl
      (by decide +kernel) (by decide +kernel)).2.1 rfl rfl),
    runs (((p0 (flit 5 9)).2.2.2.2.2.2.2.2.2 1 5 ⟨2, 0x81, 6⟩ (grp .active) (flit_ok 5 9) rfl (by decide +kernel) (by decide +kernel)).2.2 (by decide))⟩⟩
theorem test_witness_FabricEvents_ports (h : Obligations.FabricEvents) :
    (Runs (exec (.flitControl 0 (flit 4 3) (.hello 5 1)) link) ∧ Runs (exec (.flitControl 0 (flit 4 3) (.hello 5 1)) link) ∧
     Runs (exec (.flitControl 0 (flit 4 3) (.hello 5 1)) (link fun _ => Port.down)) ∧
     Runs (exec (.flitControl 0 (flit 4 3) (.hello 5 1)) (link fun _ => { Port.down with lanes := some [true, true, true, true, true] })) ∧
     Runs (exec (.spareTrained 0 99) (mending (some ⟨2, none, none, false, false⟩))) ∧
     Runs (exec (.flitControl 0 (flit 4 9) (.laneMap 2 11)) (mending none)) ∧ Runs (exec (.flitControl 0 (flit 4 9) (.laneMap 2 10)) (mending none)) ∧
     Runs (exec (.flitControl 0 (flit 4 9) (.laneMap 2 10)) (mending (some ⟨2, some 31, none, true, false⟩)))) ∧
    (Runs (exec (.replayTimeout 0) (replaying 6)) ∧ Runs (exec (.replayTimeout 0) (replaying 7)) ∧ Runs (exec (.portRetry 0) retrying) ∧
     Runs (exec (.portTrainingDone 0 [true, true, true, true, false]) (training none)) ∧
     Runs (exec (.portTrainingDone 0 [true, true, true, false, true]) (training (some (5, 1)))) ∧
     Runs (exec (.portTrainingDone 0 ((List.range 5).map fun i => i ≠ 0 ∧ i ≠ 4)) (training none))) :=
  have hello := fun f hc => (h (link f)).2.1 0 (flit 4 3) 5 1 (flit_ok 4 3) rfl hc
  have lanes := fun r q hu => (h (mending r)).2.2.1 0 2 q hu
  have map := fun r q hu ho hr => (lanes r q hu).2 (flit 4 9) (flit_ok 4 9) rfl hr ho
  have times := fun n hu hr => (h (replaying n)).2.2.2.1 0 28 29 2999998000 hu hr (by show 2999998000 + 2000 ≤ 720720 * 3000000000 / 720720; decide) (calm_link _)
  have tr := fun y ht => ((h (training y)).2.2.2.2.1 0).2 ht (calm_link _)
  ⟨⟨runs ((hello id (calm _ (by decide +kernel))).1 (by decide +kernel)), runs ((hello id (calm _ (by decide +kernel))).2.1 (.inl (by decide +kernel))),
    runs ((hello (fun _ => Port.down) (calm _ (by decide +kernel))).2.1 (.inr (by decide +kernel))),
    runs ((hello (fun _ => { Port.down with lanes := some [true, true, true, true, true] }) (calm _ (by decide +kernel))).2.2 _ (by decide +kernel) rfl),
    runs ((lanes (some ⟨2, none, none, false, false⟩) 99 (by decide +kernel)).1 (by decide +kernel) (by decide +kernel)),
    runs (((map none 11 (by decide +kernel) (by decide +kernel) (by decide +kernel)).1 (.inl (by decide +kernel))).1 (by decide +kernel)),
    runs (((map none 10 (by decide +kernel) (by decide +kernel) (by decide +kernel)).1 (.inl (by decide +kernel))).2 (by decide +kernel)),
    runs ((map (some ⟨2, some 31, none, true, false⟩) 10 (by decide +kernel) (by decide +kernel) (by decide +kernel)).2 31 (by decide +kernel) (by decide +kernel))⟩,
   ⟨runs ((times 6 (by decide +kernel) (by decide +kernel)).1 (by decide +kernel) (by decide +kernel)), runs ((times 7 (by decide +kernel) (by decide +kernel)).2 (by decide +kernel)),
    runs (((h retrying).2.2.2.2.1 0).1 (by decide +kernel) (by decide +kernel) (by decide +kernel) (by decide +kernel)),
    runs (((tr none (by decide +kernel)).1 4 false (by decide) (by decide)).1 (by decide +kernel)),
    runs (((tr (some (5, 1)) (by decide +kernel)).1 3 false (by decide) (by decide)).2 (5, 1) (by decide +kernel)),
    runs ((tr none (by decide +kernel)).2 0 (by decide))⟩⟩
def send0 : FKind := .send ⟨true, 8⟩ 0x40 16 3
/-- A re-forming group of which this member is the coordinator, with the proposals of members 0, 1 and 2, or 0 and 1. -/
def forming (props : List (Nat × List Nat)) : Group := { grp .reforming with rank := 0, props }
def tabled : State :=
  let s := (link id [] (grp .active)).modCtx 1 fun c => { c with desc := { c.desc with ptroot := 0x200000 } }
  let m := ([(0x200000, 0x204001), (0x204000, 0x208001), (0x208000, 0x20C001), (0x20C008, 0x210001), (0x210000, 0x40F3)] : List (Nat × Nat)).foldl
    (fun m x => Memory.write m x.1 (leBytes 8 x.2)) s.mem
  { s with mem := m }
def settling0 : Group := { grp .settling with window := some 5, seen := [⟨3, 1, 7⟩, ⟨1, 2, 7⟩] }
theorem tabled_walk : ∀ j < 2, tabled.engAt 1 (0x200028 + BitVec.ofNat 64 j) 1 true (tabled.walk (tabled.triggerDie 0 1) 1 (0x200028 + BitVec.ofNat 64 j)) =
    .ok (0x4028 + j, 0x40F3) := by decide +kernel
def fetch0 : FKind := .fetch ⟨true, 200⟩ 0x40 16 3
def fop2 : FabOp := { fop (.reform []) 3 99 50 with id := 901 }
theorem test_witness_FabricEvents_operations (h : Obligations.FabricEvents) :
    (Runs (exec (.operationExpiry 900) (link id [fop send0 3 99 50])) ∧
     Runs (exec (.routeLoss 900) (link id [fop (.send ⟨true, 8⟩ 0x40 16 2) 3 99 50])) ∧
     Runs (exec (.settle 1 5) (link id [fop send0 3 99 50] settling0)) ∧
     Runs (exec (.settle 1 5) (link id [fop (.reform []) 3 99 50, fop2] settling0)) ∧
     Runs (exec (.settle 1 5) (link id [] { settling0 with decided := some [0, 1] })) ∧
     Runs (exec (.fabricOpComplete 900 ⟨5, 7, []⟩) (link id [fop send0 3 99 50])) ∧
     Runs (exec (.fabricOpComplete 900 ⟨0, 16, [1, 2]⟩) (link id [fop fetch0 3 99 50]))) ∧
    (Runs (exec (.remoteOpArrival (remote 7 (.bar 3))) (link id [] (grp .active) [(1, 5, 7, 2, 40)])) ∧
     Runs (exec (.remoteOpArrival (remote 9 (.bar 3))) (link)) ∧ Runs (exec (.remoteOpArrival (remote 7 (.bar 3))) (link id [] (grp .aborted))) ∧
     Runs (exec (.remoteOpArrival (remote 7 (.bar 3))) (link id [] { grp .active with arrived := [] })) ∧
     Runs (exec (.remoteOpArrival (remote 7 (.write 0x200028 [1, 2]))) tabled)) ∧
    (Runs (exec (.greformDecision 1 5 7 [0, 2]) (link id [] (grp .aborted))) ∧ Runs (exec (.greformDecision 1 5 7 [1, 2, 3, 9]) (link id [] (grp .reforming))) ∧
     Runs (exec (.greformDecision 1 5 7 [0, 2]) (link id [] (grp .settling))) ∧ Runs (exec (.greformDecision 1 5 7 [0, 2]) (link id [] (grp .active))) ∧
     Runs (exec (.greformProposal 1 5 2 7 [0]) (link id [] (grp .aborted))) ∧
     Runs (exec (.greformProposal 1 5 3 7 [0, 1, 3]) (link id [] (forming [(0, [0, 1, 3]), (1, [0, 1, 3])]))) ∧
     Runs (exec (.coordinatorTimeout 1 5) (link id [fop (.reform []) 3 99 50] (forming [(0, [0, 1]), (1, [0, 1])]))) ∧
     Runs (exec (.coordinatorTimeout 1 5) (link id [fop (.reform []) 3 99 50] (forming [(0, [0, 1, 3]), (1, [0, 1, 3]), (3, [0, 1, 3])]))) ∧
     Runs (exec (.greformTimeout 900) (link id [fop (.reform []) 3 99 50] (forming [])))) :=
  have ops := fun o g => (h (link id [o] g)).2.2.2.2.2.1 900 o g
  have st := fun l g hg => (h (link id l g)).2.2.2.2.2.2.1 1 5 5 g hg
  have done := fun o ans => (h (link id [o])).2.2.2.2.2.2.2.1 900 o ans (qu0 (link id [o]))
  have core := fun l g k => in_core (link id l g) r0.h (qu0 (link id l g)) k
  have far := fun g l op hg => (h (link id [] g l)).2.2.2.2.2.2.2.2.1 op g hg
  have form := fun ctx rank xs g hg => (h (link id [] g)).2.2.2.2.2.2.2.2.2.1 ctx 5 rank 7 xs g hg
  have co := fun g hg => (h (link id [fop (.reform []) 3 99 50] g)).2.2.2.2.2.2.2.2.2.2 1 5 g (fop (.reform []) 3 99 50) hg
  have stale := ((far (grp .active) [] (remote 9 (.bar 3)) (by decide +kernel)).2 (by decide +kernel) rfl).1 (by decide) (fun o ho => by cases ho)
  have wr := ((h tabled).2.2.2.2.2.2.2.2.1 (remote 7 (.write 0x200028 [1, 2])) (grp .active) (by decide +kernel)).2 (by decide +kernel) rfl
  ⟨⟨runs ((ops (fop send0 3 99 50) (grp .active) (by decide +kernel) (by decide +kernel) rfl rfl rfl).1 rfl (by decide +kernel)),
    runs ((ops (fop (.send ⟨true, 8⟩ 0x40 16 2) 3 99 50) (grp .active) (by decide +kernel) (by decide +kernel) rfl rfl rfl).2 _ _ _ _ (.inl rfl) rfl (by decide +kernel)),
    runs ((st [fop send0 3 99 50] settling0 (by decide +kernel) rfl rfl (by decide +kernel) (by decide) rfl).1 (fop send0 3 99 50) rfl (by decide +kernel)
      (core _ _ (by decide +kernel)) (fun _ hk => by cases hk) (fun _ hk => by cases hk)),
    runs ((st [fop (.reform []) 3 99 50, fop2] settling0 (by decide +kernel) rfl rfl (by decide +kernel) (by decide) rfl).2.1 fop2 (fop (.reform []) 3 99 50) [] []
      rfl (by decide +kernel) (by decide) rfl rfl (core _ _ (by decide +kernel))),
    runs ((st [] { settling0 with decided := some [0, 1] } (by decide +kernel) rfl rfl (by decide +kernel) (by decide) rfl).2.2 [0, 1] rfl (by decide +kernel)),
    runs ((done (fop send0 3 99 50) ⟨5, 7, []⟩ (by decide +kernel) (by decide +kernel) (core _ _ (by decide +kernel)) (unsent _ _ (by decide +kernel)) rfl rfl rfl).1 _ _ _ _ rfl),
    runs ((done (fop fetch0 3 99 50) ⟨0, 16, [1, 2]⟩ (by decide +kernel) (by decide +kernel) (core _ _ (by decide +kernel)) (unsent _ _ (by decide +kernel)) rfl rfl rfl).2 _ _ _ _ ⟨16, 4, 2, 1, 1⟩
      rfl rfl (by decide +kernel))⟩,
   ⟨runs ((far (grp .active) [(1, 5, 7, 2, 40)] (remote 7 (.bar 3)) (by decide +kernel)).1 (by decide +kernel)),
    runs stale,
    runs (((far (grp .aborted) [] (remote 7 (.bar 3)) (by decide +kernel)).2 (by decide +kernel) rfl).2.1 rfl (by decide)),
    runs (((far { grp .active with arrived := [] } [] (remote 7 (.bar 3)) (by decide +kernel)).2 (by decide +kernel) rfl).2.2.1 rfl rfl rfl 3 rfl rfl
      (fun o ho => by cases ho)),
    runs (wr.2.2.2 rfl rfl rfl rfl (unsent _ _ (by decide +kernel)) _ _ 0x4028 rfl (by decide +kernel) rfl ((by decide +kernel : ∀ j < 2, tabled.worn [0x4028 + j] = none)) fun j hj => ⟨_, tabled_walk j hj, by decide⟩)⟩,
   ⟨runs ((form 1 0 [0, 2] (grp .aborted) (by decide +kernel) rfl rfl).1 (.inl rfl)),
    runs ((form 1 0 [1, 2, 3, 9] (grp .reforming) (by decide +kernel) rfl rfl).1 (.inr rfl)),
    runs ((form 1 0 [0, 2] (grp .settling) (by decide +kernel) rfl rfl).2.1 rfl),
    runs ((form 1 0 [0, 2] (grp .active) (by decide +kernel) rfl rfl).2.2.1 rfl (fun y hy => by cases hy)),
    runs (((form 1 2 [0] (grp .aborted) (by decide +kernel) rfl rfl).2.2.2 rfl).1 rfl),
    runs (((form 1 3 [0, 1, 3] (forming [(0, [0, 1, 3]), (1, [0, 1, 3])]) (by decide +kernel) rfl rfl).2.2.2 rfl).2 rfl (by decide +kernel) (by decide +kernel) (by decide +kernel)),
    runs (((co (forming [(0, [0, 1]), (1, [0, 1])]) (by decide +kernel) (by decide +kernel) rfl rfl).1 rfl (by decide +kernel) (by decide +kernel)).1 (by decide +kernel)),
    runs (((co (forming [(0, [0, 1, 3]), (1, [0, 1, 3]), (3, [0, 1, 3])]) (by decide +kernel) (by decide +kernel) rfl rfl).1 rfl (by decide +kernel)
      (by decide +kernel)).2 (by decide +kernel)),
    runs ((co (forming []) (by decide +kernel) (by decide +kernel) rfl rfl).2 (by decide +kernel) (by decide +kernel) (core _ _ (by decide +kernel)))⟩⟩
/-- Partition 0 takes commands, with a launch queue 3; or the same with no quire, and with bytes of memory. -/
def hosted : State := { s0 with now := 720720 * 60000, boot := { s0.boot with t := some 0 } }.modPart 0 fun p => { p with bar2 := 2 ^ 30, ready := true, ports := 1, queues := [(3, ⟨0x300, 3, 1, 1, 7, 9, none, 0⟩)] }
def vacant (m : List (Nat × Nat × Nat)) : State :=
  { hosted with quires := [], cur := none, mem := m.foldl (fun t x => Memory.write t x.1 (leBytes x.2.1 x.2.2)) hosted.mem }
def created : State := vacant [(0x48000, 1, 0x10), (0x48003, 1, 0x10)]
def grouped : State := vacant [(0x48000, 2, 2), (0x48002, 2, 1), (0x48004, 2, 9), (0x48008, 4, 5000), (0x4800C, 4, 777), (0x48010, 8, 0x48100), (0x48100, 4, 3),
  (0x48104, 4, 4), (0x48108, 1, 0x80), (0x48110, 4, 2), (0x48114, 4, 4)]
def debugged : State := vacant [(0x48000, 8, 0x50000), (0x48008, 4, 0x1000), (0x4800C, 1, 3), (0x4800D, 1, 4), (0x48020, 8, 0x60000), (0x48028, 8, 0x2000)]
theorem test_witness_ModuleEvents_commands (h : Obligations.ModuleEvents) :
    Runs (exec (.queue 0 ⟨5, 0x300, 3, 1, 2⟩) hosted) ∧ Runs (exec (.queue 0 ⟨3, 0x300, 3, 1, 2⟩) (hosted.modPart 0 fun p => { p with queues := [] })) ∧
    Runs (exec (.queue 0 ⟨5, 0x300, 3, 9, 2⟩) hosted) ∧ Runs (exec (.ctxCreate 0 0x48000) created) ∧ Runs (exec (.ctxCreate 0 0x48000) hosted) ∧
    Runs (exec (.ctxDestroy 0 1) (vacant [])) ∧ Runs (exec (.ctxDestroy 0 1) hosted) ∧ Runs (exec (.groupUnbind 0 1 15) (vacant [])) ∧
    Runs (exec (.debugBind 0 1 0) (vacant [])) ∧ Runs (exec (.debugBind 0 1 0x48000) debugged) ∧ Runs (exec (.ctxCtlSuspend 0 1) (vacant [])) ∧
    Runs (exec (.debugBind 0 1 0) hosted) ∧
    Runs (exec (.ctxCtlResume 0 1) hosted) ∧ Runs (exec (.groupBind 0 1 15 0x48000) grouped) ∧
    Runs (exec (.counters 0 hostBase) { hosted with flash := { hosted.flash with counters := [1, 2] } }) :=
  have c := fun s (hs : Takes s 0) => (h s).2.2.2.1 0 hs
  have th : Takes hosted 0 := ⟨by decide +kernel, by decide +kernel⟩
  have tv : Takes (vacant []) 0 := ⟨by decide +kernel, by decide +kernel⟩
  have none0 : ∀ q ∈ (vacant []).quires, q.2.ctx ≠ 1 := fun q hq => by cases hq
  have v := (c (vacant []) tv).2.2.2.2.1 1 15 (by decide +kernel)
  have hq := (c hosted th).2.2.2.2.1 1 15 (by decide +kernel)
  have dbg := ((c debugged ⟨by decide +kernel, by decide +kernel⟩).2.2.2.2.1 1 15 (by decide +kernel)).2.2.2.2.1 0x48000
  ⟨runs ((c hosted th).1 ⟨5, 0x300, 3, 1, 2⟩ (by decide +kernel) (by decide +kernel) (by decide) (by decide) (by decide) (by decide) (by
     rw [show (hosted.part 0).queues.find 5 = none by decide +kernel]
     intro l hl
     cases hl)),
   runs ((c (hosted.modPart 0 fun p => { p with queues := [] }) ⟨by decide +kernel, by decide +kernel⟩).1 ⟨3, 0x300, 3, 1, 2⟩ (by decide +kernel) (by decide +kernel)
     (by decide) (by decide) (by decide) (by decide) (by
     rw [show ((hosted.modPart 0 fun p => { p with queues := [] }).part 0).queues.find 3 = none by decide +kernel]
     intro l hl
     cases hl)),
   runs ((c hosted th).2.1 ⟨5, 0x300, 3, 9, 2⟩ (by decide +kernel)),
   runs ((c created ⟨by decide +kernel, by decide +kernel⟩).2.2.1 0x48000 (by decide +kernel) (by decide +kernel) (by decide +kernel) (by decide +kernel)
     (by decide +kernel) (by decide +kernel) rfl),
   runs ((c hosted th).2.2.2.1 0x48000 (by decide +kernel) (by decide +kernel) rfl),
   runs (v.1 (by decide +kernel)), runs (hq.2.1 (by decide +kernel)), runs (v.2.2.1 (by decide) (fun o ho => by cases ho)), runs (v.2.2.2.1 none0),
   runs (dbg (fun q hq => by cases hq) (by decide) (by decide +kernel) (by decide +kernel) (by decide +kernel) (by decide +kernel) rfl),
   runs (v.2.2.2.2.2.1 none0), runs (hq.2.2.2.2.2.2.1 (by decide +kernel) (by decide +kernel)), runs (hq.2.2.2.2.2.2.2 rfl),
   runs (by
     refine (c grouped ⟨by decide +kernel, by decide +kernel⟩).2.2.2.2.2.1 1 15 0x48000 (by decide +kernel) (by decide +kernel) (by decide) (by decide) ?_ ?_ ?_ ?_ ?_ ?_ ?_ ?_ ?_ ?_ ?_ ?_ ?_
     all_goals decide +kernel),
   runs ((c { hosted with flash := { hosted.flash with counters := [1, 2] } } ⟨by decide +kernel, by decide +kernel⟩).2.2.2.2.2.2 hostBase (by decide +kernel)
     (by decide +kernel) (by decide +kernel))⟩
theorem posts (s : State) (part : Nat) (hl : s.linkUp = true) (h : s.hostWait = []) : Posts s part := ⟨hl, fun y hy => by
  rw [h] at hy
  cases hy⟩
/-- A command block in host memory at 0x1000 that destroys context 1. -/
def ordered : State := { hosted with mem := Memory.write hosted.mem 0x8000000001000 [3, 1] }
def booting (f : Boot → Boot) : State := { hosted with now := 720720 * 1000000, boot := f { hosted.boot with power := true, t := none } }
def idleAll (vats : Tab Vat) : State := { vacant [] with ctxs := [], vats }
theorem test_witness_ModuleEvents (h : Obligations.ModuleEvents) (i : Image) :
    (Runs (exec (.clockRelockDone 0) (s0.modDie 0 fun d => { d with step := some (5, 0) })) ∧ Runs (exec (.firmwareClockStep 0 8 false) s0) ∧
     Runs (exec (.noiseSourceFail 0) s0) ∧ Runs (exec (.doorbell 0 3 15) hosted) ∧ Runs (exec (.hostRegisterWrite 0 0x1018 15) hosted) ∧
     Runs (exec (.doorbell 0 3 16) hosted) ∧ Runs (exec (.hostRegisterWrite 0 0x200 0x1000) hosted) ∧ Runs (exec (.hostRegisterWrite 0 0x208 65536) hosted) ∧
     Runs (exec (.hostRegisterWrite 0 0x100000 (BitVec.ofNat 64 (2 ^ 36))) hosted) ∧ Runs (exec (.hostBar2Access 0 (2 ^ 30 - 2) none 3) hosted) ∧ Runs (exec (.hostBar2Access 0 (2 ^ 30 - 2) none 2) hosted) ∧
     hosted.hostBar2 0 8 2 = [0, 0] ∧ Runs (exec (.hostBar2Access 0 (2 ^ 30 - 2) (some [1, 2]) 2) hosted) ∧ Runs (exec .powerGood State.reset) ∧
     exec (.hostRegisterWrite 0 0x100 0x1000) ordered = exec (.ctxDestroy 0 (ordered.readNat 0x8000000001001 2)) ordered ∧
     Runs (exec (.hostRegisterWrite 0 0x100 0x1000) hosted)) ∧
    (Runs (exec (.imageVerify 1 i 0) (booting id)) ∧ Runs (exec (.imageVerify 2 i 0) (booting fun b => { b with stage := 1 })) ∧
     Runs (exec (.imageVerify 3 i 0) (booting fun b => { b with stage := 1 })) ∧
     Runs (exec (.imageVerify 4 i 0) (booting fun b => { b with stage := 3, hv := true, t := some 0 }))) ∧
    (Runs (exec (.galleryUp 1 9) (booting fun b => { b with t := some 0 })) ∧ Runs (exec (.galleryUp 1 3) (booting fun b => { b with t := some 0 })) ∧
     Runs (exec .ready (booting fun b => { b with t := some 0 })) ∧ Runs (exec (.channelRetire 255) (idleAll [])) ∧
     Runs (exec (.channelRetire 0) (idleAll [(0, { s0.vat 0 with queue := [vop none false 3] })])) ∧
     Runs (exec (.rekeyComplete 5) { s0 with rekeys := [⟨5, true, []⟩], blockCtr := [(256 * 5 + 3, 7)] })) :=
  have d := (h (s0.modDie 0 fun d => { d with step := some (5, 0) })).1 0
  have d0 := (h s0).1 0
  have p0 : Posts hosted 0 := posts _ _ (by decide +kernel) (by decide +kernel)
  have l := fun i hl => (h hosted).2.1 0 3 i ⟨0x300, 3, 1, 1, 7, 9, none, 0⟩ hl (by decide) p0
  have boot := fun f => (h (booting f)).2.2.2.2.2.2.2
  ⟨⟨runs (d.1 5 0 (by decide +kernel) (by decide +kernel) (by decide +kernel)),
    runs (d0.2.1 8 (by decide) (by decide) (by decide +kernel) (by decide +kernel) (by decide +kernel)),
    runs (d0.2.2 (by decide +kernel) (by decide +kernel)),
    runs ((l 15 (by decide +kernel)).1 (by decide +kernel)).1, runs ((l 15 (by decide +kernel)).1 (by decide +kernel)).2,
    runs ((l 16 (by decide +kernel)).2 (by decide +kernel)),
    runs (((h hosted).2.2.1 0 0x1000 p0).2.1 (by decide)), runs (((h hosted).2.2.1 0 0 p0).2.2.1 12 (by decide)),
    runs (((h hosted).2.2.1 0 0 p0).2.2.2.1 6 (by decide)), runs (((h hosted).2.2.2.2.1 0 (2 ^ 30 - 2) [] p0).1 3 |>.1 (.inr (by decide +kernel))),
    runs (((h hosted).2.2.2.2.1 0 (2 ^ 30 - 2) [] p0).1 2 |>.2 (by decide) (by decide +kernel) (by decide +kernel)),
    (((h hosted).2.2.2.2.1 0 8 [1, 2] p0).2.1 (by decide +kernel)).trans (by decide +kernel),
    runs (((h hosted).2.2.2.2.1 0 (2 ^ 30 - 2) [1, 2] p0).2.2 (by decide) (by decide +kernel) (by decide +kernel) (by decide +kernel) (by decide +kernel)),
    runs ((h State.reset).2.2.2.2.2.2.1 (by decide +kernel)),
    (((h ordered).2.2.1 0 0x1000 (posts _ _ (by decide +kernel) (by decide +kernel))).1 (by decide) (by decide)).1 (by decide +kernel) fun j hj hk =>
      (by decide +kernel : ∀ j < 64, 3 ≤ j → ordered.readByte (0x8000000001000 + j) = 0) j hk hj,
    runs ((((h hosted).2.2.1 0 0x1000 p0).1 (by decide) (by decide)).2 ⟨by decide +kernel, by decide +kernel⟩ (.inl (by decide +kernel)))⟩,
   ⟨runs (((boot id).1 i 0 (by decide +kernel)).1 (by decide +kernel)),
    runs (((boot fun b => { b with stage := 1 }).1 i 0 (by decide +kernel)).2.1 (by decide +kernel) (by decide +kernel)),
    runs (((boot fun b => { b with stage := 1 }).1 i 0 (by decide +kernel)).2.2.1 (by decide +kernel) (by decide +kernel)),
    runs (((boot fun b => { b with stage := 3, hv := true, t := some 0 }).1 i 0 (by decide +kernel)).2.2.2 (by decide +kernel) (by decide +kernel) (hosted.part 0)
      (by decide +kernel) (by decide +kernel))⟩,
   ⟨runs ((boot fun b => { b with t := some 0 }).2.1 1 9 0 (by decide) (by decide) (by decide +kernel) (by decide +kernel) (by decide +kernel)),
    runs ((boot fun b => { b with t := some 0 }).2.1 1 3 0 (by decide) (by decide) (by decide +kernel) (by decide +kernel) (by decide +kernel)),
    runs ((boot fun b => { b with t := some 0 }).2.2.1 0 (by decide +kernel) (by decide +kernel)),
    runs (((h (idleAll [])).2.2.2.2.2.2.2.2.2.2.1 255 (by decide) (by decide +kernel) (by decide +kernel) rfl (by decide +kernel) (by decide +kernel)).1
      (fun v hv => by cases hv)),
    runs (((h (idleAll [(0, { s0.vat 0 with queue := [vop none false 3] })])).2.2.2.2.2.2.2.2.2.2.1 0 (by decide) (by decide +kernel) (by decide +kernel) rfl
      (by decide +kernel) (by decide +kernel)).2 ⟨_, .head _, by decide +kernel⟩),
    runs ((h { s0 with rekeys := [⟨5, true, []⟩], blockCtr := [(256 * 5 + 3, 7)] }).2.2.2.2.2.2.2.2.2.2.2.2.1 5 ⟨5, true, []⟩ rfl rfl rfl rfl rfl (fun p hp b hb => absurd hb (by
        rw [(by decide +kernel : ∀ p ∈ s0.parts, p.2.busy = none) p hp]
        intro hn
        cases hn))
      ⟨by decide +kernel, by decide +kernel⟩)⟩⟩

/-! ### Witnesses: steps and words -/

/-- A word at the sheet's second word, and what it stands for. -/
def fetching : State := s0.place 0x30000A080C004400
def fadd0 : Instr := .fadd ⟨c0, 5, 4, 6, 0, .f32, .rz, false, 0⟩
theorem test_witness_StepRunsDecodedWord (h : Obligations.StepRunsDecodedWord) :
    (step fetching = match exec fadd0 fetching.ready with
      | .next t => .next (fetching.ready.wordTime t (issueCycles (en fetching).sh fadd0))
      | .fault f => .fault f
      | .refused r => .refused r) ∧
    step (sheet fun sh => { sh with idx := 0 }) = exec .clauseHeaderFetch (sheet fun sh => { sh with idx := 0 }).ready ∧
    step (sheet fun sh => { sh with idx := 16 }) = exec .loopBackEdge (sheet fun sh => { sh with idx := 16 }).ready ∧
    step { s0 with agenda := [⟨0, .temperatureHigh⟩] } = exec .temperatureHigh { (s0.elapse 0) with agenda := [], free := s0.free + 1 } :=
  ⟨by
     refine ((h fetching (en fetching)).1 (by decide +kernel) (live _ (by decide +kernel))).1 (loadEntry 1) fadd0 ?_ ?_ ?_ ?_ ?_ ?_ ?_ ?_ ?_
     all_goals decide +kernel,
   ((h (sheet fun sh => { sh with idx := 0 }) (en (sheet fun sh => { sh with idx := 0 }))).1 (by decide +kernel) (live _ (by decide +kernel))).2.1 (by decide +kernel),
   ((h (sheet fun sh => { sh with idx := 16 }) (en (sheet fun sh => { sh with idx := 16 }))).1 (by decide +kernel) (live _ (by decide +kernel))).2.2 (by decide +kernel),
   (h { s0 with agenda := [⟨0, .temperatureHigh⟩] } (en s0)).2 ⟨0, .temperatureHigh⟩ [] rfl⟩
theorem test_witness_DecodeAndEncodeAgree (h : Obligations.DecodeAndEncodeAgree) :
    decodeWord 0x30000A080C004400 = .ok fadd0 ∧ encode fadd0 = some 0x30000A080C004400 :=
  ⟨h.1 fadd0 _ (by decide +kernel) (by decide +kernel), h.2 _ fadd0 (by decide +kernel)⟩
theorem test_witness_StepKeepsMemoryCanonical (h : Obligations.StepKeepsMemoryCanonical) :
    ∃ t, step { s0 with agenda := [⟨0, .temperatureHigh⟩] } = .next t ∧ t.Inv :=
  ⟨_, rfl, h { s0 with agenda := [⟨0, .temperatureHigh⟩] } _ (show Memory.wf s0.mem = true by decide +kernel) rfl⟩

end Sys2Proof.Tests
end

section
/-! SUPPORT. Words that leave their sheet where it is, move it without a transfer, or go on past changed access records:
`Stalls`, `Moves` and `Goes` for the states that such words leave. -/

namespace Sys2Proof.Machine

open Sys2Proof.Claims

theorem Edit.setCur (s : State) (h : Nat) (c : Option SheetRef) : Edit s { s with cur := c } h id :=
  ⟨rfl, fun _ => rfl, (Tab.upd_id _ _).symm, fun _ => rfl⟩

/-- A sheet changed in place, with nothing of its lane block in issue. -/
theorem Edit.moves {s t : State} {e : Env} (L : Live s e) (f : Sheet → Sheet) (E : Edit (s.modSheet e.r f) t e.r.h id)
    (hn : t.next = s.next) (hs : t.stores = s.stores) (hc : t.cur = none) : Moves s t e f :=
  ⟨((Edit.modSheet s e.r f).trans E).changes L (e.q.modSheet e.r.k f) rfl rfl (modSheet_others _ _ _)
    (by simpa using Wrote.of_sheet (cyc := s.cycles e.q.core) L.sheet f [] (by simp)), hn, hs, hc⟩
/-- A word that changes its sheet and leaves the issue slot. -/
theorem moves_sheet {s : State} {e : Env} (L : Live s e) (f : Sheet → Sheet) : Moves s (s.modSheet e.r f).leave e f :=
  Edit.moves L f (Edit.leave _ _) (by simp [State.modSheet, State.modQuire]) (by simp [State.modSheet, State.modQuire]) (State.leave_cur _)
/-- A word that changes its sheet, which keeps its lane block. -/
theorem moves_sheet_kept {s : State} {e : Env} (L : Live s e) (f : Sheet → Sheet) :
    Moves s { s.modSheet e.r f with cur := none } e f := Edit.moves L f (Edit.setCur _ _ _) rfl rfl rfl
/-- A change of the sheet counts only at the sheet. -/
theorem Moves.congr {s t : State} {e : Env} {f g : Sheet → Sheet} (M : Moves s t e f) (h : f e.sh = g e.sh) : Moves s t e g := by
  obtain ⟨C, hn, hs, hc⟩ := M
  refine ⟨⟨C.module, C.cores, C.quires, ?_, C.memory⟩, hn, hs, hc⟩
  simpa only [h] using C.quire
/-- A word that waits at issue. -/
theorem stalls_wait {s : State} {e : Env} (L : Live s e) (w : Wait) :
    Stalls s ((Eff.wait s w).finish e) e w := moves_sheet L _

/-- What a word does beside the records of accesses. -/
theorem Goes.of_acts {s t : State} {e : Env} {x : List StoreRec} {ws : List (RegKey × Word)} {f : Sheet → Sheet} {n : Nat}
    (A : Acts { s with stores := x } t e ws f n) : Goes s t e ws f n := by
  obtain ⟨C, hn, -, hc⟩ := A
  exact ⟨⟨C.module, C.cores, C.quires, C.quire, C.memory⟩, hn, hc⟩

end Sys2Proof.Machine
end

section
/-! PROOFS. The words of 03_work_and_residency.md that change no more than their sheet's rows (O28): what `rgrow` and `rshrink`
leave of the allocation, and what the granted rows read. -/

namespace Sys2Proof.Machine

open Sys2Proof.Claims

/-! ### Rows -/

/-- A table read where a filter of its keys keeps nothing. -/
theorem Tab.find_filter_key {α : Type} (p : Nat → Bool) (t : Tab α) (n : Nat) (h : p n = false) :
    Tab.find (t.filter fun x => p x.1) n = none := by
  induction t with
  | nil => rfl
  | cons e t ih =>
    obtain ⟨k, v⟩ := e
    by_cases hk : p k = true
    · have ne : n ≠ k := by rintro rfl; simp [h] at hk
      simp only [List.filter_cons, hk, if_true, Tab.find, ne, if_false]
      exact ih
    · simpa [hk] using ih

theorem rowKey_lt (x rows : Nat) : x < 96 * rows ↔ x / 96 < rows := by
  rw [Nat.div_lt_iff_lt_mul (by omega), Nat.mul_comm]

/-- Granted rows keep what stood below them and nothing else (R38). -/
theorem Sheet.grow_eq (sh : Sheet) (n : Nat) :
    sh.grow n = { sh with alloc := sh.alloc + 8 * n, v := sh.v.filter fun x => x.1 / 96 < sh.alloc } := by
  simp only [Sheet.grow, rowKey_lt]
/-- Rows given up take their contents with them (R40). -/
theorem Sheet.shrink_eq (sh : Sheet) (n : Nat) :
    sh.shrink n = { sh with
      alloc := max 8 (sh.alloc - 8 * n), v := sh.v.filter fun x => x.1 / 96 < max 8 (sh.alloc - 8 * n) } := by
  simp only [Sheet.shrink, rowKey_lt]
/-- A register of a granted row reads 0 (R38). -/
theorem Sheet.grow_raw (sh : Sheet) (n cyc r l : Nat) (hr : sh.alloc ≤ r) : ((sh.grow n).advance cyc).raw (.v r l) = 0 := by
  have hk : decide (96 * r + l < 96 * sh.alloc) = false := by simp only [decide_eq_false_iff_not]; omega
  rw [(Steady.advance cyc).raw]
  simp only [Sheet.raw, Sheet.grow, Tab.get, Tab.find_filter_key (fun x => decide (x < 96 * sh.alloc)) sh.v _ hk]
  rfl

/-- The rows above a sheet's block are free (R38). -/
theorem State.growFree_iff (s : State) (core : Nat) (sh : Sheet) (n : Nat) (h : sh.base + sh.alloc + 8 * n ≤ 256) :
    s.growFree core sh n = true ↔ ∀ p ∈ s.spots core, p.lb = sh.lb →
      p.base + p.rows ≤ sh.base + sh.alloc ∨ sh.base + sh.alloc + 8 * n ≤ p.base := by
  unfold State.growFree rowsFree
  simp only [h, decide_true, Bool.true_and, List.all_eq_true, Bool.or_eq_true, bne_iff_ne, decide_eq_true_eq, or_assoc,
    imp_iff_not_or, ne_eq]

/-- The operand of `rgrow` and `rshrink` in groups of eight rows (R38, R40). -/
theorem rowGroups (m : BitVec 17) : (m.extractLsb' 3 6).toNat = m.toNat / 8 % 64 := by
  rw [BitVec.extractLsb'_toNat, Nat.shiftRight_eq_div_pow]

/-! ### Registers after a word -/

/-- A register of the word's sheet after the word. -/
theorem Acts.raw {s t : State} {e : Env} {ws : List (RegKey × Word)} {f : Sheet → Sheet} {n : Nat} (A : Acts s t e ws f n)
    {sh : Sheet} (hs : t.sheet? e.r = some sh) {key : RegKey} (hk : key.real) (hw : lastWrite ws key = none) :
    sh.raw key = ((f e.sh).advance (s.cycles e.q.core)).raw key := by
  obtain ⟨q, hq, -, -, -, sh', hf, -, hr⟩ := A.1.quire
  rw [State.sheet?, hq] at hs
  obtain rfl : sh' = sh := Option.some.inj (hf.symm.trans hs)
  rw [hr key hk, hw]

theorem lastWrite_uni (n r l : Nat) (w : Word) : lastWrite [(uniKey n, w)] (.v r l) = none := by
  have : uniKey n ≠ .v r l := by unfold uniKey; split <;> simp
  exact (lastWrite_append [] (uniKey n, w) _).trans (if_neg this)

/-! ### The words -/

theorem exec_nop {s : State} {e : Env} (L : Live s e) (w : FRC) : exec (.nop w) s = .next (s.advance e) := issue_plain L _
theorem exec_pref {s : State} {e : Env} (L : Live s e) (w : FM)
    (h : e.sh.vOk (vsOf w.com (if w.idx = 0xFF then [] else [(w.idx.toNat, 1)])) = true) :
    exec (.pref w) s = .next (s.advance e) := issue_regs L _ h
theorem exec_yield {s : State} {e : Env} (L : Live s e) (w : FRC) :
    exec (.yield w) s = .next ((s.modSheet e.r fun sh => sh.noteSpin (s.cycles e.q.core)).holdAt e .yield) := issue_plain L _

/-- `rgrow` of more rows than there are (R38). -/
theorem rgrow_fails {s : State} {e : Env} (L : Live s e) (w : FRC)
    (h : 256 < e.sh.base + e.sh.alloc + 8 * (w.mod.toNat / 8 % 64)) :
    exec (.rgrow w) s = .next ((s.writeRegs e.r [(uniKey w.d.toNat, 0)]).advance e) := by
  refine (issue_plain L _).trans ?_
  simp only [rowGroups, h, or_true, if_true]
  rfl
/-- `rgrow` of free rows (R38). -/
theorem rgrow_grants {s : State} {e : Env} (L : Live s e) (w : FRC)
    (h : e.sh.base + e.sh.alloc + 8 * (w.mod.toNat / 8 % 64) ≤ 256)
    (hf : s.growFree e.q.core e.sh (w.mod.toNat / 8 % 64) = true) :
    exec (.rgrow w) s = .next
      (((s.modSheet e.r fun sh => sh.grow (w.mod.toNat / 8 % 64)).writeRegs e.r [(uniKey w.d.toNat, 1)]).advance e) := by
  refine (issue_plain L _).trans ?_
  simp only [rowGroups, hf, if_true]
  rw [if_neg (by omega)]
  rfl
/-- `rgrow` of rows that others hold (R38). -/
theorem rgrow_waits {s : State} {e : Env} (L : Live s e) (w : FRC)
    (h : e.sh.base + e.sh.alloc + 8 * (w.mod.toNat / 8 % 64) ≤ 256)
    (hf : ¬s.growFree e.q.core e.sh (w.mod.toNat / 8 % 64) = true) :
    exec (.rgrow w) s = .next
      ((Eff.wait s (.rgrow (w.mod.toNat / 8 % 64) (uniKey w.d.toNat) (s.cycles e.q.core))).finish e) := by
  refine (issue_plain L _).trans ?_
  simp only [rowGroups, hf]
  rw [if_neg (by omega)]
  rfl
/-- `rshrink` in a context that is not suspended (R40). -/
theorem exec_rshrink {s : State} {e : Env} (L : Live s e) (w : FRC) (h : e.cx.suspended = false) :
    exec (.rshrink w) s = .next ((s.modSheet e.r fun sh => sh.shrink (w.mod.toNat / 8 % 64)).advance e) := by
  refine (issue_plain L _).trans ?_
  obtain ⟨-, -, -, -, -, hcx, -⟩ := L.spec
  simp only [rowGroups, ← hcx, h]
  rfl

/-- What `rgrow` answers (R38): failure, the rows, or a wait. -/
theorem rgrow_answers {s : State} {e : Env} (L : Live s e) (w : FRC) :
    let n := 8 * (w.mod.toNat / 8 % 64)
    let top := e.sh.base + e.sh.alloc
    Answers (exec (.rgrow w) s) fun t =>
      if 256 < top + n then Acts s t e [(uniKey w.d.toNat, 0)] id 0
      else if ∀ p ∈ s.spots e.q.core, p.lb = e.sh.lb → p.base + p.rows ≤ top ∨ top + n ≤ p.base then
        Acts s t e [(uniKey w.d.toNat, 1)] (fun sh =>
          { sh with alloc := sh.alloc + n, v := sh.v.filter fun x => x.1 / 96 < sh.alloc }) 0 ∧
          ∀ sh r l, t.sheet? e.r = some sh → e.sh.alloc ≤ r → l < 96 → sh.raw (.v r l) = 0
      else Stalls s t e (.rgrow (w.mod.toNat / 8 % 64) (uniKey w.d.toNat) (s.cycles e.q.core)) := by
  intro n top
  have real : ∀ v : Word, ∀ x ∈ [(uniKey w.d.toNat, v)], x.1.real := fun v x hx => by
    rw [List.mem_singleton.1 hx]; exact uniKey_real _
  by_cases hb : 256 < top + n
  · refine ⟨_, rgrow_fails L w hb, ?_⟩
    beta_reduce
    rw [if_pos hb]
    exact acts_regs L _ (real 0)
  · have free := s.growFree_iff e.q.core e.sh (w.mod.toNat / 8 % 64) (Nat.le_of_not_lt hb)
    by_cases hf : s.growFree e.q.core e.sh (w.mod.toNat / 8 % 64) = true
    · refine ⟨_, rgrow_grants L w (Nat.le_of_not_lt hb) hf, ?_⟩
      beta_reduce
      rw [if_neg hb, if_pos (free.1 hf)]
      have A := acts_sheet_regs L (fun sh => sh.grow (w.mod.toNat / 8 % 64)) [(uniKey w.d.toNat, 1)] (real 1)
      exact ⟨A.congr (e.sh.grow_eq _), fun sh r l hs hr hl =>
        (A.raw hs (key := .v r l) hl (lastWrite_uni _ _ _ _)).trans (e.sh.grow_raw _ _ _ _ hr)⟩
    · refine ⟨_, rgrow_waits L w (Nat.le_of_not_lt hb) hf, ?_⟩
      beta_reduce
      rw [if_neg hb, if_neg fun h => hf (free.2 h)]
      exact stalls_wait L _

/-- Settles O28: `nop` and `pref` only go on, `yield` waits, `rgrow` is `rgrow_answers`, and `rshrink` changes its sheet's rows. -/
theorem plainWords : Obligations.PlainWords := by
  intro s e L
  exact ⟨fun w => ⟨_, exec_nop L w, acts_none L⟩, fun w h => ⟨_, exec_pref L w h, acts_none L⟩,
    fun w => ⟨_, exec_yield L w, waits_sheet L _ _⟩, fun w => rgrow_answers L w,
    fun w h => ⟨_, exec_rshrink L w h, (acts_sheet L _).congr (e.sh.shrink_eq _)⟩⟩

end Sys2Proof.Machine
end

section
/-! PROOFS. The header of a clause (O25): which word a sheet checks, that a header which passes its checks finds no fault, and
what the sheet is then. -/

namespace Sys2Proof.Machine

open Sys2Proof.Claims

/-! ### The word and its checks -/

theorem Live.ready {s : State} {e : Env} (L : Live s e) : e.sh.wait = .none := by
  obtain ⟨-, -, -, -, hr, -⟩ := L.spec
  simp only [Sheet.ready, Bool.and_eq_true, beq_iff_eq] at hr
  exact hr.2

theorem isHeader_of_headerOk {w : DWord} {ldep : Nat} (h : headerOk w ldep = true) : isHeader w = true := by
  simp only [headerOk, Bool.and_eq_true] at h
  exact h.1.1.1.1.1.1

/-- A header that passes the checks of R54 and ends no level, or the innermost one, has no fault (R194, R200). -/
theorem headerFault_none {sh : Sheet} {a w : DWord} (h : headerOk w sh.ldep = true)
    (hle : (Header.unpack w).le = 0 ∨ (sh.fbase + sh.ldep ≤ 4 ∧ a = (sh.slotAt (sh.fbase + sh.ldep - 1)).fin)) :
    headerFault sh a w = none := by
  unfold headerFault
  rcases hle with h0 | ⟨hn, ha⟩
  · simp [h, isHeader_of_headerOk h, h0]
  · have : ¬4 < sh.fbase + sh.ldep := Nat.not_lt.2 hn
    simp [h, isHeader_of_headerOk h, Sheet.overNest, this, ha]

/-- The header that a sheet checks now is the one its step looks at. -/
theorem HeaderNow.word {s : State} {e : Env} {w : DWord} (H : HeaderNow s e w) :
    s.headerWord e = .word w ∧ e.sh.prefetching (s.cycles e.q.core) = false := by
  obtain ⟨he | ⟨he, hs, hf⟩, -⟩ := H
  · simp [State.headerWord, Sheet.prefetching, he]
  · simp [State.headerWord, Sheet.prefetching, he, hf, hs]

/-! ### The step -/

/-- The entry header of a task sheet that is not yet due is kept for the next cycle (R49). -/
theorem clauseHeaderFetch_early {s : State} {e : Env} {w : DWord} (L : Live s e) (hi : e.sh.idx = 0)
    (hw : s.headerWord e = .word w) (hp : e.sh.prefetching (s.cycles e.q.core) = true) :
    exec .clauseHeaderFetch s = .next (s.modSheet e.r fun sh => { sh with early := some w }).leave := by
  show execClauseHeaderFetch s = _
  unfold execClauseHeaderFetch
  rw [show s.env? = some e from L]
  simp only [hi, hw, hp]
  rfl

/-- A header without a fault: its sheet waits for its flags, for its cycle, or starts (R49, R57). -/
theorem clauseHeaderFetch_checked {s : State} {e : Env} {w : DWord} (L : Live s e) (hi : e.sh.idx = 0) (H : HeaderNow s e w)
    (hf : headerFault e.sh e.sh.pc w = none) :
    let sh' := e.sh.pastHeader w (e.q.shown e.r.k (s.cycles e.q.core)) (s.cycles e.q.core)
    exec .clauseHeaderFetch s = .next
      (if !sh'.waitClear then (s.modSheet e.r fun _ => { sh' with wait := .flags }).leave
      else if s.cycles e.q.core < e.sh.startAt then (s.modSheet e.r fun _ => sh').leave
      else { s.modSheet e.r fun _ => sh' with cur := none }) := by
  intro sh'
  show execClauseHeaderFetch s = _
  unfold execClauseHeaderFetch
  rw [show s.env? = some e from L]
  obtain ⟨hw, hp⟩ := HeaderNow.word H
  simp only [hi, hw, hp, H.2, hf, ne_eq, not_true_eq_false, if_false, Bool.false_eq_true]
  split
  · rfl
  · split <;> rfl

/-- What the sheet is past a header (R46, R53, R57). -/
def Sheet.started (sh : Sheet) (w : DWord) (qv : Tab Word) (cyc : Nat) : Sheet :=
  { sh.pastHeader w qv cyc with wait := if (sh.pastHeader w qv cyc).waitClear then .none else .flags }

/-- A header without a fault leaves its sheet past it. -/
theorem clauseHeaderFetch_moves {s : State} {e : Env} {w : DWord} (L : Live s e) (hi : e.sh.idx = 0) (H : HeaderNow s e w)
    (hf : headerFault e.sh e.sh.pc w = none) :
    Answers (exec .clauseHeaderFetch s) fun t =>
      Moves s t e (·.started w (e.q.shown e.r.k (s.cycles e.q.core)) (s.cycles e.q.core)) := by
  refine ⟨_, clauseHeaderFetch_checked L hi H hf, ?_⟩
  generalize e.q.shown e.r.k (s.cycles e.q.core) = qv
  have ready : (e.sh.pastHeader w qv (s.cycles e.q.core)).wait = .none := L.ready
  by_cases hc : (e.sh.pastHeader w qv (s.cycles e.q.core)).waitClear = true
  · have same : e.sh.pastHeader w qv (s.cycles e.q.core) = e.sh.started w qv (s.cycles e.q.core) := by
      simp only [Sheet.started, hc, if_true, ← ready]
    simp only [hc, Bool.not_true, Bool.false_eq_true, if_false]
    split
    · exact Moves.congr (moves_sheet L _) same
    · exact Moves.congr (moves_sheet_kept L _) same
  · have waits : { e.sh.pastHeader w qv (s.cycles e.q.core) with wait := Wait.flags } =
        e.sh.started w qv (s.cycles e.q.core) := by
      simp only [Sheet.started, hc, if_false, Bool.false_eq_true]
    simp only [hc, Bool.not_false, if_true]
    exact Moves.congr (moves_sheet L _) waits

/-- Settles O25: `clauseHeaderFetch_early` for the header fetched ahead, and `clauseHeaderFetch_moves` for one that passes its
checks. -/
theorem clauseStarts : Obligations.ClauseStarts := by
  intro s e w L hi cyc here
  refine ⟨fun he hs hw => ?_, fun H hok hle => ?_⟩
  · have hp : e.sh.prefetching (s.cycles e.q.core) = true := by simp [Sheet.prefetching, he]; exact hs
    exact ⟨_, clauseHeaderFetch_early L hi (by simp only [State.headerWord, he, hw]) hp, moves_sheet L _⟩
  · intro clear
    obtain ⟨t, ht, M⟩ := clauseHeaderFetch_moves L hi H (headerFault_none hok hle)
    refine ⟨t, ht, Moves.congr M ?_⟩
    simp only [Sheet.started, Sheet.pastHeader, Sheet.waitClear, here, clear, cyc, Nat.not_le.symm, ite_not]
    simp [beq_eq_decide]

end Sys2Proof.Machine
end

section
/-! PROOFS. Loads (O35): the checks of R162 that plain pages and the chamber pass, the values that stand at the addresses, and the
outstanding word. -/

namespace Sys2Proof.Machine

open Sys2Proof.Claims

/-! ### Values -/

/-- The destinations of a load, outstanding with the bytes at an address, zero-extended (R161). -/
theorem loadOuts (e : Env) (l : Option Nat) (t : BitVec 8) (z : Size) (mem : Nat → Byte) (a : Nat) :
    outsOf ((e.dataKeys l t.toNat z.regs).zip (wordsOf ((List.range z.bytes).map fun i => mem (a + i)) z.regs)) =
      (dataRegs e t l (loaded mem a z.bytes)).map fun o => ⟨o.1, o.2, false⟩ := by
  cases z <;> rfl

/-! ### What orders and re-keys leave (R152, R154, R359) -/

/-- Changes of the access records, one after another, change these alone. -/
theorem foldl_stores {α : Type} {g : State → α → State} (hg : ∀ s a, g s a = { s with stores := (g s a).stores })
    (as : List α) (s : State) : ∃ x, as.foldl g s = { s with stores := x } := by
  induction as generalizing s with
  | nil => exact ⟨s.stores, rfl⟩
  | cons a as ih =>
    obtain ⟨x, hx⟩ := ih (g s a)
    exact ⟨x, by rw [List.foldl_cons, hx, hg s a]⟩

theorem State.acqAt_eq (s : State) (e : Env) (acq rel write : Bool) (scope : Scope) (l : Option Nat) (loc len : Nat) :
    s.acqAt e acq rel write scope l loc len = { s with stores := (s.acqAt e acq rel write scope l loc len).stores } := by
  cases acq <;> rfl

/-- Reads meet no re-key when none is wanted (R359). -/
theorem State.keyGate_reads (s : State) (who : Who) (reads : List Nat) (h : s.rekeys = []) :
    s.keyGate who reads [] = (s, true) := by
  have hs : { s with rekeys := [] } = s := by rw [← h]
  unfold State.keyGate State.worn
  simp only [h, List.find?_nil, List.filter_nil, List.findSome?_nil, List.map_nil, hs]

theorem State.aliased_of_unqueued {s : State} {e : Env} {l : Option Nat} {pa n : Nat} (h : Unqueued s e l pa n) :
    s.aliased e.r (laneNo l) pa n = false := by
  simp only [State.aliased, List.any_eq_false, Bool.and_eq_true, Bool.or_eq_true, beq_iff_eq, overlaps, decide_eq_true_eq, not_and,
    and_imp]
  intro x hx hop hk hlo hhi
  rcases h x hx hop hk with h | h <;> omega

/-! ### The checks of R162 -/

/-- The checked access of an issuer at an address. -/
def plainHit (s : State) (e : Env) (addr : Option Nat → DWord) (pa : Option Nat → Nat) (l : Option Nat) : Hit :=
  { lane := l, va := addr l, pa := pa l, leaf := (s.tlb e.q.core e.q.ctx (addr l)).elim 0 (·.leaf) }

section
variable {s : State} {e : Env} {need : DWord → Bool} {n : Nat} {addr : Option Nat → DWord} {pa : Option Nat → Nat}

theorem Plain.leaf {l : Option Nat} (h : Plain s e need n (addr l) (pa l)) :
    need (plainHit s e addr pa l).leaf = true ∧ leafALG (plainHit s e addr pa l).leaf = false := by
  obtain ⟨-, -, -, -, -, x, hx, -, hn, ha⟩ := h
  simp only [plainHit, hx]
  exact ⟨hn, ha⟩
theorem Plain.tlb {l : Option Nat} (h : Plain s e need n (addr l) (pa l)) :
    (s.tlb e.q.core e.q.ctx (addr l)).map (fun t => ({ lane := l, va := addr l, pa := t.pa (addr l), leaf := t.leaf } : Hit)) =
      some (plainHit s e addr pa l) := by
  obtain ⟨-, -, -, -, -, x, hx, hp, -⟩ := h
  simp only [plainHit, hx, Option.map_some, Option.elim_some, hp]
theorem Plain.mayReach {l : Option Nat} (h : Plain s e need n (addr l) (pa l)) (bell : Bool) :
    s.mayReach e.cx.part (pa l) n bell = true := by
  obtain ⟨-, -, -, hr, hp, -⟩ := h
  unfold State.mayReach
  rw [hp]
  rcases hr with hr | hr <;> rw [hr] <;> rfl

/-- Accesses of plain pages pass the checks. -/
theorem gcheck_plain {ls : List (Option Nat)} (h : ∀ l ∈ ls, Plain s e need n (addr l) (pa l)) (bell : Bool) (k : List Hit → Eff) :
    gcheck e s (ls.map fun l => (l, addr l)) n n need bell k = k (ls.map (plainHit s e addr pa)) := by
  have canon : (ls.map fun l => (l, addr l)).find? (fun a => !canonical a.2) = none := by
    simp only [List.find?_eq_none, List.forall_mem_map, Bool.not_eq_true', Bool.not_eq_false]
    exact fun l hl => (h l hl).1
  have aligned : (ls.map fun l => (l, addr l)).find? (fun a => a.2.toNat % n != 0) = none := by
    simp only [List.find?_eq_none, List.forall_mem_map, bne_iff_ne, not_not]
    exact fun l hl => (h l hl).2.1
  have mapped : (ls.map fun l => (l, addr l)).find? (fun a => (s.tlb e.q.core e.q.ctx a.2).isNone) = none := by
    simp only [List.find?_eq_none, List.forall_mem_map]
    intro l hl
    obtain ⟨-, -, -, -, -, x, hx, -⟩ := h l hl
    simp [hx]
  have hits : (ls.map fun l => (l, addr l)).filterMap (fun a => (s.tlb e.q.core e.q.ctx a.2).map fun t =>
      ({ lane := a.1, va := a.2, pa := t.pa a.2, leaf := t.leaf } : Hit)) = ls.map (plainHit s e addr pa) := by
    rw [List.filterMap_map, ← List.filterMap_eq_map]
    exact List.filterMap_congr fun l hl => Plain.tlb (h l hl)
  have allowed : (ls.map (plainHit s e addr pa)).find? (fun h => !(need h.leaf && s.mayReach e.cx.part h.pa n bell)) = none := by
    simp only [List.find?_eq_none, List.forall_mem_map]
    intro l hl
    have reach : s.mayReach e.cx.part (plainHit s e addr pa l).pa n bell = true := Plain.mayReach (h l hl) bell
    simp [(Plain.leaf (h l hl)).1, reach]
  unfold gcheck
  simp only [canon, aligned, mapped, hits, allowed]

end

/-- Accesses within the allocation that no scoreboard entry holds pass the checks (R41, R146). -/
theorem ccheck_passes {s : State} {e : Env} {n : Nat} {off : Option Nat → Int} {ls : List (Option Nat)}
    (h : ∀ l ∈ ls, InChamber s e n (off l)) (k : List (Option Nat × Nat) → Eff) :
    ccheck e s (ls.map fun l => (l, off l)) n k = k (ls.map fun l => (l, (off l).toNat)) := by
  have inside : (ls.map fun l => (l, off l)).find? (fun a => !e.q.inCham a.2 n) = none := by
    simp only [List.find?_eq_none, List.forall_mem_map, Quire.inCham]
    intro l hl
    obtain ⟨h0, h1, -, -⟩ := h l hl
    simp only [Bool.not_eq_true', Bool.and_eq_false_iff, decide_eq_false_iff_not, not_or, not_not]
    exact ⟨h0, by push_cast; exact h1⟩
  have aligned : (ls.map fun l => (l, off l)).find? (fun a => a.2.toNat % n != 0) = none := by
    simp only [List.find?_eq_none, List.forall_mem_map, bne_iff_ne, not_not]
    intro l hl
    obtain ⟨h0, -, hm, -⟩ := h l hl
    have : ((off l).toNat : Int) % n = 0 := by rw [Int.toNat_of_nonneg h0]; exact hm
    exact_mod_cast this
  have free : (ls.map fun l => (l, off l)).any (fun a => s.boardHit e.q.core e.r.h a.2.toNat n) = false := by
    simp only [List.any_eq_false, List.forall_mem_map, State.boardHit, Bool.not_eq_true, Bool.and_eq_true, beq_iff_eq,
      decide_eq_true_eq, not_and]
    rintro l hl b hb ⟨hq, hlo⟩
    obtain ⟨-, -, -, clear⟩ := h l hl
    rcases clear b hb with hne | hc
    · exact absurd hq hne
    · omega
  unfold ccheck
  simp only [inside, aligned, free, List.map_map, Function.comp_def, Bool.false_eq_true, if_false]

/-! ### The outstanding word -/

/-- A word whose flag has risen, past changed access records. -/
theorem goes_llOpen {s : State} {e : Env} (L : Live s e) (x : List StoreRec) (f : Sheet → Sheet) (l : LL)
    (hf : f e.sh = e.sh.llOpen l) :
    Goes s ((({ s with stores := x, next := s.next + 1 } : State).modSheet e.r f).advance e) e [] (·.llOpen l) 1 := by
  have L' : Live { s with stores := x } e := L
  exact Goes.of_acts ((acts_next L' f 1).congr hf)

/-- What a global load of plain pages leaves outstanding (R58, R161). -/
def plainLoad (s : State) (e : Env) (w : FM) (pa : Option Nat → Nat) : LL :=
  { held s e w.com.fs ((e.lanes w.com).flatMap fun l => dataRegs e w.t l (loaded s.readByte (pa l) w.size.bytes)) false with
    reads := (e.lanes w.com).map fun l => (pa l, w.size.bytes) }

/-- The state that a global load of plain pages leaves, at its word. -/
def afterLoad (s : State) (e : Env) (w : FM) (addr : Option Nat → DWord) (pa : Option Nat → Nat) : State :=
  ((e.lanes w.com).map (plainHit s e addr pa)).foldl
    (fun s h => s.acqAt e (ordAcq w.ord) false false w.scope h.lane (s.locOf h.pa) w.size.bytes)
    (({ s with next := s.next + 1 } : State).modSheet e.r fun sh => { sh.llOpen (plainLoad s e w pa) with held := [] })

section
variable {s : State} {e : Env} {w : FM} {addr : Option Nat → DWord} {pa : Option Nat → Nat}

/-- The destinations of a global load of plain pages, where no sector is held (R161, R171). -/
theorem plainLoad_outs (hh : e.sh.held = [])
    (hp : ∀ l ∈ e.lanes w.com, Plain s e leafR w.size.bytes (addr l) (pa l)) :
    (((e.lanes w.com).map (plainHit s e addr pa)).map fun h =>
      if leafALG h.leaf = true then (e.dataKeys h.lane w.t.toNat w.size.regs).map fun k => { key := k, val := none, raced := false }
      else outsOf ((e.dataKeys h.lane w.t.toNat w.size.regs).zip
        (wordsOf (e.loadBytes s.fresh.2 h.pa w.size.bytes) w.size.regs))).flatten = (plainLoad s e w pa).outs := by
  simp only [plainLoad, held, List.map_flatMap, List.map_map]
  rw [List.flatMap_def]
  congr 1
  refine List.map_congr_left fun l hl => ?_
  have bytes : e.loadBytes s.fresh.2 (pa l) w.size.bytes = (List.range w.size.bytes).map fun i => s.readByte (pa l + i) := by
    unfold Env.loadBytes
    rw [hh]
    rfl
  simp only [Function.comp_apply, (Plain.leaf (hp l hl)).2, Bool.false_eq_true, if_false]
  rw [← loadOuts, ← bytes]
  rfl

/-- A global load of plain pages with nothing in its way goes on (R161). -/
theorem gload_plain (ho : s.ordHeld e w.ord w.scope = false) (hk : s.rekeys = []) (hh : e.sh.held = [])
    (hp : ∀ l ∈ e.lanes w.com, Plain s e leafR w.size.bytes (addr l) (pa l))
    (hu : ∀ l ∈ e.lanes w.com, s.ue (pa l) w.size.bytes = false)
    (hq : ∀ l ∈ e.lanes w.com, Unqueued s e l (pa l) w.size.bytes) :
    gload e s w.com w.t.toNat w.size w.ord w.scope ((e.lanes w.com).map fun l => (l, addr l)) =
      .done (afterLoad s e w addr pa) := by
  have plain : ((e.lanes w.com).map (plainHit s e addr pa)).filter (fun h => !leafALG h.leaf) =
      (e.lanes w.com).map (plainHit s e addr pa) := by
    rw [List.filter_eq_self, List.forall_mem_map]
    exact fun l hl => by rw [(Plain.leaf (hp l hl)).2]; rfl
  have algebra : ((e.lanes w.com).map (plainHit s e addr pa)).filter (fun h => leafALG h.leaf) = [] := by
    rw [List.filter_eq_nil_iff, List.forall_mem_map]
    exact fun l hl => Bool.eq_false_iff.1 (Plain.leaf (hp l hl)).2
  have unqueued : ((e.lanes w.com).map (plainHit s e addr pa)).any (fun h => s.aliased e.r (laneNo h.lane) h.pa w.size.bytes) =
      false := by
    rw [List.any_eq_false, List.forall_mem_map]
    exact fun l hl => Bool.eq_false_iff.1 (State.aliased_of_unqueued (hq l hl))
  have sound : ((e.lanes w.com).map (plainHit s e addr pa)).find? (fun h => s.fresh.2.ue h.pa w.size.bytes) = none := by
    rw [List.find?_eq_none, List.forall_mem_map]
    exact fun l hl => Bool.eq_false_iff.1 (hu l hl)
  have reads : ((e.lanes w.com).map (plainHit s e addr pa)).map (fun h => (h.pa, w.size.bytes)) = (plainLoad s e w pa).reads :=
    List.map_map
  unfold gload
  rw [ho, gcheck_plain hp]
  simp only [plain, algebra, unqueued, State.keyGate_reads s _ _ hk, Bool.false_eq_true, if_false, Bool.not_true, sound,
    plainLoad_outs hh hp, List.flatMap_nil, List.foldl_nil, List.length_nil, reads, Option.map_none]
  rfl

/-- What the sheet is past a global load of plain pages. -/
theorem afterLoad_goes (L : Live s e) (hh : e.sh.held = []) :
    Goes s ((afterLoad s e w addr pa).advance e) e [] (·.llOpen (plainLoad s e w pa)) 1 := by
  obtain ⟨x, hx⟩ := foldl_stores (g := fun (s : State) (h : Hit) =>
      s.acqAt e (ordAcq w.ord) false false w.scope h.lane (s.locOf h.pa) w.size.bytes) (fun s h => s.acqAt_eq e _ _ _ _ _ _ _)
    ((e.lanes w.com).map (plainHit s e addr pa))
    (({ s with next := s.next + 1 } : State).modSheet e.r fun sh => { sh.llOpen (plainLoad s e w pa) with held := [] })
  unfold afterLoad
  rw [hx]
  exact goes_llOpen L x _ _ (by rw [← hh]; rfl)

/-- A chamber load past its checks (R41, R161). -/
theorem cload_goes (L : Live s e) (off : Option Nat → Int) :
    Goes s ((cload e s w.com w.t.toNat w.size w.ord w.scope ((e.lanes w.com).map fun l => (l, (off l).toNat))).finish e) e []
      (·.llOpen (held s e w.com.fs
        ((e.lanes w.com).flatMap fun l => dataRegs e w.t l (loaded (chamber e.q) (off l).toNat w.size.bytes)) false)) 1 := by
  obtain ⟨x, hx⟩ := foldl_stores (g := fun (s : State) (a : Option Nat × Nat) =>
      s.acqAt e (ordAcq w.ord) false false w.scope a.1 (chamLoc e.r.h a.2) w.size.bytes) (fun s h => s.acqAt_eq e _ _ _ _ _ _ _)
    ((e.lanes w.com).map fun l => (l, (off l).toNat)) s
  unfold cload
  rw [hx]
  refine goes_llOpen L x _ _ ?_
  have outs : (outsOf (((e.lanes w.com).map fun l => (l, (off l).toNat)).flatMap fun a => (e.dataKeys a.1 w.t.toNat w.size.regs).zip
      (wordsOf ((List.range w.size.bytes).map fun i => chamber e.q (a.2 + i)) w.size.regs))) =
      (held s e w.com.fs
        ((e.lanes w.com).flatMap fun l => dataRegs e w.t l (loaded (chamber e.q) (off l).toNat w.size.bytes)) false).outs := by
    simp only [held, outsOf, List.flatMap_map, List.map_flatMap]
    exact List.flatMap_congr fun l _ => loadOuts e l w.t w.size (chamber e.q) _
  exact congrArg (fun o => e.sh.llOpen { id := s.next, flag := e.sh.flagOf w.com.fs, left := 0, outs := o, noise := false }) outs

end

/-- No bank record of a chamber word is written where none is wanted (R336). -/
theorem bankTrace_unbanked {s : State} {e : Env} (h : Unbanked e) (accs : List (Option Nat × Nat)) (n : Nat) :
    bankTrace e s accs n = s := by
  have : e.cx.dbg (·.banktr) = none := by
    unfold Ctx.dbg
    cases hd : e.cx.debug with
    | none => rfl
    | some d => simp [Option.filter, h d hd]
  unfold bankTrace
  rw [this]

/-! ### The words -/

/-- A global load at plain addresses (R161). -/
theorem load_goes {w : FM} {s : State} {e : Env} {vs : List (Nat × Nat)} {addr : Option Nat → DWord} {pa : Option Nat → Nat}
    (L : Live s e) (hf : e.flagRoom w.com.fs) (ho : s.ordHeld e w.ord w.scope = false) (hv : e.sh.vOk vs = true)
    (hk : s.rekeys = []) (hh : e.sh.held = [])
    (h : ∀ l ∈ e.lanes w.com, Plain s e leafR w.size.bytes (addr l) (pa l) ∧ s.ue (pa l) w.size.bytes = false ∧
      Unqueued s e l (pa l) w.size.bytes) (body : Env → Eff)
    (hb : body e = gload e s w.com w.t.toNat w.size w.ord w.scope ((e.lanes w.com).map fun l => (l, addr l))) :
    Answers (issue { ll := some w.com.fs, vs } s body) fun t => Goes s t e [] (·.llOpen (plainLoad s e w pa)) 1 := by
  refine ⟨_, issue_ll L body hv hf, ?_⟩
  rw [hb, gload_plain ho hk hh (fun l hl => (h l hl).1) (fun l hl => (h l hl).2.1) fun l hl => (h l hl).2.2]
  exact afterLoad_goes L hh

/-- A chamber load within the allocation that nothing holds (R41, R161). -/
theorem chamberLoad_goes {w : FM} {s : State} {e : Env} (L : Live s e) (hf : e.flagRoom w.com.fs)
    (ho : s.ordHeld e w.ord w.scope = false) (hv : e.sh.vOk (mvs w.com w.t w.idx w.size.regs 1) = true) (hb : Unbanked e)
    {off : Option Nat → Int} (hoff : off = fun l => e.caddr l w.base w.idx w.scale w.off.toInt w.size.bytes)
    (h : ∀ l ∈ e.lanes w.com, InChamber s e w.size.bytes (off l)) :
    Answers (exec (.ldC w) s) fun t => Goes s t e [] (·.llOpen (held s e w.com.fs
      ((e.lanes w.com).flatMap fun l => dataRegs e w.t l (loaded (chamber e.q) (off l).toNat w.size.bytes)) false)) 1 := by
  refine ⟨_, issue_ll L _ hv hf, ?_⟩
  have accs : e.caccs w.com w.base w.idx w.scale w.off.toInt w.size.bytes = (e.lanes w.com).map fun l => (l, off l) := by
    rw [hoff]; rfl
  beta_reduce
  rw [ho, accs, ccheck_passes h, bankTrace_unbanked hb]
  exact cload_goes L off

/-- Settles O35: `load_goes` for global loads by either form of address, `chamberLoad_goes` for the chamber's. -/
theorem loadWords : Obligations.LoadWords := by
  intro w s e L hf ho n
  refine ⟨fun i ni addr pa hi hv hk hh h => ?_, fun off hoff hv hb h => chamberLoad_goes L hf ho hv hb hoff h⟩
  rcases hi with ⟨rfl, rfl, rfl⟩ | ⟨rfl, rfl, rfl⟩
  · exact load_goes L hf ho hv hk hh h _ rfl
  · exact load_goes L hf ho hv hk hh h _ rfl

end Sys2Proof.Machine
end

section
/-! PROOFS. Three statements that do not hold (O26, O47, O48), each with the state that shows it. -/

namespace Sys2Proof.Machine

open Sys2Proof.Claims

/-! ### A `pwait` whose quire has left its core -/

/-- A quire that spun in `pwait` and was swapped out (R294), and the deadline of its sheet passes. -/
def swappedWaiter : State :=
  { State.reset with quires := [(0, { loadQuire 1 with
      phase := .swapped .spin 0 0 none, sheets := [(0, { loadSheet with wait := .pwait 0 4 (some 0) })] })] }

/-- The deadline makes the quire eligible to resume; its sheet keeps its wait (R294, R298). -/
theorem swappedWaiter_deadline :
    ∃ t, exec (.pwaitDeadline 0 0) swappedWaiter = .next t ∧
      (t.sheet? ⟨0, 0⟩).map (·.wait) = some (.pwait 0 4 (some 0)) ∧
      (t.quires.find 0).map (·.phase) = some (.swapped .spin 0 0 (some 0)) := ⟨_, rfl, rfl, rfl⟩

/-- Refutes O47: the clause of the `pwait` deadline has no premise that the quire is on its core, and in `swappedWaiter`, where
it is swapped out, the sheet waits after the step as before. -/
theorem not_sheetAndTaskEvents : ¬ Obligations.SheetAndTaskEvents := by
  intro h
  obtain ⟨-, -, -, -, -, pwaitDeadline, -⟩ := h swappedWaiter
  obtain ⟨t, ht, sh, hs, hw, -⟩ := pwaitDeadline 0 0 0 4 0 { loadSheet with wait := .pwait 0 4 (some 0) } rfl rfl (by decide) (by decide)
  obtain ⟨u, hu, kept, -⟩ := swappedWaiter_deadline
  obtain rfl : u = t := Host.Outcome.next.inj (hu.symm.trans ht)
  rw [hs, Option.map_some, hw] at kept
  cases kept

/-! ### A handle that the table of quires lists twice -/

/-- A second entry of a handle: a quire that waits at core 0, with a byte in its chamber. -/
def hiddenQuire : Quire := { loadQuire 1 with phase := .waiting 0, chamg := 1, cham := [(0, 1)] }
/-- The one sheet of a quire is in issue, and the quire's handle has a second entry. -/
def exitingTwice : State :=
  { State.reset.loaded with quires := State.reset.loaded.quires ++ [(0, hiddenQuire)] }

/-- A phase set by handle reaches both entries: the second one then holds its chamber, whose window shows its byte. -/
theorem exitingTwice_exit (w : FRC) :
    ∃ t, exec (.exit w) exitingTwice = .next t ∧ t.readByte winBase = 1 ∧ exitingTwice.readByte winBase = 0 :=
  ⟨_, rfl, by decide +kernel, by decide +kernel⟩

/-- The sheet in issue in `exitingTwice`. -/
def exitingEnv : Env := ⟨⟨0, 0⟩, loadQuire 1, loadSheet, State.reset.loaded.ctx 1, 0⟩

/-- Refutes O26: no premise says that the table of quires lists a handle once, and in `exitingTwice` the `exit` of a quire changes
what the chamber's window reads. -/
theorem not_taskWords : ¬ Obligations.TaskWords := by
  intro h
  obtain ⟨-, -, -, -, exit, -⟩ := h exitingTwice exitingEnv rfl
  have calm : NoSuspend exitingTwice 1 := by
    unfold NoSuspend
    decide +kernel
  obtain ⟨t, ht, -, ⟨-, -, bytes⟩, -⟩ := exit ⟨⟨false, 0, false, false⟩, 0, 0, 0, 0, 0⟩ rfl rfl rfl rfl (by decide +kernel) calm
  obtain ⟨u, hu, after, before⟩ := exitingTwice_exit ⟨⟨false, 0, false, false⟩, 0, 0, 0, 0, 0⟩
  obtain rfl : u = t := Host.Outcome.next.inj (hu.symm.trans ht)
  have := bytes winBase
  rw [after, before] at this
  exact absurd this (by decide)

/-- A quire stopped under R335, and its handle has a second entry. -/
def stoppedTwice : State :=
  { State.reset with quires := [(0, { loadQuire 1 with phase := .stopped true }), (0, hiddenQuire)] }

/-- A phase set by handle reaches both entries, as in `exitingTwice`. -/
theorem stoppedTwice_resume :
    ∃ t, exec (.quireStopResume 0) stoppedTwice = .next t ∧ t.readByte winBase = 1 ∧ stoppedTwice.readByte winBase = 0 :=
  ⟨_, rfl, by decide +kernel, by decide +kernel⟩

/-- Refutes O48: no premise says that the table of quires lists a handle once, and in `stoppedTwice` the resumption of a stopped
quire changes what the chamber's window reads. -/
theorem not_quireEvents : ¬ Obligations.QuireEvents := by
  intro h
  obtain ⟨-, -, -, -, -, -, -, -, -, resume⟩ := h stoppedTwice
  obtain ⟨t, ht, -, ⟨-, -, bytes⟩, -⟩ := (resume 0 _ rfl rfl).1 rfl
  obtain ⟨u, hu, after, before⟩ := stoppedTwice_resume
  obtain rfl : u = t := Host.Outcome.next.inj (hu.symm.trans ht)
  have := bytes winBase
  rw [after, before] at this
  exact absurd this (by decide)

end Sys2Proof.Machine
end

section
/-! SUPPORT. The bits of a word: for each format, that a word unpacks to fields says that its bits are those the fields pack to
(05_encodings.md R62-R77). -/

namespace Sys2Proof

/-! ### Bits -/

theorem append_eq_append_iff {v w : Nat} {x x' : BitVec v} {y y' : BitVec w} : x ++ y = x' ++ y' ↔ x = x' ∧ y = y' := by
  refine ⟨fun h => ?_, fun ⟨hx, hy⟩ => by rw [hx, hy]⟩
  have hi := congrArg (BitVec.extractLsb' w v) h
  have lo := congrArg (BitVec.extractLsb' 0 w) h
  simp only [BitVec.extractLsb'_append_eq_of_le (Nat.le_refl w), Nat.sub_self, BitVec.extractLsb'_eq_self] at hi
  simp only [BitVec.extractLsb'_append_eq_of_add_le (Nat.le_of_eq (Nat.zero_add w)), BitVec.extractLsb'_eq_self] at lo
  exact ⟨hi, lo⟩

theorem extractLsb'_eq_ofBool {k : Nat} {x : BitVec k} {t : Nat} {b : Bool} :
    x.extractLsb' t 1 = BitVec.ofBool b ↔ x.getLsbD t = b := by
  constructor
  · intro h
    simpa using congrArg (·.getLsbD 0) h
  · rintro rfl
    ext j hj
    obtain rfl : j = 0 := by omega
    simp

/-! ### Codes (R66, R67, R77) -/

theorem Ty.ofCode_eq_iff {b : BitVec 5} {t : Ty} : Ty.ofCode b.toNat = some t ↔ b = BitVec.ofNat 5 (Wf.tyCode t) := by
  revert b; cases t <;> decide
theorem RM.ofBits_eq_iff {b : BitVec 2} {r : RM} : RM.ofBits b = r ↔ b = BitVec.ofNat 2 r.code := by
  revert b; cases r <;> decide
theorem Scope.ofCode_eq_iff {b : BitVec 4} {x : Scope} : Scope.ofCode b.toNat = some x ↔ b = BitVec.ofNat 4 x.code := by
  revert b; cases x <;> decide
theorem Ord.ofCode_eq_iff {b : BitVec 3} {x : Ord} : Ord.ofCode b.toNat = some x ↔ b = BitVec.ofNat 3 x.code := by
  revert b; cases x <;> decide
theorem Size.ofCode_eq_iff {b : BitVec 3} {x : Size} : Size.ofCode b.toNat = some x ↔ b = BitVec.ofNat 3 x.code := by
  revert b; cases x <;> decide

/-! ### Formats (R62-R73) -/

theorem Com.unpack_eq_iff {w : DWord} {c : Com} : Com.unpack w = c ↔ w.extractLsb' 49 7 = c.pack := by
  have raw : w.extractLsb' 49 7 = w.extractLsb' 55 1 ++ w.extractLsb' 51 4 ++ w.extractLsb' 50 1 ++ w.extractLsb' 49 1 := by
    iterate 3 rw [BitVec.extractLsb'_append_extractLsb'_eq_extractLsb' (by rfl)]
  rw [raw, Com.pack]
  iterate 3 rw [append_eq_append_iff]
  cases c
  simp only [extractLsb'_eq_ofBool, Com.unpack, Com.mk.injEq, and_assoc]

theorem unpackRC_eq_iff {w : DWord} {f : FRC} : unpackRC w = f ↔ w.extractLsb' 0 56 = (Fields.rc f).pack := by
  have raw : w.extractLsb' 0 56 = w.extractLsb' 49 7 ++ w.extractLsb' 41 8 ++ w.extractLsb' 33 8 ++ w.extractLsb' 25 8 ++
      w.extractLsb' 17 8 ++ w.extractLsb' 0 17 := by
    iterate 5 rw [BitVec.extractLsb'_append_extractLsb'_eq_extractLsb' (by rfl)]
  rw [raw, Fields.pack]
  iterate 5 rw [append_eq_append_iff]
  cases f
  simp only [unpackRC, FRC.mk.injEq, Com.unpack_eq_iff, and_assoc]

theorem unpackR_eq_iff {w : DWord} {f : FR} : unpackR w = .ok f ↔ w.extractLsb' 0 56 = (Fields.r f).pack := by
  have raw : w.extractLsb' 0 56 = w.extractLsb' 49 7 ++ w.extractLsb' 41 8 ++ w.extractLsb' 33 8 ++ w.extractLsb' 25 8 ++
      w.extractLsb' 17 8 ++ w.extractLsb' 12 5 ++ w.extractLsb' 10 2 ++ w.extractLsb' 9 1 ++ w.extractLsb' 0 9 := by
    iterate 8 rw [BitVec.extractLsb'_append_extractLsb'_eq_extractLsb' (by rfl)]
  rw [raw, Fields.pack]
  iterate 8 rw [append_eq_append_iff]
  cases f
  simp only [← Com.unpack_eq_iff, ← Ty.ofCode_eq_iff, ← RM.ofBits_eq_iff, extractLsb'_eq_ofBool, unpackR]
  cases Ty.ofCode (w.extractLsb' 12 5).toNat with
  | none => simp
  | some t => simp only [Except.ok.injEq, FR.mk.injEq, Option.some.injEq, and_assoc]

theorem unpackI_eq_iff {w : DWord} {f : FI} : unpackI w = .ok f ↔ w.extractLsb' 0 56 = (Fields.i f).pack := by
  have raw : w.extractLsb' 0 56 = w.extractLsb' 49 7 ++ w.extractLsb' 41 8 ++ w.extractLsb' 33 8 ++ w.extractLsb' 1 32 ++
      w.extractLsb' 0 1 := by
    iterate 4 rw [BitVec.extractLsb'_append_extractLsb'_eq_extractLsb' (by rfl)]
  rw [raw, Fields.pack]
  iterate 4 rw [append_eq_append_iff]
  have bit : w.extractLsb' 0 1 = 0#1 ↔ w.getLsbD 0 = false := extractLsb'_eq_ofBool (b := false)
  cases f
  simp only [← Com.unpack_eq_iff, bit, unpackI]
  cases w.getLsbD 0 with
  | true => simp
  | false => simp [and_assoc]

theorem unpackAccess_eq_iff {w : DWord} {sc : Scope} {o : Ord} {sz : Size} : unpackAccess w = .ok (sc, o, sz) ↔
    w.extractLsb' 23 4 = BitVec.ofNat 4 sc.code ∧ w.extractLsb' 20 3 = BitVec.ofNat 3 o.code ∧
      w.extractLsb' 17 3 = BitVec.ofNat 3 sz.code := by
  rw [← Scope.ofCode_eq_iff, ← Ord.ofCode_eq_iff, ← Size.ofCode_eq_iff, unpackAccess]
  split
  · rename_i h1 h2 h3
    simp only [h1, h2, h3, Except.ok.injEq, Prod.mk.injEq, Option.some.injEq]
  · rename_i h
    simp only [reduceCtorEq, false_iff]
    exact fun ⟨h1, h2, h3⟩ => h _ _ _ h1 h2 h3

theorem unpackM_eq_iff {w : DWord} {f : FM} : unpackM w = .ok f ↔ w.extractLsb' 0 56 = (Fields.m f).pack := by
  have raw : w.extractLsb' 0 56 = w.extractLsb' 49 7 ++ w.extractLsb' 41 8 ++ w.extractLsb' 35 6 ++ w.extractLsb' 27 8 ++
      w.extractLsb' 23 4 ++ w.extractLsb' 20 3 ++ w.extractLsb' 17 3 ++ w.extractLsb' 15 2 ++ w.extractLsb' 0 15 := by
    iterate 8 rw [BitVec.extractLsb'_append_extractLsb'_eq_extractLsb' (by rfl)]
  rw [raw, Fields.pack]
  iterate 8 rw [append_eq_append_iff]
  have access := @unpackAccess_eq_iff w f.scope f.ord f.size
  cases f
  simp only [← Com.unpack_eq_iff, unpackM]
  cases hu : unpackAccess w with
  | error r =>
    rw [hu] at access
    simp only [reduceCtorEq, false_iff] at access ⊢
    tauto
  | ok x =>
    rw [hu] at access
    simp only [Except.ok.injEq, Prod.ext_iff] at access
    simp only [Except.ok.injEq, FM.mk.injEq]
    tauto

theorem unpackMk_eq_iff {w : DWord} {f : FMk} : unpackMk w = .ok f ↔ w.extractLsb' 0 56 = (Fields.mk f).pack := by
  have raw : w.extractLsb' 0 56 = w.extractLsb' 49 7 ++ w.extractLsb' 41 8 ++ w.extractLsb' 35 6 ++ w.extractLsb' 27 8 ++
      w.extractLsb' 23 4 ++ w.extractLsb' 20 3 ++ w.extractLsb' 17 3 ++ w.extractLsb' 15 2 ++ w.extractLsb' 11 4 ++
      w.extractLsb' 0 11 := by
    iterate 9 rw [BitVec.extractLsb'_append_extractLsb'_eq_extractLsb' (by rfl)]
  rw [raw, Fields.pack]
  iterate 9 rw [append_eq_append_iff]
  have access := @unpackAccess_eq_iff w f.scope f.ord f.size
  cases f
  simp only [← Com.unpack_eq_iff, unpackMk]
  cases hu : unpackAccess w with
  | error r =>
    rw [hu] at access
    simp only [reduceCtorEq, false_iff] at access ⊢
    tauto
  | ok x =>
    rw [hu] at access
    simp only [Except.ok.injEq, Prod.ext_iff] at access
    simp only [Except.ok.injEq, FMk.mk.injEq]
    tauto

theorem unpackC_eq_iff {w : DWord} {f : FC} : unpackC w = f ↔ w.extractLsb' 0 56 = (Fields.c f).pack := by
  have raw : w.extractLsb' 0 56 = w.extractLsb' 49 7 ++ w.extractLsb' 24 25 ++ w.extractLsb' 16 8 ++ w.extractLsb' 0 16 := by
    iterate 3 rw [BitVec.extractLsb'_append_extractLsb'_eq_extractLsb' (by rfl)]
  rw [raw, Fields.pack]
  iterate 3 rw [append_eq_append_iff]
  cases f
  simp only [unpackC, FC.mk.injEq, Com.unpack_eq_iff, and_assoc]

theorem unpackE_eq_iff {w : DWord} {f : FE} : unpackE w = f ↔ w.extractLsb' 0 56 = (Fields.e f).pack := by
  have raw : w.extractLsb' 0 56 = w.extractLsb' 49 7 ++ w.extractLsb' 43 6 ++ w.extractLsb' 37 6 ++ w.extractLsb' 31 6 ++
      w.extractLsb' 25 6 ++ w.extractLsb' 17 8 ++ w.extractLsb' 0 17 := by
    iterate 6 rw [BitVec.extractLsb'_append_extractLsb'_eq_extractLsb' (by rfl)]
  rw [raw, Fields.pack]
  iterate 6 rw [append_eq_append_iff]
  cases f
  simp only [unpackE, FE.mk.injEq, Com.unpack_eq_iff, and_assoc]

theorem POp.unpack_eq_iff {w : DWord} {o : POp} {n : Nat} :
    POp.unpack w n = o ∧ w.getLsbD n = false ↔ w.extractLsb' n 28 = o.pack := by
  have raw : w.extractLsb' n 28 = w.extractLsb' (n + 22) 6 ++ w.extractLsb' (n + 15) 7 ++ w.extractLsb' (n + 8) 7 ++
      w.extractLsb' (n + 1) 7 ++ w.extractLsb' n 1 := by
    iterate 4 rw [BitVec.extractLsb'_append_extractLsb'_eq_extractLsb' (by rfl)]
  have bit : w.extractLsb' n 1 = 0#1 ↔ w.getLsbD n = false := extractLsb'_eq_ofBool (b := false)
  rw [raw, POp.pack]
  iterate 4 rw [append_eq_append_iff]
  cases o
  simp only [POp.unpack, POp.mk.injEq, bit, and_assoc]

/-- The fields of a paired word (R73). -/
theorem FP.pack_eq_iff {w : DWord} {p : FP} : p.pack = w ↔ w.extractLsb' 60 4 = 0xE#4 ∧ w.extractLsb' 56 4 = p.pg ∧
    (POp.unpack w 28 = p.x ∧ w.getLsbD 28 = false) ∧ POp.unpack w 0 = p.y ∧ w.getLsbD 0 = false := by
  have raw : w = w.extractLsb' 60 4 ++ w.extractLsb' 56 4 ++ w.extractLsb' 28 28 ++ w.extractLsb' 0 28 := by
    iterate 3 rw [BitVec.extractLsb'_append_extractLsb'_eq_extractLsb' (by rfl)]
    exact BitVec.extractLsb'_eq_self.symm
  rw [eq_comm, POp.unpack_eq_iff, POp.unpack_eq_iff]
  conv_lhs => rw [raw, FP.pack]
  iterate 3 rw [append_eq_append_iff]
  simp only [and_assoc]

theorem unpackP_eq_iff {w : DWord} {p : FP} (h : w.extractLsb' 60 4 = 0xE#4) : unpackP w = .ok p ↔ p.pack = w := by
  cases p
  simp only [FP.pack_eq_iff, h, unpackP]
  cases w.getLsbD 28 <;> cases w.getLsbD 0 <;> simp

end Sys2Proof
end

section
/-! PROOFS. Decode and encode (O57): the opcode map against `Instr.fields`, the selectors of the shared opcodes, and the round
trip in both directions. -/

namespace Sys2Proof

/-! ### Rows -/

/-- The instruction that a row gives for a selector value and fields of its format. -/
def Row.named : Row → Nat → Fields → Option Instr
  | .r g, _, .r w => some (g w)
  | .rs gs, n, .r w => gs[n]?.map (· w)
  | .rc g, _, .rc w => some (g w)
  | .rcs gs, n, .rc w => gs[n]?.map (· w)
  | .i g, _, .i w => some (g w)
  | .m g, _, .m w => some (g w)
  | .mk g, _, .mk w => some (g w)
  | .c g, _, .c w => some (g w)
  | .e g, _, .e w => some (g w)
  | .es gs, n, .e w => gs[n]?.map (· w)
  | _, _, _ => none

theorem pickSel_eq_ok_iff {α : Type} {gs : List (α → Instr)} {n : Nat} {a : α} {i : Instr} :
    pickSel gs n a = .ok i ↔ gs[n]?.map (· a) = some i := by
  unfold pickSel
  cases gs[n]? <;> simp

theorem except_map_eq_ok_iff {α β : Type} {x : Except Reject α} {g : α → β} {b : β} :
    x.map g = .ok b ↔ ∃ a, x = .ok a ∧ g a = b := by
  cases x <;> simp [Except.map]
theorem except_bind_eq_ok_iff {α β : Type} {x : Except Reject α} {g : α → Except Reject β} {b : β} :
    x.bind g = .ok b ↔ ∃ a, x = .ok a ∧ g a = .ok b := by
  cases x <;> simp [Except.bind]

/-- What a row reads from a word it names for the word's fields. -/
theorem Row.named_of_read {r : Row} {opc : Nat} {w : DWord} {i : Instr} (h : r.read opc w = .ok i) :
    ∃ f : Fields, w.extractLsb' 0 56 = f.pack ∧ r.named (selOf opc w) f = some i := by
  cases r with
  | r g => obtain ⟨v, hv, rfl⟩ := except_map_eq_ok_iff.1 h; exact ⟨.r v, unpackR_eq_iff.1 hv, rfl⟩
  | rs gs => obtain ⟨v, hv, hi⟩ := except_bind_eq_ok_iff.1 h; exact ⟨.r v, unpackR_eq_iff.1 hv, pickSel_eq_ok_iff.1 hi⟩
  | rc g => exact ⟨_, unpackRC_eq_iff.1 rfl, congrArg some (Except.ok.inj h)⟩
  | rcs gs => exact ⟨_, unpackRC_eq_iff.1 rfl, pickSel_eq_ok_iff.1 h⟩
  | i g => obtain ⟨v, hv, rfl⟩ := except_map_eq_ok_iff.1 h; exact ⟨.i v, unpackI_eq_iff.1 hv, rfl⟩
  | m g => obtain ⟨v, hv, rfl⟩ := except_map_eq_ok_iff.1 h; exact ⟨.m v, unpackM_eq_iff.1 hv, rfl⟩
  | mk g => obtain ⟨v, hv, rfl⟩ := except_map_eq_ok_iff.1 h; exact ⟨.mk v, unpackMk_eq_iff.1 hv, rfl⟩
  | c g => exact ⟨_, unpackC_eq_iff.1 rfl, congrArg some (Except.ok.inj h)⟩
  | e g => exact ⟨_, unpackE_eq_iff.1 rfl, congrArg some (Except.ok.inj h)⟩
  | es gs => exact ⟨_, unpackE_eq_iff.1 rfl, pickSel_eq_ok_iff.1 h⟩

/-- What a row names for fields it reads from a word that has them. -/
theorem Row.read_of_named {r : Row} {opc : Nat} {w : DWord} {f : Fields} {i : Instr} (hf : w.extractLsb' 0 56 = f.pack)
    (hi : r.named (selOf opc w) f = some i) : r.read opc w = .ok i := by
  unfold Row.named at hi
  split at hi
  · exact except_map_eq_ok_iff.2 ⟨_, unpackR_eq_iff.2 hf, Option.some.inj hi⟩
  · exact except_bind_eq_ok_iff.2 ⟨_, unpackR_eq_iff.2 hf, pickSel_eq_ok_iff.2 hi⟩
  · rw [Row.read, unpackRC_eq_iff.2 hf, Option.some.inj hi]
  · rw [Row.read, unpackRC_eq_iff.2 hf, pickSel_eq_ok_iff.2 hi]
  · exact except_map_eq_ok_iff.2 ⟨_, unpackI_eq_iff.2 hf, Option.some.inj hi⟩
  · exact except_map_eq_ok_iff.2 ⟨_, unpackM_eq_iff.2 hf, Option.some.inj hi⟩
  · exact except_map_eq_ok_iff.2 ⟨_, unpackMk_eq_iff.2 hf, Option.some.inj hi⟩
  · rw [Row.read, unpackC_eq_iff.2 hf, Option.some.inj hi]
  · rw [Row.read, unpackE_eq_iff.2 hf, Option.some.inj hi]
  · rw [Row.read, unpackE_eq_iff.2 hf, pickSel_eq_ok_iff.2 hi]
  · cases hi

/-! ### The opcode map and its inverse -/

/-- Every instruction of a row has the opcode `o` and the row's format. -/
def Row.Codes (o : BitVec 8) : Row → Prop
  | .r g => ∀ w, (g w).fields = some (o, .r w)
  | .rs gs => gs.Forall fun g => ∀ w, (g w).fields = some (o, .r w)
  | .rc g => ∀ w, (g w).fields = some (o, .rc w)
  | .rcs gs => gs.Forall fun g => ∀ w, (g w).fields = some (o, .rc w)
  | .i g => ∀ w, (g w).fields = some (o, .i w)
  | .m g => ∀ w, (g w).fields = some (o, .m w)
  | .mk g => ∀ w, (g w).fields = some (o, .mk w)
  | .c g => ∀ w, (g w).fields = some (o, .c w)
  | .e g => ∀ w, (g w).fields = some (o, .e w)
  | .es gs => gs.Forall fun g => ∀ w, (g w).fields = some (o, .e w)

/-- The opcode map puts every instruction under the opcode of its own word (R78). -/
theorem row_codes {n : Nat} {r : Row} (h : row n = some r) : r.Codes (BitVec.ofNat 8 n) := by
  unfold row at h
  split at h
  all_goals cases h
  all_goals and_intros
  all_goals exact fun _ => rfl

/-- What the instructions of a list have in common, the one that a selector picks has. -/
theorem fields_of_pick {α : Type} {gs : List (α → Instr)} {n : Nat} {w : α} {i : Instr} {o : BitVec 8} {F : α → Fields}
    (hg : gs.Forall fun g => ∀ w, (g w).fields = some (o, F w)) (h : gs[n]?.map (· w) = some i) :
    i.fields = some (o, F w) := by
  obtain ⟨g, hn, rfl⟩ := Option.map_eq_some_iff.1 h
  exact List.forall_iff_forall_mem.1 hg g (List.mem_of_getElem? hn) w

theorem Row.Codes.fields {r : Row} {o : BitVec 8} {n : Nat} {f : Fields} {i : Instr} (hr : r.Codes o)
    (h : r.named n f = some i) : i.fields = some (o, f) := by
  unfold Row.named at h
  split at h
  case h_2 | h_4 | h_10 => exact fields_of_pick hr h
  case h_11 => cases h
  all_goals cases h; exact hr _

/-- The selector value of a mnemonic that shares its opcode (R78): SUBF of 0x6C and 0x6D, MOD of 0x77, 0x7E, 0x7F and 0xB0. -/
def Instr.selector : Instr → Option Nat
  | .noise _ | .bcast _ | .mpush _ | .barInit _ | .nop _ | .dkload _ => some 0
  | .noiseSt _ | .bcastGet _ | .melse _ | .barArr _ | .yield _ | .dkloadClr _ => some 1
  | .mpop _ | .barWait _ | .rgrow _ => some 2
  | .barSync _ | .rshrink _ => some 3
  | _ => none

/-- The row of an instruction's opcode names it by its selector value. -/
theorem row_of_fields {i : Instr} {o : BitVec 8} {f : Fields} (h : i.fields = some (o, f)) (n : Nat) :
    ∃ r, row o.toNat = some r ∧ r.named (i.selector.getD n) f = some i := by
  cases i
  all_goals cases h
  all_goals exact ⟨_, rfl, rfl⟩

/-! ### Selectors -/

/-- SUBF selects in 0x6C and 0x6D (R139, R141). -/
theorem selOf_r {opc : Nat} {x : DWord} {w : FR} {v : BitVec 9} (h : opc = 0x6C ∨ opc = 0x6D)
    (hx : x.extractLsb' 0 56 = (Fields.r w).pack) (hv : w.subf = v) : selOf opc x = v.toNat := by
  have hu := unpackR_eq_iff.2 hx
  unfold unpackR at hu
  split at hu
  · cases hu
  · cases hu
    simp only [selOf, h, if_true, ← hv]
/-- MOD[1:0] selects in 0x77 and 0x7E (R189, R203). -/
theorem selOf_rc {opc : Nat} {x : DWord} {w : FRC} {v : BitVec 17} (h : opc = 0x77 ∨ opc = 0x7E)
    (hx : x.extractLsb' 0 56 = (Fields.rc w).pack) (hv : w.mod = v) : selOf opc x = (v.extractLsb' 0 2).toNat := by
  obtain rfl := unpackRC_eq_iff.2 hx
  have : ¬(opc = 0x6C ∨ opc = 0x6D) := by omega
  simp [selOf, h, this, unpackRC, ← hv]
/-- MOD[2:0] selects in 0x7F (R205). -/
theorem selOf_misc {x : DWord} {w : FRC} {v : BitVec 3} (hx : x.extractLsb' 0 56 = (Fields.rc w).pack)
    (hv : w.mod.extractLsb' 0 3 = v) : selOf 0x7F x = v.toNat := by
  obtain rfl := unpackRC_eq_iff.2 hx
  simp [selOf, unpackRC, ← hv]
/-- MOD[2] selects in 0xB0 (R235). -/
theorem selOf_dkload {x : DWord} {w : FE} {v : Bool} (hx : x.extractLsb' 0 56 = (Fields.e w).pack)
    (hv : w.mod.getLsbD 2 = v) : selOf 0xB0 x = (BitVec.ofBool v).toNat := by
  obtain rfl := unpackE_eq_iff.2 hx
  have bit : x.getLsbD 2 = v := by simpa [unpackE] using hv
  exact congrArg BitVec.toNat (extractLsb'_eq_ofBool.2 bit)

theorem Wf.mod_of_rc {w : FRC} {d a b c : Bool} (h : Wf.rc w d a b c 0 = true) : w.mod = 0 := by
  simp only [Wf.rc, Bool.and_eq_true, decide_eq_true_eq] at h
  obtain ⟨-, h⟩ := h
  exact BitVec.and_allOnes.symm.trans h
theorem Wf.mod_of_zero {w : FRC} (h : Wf.zero w = true) : w.mod = 0 := by
  simp only [Wf.zero, Bool.and_eq_true] at h
  exact Wf.mod_of_rc h.2
theorem Wf.mod_of_bar {w : FRC} {sel : BitVec 17} (h : Wf.bar w sel = true) : w.mod = sel := by
  simp only [Wf.bar, Bool.and_eq_true, decide_eq_true_eq] at h
  obtain ⟨⟨⟨-, h⟩, -⟩, -⟩ := h
  exact h
theorem Wf.clr_of_mod {w : FE} (h : Wf.mod w 3 = true) : w.mod.getLsbD 2 = false := by
  simp only [Wf.mod, decide_eq_true_eq] at h
  simpa using congrArg (·.getLsbD 2) h

/-- The selector bits of a well-formed instruction's word are those of its mnemonic. -/
theorem selOf_of_wf {i : Instr} {o : BitVec 8} {f : Fields} {n : Nat} (h : i.fields = some (o, f)) (hw : i.wf = true)
    (hs : i.selector = some n) {x : DWord} (hx : x.extractLsb' 0 56 = f.pack) : selOf o.toNat x = n := by
  cases i
  all_goals cases hs
  all_goals cases h
  case barInit | barArr | barWait | barSync => exact selOf_rc (.inr rfl) hx (Wf.mod_of_bar hw)
  case nop => exact selOf_misc hx (congrArg (·.extractLsb' 0 3) (Wf.mod_of_zero hw))
  all_goals simp only [Instr.wf, Bool.and_eq_true, decide_eq_true_eq] at hw
  case noise | noiseSt => obtain ⟨⟨-, subf⟩, -⟩ := hw; exact selOf_r (.inl rfl) hx subf
  case bcast | bcastGet => obtain ⟨⟨⟨⟨-, subf⟩, -⟩, -⟩, -⟩ := hw; exact selOf_r (.inr rfl) hx subf
  case mpush => obtain ⟨⟨-, mod⟩, -⟩ := hw; exact selOf_rc (.inl rfl) hx (Wf.mod_of_rc mod)
  case melse => obtain ⟨⟨-, mod⟩, -⟩ := hw; exact selOf_rc (.inl rfl) hx mod
  case mpop => obtain ⟨-, mod⟩ := hw; exact selOf_rc (.inl rfl) hx mod
  case yield => obtain ⟨-, mod⟩ := hw; exact selOf_misc hx (congrArg (·.extractLsb' 0 3) mod)
  case rgrow => obtain ⟨⟨⟨⟨-, mod⟩, -⟩, -⟩, -⟩ := hw; exact selOf_misc hx mod
  case rshrink => obtain ⟨⟨⟨-, mod⟩, -⟩, -⟩ := hw; exact selOf_misc hx mod
  case dkload => obtain ⟨⟨-, mod⟩, -⟩ := hw; exact selOf_dkload hx (Wf.clr_of_mod mod)
  case dkloadClr => obtain ⟨-, clr⟩ := hw; exact selOf_dkload hx clr

/-! ### Legal opcodes -/

theorem topNibble_eq (x : DWord) : (x.extractLsb' 60 4).toNat = (x.extractLsb' 56 8).toNat / 16 := by
  simp only [BitVec.extractLsb'_toNat, Nat.shiftRight_eq_div_pow]
  omega

/-- Apart from the paired words, whether a word is reserved is its opcode's affair (R80). -/
theorem reserved_eq_of_opcode {x y : DWord} (h : x.extractLsb' 56 8 = y.extractLsb' 56 8)
    (hp : (x.extractLsb' 56 8).toNat / 16 ≠ 0xE) : Wf.reserved x = Wf.reserved y := by
  unfold Wf.reserved
  rw [← h]
  simp only [hp, if_false]

/-- No opcode of the map is reserved or one of the paired words' (R78, R80). -/
theorem row_unreserved : ∀ o : BitVec 8, (row o.toNat).isSome = true → o.toNat / 16 ≠ 0xE ∧ Wf.reserved (o ++ 0#56) = false := by
  decide +kernel

/-- A word with an opcode of the map is a body word of its row. -/
theorem decodeWord_of_row {x : DWord} {o : BitVec 8} {r : Row} (ho : x.extractLsb' 56 8 = o) (hr : row o.toNat = some r) :
    decodeWord x = checked (r.read o.toNat x) := by
  obtain ⟨notPair, legal⟩ := row_unreserved o (by rw [hr]; rfl)
  have unreserved : Wf.reserved x = false := by
    rw [reserved_eq_of_opcode (y := o ++ 0#56) _ (by rw [ho]; exact notPair), legal]
    rw [ho, BitVec.extractLsb'_append_eq_of_le (Nat.le_refl 56)]
    exact BitVec.extractLsb'_eq_self.symm
  unfold decodeWord
  rw [unreserved, topNibble_eq, ho, hr]
  simp only [notPair, if_false, Bool.false_eq_true]

theorem checked_eq_ok_iff {x : Except Reject Instr} {i : Instr} : checked x = .ok i ↔ x = .ok i ∧ i.wf = true := by
  unfold checked
  cases x with
  | error r => simp
  | ok j =>
    simp only [Except.ok.injEq]
    split
    · rename_i h; rw [Except.ok.injEq]; exact ⟨fun e => ⟨e, e ▸ h⟩, fun e => e.1⟩
    · rename_i h; simp only [reduceCtorEq, false_iff]; rintro ⟨rfl, hw⟩; exact h hw

theorem encode_of_fields {i : Instr} {o : BitVec 8} {f : Fields} (h : i.fields = some (o, f)) : encode i = some (o ++ f.pack) := by
  unfold encode
  split
  · cases h
  · cases h
  · rw [h]; rfl

/-! ### The round trip -/

theorem pair_unreserved {p : FP} (h : Wf.pair p = true) : (Wf.xUse p.x.sub).isSome = true ∧ (Wf.yUse p.y.sub).isSome = true := by
  unfold Wf.pair at h
  split at h
  · rename_i hx hy; simp [hx, hy]
  · cases h

/-- The word of a well-formed paired word decodes to it (R73, R74). -/
theorem decodeWord_pair {p : FP} (h : Wf.pair p = true) : decodeWord p.pack = .ok (.pairedWord p) := by
  obtain ⟨top, -, ⟨hx, -⟩, hy, -⟩ := FP.pack_eq_iff.1 (Eq.refl p.pack)
  obtain ⟨ux, uy⟩ := pair_unreserved h
  have nibble : (p.pack.extractLsb' 60 4).toNat = 0xE := congrArg BitVec.toNat top
  have unreserved : Wf.reserved p.pack = false := by
    have sx : p.pack.extractLsb' 50 6 = p.x.sub := congrArg POp.sub hx
    have sy : p.pack.extractLsb' 22 6 = p.y.sub := congrArg POp.sub hy
    simp only [Wf.reserved, ← topNibble_eq, nibble, if_true, sx, sy, Option.isNone_eq_false_iff.2 ux,
      Option.isNone_eq_false_iff.2 uy, Bool.or_false]
  have read : (unpackP p.pack).map Instr.pairedWord = .ok (.pairedWord p) :=
    except_map_eq_ok_iff.2 ⟨p, (unpackP_eq_iff top).2 rfl, rfl⟩
  rw [decodeWord, unreserved, nibble, read]
  have wf : (Instr.pairedWord p).wf = true := h
  exact checked_eq_ok_iff.2 ⟨rfl, wf⟩

/-- A well-formed instruction that has a word decodes from it. -/
theorem decodeWord_encode {i : Instr} {w : DWord} (hw : i.wf = true) (h : encode i = some w) : decodeWord w = .ok i := by
  unfold encode at h
  split at h
  · cases h; exact decodeWord_pair hw
  · cases h; exact if_pos hw
  · obtain ⟨⟨o, f⟩, hf, rfl⟩ := Option.map_eq_some_iff.1 h
    have opcode : (o ++ f.pack).extractLsb' 56 8 = o :=
      (BitVec.extractLsb'_append_eq_of_le (Nat.le_refl 56)).trans BitVec.extractLsb'_eq_self
    have rest : (o ++ f.pack).extractLsb' 0 56 = f.pack :=
      (BitVec.extractLsb'_append_eq_of_add_le (Nat.le_refl 56)).trans BitVec.extractLsb'_eq_self
    obtain ⟨r, hr, hn⟩ := row_of_fields hf (selOf o.toNat (o ++ f.pack))
    have sel : i.selector.getD (selOf o.toNat (o ++ f.pack)) = selOf o.toNat (o ++ f.pack) := by
      cases hs : i.selector with
      | none => rfl
      | some n => exact (selOf_of_wf hf hw hs rest).symm
    rw [sel] at hn
    rw [decodeWord_of_row opcode hr]
    exact checked_eq_ok_iff.2 ⟨Row.read_of_named rest hn, hw⟩

/-- An instruction that a word decodes to has that word. -/
theorem encode_decodeWord {w : DWord} {i : Instr} (h : decodeWord w = .ok i) : encode i = some w := by
  unfold decodeWord at h
  split at h
  · cases h; rfl
  · split at h
    · rename_i top
      obtain ⟨h, -⟩ := checked_eq_ok_iff.1 h
      obtain ⟨p, hp, rfl⟩ := except_map_eq_ok_iff.1 h
      exact congrArg some ((unpackP_eq_iff (BitVec.eq_of_toNat_eq top)).1 hp)
    · split at h
      · rename_i r hr
        obtain ⟨h, -⟩ := checked_eq_ok_iff.1 h
        obtain ⟨f, hf, hn⟩ := Row.named_of_read h
        have code := (row_codes hr).fields hn
        rw [BitVec.ofNat_toNat, BitVec.setWidth_eq] at code
        rw [encode_of_fields code, ← hf]
        exact congrArg some ((BitVec.extractLsb'_append_extractLsb'_eq_extractLsb' (by rfl)).trans BitVec.extractLsb'_eq_self)
      · cases h; rfl

/-- Settles O57: `decodeWord_encode` and `encode_decodeWord`. -/
theorem decodeAndEncodeAgree : Obligations.DecodeAndEncodeAgree :=
  ⟨fun _ _ hw h => decodeWord_encode hw h, fun _ _ h => encode_decodeWord h⟩

end Sys2Proof
end

section
/-! PROOFS. The words written out (O56). -/

namespace Sys2Proof

/-- Settles O56: each word is the one that the instruction named encodes to, and decodes to it by `decodeWord_encode`. -/
theorem decodedWords : Obligations.DecodedWords :=
  ⟨decodeWord_encode rfl rfl, decodeWord_encode rfl rfl, decodeWord_encode rfl rfl, decodeWord_encode rfl rfl⟩

end Sys2Proof
end

section
/-! SUPPORT. Taking an exception with a handler that nothing keeps from running (R210). -/

namespace Sys2Proof.Machine

open Sys2Proof.Claims

/-- With no trap running and a handler at TVEC the sheet enters it (R210). -/
theorem State.trap_enters {s : State} {e : Env} (L : Live s e) (hi : e.sh.tstat.getLsbD 7 = false)
    (hv : s.vectorOk e.r e.q.core e.q.ctx e.sh.tvec = true) (t : Trap) :
    s.trap e.r t = (s.modSheet e.r fun sh => sh.enter t).leave := by
  have intrap : e.sh.intrap = false := hi
  simp only [State.trap, L.find, L.sheet, intrap, hv, Bool.not_true, Bool.or_self, Bool.false_eq_true, if_false]

/-- A sheet moved without a transfer stands in the state as moved. -/
theorem State.sheet?_moved {s : State} {e : Env} (L : Live s e) (f : Sheet → Sheet) :
    (s.modSheet e.r f).leave.sheet? e.r = some (f e.sh) := by
  rw [((Edit.modSheet s e.r f).trans (Edit.leave _ _)).sheet? L]
  simp [Quire.modSheet, L.sheet]

/-- A header at TVEC is a handler (R210). -/
theorem vectorOk_of_handled {s : State} {e : Env} (H : Handled s e) : s.vectorOk e.r e.q.core e.q.ctx e.sh.tvec = true := by
  obtain ⟨-, hz, h, hc, ha, hf, hh⟩ := H
  have low : e.sh.tvec.extractLsb' 0 3 = 0 := by
    apply BitVec.eq_of_toNat_eq
    simpa using ha
  have hz' : e.sh.tvec ≠ 0#64 := hz
  simp [State.vectorOk, hz', hc, low, hf, hh]

end Sys2Proof.Machine
end

section
/-! PROOFS. Words that trap (O29): the handler is entered with the trap registers of the cause. -/

namespace Sys2Proof.Machine

open Sys2Proof.Claims

/-- A sheet with a handler that takes a trap is moved into it, and nothing else changes (R210, R211). -/
theorem trap_moves {s : State} {e : Env} (L : Live s e) (H : Handled s e) (t : Trap) :
    Moves s (s.trap e.r t) e (entered t.cause t.tpc t.thdr t.addr t.info) := by
  rw [State.trap_enters L H.1 (vectorOk_of_handled H)]
  exact moves_sheet L _

theorem dbg_stop_none {x : Ctx} (h : ∀ d, x.debug = some d → d.stop = false) : x.dbg (·.stop) = none := by
  unfold Ctx.dbg
  cases hd : x.debug with
  | none => rfl
  | some d => simp [Option.filter, h d hd]

/-- Settles O29: each word traps with the cause, TPC and TINFO of its rule, and `trap_moves` says what the trap leaves. -/
theorem trapWords : Obligations.TrapWords := by
  intro s e L H pc ends
  refine ⟨fun w => ⟨_, issue_plain L _, trap_moves L H _⟩, fun w hd => ⟨_, issue_plain L _, ?_⟩,
    fun x => ⟨_, issue_plain L _, trap_moves L H _⟩⟩
  rw [dbg_stop_none hd]
  exact trap_moves L H _

end Sys2Proof.Machine
end

section
/-! PROOFS. What issue refuses (O34). -/

namespace Sys2Proof.Machine

open Sys2Proof.Claims

/-- A format R word with a V operand outside the allocation (R81). -/
theorem alu_noRow {w : FR} {nd na nb nc : Nat} {f : DWord → DWord → DWord → DWord → DWord × Cond} {s : State} {e : Env}
    (L : Live s e) (hv : e.sh.vOk (aluVs w nd na nb nc) = false) :
    alu w nd na nb nc f s = .next (s.trap e.r (refused e 0x02)) := issue_noRow L _ hv
theorem aluInt_noRow {w : FR} {nd na nb nc : Nat} {f : DWord → DWord → DWord → DWord → DWord} {s : State} {e : Env}
    (L : Live s e) (hv : e.sh.vOk (aluVs w nd na nb nc) = false) :
    aluInt w nd na nb nc f s = .next (s.trap e.r (refused e 0x02)) := alu_noRow L hv

theorem regsOf_of_mem {t : Ty} (h : t ∈ [Ty.b32, .b64]) : regsOf t = t.regs := by
  rcases List.mem_pair.1 h with rfl | rfl <;> rfl
theorem Wf.ty_of_intR {w : FR} {tys : List Ty} {subf : BitVec 9} {nd na nb nc : Nat}
    (h : Wf.intR w tys subf nd na nb nc = true) : w.ty ∈ tys := by
  simp only [Wf.intR, Bool.and_eq_true, decide_eq_true_eq] at h
  obtain ⟨⟨⟨-, ty⟩, -⟩, -⟩ := h
  exact ty

section
variable {i : Instr} {x : RRow} {s : State} {e : Env}

theorem arith_noRow (h : arith i = some x) (L : Live s e) (hv : e.sh.vOk (aluVs x.w x.nd x.na x.nb x.nc) = false) :
    exec i s = .next (s.trap e.r (refused e 0x02)) := by
  unfold arith at h
  split at h
  case h_14 | h_15 =>
    split at h
    · cases h; dsimp only [exec]; exact alu_noRow L hv
    · cases h
  case h_17 => cases h
  all_goals cases h
  all_goals dsimp only [exec]
  all_goals exact aluInt_noRow L hv

theorem logic_noRow (h : logic i = some x) (hw : i.wf = true) (L : Live s e)
    (hv : e.sh.vOk (aluVs x.w x.nd x.na x.nb x.nc) = false) : exec i s = .next (s.trap e.r (refused e 0x02)) := by
  unfold logic at h
  split at h
  case h_9 => cases h
  all_goals cases h
  all_goals rw [regsOf_of_mem (Wf.ty_of_intR hw)] at hv
  all_goals dsimp only [exec]
  all_goals exact aluInt_noRow L hv

theorem bitsRow_noRow (h : bitsRow i = some x) (L : Live s e) (hv : e.sh.vOk (aluVs x.w x.nd x.na x.nb x.nc) = false) :
    exec i s = .next (s.trap e.r (refused e 0x02)) := by
  unfold bitsRow at h
  split at h
  case h_3 w =>
    split at h
    · rename_i ty; cases h; exact (if_pos ty).trans (aluInt_noRow L hv)
    · rename_i ty; cases h; exact (if_neg ty).trans (aluInt_noRow L hv)
  case h_5 => cases h
  all_goals cases h
  all_goals dsimp only [exec]
  all_goals exact aluInt_noRow L hv

theorem row_noRow (h : ((arith i).or (logic i)).or (bitsRow i) = some x) (hw : i.wf = true) (L : Live s e)
    (hv : e.sh.vOk (aluVs x.w x.nd x.na x.nb x.nc) = false) : exec i s = .next (s.trap e.r (refused e 0x02)) := by
  rw [Option.or_eq_some_iff, Option.or_eq_some_iff] at h
  rcases h with (h | ⟨-, h⟩) | ⟨-, h⟩
  · exact arith_noRow h L hv
  · exact logic_noRow h hw L hv
  · exact bitsRow_noRow h L hv

end

/-- A system register that needs privilege (R206). -/
theorem sysReg_unpriv {s : State} {e : Env} {w : FI} (L : Live s e) (hk : srKnown w.imm.toNat = true) (hi : 0x800 ≤ w.imm.toNat)
    (hp : e.cx.desc.priv = false) {i : Instr} (h : i ∈ [Instr.rdsr w, .wrsr w]) :
    exec i s = .next (s.trap e.r (refused e 0x05)) := by
  rcases List.mem_pair.1 h with rfl | rfl
  · refine (issue_plain L _).trans ?_
    simp only [hk, hi, hp, Bool.not_true, Bool.false_eq_true, not_false_eq_true, and_self, if_true, if_false]
    rfl
  · refine (issue_plain L _).trans ?_
    simp only [hk, hi, hp, Bool.not_true, Bool.false_eq_true, not_false_eq_true, and_self, if_true, if_false]
    rfl

/-- A long-latency word at a full flag waits (R58). -/
theorem issue_full {fs : Bool} {vs : List (Nat × Nat)} {s : State} {e : Env} (L : Live s e) (body : Env → Eff)
    (hv : e.sh.vOk vs = true) (hf : e.sh.flagOf fs ≠ 15) (full : 63 ≤ e.sh.flags.get 0 (e.sh.flagOf fs)) :
    issue { ll := some fs, vs } s body = .next ((Eff.wait s (.issue 15)).finish e) := by
  rw [issue_cases _ L]
  simp [hv, hf, full]

/-- Settles O34: the spec lemma of each check of `issue`, for the words that the check concerns. -/
theorem issueChecks : Obligations.IssueChecks := by
  intro s e L
  refine ⟨fun i w c x v hp hi => ?_, fun i w hi hk h8 hp => sysReg_unpriv L hk h8 hp hi, fun i w hi hf => ?_,
    fun i x h hw hv => row_noRow h hw L hv, fun i w hi hv hf full => ?_⟩
  · simp only [List.mem_cons, List.not_mem_nil, or_false] at hi
    rcases hi with rfl | rfl | rfl | rfl | rfl | rfl | rfl <;> exact issue_unpriv L _ hp
  · simp only [List.mem_cons, List.not_mem_nil, or_false] at hi
    rcases hi with rfl | rfl | rfl | rfl <;> exact issue_noFlag L _ hf
  · rcases List.mem_pair.1 hi with rfl | rfl <;> exact ⟨_, issue_full L _ hv hf full, stalls_wait L _⟩

end Sys2Proof.Machine
end

section
/-! PROOFS. What a header may not hold (O60): the checks of R54 as numbers, and the trap of a header that breaks one of them. -/

namespace Sys2Proof.Machine

open Sys2Proof.Claims

/-! ### The checks -/

theorem field_toNat (w : DWord) (i n : Nat) : (w.extractLsb' i n).toNat = w.toNat / 2 ^ i % 2 ^ n := by
  rw [BitVec.extractLsb'_toNat, Nat.shiftRight_eq_div_pow]

/-- A field is 0 where its number is. -/
theorem field_eq_zero (w : DWord) (i n : Nat) : w.extractLsb' i n = 0 ↔ w.toNat / 2 ^ i % 2 ^ n = 0 := by
  rw [← BitVec.toNat_inj, field_toNat]
  simp

/-- The checks of R54, by the numbers of a header's fields. -/
theorem headerOk_iff (w : DWord) (ldep : Nat) :
    headerOk w ldep = true ↔
      w.toNat / 2 ^ 56 % 2 ^ 8 = 0 ∧ w.toNat / 2 ^ 52 % 2 ^ 4 ≠ 0 ∧
      (w.toNat / 2 ^ 36 % 2 ^ 4 < 12 ∨ w.toNat / 2 ^ 36 % 2 ^ 4 = 15) ∧
      (w.toNat / 2 ^ 32 % 2 ^ 4 < 12 ∨ w.toNat / 2 ^ 32 % 2 ^ 4 = 15) ∧ w.toNat / 2 ^ 29 % 2 ^ 3 ≤ 4 ∧
      (w.toNat / 2 ^ 29 % 2 ^ 3 = 0 ∨ w.toNat / 2 ^ 29 % 2 ^ 3 = ldep) ∧ w.toNat / 2 ^ 0 % 2 ^ 28 = 0 := by
  simp only [headerOk, isHeader, Header.unpack, Header.setOk, Bool.and_eq_true, Bool.or_eq_true, decide_eq_true_eq, ne_eq,
    field_eq_zero, field_toNat, and_assoc]

/-- A header with a field that R54 does not allow. -/
def badHeader (w : DWord) (ldep : Nat) : Prop :=
  w.toNat / 2 ^ 52 % 16 = 0 ∨ (12 ≤ w.toNat / 2 ^ 36 % 16 ∧ w.toNat / 2 ^ 36 % 16 ≤ 14) ∨
  (12 ≤ w.toNat / 2 ^ 32 % 16 ∧ w.toNat / 2 ^ 32 % 16 ≤ 14) ∨ 5 ≤ w.toNat / 2 ^ 29 % 8 ∨
  (w.toNat / 2 ^ 29 % 8 ≠ 0 ∧ w.toNat / 2 ^ 29 % 8 ≠ ldep) ∨ w.toNat % 2 ^ 28 ≠ 0

theorem headerOk_iff_not_bad {w : DWord} (tag : w.toNat / 2 ^ 56 = 0) (ldep : Nat) :
    headerOk w ldep = true ↔ ¬badHeader w ldep := by
  rw [headerOk_iff, badHeader, tag]
  generalize w.toNat / 2 ^ 52 = n
  generalize w.toNat / 2 ^ 36 = a
  generalize w.toNat / 2 ^ 32 = b
  generalize w.toNat / 2 ^ 29 = l
  omega

/-! ### What the step does -/

/-- A header with a fault traps with it (R82). -/
theorem clauseHeaderFetch_faulty {s : State} {e : Env} {w : DWord} {x : Trap} (L : Live s e) (hi : e.sh.idx = 0)
    (H : HeaderNow s e w) (hf : headerFault e.sh e.sh.pc w = some x) : exec .clauseHeaderFetch s = .next (s.trap e.r x) := by
  show execClauseHeaderFetch s = _
  unfold execClauseHeaderFetch
  rw [show s.env? = some e from L]
  obtain ⟨hw, hp⟩ := HeaderNow.word H
  simp only [hi, hw, hp, H.2, hf, ne_eq, not_true_eq_false, if_false, Bool.false_eq_true]
  rfl

theorem clauseHeaderFetch_illegal {s : State} {e : Env} {w : DWord} (L : Live s e) (hi : e.sh.idx = 0) (H : HeaderNow s e w)
    (hok : headerOk w e.sh.ldep = false) :
    exec .clauseHeaderFetch s = .next (s.trap e.r (headerTrap cIllegalClause e.sh.pc 0)) :=
  clauseHeaderFetch_faulty L hi H (by simp [headerFault, hok])

/-- The sheet that a word moved stands as moved, apart from its registers. -/
theorem Moves.sheet {s t : State} {e : Env} {f : Sheet → Sheet} (M : Moves s t e f) :
    ∃ u, t.sheet? e.r = some u ∧ u.apart = (f e.sh).apart := by
  obtain ⟨q, hq, -, -, -, u, hu, same, -⟩ := M.1.quire
  exact ⟨u, by simp [State.sheet?, hq, hu], same⟩

/-- Settles O60: a header that breaks a rule of R54 traps (`clauseHeaderFetch_illegal`) into its handler (`State.trap_enters`),
and one that breaks none starts its clause (`clauseHeaderFetch_moves`). -/
theorem headerRule : Obligations.HeaderRule := by
  intro s e w L hi H tag n seta setb le bad
  have ok : headerOk w e.sh.ldep = true ↔ ¬bad := headerOk_iff_not_bad tag e.sh.ldep
  have illegal (hb : bad) : exec .clauseHeaderFetch s = .next (s.trap e.r (headerTrap cIllegalClause e.sh.pc 0)) :=
    clauseHeaderFetch_illegal L hi H (Bool.eq_false_iff.2 fun h => ok.1 h hb)
  refine ⟨fun hb => ⟨_, rfl, rfl, illegal hb⟩, fun hb free hv => ⟨_, illegal hb, ?_⟩, fun hb hle => ?_⟩
  · rw [State.trap_enters L free hv]
    exact ⟨_, State.sheet?_moved L _, rfl, rfl, rfl, rfl⟩
  · obtain ⟨t, ht, M⟩ := clauseHeaderFetch_moves L hi H (headerFault_none (ok.2 hb) (.inl ((field_eq_zero w 29 3).2 hle)))
    obtain ⟨u, hu, same⟩ := Moves.sheet M
    exact ⟨t, ht, u, hu, congrArg (·.idx) same, congrArg (·.pc) same, congrArg (·.tcause) same⟩

end Sys2Proof.Machine
end

section
/-! SUPPORT. Strands as bits of a mask and as entries of a table: the sum that a claim writes for a mask, and the table of stages. -/

namespace Sys2Proof.Machine

open Sys2Proof.Claims

/-! ### Bits given one by one -/

/-- The number whose bits below `n` are given. -/
def bitSum (p : Nat → Bool) (n : Nat) : Nat := ((List.range n).map fun j => if p j then 2 ^ j else 0).sum

theorem bitSum_succ (p : Nat → Bool) (n : Nat) : bitSum p (n + 1) = bitSum p n + if p n then 2 ^ n else 0 := by
  simp [bitSum, List.range_succ]

theorem bitSum_lt (p : Nat → Bool) (n : Nat) : bitSum p n < 2 ^ n := by
  induction n with
  | zero => exact Nat.one_pos
  | succ n ih =>
    rw [bitSum_succ, Nat.pow_succ]
    split <;> omega

theorem testBit_bitSum (p : Nat → Bool) (n i : Nat) : (bitSum p n).testBit i = (decide (i < n) && p i) := by
  induction n with
  | zero => simp [bitSum]
  | succ n ih =>
    have lt := bitSum_lt p n
    rw [bitSum_succ]
    by_cases hp : p n = true
    · rw [if_pos hp, Nat.add_comm]
      rcases Nat.lt_trichotomy i n with h | h | h
      · rw [Nat.testBit_two_pow_add_gt h, ih]
        simp [h, Nat.lt_succ_of_lt h]
      · subst h
        rw [Nat.testBit_two_pow_add_eq, Nat.testBit_lt_two_pow lt]
        simp [hp]
      · have : 2 ^ n + bitSum p n < 2 ^ i := by
          have := Nat.pow_le_pow_right (n := 2) (by decide) h
          rw [Nat.pow_succ] at this
          omega
        rw [Nat.testBit_lt_two_pow this]
        simp [Nat.not_lt.2 h]
    · rw [if_neg hp, Nat.add_zero, ih]
      rcases Nat.lt_trichotomy i n with h | rfl | h
      · simp [h, Nat.lt_succ_of_lt h]
      · simp [hp]
      · simp [Nat.not_lt.2 h, Nat.not_lt.2 (Nat.le_of_lt h)]

@[simp] theorem getLsbD_bits96 (p : Nat → Bool) (i : Nat) : (bits96 p).getLsbD i = (decide (i < 96) && p i) := by
  rw [bits96, BitVec.getLsbD_ofNat]
  exact (congrArg _ (testBit_bitSum p 96 i)).trans (by simp)

/-- One bit of a mask. -/
theorem getLsbD_one_shl (i j : Nat) : ((1 : Mask) <<< i).getLsbD j = (decide (j < 96) && decide (i = j)) := by
  rw [BitVec.getLsbD_shiftLeft]
  by_cases h : j < i
  · simp [h, Nat.ne_of_gt h]
  · by_cases e : i = j
    · subst e; simp
    · have : j - i ≠ 0 := by omega
      simp [e, h, this]

theorem getLsbD_maskOf (p : Nat → Bool) (n j : Nat) :
    (maskOf (List.range n) p).getLsbD j = (decide (j < 96) && decide (j < n) && p j) := by
  induction n with
  | zero => simp [maskOf]
  | succ n ih =>
    have step : maskOf (List.range (n + 1)) p =
        if p n then maskOf (List.range n) p ||| (1 : Mask) <<< n else maskOf (List.range n) p := by
      simp [maskOf, List.range_succ]
    rw [step]
    have this : j < n + 1 ↔ j < n ∨ n = j := by omega
    cases hp : p n
    · rw [if_neg Bool.false_ne_true, ih]
      by_cases hj : n = j
      · subst hj; simp [hp]
      · simp [this, hj]
    · rw [if_pos rfl, BitVec.getLsbD_or, getLsbD_one_shl, ih]
      by_cases hj : n = j
      · subst hj; simp [hp]
      · simp [this, hj]

theorem maskOf_range (p : Nat → Bool) : maskOf (List.range 96) p = bits96 p := by
  apply BitVec.eq_of_getLsbD_eq
  intro i hi
  rw [getLsbD_maskOf, getLsbD_bits96]
  simp [hi]

/-! ### Stages -/

/-- An entry past the last key of a table goes to its end. -/
theorem Tab.set_last {α : Type} [DecidableEq α] {d : α} {t : Tab α} {n : Nat} (x : α) (h : ∀ e ∈ t, e.1 < n) :
    t.set d n x = t ++ if x ≠ d then [(n, x)] else [] := by
  induction t with
  | nil => by_cases hx : x = d <;> simp [Tab.set, Tab.del, Tab.put, hx]
  | cons e t ih =>
    obtain ⟨k, v⟩ := e
    have hk : k < n := h _ List.mem_cons_self
    have ht := ih fun e he => h e (List.mem_cons_of_mem _ he)
    have ne : n ≠ k := Nat.ne_of_gt hk
    have ge : ¬n < k := Nat.lt_asymm hk
    by_cases hx : x = d
    · simp only [Tab.set, hx, if_true, ne_eq, not_true_eq_false, if_false, List.append_nil] at ht ⊢
      simp [Tab.del, ne, ht]
    · simp only [Tab.set, hx, if_false, ne_eq, not_false_eq_true, if_true] at ht ⊢
      simp [Tab.put, ne, ge, ht]

theorem lstgOf_eq_stages (f : Nat → BitVec 8) : lstgOf f = stages f := by
  have upTo (n : Nat) : (List.range n).foldl (fun t i => Tab.set 0 t i (f i)) [] =
      ((List.range n).filter fun j => f j ≠ 0).map fun j => (j, f j) := by
    induction n with
    | zero => rfl
    | succ n ih =>
      rw [List.range_succ, List.foldl_append, ih, List.filter_append, List.map_append]
      refine (Tab.set_last (f n) fun e he => ?_).trans ?_
      · obtain ⟨j, hj, rfl⟩ := List.mem_map.1 he
        exact List.mem_range.1 (List.mem_filter.1 hj).1
      · by_cases hf : f n = 0#8 <;> simp [hf]
  exact upTo 96

end Sys2Proof.Machine
end

section
/-! PROOFS. The end of a clause (O24): where the next header stands, the level that a `loop` opens, and the back edge. -/

namespace Sys2Proof.Machine

open Sys2Proof.Claims

/-! ### The sheet -/

/-- The length of a clause in bytes, its header included. -/
theorem clause_bytes (n : BitVec 4) : 8 * (n.setWidth 64 + 1) = BitVec.ofNat 64 (8 * (n.toNat + 1)) := by
  apply BitVec.eq_of_toNat_eq
  simp [BitVec.toNat_mul, BitVec.toNat_add]

theorem after_eq_nextHeader (e : Env) : e.sh.after = nextHeader e := by
  rw [Sheet.after, nextHeader, clause_bytes]

theorem PLoop.stages_eq (p : PLoop) : p.stages = BitVec.ofNat 4 (p.mod.toNat % 8 + 1) := by
  apply BitVec.eq_of_toNat_eq
  simp [PLoop.stages, BitVec.toNat_add]

theorem Sheet.close_eq_closed (sh : Sheet) : sh.close = closed sh 1 := by
  rw [Sheet.close, lstgOf_eq_stages]
  rfl

/-- What a word that writes EXM and moves its sheet leaves of the sheet does not depend on the marks of R59. -/
theorem Moves.congr_apart {s t : State} {e : Env} {f g : Sheet → Sheet} (M : Moves s t e f)
    (ha : (f e.sh).apart = (g e.sh).apart) (hr : ∀ key, (f e.sh).raw key = (g e.sh).raw key) : Moves s t e g := by
  obtain ⟨C, hn, hs, hc⟩ := M
  refine ⟨⟨C.module, C.cores, C.quires, ?_, C.memory⟩, hn, hs, hc⟩
  simpa only [ha, hr] using C.quire

/-! ### The step -/

section
variable {s : State} {e : Env} (L : Live s e) (hi : e.sh.idx = e.sh.hdr.n.toNat + 1)
include L hi

/-- At a clause's end with no `loop` word: past it, or the back edge of its level (R55, R194). -/
theorem loopBackEdge_none (hp : e.sh.pend = none) :
    exec .loopBackEdge s = .next
      (Eff.finish e (if e.sh.hdr.le = 0 then .placed (s.nextClause e e.sh.after id) else backEdge e s)) := by
  show execLoopBackEdge s = _
  unfold execLoopBackEdge
  rw [show s.env? = some e from L]
  simp only [hi, hp, ne_eq, not_true_eq_false, if_false]

/-- At a clause's end with a `loop` word (R193). -/
theorem loopBackEdge_some {p : PLoop} (hp : e.sh.pend = some p) :
    exec .loopBackEdge s = .next (Eff.finish e (openLevel e s p)) := by
  show execLoopBackEdge s = _
  unfold execLoopBackEdge
  rw [show s.env? = some e from L]
  simp only [hi, hp, ne_eq, not_true_eq_false, if_false]

end

/-! ### A level opened -/

/-- A level may open: there is a slot for it, no open level has more than one stage, and its label lies within the innermost one
(R193). -/
def MayNest (e : Env) (p : PLoop) : Prop :=
  e.sh.fbase + e.sh.ldep < 4 ∧ (∀ i < e.sh.fbase + e.sh.ldep, (e.sh.slotAt i).nst.toNat ≤ 1) ∧ Within e e.sh.ldep p.fin
/-- The window of a `loop` word lies within the registers and the allocation and apart from those of the open levels (R193). -/
def WindowFree (e : Env) (p : PLoop) : Prop :=
  p.w = 0 ∨ (p.b + p.w ≤ 256 ∧ p.b + p.w ≤ e.sh.alloc ∧ ∀ i < e.sh.fbase + e.sh.ldep,
    (e.sh.slotAt i).w = 0 ∨ (e.sh.slotAt i).b + (e.sh.slotAt i).w ≤ p.b ∨ p.b + p.w ≤ (e.sh.slotAt i).b)

theorem slots_any_false {sh : Sheet} {n : Nat} {q : Slot → Bool} (h : ∀ i < n, q (sh.slotAt i) = false) :
    ((List.range (min n 4)).map sh.slotAt).any q = false := by
  rw [List.any_eq_false]
  intro sl hs
  obtain ⟨i, hi, rfl⟩ := List.mem_map.1 hs
  rw [h i (Nat.lt_of_lt_of_le (List.mem_range.1 hi) (Nat.min_le_left n 4))]
  exact Bool.false_ne_true

/-- A `loop` word that passes the checks of R193: its level opens, or an empty one is skipped. -/
theorem openLevel_passes {s : State} {e : Env} {p : PLoop} {h : DWord} (nest : MayNest e p) (free : WindowFree e p)
    (label : HeaderAt s e p.fin h) :
    openLevel e s p =
      if p.n = 0 ∨ e.sh.exm = 0 then .placed (s.nextClause e (p.fin + 8 * ((Header.unpack h).n.setWidth 64 + 1)) id)
      else .placed (s.nextClause e e.sh.after fun sh =>
        { sh with
          ldep := sh.ldep + 1
          slots := sh.slots.put (e.sh.fbase + e.sh.ldep)
            { cnt := p.n, beg := sh.after, fin := p.fin, nst := p.stages, win := BitVec.ofNat 32 (256 * p.w + p.b), rot := 0,
              feed := sh.exm, park := 0 }
          lstg := lstgOf fun i => if sh.exm.getLsbD i then 1 else 0 }) := by
  obtain ⟨deep, single, within⟩ := nest
  obtain ⟨hc, ha, hf, hh⟩ := label
  have noStages := slots_any_false (q := fun sl => 1 < sl.nst) fun i hi => by
    simpa [BitVec.lt_def, BitVec.le_def] using single i hi
  have inside : ¬(e.sh.ldep ≠ 0 ∧ (p.fin < e.sh.inner.beg ∨ e.sh.inner.fin < p.fin)) := by
    rintro ⟨open', out⟩
    obtain ⟨lo, hi⟩ := within.resolve_left open'
    exact out.elim (fun h => BitVec.not_lt.2 lo h) fun h => BitVec.not_lt.2 hi h
  have window : ¬(p.w ≠ 0 ∧ (256 < p.b + p.w ∨ e.sh.alloc < p.b + p.w ∨
      (((List.range (min (e.sh.fbase + e.sh.ldep) 4)).map e.sh.slotAt).any fun sl =>
        sl.w != 0 && p.b < sl.b + sl.w && sl.b < p.b + p.w) = true)) := by
    rintro ⟨some', out⟩
    obtain ⟨regs, rows, apart⟩ := free.resolve_left some'
    have clear := slots_any_false (sh := e.sh) (q := fun sl => sl.w != 0 && p.b < sl.b + sl.w && sl.b < p.b + p.w) fun i hi => by
      rcases apart i hi with h | h | h
      · simp [h]
      · simp [Nat.not_lt.2 h]
      · simp [Nat.not_lt.2 h]
    rw [clear] at out
    rcases out with out | out | out
    · omega
    · omega
    · exact Bool.false_ne_true out
  have low : p.fin.extractLsb' 0 3 = 0 := (field_eq_zero p.fin 0 3).2 (by simpa using ha)
  have slot : ¬4 ≤ e.sh.fbase + e.sh.ldep := Nat.not_le.2 deep
  unfold openLevel
  simp only [slot, noStages, inside, window, hc, low, hf, hh, Bool.false_eq_true, not_true_eq_false, or_self, ne_eq, if_false,
    Bool.not_true]

/-- What a `loop` word that passes its checks leaves (R193). -/
theorem loopBackEdge_opens {s : State} {e : Env} {p : PLoop} {h : DWord} (L : Live s e) (hi : e.sh.idx = e.sh.hdr.n.toNat + 1)
    (hp : e.sh.pend = some p) (nest : MayNest e p) (free : WindowFree e p) (label : HeaderAt s e p.fin h) :
    Answers (exec .loopBackEdge s) fun t => Moves s t e fun sh =>
      if p.n = 0 ∨ sh.exm = 0 then sh.goto (p.fin + BitVec.ofNat 64 (8 * ((Header.unpack h).n.toNat + 1)))
      else { sh with
        ldep := sh.ldep + 1
        slots := sh.slots.put (sh.fbase + sh.ldep)
          ⟨p.n, nextHeader e, p.fin, BitVec.ofNat 4 (p.mod.toNat % 8 + 1), BitVec.ofNat 32 (256 * p.w + p.b), 0, sh.exm, 0⟩
        lstg := stages fun i => if sh.exm.getLsbD i then 1 else 0 }.goto (nextHeader e) := by
  refine ⟨_, loopBackEdge_some L hi hp, ?_⟩
  rw [openLevel_passes nest free label]
  by_cases empty : p.n = 0 ∨ e.sh.exm = 0
  · rw [if_pos empty, clause_bytes]
    refine Moves.congr (moves_sheet L _) ?_
    rw [if_pos empty]
    rfl
  · rw [if_neg empty, after_eq_nextHeader]
    refine Moves.congr (moves_sheet L _) ?_
    beta_reduce
    rw [if_neg empty, lstgOf_eq_stages, PLoop.stages_eq, after_eq_nextHeader]

/-! ### The back edge -/

/-- The innermost level's slot, of the sheet at its clause's end. -/
def innerSlot (e : Env) : Slot := e.sh.slotAt (e.sh.fbase + e.sh.ldep - 1)
/-- LCNT after the back edge (R194). -/
def nextCount (e : Env) : Word := if (innerSlot e).cnt = 0 then 0 else (innerSlot e).cnt - 1
/-- LSTG of a strand after the back edge (R194). -/
def nextStage (e : Env) (i : Nat) : BitVec 8 := (innerSlot e).shiftStage (nextCount e) (e.sh.lstg.get 0 i) i
/-- The strands that the back edge parks (R194). -/
def ranOut (e : Env) : Mask := bits96 fun i => e.sh.lstg.get 0 i ≠ 0 && nextStage e i = 0 && e.sh.exm.getLsbD i
/-- The sheet after the back edge's shift (R194). -/
def shifted (e : Env) (rot : BitVec 8) (sh : Sheet) : Sheet :=
  { sh with
    exm := sh.exm &&& ~~~ranOut e
    lstg := stages (nextStage e)
    slots := sh.slots.put (e.sh.fbase + e.sh.ldep - 1) { innerSlot e with cnt := nextCount e, rot, park := (innerSlot e).park ||| ranOut e } }
/-- LROT after the back edge (R194, R195). -/
def nextRot (e : Env) : BitVec 8 :=
  if (innerSlot e).w = 0 then (innerSlot e).rot else BitVec.ofNat 8 (((innerSlot e).rot.toNat + (innerSlot e).w - 1) % (innerSlot e).w)
/-- The shift as `backEdge` writes it, of the sheet at its clause's end or of one that differs in the marks of R59. -/
def edgeShift (e : Env) (rot : BitVec 8) (sh : Sheet) : Sheet :=
  let parked := maskOf (List.range 96) fun i => e.sh.lstg.get 0 i != 0 && nextStage e i == 0 && e.sh.exm.getLsbD i
  { sh with
    exm := sh.exm &&& ~~~parked
    lstg := lstgOf fun i => (innerSlot e).shiftStage (nextCount e) (sh.lstg.get 0 i) i
    slots := sh.slots.put (e.sh.fbase + e.sh.ldep - 1) { innerSlot e with cnt := nextCount e, rot, park := (innerSlot e).park ||| parked } }

theorem backEdge_eq (e : Env) (s : State) :
    backEdge e s =
      if ((List.range 96).map fun i => (i, nextStage e i)).all fun x => x.2 == 0 then
        .placed (s.nextClause e e.sh.after fun sh => (edgeShift e (innerSlot e).rot sh).close)
      else
        match s.edgeTarget e.r e.q.core e.q.ctx (innerSlot e).beg with
        | .bad => .trap s (e.trapAt cIllegalTarget (innerSlot e).beg (BitVec.ofNat 32 (e.sh.idx % 16)))
        | .miss => .wait s (.walk (innerSlot e).beg 127 true)
        | .ok =>
          let s' := s.setExm e.r fun sh =>
            { (edgeShift e (nextRot e) sh).goto (innerSlot e).beg with began := s.cycles e.q.core }
          .placed (if s.starving e then s'.leave else { s' with cur := none }) := rfl

theorem edgeShift_eq (e : Env) (rot : BitVec 8) : edgeShift e rot e.sh = shifted e rot e.sh := by
  have parked : (maskOf (List.range 96) fun i => e.sh.lstg.get 0 i != 0 && nextStage e i == 0 && e.sh.exm.getLsbD i) = ranOut e := by
    rw [maskOf_range, ranOut]
    congr 1
    funext i
    simp only [bne, beq_eq_decide, decide_not]

  rw [edgeShift, parked, lstgOf_eq_stages]
  rfl

theorem stages_all {f : Nat → BitVec 8} : ((List.range 96).map fun i => (i, f i)).all (fun x => x.2 == 0) = true ↔ ∀ i < 96, f i = 0 := by
  simp

/-- With no strand in a stage the level closes. -/
theorem backEdge_closes {s : State} {e : Env} (L : Live s e) (none' : ∀ i < 96, nextStage e i = 0) :
    Moves s (Eff.finish e (backEdge e s)) e fun sh => (shifted e (innerSlot e).rot sh).close.goto (nextHeader e) := by
  rw [backEdge_eq, if_pos (stages_all.2 none'), after_eq_nextHeader]
  refine Moves.congr (moves_sheet L _) ?_
  beta_reduce
  rw [edgeShift_eq]

/-- The sheet as a word that writes EXM begins with it: other words that write EXM are marked (R59). -/
def Sheet.marked (sh : Sheet) : Sheet := ((sh.race (.s 60)).race (.s 61)).race (.s 62)

theorem Sheet.marked_unmarked (sh : Sheet) : sh.marked.lls.map LL.unmarked = sh.lls.map LL.unmarked :=
  congrArg (·.lls) (show sh.marked.apart = sh.apart by simp [Sheet.marked])

/-- A sheet with other marks of R59 (R189). -/
theorem Moves.of_marked {s t : State} {e : Env} {f g : Sheet → Sheet} (M : Moves s t e f) {lls : List LL}
    (same : f e.sh = { g e.sh with lls }) (hl : lls.map LL.unmarked = (g e.sh).lls.map LL.unmarked) : Moves s t e g := by
  refine Moves.congr_apart M ?_ fun key => ?_
  · rw [same]
    simp only [Sheet.apart, hl]
  · rw [same]
    cases key <;> rfl

theorem edgeTarget_ok {s : State} {e : Env} {a h : DWord} (H : HeaderAt s e a h) : s.edgeTarget e.r e.q.core e.q.ctx a = .ok := by
  obtain ⟨hc, ha, hf, hh⟩ := H
  have low : a.extractLsb' 0 3 = 0 := (field_eq_zero a 0 3).2 (by simpa using ha)
  simp [State.edgeTarget, hc, low, hf, hh]

/-- With a strand in a stage the level begins another pass. -/
theorem backEdge_loops {s : State} {e : Env} {h : DWord} (L : Live s e) (some' : ∃ i < 96, nextStage e i ≠ 0)
    (H : HeaderAt s e (innerSlot e).beg h) :
    Moves s (Eff.finish e (backEdge e s)) e fun sh =>
      { (shifted e (nextRot e) sh).goto (innerSlot e).beg with began := s.cycles e.q.core } := by
  have more : ¬∀ i < 96, nextStage e i = 0 := by simpa using some'
  rw [backEdge_eq, if_neg (mt stages_all.1 more), edgeTarget_ok H]
  refine Moves.of_marked (f := fun sh => { (edgeShift e (nextRot e) (sh.marked)).goto (innerSlot e).beg with began := s.cycles e.q.core })
    (lls := e.sh.marked.lls) ?_ ?_ e.sh.marked_unmarked
  · show Moves s (if s.starving e then _ else _) e _
    split
    · exact moves_sheet L _
    · exact moves_sheet_kept L _
  · rw [← edgeShift_eq]
    rfl

/-! ### The statement -/

/-- Settles O24: past the clause, `loopBackEdge_opens`, `backEdge_closes` and `backEdge_loops`. -/
theorem clauseEnds : Obligations.ClauseEnds := by
  intro s e L hi j sl cnt lst gone
  refine ⟨fun hp h0 => ⟨_, loopBackEdge_none L hi hp, ?_⟩,
    fun p h hp deep label single within free => loopBackEdge_opens L hi hp ⟨deep, single, within⟩ free label,
    fun hp hle none' => ⟨_, loopBackEdge_none L hi hp, ?_⟩, fun h hp hle some' label => ⟨_, loopBackEdge_none L hi hp, ?_⟩⟩
  · rw [if_pos h0, after_eq_nextHeader]
    exact moves_sheet L _
  · rw [if_neg hle]
    refine Moves.congr (backEdge_closes L none') ?_
    rw [Sheet.close_eq_closed]
    rfl
  · rw [if_neg hle]
    exact backEdge_loops L some' label

end Sys2Proof.Machine
end

section
/-! PROOFS. The step of the sheet in issue (O55): what its fetch returns, what stands to be issued, and the step for each. -/

namespace Sys2Proof.Machine

open Sys2Proof.Claims

/-! ### Fetch -/

/-- With no store that a fetch need not see, it reads the bytes that stand there (R85). -/
theorem fetchPa_noStores {s : State} (h : s.stores = []) (r : SheetRef) (pa : Nat) :
    s.fetchPa r pa = BitVec.ofNat 64 (s.readNat pa 8) := by
  simp [State.fetchPa, h]

/-- A fetch that a TLB entry translates to memory that may be reached and is not re-keyed (R84). -/
theorem fetch_word {s : State} {core ctx : Nat} {va : DWord} {x : TlbEnt} (ht : s.tlb core ctx va = some x)
    (hx : leafX x.leaf = true) (hr : s.mayReach (s.ctx ctx).part (x.pa va) 8 false = true) (hk : s.rekeys = []) (r : SheetRef) :
    s.fetch r core ctx va = .word (s.fetchPa r (x.pa va)) := by
  simp [State.fetch, ht, hx, hr, State.rekeying, hk]

theorem fetchUe_none {s : State} {core ctx : Nat} {va : DWord} {x : TlbEnt} (ht : s.tlb core ctx va = some x)
    (hu : s.ue (x.pa va) 8 = false) : s.fetchUe core ctx va = none := by
  simp [State.fetchUe, ht, hu]

/-! ### What is issued -/

section
variable {s : State} {e : Env} (L : Live s e)
include L

theorem issuing_header (h : e.sh.idx = 0) : s.issuing = .header := by
  simp [State.issuing, show s.env? = some e from L, h]

theorem issuing_edge (h : e.sh.idx = e.sh.hdr.n.toNat + 1) : s.issuing = .edge := by
  simp [State.issuing, show s.env? = some e from L, h]

/-- A body word that is fetched without an error and decodes (R52, R55). -/
theorem issuing_word {w : DWord} {i : Instr} (h1 : 1 ≤ e.sh.idx) (hn : e.sh.idx ≤ e.sh.hdr.n.toNat)
    (hf : s.fetch e.r e.q.core e.q.ctx e.sh.pc = .word w) (hu : s.fetchUe e.q.core e.q.ctx e.sh.pc = none)
    (hd : decodeWord w = .ok i) : s.issuing = .word i (issueCycles e.sh i) := by
  have first : e.sh.idx ≠ 0 := Nat.ne_of_gt h1
  have last : e.sh.idx ≠ e.sh.hdr.n.toNat + 1 := Nat.ne_of_lt (Nat.lt_succ_of_le hn)
  simp [State.issuing, show s.env? = some e from L, first, last, hf, hu, hd]

end

/-! ### The step -/

theorem step_agenda {s : State} {a : Agenda} {rest : List Agenda} (h : s.agenda = a :: rest) :
    step s = exec a.what { (s.elapse (Config.tickParts * a.after)) with agenda := rest, free := s.free + 1 } := by
  simp [step, State.plan, h]

section
variable {s : State} (ha : s.agenda = [])
include ha

theorem step_header (h : s.issuing = .header) : step s = exec .clauseHeaderFetch s.ready := by
  simp [step, State.plan, ha, h]

theorem step_edge (h : s.issuing = .edge) : step s = exec .loopBackEdge s.ready := by
  simp [step, State.plan, ha, h]

theorem step_word {i : Instr} {n : Nat} (h : s.issuing = .word i n) :
    step s =
      match exec i s.ready with
      | .next t => .next (s.ready.wordTime t n)
      | .fault f => .fault f
      | .refused r => .refused r := by
  simp only [step, State.plan, ha, h] <;> rfl

end

/-- Settles O55: `step_word`, `step_header`, `step_edge` for what the sheet in issue stands at, and `step_agenda`. -/
theorem stepRunsDecodedWord : Obligations.StepRunsDecodedWord := by
  intro s e
  refine ⟨fun ha L => ⟨fun x i h1 hn ht hx hr hu hs hk hd => ?_, fun h => step_header ha (issuing_header L h),
    fun h => step_edge ha (issuing_edge L h)⟩, fun a rest h => step_agenda h⟩
  refine step_word ha (issuing_word L h1 hn (fetch_word ht hx hr hk e.r) (fetchUe_none ht hu) ?_)
  rw [fetchPa_noStores hs]
  exact hd

end Sys2Proof.Machine
end

section
/-! SUPPORT. Integer values: what the functions of values of R113 and R116 leave in a register, in the terms of the rules. -/

namespace Sys2Proof.Machine

open Sys2Proof.Claims

/-! ### Numbers in a register -/

@[simp] theorem loWord_wd (x : Word) : loWord (wd x) = x := by
  simp [loWord, wd]
theorem loWord_ofNat (n : Nat) : loWord (BitVec.ofNat 64 n) = BitVec.ofNat 32 n := by
  apply BitVec.eq_of_toNat_eq
  simp [loWord]
theorem loWord_low32 (x : Int) : loWord (low32 x) = BitVec.ofInt 32 x := by
  apply BitVec.eq_of_toNat_eq
  simp [loWord, low32, BitVec.toNat_ofInt]
  omega
theorem loWord_fit32 (t : Ty) (x : Int) : loWord (fit32 t false x) = BitVec.ofInt 32 x := loWord_wd _

/-- The two readings of a register agree but for the type of a pair. -/
theorem val32_eq_val {t : Ty} (h : t ≠ .i64) (x : DWord) : val32 t x = val t x := by
  unfold val32 val
  cases t <;> simp_all [Ty.signed, loWord, BitVec.toInt_eq_toNat_cond]
  omega
theorem val_i32 (x : DWord) : val .i32 x = (loWord x).toInt := (val32_eq_val (by decide) x).symm
theorem ofInt_val (t : Ty) (x : DWord) : BitVec.ofInt 32 (val t x) = loWord x := by
  apply BitVec.eq_of_toNat_eq
  rw [BitVec.toNat_ofInt, loWord, BitVec.toNat_setWidth]
  simp only [val]
  split <;> omega

theorem loWord_minBy {t : Ty} (h : t ≠ .i64) (a b : DWord) : loWord (minBy t a b) = loWord (low32 (min (val t a) (val t b))) := by
  rw [minBy, val32_eq_val h, val32_eq_val h, Int.min_def, loWord_low32]
  split <;> exact (ofInt_val t _).symm
theorem loWord_maxBy {t : Ty} (h : t ≠ .i64) (a b : DWord) : loWord (maxBy t a b) = loWord (low32 (max (val t a) (val t b))) := by
  rw [maxBy, val32_eq_val h, val32_eq_val h, Int.max_def, loWord_low32]
  split <;> exact (ofInt_val t _).symm

/-! ### Bits in a register -/

theorem getLsbD_ofBits {w : Nat} (hw : w ≤ 64) (p : Nat → Bool) (i : Nat) : (ofBits w p).getLsbD i = (decide (i < w) && p i) := by
  rw [ofBits, BitVec.getLsbD_ofNat]
  refine (congrArg _ (testBit_bitSum p w i)).trans ?_
  by_cases h : i < w
  · simp [h, Nat.lt_of_lt_of_le h hw]
  · simp [h]

/-- A value is the one whose bits are given. -/
theorem eq_ofBits {x : DWord} {p : Nat → Bool} (h : ∀ i < 64, x.getLsbD i = p i) : x = ofBits 64 p := by
  apply BitVec.eq_of_getLsbD_eq
  intro i hi
  rw [getLsbD_ofBits (Nat.le_refl 64), h i hi]
  simp [hi]
theorem and_eq_ofBits (a b : DWord) : a &&& b = ofBits 64 fun i => a.getLsbD i && b.getLsbD i := eq_ofBits fun _ _ => BitVec.getLsbD_and
theorem or_eq_ofBits (a b : DWord) : a ||| b = ofBits 64 fun i => a.getLsbD i || b.getLsbD i := eq_ofBits fun _ _ => BitVec.getLsbD_or
theorem xor_eq_ofBits (a b : DWord) : a ^^^ b = ofBits 64 fun i => a.getLsbD i ^^ b.getLsbD i := eq_ofBits fun _ _ => BitVec.getLsbD_xor
theorem not_eq_ofBits (a : DWord) : ~~~a = ofBits 64 fun i => !a.getLsbD i := eq_ofBits fun i hi => by simp [hi]
theorem andn_eq_ofBits (a b : DWord) : a &&& ~~~b = ofBits 64 fun i => a.getLsbD i && !b.getLsbD i :=
  eq_ofBits fun i hi => by rw [BitVec.getLsbD_and, BitVec.getLsbD_not]; simp [hi]

theorem countP_range_succ (p : Nat → Bool) (n : Nat) : (List.range (n + 1)).countP p = (List.range n).countP p + if p n then 1 else 0 := by
  rw [List.range_succ, List.countP_append, List.countP_singleton]

theorem popCount_eq (x : DWord) (w : Nat) : popCount x w = (List.range w).countP fun i => x.getLsbD i := by
  induction w with
  | zero => rfl
  | succ w ih => rw [popCount, ih, countP_range_succ]

theorem lowBits_succ (x : DWord) (w : Nat) : lowBits (w + 1) x = lowBits w x + if x.getLsbD w then 2 ^ w else 0 := by
  rw [lowBits, lowBits, Nat.mod_pow_succ, BitVec.getLsbD, Nat.testBit_eq_decide_div_mod_eq]
  rcases Nat.mod_two_eq_zero_or_one (x.toNat / 2 ^ w) with h | h <;> simp [h]

theorem leadingZeros_eq (x : DWord) (w : Nat) : leadingZeros x w = (List.range w).countP fun i => lowBits w x < 2 ^ i := by
  induction w with
  | zero => rfl
  | succ w ih =>
    have lt : lowBits w x < 2 ^ w := Nat.mod_lt _ (Nat.two_pow_pos w)
    rw [leadingZeros, lowBits_succ]
    split
    · refine (List.countP_eq_zero.2 fun i hi => ?_).symm
      have : 2 ^ i ≤ 2 ^ w := Nat.pow_le_pow_right (by decide) (Nat.le_of_lt_succ (List.mem_range.1 hi))
      simp
      omega
    · rw [Nat.add_zero, countP_range_succ, ih]
      simp [lt]

/-! ### Shifts of a register -/

theorem shlBy_b32 (a : DWord) (c : Nat) : shlBy .b32 a c = BitVec.ofNat 64 (lowBits 32 a * 2 ^ c % 2 ^ 32) := by
  show (if 32 ≤ c then 0 else wd (loWord (a <<< c))) = _
  split
  · rename_i h
    have whole : lowBits 32 a * 2 ^ c % 2 ^ 32 = 0 := Nat.mod_eq_zero_of_dvd ((Nat.pow_dvd_pow 2 h).mul_left _)
    rw [whole]
    rfl
  · apply BitVec.eq_of_toNat_eq
    simp [wd, loWord, lowBits, Nat.shiftLeft_eq, Nat.mod_mul_mod]
theorem shrBy_b32 (a : DWord) (c : Nat) : shrBy .b32 a c = BitVec.ofNat 64 (lowBits 32 a / 2 ^ c) := by
  show (if 32 ≤ c then 0 else wd (loWord a) >>> c) = _
  have lt : lowBits 32 a < 2 ^ 32 := Nat.mod_lt _ (by decide)
  split
  · rename_i h
    rw [Nat.div_eq_of_lt (Nat.lt_of_lt_of_le lt (Nat.pow_le_pow_right (by decide) h))]
    rfl
  · apply BitVec.eq_of_toNat_eq
    have low : (wd (loWord a)).toNat = lowBits 32 a := by
      simp [wd, loWord, lowBits]
      omega
    have le : lowBits 32 a / 2 ^ c ≤ lowBits 32 a := Nat.div_le_self _ _
    rw [BitVec.toNat_ushiftRight, low, Nat.shiftRight_eq_div_pow, BitVec.toNat_ofNat, Nat.mod_eq_of_lt (by omega)]
theorem loWord_sarBy_i32 (a : DWord) (c : Nat) : loWord (sarBy .i32 a c) = loWord (low32 (val .i32 a / 2 ^ c)) := by
  have shifted : ((loWord a).sshiftRight c).toInt = val .i32 a / 2 ^ c := by
    rw [BitVec.toInt_sshiftRight, Int.shiftRight_eq_div_pow, val_i32]
    norm_cast
  rw [loWord_low32, ← shifted, BitVec.ofInt_toInt]
  exact loWord_wd _
theorem rotlBy_b32 (a : DWord) (c : Nat) :
    rotlBy .b32 a c = ofBits 32 fun i => a.getLsbD ((i + 32 - c % 32) % 32) := by
  show wd ((loWord a).rotateLeft (c % 32)) = _
  have lt : c % 32 < 32 := Nat.mod_lt _ (by decide)
  generalize c % 32 = r at lt
  apply BitVec.eq_of_getLsbD_eq
  intro i hi
  rw [getLsbD_ofBits (by decide), wd, BitVec.getLsbD_setWidth, BitVec.getLsbD_rotateLeft, Nat.mod_eq_of_lt lt, loWord]
  by_cases h : i < r
  · have at' : (i + 32 - r) % 32 = 32 - r + i := by omega
    have : 32 - r + i < 32 := by omega
    simp [h, at', hi, this, Nat.lt_trans h lt]
  · by_cases w : i < 32
    · have at' : (i + 32 - r) % 32 = i - r := by omega
      have : i - r < 32 := by omega
      simp [h, at', hi, this, w]
    · simp [h, w]

end Sys2Proof.Machine
end

section
/-! PROOFS. Paired words (O19): each op gives its strand what the full instruction named gives it, and the word writes both. -/

namespace Sys2Proof.Machine

open Sys2Proof.Claims

/-! ### Sub-ops -/

/-- An X sub-op is the full instruction of R75. -/
theorem xFull_apply {n : Nat} (h : n ≤ 0x10) (a b d : DWord) :
    (xFull n).map (fun x => x.f a b d d) = if n = 0 then none else some (xOp n a b d) := by
  interval_cases n <;> rfl

/-- A result without conditions. -/
theorem some_word {x y : Word} (h : x = y) : some (x, (0 : Cond)) = some (y, 0) := by rw [h]

/-- A Y sub-op without conditions is the full instruction of R76. -/
theorem yFull_apply {n : Nat} (h0 : 1 ≤ n) (h : n ≤ 0x13) (i : Nat) (rd : Nat → Word) (a b : DWord) :
    (yFull n).map (fun f => (loWord (f a b), (0 : Cond))) = some (loWord (yOp n i rd a b).1, (yOp n i rd a b).2) := by
  have val (x : DWord) : val32 .i32 x = val .i32 x := val32_eq_val (by decide) x
  have fits {x y : Int} (hx : x = y) : loWord (low32 x) = loWord (fit32 .i32 false y) := by
    rw [hx, loWord_fit32, loWord_low32]
  interval_cases n
  · exact some_word (fits (congrArg₂ (· + ·) (val a) (val b)).symm)
  · exact some_word (fits (congrArg₂ (· - ·) (val a) (val b)).symm)
  · exact some_word (fits (congrArg₂ (· * ·) (val a) (val b)).symm)
  · exact some_word (loWord_minBy (by decide) a b).symm
  · exact some_word (loWord_maxBy (by decide) a b).symm
  · exact some_word (loWord_minBy (by decide) a b).symm
  · exact some_word (loWord_maxBy (by decide) a b).symm
  · exact some_word (congrArg loWord (and_eq_ofBits a b).symm)
  · exact some_word (congrArg loWord (or_eq_ofBits a b).symm)
  · exact some_word (congrArg loWord (xor_eq_ofBits a b).symm)
  · exact some_word (congrArg loWord (andn_eq_ofBits a b).symm)
  · exact some_word (congrArg loWord (shlBy_b32 a b.toNat).symm)
  · exact some_word (congrArg loWord (shrBy_b32 a b.toNat).symm)
  · exact some_word (loWord_sarBy_i32 a b.toNat).symm
  · exact some_word (congrArg loWord (rotlBy_b32 a b.toNat).symm)
  · rfl
  · exact some_word (congrArg loWord (not_eq_ofBits a).symm)
  · exact some_word (congrArg (fun n => loWord (BitVec.ofNat 64 n)) (popCount_eq a 32).symm)
  · exact some_word (congrArg (fun n => loWord (BitVec.ofNat 64 n)) (leadingZeros_eq a 32).symm)

/-- The strand that a shuffle of the whole sheet reads (R132). -/
theorem shflSource_idx {j : Nat} (hj : j < 96) (b : Word) : shflSource .idx 96 false j b = if b.toNat < 96 then some b.toNat else none := by
  simp [shflSource, Nat.mod_eq_of_lt hj]
theorem shflSource_xor {j : Nat} (hj : j < 96) (b : Word) :
    shflSource .xor 96 false j b = if j ^^^ b.toNat < 96 then some (j ^^^ b.toNat) else none := by
  simp [shflSource, Nat.mod_eq_of_lt hj]

theorem loWord_yOp_shflIdx {j : Nat} (hj : j < 96) (rd : Nat → Word) (a b : DWord) :
    loWord (yOp 0x16 j rd a b).1 = if (loWord b).toNat < 96 then rd (loWord b).toNat else loWord a := by
  by_cases h : (loWord b).toNat < 96 <;> simp [yOp, shflSource_idx hj, h]
theorem loWord_yOp_shflXor {j : Nat} (hj : j < 96) (rd : Nat → Word) (a b : DWord) :
    loWord (yOp 0x17 j rd a b).1 = if j ^^^ (loWord b).toNat < 96 then rd (j ^^^ (loWord b).toNat) else loWord a := by
  by_cases h : j ^^^ (loWord b).toNat < 96 <;> simp [yOp, shflSource_xor hj, h]

/-! ### Ops of a strand -/

/-- Register `n` of a strand as an op reads it. -/
def opIn (e : Env) (j : Nat) (n : BitVec 7) : DWord := wd (e.vAt n.toNat j)
/-- What the op X of a word gives a strand (R75). -/
def xGives (e : Env) (o : POp) (j : Nat) : DWord × Cond := xOp o.sub.toNat (opIn e j o.a) (opIn e j o.b) (opIn e j o.d)
/-- What the op Y of a word gives a strand (R76). -/
def yGives (e : Env) (o : POp) (j : Nat) : DWord × Cond :=
  yOp o.sub.toNat j (e.vAt o.a.toNat) (opIn e j o.a) (opIn e j o.b)

/-- The sub-op `nop` (R75, R76). -/
theorem sub_toNat_eq_zero (o : POp) : o.sub.toNat = 0 ↔ o.sub = 0 := ⟨fun h => BitVec.eq_of_toNat_eq h, fun h => by rw [h]; rfl⟩

theorem xResult_eq {o : POp} (h : o.sub.toNat ≤ 0x10) (e : Env) (j : Nat) :
    xResult e o j = if o.sub = 0 then none else some (loWord (xGives e o j).1, (xGives e o j).2) := by
  have full := congrArg (Option.map fun r : DWord × Cond => (loWord r.1, r.2)) (xFull_apply h (opIn e j o.a) (opIn e j o.b) (opIn e j o.d))
  rw [Option.map_map] at full
  refine full.trans ?_
  by_cases h0 : o.sub = 0
  · rw [if_pos h0, if_pos ((sub_toNat_eq_zero o).2 h0)]; rfl
  · rw [if_neg h0, if_neg (mt (sub_toNat_eq_zero o).1 h0)]; rfl

theorem yResult_eq {o : POp} (h : o.sub.toNat ≤ 0x18) (e : Env) {j : Nat} (hj : j < 96) :
    yResult e o j = if o.sub = 0 then none else some (loWord (yGives e o j).1, (yGives e o j).2) := by
  by_cases h0 : o.sub = 0
  · rw [if_pos h0, yResult, (sub_toNat_eq_zero o).2 h0]
    rfl
  have pos : 1 ≤ o.sub.toNat := Nat.pos_of_ne_zero (mt (sub_toNat_eq_zero o).1 h0)
  rw [if_neg h0, yGives, yResult]
  dsimp only
  split
  case h_1 n | h_2 n => rw [n]; rfl
  case h_3 n =>
    rw [n]
    refine some_word ((loWord_yOp_shflIdx hj _ _ _).trans ?_).symm
    rw [opIn, opIn, loWord_wd, loWord_wd]
    rfl
  case h_4 n =>
    rw [n]
    refine some_word ((loWord_yOp_shflXor hj _ _ _).trans ?_).symm
    rw [opIn, opIn, loWord_wd, loWord_wd]
    rfl
  case h_5 n =>
    rw [n]
    exact some_word (loWord_ofNat j).symm
  case h_6 =>
    have low : o.sub.toNat ≤ 0x13 := by grind
    exact yFull_apply pos low j _ _ _

/-! ### The word -/

/-- A sub-op of a well-formed paired word is none of the reserved ones (R74). -/
theorem Wf.pair_subs {w : FP} (h : Wf.pair w = true) : w.x.sub.toNat ≤ 0x10 ∧ w.y.sub.toNat ≤ 0x18 := by
  unfold Wf.pair at h
  split at h
  case h_2 => cases h
  case h_1 hx hy =>
    unfold Wf.xUse at hx
    unfold Wf.yUse at hy
    constructor
    · split at hx <;> grind
    · split at hy <;> grind

theorem vOk_append (sh : Sheet) (vs vs' : List (Nat × Nat)) : sh.vOk (vs ++ vs') = (sh.vOk vs && sh.vOk vs') := List.all_append
/-- An operand that is used or not. -/
theorem vOk_used {sh : Sheet} {n : Nat} (h : sh.vOk [(n, 1)] = true) (use : Bool) : sh.vOk [(n, if use then 1 else 0)] = true := by
  cases use
  · rfl
  · exact h
theorem vOk_pairVs {sh : Sheet} {o : POp} (h : ∀ n ∈ [o.d, o.a, o.b], sh.vOk [(n.toNat, 1)] = true) (use : Option (Bool × Bool × Bool)) :
    sh.vOk (pairVs o use) = true := by
  cases use with
  | none => rfl
  | some u =>
    obtain ⟨d, a, b⟩ := u
    show sh.vOk ([_] ++ ([_] ++ [_])) = true
    rw [vOk_append, vOk_append, vOk_used (h o.d (by simp)), vOk_used (h o.a (by simp)), vOk_used (h o.b (by simp))]
    rfl

/-- The conditions of both ops of a strand. -/
def pairCond (e : Env) (w : FP) (j : Nat) : Cond :=
  (((xResult e w.x j).map (·.2)).getD 0) ||| (((yResult e w.y j).map (·.2)).getD 0)
/-- What both ops write for a strand. -/
def pairWrites (e : Env) (w : FP) (j : Nat) : List (RegKey × Word) :=
  (xResult e w.x j).toList.map (fun r => (vreg e w.x.d.toNat j, r.1)) ++
    (yResult e w.y j).toList.map fun r => (vreg e w.y.d.toNat j, r.1)

theorem pairWrites_real {e : Env} {w : FP} {j : Nat} (hj : j < 96) : ∀ x ∈ pairWrites e w j, x.1.real := by
  intro x hx
  rcases List.mem_append.1 hx with hx | hx
  · obtain ⟨r, -, rfl⟩ := List.mem_map.1 hx; exact hj
  · obtain ⟨r, -, rfl⟩ := List.mem_map.1 hx; exact hj

/-- A paired word with its registers in the allocation raises the conditions of both ops, and writes what both give. -/
theorem exec_pairedWord {w : FP} {s : State} {e : Env} (hw : Wf.pair w = true) (L : Live s e)
    (hv : ∀ n ∈ [w.x.d, w.x.a, w.x.b, w.y.d, w.y.a, w.y.b], e.sh.vOk [(n.toNat, 1)] = true) :
    exec (.pairedWord w) s = .next ((condEff e s
      ((strandsOf (e.sh.active w.pg false)).map fun j => (j, pairCond e w j))
      fun s => s.writeRegs e.r ((strandsOf (e.sh.active w.pg false)).flatMap (pairWrites e w))).finish e) := by
  obtain ⟨hx, hy⟩ := Wf.pair_subs hw
  have rows : e.sh.vOk (pairVs w.x (Wf.xUse w.x.sub) ++ pairVs w.y (Wf.yUse w.y.sub)) = true := by
    rw [vOk_append, vOk_pairVs fun n hn => hv n (List.mem_append_left [w.y.d, w.y.a, w.y.b] hn),
      vOk_pairVs fun n hn => hv n (List.mem_append_right [w.x.d, w.x.a, w.x.b] hn)]
    rfl
  refine (issue_regs L _ rows).trans ?_
  have conds : ∀ j ∈ strandsOf (e.sh.active w.pg false),
      (if w.x.sub = 0 then 0 else (xGives e w.x j).2) ||| (if w.y.sub = 0 then 0 else (yGives e w.y j).2) = pairCond e w j := by
    intro j hj
    rw [pairCond, xResult_eq hx, yResult_eq hy e (strandsOf_lt hj)]
    split <;> split <;> rfl
  have writes : ∀ j ∈ strandsOf (e.sh.active w.pg false),
      (if w.x.sub = 0 then [] else [(.v (e.sh.resolve w.x.d.toNat) j, loWord (xGives e w.x j).1)]) ++
        (if w.y.sub = 0 then [] else [(.v (e.sh.resolve w.y.d.toNat) j, loWord (yGives e w.y j).1)]) = pairWrites e w j := by
    intro j hj
    rw [pairWrites, xResult_eq hx, yResult_eq hy e (strandsOf_lt hj)]
    split <;> split <;> rfl
  rw [← List.map_congr_left fun j hj => congrArg (Prod.mk j) (conds j hj), ← List.flatMap_congr writes]
  dsimp only
  rw [List.flatMap_map, List.map_map]
  rfl

/-! ### Conditions -/

/-- No condition that is raised traps. -/
theorem condTrap_none {st : Word} {raised : List (Nat × Cond)}
    (h : ∀ y ∈ condCauses, st.getLsbD y.1 = true → ∀ x ∈ raised, x.2.getLsbD y.1 = false) : condTrap st raised = none := by
  unfold condTrap
  rw [List.findSome?_eq_none_iff]
  intro y hy
  split
  · rename_i on
    rw [List.find?_eq_none.2 fun x hx => by rw [h y hy on x hx]; exact Bool.false_ne_true]
    rfl
  · rfl

/-- Settles O19: `exec_pairedWord`, whose conditions do not trap. -/
theorem pairedWords : Obligations.PairedWords := by
  intro w s e hw L hv js conds quiet
  refine ⟨_, exec_pairedWord hw L hv, ?_⟩
  rw [condEff_done _ (condTrap_none fun y hy on x hx => ?_)]
  · refine Acts.congr (acts_sheet_regs L _ _ fun x hx => ?_) ?_
    · obtain ⟨j, hj, hx⟩ := List.mem_flatMap.1 hx
      exact pairWrites_real (strandsOf_lt hj) x hx
    · show e.sh.raise (condAll _) = e.sh.raise _
      rw [condAll, List.foldl_map]
      exact congrArg _ (List.foldl_map ..).symm
  · obtain ⟨j, hj, rfl⟩ := List.mem_map.1 hx
    exact quiet y hy on _ (List.mem_map_of_mem hj)

end Sys2Proof.Machine
end

section
/-! SUPPORT. Patterns of the formats by their fields: sign, exponent and fraction, and the value that a pattern reads as, with its
class (R87-R90, R92, R123). -/

namespace Sys2Proof.Machine

open Sys2Proof.Claims

/-! ### Fields -/

/-- The formats of `fpTys` have the widths and the bias of R87, R89 and R90. -/
theorem fmt_widths {t : Ty} (h : t ∈ Wf.fpTys) :
    (Ty.fmt t).fb = fracBits t ∧ (Ty.fmt t).eb = expBits t ∧ (Ty.fmt t).bias = bias t := by
  fin_cases h <;> decide

/-- The value of a pattern with given fields (R88-R90). -/
def Fmt.valueOf (g : Fmt) (neg : Bool) (ex fr : Nat) : FV :=
  if ex = 2 ^ g.eb - 1 ∧ g.top = .ieee then if fr = 0 then .inf neg else .nan (!g.quiet && fr < 2 ^ (g.fb - 1))
  else if ex = 2 ^ g.eb - 1 ∧ fr = 2 ^ g.fb - 1 ∧ g.top = .e4m3 then .nan false
  else if ex = 0 then .fin neg fr (g.emin - g.fb)
  else .fin neg (fr + 2 ^ g.fb) (g.emin - g.fb + (ex - 1 : Nat))

/-- The exponent field of a register's low bits. -/
theorem mod_div_mod (n p q : Nat) : n % 2 ^ (p + q + 1) / 2 ^ p % 2 ^ q = n / 2 ^ p % 2 ^ q := by
  rw [show 2 ^ (p + q + 1) = 2 ^ p * 2 ^ (q + 1) by rw [← Nat.pow_add]; rfl, Nat.mod_mul_right_div_self,
    Nat.mod_mod_of_dvd _ (Nat.pow_dvd_pow 2 (Nat.le_succ q))]
theorem mod_mod_low (n p q : Nat) : n % 2 ^ (p + q + 1) % 2 ^ p = n % 2 ^ p :=
  Nat.mod_mod_of_dvd _ (Nat.pow_dvd_pow 2 (by omega))
/-- The sign of a register's low bits. -/
theorem mod_sign (a : DWord) (k : Nat) : decide (a.toNat % 2 ^ (k + 1) / 2 ^ k % 2 = 1) = a.getLsbD k := by
  rw [BitVec.getLsbD, Nat.testBit_eq_decide_div_mod_eq, Nat.pow_succ, Nat.mod_mul_right_div_self, Nat.mod_mod]

/-- What a register's low bits read as in a format (R88-R90, R92). -/
theorem Fmt.read_fields (g : Fmt) (ftz : Bool) (a : DWord) :
    g.read ftz (a.toNat % 2 ^ (g.signAt + 1)) =
      if ftz = true ∧ a.toNat / 2 ^ g.fb % 2 ^ g.eb = 0 ∧ a.toNat % 2 ^ g.fb ≠ 0 then .fin (a.getLsbD g.signAt) 0 0
      else g.valueOf (a.getLsbD g.signAt) (a.toNat / 2 ^ g.fb % 2 ^ g.eb) (a.toNat % 2 ^ g.fb) := by
  have ex : a.toNat % 2 ^ (g.signAt + 1) / 2 ^ g.fb % 2 ^ g.eb = a.toNat / 2 ^ g.fb % 2 ^ g.eb := mod_div_mod _ _ _
  have fr : a.toNat % 2 ^ (g.signAt + 1) % 2 ^ g.fb = a.toNat % 2 ^ g.fb := mod_mod_low _ _ _
  simp only [Fmt.read, Fmt.subnormal, Fmt.decode, Fmt.valueOf, ex, fr, mod_sign, Bool.and_eq_true, decide_eq_true_eq]

/-! ### Classes (R88, R89, R123) -/

/-- A pattern that is neither infinity nor NaN reads as a finite value. -/
theorem Fmt.valueOf_fin {g : Fmt} {ex fr : Nat} (h : ex = 2 ^ g.eb - 1 → g.top ≠ .ieee ∧ (fr = 2 ^ g.fb - 1 → g.top ≠ .e4m3)) (neg : Bool) :
    g.valueOf neg ex fr =
      if ex = 0 then .fin neg fr (g.emin - g.fb) else .fin neg (fr + 2 ^ g.fb) (g.emin - g.fb + (ex - 1 : Nat)) := by
  unfold Fmt.valueOf
  rw [if_neg fun c => (h c.1).1 c.2, if_neg fun c => (h c.1).2 c.2.1 c.2.2]

/-- Infinities and NaNs have the greatest exponent field (R88). -/
theorem Fmt.valueOf_top {g : Fmt} (h : g.top = .ieee) (neg : Bool) (fr : Nat) :
    g.valueOf neg (2 ^ g.eb - 1) fr = if fr = 0 then .inf neg else .nan (!g.quiet && fr < 2 ^ (g.fb - 1)) := if_pos ⟨rfl, h⟩
theorem Fmt.valueOf_flip (g : Fmt) (neg : Bool) (ex fr : Nat) : (g.valueOf neg ex fr).flip = g.valueOf (!neg) ex fr := by
  unfold Fmt.valueOf
  repeat' split
  all_goals rfl

/-- The class of a pattern by its fields (R123). -/
def classOf (t : Ty) (neg : Bool) (e f : Nat) : Nat :=
  if e = 0 ∧ f = 0 then if neg then 3 else 4
  else if e = 0 then if neg then 2 else 5
  else if t = .e4m3 then if e = 15 ∧ f = 7 then 9 else if neg then 1 else 6
  else if e < 2 ^ expBits t - 1 then if neg then 1 else 6
  else if f = 0 then if neg then 0 else 7
  else if t = .e5m2 ∨ 2 ^ (fracBits t - 1) ≤ f then 9 else 8

/-- The types with NaNs. -/
def nanTys : List Ty := [.f32, .f16, .bf16, .e4m3, .e5m2]

/-- A class with the value that belongs to it. -/
inductive Classed (neg : Bool) : Nat → FV → Prop where
  | signalling : Classed neg 8 (.nan true)
  | quiet : Classed neg 9 (.nan false)
  | infinite : Classed neg (if neg then 0 else 7) (.inf neg)
  | finite (c n : Nat) (e : Int) : c ∈ [1, 2, 3, 4, 5, 6] → Classed neg c (.fin neg n e)

/-- Infinities and NaNs of the formats that have both (R88, R89). -/
theorem classed_top {t : Ty} (h : t ∈ nanTys) (ty : t ≠ .e4m3) (neg : Bool) (f : Nat) :
    Classed neg (classOf t neg (2 ^ expBits t - 1) f) ((Ty.fmt t).valueOf neg (2 ^ expBits t - 1) f) := by
  have ieee : (Ty.fmt t).top = .ieee := by revert ty; fin_cases h <;> decide
  have width : (Ty.fmt t).eb = expBits t := by fin_cases h <;> rfl
  have pos : 2 ^ expBits t - 1 ≠ 0 := by fin_cases h <;> decide
  have quiet : (!(Ty.fmt t).quiet && decide (f < 2 ^ ((Ty.fmt t).fb - 1))) =
      !decide (t = .e5m2 ∨ 2 ^ (fracBits t - 1) ≤ f) := by
    have same : (Ty.fmt t).quiet = decide (t = .e5m2) ∧ (Ty.fmt t).fb = fracBits t := by revert ty; fin_cases h <;> decide
    rw [same.1, same.2, Bool.decide_or, Bool.not_or, ← decide_not, ← decide_not]
    simp only [Nat.not_le]
  rw [classOf, if_neg (fun c => pos c.1), if_neg pos, if_neg ty, if_neg (Nat.lt_irrefl _), ← width,
    Fmt.valueOf_top ieee, quiet]
  by_cases z : f = 0
  · rw [if_pos z, if_pos z]
    exact .infinite
  · rw [if_neg z, if_neg z]
    split
    · rename_i q; rw [decide_eq_true q]; exact .quiet
    · rename_i q; rw [decide_eq_false q]; exact .signalling

theorem classed_fields {t : Ty} (h : t ∈ nanTys) (neg : Bool) {e f : Nat} (he : e < 2 ^ expBits t) :
    Classed neg (classOf t neg e f) ((Ty.fmt t).valueOf neg e f) := by
  have width : (Ty.fmt t).eb = expBits t := by fin_cases h <;> rfl
  by_cases zero : e = 0
  · have low : (Ty.fmt t).valueOf neg e f = .fin neg f ((Ty.fmt t).emin - (Ty.fmt t).fb) := by
      rw [Fmt.valueOf_fin (fun c => absurd (zero.symm.trans c) (by fin_cases h <;> decide)), if_pos zero]
    rw [low, classOf]
    by_cases zf : f = 0
    · rw [if_pos ⟨zero, zf⟩]
      exact .finite _ _ _ (by cases neg <;> decide)
    · rw [if_neg fun c => zf c.2, if_pos zero]
      exact .finite _ _ _ (by cases neg <;> decide)
  · have normal (c : e = 2 ^ (Ty.fmt t).eb - 1 → (Ty.fmt t).top ≠ .ieee ∧ (f = 2 ^ (Ty.fmt t).fb - 1 → (Ty.fmt t).top ≠ .e4m3)) :
        Classed neg (if neg then 1 else 6) ((Ty.fmt t).valueOf neg e f) := by
      rw [Fmt.valueOf_fin c, if_neg zero]
      exact .finite _ _ _ (by cases neg <;> decide)
    by_cases ty : t = .e4m3
    · subst ty
      rw [classOf, if_neg (fun c => zero c.1), if_neg zero, if_pos rfl]
      split
      · rename_i top
        obtain ⟨rfl, rfl⟩ := top
        exact .quiet
      · rename_i top
        exact normal (by simpa [Ty.fmt, e4m3] using top)
    · by_cases top : e = 2 ^ expBits t - 1
      · rw [top]
        exact classed_top h ty neg f
      · have lt : e < 2 ^ expBits t - 1 := by omega
        rw [classOf, if_neg (fun c => zero c.1), if_neg zero, if_neg ty, if_pos lt]
        exact normal fun c => absurd (width ▸ c) top

/-- A register's low bits read as their class says (R88, R89, R123). -/
theorem classed_read {t : Ty} (h : t ∈ nanTys) (ftz : Bool) (a : DWord) :
    Classed (a.getLsbD (Ty.fmt t).signAt) (classBit t a) ((Ty.fmt t).read ftz (a.toNat % 2 ^ ((Ty.fmt t).signAt + 1))) := by
  obtain ⟨fb, eb, -⟩ := fmt_widths (t := t) (by fin_cases h <;> decide)
  have same : classBit t a = classOf t (a.getLsbD (Ty.fmt t).signAt) (expOf t a) (fracOf t a) := by
    rw [Fmt.signAt, fb, eb]; rfl
  have lt : expOf t a < 2 ^ expBits t := Nat.mod_lt _ (Nat.two_pow_pos _)
  have ex : a.toNat / 2 ^ (Ty.fmt t).fb % 2 ^ (Ty.fmt t).eb = expOf t a := by rw [fb, eb]; rfl
  have fr : a.toNat % 2 ^ (Ty.fmt t).fb = fracOf t a := by rw [fb]; rfl
  rw [same, Fmt.read_fields, ex, fr]
  split
  · rename_i z
    rw [classOf, if_neg (fun c => z.2.2 c.2), if_pos z.2.1]
    exact .finite _ _ _ (by cases a.getLsbD (Ty.fmt t).signAt <;> decide)
  · exact classed_fields h _ lt

theorem Classed.sig {neg : Bool} {c : Nat} {v : FV} (h : Classed neg c v) : v.sig = decide (c = 8) := by
  cases h with
  | signalling | quiet => rfl
  | infinite => cases neg <;> rfl
  | finite c n e hc => exact (decide_eq_false fun h => by subst h; revert hc; decide).symm
theorem Classed.isNan {neg : Bool} {c : Nat} {v : FV} (h : Classed neg c v) : v.isNan = (decide (c = 8) || decide (c = 9)) := by
  cases h with
  | signalling | quiet => rfl
  | infinite => cases neg <;> rfl
  | finite c n e hc => fin_cases hc <;> rfl
theorem Classed.isInf {neg : Bool} {c : Nat} {v : FV} (h : Classed neg c v) : v.isInf = decide (c ∈ [0, 7]) := by
  cases h with
  | signalling | quiet => rfl
  | infinite => cases neg <;> rfl
  | finite c n e hc => fin_cases hc <;> rfl

theorem Classed.eq_inf {neg : Bool} {c : Nat} {v : FV} (h : Classed neg c v) (hc : c ∈ [0, 7]) : v = .inf neg := by
  cases h with
  | signalling | quiet => exact absurd hc (by decide)
  | infinite => rfl
  | finite c n e h => fin_cases h <;> exact absurd hc (by decide)

/-! ### Operands of FP32 -/

theorem classed_rd32 (ftz : Bool) (x : DWord) : Classed (x.getLsbD 31) (classBit .f32 x) (rd32 ftz x) :=
  classed_read (t := .f32) (by decide) ftz x
@[simp] theorem sig_rd32 (ftz : Bool) (x : DWord) : (rd32 ftz x).sig = signal32 x := (classed_rd32 ftz x).sig
@[simp] theorem isNan_rd32 (ftz : Bool) (x : DWord) : (rd32 ftz x).isNan = nan32 x := (classed_rd32 ftz x).isNan
@[simp] theorem isInf_rd32 (ftz : Bool) (x : DWord) : (rd32 ftz x).isInf = decide (classBit .f32 x ∈ [0, 7]) :=
  (classed_rd32 ftz x).isInf

end Sys2Proof.Machine
end

section
/-! PROOFS. Words with conditions (O9): each runs as its row says. -/

namespace Sys2Proof.Machine

open Sys2Proof.Claims

/-- A conversion's field for the type of its source (R130). -/
theorem srcTy_of_tyCode {w : FR} {t : Ty} (h : Wf.tyCode t = Wf.srcCode w) : srcTy w = t := by
  rw [srcTy, ← h]
  cases t <;> rfl

/-- A conversion that is well-formed names types of its lists (R130). -/
theorem Wf.types_of_cvt {w : FR} {dst src : List Ty} {sat : Bool} (h : Wf.cvt w dst src sat = true) :
    w.ty ∈ dst ∧ srcTy w ∈ src := by
  simp only [Wf.cvt, Bool.and_eq_true, decide_eq_true_eq, List.any_eq_true] at h
  obtain ⟨⟨⟨⟨⟨-, hd⟩, t, ht, hc⟩, -⟩, -⟩, -⟩ := h
  exact ⟨hd, srcTy_of_tyCode hc ▸ ht⟩

theorem regsOf_int {t : Ty} (h : t ∈ [Ty.i32, .n32, .i64, .n64]) : regsOf t = t.regs := by
  fin_cases h <;> rfl

section
variable {i : Instr} {x : FRow}

/-- An FP32 word runs as its row says (R120, R121, R124). -/
theorem exec_fp32Row (h : fp32Row i = some x) (s : State) : exec i s = alu x.w x.nd x.na x.nb x.nc x.f s := by
  unfold fp32Row at h
  split at h
  case h_12 => cases h
  all_goals cases h; rfl

/-- A word of R125, R128, R129 or R130 runs as its row says. -/
theorem exec_floatRow (h : floatRow i = some x) (hw : i.wf = true) (s : State) :
    exec i s = alu x.w x.nd x.na x.nb x.nc x.f s := by
  unfold floatRow at h
  split at h
  case h_4 w =>
    split at h
    · cases h
    · rename_i ty
      cases h
      dsimp only [exec, execDot4]
      simp only [if_neg ty]
  case h_5 w =>
    split at h
    · cases h
    · rename_i ty
      cases h
      dsimp only [exec, execDot2]
      simp only [if_neg ty]
  case h_14 w =>
    cases h
    have types : Wf.cvt w [.i32, .n32, .i64, .n64] [.f32, .f16, .bf16] false = true := (Bool.and_eq_true_iff.1 hw).1
    dsimp only
    rw [regsOf_int (Wf.types_of_cvt types).1]
    rfl
  case h_15 w =>
    cases h
    have types : Wf.cvt w [.f32, .f16, .bf16] [.i32, .n32, .i64, .n64] false = true := (Bool.and_eq_true_iff.1 hw).1
    dsimp only
    rw [regsOf_int (Wf.types_of_cvt types).2]
    rfl
  case h_17 => cases h
  all_goals cases h; rfl

/-- A word with conditions runs as its row says. -/
theorem exec_condRow (h : condRow i = some x) (hw : i.wf = true) (s : State) :
    exec i s = alu x.w x.nd x.na x.nb x.nc x.f s := by
  rw [condRow, Option.or_eq_some_iff] at h
  rcases h with h | ⟨-, h⟩
  · exact exec_fp32Row h s
  · exact exec_floatRow h hw s

end

/-- Settles O9: a row's word is `alu` (`exec_condRow`), and its conditions trap nothing (`condTrap_none`). -/
theorem floatWords : Obligations.FloatWords := by
  intro i x s e h hw L hv cs quiet
  rw [exec_condRow h hw]
  exact alu_acts L hv (condTrap_none quiet)

end Sys2Proof.Machine
end

section
/-! SUPPORT. The fixed tree in which `lred` adds (R135): level by level it gives the sum of its two halves. -/

namespace Sys2Proof.Machine

open Sys2Proof.Claims

/-! ### The tree of R135 -/

/-- Two sums of the tree added, with their conditions and the step's. -/
def addBoth (step : Word → Word → Word × Cond) (x y : Word × Cond) : Word × Cond :=
  let r := step x.1 y.1
  (r.1, x.2 ||| y.2 ||| r.2)
/-- The sum of `2^n` leaves from leaf `b` on, each with conditions of its own. -/
def sumFrom (step : Word → Word → Word × Cond) (x : Nat → Word × Cond) : Nat → Nat → Word × Cond
  | 0, b => x b
  | n + 1, b => addBoth step (sumFrom step x n b) (sumFrom step x n (b + 2 ^ n))

theorem treeFrom_eq_sumFrom (x : Nat → Word) (n b : Nat) :
    treeFrom x n b = sumFrom (scanStep 0 .f32 false) (fun i => (x i, 0)) n b := by
  induction n generalizing b with
  | zero => rfl
  | succ n ih => rw [treeFrom, sumFrom, ih, ih]; rfl

section
variable (step : Word → Word → Word × Cond)

/-- The leaves of a tree taken in pairs. -/
theorem sumFrom_pairs (x : Nat → Word × Cond) (n b : Nat) :
    sumFrom step x (n + 1) (2 * b) = sumFrom step (fun i => addBoth step (x (2 * i)) (x (2 * i + 1))) n b := by
  induction n generalizing b with
  | zero => rfl
  | succ n ih =>
    rw [sumFrom, ih, show 2 * b + 2 ^ (n + 1) = 2 * (b + 2 ^ n) by omega, ih, sumFrom]

/-- The conditions of a list of leaves. -/
def condsOf (xs : List (Word × Cond)) : Cond := (xs.map (·.2)).foldr (· ||| ·) 0

/-- One level of the tree on leaves with conditions. -/
theorem pairUp_level (x : Nat → Word × Cond) (n b : Nat) :
    (pairUp step ((List.range (2 * n)).map fun i => (x (2 * b + i)).1)).1 =
        ((List.range n).map fun i => (addBoth step (x (2 * (b + i))) (x (2 * (b + i) + 1))).1) ∧
      (pairUp step ((List.range (2 * n)).map fun i => (x (2 * b + i)).1)).2 |||
          condsOf ((List.range (2 * n)).map fun i => x (2 * b + i)) =
        condsOf ((List.range n).map fun i => addBoth step (x (2 * (b + i))) (x (2 * (b + i) + 1))) := by
  induction n generalizing b with
  | zero => simp [pairUp, condsOf]
  | succ n ih =>
    have split {α : Type} (f : Nat → α) : (List.range (2 * (n + 1))).map (fun i => f (2 * b + i)) =
        f (2 * b) :: f (2 * b + 1) :: (List.range (2 * n)).map fun i => f (2 * (b + 1) + i) := by
      rw [show 2 * (n + 1) = 2 * n + 1 + 1 by omega, List.range_succ_eq_map, List.range_succ_eq_map]
      simp only [List.map_cons, List.map_map, Nat.add_zero, List.cons.injEq, true_and]
      exact List.map_congr_left fun i _ => congrArg f (by rw [Function.comp_apply]; omega)
    have half {α : Type} (f : Nat → α) : (List.range (n + 1)).map (fun i => f (b + i)) =
        f b :: (List.range n).map fun i => f (b + 1 + i) := by
      rw [List.range_succ_eq_map]
      simp only [List.map_cons, List.map_map, Nat.add_zero, List.cons.injEq, true_and]
      exact List.map_congr_left fun i _ => congrArg f (by simp only [Nat.succ_eq_add_one]; omega)
    obtain ⟨vals, conds⟩ := ih (b + 1)
    rw [split fun i => (x i).1, split x, half fun i => (addBoth step (x (2 * i)) (x (2 * i + 1))).1,
      half fun i => addBoth step (x (2 * i)) (x (2 * i + 1))]
    refine ⟨?_, ?_⟩
    · simp only [pairUp, vals]
      rfl
    · simp only [condsOf, List.map_cons, List.foldr_cons] at conds ⊢
      rw [← conds]
      simp only [pairUp, addBoth]
      ac_rfl

/-- `n` levels of the tree over `2^n` leaves give their sum; with the conditions of the leaves, its conditions (R135). -/
theorem tree_sumFrom (n : Nat) (x : Nat → Word × Cond) (b : Nat) :
    (tree step n ((List.range (2 ^ n)).map fun i => (x (2 ^ n * b + i)).1)).1 = [(sumFrom step x n (2 ^ n * b)).1] ∧
      (tree step n ((List.range (2 ^ n)).map fun i => (x (2 ^ n * b + i)).1)).2 |||
          condsOf ((List.range (2 ^ n)).map fun i => x (2 ^ n * b + i)) =
        (sumFrom step x n (2 ^ n * b)).2 := by
  induction n generalizing x with
  | zero => simp [tree, condsOf, sumFrom]
  | succ n ih =>
    have double : 2 ^ (n + 1) * b = 2 * (2 ^ n * b) := by rw [Nat.pow_succ]; ring
    obtain ⟨vals, conds⟩ := pairUp_level step x (2 ^ n) (2 ^ n * b)
    obtain ⟨top, all⟩ := ih fun i => addBoth step (x (2 * i)) (x (2 * i + 1))
    rw [double, sumFrom_pairs, show 2 ^ (n + 1) = 2 * 2 ^ n by rw [Nat.pow_succ]; omega]
    simp only [tree, vals]
    refine ⟨top, ?_⟩
    rw [← all, ← conds]
    ac_rfl

end

theorem condsOf_zero (f : Nat → Word) (n b : Nat) : condsOf ((List.range n).map fun i => (f (b + i), 0)) = 0 := by
  have : ∀ xs : List Nat, condsOf (xs.map fun i => (f (b + i), 0)) = 0 := by
    intro xs
    induction xs with
    | nil => rfl
    | cons i xs ih => rw [List.map_cons, condsOf, List.map_cons, List.foldr_cons]; simpa [condsOf] using ih
  exact this _

/-- A beat of 32 strands in the tree of R135. -/
theorem tree_beat (x : Nat → Word) (b : Nat) :
    tree (scanStep 0 .f32 false) 5 ((List.range 32).map fun i => x (32 * b + i)) =
      ([(treeFrom x 5 (32 * b)).1], (treeFrom x 5 (32 * b)).2) := by
  obtain ⟨vals, conds⟩ := tree_sumFrom (scanStep 0 .f32 false) 5 (fun i => (x i, 0)) b
  rw [condsOf_zero] at conds
  change _ ||| 0#7 = _ at conds
  rw [BitVec.or_zero] at conds
  rw [treeFrom_eq_sumFrom]
  exact Prod.ext vals conds

/-- The sum of 96 strands (R135). -/
theorem treeSum_eq (x : Nat → Word) :
    treeSum x = joined (joined (treeFrom x 5 0) (treeFrom x 5 32)) (treeFrom x 5 64) := by
  unfold treeSum
  simp only [tree_beat, List.head?_cons, Option.getD_some, joined]
  rw [Nat.mul_zero, Nat.mul_one, show 32 * 2 = 64 from rfl]
  refine Prod.ext rfl ?_
  dsimp only
  ac_rfl

end Sys2Proof.Machine
end

section
/-! PROOFS. Conditions that trap (O10): the conditions that each word raises, and which of them traps. -/

namespace Sys2Proof.Machine

open Sys2Proof.Claims

/-! ### The trap of R100 -/

theorem condCauses_sorted : condCauses.Pairwise fun x y => x.2 < y.2 := by decide

/-- The lowest enabled cause that is raised traps, at the lowest strand that raised it, where the strands ascend (R100). -/
theorem condTrap_lowest {strap : Word} {cs : List (Nat × Cond)} {bit : Nat} {cause : BitVec 8} {l : Nat × Cond}
    (sorted : cs.Pairwise fun x y => x.1 < y.1) (hc : (bit, cause) ∈ condCauses) (on : strap.getLsbD bit = true) (hl : l ∈ cs)
    (hr : l.2.getLsbD bit = true) (least : ∀ m ∈ cs, m.2.getLsbD bit = true → l.1 ≤ m.1)
    (quiet : ∀ y ∈ condCauses, y.2 < cause → strap.getLsbD y.1 = true → ∀ z ∈ cs, z.2.getLsbD y.1 = false) :
    condTrap strap cs = some (cause, l.1) := by
  obtain ⟨before, after, split⟩ := List.append_of_mem hc
  have lower : ∀ y ∈ before, y.2 < cause := by
    have := condCauses_sorted
    rw [split, List.pairwise_append] at this
    obtain ⟨-, -, cross⟩ := this
    exact fun y hy => cross y hy _ List.mem_cons_self
  have first : cs.find? (fun x => x.2.getLsbD bit) = some l := by
    obtain ⟨pre, post, hcs⟩ := List.append_of_mem hl
    rw [List.find?_eq_some_iff_append]
    refine ⟨hr, pre, post, hcs, fun m hm => ?_⟩
    rw [hcs, List.pairwise_append] at sorted
    obtain ⟨-, -, cross⟩ := sorted
    have lt : m.1 < l.1 := cross m hm l List.mem_cons_self
    have mem : m ∈ cs := hcs ▸ List.mem_append_left _ hm
    simpa using fun raised => Nat.not_le.2 lt (least m mem raised)
  have skip : before.findSome? (fun c => if strap.getLsbD c.1 then (cs.find? fun x => x.2.getLsbD c.1).map fun x => (c.2, x.1)
      else none) = none := by
    rw [List.findSome?_eq_none_iff]
    intro y hy
    split
    · rename_i h
      have mem : y ∈ condCauses := split ▸ List.mem_append_left _ hy
      rw [List.find?_eq_none.2 fun z hz => by rw [quiet y mem (lower y hy) h z hz]; exact Bool.false_ne_true]
      rfl
    · rfl
  unfold condTrap
  rw [split, List.findSome?_append, skip, Option.none_or, List.findSome?_cons]
  simp only [on, if_true, first, Option.map_some]

/-! ### The strands of a word ascend (R110) -/

theorem strandsOf_sorted (m : Mask) : (strandsOf m).Pairwise (· < ·) := List.pairwise_lt_range.filter _

theorem Env.lanes_sorted (e : Env) (c : Com) : (e.lanes c).Pairwise fun x y => laneNo x < laneNo y := by
  unfold Env.lanes
  split
  · exact List.pairwise_singleton _ _
  · exact List.pairwise_map.2 (strandsOf_sorted _)

/-! ### Scans -/

theorem sel3 (v : BitVec 9) : (v.extractLsb' 0 3).toNat = v.toNat % 8 := by
  rw [BitVec.extractLsb'_toNat, Nat.shiftRight_zero]

/-- The conditions of a scan, from a value that the strands in `pre` have given (R134). -/
theorem scanRun_conds (step : Word → Word → Word × Cond) (excl : Bool) (v : Nat → Word) (a : Word) {xs pre : List Nat}
    (h : (pre ++ xs).Pairwise (· < ·)) :
    (scanRun step excl (pre.foldl (fun x j => (step x (v j)).1) a) (xs.map fun j => (j, v j))).map (fun r => (r.1, r.2.2)) =
      xs.map fun j => (j, (step (((pre ++ xs).filter (· < j)).foldl (fun x j => (step x (v j)).1) a) (v j)).2) := by
  induction xs generalizing pre with
  | nil => rfl
  | cons i xs ih =>
    have here : (pre ++ i :: xs).filter (· < i) = pre := by
      rw [List.pairwise_append, List.pairwise_cons] at h
      obtain ⟨-, ⟨later, -⟩, earlier⟩ := h
      have hp : pre.filter (· < i) = pre := List.filter_eq_self.2 fun j hj => decide_eq_true (earlier j hj i List.mem_cons_self)
      have hx : xs.filter (· < i) = [] := List.filter_eq_nil_iff.2 fun j hj => by have := later j hj; simp; omega
      simp [hp, hx]
    have rest := ih (pre := pre ++ [i]) (by simpa using h)
    simp only [List.append_assoc, List.singleton_append, List.foldl_append, List.foldl_cons, List.foldl_nil] at rest
    simp only [List.map_cons, scanRun, rest, here]

/-! ### What a word raises -/

/-- A word raises conditions, and writes when none of them traps (R98, R100). -/
def Raises (o : Out) (s : State) (e : Env) (cs : List (Nat × Cond)) : Prop :=
  (cs.Pairwise fun x y => x.1 < y.1) ∧ ∃ write, o = .next ((condEff e s cs write).finish e)

theorem raises_of {o : Out} {s : State} {e : Env} {cs cs' : List (Nat × Cond)} {write : State → State}
    (sorted : cs.Pairwise fun x y => x.1 < y.1) (h : o = .next ((condEff e s cs' write).finish e)) (hc : cs' = cs) :
    Raises o s e cs := ⟨sorted, write, hc ▸ h⟩

theorem raises_alu {w : FR} {nd na nb nc : Nat} {f : DWord → DWord → DWord → DWord → DWord × Cond} {s : State} {e : Env}
    (L : Live s e) (hv : e.sh.vOk (aluVs w nd na nb nc) = true) :
    Raises (alu w nd na nb nc f s) s e (aluConds e w nd na nb nc fun a b c d => (f a b c d).2) :=
  raises_of (List.pairwise_map.2 (e.lanes_sorted _)) (alu_next L hv) rfl

/-- The conditions of `fcmp` (R122). -/
theorem raises_fcmp {w : FR} {s : State} {e : Env} (hw : (Instr.fcmp w).wf = true) (L : Live s e)
    (hv : e.sh.vOk (vsOf w.com [(w.a.toNat, 1), (w.b.toNat, 1)]) = true) :
    Raises (exec (.fcmp w) s) s e ((e.lanes w.com).map fun l =>
      (laneNo l, if (if 2 ≤ w.subf.toNat % 8 ∧ w.subf.toNat % 8 ≤ 5 then
        nan32 (e.opnd l 1 w.a.toNat) || nan32 (e.opnd l 1 w.b.toNat)
        else signal32 (e.opnd l 1 w.a.toNat) || signal32 (e.opnd l 1 w.b.toNat)) then Cond.nv else 0)) := by
  refine raises_of (List.pairwise_map.2 (e.lanes_sorted _)) (issue_regs L _ hv) ?_
  have code : w.subf.toNat % 8 = w.subf.toNat := by
    simp only [Instr.wf, Bool.and_eq_true, decide_eq_true_eq] at hw
    obtain ⟨⟨⟨⟨⟨-, le⟩, -⟩, -⟩, -⟩, -⟩ := hw
    exact Nat.mod_eq_of_lt (Nat.lt_succ_of_le le)
  simp only [List.map_map, fcmpHolds, isNan_rd32, sig_rd32, code]
  rfl

/-- The conditions of `scan` (R134). -/
theorem raises_scan {w : FR} {s : State} {e : Env} (L : Live s e) (hv : e.sh.vOk [(w.d.toNat, 1), (w.a.toNat, 1)] = true) :
    Raises (exec (.scan w) s) s e ((act e w.com).map fun j => (j, scanCond e w j)) := by
  refine raises_of (List.pairwise_map.2 (strandsOf_sorted _)) (issue_regs L _ hv) ?_
  rw [sel3]
  exact scanRun_conds (scanStep (w.subf.toNat % 8) w.ty (w.subf.getLsbD 4)) (w.subf.getLsbD 3)
    (e.vAt w.a.toNat) (scanId (w.subf.toNat % 8) w.ty) (xs := act e w.com) (pre := []) (strandsOf_sorted _)

theorem mem_strandsOf {m : Mask} {j : Nat} : j ∈ strandsOf m ↔ m.getLsbD j = true := by
  rw [strandsOf, List.mem_filter, List.mem_range]
  exact ⟨fun h => h.2, fun h => ⟨by_contra fun ge => by simp [BitVec.getLsbD_of_ge _ _ (Nat.not_lt.1 ge)] at h, h⟩⟩
/-- All strands of a sheet. -/
theorem strandsOf_full {m : Mask} (h : (strandsOf m).length = 96) : strandsOf m = List.range 96 :=
  List.filter_eq_self.2 (List.length_filter_eq_length_iff.1 (h.trans List.length_range.symm))

/-- Values combined strand by strand (R135). -/
theorem redFold_map (op : Nat) (ty : Ty) (num : Bool) (a : Word) (v : Nat → Word) (js : List Nat) :
    redFold op ty num a (js.map v) =
      js.foldl (fun x j => ((scanStep op ty num x.1 (v j)).1, x.2 ||| (scanStep op ty num x.1 (v j)).2)) (a, 0) := List.foldl_map ..

/-- The value of `lred` and its conditions (R135). -/
theorem lredOf_eq (e : Env) (w : FR) :
    lredOf e w =
      if w.subf.toNat % 8 = 0 ∧ w.ty = .f32 then
        treeSum fun i => if (e.sh.active w.com.gsel w.com.neg).getLsbD i then e.vAt w.a.toNat i else 0x80000000
      else if (act e w.com).length = 96 then
        redFold (w.subf.toNat % 8) w.ty (w.subf.getLsbD 4) (((act e w.com).map (e.vAt w.a.toNat)).headD 0)
          ((act e w.com).map (e.vAt w.a.toNat)).tail
      else redFold (w.subf.toNat % 8) w.ty (w.subf.getLsbD 4) (scanId (w.subf.toNat % 8) w.ty) ((act e w.com).map (e.vAt w.a.toNat)) := by
  have active (j : Nat) : (act e w.com).contains j = (e.sh.active w.com.gsel w.com.neg).getLsbD j := by
    rw [Bool.eq_iff_iff, List.contains_iff_mem, act, mem_strandsOf]
  unfold lredOf
  split
  · simp only [treeSum_eq, active]
    rfl
  · split
    · rename_i full
      rw [act, strandsOf_full full, ← List.map_tail, redFold_map]
      rfl
    · rw [redFold_map]
      rfl

/-- The condition of `lred` (R135). -/
theorem raises_lred {w : FR} {s : State} {e : Env} (L : Live s e) (hv : e.sh.vOk [(w.d.toNat, 1), (w.a.toNat, 1)] = true) :
    Raises (exec (.lred w) s) s e (if act e w.com = [] then [] else [(127, (lredOf e w).2)]) := by
  refine raises_of (by split <;> simp) (issue_regs L _ hv) ?_
  simp only [lredOf_eq, sel3, List.isEmpty_iff]
  rfl

/-- The conditions of a paired word (R143). -/
theorem raises_pairedWord {w : FP} {s : State} {e : Env} (hw : (Instr.pairedWord w).wf = true) (L : Live s e)
    (hv : ∀ n ∈ [w.x.d, w.x.a, w.x.b, w.y.d, w.y.a, w.y.b], e.sh.vOk [(n.toNat, 1)] = true) :
    Raises (exec (.pairedWord w) s) s e ((strandsOf (e.sh.active w.pg false)).map fun j => (j, pairCond e w j)) :=
  raises_of (List.pairwise_map.2 (strandsOf_sorted _)) (exec_pairedWord hw L hv) rfl

/-- Each word with conditions raises what its rule says. -/
theorem raises_spec {i : Instr} {s : State} {e : Env} {cs : List (Nat × Cond)} (hw : i.wf = true) (L : Live s e)
    (h : raises e i = some cs) : Raises (exec i s) s e cs := by
  unfold raises at h
  split at h
  case h_1 w =>
    obtain ⟨hv, ⟨⟩⟩ := Option.ite_none_right_eq_some.1 h
    exact raises_fcmp hw L hv
  case h_2 w =>
    obtain ⟨hv, ⟨⟩⟩ := Option.ite_none_right_eq_some.1 h
    exact raises_scan L hv
  case h_3 w =>
    obtain ⟨hv, ⟨⟩⟩ := Option.ite_none_right_eq_some.1 h
    exact raises_lred L hv
  case h_4 w =>
    obtain ⟨hv, ⟨⟩⟩ := Option.ite_none_right_eq_some.1 h
    exact raises_pairedWord hw L (List.all_eq_true.1 hv)
  case h_5 =>
    obtain ⟨x, hx, h⟩ := Option.bind_eq_some_iff.1 h
    obtain ⟨hv, ⟨⟩⟩ := Option.ite_none_right_eq_some.1 h
    rw [exec_condRow hx hw]
    exact raises_alu L hv

/-- Settles O10: each word raises the conditions of its rule (`raises_spec`), and the lowest enabled one traps
(`condTrap_lowest`). -/
theorem conditionTraps : Obligations.ConditionTraps := by
  intro i s e cs bit cause l hw L hr hc on hl raised least quiet
  obtain ⟨sorted, write, run⟩ := raises_spec hw L hr
  rw [run, condEff_trap write (condTrap_lowest sorted hc on hl raised least quiet)]
  rfl

end Sys2Proof.Machine
end

section
/-! PROOFS. Generators (O18): the words of `rng`, and the outstanding destinations of `noise` and `noise.st`. -/

namespace Sys2Proof.Machine

open Sys2Proof.Claims

/-- `rng` writes four words to each active strand (R140). -/
theorem rng_acts {w : FR} {s : State} {e : Env} (L : Live s e) (hv : e.sh.vOk [(w.d.toNat, 4), (w.a.toNat, 4)] = true) :
    Answers (exec (.rng w) s) fun t =>
      Acts s t e ((act e w.com).flatMap fun j => (List.range 4).map fun k => (vreg e (w.d.toNat + k) j,
        (rngWords (e.u w.b.toNat) (e.u (w.b.toNat + 1)) (vval e w.a.toNat j) (vval e (w.a.toNat + 1) j)
          (vval e (w.a.toNat + 2) j) (vval e (w.a.toNat + 3) j)).getD k 0)) id 0 := by
  refine ⟨_, issue_regs L _ hv, acts_regs L _ fun x hx => ?_⟩
  obtain ⟨j, hj, hx⟩ := List.mem_flatMap.1 hx
  obtain ⟨k, -, rfl⟩ := List.mem_map.1 hx
  exact strandsOf_lt hj

/-- A long-latency word with one register for each issuer leaves it outstanding (R58). -/
theorem llWord_acts {w : FR} {noise : Bool} {val : State → Env → Option Word} {s : State} {e : Env} (L : Live s e)
    (hv : e.sh.vOk (vsOf w.com [(w.d.toNat, 1)]) = true) (hf : e.flagRoom w.com.fs) :
    Answers (llWord w noise val s) fun t => Acts s t e [] (·.llOpen
      (held s e w.com.fs ((e.lanes w.com).map fun l => (e.key l w.d.toNat, val { s with next := s.next + 1 } e)) noise)) 1 := by
  refine ⟨_, issue_ll L _ hv hf, (acts_next L _ 1).congr ?_⟩
  simp only [held, List.map_map]
  rfl

theorem exec_noise (w : FR) (s : State) : exec (.noise w) s = llWord w true (fun _ _ => none) s := rfl
theorem exec_noiseSt (w : FR) (s : State) :
    exec (.noiseSt w) s = llWord w false (fun s e => some (if (s.die (dieOf e.q.core)).noiseFail then 1 else 0)) s := rfl

/-- Settles O18: `rng_acts`, and `llWord_acts` for `noise` and `noise.st`. -/
theorem generators : Obligations.Generators := by
  intro w s e L
  refine ⟨fun hv => rng_acts L hv, fun hv hf => ⟨?_, ?_⟩⟩
  · rw [exec_noise]
    exact llWord_acts L hv hf
  · rw [exec_noiseSt]
    exact llWord_acts L hv hf

end Sys2Proof.Machine
end

section
/-! PROOFS. Writes of system registers (O32): what `wrsr` does to its sheet, index by index. -/

namespace Sys2Proof.Machine

open Sys2Proof.Claims

theorem setHalf_low (x : DWord) (v : Word) : setHalf x 0 v = lowHalf x v := by
  apply BitVec.eq_of_toNat_eq
  have hx := x.isLt
  have hv := v.isLt
  simp only [setHalf, joinWords, hiWord, lowHalf, if_true, BitVec.toNat_append, BitVec.toNat_setWidth, BitVec.toNat_ushiftRight,
    BitVec.toNat_ofNat, Nat.shiftRight_eq_div_pow]
  rw [← Nat.shiftLeft_add_eq_or_of_lt hv, Nat.shiftLeft_eq]
  omega
theorem setHalf_high (x : DWord) (v : Word) : setHalf x 1 v = highHalf x v := by
  apply BitVec.eq_of_toNat_eq
  have hv := v.isLt
  have lt : x.toNat % 2 ^ 32 < 2 ^ 32 := Nat.mod_lt _ (by decide)
  simp only [setHalf, joinWords, loWord, highHalf, one_ne_zero, if_false, BitVec.toNat_append, BitVec.toNat_setWidth,
    BitVec.toNat_ofNat]
  rw [← Nat.shiftLeft_add_eq_or_of_lt lt, Nat.shiftLeft_eq]
  omega

/-- The contents that `srSet` lists are those that `wrsr` leaves (R206, R208). -/
theorem srWrite_of_srSet (v : Word) (sh : Sheet) : ∀ x ∈ srSet v sh, sh.srWrite x.1 v = x.2 := by
  simp only [srSet, List.forall_mem_cons, ← setHalf_low, ← setHalf_high]
  exact ⟨rfl, rfl, rfl, rfl, rfl, rfl, rfl, rfl, rfl, rfl, rfl, rfl, rfl, rfl, rfl, rfl, rfl, rfl, fun _ h => absurd h List.not_mem_nil⟩

/-- A `wrsr` that acts on its own sheet alone: it writes the sheet, or traps on a value that breaks a limit (R206). -/
theorem exec_wrsr_sheet {w : FI} {s : State} {e : Env} (L : Live s e) (hk : srKnown w.imm.toNat = true)
    (hp : w.imm.toNat < 0x800 ∨ (e.cx.desc.priv = true ∧ w.imm.toNat ∉ [0x812, 0x820, 0x840])) :
    exec (.wrsr w) s = .next (match e.sh.srWrite w.imm.toNat (e.u w.a.toNat) with
      | some sh => (s.modSheet e.r fun _ => sh).advance e
      | none => s.trap e.r (refused e 0x02)) := by
  refine (issue_plain L _).trans ?_
  have allowed : ¬(0x800 ≤ w.imm.toNat ∧ ¬e.cx.desc.priv = true) := fun ⟨ge, np⟩ =>
    hp.elim (fun lt => Nat.not_le.2 lt ge) fun h => np h.1
  have own : w.imm.toNat ≠ 0x812 ∧ w.imm.toNat ≠ 0x820 ∧ w.imm.toNat ≠ 0x840 := by
    rcases hp with lt | ⟨-, other⟩
    · omega
    · simpa using other
  simp only [hk, allowed, own, Bool.not_true, Bool.false_eq_true, if_false]
  cases e.sh.srWrite w.imm.toNat (e.u w.a.toNat) <;> rfl

/-- Settles O32: `exec_wrsr_sheet` for the word, `srWrite_of_srSet` for the contents. -/
theorem systemRegisterWrites : Obligations.SystemRegisterWrites := by
  intro w s e L hk hp
  refine ⟨fun sh h => ?_, fun h => ?_, srWrite_of_srSet _ _⟩
  · rw [exec_wrsr_sheet L hk hp, h]
    exact ⟨_, rfl, acts_sheet L _⟩
  · rw [exec_wrsr_sheet L hk hp, h]

end Sys2Proof.Machine
end

section
/-! SUPPORT. Rounding where it is exact or overflows (R91, R92): a binade's numbers by their leading bit. -/

namespace Sys2Proof.Machine

open Sys2Proof.Claims

/-! ### Rounding to a multiple of a power of two -/

/-- Nothing is rounded off a multiple. -/
theorem roundShift_dvd (rm : RM) (neg : Bool) {n k : Nat} (h : n % 2 ^ k = 0) : roundShift rm neg n k = (n / 2 ^ k, false) := by
  have pos : ¬0 = 2 ^ k := (Nat.two_pow_pos k).ne
  cases rm <;> simp [roundShift, h, pos]
/-- Rounding gives the floor or one more. -/
theorem roundShift_ge (rm : RM) (neg : Bool) (n k : Nat) : n / 2 ^ k ≤ (roundShift rm neg n k).1 := by
  have up (b : Bool) (q : Nat) : q ≤ if b then q + 1 else q := by cases b <;> simp
  exact up _ _

section
variable (rm : RM) (neg : Bool) {p f fb : Nat} {e : Int}

/-- `2^p + f`, whose leading bit stands for the place `2^(p + e)`, rounded to `fb` places below it where nothing is lost. -/
theorem roundAt_exact (h : f * 2 ^ fb % 2 ^ p = 0) :
    roundAt rm neg (2 ^ p + f) e (p + e - fb) = (2 ^ fb + f * 2 ^ fb / 2 ^ p, false) := by
  unfold roundAt
  by_cases le : p ≤ fb
  · rw [if_pos (by omega), show (e - (p + e - fb)).toNat = fb - p by omega]
    obtain ⟨d, rfl⟩ := Nat.exists_eq_add_of_le le
    rw [Nat.add_sub_cancel_left, Nat.pow_add, ← Nat.mul_assoc, Nat.mul_right_comm, Nat.mul_div_cancel _ (Nat.two_pow_pos p),
      Nat.add_mul]
  · obtain ⟨d, rfl⟩ := Nat.exists_eq_add_of_le (Nat.le_of_not_le le)
    have dvd : f % 2 ^ d = 0 := by
      rw [Nat.pow_add, Nat.mul_comm, Nat.mul_mod_mul_left] at h
      exact (Nat.mul_eq_zero.1 h).resolve_left (Nat.two_pow_pos fb).ne'
    have whole : (2 ^ (fb + d) + f) % 2 ^ d = 0 := by
      rw [Nat.pow_add, Nat.mul_add_mod_self_right]
      exact dvd
    rw [if_neg (by omega), show ((fb + d : Nat) + e - fb - e).toNat = d by omega, roundShift_dvd _ _ whole, Nat.pow_add,
      Nat.add_comm, Nat.add_mul_div_right _ _ (Nat.two_pow_pos d), Nat.mul_comm f, Nat.mul_div_mul_left _ _ (Nat.two_pow_pos fb),
      Nat.add_comm]
/-- The leading bit stays, whatever is rounded. -/
theorem roundAt_ge : 2 ^ fb ≤ (roundAt rm neg (2 ^ p + f) e (p + e - fb)).1 := by
  unfold roundAt
  by_cases le : p ≤ fb
  · rw [if_pos (by omega), show (e - (p + e - fb)).toNat = fb - p by omega]
    calc 2 ^ fb = 2 ^ p * 2 ^ (fb - p) := by rw [← Nat.pow_add, Nat.add_sub_cancel' le]
      _ ≤ (2 ^ p + f) * 2 ^ (fb - p) := Nat.mul_le_mul_right _ (Nat.le_add_right _ _)
  · rw [if_neg (by omega), show (p + e - fb - e).toNat = p - fb by omega]
    refine Nat.le_trans ?_ (roundShift_ge _ _ _ _)
    rw [Nat.le_div_iff_mul_le (Nat.two_pow_pos _), ← Nat.pow_add, Nat.add_sub_cancel' (Nat.le_of_not_le le)]
    exact Nat.le_add_right _ _

end

theorem log2_leading {p f : Nat} (h : f < 2 ^ p) : Nat.log2 (2 ^ p + f) = p :=
  (Nat.log2_eq_iff (by have := Nat.two_pow_pos p; omega)).2 ⟨Nat.le_add_right _ _, by rw [Nat.pow_succ]; omega⟩

/-! ### Rounding to a format -/

section
variable {g : Fmt} {p f E : Nat} {e : Int} (hf : f < 2 ^ p) (hE : (E : Int) = p + e + g.bias) (h1 : 1 ≤ E)
include hf hE h1

/-- A number with the exponent of a normal number, by its leading bit. -/
theorem Fmt.roundFin_normal (rm : RM) (ftz sat neg : Bool) :
    g.roundFin rm ftz sat neg (2 ^ p + f) e =
      let m := roundAt rm neg (2 ^ p + f) e (p + e - g.fb)
      if g.maxFinite < (E - 1) * 2 ^ g.fb + m.1 then (g.overflow rm sat neg, Cond.of_ ||| Cond.nx)
      else (g.signed neg ((E - 1) * 2 ^ g.fb + m.1), if m.2 then Cond.nx else 0) := by
  have normal : ¬(p : Int) + e < g.emin := by unfold Fmt.emin; omega
  have lsb : max ((p : Int) + e - g.fb) (g.emin - g.fb) = p + e - g.fb := by unfold Fmt.emin; omega
  have field : ((p : Int) + e - g.fb - (g.emin - g.fb)).toNat = E - 1 := by unfold Fmt.emin; omega
  unfold Fmt.roundFin
  simp only [log2_leading hf, lsb, field, normal, decide_false, Bool.false_and, Bool.false_eq_true, if_false, Bool.and_false]
  rw [show (0 : Cond) = 0#7 from rfl, BitVec.or_zero]

/-- A number that the format holds stays, with no condition (R91). -/
theorem Fmt.roundFin_exact (rm : RM) (ftz sat neg : Bool) (hd : f * 2 ^ g.fb % 2 ^ p = 0)
    (fits : E * 2 ^ g.fb + f * 2 ^ g.fb / 2 ^ p ≤ g.maxFinite) :
    g.roundFin rm ftz sat neg (2 ^ p + f) e = (g.signed neg (E * 2 ^ g.fb + f * 2 ^ g.fb / 2 ^ p), 0) := by
  have bits : (E - 1) * 2 ^ g.fb + (2 ^ g.fb + f * 2 ^ g.fb / 2 ^ p) = E * 2 ^ g.fb + f * 2 ^ g.fb / 2 ^ p := by
    obtain ⟨d, rfl⟩ := Nat.exists_eq_add_of_le' h1
    rw [Nat.add_sub_cancel, Nat.add_mul, Nat.one_mul, Nat.add_assoc]
  rw [Fmt.roundFin_normal hf hE h1, roundAt_exact _ _ hd]
  dsimp only
  rw [bits, if_neg (Nat.not_lt.2 fits)]
  rfl
/-- A number beyond the format's range overflows (R91). -/
theorem Fmt.roundFin_overflow (rm : RM) (ftz sat neg : Bool) (past : g.maxFinite < E * 2 ^ g.fb) :
    g.roundFin rm ftz sat neg (2 ^ p + f) e = (g.overflow rm sat neg, Cond.of_ ||| Cond.nx) := by
  have lead : 2 ^ g.fb ≤ (roundAt rm neg (2 ^ p + f) e (p + e - g.fb)).1 := roundAt_ge rm neg
  rw [Fmt.roundFin_normal hf hE h1]
  dsimp only
  refine if_pos (Nat.lt_of_lt_of_le past ?_)
  obtain ⟨d, rfl⟩ := Nat.exists_eq_add_of_le' h1
  rw [Nat.add_sub_cancel, Nat.add_mul, Nat.one_mul]
  omega

end

/-- A subnormal number of the format stays where it is not flushed (R91, R92). -/
theorem Fmt.roundFin_subnormal {g : Fmt} {f : Nat} (h0 : f ≠ 0) (hf : f < 2 ^ g.fb) (fits : f ≤ g.maxFinite) (rm : RM) (sat neg : Bool) :
    g.roundFin rm false sat neg f (g.emin - g.fb) = (g.signed neg f, 0) := by
  have top : Nat.log2 f < g.fb := (Nat.log2_lt h0).2 hf
  have lsb : max ((Nat.log2 f : Int) + (g.emin - g.fb) - g.fb) (g.emin - g.fb) = g.emin - g.fb := by omega
  unfold Fmt.roundFin
  simp only [lsb, roundAt, le_refl, if_true, Int.sub_self, Int.toNat_zero, Nat.pow_zero, Nat.mul_one, Nat.zero_mul, Nat.zero_add,
    Bool.and_false, Bool.false_eq_true, if_false, Nat.not_lt.2 fits, Bool.false_and]
  rfl

end Sys2Proof.Machine
end

section
/-! PROOFS. Special values (O11): NaN operands, signs, minimum and maximum. -/

namespace Sys2Proof.Machine

open Sys2Proof.Claims

/-! ### NaN operands (R93, R94, R120, R121) -/

/-- A NaN result is the default NaN of FP32. -/
theorem fp32Op_nan (rm : RM) (ftz s : Bool) (c : Cond) : fp32Op rm ftz (.nan s, c) = (0x7FC00000, c) := rfl

/-- What an operation of two operands gives where one is a NaN. -/
def quieted (u v : FV) : FV × Cond := (.nan false, if u.sig || v.sig then Cond.nv else 0)

theorem FV.add_nan (rm : RM) : ∀ {u v : FV}, (u.isNan || v.isNan) = true → FV.add rm u v = quieted u v
  | .nan _, _, _ => rfl
  | .inf _, .nan t, _ | .fin _ _ _, .nan t, _ => by simp [FV.add, quieted, FV.sig]
theorem FV.mul_nan : ∀ {u v : FV}, (u.isNan || v.isNan) = true → FV.mul u v = quieted u v
  | .nan _, _, _ => rfl
  | .inf _, .nan t, _ | .fin _ _ _, .nan t, _ => by simp [FV.mul, quieted, FV.sig]
theorem FV.div_nan : ∀ {u v : FV}, (u.isNan || v.isNan) = true → FV.div u v = quieted u v
  | .nan _, _, _ => rfl
  | .inf _, .nan t, _ | .fin _ _ _, .nan t, _ => by simp [FV.div, quieted, FV.sig]
theorem FV.eq_nan : ∀ {v : FV}, v.isNan = true → v = .nan v.sig
  | .nan _, _ => rfl

theorem FV.isNan_of_sig : ∀ {v : FV}, v.sig = true → v.isNan = true
  | .nan _, _ => rfl
@[simp] theorem FV.sig_flip (v : FV) : v.flip.sig = v.sig := by cases v <;> rfl
@[simp] theorem FV.isNan_flip (v : FV) : v.flip.isNan = v.isNan := by cases v <;> rfl

theorem fp32Op_quieted (rm : RM) (ftz : Bool) (u v : FV) :
    (fp32Op rm ftz (quieted u v)).1 = 0x7FC00000 ∧ (fp32Op rm ftz (quieted u v)).2 = if u.sig || v.sig then Cond.nv else 0 :=
  ⟨rfl, rfl⟩

/-- Words of two operands. -/
theorem binary_nan {w : FR} {i : Instr} {x : FRow} {a b : DWord} (c d : DWord) (hi : i ∈ [.fadd w, .fsub w, .fmul w, .fdiv w])
    (hx : fp32Row i = some x) (h : (nan32 a || nan32 b) = true) :
    (x.f a b c d).1 = 0x7FC00000 ∧ (x.f a b c d).2 = if signal32 a || signal32 b then Cond.nv else 0 := by
  have nan : ((rd32 w.ftz a).isNan || (rd32 w.ftz b).isNan) = true := by simpa using h
  have flip : ((rd32 w.ftz a).isNan || (rd32 w.ftz b).flip.isNan) = true := by simpa using h
  rw [← sig_rd32 w.ftz a, ← sig_rd32 w.ftz b]
  simp only [List.mem_cons, List.not_mem_nil, or_false] at hi
  rcases hi with rfl | rfl | rfl | rfl <;> cases hx <;> dsimp only
  · rw [FV.add_nan _ nan]; exact fp32Op_quieted _ _ _ _
  · rw [FV.add_nan _ flip, ← FV.sig_flip (rd32 w.ftz b)]; exact fp32Op_quieted _ _ _ _
  · rw [FV.mul_nan nan]; exact fp32Op_quieted _ _ _ _
  · rw [FV.div_nan nan]; exact fp32Op_quieted _ _ _ _

/-- A product is never a signalling NaN, and has no condition but NV (R120). -/
theorem FV.mul_sig : ∀ u v : FV, (FV.mul u v).1.sig = false
  | .nan _, _ | .inf _, .nan _ | .fin _ _ _, .nan _ | .fin _ _ _, .fin _ _ _ => rfl
  | .inf s, .inf t => rfl
  | .inf s, .fin t n e | .fin t n e, .inf s => by simp only [FV.mul]; split <;> rfl
theorem FV.mul_cond : ∀ u v : FV, (FV.mul u v).2 = 0 ∨ (FV.mul u v).2 = Cond.nv
  | .nan s, v => by rw [FV.mul_nan rfl]; exact (ite_eq_or_eq _ _ _).symm
  | .inf s, .nan t => by rw [FV.mul_nan rfl]; exact (ite_eq_or_eq _ _ _).symm
  | .fin s n e, .nan t => by rw [FV.mul_nan rfl]; exact (ite_eq_or_eq _ _ _).symm
  | .fin _ _ _, .fin _ _ _ => .inl rfl
  | .inf _, .inf _ => .inl rfl
  | .inf s, .fin t n e | .fin t n e, .inf s => by simp only [FV.mul]; split <;> simp
theorem FV.mul_finite : ∀ {u v : FV}, u.isNan = false → v.isNan = false → u.isInf = false → v.isInf = false → (FV.mul u v).2 = 0
  | .fin _ _ _, .fin _ _ _, _, _, _, _ => rfl

/-- A fused operation with a NaN operand: NaN, with the conditions of its product (R120). -/
theorem FV.fma_nan (rm : RM) {u v z : FV} (h : (u.isNan || v.isNan || z.isNan) = true) :
    FV.fma rm u v z = (.nan false, (FV.mul u v).2 ||| if z.sig then Cond.nv else 0) := by
  have sum : ((FV.mul u v).1.isNan || z.isNan) = true := by
    by_cases ops : (u.isNan || v.isNan) = true
    · rw [FV.mul_nan ops]; rfl
    · rw [Bool.not_eq_true] at ops
      rw [ops, Bool.false_or] at h
      rw [h, Bool.or_true]
  rw [FV.fma, FV.add_nan rm sum, quieted, FV.mul_sig, Bool.false_or]

/-- The conditions of a fused operation with a NaN operand (R93, R120). -/
theorem FV.fma_cond (rm : RM) {u v z : FV} (h : (u.isNan || v.isNan || z.isNan) = true) :
    ((u.sig || v.sig || z.sig) = true → (FV.fma rm u v z).2 = Cond.nv) ∧
      ((u.sig || v.sig || z.sig) = false → (u.isNan || v.isNan) = true ∨ (u.isInf = false ∧ v.isInf = false) →
        (FV.fma rm u v z).2 = 0) := by
  rw [FV.fma_nan rm h]
  dsimp only
  refine ⟨fun hs => ?_, fun hs ok => ?_⟩
  · by_cases hz : z.sig = true
    · rw [if_pos hz]
      rcases FV.mul_cond u v with h | h <;> rw [h] <;> rfl
    · rw [Bool.not_eq_true] at hz
      rw [hz, Bool.or_false] at hs
      have ops : (u.isNan || v.isNan) = true := by
        rcases Bool.or_eq_true_iff.1 hs with h | h <;> simp [FV.isNan_of_sig h]
      rw [FV.mul_nan ops, quieted, if_pos hs, hz]
      rfl
  · rw [Bool.or_eq_false_iff] at hs
    have product : (FV.mul u v).2 = 0 := by
      by_cases ops : (u.isNan || v.isNan) = true
      · rw [FV.mul_nan ops, quieted, hs.1]
        rfl
      · obtain ⟨hu, hv⟩ := ok.resolve_left ops
        rw [Bool.not_eq_true, Bool.or_eq_false_iff] at ops
        exact FV.mul_finite ops.1 ops.2 hu hv
    rw [product, hs.2]
    rfl

theorem fma_special {w : FR} {x : FRow} {a b c : DWord} (d : DWord) (hx : fp32Row (.fma w) = some x)
    (h : (nan32 a || nan32 b || nan32 c) = true) :
    (x.f a b c d).1 = 0x7FC00000 ∧ ((signal32 a || signal32 b || signal32 c) = true → (x.f a b c d).2 = Cond.nv) ∧
      ((signal32 a || signal32 b || signal32 c) = false →
        (nan32 a || nan32 b) = true ∨ (classBit .f32 a ∉ [0, 7] ∧ classBit .f32 b ∉ [0, 7]) → (x.f a b c d).2 = 0) := by
  cases hx
  have nan : ((rd32 w.ftz a).isNan || (rd32 w.ftz b).isNan || (rd32 w.ftz c).isNan) = true := by simpa only [isNan_rd32] using h
  have conds := FV.fma_cond w.rm nan
  simp only [sig_rd32, isNan_rd32, isInf_rd32, decide_eq_false_iff_not] at conds
  have val : fp32Op w.rm w.ftz (FV.fma w.rm (rd32 w.ftz a) (rd32 w.ftz b) (rd32 w.ftz c)) =
      (0x7FC00000, (FV.fma w.rm (rd32 w.ftz a) (rd32 w.ftz b) (rd32 w.ftz c)).2) := by rw [FV.fma_nan _ nan]; rfl
  dsimp only
  rw [val]
  exact ⟨rfl, conds⟩

/-- Words of one operand. -/
theorem unary_nan {w : FR} {i : Instr} {x : FRow} {a : DWord} (b c d : DWord) (hi : i ∈ [.fsqrt w, .fabs w, .fneg w, .fround w])
    (hx : fp32Row i = some x) (h : nan32 a = true) :
    (x.f a b c d).1 = 0x7FC00000 ∧ (x.f a b c d).2 = if signal32 a then Cond.nv else 0 := by
  have nan : rd32 w.ftz a = .nan (signal32 a) := by
    rw [FV.eq_nan ((isNan_rd32 w.ftz a).trans h), sig_rd32]
  simp only [List.mem_cons, List.not_mem_nil, or_false] at hi
  rcases hi with rfl | rfl | rfl | rfl <;> cases hx <;> dsimp only
  · rw [nan]; exact ⟨rfl, rfl⟩
  · rw [absNeg, nan]; exact ⟨rfl, rfl⟩
  · rw [absNeg, nan]; exact ⟨rfl, rfl⟩
  · rw [nan]
    simp only [FV.integral, FV.sig, Bool.and_false, Bool.false_eq_true, if_false, fp32Op_nan]
    exact ⟨trivial, BitVec.or_zero⟩

/-! ### Signs (R121) -/

theorem cond_or_zero (c : Cond) : c ||| 0 = c := BitVec.or_zero

/-- A value of FP32 that is no NaN is given back as its pattern, with no condition. -/
theorem fp32Op_valueOf (rm : RM) (neg : Bool) {ex fr : Nat} (he : ex < 2 ^ 8) (hf : fr < 2 ^ 23) (h : ex = 255 → fr = 0) :
    fp32Op rm false (fp32.valueOf neg ex fr, 0) = (BitVec.ofNat 64 (fp32.signed neg (ex * 2 ^ 23 + fr)), 0) := by
  by_cases top : ex = 255
  · obtain rfl := top
    rw [h rfl]
    rfl
  have fits : ex * 2 ^ 23 + fr ≤ fp32.maxFinite := by
    show _ ≤ (2 ^ 8 - 1) * 2 ^ 23 - 1
    omega
  rw [Fmt.valueOf_fin fun c => absurd c top]
  split
  · rename_i zero
    rw [zero, Nat.zero_mul, Nat.zero_add] at fits ⊢
    by_cases hz : fr = 0
    · rw [hz]; rfl
    · simp only [fp32Op, Fmt.give, hz, if_false, Fmt.roundFin_subnormal (g := fp32) hz hf fits]
      rfl
  · rename_i pos
    have whole : fr * 2 ^ fp32.fb / 2 ^ 23 = fr := Nat.mul_div_cancel _ (by decide)
    have place : (ex : Int) = (23 : Nat) + (fp32.emin - fp32.fb + (ex - 1 : Nat)) + fp32.bias := by
      simp only [Fmt.emin, fp32]
      omega
    have exact := Fmt.roundFin_exact (g := fp32) hf place (Nat.pos_of_ne_zero pos) rm false false neg (Nat.mul_mod_left _ _)
      (by rw [whole]; exact fits)
    rw [whole] at exact
    have ne : fr + 2 ^ fp32.fb ≠ 0 := by have := Nat.two_pow_pos fp32.fb; omega
    simp only [fp32Op, Fmt.give, ne, if_false]
    rw [Nat.add_comm fr]
    simp only [show 2 ^ fp32.fb = 2 ^ 23 from rfl] at exact ⊢
    rw [exact, cond_or_zero]

theorem bitSum_congr {p q : Nat → Bool} {n : Nat} (h : ∀ i < n, p i = q i) : bitSum p n = bitSum q n := by
  induction n with
  | zero => rfl
  | succ n ih => rw [bitSum_succ, bitSum_succ, ih fun i hi => h i (Nat.lt_succ_of_lt hi), h n (Nat.lt_succ_self n)]
theorem lowBits_eq_bitSum (n : Nat) (x : DWord) : lowBits n x = bitSum x.getLsbD n := by
  induction n with
  | zero => exact Nat.mod_one _
  | succ n ih => rw [lowBits_succ, bitSum_succ, ih]

theorem ofBits_eq (w : Nat) (p : Nat → Bool) : ofBits w p = BitVec.ofNat 64 (bitSum p w) := rfl

/-- A pattern of FP32 with another sign, bit by bit. -/
theorem signed_eq_ofBits (a : DWord) (neg : Bool) :
    BitVec.ofNat 64 (fp32.signed neg (lowBits 31 a)) = ofBits 32 fun j => if j < 31 then a.getLsbD j else neg := by
  rw [ofBits_eq, bitSum_succ, lowBits_eq_bitSum, bitSum_congr (q := fun j => if j < 31 then a.getLsbD j else neg) fun i hi => (if_pos hi).symm]
  cases neg <;> simp [Fmt.signed, Fmt.signAt, fp32]

theorem Fmt.valueOf_neg {g : Fmt} {neg : Bool} {ex fr : Nat} (h : (g.valueOf neg ex fr).isNan = false) : (g.valueOf neg ex fr).neg = neg := by
  revert h
  unfold Fmt.valueOf
  split
  · split
    · exact fun _ => rfl
    · exact Bool.noConfusion
  · split
    · exact Bool.noConfusion
    · split <;> exact fun _ => rfl

theorem absNeg_eq (neg : Bool) {ftz : Bool} {x : DWord} (h : (rd32 ftz x).isNan = false) :
    absNeg neg ftz x =
      fp32Op .rne false (if neg then (rd32 ftz x).flip else if (rd32 ftz x).neg then (rd32 ftz x).flip else rd32 ftz x, 0) := by
  unfold absNeg
  revert h
  cases rd32 ftz x with
  | nan => exact Bool.noConfusion
  | inf => exact fun _ => rfl
  | fin => exact fun _ => rfl

/-- `fabs` and `fneg` without FTZ keep the value and its place (R121). -/
theorem absNeg_value (neg : Bool) {a : DWord} (h : nan32 a = false) :
    absNeg neg false a = (ofBits 32 (fun j => if j < 31 then a.getLsbD j else neg && !a.getLsbD 31), 0) := by
  let ex := a.toNat / 2 ^ 23 % 2 ^ 8
  let fr := a.toNat % 2 ^ 23
  have read : rd32 false a = fp32.valueOf (a.getLsbD 31) ex fr := by
    refine (Fmt.read_fields fp32 false a).trans ?_
    rw [if_neg fun c => Bool.false_ne_true c.1]
    rfl
  have low : ex * 2 ^ 23 + fr = lowBits 31 a := by simp only [ex, fr, lowBits]; omega
  have nan : (fp32.valueOf (a.getLsbD 31) ex fr).isNan = false := by rw [← read, isNan_rd32, h]
  have inf : ex = 255 → fr = 0 := by
    intro c
    by_contra z
    rw [c, show 255 = 2 ^ fp32.eb - 1 from rfl, Fmt.valueOf_top rfl, if_neg z] at nan
    exact Bool.noConfusion nan
  have value (s : Bool) : fp32Op .rne false (fp32.valueOf s ex fr, 0) = (ofBits 32 (fun j => if j < 31 then a.getLsbD j else s), 0) := by
    rw [fp32Op_valueOf _ _ (Nat.mod_lt _ (by decide)) (Nat.mod_lt _ (by decide)) inf, low, signed_eq_ofBits]
  have sign : (fp32.valueOf (a.getLsbD 31) ex fr).neg = a.getLsbD 31 := Fmt.valueOf_neg nan
  rw [absNeg_eq neg (by rw [isNan_rd32, h]), read, sign, Fmt.valueOf_flip]
  cases neg
  · cases hs : a.getLsbD 31 <;> exact value false
  · exact value (!a.getLsbD 31)

/-! ### Minimum and maximum (R94) -/

theorem FV.cmp_comm : ∀ {u v : FV}, u.isNan = false → v.isNan = false → FV.cmp v u = -FV.cmp u v
  | .inf s, .inf t, _, _ => by cases s <;> cases t <;> rfl
  | .inf s, .fin _ _ _, _, _ | .fin _ _ _, .inf s, _, _ => by cases s <;> rfl
  | .fin s n e, .fin t m g, _, _ => by
    simp only [FV.cmp, min_comm g e]
    rw [← Int.sign_neg, neg_sub]

/-- The order of R94, in which -0 is less than +0. -/
def FV.less (u v : FV) : Bool := FV.cmp u v < 0 || (FV.cmp u v == 0 && u.neg)
theorem FV.less_comm {u v : FV} (hu : u.isNan = false) (hv : v.isNan = false) (h : FV.cmp u v = 0 → u.neg ≠ v.neg) :
    FV.less v u = !FV.less u v := by
  unfold FV.less
  rw [FV.cmp_comm hu hv]
  rcases lt_trichotomy (FV.cmp u v) 0 with lt | eq | gt
  · have : ¬FV.cmp u v = 0 := lt.ne
    simp [lt, lt.le, this]
  · have : v.neg = !u.neg := Bool.eq_not.2 (h eq).symm
    simp [eq, this]
  · have : ¬FV.cmp u v = 0 := gt.ne'
    simp [gt, gt.le, this]

/-- Minimum and maximum of values that are no NaNs. -/
theorem FV.minMax_value (isMin num : Bool) : ∀ {u v : FV}, u.isNan = false → v.isNan = false →
    FV.minMax isMin num u v = (if FV.less u v == isMin then u else v, 0)
  | .inf _, .inf _, _, _ | .inf _, .fin _ _ _, _, _ | .fin _ _ _, .inf _, _, _ | .fin _ _ _, .fin _ _ _, _, _ => rfl
/-- Minimum and maximum where an operand is a NaN do not look at the order. -/
theorem FV.minMax_nan (isMin num : Bool) : ∀ {u v : FV}, (u.isNan || v.isNan) = true →
    FV.minMax isMin num u v = FV.minMax isMin num v u
  | .nan s, .nan t, _ => by cases s <;> cases t <;> rfl
  | .nan s, .inf _, _ | .nan s, .fin _ _ _, _ | .inf _, .nan s, _ | .fin _ _ _, .nan s, _ => by cases s <;> rfl

/-- A value that FP32 holds, with its greatest place where it is not 0 (R88). -/
def FV.placed : FV → Prop
  | .fin _ n e => n = 0 ∨ (n < 2 ^ 24 ∧ -149 ≤ e ∧ (n < 2 ^ 23 → e = -149))
  | _ => True

theorem placed_rd32 (ftz : Bool) (x : DWord) : (rd32 ftz x).placed := by
  have fr : x.toNat % 2 ^ 23 < 2 ^ 23 := Nat.mod_lt _ (by decide)
  rw [show rd32 ftz x = _ from Fmt.read_fields fp32 ftz x]
  split
  · exact .inl rfl
  · unfold Fmt.valueOf
    split
    · split <;> trivial
    · split
      · trivial
      · split
        · exact .inr ⟨Nat.lt_trans fr (by decide), by decide, fun _ => by decide⟩
        · refine .inr ⟨?_, ?_, ?_⟩ <;> simp only [Fmt.emin, fp32] <;> omega

/-- Multiples of powers of two that are equal as numbers are equal, where both have their greatest place. -/
theorem scaled_inj {n m : Nat} {e g : Int} (hn : n ≠ 0) (hm : m ≠ 0) (u : (FV.fin false n e).placed) (v : (FV.fin false m g).placed)
    (h : n * 2 ^ (e - min e g).toNat = m * 2 ^ (g - min e g).toNat) : n = m ∧ e = g := by
  obtain ⟨n24, en, nlow⟩ := u.resolve_left hn
  obtain ⟨m24, gm, mlow⟩ := v.resolve_left hm
  rcases lt_trichotomy e g with lt | eq | gt
  · rw [min_eq_left lt.le, Int.sub_self, Int.toNat_zero, Nat.pow_zero, Nat.mul_one] at h
    have big : 2 ^ 23 ≤ m := by by_contra low; have := mlow (Nat.not_le.1 low); omega
    have two : 2 ≤ 2 ^ (g - e).toNat := Nat.le_self_pow (by omega) 2
    have : 2 ^ 23 * 2 ≤ n := h ▸ Nat.mul_le_mul big two
    omega
  · subst eq
    simp only [min_self, Int.sub_self, Int.toNat_zero, Nat.pow_zero, Nat.mul_one] at h
    exact ⟨h, rfl⟩
  · rw [min_eq_right gt.le, Int.sub_self, Int.toNat_zero, Nat.pow_zero, Nat.mul_one] at h
    have big : 2 ^ 23 ≤ n := by by_contra low; have := nlow (Nat.not_le.1 low); omega
    have two : 2 ≤ 2 ^ (e - g).toNat := Nat.le_self_pow (by omega) 2
    have : 2 ^ 23 * 2 ≤ m := h ▸ Nat.mul_le_mul big two
    omega

/-- Numbers of one sign that compare equal have one place and one multiple, or are zeros. -/
theorem fin_of_cmp {s : Bool} {n m : Nat} {e g : Int} (hu : (FV.fin false n e).placed) (hv : (FV.fin false m g).placed)
    (h : FV.cmp (.fin s n e) (.fin s m g) = 0) : (n = m ∧ e = g) ∨ (n = 0 ∧ m = 0) := by
  simp only [FV.cmp, Int.sign_eq_zero_iff_zero, sub_eq_zero, scaleTo] at h
  have eq : n * 2 ^ (e - min e g).toNat = m * 2 ^ (g - min e g).toNat := by
    have unit : (if s = true then -1 else 1 : Int) ≠ 0 := by cases s <;> decide
    exact_mod_cast mul_left_cancel₀ unit h
  by_cases hn : n = 0
  · rw [hn, Nat.zero_mul] at eq
    exact .inr ⟨hn, (Nat.mul_eq_zero.1 eq.symm).resolve_right (Nat.two_pow_pos _).ne'⟩
  · have hm : m ≠ 0 := by
      rintro rfl
      rw [Nat.zero_mul] at eq
      exact hn ((Nat.mul_eq_zero.1 eq).resolve_right (Nat.two_pow_pos _).ne')
    exact .inl (scaled_inj hn hm hu hv eq)

/-- Values of one sign that compare equal are one value, or zeros. -/
theorem FV.eq_of_cmp {u v : FV} (pu : u.placed) (pv : v.placed) (hu : u.isNan = false) (hv : v.isNan = false)
    (h : FV.cmp u v = 0) (hs : u.neg = v.neg) : u = v ∨ (u.isZero = true ∧ v.isZero = true) := by
  cases u with
  | nan => exact Bool.noConfusion hu
  | inf s => cases v with
    | nan => exact Bool.noConfusion hv
    | inf t => exact .inl (congrArg FV.inf hs)
    | fin => cases s <;> simp [FV.cmp] at h
  | fin s n e => cases v with
    | nan => exact Bool.noConfusion hv
    | inf t => cases t <;> simp [FV.cmp] at h
    | fin t m g =>
      obtain rfl : s = t := hs
      rcases fin_of_cmp pu pv h with ⟨rfl, rfl⟩ | ⟨rfl, rfl⟩
      · exact .inl rfl
      · exact .inr ⟨rfl, rfl⟩

theorem fp32Op_zero (rm : RM) (ftz : Bool) (c : Cond) : ∀ {u v : FV}, u.isZero = true → v.isZero = true → u.neg = v.neg →
    fp32Op rm ftz (u, c) = fp32Op rm ftz (v, c)
  | .fin s n e, .fin t m g, hu, hv, hs => by
    obtain rfl : n = 0 := by simpa [FV.isZero] using hu
    obtain rfl : m = 0 := by simpa [FV.isZero] using hv
    obtain rfl : s = t := hs
    simp only [fp32Op, Fmt.give, if_true]

/-- Minimum and maximum of operands of FP32 commute. -/
theorem fp32Op_minMax_comm (isMin num ftz : Bool) (a b : DWord) :
    fp32Op .rne false (FV.minMax isMin num (rd32 ftz a) (rd32 ftz b)) =
      fp32Op .rne false (FV.minMax isMin num (rd32 ftz b) (rd32 ftz a)) := by
  have pa := placed_rd32 ftz a
  have pb := placed_rd32 ftz b
  generalize rd32 ftz a = u at pa
  generalize rd32 ftz b = v at pb
  by_cases nan : (u.isNan || v.isNan) = true
  · rw [FV.minMax_nan _ _ nan]
  rw [Bool.not_eq_true, Bool.or_eq_false_iff] at nan
  obtain ⟨hu, hv⟩ := nan
  rw [FV.minMax_value _ _ hu hv, FV.minMax_value _ _ hv hu]
  by_cases same : FV.cmp u v = 0 ∧ u.neg = v.neg
  · obtain ⟨eq, hs⟩ := same
    have result : fp32Op .rne false (u, 0) = fp32Op .rne false (v, 0) := by
      rcases FV.eq_of_cmp pa pb hu hv eq hs with rfl | ⟨zu, zv⟩
      · rfl
      · exact fp32Op_zero _ _ _ zu zv hs
    split <;> split <;> simp only [result]
  · rw [FV.less_comm hu hv fun eq hs => same ⟨eq, hs⟩]
    cases FV.less u v <;> cases isMin <;> rfl

end Sys2Proof.Machine
end

section
/-! PROOFS. Special values (O11): conversions. -/

namespace Sys2Proof.Machine

open Sys2Proof.Claims

/-! ### What a conversion reads (R88-R90, R92) -/

/-- The sign of a source as its type's pattern has it. -/
def negOf (t : Ty) (a : DWord) : Bool := a.getLsbD (Ty.fmt t).signAt
/-- A source as a conversion reads it (R92, R130). -/
def sourceOf (t : Ty) (ftz : Bool) (a : DWord) : FV := (Ty.fmt t).read ftz (a.toNat % 2 ^ ((Ty.fmt t).signAt + 1))

/-- A pattern with its fields as the format makes it. -/
theorem pattern_eq {u : Ty} (hu : u ∈ Wf.fpTys) (neg : Bool) (e f : Nat) :
    pattern u (if neg then 1 else 0) e f = BitVec.ofNat 64 ((Ty.fmt u).signed neg (e * 2 ^ (Ty.fmt u).fb + f)) := by
  obtain ⟨fb, eb, -⟩ := fmt_widths hu
  rw [pattern, Fmt.signed, Fmt.signAt, fb, eb, Nat.mul_comm e]
  cases neg
  · rw [if_neg Bool.false_ne_true, if_neg Bool.false_ne_true, Nat.mul_zero, Nat.zero_add]
  · rw [if_pos rfl, if_pos rfl, Nat.mul_one, Nat.add_assoc, Nat.add_comm]

section
variable {t : Ty} (ht : t ∈ Wf.fpTys) (ftz : Bool) (a : DWord)
include ht

theorem signOf_eq : signOf t a = if negOf t a then 1 else 0 := by
  obtain ⟨fb, eb, -⟩ := fmt_widths ht
  rw [signOf, negOf, Fmt.signAt, fb, eb]
theorem sourceOf_fields : sourceOf t ftz a =
    if ftz = true ∧ expOf t a = 0 ∧ fracOf t a ≠ 0 then .fin (negOf t a) 0 0
    else (Ty.fmt t).valueOf (negOf t a) (expOf t a) (fracOf t a) := by
  obtain ⟨fb, eb, -⟩ := fmt_widths ht
  rw [sourceOf, Fmt.read_fields, fb, eb]
  rfl
theorem sourceOf_nan (ty : t ≠ .e2m1) (h : classBit t a ∈ [8, 9]) : sourceOf t ftz a = .nan (classBit t a = 8) := by
  have classed := classed_read (t := t) (by revert ty; fin_cases ht <;> decide) ftz a
  have nan : (sourceOf t ftz a).isNan = true := classed.isNan.trans (by simpa using h)
  rw [FV.eq_nan nan]
  exact congrArg FV.nan classed.sig
theorem sourceOf_inf (h4 : t ≠ .e4m3) (h2 : t ≠ .e2m1) (he : expOf t a = 2 ^ expBits t - 1) (hf : fracOf t a = 0) :
    sourceOf t ftz a = .inf (negOf t a) := by
  have ieee : (Ty.fmt t).top = .ieee := by revert h4 h2; fin_cases ht <;> decide
  rw [sourceOf_fields ht, if_neg fun c => c.2.2 hf, hf, he, ← (fmt_widths ht).2.1, Fmt.valueOf_top ieee, if_pos rfl]
theorem sourceOf_zero (he : expOf t a = 0) (hf : fracOf t a = 0) : ∃ e, sourceOf t ftz a = .fin (negOf t a) 0 e := by
  refine ⟨(Ty.fmt t).emin - (Ty.fmt t).fb, ?_⟩
  have finite : 0 ≠ 2 ^ (Ty.fmt t).eb - 1 := by fin_cases ht <;> decide
  rw [sourceOf_fields ht, if_neg fun c => c.2.2 hf, he, hf, Fmt.valueOf_fin fun c => absurd c finite, if_pos rfl]
/-- A normal number is its leading bit and its fraction, at the place of its exponent. -/
theorem sourceOf_normal (h : normalIn t (expOf t a) (fracOf t a)) :
    sourceOf t ftz a = .fin (negOf t a) (2 ^ fracBits t + fracOf t a) (expOf t a - bias t - fracBits t) := by
  obtain ⟨low, high, nan⟩ := h
  have finite : expOf t a = 2 ^ (Ty.fmt t).eb - 1 →
      (Ty.fmt t).top ≠ .ieee ∧ (fracOf t a = 2 ^ (Ty.fmt t).fb - 1 → (Ty.fmt t).top ≠ .e4m3) := by
    intro c
    rw [c] at high nan
    revert high nan
    generalize fracOf t a = f
    fin_cases ht <;> simp [Ty.fmt, fp32, fp16, bf16, e4m3, e5m2, e2m1, topField, expBits]
  obtain ⟨fb, -, bi⟩ := fmt_widths ht
  rw [sourceOf_fields ht, if_neg fun c => by omega, Fmt.valueOf_fin finite, if_neg (by omega), fb, Nat.add_comm (fracOf t a)]
  congr 1
  rw [Fmt.emin, bi]
  omega

end

/-! ### What a conversion to a format gives (R91, R93, R95) -/

section
variable {u : Ty} (hu : u ∈ Wf.fpTys) (rm : RM) (ftz sat : Bool)
include hu

theorem give_nan (s : Bool) : (Ty.fmt u).give rm ftz sat (.nan s) (if s then Cond.nv else 0) =
    if u = .e2m1 then (0, Cond.nv) else (defaultNan u, if s then Cond.nv else 0) := by
  cases s <;> fin_cases hu <;> rfl
theorem give_inf (neg : Bool) : (fun r : Nat × Cond => (BitVec.ofNat 64 r.1, r.2)) ((Ty.fmt u).give rm ftz sat (.inf neg) 0) =
    if u = .e2m1 then (pattern u (if neg then 1 else 0) 3 1, 0)
    else if u = .e4m3 then if sat then (pattern u (if neg then 1 else 0) 15 6, 0) else (0x7F, Cond.nv)
    else (infinity u (if neg then 1 else 0), 0) := by
  cases neg <;> cases sat <;> fin_cases hu <;> rfl
theorem overflow_eq (neg : Bool) :
    BitVec.ofNat 64 ((Ty.fmt u).overflow rm sat neg) = beyond u rm sat (if neg then 1 else 0) := by
  cases neg <;> cases sat <;> cases rm <;> fin_cases hu <;> rfl

/-- The numbers of a format end below the exponent from which R91 lets values overflow. -/
theorem maxFinite_lt {e : Nat} (h : (if u = .e4m3 then 9 else if u = .e2m1 then 3 else bias u + 1) + bias u ≤ e) :
    (Ty.fmt u).maxFinite < e * 2 ^ (Ty.fmt u).fb := by
  refine Nat.lt_of_lt_of_le ?_ (Nat.mul_le_mul_right _ h)
  fin_cases hu <;> decide
/-- A normal number of a format is at most its largest number. -/
theorem normal_le_maxFinite {e f : Nat} (h : normalIn u e f) (hf : f < 2 ^ (Ty.fmt u).fb) :
    e * 2 ^ (Ty.fmt u).fb + f ≤ (Ty.fmt u).maxFinite := by
  obtain ⟨-, high, nan⟩ := h
  revert high nan hf
  fin_cases hu <;> simp [Ty.fmt, fp32, fp16, bf16, e4m3, e5m2, e2m1, topField, expBits, Fmt.maxFinite] <;> omega

end

/-! ### Conversions between formats (R95, R97) -/

/-- A result of a format in a register. -/
def inRegister (r : Nat × Cond) : DWord × Cond := (BitVec.ofNat 64 r.1, r.2)

theorem zero_or_cond (c : Cond) : 0 ||| c = c := BitVec.zero_or

section
variable {g : Fmt} {ftz : Bool} {x r : Nat} (sat : Bool)

/-- Stochastic rounding does not change NaNs, infinities and zeros (R97). -/
theorem cvtStoch_special (hg : g.top ≠ .e2m1) {v : FV} (hv : fp32.read ftz x = v) (special : (v.isNan || v.isInf || v.isZero) = true) :
    cvtStoch g ftz sat x r = g.give .rne false sat v (if v.sig then Cond.nv else 0) := by
  unfold cvtStoch
  rw [hv]
  cases v with
  | nan s =>
    simp only [Fmt.give, if_neg hg, FV.sig]
    rfl
  | inf s => rfl
  | fin s n e =>
    obtain rfl : n = 0 := by simpa [FV.isNan, FV.isInf, FV.isZero] using special
    rfl

/-- Stochastic rounding of a multiple does not look at the random bits. -/
theorem stochastic_floor {m d r : Nat} (hd : d ≠ 0) (hr : r < 65536) : (m * (d * 65536) + r * d) / (d * 65536) = m := by
  have pos : 0 < d := Nat.pos_of_ne_zero hd
  rw [Nat.add_comm, Nat.add_mul_div_right _ _ (Nat.mul_pos pos (by decide)), Nat.div_eq_of_lt, Nat.zero_add]
  rw [Nat.mul_comm r]
  exact Nat.mul_lt_mul_of_pos_left hr pos

/-- Stochastic rounding counts in units of `2^(c - 16)` of a multiple of `2^c` (R97). -/
theorem stochastic_unit (m c : Nat) : ∃ d, d ≠ 0 ∧ (if (c : Int) - 16 ≤ 0 then 1 else 2 ^ ((c : Int) - 16).toNat) = d ∧
    (if (c : Int) - 16 ≤ 0 then m * 2 ^ c * 2 ^ (-((c : Int) - 16)).toNat else m * 2 ^ c) = m * (d * 65536) := by
  refine ⟨_, ?_, rfl, ?_⟩
  · split
    · exact Nat.one_ne_zero
    · exact (Nat.two_pow_pos _).ne'
  · rw [show 65536 = 2 ^ 16 from rfl]
    split
    · rw [Nat.mul_assoc, ← Nat.pow_add, Nat.one_mul, show c + (-((c : Int) - 16)).toNat = 16 by omega]
    · rw [← Nat.pow_add, show ((c : Int) - 16).toNat + 16 = c by omega]

/-- A fraction of 23 bits that `fb` bits hold is a fraction of `fb` bits and zeros below it. -/
theorem fraction_split {fb f : Nat} (hfb : fb ≤ 23) (hd : f * 2 ^ fb % 2 ^ 23 = 0) :
    2 ^ 23 + f = (2 ^ fb + f * 2 ^ fb / 2 ^ 23) * 2 ^ (23 - fb) := by
  have whole : 2 ^ fb * 2 ^ (23 - fb) = 2 ^ 23 := by rw [← Nat.pow_add, Nat.add_sub_cancel' hfb]
  have low : f * 2 ^ fb / 2 ^ 23 * 2 ^ (23 - fb) = f := by
    refine Nat.eq_of_mul_eq_mul_right (Nat.two_pow_pos fb) ?_
    rw [Nat.mul_assoc, Nat.mul_comm (2 ^ (23 - fb)), whole, Nat.div_mul_cancel (Nat.dvd_of_mod_eq_zero hd)]
  rw [Nat.add_mul, whole, low]

/-- A normal number of the destination stays under stochastic rounding (R97). -/
theorem cvtStoch_exact (hg : g.fb ≤ 23) {s : Bool} {f E : Nat} {e : Int} (hf : f < 2 ^ 23) (hv : fp32.read ftz x = .fin s (2 ^ 23 + f) e)
    (hE : (E : Int) = 23 + e + g.bias) (h1 : 1 ≤ E) (hr : r < 65536) (hd : f * 2 ^ g.fb % 2 ^ 23 = 0)
    (fits : E * 2 ^ g.fb + f * 2 ^ g.fb / 2 ^ 23 ≤ g.maxFinite) :
    cvtStoch g ftz sat x r = (g.signed s (E * 2 ^ g.fb + f * 2 ^ g.fb / 2 ^ 23), 0) := by
  have ne : 2 ^ 23 + f ≠ 0 := by omega
  have place : max (((23 : Nat) : Int) + e - g.fb) (g.emin - g.fb) = 23 + e - g.fb := by unfold Fmt.emin; omega
  have field : ((23 : Int) + e - g.fb - (g.emin - g.fb)).toNat = E - 1 := by unfold Fmt.emin; omega
  have below : (23 : Int) + e - g.fb - 16 - e = (23 - g.fb : Nat) - 16 := by omega
  have bits : (E - 1) * 2 ^ g.fb + (2 ^ g.fb + f * 2 ^ g.fb / 2 ^ 23) = E * 2 ^ g.fb + f * 2 ^ g.fb / 2 ^ 23 := by
    obtain ⟨d, rfl⟩ := Nat.exists_eq_add_of_le' h1
    rw [Nat.add_sub_cancel, Nat.add_mul, Nat.one_mul, Nat.add_assoc]
  obtain ⟨d, hd0, hden, hnum⟩ := stochastic_unit (2 ^ g.fb + f * 2 ^ g.fb / 2 ^ 23) (23 - g.fb)
  rw [← fraction_split hg hd] at hnum
  unfold cvtStoch
  rw [hv]
  dsimp only
  rw [if_neg ne]
  simp only [log2_leading hf, place, field, below, hden, hnum, stochastic_floor hd0 hr, Nat.mul_mod_left, bits,
    if_neg (Nat.not_lt.2 fits), beq_self_eq_true, if_true, Bool.not_true, Bool.false_and, Bool.false_eq_true, if_false]
  rw [zero_or_cond]

end

/-! ### Numbers that both formats have, and numbers out of range -/

theorem give_number (g : Fmt) (rm : RM) (ftz sat neg : Bool) {n : Nat} (h : n ≠ 0) (e : Int) :
    g.give rm ftz sat (.fin neg n e) 0 = g.roundFin rm ftz sat neg n e := by
  simp only [Fmt.give, if_neg h, cond_or_zero]

/-- The fraction of a source in as many bits as the destination has. -/
def movedFrac (t u : Ty) (a : DWord) : Nat := fracOf t a * 2 ^ fracBits u / 2 ^ fracBits t
/-- The exponent field of a source in the destination's bias. -/
def movedExp (t u : Ty) (a : DWord) : Nat := expOf t a + bias u - bias t

theorem leading_ne_zero (p f : Nat) : 2 ^ p + f ≠ 0 := by have := Nat.two_pow_pos p; omega
theorem fracOf_lt (t : Ty) (a : DWord) : fracOf t a < 2 ^ fracBits t := Nat.mod_lt _ (Nat.two_pow_pos _)

section
variable {t u : Ty} (hu : u ∈ Wf.fpTys) {a : DWord} (ftz sat : Bool)
include hu

theorem movedFrac_le (fits : normalIn u (movedExp t u a) (movedFrac t u a)) :
    movedExp t u a * 2 ^ fracBits u + movedFrac t u a ≤ (Ty.fmt u).maxFinite := by
  obtain ⟨fb, -, -⟩ := fmt_widths hu
  rw [← fb]
  refine normal_le_maxFinite hu fits ?_
  rw [fb, movedFrac, Nat.div_lt_iff_lt_mul (Nat.two_pow_pos _), Nat.mul_comm]
  exact Nat.mul_lt_mul_of_pos_left (fracOf_lt t a) (Nat.two_pow_pos _)

section
variable (low : bias t < expOf t a + bias u) (hd : fracOf t a * 2 ^ fracBits u % 2 ^ fracBits t = 0)
  (fits : normalIn u (movedExp t u a) (movedFrac t u a)) (neg : Bool)
include low hd fits

/-- A normal number of both formats stays (R91). -/
theorem give_exact (rm : RM) :
    inRegister ((Ty.fmt u).give rm ftz sat (.fin neg (2 ^ fracBits t + fracOf t a) (expOf t a - bias t - fracBits t)) 0) =
      (pattern u (if neg then 1 else 0) (movedExp t u a) (movedFrac t u a), 0) := by
  obtain ⟨fb, -, bi⟩ := fmt_widths hu
  have place : (movedExp t u a : Int) = fracBits t + (expOf t a - bias t - fracBits t) + (Ty.fmt u).bias := by
    rw [movedExp, bi]; omega
  have most := movedFrac_le hu fits
  rw [pattern_eq hu, give_number _ _ _ _ _ (leading_ne_zero _ _)]
  rw [movedFrac, ← fb] at most ⊢
  rw [← fb] at hd
  rw [Fmt.roundFin_exact (fracOf_lt t a) place (by unfold movedExp; omega) _ _ _ _ hd most]
  rfl

/-- A normal number of FP32 and of the destination stays under stochastic rounding (R97). -/
theorem cvtStoch_number (src : t = .f32) {x r : Nat} (hr : r < 65536)
    (hv : fp32.read ftz x = .fin neg (2 ^ fracBits t + fracOf t a) (expOf t a - bias t - fracBits t)) :
    inRegister (cvtStoch (Ty.fmt u) ftz sat x r) = (pattern u (if neg then 1 else 0) (movedExp t u a) (movedFrac t u a), 0) := by
  obtain ⟨fb, -, bi⟩ := fmt_widths hu
  have most := movedFrac_le hu fits
  have place : (movedExp t u a : Int) = fracBits t + (expOf t a - bias t - fracBits t) + (Ty.fmt u).bias := by
    rw [movedExp, bi]; omega
  have pos : 1 ≤ movedExp t u a := by unfold movedExp; omega
  have short : (Ty.fmt u).fb ≤ 23 := by fin_cases hu <;> decide
  have frac := fracOf_lt t a
  rw [pattern_eq hu]
  rw [movedFrac, ← fb] at most ⊢
  rw [← fb] at hd
  subst src
  rw [cvtStoch_exact sat short frac hv place pos hr hd most]
  rfl

end

/-- A number beyond the destination's range overflows (R91, R95). -/
theorem give_beyond (rm : RM) (neg : Bool)
    (past : bias t + (if u = .e4m3 then 9 else if u = .e2m1 then 3 else bias u + 1) ≤ expOf t a) :
    inRegister ((Ty.fmt u).give rm ftz sat (.fin neg (2 ^ fracBits t + fracOf t a) (expOf t a - bias t - fracBits t)) 0) =
      (beyond u rm sat (if neg then 1 else 0), Cond.of_ ||| Cond.nx) := by
  obtain ⟨-, -, bi⟩ := fmt_widths hu
  have most := maxFinite_lt hu (e := movedExp t u a) (by unfold movedExp; omega)
  have step : 1 ≤ (if u = .e4m3 then 9 else if u = .e2m1 then 3 else bias u + 1) := by fin_cases hu <;> decide
  have place : (movedExp t u a : Int) = fracBits t + (expOf t a - bias t - fracBits t) + (Ty.fmt u).bias := by
    rw [movedExp, bi]; omega
  rw [give_number _ _ _ _ _ (leading_ne_zero _ _),
    Fmt.roundFin_overflow (fracOf_lt t a) place (by unfold movedExp; omega) _ _ _ _ most, ← overflow_eq hu]
  rfl

end

/-! ### `cvt.f` and `cvt.sr` (R95, R97, R130) -/

/-- What a format needs for stochastic rounding to it. -/
theorem stochastic_dst {u : Ty} (h : u ∈ [Ty.bf16, .f16, .e4m3, .e5m2]) : u ∈ Wf.fpTys ∧ (Ty.fmt u).top ≠ .e2m1 := by
  fin_cases h <;> decide

section
variable {w : FR} {i : Instr} {x : FRow} (a b c d : DWord)

theorem cvtF_types (hw : (Instr.cvtF w).wf = true) : w.ty ∈ Wf.fpTys ∧ srcTy w ∈ Wf.fpTys :=
  Wf.types_of_cvt (sat := true) (Bool.and_eq_true_iff.1 hw).1
theorem cvtSr_types (hw : (Instr.cvtSr w).wf = true) : w.ty ∈ [Ty.bf16, .f16, .e4m3, .e5m2] ∧ srcTy w = .f32 := by
  obtain ⟨dst, src⟩ := Wf.types_of_cvt (dst := [.bf16, .f16, .e4m3, .e5m2]) (src := [.f32]) (sat := true) (Bool.and_eq_true_iff.1 hw).1
  exact ⟨dst, List.mem_singleton.1 src⟩

theorem cvtF_gives (hx : floatRow (.cvtF w) = some x) : x.f a b c d = inRegister ((Ty.fmt w.ty).give w.rm w.ftz (w.subf.getLsbD 5)
    (sourceOf (srcTy w) w.ftz a) (if (sourceOf (srcTy w) w.ftz a).sig then Cond.nv else 0)) := by
  cases hx
  rfl
theorem cvtSr_gives (hx : floatRow (.cvtSr w) = some x) : x.f a b c d =
    inRegister (cvtStoch (Ty.fmt w.ty) w.ftz (w.subf.getLsbD 5) (a.toNat % 2 ^ ((Ty.fmt .f32).signAt + 1)) (b.toNat % 65536)) := by
  cases hx
  rfl

section
variable (hi : i ∈ [.cvtF w, .cvtSr w]) (hw : i.wf = true) (hx : floatRow i = some x)
include hi hw

theorem cvt_types : w.ty ∈ Wf.fpTys ∧ srcTy w ∈ Wf.fpTys := by
  simp only [List.mem_cons, List.not_mem_nil, or_false] at hi
  rcases hi with rfl | rfl
  · exact cvtF_types hw
  · obtain ⟨dst, src⟩ := cvtSr_types hw
    rw [src]
    exact ⟨(stochastic_dst dst).1, by decide⟩

include hx

/-- NaNs, infinities and zeros are given in the destination's format. -/
theorem cvt_special {v : FV} (hv : sourceOf (srcTy w) w.ftz a = v) (special : (v.isNan || v.isInf || v.isZero) = true) :
    ∃ rm ftz, x.f a b c d = inRegister ((Ty.fmt w.ty).give rm ftz (w.subf.getLsbD 5) v (if v.sig then Cond.nv else 0)) := by
  simp only [List.mem_cons, List.not_mem_nil, or_false] at hi
  rcases hi with rfl | rfl
  · exact ⟨w.rm, w.ftz, hv ▸ cvtF_gives a b c d hx⟩
  · obtain ⟨dst, src⟩ := cvtSr_types hw
    rw [src] at hv
    rw [cvtSr_gives a b c d hx, cvtStoch_special _ (stochastic_dst dst).2 hv special]
    exact ⟨.rne, false, rfl⟩

theorem cvt_nan (ty : srcTy w ≠ .e2m1) (h : classBit (srcTy w) a ∈ [8, 9]) :
    x.f a b c d = if w.ty = .e2m1 then (0, Cond.nv)
      else (BitVec.ofNat 64 (defaultNan w.ty), if classBit (srcTy w) a = 8 then Cond.nv else 0) := by
  obtain ⟨hu, ht⟩ := cvt_types hi hw
  obtain ⟨rm, ftz, eq⟩ := cvt_special a b c d hi hw hx (sourceOf_nan ht _ a ty h) rfl
  rw [eq, FV.sig, give_nan hu]
  by_cases two : w.ty = .e2m1
  · rw [if_pos two, if_pos two]
    rfl
  · rw [if_neg two, if_neg two, inRegister]
    simp only [decide_eq_true_eq]
theorem cvt_inf (h4 : srcTy w ≠ .e4m3) (h2 : srcTy w ≠ .e2m1) (he : expOf (srcTy w) a = 2 ^ expBits (srcTy w) - 1)
    (hf : fracOf (srcTy w) a = 0) :
    x.f a b c d = if w.ty = .e2m1 then (pattern w.ty (signOf (srcTy w) a) 3 1, 0)
      else if w.ty = .e4m3 then if w.subf.getLsbD 5 then (pattern w.ty (signOf (srcTy w) a) 15 6, 0) else (0x7F, Cond.nv)
      else (infinity w.ty (signOf (srcTy w) a), 0) := by
  obtain ⟨hu, ht⟩ := cvt_types hi hw
  obtain ⟨rm, ftz, eq⟩ := cvt_special a b c d hi hw hx (sourceOf_inf ht _ a h4 h2 he hf) (by rfl)
  rw [eq, signOf_eq ht]
  exact give_inf hu rm ftz _ _
theorem cvt_zero (he : expOf (srcTy w) a = 0) (hf : fracOf (srcTy w) a = 0) :
    x.f a b c d = (pattern w.ty (signOf (srcTy w) a) 0 0, 0) := by
  obtain ⟨hu, ht⟩ := cvt_types hi hw
  obtain ⟨e, zero⟩ := sourceOf_zero ht w.ftz a he hf
  obtain ⟨rm, ftz, eq⟩ := cvt_special a b c d hi hw hx zero rfl
  rw [eq, signOf_eq ht, pattern_eq hu, Nat.zero_mul]
  rfl

/-- A normal number of the source that is one of the destination with no bit lost stays. -/
theorem cvt_exact (hn : normalIn (srcTy w) (expOf (srcTy w) a) (fracOf (srcTy w) a))
    (low : bias (srcTy w) < expOf (srcTy w) a + bias w.ty)
    (hd : fracOf (srcTy w) a * 2 ^ fracBits w.ty % 2 ^ fracBits (srcTy w) = 0)
    (fits : normalIn w.ty (movedExp (srcTy w) w.ty a) (movedFrac (srcTy w) w.ty a)) :
    x.f a b c d = (pattern w.ty (signOf (srcTy w) a) (movedExp (srcTy w) w.ty a) (movedFrac (srcTy w) w.ty a), 0) := by
  obtain ⟨hu, ht⟩ := cvt_types hi hw
  have value := sourceOf_normal ht w.ftz a hn
  rw [signOf_eq ht]
  simp only [List.mem_cons, List.not_mem_nil, or_false] at hi
  rcases hi with rfl | rfl
  · rw [cvtF_gives a b c d hx, value]
    exact give_exact hu _ _ low hd fits _ _
  · obtain ⟨-, src⟩ := cvtSr_types hw
    rw [cvtSr_gives a b c d hx, ← src]
    exact cvtStoch_number hu _ _ low hd fits _ src (Nat.mod_lt _ (by decide)) (by rw [← value, src]; rfl)

end

/-- A number beyond the destination's range overflows (R91, R95). -/
theorem cvtF_beyond (hw : (Instr.cvtF w).wf = true) (hx : floatRow (.cvtF w) = some x)
    (hn : normalIn (srcTy w) (expOf (srcTy w) a) (fracOf (srcTy w) a))
    (past : bias (srcTy w) + (if w.ty = .e4m3 then 9 else if w.ty = .e2m1 then 3 else bias w.ty + 1) ≤ expOf (srcTy w) a) :
    x.f a b c d = (beyond w.ty w.rm (w.subf.getLsbD 5) (signOf (srcTy w) a), Cond.of_ ||| Cond.nx) := by
  obtain ⟨hu, ht⟩ := cvtF_types hw
  rw [cvtF_gives a b c d hx, sourceOf_normal ht w.ftz a hn, signOf_eq ht]
  exact give_beyond hu _ _ _ _ past

end

/-! ### Conversions to integers (R96) -/

/-- The integer types of conversions. -/
def intTys : List Ty := [.i32, .n32, .i64, .n64]
/-- The least and the greatest number of an integer type. -/
def leastOf (u : Ty) : Int := if u = .i32 ∨ u = .i64 then -2 ^ (32 * regsOf u - 1) else 0
def greatestOf (u : Ty) : Int := if u = .i32 ∨ u = .i64 then 2 ^ (32 * regsOf u - 1) - 1 else 2 ^ (32 * regsOf u) - 1

/-- A number's place above its last fraction bit and below it: rounding a multiple of 1 to a multiple of 1. -/
theorem roundAt_integer (rm : RM) (neg : Bool) {n p k : Nat} (h : n * 2 ^ k % 2 ^ p = 0) :
    roundAt rm neg n (k - p) 0 = (n * 2 ^ k / 2 ^ p, false) := by
  unfold roundAt
  by_cases le : p ≤ k
  · obtain ⟨d, rfl⟩ := Nat.exists_eq_add_of_le le
    rw [if_pos (by omega), show (((p + d : Nat) : Int) - p - 0).toNat = d by omega, Nat.pow_add, Nat.mul_left_comm,
      Nat.mul_div_cancel_left _ (Nat.two_pow_pos p)]
  · obtain ⟨d, rfl⟩ := Nat.exists_eq_add_of_le (Nat.le_of_not_le le)
    have dvd : n % 2 ^ d = 0 := by
      rw [Nat.pow_add, Nat.mul_comm, Nat.mul_mod_mul_left] at h
      exact (Nat.mul_eq_zero.1 h).resolve_left (Nat.two_pow_pos k).ne'
    rw [if_neg (by omega), show (0 - ((k : Int) - (k + d : Nat))).toNat = d by omega, roundShift_dvd _ _ dvd, Nat.pow_add, Nat.mul_comm n,
      Nat.mul_div_mul_left _ _ (Nat.two_pow_pos k)]

/-- The limits of `FV.toInt`. -/
theorem toInt_range {u : Ty} (h : u ∈ intTys) : (if Ty.signed u then -(2 ^ (Ty.bits u - 1)) else 0 : Int) = leastOf u ∧
    (if Ty.signed u then 2 ^ (Ty.bits u - 1) - 1 else 2 ^ Ty.bits u - 1 : Int) = greatestOf u ∧ leastOf u ≤ greatestOf u := by
  fin_cases h <;> decide

/-- An integer is clamped to the type's range, with NV where it is outside (R96). -/
theorem toInt_integer (rm : RM) {u : Ty} (hu : u ∈ intTys) (s : Bool) {n p k : Nat} (h : n * 2 ^ k % 2 ^ p = 0) {y : Int}
    (hy : y = if s then -((n * 2 ^ k / 2 ^ p : Nat) : Int) else (n * 2 ^ k / 2 ^ p : Nat)) :
    FV.toInt rm (Ty.signed u) (Ty.bits u) (.fin s n (k - p)) =
      (max (leastOf u) (min (greatestOf u) y), if leastOf u ≤ y ∧ y ≤ greatestOf u then 0 else Cond.nv) := by
  obtain ⟨lo, hi, le⟩ := toInt_range hu
  simp only [FV.toInt, lo, hi, roundAt_integer rm s h, ← hy]
  rcases lt_or_ge y (leastOf u) with below | low
  · rw [if_pos below, if_neg fun c => not_lt.2 c.1 below, min_eq_right (by omega), max_eq_left below.le]
  · rcases lt_or_ge (greatestOf u) y with above | high
    · rw [if_neg (not_lt.2 low), if_pos above, if_neg fun c => not_lt.2 c.2 above, min_eq_left above.le, max_eq_right le]
    · rw [if_neg (not_lt.2 low), if_neg (not_lt.2 high), if_pos (And.intro low high), min_eq_right high, max_eq_right low,
        if_neg Bool.false_ne_true]

/-- The destination holds the number modulo its width. -/
theorem cut_ofInt {u : Ty} (h : u ∈ intTys) (y : Int) :
    (cut u (BitVec.ofInt 64 y)).toNat % 2 ^ (32 * regsOf u) = (y % 2 ^ (32 * regsOf u)).toNat := by
  rw [cut]
  fin_cases h <;> simp [regsOf, Ty.regs, wd, loWord] <;> omega

section
variable {w : FR} {x : FRow} (a b c d : DWord)

theorem cvtFi_types (hw : (Instr.cvtFi w).wf = true) : w.ty ∈ intTys ∧ srcTy w ∈ [Ty.f32, .f16, .bf16] :=
  Wf.types_of_cvt (sat := false) (Bool.and_eq_true_iff.1 hw).1

/-- `y` modulo the width of D, and a condition. -/
def Gives (u : Ty) (r : DWord × Cond) (y : Int) (k : Cond) : Prop :=
  r.1.toNat % 2 ^ (32 * regsOf u) = (y % 2 ^ (32 * regsOf u)).toNat ∧ r.2 = k

theorem cvtFi_gives (hw : (Instr.cvtFi w).wf = true) (hx : floatRow (.cvtFi w) = some x) {y : Int} {k : Cond}
    (h : (sourceOf (srcTy w) w.ftz a).toInt w.rm (Ty.signed w.ty) (Ty.bits w.ty) = (y, k)) : Gives w.ty (x.f a b c d) y k := by
  cases hx
  change Gives w.ty (cut w.ty (BitVec.ofInt 64 ((sourceOf (srcTy w) w.ftz a).toInt w.rm (Ty.signed w.ty) (Ty.bits w.ty)).1),
    ((sourceOf (srcTy w) w.ftz a).toInt w.rm (Ty.signed w.ty) (Ty.bits w.ty)).2) y k
  rw [h]
  exact ⟨cut_ofInt (cvtFi_types hw).1 y, rfl⟩

section
variable (hw : (Instr.cvtFi w).wf = true) (hx : floatRow (.cvtFi w) = some x)
include hw

theorem cvtFi_fp : srcTy w ∈ Wf.fpTys := by
  have src := (cvtFi_types hw).2
  generalize srcTy w = t at src
  fin_cases src <;> decide

include hx

theorem cvtFi_nan (h : classBit (srcTy w) a ∈ [8, 9]) : Gives w.ty (x.f a b c d) 0 Cond.nv := by
  have ty : srcTy w ≠ .e2m1 := fun c => absurd (c ▸ (cvtFi_types hw).2) (by decide)
  refine cvtFi_gives a b c d hw hx ?_
  rw [sourceOf_nan (cvtFi_fp hw) _ a ty h]
  rfl
theorem cvtFi_inf (h : classBit (srcTy w) a ∈ [0, 7]) :
    Gives w.ty (x.f a b c d) (if negOf (srcTy w) a then leastOf w.ty else greatestOf w.ty) Cond.nv := by
  have src : srcTy w ∈ nanTys := by
    have src := (cvtFi_types hw).2
    generalize srcTy w = t at src
    fin_cases src <;> decide
  obtain ⟨lo, hi, -⟩ := toInt_range (cvtFi_types hw).1
  refine cvtFi_gives a b c d hw hx ?_
  rw [sourceOf, (classed_read src w.ftz a).eq_inf h, ← lo, ← hi]
  rfl
/-- An integer value is clamped to the type's range. -/
theorem cvtFi_integer (hn : normalIn (srcTy w) (expOf (srcTy w) a) (fracOf (srcTy w) a)) (low : bias (srcTy w) ≤ expOf (srcTy w) a)
    {m : Nat} (hm : m = (2 ^ fracBits (srcTy w) + fracOf (srcTy w) a) * 2 ^ (expOf (srcTy w) a - bias (srcTy w)))
    (dvd : m % 2 ^ fracBits (srcTy w) = 0) {y : Int}
    (hy : y = if negOf (srcTy w) a then -((m / 2 ^ fracBits (srcTy w) : Nat) : Int) else (m / 2 ^ fracBits (srcTy w) : Nat)) :
    Gives w.ty (x.f a b c d) (max (leastOf w.ty) (min (greatestOf w.ty) y))
      (if leastOf w.ty ≤ y ∧ y ≤ greatestOf w.ty then 0 else Cond.nv) := by
  have place : (expOf (srcTy w) a : Int) - bias (srcTy w) = (expOf (srcTy w) a - bias (srcTy w) : Nat) := by omega
  subst hm
  refine cvtFi_gives a b c d hw hx ?_
  rw [sourceOf_normal (cvtFi_fp hw) w.ftz a hn, place]
  exact toInt_integer w.rm (cvtFi_types hw).1 _ dvd hy

end

end

/-! ### Conversions from integers (R96) -/

/-- An integer that fits in the fraction stays. -/
theorem give_integer {u : Ty} (hu : u ∈ [Ty.f32, .f16, .bf16]) (rm : RM) (ftz neg : Bool) {e r : Nat} (hr : r < 2 ^ e)
    (he : e ≤ fracBits u) :
    inRegister ((Ty.fmt u).give rm ftz false (.fin neg (2 ^ e + r) 0) 0) =
      (pattern u (if neg then 1 else 0) (e + bias u) (r * 2 ^ (fracBits u - e)), 0) := by
  have fp : u ∈ Wf.fpTys := by fin_cases hu <;> decide
  obtain ⟨fb, -, bi⟩ := fmt_widths fp
  have split : r * 2 ^ (Ty.fmt u).fb = r * 2 ^ (fracBits u - e) * 2 ^ e := by
    rw [fb, Nat.mul_assoc, ← Nat.pow_add, Nat.sub_add_cancel he]
  have quot : r * 2 ^ (Ty.fmt u).fb / 2 ^ e = r * 2 ^ (fracBits u - e) := by rw [split, Nat.mul_div_cancel _ (Nat.two_pow_pos e)]
  have small : r * 2 ^ (fracBits u - e) < 2 ^ (Ty.fmt u).fb := by
    rw [← quot, Nat.div_lt_iff_lt_mul (Nat.two_pow_pos e), Nat.mul_comm]
    exact Nat.mul_lt_mul_of_pos_left hr (Nat.two_pow_pos _)
  have range : 1 ≤ bias u ∧ fracBits u + bias u ≤ topField u ∧ u ≠ .e4m3 := by fin_cases hu <;> decide
  have fits := normal_le_maxFinite fp (e := e + bias u) ⟨by omega, by omega, fun c => absurd c range.2.2⟩ small
  rw [← quot] at fits
  have place : ((e + bias u : Nat) : Int) = e + 0 + (Ty.fmt u).bias := by rw [bi]; omega
  rw [give_number _ _ _ _ _ (leading_ne_zero _ _),
    Fmt.roundFin_exact hr place (by omega) _ _ _ _ (by rw [split]; exact Nat.mul_mod_left _ _) fits, quot, pattern_eq fp]
  rfl

/-- A pair as its type reads it. -/
theorem val64_eq_wide {t : Ty} (h : t ∈ [Ty.i64, .n64]) (x : DWord) : val64 t x = wide t x := by
  fin_cases h
  · rw [val64, if_pos (by decide), wide, BitVec.toInt_eq_toNat_cond]
    simp only [true_and]
    split <;> split <;> omega
  · rfl

section
variable {w : FR} {x : FRow} (a b c d : DWord)

theorem cvtIf_types (hw : (Instr.cvtIf w).wf = true) : w.ty ∈ [Ty.f32, .f16, .bf16] ∧ srcTy w ∈ intTys :=
  Wf.types_of_cvt (sat := false) (Bool.and_eq_true_iff.1 hw).1

/-- The operand of `cvt.if` as a number (R130). -/
def integerOf (t : Ty) (a : DWord) : Int := if t = .i64 ∨ t = .n64 then wide t a else val t a

theorem cvtIf_reads {t : Ty} (h : t ∈ intTys) (a : DWord) :
    (if Ty.regs t = 1 then val32 t a else val64 t a) = integerOf t a := by
  rw [integerOf]
  fin_cases h
  · exact val32_eq_val (t := .i32) (by decide) a
  · exact val32_eq_val (t := .n32) (by decide) a
  · exact val64_eq_wide (t := .i64) (by decide) a
  · exact val64_eq_wide (t := .n64) (by decide) a

theorem cvtIf_gives (hw : (Instr.cvtIf w).wf = true) (hx : floatRow (.cvtIf w) = some x) :
    x.f a b c d = inRegister ((Ty.fmt w.ty).give w.rm w.ftz false
      (.fin (integerOf (srcTy w) a < 0) (integerOf (srcTy w) a).natAbs 0) 0) := by
  rw [← cvtIf_reads (cvtIf_types hw).2]
  cases hx
  rfl

end

/-- Settles O11: a row's result by the classes of its operands (`binary_nan`, `fma_special`, `unary_nan`), by the sign alone
(`absNeg_value`), in either order (`fp32Op_minMax_comm`), and of a conversion by what its source reads as (`cvt_special`,
`cvt_exact`, `cvtF_beyond`, `cvtFi_integer`, `give_integer`). -/
theorem floatSpecialValues : Obligations.FloatSpecialValues := by
  refine ⟨?_, ?_, ?_, ?_, ?_, ?_, ?_, ?_⟩
  · intro w i x a b c d hi hx h
    exact binary_nan c d hi hx h
  · intro w x a b c d hx h
    exact fma_special d hx h
  · intro w i x a b c d hi hx h
    exact unary_nan b c d hi hx h
  · intro w neg x a b c d hx ftz h
    have row : x.f a b c d = absNeg neg w.ftz a := by cases neg <;> cases hx <;> rfl
    rw [row, ftz, absNeg_value neg h]
    exact ⟨rfl, rfl⟩
  · intro w i x a b c d hi hx
    simp only [List.mem_cons, List.not_mem_nil, or_false] at hi
    rcases hi with rfl | rfl <;> cases hx
    · exact fp32Op_minMax_comm true _ _ a b
    · exact fp32Op_minMax_comm false _ _ a b
  · intro w i x a b c d hi hw hx
    refine ⟨cvt_nan a b c d hi hw hx, cvt_inf a b c d hi hw hx, cvt_zero a b c d hi hw hx, ?_, cvt_exact a b c d hi hw hx⟩
    rintro normal rfl past
    exact cvtF_beyond a b c d hw hx normal past
  · intro w x a b c d hw hx
    have sign (y z : Int) : (if signOf (srcTy w) a = 1 then y else z) = if negOf (srcTy w) a then y else z := by
      rw [signOf_eq (cvtFi_fp hw)]
      cases negOf (srcTy w) a <;> rfl
    refine ⟨cvtFi_nan a b c d hw hx, fun inf => ?_, fun normal low dvd => ?_⟩
    · exact sign (leastOf w.ty) (greatestOf w.ty) ▸ cvtFi_inf a b c d hw hx inf
    · exact cvtFi_integer a b c d hw hx normal low rfl dvd (sign _ _)
  · intro w x a b c d hw hx
    obtain ⟨dst, src⟩ := cvtIf_types hw
    have reads : integerOf (srcTy w) a = if srcTy w = .i64 ∨ srcTy w = .n64 then wide (srcTy w) a else val (srcTy w) a := rfl
    rw [cvtIf_gives a b c d hw hx, reads]
    refine ⟨fun zero => ?_, fun e r value small fits => ?_⟩
    · rw [zero]; rfl
    · rw [value, give_integer dst _ _ _ small fits]
      simp only [decide_eq_true_eq]

end Sys2Proof.Machine
end

section
/-! SUPPORT. The end of an engine's operation: registers, waits, subscriptions and access records may change, and the rest stays. -/

namespace Sys2Proof.Machine

open Sys2Proof.Claims

/-! ### Tables and cores changed -/

section
variable {α : Type} (p : α → α) {f : α → α} (h : ∀ x, p (f x) = p x) (t : Tab α)
include h

/-- What changes of entries keep of them, they keep of the table. -/
theorem Tab.mapv_upd (n : Nat) : (t.upd n f).mapv p = t.mapv p := by
  unfold Tab.upd Tab.mapv
  rw [List.map_map]
  refine List.map_congr_left fun e _ => ?_
  simp only [Function.comp]
  split
  · rw [h]
  · rfl
theorem Tab.mapv_mapv : (t.mapv f).mapv p = t.mapv p := by
  unfold Tab.mapv
  rw [List.map_map]
  exact List.map_congr_left fun e _ => by simp only [Function.comp, h]

end

@[simp] theorem State.core_modCore (s : State) (n : Nat) (f : Core → Core) : (s.modCore n f).core n = f (s.core n) :=
  Tab.get_put_self _ _ _ _
theorem State.core_modCore_other (s : State) {m n : Nat} (f : Core → Core) (h : m ≠ n) : (s.modCore n f).core m = s.core m :=
  Tab.get_put_other _ _ _ h

/-! ### What such an end leaves alone -/

/-- A sheet without its registers, the marks of R59 and its wait. -/
def Sheet.rest (sh : Sheet) : Sheet := { sh.apart with wait := .none }
/-- A quire without its Q registers and its subscription, and without registers and waits of its sheets. -/
def Quire.rest (q : Quire) : Quire := { q with q := [], qw := [], sub := none, sheets := q.sheets.mapv Sheet.rest }

theorem Quire.modSheet_rest (q : Quire) (k : Nat) {f : Sheet → Sheet} (h : ∀ sh, (f sh).rest = sh.rest) :
    (q.modSheet k f).rest = q.rest := by
  unfold Quire.modSheet Quire.rest
  dsimp only
  rw [Tab.mapv_upd _ h]
theorem Quire.mapSheets_rest (q : Quire) {f : Sheet → Sheet} (h : ∀ sh, (f sh).rest = sh.rest) :
    ({ q with sheets := q.sheets.mapv f } : Quire).rest = q.rest := by
  unfold Quire.rest
  dsimp only
  rw [Tab.mapv_mapv _ h]
theorem Quire.showQs_rest (js : List Nat) (n : Nat) (v : Word) (q : Quire) :
    (js.foldl (fun q j => q.showQ j n v) q).rest = q.rest := by
  induction js generalizing q with
  | nil => rfl
  | cons j js ih => exact (ih _).trans (q.modSheet_rest j fun _ => rfl)
/-- A register written is no part of what is left alone. -/
theorem Quire.write_rest (q : Quire) (k cyc : Nat) (key : RegKey) (w : Word) : (q.write k cyc key w).rest = q.rest := by
  have own : (q.modSheet k fun sh => (sh.race key).setReg key w).rest = q.rest :=
    q.modSheet_rest k fun sh => by rw [Sheet.rest, Sheet.setReg_apart, Sheet.race_apart]; rfl
  cases key with
  | v r l => exact own
  | s n => exact own
  | q n => exact (Quire.showQs_rest _ n _ _).trans own
theorem Quire.writes_rest (r : SheetRef) (cyc : Quire → Nat) (ws : List (RegKey × Word)) (q : Quire) :
    (ws.foldl (fun q w => q.write r.k (cyc q) w.1 w.2) q).rest = q.rest := by
  induction ws generalizing q with
  | nil => rfl
  | cons w ws ih => exact (ih _).trans (q.write_rest _ _ _ _)

/-- Registers, waits, subscriptions and access records may have changed, and matrix operations may have gone. -/
structure Ends (s t : State) : Prop where
  mx     : ∀ n, (t.core n).mx ⊆ (s.core n).mx
  board  : ∀ n, (t.core n).board = (s.core n).board
  wm     : ∀ n, (t.core n).wm = (s.core n).wm
  quires : ∀ h, (t.quires.find h).map Quire.rest = (s.quires.find h).map Quire.rest

theorem Ends.refl (s : State) : Ends s s := ⟨fun _ _ h => h, fun _ => rfl, fun _ => rfl, fun _ => rfl⟩
theorem Ends.trans {s t u : State} (A : Ends s t) (B : Ends t u) : Ends s u :=
  ⟨fun n _ h => A.mx n (B.mx n h), fun n => (B.board n).trans (A.board n), fun n => (B.wm n).trans (A.wm n),
    fun h => (B.quires h).trans (A.quires h)⟩

/-- A change of neither cores nor quires. -/
theorem Ends.of_eq {s t : State} (hc : t.cores = s.cores) (hq : t.quires = s.quires) : Ends s t := by
  have core (n : Nat) : t.core n = s.core n := by rw [State.core, State.core, hc]
  exact ⟨fun n => by rw [core]; exact List.Subset.refl _, fun n => by rw [core], fun n => by rw [core], fun h => by rw [hq]⟩
theorem Ends.modQuire (s : State) (h : Nat) {f : Quire → Quire} (hf : ∀ q, (f q).rest = q.rest) : Ends s (s.modQuire h f) := by
  refine ⟨fun _ _ h => h, fun _ => rfl, fun _ => rfl, fun m => ?_⟩
  have keep : Quire.rest ∘ f = Quire.rest := funext hf
  by_cases hm : m = h
  · rw [hm, State.modQuire, Tab.find_upd_self, Option.map_map, keep]
  · rw [State.modQuire, Tab.find_upd_other _ _ hm]
theorem Ends.modSheet (s : State) (r : SheetRef) {f : Sheet → Sheet} (hf : ∀ sh, (f sh).rest = sh.rest) :
    Ends s (s.modSheet r f) := Ends.modQuire s r.h fun q => q.modSheet_rest r.k hf
theorem Ends.wake (s : State) (r : SheetRef) : Ends s (s.wake r) := Ends.modSheet s r fun _ => rfl
theorem Ends.writeRegs (s : State) (r : SheetRef) (ws : List (RegKey × Word)) : Ends s (s.writeRegs r ws) :=
  Ends.modQuire s r.h (Quire.writes_rest r (fun q => s.cycles q.core) ws)
theorem Ends.mapv (s : State) {f : Quire → Quire} (hf : ∀ q, (f q).rest = q.rest) : Ends s { s with quires := s.quires.mapv f } := by
  refine ⟨fun _ _ h => h, fun _ => rfl, fun _ => rfl, fun h => ?_⟩
  rw [Tab.find_mapv, Option.map_map, show Quire.rest ∘ f = Quire.rest from funext hf]
theorem Ends.retryAll (s : State) : Ends s s.retryAll :=
  Ends.mapv s fun q => q.mapSheets_rest fun sh => by split <;> rfl

/-- A quire leaves its stream. -/
theorem Ends.unsubscribe (s : State) (h : Nat) : Ends s (s.unsubscribe h) := by
  unfold State.unsubscribe
  split
  · exact Ends.refl s
  · split
    · exact Ends.refl s
    · refine Ends.trans (Ends.modQuire s h (f := fun q => { q with sub := none }) fun _ => rfl) ?_
      exact Ends.of_eq rfl rfl
theorem Ends.foldl {α : Type} {g : State → α → State} (hg : ∀ s a, Ends s (g s a)) (as : List α) (s : State) : Ends s (as.foldl g s) := by
  induction as generalizing s with
  | nil => exact Ends.refl s
  | cons a as ih => exact (hg s a).trans (ih _)
/-- Matrix operations of a core go. -/
theorem Ends.filterMx (s : State) (core : Nat) (p : MxOp → Bool) :
    Ends s (s.modCore core fun c => { c with mx := c.mx.filter p }) := by
  refine ⟨fun n => ?_, fun n => ?_, fun n => ?_, fun _ => rfl⟩ <;> by_cases h : n = core
  · rw [h, State.core_modCore]; exact List.filter_subset_self _
  · rw [State.core_modCore_other _ _ h]; exact List.Subset.refl _
  · rw [h, State.core_modCore]
  · rw [State.core_modCore_other _ _ h]
  · rw [h, State.core_modCore]
  · rw [State.core_modCore_other _ _ h]
theorem Ends.settleUnsubs (s : State) (core : Nat) : Ends s (s.settleUnsubs core) :=
  (Ends.filterMx s core _).trans (Ends.foldl (g := fun s (d : MxOp × Nat) => s.unsubscribe d.1.ref.h) (fun _ _ => Ends.unsubscribe _ _) _ _)

/-! ### What is read after such an end -/

section
variable {s t : State} (E : Ends s t)
include E

/-- Whatever the rest of a quire decides. -/
theorem Ends.quire_map {β : Type} (g : Quire → β) (hg : ∀ q, g q.rest = g q) (h : Nat) :
    (t.quires.find h).map g = (s.quires.find h).map g := by
  have same := congrArg (Option.map g) (E.quires h)
  rw [Option.map_map, Option.map_map] at same
  rwa [show g ∘ Quire.rest = g from funext hg] at same
/-- Whatever the rest of a sheet decides. -/
theorem Ends.sheet_map {β : Type} (g : Sheet → β) (hg : ∀ sh, g sh.rest = g sh) (r : SheetRef) :
    (t.sheet? r).map g = (s.sheet? r).map g := by
  have read (u : State) : (u.sheet? r).map g = ((u.quires.find r.h).map Quire.rest).bind fun q => (q.sheets.find r.k).map g := by
    rw [State.sheet?]
    cases u.quires.find r.h with
    | none => rfl
    | some q =>
      simp only [Option.bind_some, Option.map_some, Quire.rest, Tab.find_mapv, Option.map_map]
      rw [show g ∘ Sheet.rest = g from funext hg]
  rw [read, read, E.quires]

end

end Sys2Proof.Machine
end

section
/-! PROOFS. The matrix engine and a siphon (O50): start, promotion, completion, readout, and a block read. -/

namespace Sys2Proof.Machine

open Sys2Proof.Claims

/-! ### The matrix engine's head and tiles -/

section
variable {s : State} {core : Nat} {o : MxOp} {q : Quire} {x : Tile} (h : s.mxHead core = some (o, q, x))
include h

theorem mxHead_quire : s.quires.find o.ref.h = some q := by
  unfold State.mxHead at h
  split at h
  · cases h
  · rename_i o' os queue
    obtain ⟨q', hq, eq⟩ := Option.map_eq_some_iff.1 h
    cases eq
    exact hq

theorem tileOf_head (hx : q.tiles.find o.tile = some x) : tileOf s o.ref.h o.tile = some x := by
  rw [tileOf, mxHead_quire h]
  exact hx

end

/-- A tile that is changed. -/
theorem tileOf_modTile {s : State} {h n : Nat} {x : Tile} (hx : tileOf s h n = some x) (f : Tile → Tile) :
    tileOf (s.modTile h n f) h n = some (f x) := by
  unfold tileOf at hx ⊢
  obtain ⟨q, hq, ht⟩ := Option.bind_eq_some_iff.1 hx
  rw [State.modTile, State.modQuire, Tab.find_upd_self, hq, Option.map_some, Option.bind_some, Tab.find_upd_self, ht]
  rfl

theorem tileOf_eq (s : State) (h n : Nat) : tileOf s h n = ((s.quires.find h).map (·.tiles)).bind fun t => t.find n := by
  rw [tileOf]
  cases s.quires.find h <;> rfl

/-! ### Start (R243, R250, R255) -/

section
variable {s : State} {core : Nat} {o : MxOp} {q : Quire} {x : Tile} (h : s.mxHead core = some (o, q, x))
  (hx : q.tiles.find o.tile = some x) (fresh : o.begun = false)
include h hx fresh

theorem matrixOpStart_zero {e : Int} (kind : o.kind = .zero e) : Answers (exec (.matrixOpStart core) s) fun t => tileOf t o.ref.h o.tile =
    some { x with fresh := false, el := [], e := e, act := false, flt := false, fstat := 0, nblk := 0, done := 0, faddr := 0 } := by
  refine ⟨_, rfl, ?_⟩
  simp only [h, fresh, kind, Bool.false_eq_true, if_false]
  exact tileOf_modTile (tileOf_head h hx) _
theorem matrixOpStart_mma {m : Mma} (kind : o.kind = .mma m) (sound : x.flt = false) :
    Answers (exec (.matrixOpStart core) s) fun t => tileOf t o.ref.h o.tile =
      some { x with act := true, flt := false, fstat := 0, nblk := m.kk / 128, done := 0, faddr := 0 } := by
  refine ⟨_, rfl, ?_⟩
  simp only [h, fresh, kind, sound, Bool.false_eq_true, if_false]
  exact tileOf_modTile (tileOf_head h hx) _

end

/-! ### Completion (R243, R256, R258, R266) -/

/-- What the end of an operation changes: its entries go, and its batch learns its status. -/
structure Completed (s t : State) (core : Nat) (o : MxOp) : Prop where
  mx     : ∀ y ∈ (t.core core).mx, y.id ≠ o.id
  board  : ∀ b ∈ (t.core core).board, b.op ≠ o.id
  window : (t.sheet? o.ref).map (·.window) = (s.sheet? o.ref).map fun sh => sh.window.map (·.take o)
  cham   : ∀ h, (t.quires.find h).map (·.cham) = (s.quires.find h).map (·.cham)
  tile   : ∀ h n, tileOf t h n = tileOf s h n

theorem State.mxEnd_ends (s : State) (core : Nat) (o : MxOp) : Ends s (s.mxEnd core o) := by
  have link (s : State) (p : Sync → Bool) (y : Sync) : Ends s (s.linkSync p y) := Ends.of_eq rfl rfl
  have links := (link s (· == .eng o.id) (.mxs core)).trans
    (Ends.foldl (g := fun s (x : MxOp) => s.linkSync (· == .eng o.id) (.eng x.id)) (fun _ _ => link _ _ _) (s.core core).mxQueue _)
  unfold State.mxEnd
  split
  · exact links.trans (link _ _ _)
  · exact links.trans (Ends.of_eq rfl rfl)
  · exact links.trans (Ends.of_eq rfl rfl)
  · exact links.trans (Ends.of_eq rfl rfl)

/-- The state in which an operation's entries have gone. -/
def State.mxGone (s : State) (core : Nat) (o : MxOp) : State :=
  ((s.engDrop (.op o.id)).modCore core fun c => { c with mx := c.mx.filter (·.id != o.id) }).boardDrop core o.id

/-- What the sheet of an operation that has gone learns (R258): its status, and the latest batch that is done. -/
def State.mxTells (s : State) (core : Nat) (o : MxOp) (sh : Sheet) : Sheet :=
  let sh := { sh with cur := sh.cur.take o, window := sh.window.map fun (b : Batch) => b.take o }
  match (s.core core).mxQueue.find? (·.ref == o.ref) with
  | some y => { sh with mxDone := if y.batch = o.batch then sh.mxDone else prevBatch y.batch }
  | none => { sh with mxDone := if sh.window.isEmpty then 0 else prevBatch sh.batch }
theorem State.mxTells_window (s : State) (core : Nat) (o : MxOp) (sh : Sheet) :
    (s.mxTells core o sh).window = sh.window.map (·.take o) := by
  unfold State.mxTells
  dsimp only
  split <;> rfl

/-- `mxFinish` up to what `Ends` allows: the entries have gone, and the sheet has learnt its status. -/
def State.mxTold (s : State) (core : Nat) (o : MxOp) : State :=
  let s := (s.mxGone core o).mxEnd core o
  s.modSheet o.ref (s.mxTells core o)
/-- The sheet of an operation that has gone gets the batch for which it waits (R258). -/
def State.mxWoken (s : State) (core : Nat) (o : MxOp) : State :=
  match s.sheet? o.ref with
  | some sh =>
    match sh.wait with
    | .mxWait n sd =>
      if (s.core core).batchDone o.ref n then
        ((sh.window.find? fun (b : Batch) => b.n == n).elim s fun b => (s.batchJoin o.ref n).mxGive o.ref sd b).wake o.ref
      else s
    | _ => s
  | none => s
theorem Ends.mxWoken (s : State) (core : Nat) (o : MxOp) : Ends s (s.mxWoken core o) := by
  unfold State.mxWoken
  split
  · split
    · split
      · refine Ends.trans ?_ (Ends.wake _ _)
        rename_i sh _ _ n sd _ _
        cases sh.window.find? fun b => b.n == n with
        | none => exact Ends.refl _
        | some b => exact Ends.trans (Ends.of_eq (t := s.batchJoin o.ref n) rfl rfl) (Ends.writeRegs _ _ _)
      · exact Ends.refl _
    · exact Ends.refl _
  · exact Ends.refl _

theorem State.mxFinish_eq (s : State) (core : Nat) (o : MxOp) :
    s.mxFinish core o = (((s.mxTold core o).settleUnsubs core).mxWoken core o).retryAll := rfl
theorem State.mxFinish_ends (s : State) (core : Nat) (o : MxOp) : Ends (s.mxTold core o) (s.mxFinish core o) := by
  rw [State.mxFinish_eq]
  exact (Ends.settleUnsubs _ core).trans ((Ends.mxWoken _ core o).trans (Ends.retryAll _))

theorem State.mxGone_mx (s : State) (core : Nat) (o : MxOp) : ∀ y ∈ ((s.mxGone core o).core core).mx, y.id ≠ o.id := by
  intro y hy
  rw [State.mxGone, State.boardDrop, State.core_modCore, State.core_modCore] at hy
  simpa using (List.mem_filter.1 hy).2
theorem State.mxGone_board (s : State) (core : Nat) (o : MxOp) : ∀ b ∈ ((s.mxGone core o).core core).board, b.op ≠ o.id := by
  intro b hb
  rw [State.mxGone, State.boardDrop, State.core_modCore] at hb
  simpa using (List.mem_filter.1 hb).2

theorem State.sheet?_modSheet (s : State) (r : SheetRef) (f : Sheet → Sheet) : (s.modSheet r f).sheet? r = (s.sheet? r).map f := by
  rw [State.sheet?, State.sheet?, State.modSheet, State.modQuire, Tab.find_upd_self]
  cases s.quires.find r.h with
  | none => rfl
  | some q => exact Tab.find_upd_self _ _ _
/-- What a sheet is no part of, a change of it leaves. -/
theorem State.quire_modSheet {β : Type} (g : Quire → β) (hg : ∀ q k f, g (Quire.modSheet q k f) = g q) (s : State) (r : SheetRef)
    (f : Sheet → Sheet) (h : Nat) : ((s.modSheet r f).quires.find h).map g = (s.quires.find h).map g := by
  by_cases hr : h = r.h
  · rw [hr, State.modSheet, State.modQuire, Tab.find_upd_self, Option.map_map]
    congr 1
    exact funext fun q => hg q _ _
  · rw [State.modSheet, State.modQuire, Tab.find_upd_other _ _ hr]

theorem State.mxFinish_completed (s : State) (core : Nat) (o : MxOp) : Completed s (s.mxFinish core o) core o := by
  have late := s.mxFinish_ends core o
  have early := (s.mxGone core o).mxEnd_ends core o
  refine ⟨fun y hy => s.mxGone_mx core o y (early.mx _ (late.mx _ hy)),
    fun b hb => s.mxGone_board core o b (early.board _ ▸ late.board core ▸ hb), ?_, fun h => ?_, fun h n => ?_⟩
  · have told : (·.window) ∘ State.mxTells ((s.mxGone core o).mxEnd core o) core o = List.map (·.take o) ∘ (·.window) :=
      funext (State.mxTells_window _ core o)
    rw [late.sheet_map (·.window) (fun _ => rfl), State.mxTold, State.sheet?_modSheet, Option.map_map, told, ← Option.map_map,
      early.sheet_map (·.window) (fun _ => rfl), Option.map_map]
    rfl
  · rw [late.quire_map (·.cham) (fun _ => rfl), State.mxTold, State.quire_modSheet (·.cham) (fun _ _ _ => rfl),
      early.quire_map (·.cham) (fun _ => rfl)]
    rfl
  · rw [tileOf_eq, tileOf_eq, late.quire_map (·.tiles) (fun _ => rfl), State.mxTold, State.quire_modSheet (·.tiles) (fun _ _ _ => rfl),
      early.quire_map (·.tiles) (fun _ => rfl)]
    rfl

section
variable {s : State} {core : Nat} {o : MxOp} {q : Quire} {x : Tile} (h : s.mxHead core = some (o, q, x))
include h

theorem sheet?_head {sh : Sheet} (hsh : q.sheets.find o.ref.k = some sh) : s.sheet? o.ref = some sh := by
  rw [State.sheet?, mxHead_quire h]
  exact hsh

theorem matrixOpComplete_completed (begun : o.begun = true)
    (kind : o.kind = .zero x.e ∨ ∃ m, o.kind = .mma m ∧ (o.fault.isSome ∨ m.kk / 128 ≤ x.done)) :
    Answers (exec (.matrixOpComplete core) s) fun t => (∀ y ∈ (t.core core).mx, y.id ≠ o.id) ∧
      (∀ b ∈ (t.core core).board, b.op ≠ o.id) ∧ ∀ sh, q.sheets.find o.ref.k = some sh → (t.sheet? o.ref).map (·.window) = some (sh.window.map (·.take o)) := by
  refine ⟨_, rfl, ?_⟩
  rcases kind with zero | ⟨m, mma, past⟩
  · have C := s.mxFinish_completed core o
    simp only [h, begun, zero, Bool.not_true, Bool.false_eq_true, if_false]
    refine ⟨C.mx, C.board, fun sh hsh => ?_⟩
    rw [C.window, sheet?_head h hsh]
    rfl
  · have C := (s.modTile o.ref.h o.tile fun t => { t with act := false }).mxFinish_completed core o
    simp only [h, begun, mma, Bool.not_true, Bool.false_eq_true, if_false, Bool.or_eq_true, decide_eq_true_eq, past, if_true]
    refine ⟨C.mx, C.board, fun sh hsh => ?_⟩
    rw [C.window, State.sheet?, State.modTile, State.modQuire, Tab.find_upd_self, mxHead_quire h]
    exact congrArg (Option.map _) hsh

end

/-! ### Engines that nothing holds (R147, R359) -/

theorem State.tablesHeld_none {s : State} (h : s.rekeys = []) (ctx : Nat) : s.tablesHeld ctx = false := by
  rw [State.tablesHeld, h]
  rfl
/-- Reads off algebra pages, behind nothing at a vat, go on. -/
theorem State.engGate_reads {s : State} {who : Who} {reads : List (Nat × DWord)} (hk : s.rekeys = [])
    (free : ∀ x ∈ reads, s.engAliased who x.1 = false) (k : State → State) : s.engGate who reads [] k = k s := by
  have pass : ((reads ++ []).any fun x => !leafALG x.2 && s.engAliased who x.1) = false := by
    rw [List.append_nil, List.any_eq_false]
    intro x hx
    rw [free x hx, Bool.and_false]
    exact Bool.false_ne_true
  unfold State.engGate
  rw [if_neg (by rw [pass]; exact Bool.false_ne_true)]
  simp only [List.map_nil, List.eraseDups_nil, State.keyGate_reads _ _ _ hk]
/-- Reads off algebra pages need no LOADs. -/
theorem State.algLoads_plain (s : State) (who : Who) (ctx : Nat) (r : Option SheetRef) {xs : List (DWord × Nat × DWord)}
    (plain : ∀ x ∈ xs, leafALG x.2.2 = false) : s.algLoads who ctx r xs = (s, true) := by
  have empty : (xs.filter fun x => leafALG x.2.2) = [] := List.filter_eq_nil_iff.2 fun x hx => by rw [plain x hx]; exact Bool.false_ne_true
  unfold State.algLoads
  rw [empty]
  rfl

/-! ### Promotion (R104, R250, R252) -/

/-- What skips the chamber makes nothing of places in it. -/
theorem filterMap_chamber {β : Type} {as : List MxAddr} (cham : ∀ a ∈ as, a.1 = true) {f : MxAddr → Option β}
    (hf : ∀ a : MxAddr, a.1 = true → f a = none) : as.filterMap f = [] :=
  List.filterMap_eq_nil_iff.2 fun a ha => hf a (cham a ha)
theorem State.mxRetry_chamber (s : State) {core ctx b : Nat} {o : MxOp} (again : o.retry = none) : s.mxRetry core ctx o b [] = none := by
  simp [State.mxRetry, again, State.mxFresh]

theorem promotionStep_promoted {s : State} {core : Nat} {o : MxOp} {q : Quire} {x : Tile} {m : Mma} (h : s.mxHead core = some (o, q, x))
    (hx : q.tiles.find o.tile = some x) (kind : o.kind = .mma m) (begun : o.begun = true) (sound : o.fault = none) (again : o.retry = none)
    (more : x.done < m.kk / 128) (hk : s.rekeys = []) (faults : s.mxFaults o q m x.done = []) (hb : m.b.isSome)
    (cham : ∀ a ∈ m.reads x.done, a.1 = true) :
    Answers (exec (.promotionStep core) s) fun t => ∃ y, tileOf t o.ref.h o.tile = some y ∧ y.done = x.done + 1 ∧ y.act = x.act ∧
      y.nblk = x.nblk ∧ y.e = (promote (((List.range 16384).map x.elem).zip (m.contribs s (.op o.id) q x.done [])) x.e).2 := by
  obtain ⟨side, hside⟩ := Option.isSome_iff_exists.1 hb
  refine ⟨_, rfl, ?_⟩
  simp only [h, kind, begun, sound, faults, hside, State.tablesHeld_none hk, Bool.not_true, Option.isSome_none, decide_eq_false (Nat.not_le.2 more),
    Bool.or_false, Bool.false_eq_true, if_false, List.find?_nil, List.getElem?_nil]
  rw [filterMap_chamber cham]
  · simp only [State.mxRetry_chamber s again, List.map_nil, State.engGate_reads hk fun _ c => absurd c List.not_mem_nil,
      State.algLoads_plain s _ _ _ fun _ c => absurd c List.not_mem_nil]
    exact ⟨_, tileOf_modTile (tileOf_head h hx) _, rfl, rfl, rfl, rfl⟩
  · exact fun a ha => if_pos ha

/-! ### Siphon blocks (R261, R262) -/

@[simp] theorem State.gallery_modGallery (s : State) (n : Nat) (f : Gallery → Gallery) : (s.modGallery n f).gallery n = f (s.gallery n) :=
  Tab.get_put_self _ _ _ _
theorem State.stream_put (s : State) (g n : Nat) (y : Stream) :
    ((s.modGallery g fun g => { g with streams := g.streams.put n y }).gallery g).streams.find n = some y := by
  rw [State.gallery_modGallery]
  exact Tab.find_put_self _ _ _
theorem length_filterMap_some {α β : Type} {f : α → Option β} {as : List α} (h : ∀ a ∈ as, (f a).isSome) :
    (as.filterMap f).length = as.length := by
  induction as with
  | nil => rfl
  | cons a as ih =>
    obtain ⟨b, hb⟩ := Option.isSome_iff_exists.1 (h a List.mem_cons_self)
    rw [List.filterMap_cons_some hb, List.length_cons, List.length_cons, ih fun a ha => h a (List.mem_cons_of_mem _ ha)]
theorem Stream.addrs_length (x : Stream) (b : Nat) : (x.addrs b).length = 128 * (64 * 2 ^ x.ew) := by
  simp only [Stream.addrs, List.length_flatMap, List.length_map, List.length_range, List.map_const', List.sum_replicate, smul_eq_mul]

theorem siphonBlockRead_read {s : State} {g n : Nat} {x : Stream} (hx : (s.gallery g).streams.find n = some x) (more : x.next < x.t)
    (near : ∀ y ∈ x.subs, x.next < y.2.2 + y.2.1) (hk : s.rekeys = [])
    (reads : ∀ a ∈ x.addrs x.next, ∃ pa leaf, s.siphonByte g x a = .ok (pa, leaf) ∧ leaf.getLsbD 9 = false) :
    Answers (exec (.siphonBlockRead g n) s) fun t => ∃ y, (t.gallery g).streams.find n = some y ∧ y.next = x.next + 1 ∧
      y.subs = x.subs ∧ (y.blocks.find x.next).map List.length = some (128 * (64 * 2 ^ x.ew)) ∧ ∀ a, t.readByte a = s.readByte a := by
  have opened : x.open_ = true := by
    rw [Stream.open_, Bool.and_eq_true, List.all_eq_true]
    exact ⟨decide_eq_true more, fun y hy => decide_eq_true (near y hy)⟩
  have sound : s.siphonErrs g x = [] := by
    refine List.filterMap_eq_nil_iff.2 fun a ha => ?_
    obtain ⟨pa, leaf, ok, -⟩ := reads a ha
    rw [ok]
  refine ⟨_, rfl, ?_⟩
  simp only [hx, opened, sound, State.tablesHeld_none hk, Bool.not_true, Bool.or_false, Bool.false_eq_true, if_false]
  rw [State.engGate_reads hk fun _ _ => rfl, State.algLoads_plain]
  · refine ⟨_, State.stream_put _ _ _ _, rfl, rfl, ?_, fun _ => rfl⟩
    rw [Tab.find_put_self, Option.map_some, List.length_map, length_filterMap_some, Stream.addrs_length]
    intro a ha
    obtain ⟨pa, leaf, ok, -⟩ := reads a ha
    rw [ok]
    rfl
  · intro p hp
    obtain ⟨a, ha, eq⟩ := List.mem_filterMap.1 hp
    obtain ⟨pa, leaf, ok, plain⟩ := reads a ha
    rw [ok] at eq
    cases eq
    exact plain

/-! ### Chamber bytes written by an engine -/

theorem leBytes_length (n x : Nat) : (leBytes n x).length = n := by
  induction n generalizing x with
  | zero => rfl
  | succ n ih => rw [leBytes, List.length_cons, ih]
theorem leBytes_getElem (n x j : Nat) (h : j < (leBytes n x).length) : (leBytes n x)[j] = nthByte x j := by
  induction n generalizing x j with
  | zero => exact absurd h (Nat.not_lt_zero j)
  | succ n ih =>
    cases j with
    | zero => simp only [leBytes, List.getElem_cons_zero, nthByte, Nat.pow_zero, Nat.div_one]
    | succ j => simp only [leBytes, List.getElem_cons_succ, ih, nthByte, Nat.pow_succ', Nat.div_div_eq_div_mul]

section
variable {α : Type} (addr : α → Nat) (bs : α → List Byte)

/-- Chamber bytes after writes, one after another. -/
def Memory.writes (xs : List α) (c : Tab Byte) : Tab Byte := xs.foldl (fun c x => Memory.write c (addr x) (bs x)) c

/-- A byte after writes that agree on it where they meet it, when some write meets it or it stood there before. -/
theorem Memory.get_writes (a : Nat) (b : Byte) {xs : List α} {c : Tab Byte}
    (agree : ∀ x ∈ xs, ∀ j, (h : j < (bs x).length) → addr x + j = a → (bs x)[j] = b)
    (met : (∃ x ∈ xs, addr x ≤ a ∧ a < addr x + (bs x).length) ∨ c.get 0 a = b) :
    Tab.get 0 (Memory.writes addr bs xs c) a = b := by
  induction xs generalizing c with
  | nil =>
    rcases met with ⟨x, hx, -⟩ | met
    · exact absurd hx List.not_mem_nil
    · exact met
  | cons y xs ih =>
    refine ih (fun x hx => agree x (List.mem_cons_of_mem _ hx)) ?_
    by_cases here : addr y ≤ a ∧ a < addr y + (bs y).length
    · obtain ⟨j, rfl⟩ := Nat.exists_eq_add_of_le here.1
      have hj : j < (bs y).length := by omega
      exact .inr ((Memory.get_write_self hj).trans (agree y List.mem_cons_self j hj rfl))
    · rcases met with ⟨x, hx, hxa⟩ | met
      · rcases List.mem_cons.1 hx with rfl | hx
        · exact absurd hxa here
        · exact .inl ⟨x, hx, hxa⟩
      · exact .inr ((Memory.get_write_other (by omega)).trans met)

variable (s : State) (h : Nat) (xs : List α)

/-- The quire's chamber takes the writes, one after another. -/
theorem State.chamOpens_quire : (xs.foldl (fun s x => s.chamOpen h (addr x) (bs x)) s).quires.find h =
    (s.quires.find h).map fun q => { q with cham := Memory.writes addr bs xs q.cham } := by
  induction xs generalizing s with
  | nil => exact (congrFun Option.map_id _).symm
  | cons x xs ih =>
    rw [List.foldl_cons, ih, State.chamOpen, State.chamWrite, State.modQuire, Tab.find_upd_self, Option.map_map, State.cutAt_eq]
    rfl
theorem State.chamOpens_cores : (xs.foldl (fun s x => s.chamOpen h (addr x) (bs x)) s).cores = s.cores := by
  induction xs generalizing s with
  | nil => rfl
  | cons x xs ih => exact ih _

end

/-! ### A readout into the chamber (R256) -/

/-- The row that a readout into the chamber writes: places and bytes. -/
def readRow (dst : Side) (stride fmt : Nat) (x : Tile) : List (DWord × List Byte) :=
  (List.range 1).flatMap fun i => (List.range 128).map fun j =>
    (dst.addr + BitVec.ofNat 64 (i * stride + j * (readFmt fmt).1),
      leBytes (readFmt fmt).1 (readElem (readFmt fmt).2 (x.elem (128 * i + j)) x.e))

theorem readFmt_bytes (f : Nat) : (readFmt f).1 = 4 ∨ (readFmt f).1 = 2 ∨ (readFmt f).1 = 1 := by
  unfold readFmt
  split
  · exact .inl rfl
  · exact .inr (.inl rfl)
  · exact .inr (.inr rfl)
  · exact .inr (.inr rfl)

section
variable {dst : Side} (stride fmt : Nat) (x : Tile) (room : dst.addr.toNat + 512 ≤ 2 ^ 32)
include room

omit x in
theorem readRow_place {i : Nat} (hi : i < 128) :
    (dst.addr + BitVec.ofNat 64 (0 * stride + i * (readFmt fmt).1)).toNat = dst.addr.toNat + i * (readFmt fmt).1 := by
  rw [Nat.zero_mul, Nat.zero_add, BitVec.toNat_add, BitVec.toNat_ofNat]
  rcases readFmt_bytes fmt with h | h | h <;> rw [h] <;> omega

/-- An entry of the row, by its element. -/
theorem mem_readRow (y : DWord × List Byte) : y ∈ readRow dst stride fmt x ↔ ∃ i < 128,
    y.1.toNat = dst.addr.toNat + i * (readFmt fmt).1 ∧ y.2 = leBytes (readFmt fmt).1 (readElem (readFmt fmt).2 (x.elem i) x.e) := by
  simp only [readRow, List.mem_flatMap, List.mem_map, List.mem_range]
  constructor
  · rintro ⟨r, hr, i, hi, rfl⟩
    obtain rfl : r = 0 := by omega
    exact ⟨i, hi, readRow_place stride fmt room hi, by rw [Nat.mul_zero, Nat.zero_add]⟩
  · rintro ⟨i, hi, ha, hb⟩
    refine ⟨0, Nat.one_pos, i, hi, Prod.ext ?_ ?_⟩
    · exact BitVec.eq_of_toNat_eq ((readRow_place stride fmt room hi).trans ha.symm)
    · rw [hb, Nat.mul_zero, Nat.zero_add]

/-- Each byte of the row after its writes. -/
theorem readRow_get (c : Tab Byte) {i j : Nat} (hi : i < 128) (hj : j < (readFmt fmt).1) :
    Tab.get 0 (Memory.writes (fun y => y.1.toNat) (·.2) (readRow dst stride fmt x) c) (dst.addr.toNat + i * (readFmt fmt).1 + j) =
      nthByte (readElem (readFmt fmt).2 (x.elem i) x.e) j := by
  refine Memory.get_writes (fun y : DWord × List Byte => y.1.toNat) (·.2) _ _ ?_ (.inl ?_)
  · intro y hy k hk same
    obtain ⟨i', hi', place, bytes⟩ := (mem_readRow stride fmt x room y).1 hy
    have short : k < (readFmt fmt).1 := by rwa [bytes, leBytes_length] at hk
    have : i' = i ∧ k = j := by
      rw [place] at same
      rcases readFmt_bytes fmt with h | h | h <;> rw [h] at same short hj <;> omega
    obtain ⟨rfl, rfl⟩ := this
    simp only [bytes, leBytes_getElem]
  · have place := readRow_place stride fmt room hi
    refine ⟨(_, leBytes (readFmt fmt).1 (readElem (readFmt fmt).2 (x.elem i) x.e)),
      (mem_readRow stride fmt x room _).2 ⟨i, hi, place, rfl⟩, ?_⟩
    simp only [leBytes_length, place]
    omega

end

/-- The end of a readout, which changes no chamber and no tile. -/
theorem State.readEnd_completed (s : State) (core : Nat) (o : MxOp) (ll : Nat) (fault : Option (BitVec 8 × Word)) :
    (∀ y ∈ ((s.readEnd core o ll fault).core core).mx, y.id ≠ o.id) ∧
      (∀ h, ((s.readEnd core o ll fault).quires.find h).map (·.cham) = (s.quires.find h).map (·.cham)) ∧
      ∀ h n, tileOf (s.readEnd core o ll fault) h n = tileOf s h n := by
  have C := (s.modSheet o.ref fun sh => sh.llGive ll []).mxFinish_completed core { o with fault }
  refine ⟨C.mx, fun h => ?_, fun h n => ?_⟩
  · exact (C.cham h).trans (State.quire_modSheet (·.cham) (fun _ _ _ => rfl) s _ _ h)
  · refine (C.tile h n).trans ?_
    rw [tileOf_eq, tileOf_eq, State.quire_modSheet (·.tiles) (fun _ _ _ => rfl)]

/-- A readout whose bytes stand in the chamber ends. -/
theorem readEnd_read {s : State} {o : MxOp} {q : Quire} {x y : Tile} {dst : Side} {stride fmt : Nat} (room : dst.addr.toNat + 512 ≤ 2 ^ 32)
    (hc : (s.quires.find o.ref.h).map (·.cham) = some (Memory.writes (fun y => y.1.toNat) (·.2) (readRow dst stride fmt x) q.cham))
    (ht : tileOf s o.ref.h o.tile = some y) (core ll : Nat) :
    let t := s.readEnd core o ll none
    (∀ y ∈ (t.core core).mx, y.id ≠ o.id) ∧
      (∀ q', t.quires.find o.ref.h = some q' → ∀ i j, i < 128 → j < (readFmt fmt).1 →
        chamber q' (dst.addr.toNat + i * (readFmt fmt).1 + j) = nthByte (readElem (readFmt fmt).2 (x.elem i) x.e) j) ∧
      tileOf t o.ref.h o.tile = some y := by
  intro t
  obtain ⟨mx, chams, tiles⟩ := s.readEnd_completed core o ll none
  refine ⟨mx, fun q' hq' i j hi hj => ?_, (tiles _ _).trans ht⟩
  have own : q'.cham = Memory.writes (fun y => y.1.toNat) (·.2) (readRow dst stride fmt x) q.cham := by
    have same := (chams o.ref.h).trans hc
    rw [hq'] at same
    exact Option.some.inj same
  rw [chamber, own]
  exact readRow_get stride fmt x room q.cham hi hj

theorem mxReadComplete_read {s : State} {core : Nat} {o : MxOp} {q : Quire} {x : Tile} (h : s.mxHead core = some (o, q, x))
    (hx : q.tiles.find o.tile = some x) {dst : Side} {stride fmt ll : Nat} {clr : Bool} (kind : o.kind = .read dst stride 1 fmt clr ll)
    (begun : o.begun = true) (sound : x.flt = false) (hk : s.rekeys = []) (unsent : Unsent s (.op o.id)) (cham : dst.cham = true)
    (room : dst.addr.toNat + 512 ≤ 2 ^ 32) :
    Answers (exec (.mxReadComplete core) s) fun t => (∀ y ∈ (t.core core).mx, y.id ≠ o.id) ∧
      (∀ q', t.quires.find o.ref.h = some q' → ∀ i j, i < 128 → j < (readFmt fmt).1 →
        chamber q' (dst.addr.toNat + i * (readFmt fmt).1 + j) = nthByte (readElem (readFmt fmt).2 (x.elem i) x.e) j) ∧
      tileOf t o.ref.h o.tile = some (if clr then { x with fresh := false, el := [] } else x) := by
  have apart : s.fins.find? (·.who == .op o.id) = none := List.find?_eq_none.2 fun f hf => by simpa using unsent.1 f hf
  let w := (readRow dst stride fmt x).foldl (fun s y => s.chamOpen o.ref.h y.1.toNat y.2) s
  have written : w.quires.find o.ref.h =
      some { q with cham := Memory.writes (fun y => y.1.toNat) (·.2) (readRow dst stride fmt x) q.cham } := by
    rw [State.chamOpens_quire (fun y : DWord × List Byte => y.1.toNat) (·.2), mxHead_quire h, Option.map_some]
  have tile : tileOf w o.ref.h o.tile = some x := by
    rw [tileOf, written]
    exact hx
  let clear : State := if clr then w.modTile o.ref.h o.tile fun t => { t with fresh := false, el := [] } else w
  have step : exec (.mxReadComplete core) s = .next (clear.readEnd core o ll none) := by
    show execMxReadComplete core s = _
    simp only [execMxReadComplete, h, kind, begun, sound, cham, Bool.not_true, Bool.false_eq_true, if_false, if_true, State.engStep,
      apart, State.tablesHeld_none hk]
    rfl
  refine ⟨_, step, readEnd_read (x := x) (q := q) (stride := stride) room ?_ ?_ core ll⟩
  · cases clr with
    | false =>
      show (w.quires.find o.ref.h).map (·.cham) = _
      rw [written, Option.map_some]
    | true =>
      show ((w.modTile o.ref.h o.tile _).quires.find o.ref.h).map (·.cham) = _
      rw [State.modTile, State.modQuire, Tab.find_upd_self, written, Option.map_some, Option.map_some]
  · cases clr with
    | false => exact tile
    | true => exact tileOf_modTile tile _

end Sys2Proof.Machine
end

section
/-! PROOFS. The watermark array (O50): candidates and their choice, the result registers, and each operation at its place. -/

namespace Sys2Proof.Machine

open Sys2Proof.Claims

/-! ### Candidates (R271-R273) -/

theorem Tab.above_unless {α : Type} {t : Tab α} {p : Prop} [Decidable p] (h : Tab.above 0 t = true) (n : Nat) (x : α) :
    Tab.above 0 (if p then t else t.put n x) = true := by
  split
  · exact h
  · exact Tab.above_put _ h (Nat.zero_le _)
/-- The elements that a candidate touches stand in order. -/
theorem State.touched_above (s : State) (h : Nat) (x : Extent) (c : Cand) : Tab.above 0 (s.touched h x c) = true := by
  unfold State.touched
  dsimp only
  generalize (List.range c.len) = is
  have keep : ∀ (is : List Nat) (f : Tab Word → Nat → Tab Word), (∀ t i, Tab.above 0 t = true → Tab.above 0 (f t i) = true) →
      ∀ t : Tab Word, Tab.above 0 t = true → Tab.above 0 (is.foldl f t) = true := by
    intro is f hf
    induction is with
    | nil => exact fun _ h => h
    | cons i is ih => exact fun t ht => ih _ (hf t i ht)
  refine keep is _ (fun t i ht => ?_) [] rfl
  split
  · exact Tab.above_unless ht _ _
  · exact Tab.above_unless ht _ _

/-- An element of an array after a candidate's values have been put (R272). -/
theorem Quire.arrElem_puts (x : Extent) {lo : Nat} {t : Tab Word} (above : Tab.above lo t = true) (q : Quire) (i : Nat) :
    (t.foldl (fun q e => q.putArr (x.base + e.1) (x.next (q.extElem x e.1) e.2)) q).arrElem i =
      if x.base ≤ i then (t.find (i - x.base)).elim (q.arrElem i) fun y => x.next (q.arrElem i) y else q.arrElem i := by
  induction t generalizing q lo with
  | nil => simp
  | cons e t ih =>
    obtain ⟨k, v⟩ := e
    rw [Tab.above, Bool.and_eq_true, decide_eq_true_eq] at above
    have put (j : Nat) : (q.putArr (x.base + k) (x.next (q.extElem x k) v)).arrElem j =
        if j = x.base + k then x.next (q.extElem x k) v else q.arrElem j := by
      unfold Quire.arrElem Quire.putArr
      rw [Tab.find_put]
      by_cases h : j = x.base + k
      · rw [if_pos h, if_pos h]
      · rw [if_neg h, if_neg h]
    rw [List.foldl_cons, ih above.2, put]
    by_cases low : x.base ≤ i
    · rw [if_pos low, if_pos low]
      by_cases here : i - x.base = k
      · have there : i = x.base + k := by omega
        rw [here, Tab.find_above above.2 (Nat.lt_succ_self k), if_pos there, Tab.find, if_pos rfl, there]
        rfl
      · have away : ¬i = x.base + k := by omega
        rw [if_neg away, Tab.find, if_neg here]
    · have away : ¬i = x.base + k := by omega
      rw [if_neg low, if_neg low, if_neg away]

/-! ### The best candidate (R278) -/

/-- A candidate that does not come before `c`: of less gain, or of the same gain and a greater key. -/
def Behind (gain : Cand → Int) (c y : Cand) : Prop := gain y < gain c ∨ (gain y = gain c ∧ (c.key < y.key ∨ y = c))
/-- The better of the best candidate until now and another. -/
def wmBetter (b : Option (Cand × Tab Word × Int)) (x : Cand × Tab Word × Int) : Option (Cand × Tab Word × Int) :=
  match b with
  | none => some x
  | some y => if y.2.2 < x.2.2 ∨ (y.2.2 = x.2.2 ∧ x.1.key < y.1.key) then some x else some y
theorem wmBest_eq (gs : List (Cand × Tab Word × Int)) : wmBest gs = gs.foldl wmBetter none := rfl

section
variable {f : Cand → Cand × Tab Word × Int} (first : ∀ c, (f c).1 = c) {c : Cand}
include first

theorem wmBetter_behind {y : Cand} (h : Behind (fun c => (f c).2.2) c y) : wmBetter (some (f y)) (f c) = some (f c) := by
  unfold wmBetter
  dsimp only
  rcases h with less | ⟨same, key | rfl⟩
  · exact if_pos (.inl less)
  · exact if_pos (.inr ⟨same, by rwa [first, first]⟩)
  · exact ite_self _
theorem wmBetter_best {y : Cand} (h : Behind (fun c => (f c).2.2) c y) : wmBetter (some (f c)) (f y) = some (f c) := by
  unfold wmBetter
  dsimp only
  rcases h with less | ⟨same, key | rfl⟩
  · dsimp only at less
    exact if_neg fun w => by omega
  · refine if_neg fun w => ?_
    dsimp only at same
    rcases w with less | ⟨-, less⟩
    · omega
    · rw [first, first] at less
      exact absurd less (BitVec.not_lt.2 (BitVec.le_of_lt key))
  · exact ite_self _

omit first in
/-- The better of two is one of them. -/
theorem wmBetter_mem (b : Option Cand) (y : Cand) :
    ∃ z, (z = y ∨ b = some z) ∧ wmBetter (b.map f) (f y) = some (f z) := by
  cases b with
  | none => exact ⟨y, .inl rfl, rfl⟩
  | some z =>
    by_cases better : (f z).2.2 < (f y).2.2 ∨ ((f z).2.2 = (f y).2.2 ∧ (f y).1.key < (f z).1.key)
    · exact ⟨y, .inl rfl, if_pos better⟩
    · exact ⟨z, .inr rfl, if_neg better⟩

/-- Once met, the candidate that every other is behind stays. -/
theorem foldl_wmBetter {cs : List Cand} {b : Option Cand} (best : ∀ y ∈ cs, Behind (fun c => (f c).2.2) c y)
    (hb : ∀ z, b = some z → Behind (fun c => (f c).2.2) c z) (hc : c ∈ cs ∨ b = some c) :
    (cs.map f).foldl wmBetter (b.map f) = some (f c) := by
  induction cs generalizing b with
  | nil => rw [hc.resolve_left List.not_mem_nil]; rfl
  | cons y cs ih =>
    have hy := best y List.mem_cons_self
    have tail (z : Cand) (hz : Behind (fun c => (f c).2.2) c z) (hc : c ∈ cs ∨ z = c) (step : wmBetter (b.map f) (f y) = some (f z)) :
        ((y :: cs).map f).foldl wmBetter (b.map f) = some (f c) := by
      rw [List.map_cons, List.foldl_cons, step]
      exact ih (b := some z) (fun u hu => best u (List.mem_cons_of_mem _ hu)) (fun u hu => Option.some.inj hu ▸ hz)
        (hc.imp_right (congrArg some))
    rcases hc with hc | rfl
    · rcases List.mem_cons.1 hc with rfl | hc
      · refine tail c hy (.inr rfl) ?_
        cases b with
        | none => rfl
        | some z => exact wmBetter_behind first (hb z rfl)
      · obtain ⟨z, hz, step⟩ := wmBetter_mem (f := f) b y
        exact tail z (hz.elim (fun e => e ▸ hy) (hb z)) (.inl hc) step
    · exact tail c (hb c rfl) (.inr rfl) (wmBetter_best first hy)

/-- A select takes the candidate that every other is behind, wherever it stands (R278). -/
theorem wmBest_of_behind {cs : List Cand} (hc : c ∈ cs) (best : ∀ y ∈ cs, Behind (fun c => (f c).2.2) c y) :
    wmBest (cs.map f) = some (f c) := by
  rw [wmBest_eq]
  exact foldl_wmBetter first (b := none) best (fun _ h => nomatch h) (.inl hc)

end

/-! ### Result registers (R275) -/

/-- The result group by numbers: the gain in two words, a key and a version. -/
def resultWords (g : Int) (key ver : Word) : List Word := [BitVec.ofInt 32 g, BitVec.ofInt 32 (g / 2 ^ 32), key, ver]
theorem wmResult_eq (g : Int) (key ver : Word) : wmResult g key ver = resultWords g key ver := by
  have lo : loWord (BitVec.ofInt 64 g) = BitVec.ofInt 32 g := by
    apply BitVec.eq_of_toNat_eq
    simp only [loWord, BitVec.toNat_setWidth, BitVec.toNat_ofInt]
    omega
  have hi : hiWord (BitVec.ofInt 64 g) = BitVec.ofInt 32 (g / 2 ^ 32) := by
    apply BitVec.eq_of_toNat_eq
    simp only [hiWord, BitVec.toNat_setWidth, BitVec.toNat_ushiftRight, BitVec.toNat_ofInt, Nat.shiftRight_eq_div_pow]
    omega
  rw [wmResult, lo, hi, resultWords]

/-- The register writes of a result whose first word goes to register `sd + k`. -/
def resultWrites (sd : Nat) (ws : List Word) (k : Nat := 0) : List (RegKey × Word) :=
  (ws.zipIdx k).map fun w => (.s (sd + w.2), w.1)
/-- The word of a result that a register gets. -/
def resultValue (sd : Nat) (ws : List Word) (key : RegKey) : Option Word :=
  (List.range ws.length).findSome? fun j => if key = .s (sd + j) then ws[j]? else none

theorem find?_resultWrites (sd : Nat) (key : RegKey) (ws : List Word) (k : Nat) :
    ((resultWrites sd ws k).find? fun w => w.1 = key).map (·.2) =
      (List.range ws.length).findSome? fun j => if key = .s (sd + (k + j)) then ws[j]? else none := by
  induction ws generalizing k with
  | nil => rfl
  | cons w ws ih =>
    rw [List.length_cons, List.range_succ_eq_map, List.findSome?_cons, List.findSome?_map, resultWrites, List.zipIdx_cons, List.map_cons,
      List.find?_cons]
    by_cases here : key = .s (sd + k)
    · simp [here]
    · simp only [here, Ne.symm here, decide_false, if_false, Nat.add_zero]
      refine (ih (k + 1)).trans ?_
      congr 1
      funext j
      simp only [Function.comp, List.getElem?_cons_succ, Nat.add_assoc, Nat.add_comm 1]

/-! ### A gain above a threshold (R278) -/

theorem isNaN32_eq (w : Word) : isNaN32 w = nan32 (w.setWidth 64) := by
  have same : (w.setWidth 64).toNat % 2 ^ 32 = w.toNat := by rw [BitVec.toNat_setWidth]; omega
  rw [← isNan_rd32 false, rd32, same]
  rfl
theorem setWidth_ofInt (g : Int) : (BitVec.ofInt 32 g).setWidth 64 = low32 g := by
  apply BitVec.eq_of_toNat_eq
  simp only [low32, BitVec.toNat_setWidth, BitVec.toNat_ofInt, BitVec.toNat_ofNat]
  omega
theorem Extent.beats_eq (x : Extent) (g : Int) (thr : DWord) : x.beats g thr =
    if x.mode = 1 then decide ((thr.toNat : Int) < g)
    else !nan32 (low32 g) && !nan32 ((thr.setWidth 32).setWidth 64) &&
      decide (0 < FV.cmp (fp32.decode (low32 g).toNat) (fp32.decode (thr.toNat % 2 ^ 32))) := by
  have gain : (low32 g).toNat = (BitVec.ofInt 32 g).toNat := by
    rw [← setWidth_ofInt, BitVec.toNat_setWidth]
    omega
  have bits : thr.toNat % 2 ^ 32 = (loWord thr).toNat := by rw [loWord, BitVec.toNat_setWidth]
  rw [Extent.beats, above32, isNaN32_eq, isNaN32_eq, setWidth_ofInt, gain, bits]
  simp only [Extent.i32, beq_iff_eq]
  rfl

/-! ### No `wm.init` waits (R270) -/

/-- No sheet of a quire waits in `wm.init`. -/
def Quire.noInit (q : Quire) : Prop := ∀ y ∈ q.sheets, y.2.wait.wmTurn = 0
/-- None does of a quire of the module. -/
def State.noInit (s : State) (h : Nat) : Prop := ∀ q, s.quires.find h = some q → q.noInit

theorem Wait.wmTurn_zero {w : Wait} (h : ∀ ids n m b l v c, w ≠ .wmInit ids n m b l v c) : w.wmTurn = 0 := by
  cases w with
  | wmInit ids n m b l v c => exact absurd rfl (h ids n m b l v c)
  | _ => rfl
theorem Quire.noInit_modSheet {q : Quire} (h : q.noInit) (k : Nat) {f : Sheet → Sheet}
    (hf : ∀ sh, sh.wait.wmTurn = 0 → (f sh).wait.wmTurn = 0) :
    (q.modSheet k f).noInit := by
  intro y hy
  obtain ⟨e, he, rfl⟩ := List.mem_map.1 hy
  split
  · exact hf _ (h e he)
  · exact h e he
theorem Quire.noInit_write {q : Quire} (h : q.noInit) (k cyc : Nat) (key : RegKey) (w : Word) : (q.write k cyc key w).noInit := by
  have own : (q.modSheet k fun sh => (sh.race key).setReg key w).noInit := Quire.noInit_modSheet h k fun sh hs => by
    have wait : ((sh.race key).setReg key w).apart.wait = sh.apart.wait := by rw [Sheet.setReg_apart, Sheet.race_apart]
    exact (congrArg Wait.wmTurn wait).trans hs
  have shows (js : List Nat) (n : Nat) (v : Word) : ∀ q : Quire, q.noInit → (js.foldl (fun q j => q.showQ j n v) q).noInit := by
    induction js with
    | nil => exact fun _ h => h
    | cons j js ih => exact fun q h => ih _ (Quire.noInit_modSheet h j fun _ hs => hs)
  cases key with
  | v r l => exact own
  | s n => exact own
  | q n => exact shows _ n _ _ own

theorem State.noInit_modQuire {s : State} {h : Nat} (idle : s.noInit h) {f : Quire → Quire} (hf : ∀ q, q.noInit → (f q).noInit) :
    (s.modQuire h f).noInit h := by
  intro q' hq'
  rw [State.modQuire, Tab.find_upd_self] at hq'
  obtain ⟨q, hq, rfl⟩ := Option.map_eq_some_iff.1 hq'
  exact hf q (idle q hq)
theorem State.noInit_writeRegs {s : State} {r : SheetRef} (idle : s.noInit r.h) (ws : List (RegKey × Word)) : (s.writeRegs r ws).noInit r.h := by
  refine State.noInit_modQuire idle fun q hq => ?_
  induction ws generalizing q with
  | nil => exact hq
  | cons w ws ih => exact ih _ (Quire.noInit_write hq _ _ _ _)

theorem State.wmInits_noInit {s : State} (core : Nat) {h : Nat} (idle : s.noInit h) : s.wmInits core h = s := by
  have one : s.wmInit1 core h = s := by
    unfold State.wmInit1
    split
    · rfl
    · rename_i q hq
      have empty (p : Nat × Sheet → Bool) : (q.sheets.find? fun x => x.2.wait.wmTurn != 0 && p x) = none :=
        List.find?_eq_none.2 fun y hy => by rw [idle q hq y hy]; exact Bool.false_ne_true
      simp only [empty]
  unfold State.wmInits
  generalize (List.range _) = is
  induction is with
  | nil => rfl
  | cons i is ih => rw [List.foldl_cons, one, ih]

/-! ### The end of an operation of the watermark array (R275, R279, R280) -/

/-- An operation's entries go, and its sheet gets its result. -/
def State.wmGone (s : State) (core id : Nat) (o : WmOp) (ws : List Word) : State :=
  let s := (s.modCore core fun c => { c with wm := c.wm.filter (·.id != id) }).boardDrop core id
  (s.linkSync (· == .eng id) (.wma o.ref)).modSheet o.ref fun sh => sh.llGive o.ll (resultWrites o.sd ws)
/-- A `wm.sync` that waits for the last operation of its sheet ends. -/
def State.wmSynced (s : State) (core : Nat) (o : WmOp) : State :=
  match (s.sheet? o.ref).map Sheet.wait with
  | some (.wmSync sd) =>
    if s.wmBusy core (· == o.ref) then s
    else
      let ver := ((s.quires.find o.ref.h).bind (·.ext)).elim 0 (·.ver)
      ((s.joinEng o.ref (· == Sync.wma o.ref)).writeRegs o.ref [(.s sd, ver)]).wake o.ref
  | _ => s
/-- All of it. -/
def State.wmEnd (s : State) (core id : Nat) (o : WmOp) (ws : List Word) : State :=
  (((s.wmGone core id o ws).wmSynced core o).wmInits core o.ref.h).retryAll

theorem State.wmSynced_ends (s : State) (core : Nat) (o : WmOp) : Ends s (s.wmSynced core o) := by
  unfold State.wmSynced
  split
  · split
    · exact Ends.refl s
    · exact Ends.trans (Ends.of_eq (t := s.joinEng o.ref (· == Sync.wma o.ref)) rfl rfl)
        ((Ends.writeRegs _ o.ref _).trans (Ends.wake _ _))
  · exact Ends.refl s
theorem State.wmSynced_noInit {s : State} (core : Nat) {o : WmOp} (idle : s.noInit o.ref.h) : (s.wmSynced core o).noInit o.ref.h := by
  unfold State.wmSynced
  split
  · split
    · exact idle
    · have joined : (s.joinEng o.ref (· == Sync.wma o.ref)).noInit o.ref.h := idle
      exact State.noInit_modQuire (State.noInit_writeRegs joined _) fun q hq => Quire.noInit_modSheet hq _ fun _ _ => rfl
  · exact idle

/-- What such an end leaves of the state in which the operation has had its place: `q` is its quire there. -/
structure WmEnded (s t : State) (core id : Nat) (o : WmOp) (q : Quire) (ws : List Word) : Prop where
  wm    : (t.core core).wm = (s.core core).wm.filter (·.id != id)
  board : ∀ b ∈ (t.core core).board, b.op ≠ id
  quire : ∀ {β : Type} (g : Quire → β), (∀ q, g q.rest = g q) → (∀ q k f, g (Quire.modSheet q k f) = g q) →
    (t.quires.find o.ref.h).map g = some (g q)
  sheet : ∀ {β : Type} (g : Sheet → β), (∀ sh, g sh.rest = g sh) → ∀ sh, q.sheets.find o.ref.k = some sh →
    (t.sheet? o.ref).map g = some (g (sh.llGive o.ll (resultWrites o.sd ws)))

theorem State.wmEnd_ended {s : State} (core id : Nat) {o : WmOp} {q : Quire} (hq : s.quires.find o.ref.h = some q) (idle : q.noInit)
    (ws : List Word) :
    WmEnded s (s.wmEnd core id o ws) core id o q ws := by
  have gone : (s.wmGone core id o ws).quires.find o.ref.h = some (q.modSheet o.ref.k fun sh => sh.llGive o.ll (resultWrites o.sd ws)) := by
    rw [State.wmGone, State.modSheet, State.modQuire, Tab.find_upd_self]
    exact congrArg (Option.map _) hq
  have still : (s.wmGone core id o ws).noInit o.ref.h := by
    intro q' hq'
    obtain rfl := Option.some.inj (gone.symm.trans hq')
    exact Quire.noInit_modSheet idle _ fun _ hs => hs
  have late : Ends (s.wmGone core id o ws) (s.wmEnd core id o ws) := by
    rw [State.wmEnd, State.wmInits_noInit core (State.wmSynced_noInit core still)]
    exact (State.wmSynced_ends _ core o).trans (Ends.retryAll _)
  have cores : (s.wmGone core id o ws).core core =
      { (s.core core) with wm := (s.core core).wm.filter (·.id != id), board := (s.core core).board.filter (·.op != id) } := by
    show (State.boardDrop _ core id).core core = _
    rw [State.boardDrop, State.core_modCore, State.core_modCore]
  refine ⟨?_, fun b hb => ?_, fun g hr hm => ?_, fun g hr sh hsh => ?_⟩
  · rw [late.wm, cores]
  · rw [late.board, cores] at hb
    simpa using (List.mem_filter.1 hb).2
  · rw [late.quire_map g hr, gone, Option.map_some, hm]
  · rw [late.sheet_map g hr, State.sheet?, gone, Option.bind_some, Quire.modSheet, Tab.find_upd_self, hsh]
    rfl

theorem wmaOpPerform_eq {s : State} {core id : Nat} {o : WmOp} {q : Quire} {x : Extent}
    (found : ((s.core core).wm.find? fun o => o.id = id) = some o) (first : ∀ y ∈ (s.core core).wm, y.id ≠ id → y.ref ≠ o.ref)
    (hq : s.quires.find o.ref.h = some q) (hx : q.ext = some x) :
    exec (.wmaOpPerform core id) s = .next ((s.wmPlace o q x).1.wmEnd core id o (s.wmPlace o q x).2) := by
  have found' : (s.core core).wm.find? (·.id == id) = some o := found
  have turn : (((s.core core).wm.takeWhile (·.id != id)).any (·.ref == o.ref)) = false := by
    rw [List.any_eq_false]
    intro y hy
    have ne := first y (List.takeWhile_subset _ hy) (by simpa using List.mem_takeWhile_imp hy)
    simpa using ne
  show execWmaOpPerform core id s = _
  simp only [execWmaOpPerform, found', hq, turn, hx, Bool.false_eq_true, if_false]
  rfl

/-! ### Operations of the watermark array (R274, R277-R279) -/

theorem answers_mono {o : Out} {P Q : State → Prop} (h : Answers o P) (imp : ∀ t, P t → Q t) : Answers o Q := by
  obtain ⟨t, eq, ht⟩ := h
  exact ⟨t, eq, imp t ht⟩

/-- An operation has completed with the words `ws` for its registers (R275, R280). -/
def WmDone (s : State) (core id : Nat) (o : WmOp) (sh : Sheet) (t : State) (ws : List Word) : Prop :=
  (t.core core).wm = (s.core core).wm.filter (fun y => y.id ≠ id) ∧
    (∀ b ∈ (t.core core).board, b.op ≠ id) ∧ (t.sheet? o.ref).map (fun y => y.lls.map fun l => (l.id, l.left)) =
      some (sh.lls.map fun l => (l.id, if l.id = o.ll then l.left - 1 else l.left)) ∧
    (t.sheet? o.ref).map (fun y => y.lls.map fun l => l.outs.map fun d => (d.key, d.val)) =
      some (sh.lls.map fun l => l.outs.map fun d => (d.key, if l.id = o.ll then (resultValue o.sd ws d.key).or d.val else d.val))

/-- Parts and outstanding words after `llGive` (R58). -/
theorem Sheet.llGive_left (sh : Sheet) (id : Nat) (ws : List (RegKey × Word)) :
    (sh.llGive id ws).lls.map (fun l => (l.id, l.left)) = sh.lls.map fun l => (l.id, if l.id = id then l.left - 1 else l.left) := by
  rw [Sheet.llGive, List.map_map]
  refine List.map_congr_left fun l _ => ?_
  simp only [Function.comp]
  split <;> rfl
theorem Sheet.llGive_outs (sh : Sheet) (id : Nat) (ws : List (RegKey × Word)) :
    (sh.llGive id ws).lls.map (fun l => l.outs.map fun d => (d.key, d.val)) = sh.lls.map fun l => l.outs.map fun d =>
      (d.key, if l.id = id then ((ws.find? fun w => w.1 = d.key).map (·.2)).or d.val else d.val) := by
  rw [Sheet.llGive, List.map_map]
  refine List.map_congr_left fun l _ => ?_
  simp only [Function.comp]
  split
  · rw [List.map_map]
    refine List.map_congr_left fun d _ => ?_
    simp only [Function.comp]
    cases ws.find? fun w => w.1 = d.key <;> rfl
  · rfl

theorem WmEnded.done {s u t : State} {core id : Nat} {o : WmOp} {q : Quire} {ws : List Word} (E : WmEnded u t core id o q ws)
    (cores : u.cores = s.cores) {sh : Sheet} (hs : q.sheets.find o.ref.k = some sh) : WmDone s core id o sh t ws := by
  have unmarked (l : LL) : l.unmarked.outs.map (fun d => (d.key, d.val)) = l.outs.map fun d => (d.key, d.val) := by
    rw [LL.unmarked, List.map_map]
    rfl
  refine ⟨?_, E.board, ?_, ?_⟩
  · rw [E.wm, State.core, cores]
    exact List.filter_congr fun y _ => by rw [bne, decide_not]; rfl
  · rw [E.sheet _ (fun sh => ?_) sh hs, Sheet.llGive_left]
    exact List.map_map
  · rw [E.sheet _ (fun sh => ?_) sh hs, Sheet.llGive_outs]
    · simp only [find?_resultWrites, Nat.zero_add]
      rfl
    · exact List.map_map.trans (List.map_congr_left fun l _ => unmarked l)

theorem Quire.applyCand_sheets (q : Quire) (x : Extent) (t : Tab Word) : (q.applyCand x t).sheets = q.sheets := by
  have puts : ∀ q : Quire, (t.foldl (fun q e => q.putArr (x.base + e.1) (x.next (q.extElem x e.1) e.2)) q).sheets = q.sheets := by
    induction t with
    | nil => exact fun _ => rfl
    | cons e t ih => exact fun q => ih _
  exact puts q

section
variable {s : State} {core id : Nat} {o : WmOp} {q : Quire} {sh : Sheet} {x : Extent}
  (found : ((s.core core).wm.find? fun o => o.id = id) = some o) (first : ∀ y ∈ (s.core core).wm, y.id ≠ id → y.ref ≠ o.ref)
  (hq : s.quires.find o.ref.h = some q) (hsh : q.sheets.find o.ref.k = some sh) (hx : q.ext = some x)
  (calm : ∀ y ∈ q.sheets, ∀ ids n m b l v c, y.2.wait ≠ .wmInit ids n m b l v c)
include found first hq hsh hx calm

/-- An operation that has its place in state `u`, where its quire is `p`, completes with its words. -/
theorem wmaOpPerform_done {u : State} {p : Quire} {ws : List Word} (place : s.wmPlace o q x = (u, ws))
    (hp : u.quires.find o.ref.h = some p) (sheets : p.sheets = q.sheets) (cores : u.cores = s.cores) :
    Answers (exec (.wmaOpPerform core id) s) fun t => WmDone s core id o sh t ws ∧ ∀ {β : Type} (g : Quire → β),
      (∀ q, g q.rest = g q) → (∀ q k f, g (Quire.modSheet q k f) = g q) → (t.quires.find o.ref.h).map g = some (g p) := by
  have quiet : p.noInit := fun y hy => Wait.wmTurn_zero (calm y (sheets ▸ hy))
  have E := State.wmEnd_ended core id hp quiet ws
  refine ⟨_, wmaOpPerform_eq found first hq hx, ?_⟩
  rw [place]
  exact ⟨E.done cores (sheets ▸ hsh), E.quire⟩

/-- One that changes nothing but registers. -/
theorem wmaOpPerform_same {ws : List Word} (place : s.wmPlace o q x = (s, ws)) :
    Answers (exec (.wmaOpPerform core id) s) fun t =>
      WmDone s core id o sh t ws ∧ (t.quires.find o.ref.h).map (·.ext) = some (some x) :=
  answers_mono (wmaOpPerform_done found first hq hsh hx calm place hq rfl rfl) fun _ ⟨done, keeps⟩ =>
    ⟨done, hx ▸ keeps (·.ext) (fun _ => rfl) (fun _ _ _ => rfl)⟩

/-- One that applies a candidate (R272, R277). -/
theorem wmaOpPerform_applied {c : Cand} {ws : List Word}
    (place : s.wmPlace o q x = (s.modQuire o.ref.h fun q => q.applyCand x (s.touched o.ref.h x c), ws)) :
    Answers (exec (.wmaOpPerform core id) s) fun t => WmDone s core id o sh t ws ∧
      (t.quires.find o.ref.h).map (·.ext) = some (some { x with ver := x.ver + 1 }) ∧
      ∀ q', t.quires.find o.ref.h = some q' → ∀ i, q'.arrElem i =
        if x.base ≤ i then ((s.touched o.ref.h x c).find (i - x.base)).elim (q.arrElem i) fun y => x.next (q.arrElem i) y else q.arrElem i := by
  have own : (s.modQuire o.ref.h fun q => q.applyCand x (s.touched o.ref.h x c)).quires.find o.ref.h =
      some (q.applyCand x (s.touched o.ref.h x c)) := by rw [State.modQuire, Tab.find_upd_self, hq, Option.map_some]
  refine answers_mono (wmaOpPerform_done found first hq hsh hx calm place own (Quire.applyCand_sheets _ _ _) rfl)
    fun t ⟨done, keeps⟩ => ⟨done, ?_, ?_⟩
  · exact keeps (·.ext) (fun _ => rfl) (fun _ _ _ => rfl)
  · intro q' hq' i
    have elem := keeps (·.arrElem i) (fun _ => rfl) (fun _ _ _ => rfl)
    rw [hq'] at elem
    exact (Option.some.inj elem).trans (Quire.arrElem_puts x (s.touched_above o.ref.h x c) q i)

/-- A select takes the best candidate when its gain is above the threshold, and none otherwise (R278). -/
theorem wmaOpPerform_select {cs : List Cand} {thr : DWord} {c : Cand} (kind : o.kind = .select cs thr) (hc : c ∈ cs)
    (best : ∀ y ∈ cs, Behind (fun c => q.gain x (s.touched o.ref.h x c)) c y) {above : Bool}
    (ha : x.beats (q.gain x (s.touched o.ref.h x c)) thr = above) :
    Answers (exec (.wmaOpPerform core id) s) fun t =>
      if above then WmDone s core id o sh t (resultWords (q.gain x (s.touched o.ref.h x c)) c.key (x.ver + 1)) ∧
        (t.quires.find o.ref.h).map (·.ext) = some (some { x with ver := x.ver + 1 }) ∧
        ∀ q', t.quires.find o.ref.h = some q' → ∀ i, q'.arrElem i =
          if x.base ≤ i then ((s.touched o.ref.h x c).find (i - x.base)).elim (q.arrElem i) fun y => x.next (q.arrElem i) y else q.arrElem i
      else WmDone s core id o sh t (resultWords 0 0xFFFFFFFF x.ver) ∧ (t.quires.find o.ref.h).map (·.ext) = some (some x) := by
  have chosen := wmBest_of_behind (f := fun c => (c, s.touched o.ref.h x c, q.gain x (s.touched o.ref.h x c))) (fun _ => rfl) hc best
  cases above with
  | true =>
    refine wmaOpPerform_applied found first hq hsh hx calm ?_
    simp only [State.wmPlace, kind, chosen, ha, if_true, wmResult_eq]
  | false =>
    refine wmaOpPerform_same found first hq hsh hx calm ?_
    simp only [State.wmPlace, kind, chosen, ha, Bool.false_eq_true, if_false, wmResult_eq]

/-- A read puts elements into the chamber (R279). -/
theorem wmaOpPerform_read {dst first' n : Nat} (kind : o.kind = .read dst first' n) :
    Answers (exec (.wmaOpPerform core id) s) fun t => WmDone s core id o sh t [x.ver] ∧
      (t.quires.find o.ref.h).map (·.ext) = some (some x) ∧ ∀ q', t.quires.find o.ref.h = some q' → ∀ a, chamber q' a =
        if dst ≤ a ∧ a < dst + 4 * n then nthByte (q.arrElem (x.base + first' + (a - dst) / 4)).toNat ((a - dst) % 4) else chamber q a := by
  have own := State.chamOpens_quire (fun i => dst + 4 * i) (fun i => leBytes 4 (q.extElem x (first' + i)).toNat) s o.ref.h (List.range n)
  rw [hq, Option.map_some] at own
  refine answers_mono (wmaOpPerform_done found first hq hsh hx calm ?_ own rfl (State.chamOpens_cores _ _ _ _ _))
    fun t ⟨done, keeps⟩ => ⟨done, ?_, ?_⟩
  · simp only [State.wmPlace, kind]
  · exact hx ▸ keeps (·.ext) (fun _ => rfl) (fun _ _ _ => rfl)
  · intro q' hq' a
    have byte := keeps (fun q => chamber q a) (fun _ => rfl) (fun _ _ _ => rfl)
    rw [hq'] at byte
    refine (Option.some.inj byte).trans (Memory.get_writes _ _ _ _ ?_ ?_)
    · intro i hi j hj same
      have short : j < 4 := by rwa [leBytes_length] at hj
      have ni := List.mem_range.1 hi
      rw [leBytes_getElem, if_pos (by omega), Quire.extElem, ← Nat.add_assoc, show (a - dst) / 4 = i by omega, show (a - dst) % 4 = j by omega]
    · by_cases inside : dst ≤ a ∧ a < dst + 4 * n
      · refine .inl ⟨(a - dst) / 4, List.mem_range.2 (by omega), ?_⟩
        rw [leBytes_length]
        omega
      · exact .inr (if_neg inside).symm

end

/-- Settles O50: each step by what it does to what the claim reads (`matrixOpStart_zero`, `promotionStep_promoted`,
`matrixOpComplete_completed`, `mxReadComplete_read`, `siphonBlockRead_read`, `wmaOpPerform_done`); what the end of an operation changes
beside is `Ends`. -/
theorem engineEvents : Obligations.EngineEvents := by
  intro s
  refine ⟨fun core o q x h hx => ⟨?_, ?_, ?_, ?_, ?_⟩, ?_, ?_⟩
  · intro fresh e kind
    exact matrixOpStart_zero h hx fresh kind
  · intro fresh m kind sound
    exact matrixOpStart_mma h hx fresh kind sound
  · intro m kind begun sound again more hk faults hb cham
    exact promotionStep_promoted h hx kind begun sound again more hk faults hb cham
  · intro begun kind
    exact matrixOpComplete_completed h begun kind
  · intro dst stride fmt ll clr kind begun sound hk unsent cham room
    exact mxReadComplete_read h hx kind begun sound hk unsent cham room
  · intro g n x hx more near hk reads
    exact siphonBlockRead_read hx more near hk reads
  · intro core id o q sh x found first hq hsh hx calm
    refine ⟨?_, ?_, ?_, ?_, ?_, ?_⟩
    · intro c kind
      refine wmaOpPerform_same found first hq hsh hx calm ?_
      simp only [State.wmPlace, kind, wmResult_eq, resultWords]
    · intro c kind
      refine wmaOpPerform_applied found first hq hsh hx calm ?_
      simp only [State.wmPlace, kind, Option.any_none, Bool.false_eq_true, if_false, wmResult_eq, resultWords]
    · intro c v kind stale
      refine wmaOpPerform_same found first hq hsh hx calm ?_
      simp only [State.wmPlace, kind, Option.any_some, bne_iff_ne, ne_eq, stale, not_false_eq_true, if_true, wmResult_eq, resultWords]
    · intro c kind
      refine wmaOpPerform_applied found first hq hsh hx calm ?_
      simp only [State.wmPlace, kind, Option.any_some, bne_self_eq_false, Bool.false_eq_true, if_false, wmResult_eq, resultWords]
    · intro cs thr c kind hc best above
      exact wmaOpPerform_select found first hq hsh hx calm kind hc best (x.beats_eq _ thr)
    · intro dst first' n kind
      exact wmaOpPerform_read found first hq hsh hx calm kind

end Sys2Proof.Machine
end

section
/-! SUPPORT. Register words by their rows: what a word writes depends on its results in the registers of D alone, an opcode stands
in a word's top byte, and one condition that some of the issuers raise. -/

namespace Sys2Proof.Machine

open Sys2Proof.Claims

/-! ### Results in the registers of D -/

/-- Two results that leave the same in `k` registers (R65). -/
def Agree (k : Nat) (x y : DWord) : Prop := if k = 1 then loWord x = loWord y else x = y

theorem Agree.of_eq {k : Nat} {x y : DWord} (h : x = y) : Agree k x y := by
  subst h
  unfold Agree
  split <;> rfl

theorem Agree.of_loWord {x y : DWord} (h : loWord x = loWord y) : Agree 1 x y := h

theorem Env.dst_congr {k : Nat} {x y : DWord} (h : Agree k x y) (e : Env) (l : Option Nat) (n : Nat) : e.dst l k n x = e.dst l k n y := by
  unfold Agree at h
  split at h
  · rename_i one
    subst one
    rw [Env.dst, Env.dst, h]
  · rw [h]

theorem aluWrites_congr {e : Env} {w : FR} {nd na nb nc : Nat} {f g : DWord → DWord → DWord → DWord → DWord}
    (h : ∀ a b c d, Agree nd (f a b c d) (g a b c d)) : aluWrites e w nd na nb nc f = aluWrites e w nd na nb nc g :=
  List.flatMap_congr fun _ _ => Env.dst_congr (h _ _ _ _) e _ _

/-- An instruction is a register word without conditions, whose results are those of a row. -/
def RunsAs (i : Instr) (x : RRow) : Prop :=
  ∃ f, (∀ s, exec i s = aluInt x.w x.nd x.na x.nb x.nc f s) ∧ ∀ a b c d, Agree x.nd (f a b c d) (x.f a b c d)

theorem RunsAs.acts {i : Instr} {x : RRow} {s : State} {e : Env} (R : RunsAs i x) (L : Live s e)
    (hv : e.sh.vOk (aluVs x.w x.nd x.na x.nb x.nc) = true) :
    Answers (exec i s) fun t => Acts s t e (aluWrites e x.w x.nd x.na x.nb x.nc x.f) id 0 := by
  obtain ⟨f, run, same⟩ := R
  rw [run, ← aluWrites_congr same]
  exact aluInt_acts L hv

/-! ### Fields of a well-formed word (R66) -/

theorem Wf.subf_of_intR {w : FR} {tys : List Ty} {m : BitVec 9} {nd na nb nc : Nat} (h : Wf.intR w tys m nd na nb nc = true) :
    w.subf &&& ~~~m = 0 := by
  simp only [Wf.intR, Bool.and_eq_true, decide_eq_true_eq] at h
  obtain ⟨⟨-, subf⟩, -⟩ := h
  exact subf

/-- The opcode of a word (R62). -/
theorem opcode_of_encode {i : Instr} {o : BitVec 8} {f : Fields} {v : DWord} (h : i.fields = some (o, f)) (hv : encode i = some v) :
    v.extractLsb' 56 8 = o := by
  rw [encode_of_fields h] at hv
  cases hv
  exact (BitVec.extractLsb'_append_eq_of_le (Nat.le_refl 56)).trans BitVec.extractLsb'_eq_self

/-! ### One condition -/

/-- The condition that some of the issuers raise (R98). -/
theorem condAll_any {α : Type} (xs : List α) (n : α → Nat) (p : α → Bool) (c : Cond) :
    condAll (xs.map fun x => (n x, if p x then c else 0)) = if xs.any p then c else 0 := by
  have from_ (k : Cond) : (xs.map fun x => (n x, if p x then c else 0)).foldl (fun k x => k ||| x.2) k =
      k ||| if xs.any p then c else 0 := by
    induction xs generalizing k with
    | nil => exact BitVec.or_zero.symm
    | cons x xs ih =>
      rw [List.map_cons, List.foldl_cons, ih, List.any_cons]
      cases p x
      · simp
      · cases xs.any p <;> simp [BitVec.or_assoc]
  exact (from_ 0).trans BitVec.zero_or

end Sys2Proof.Machine
end

section
/-! PROOFS. Integer arithmetic (O1): exact results in a register, with SAT or without, and the pairs. -/

namespace Sys2Proof.Machine

open Sys2Proof.Claims

/-! ### Results in 32 bits -/

theorem loWord_fit {t : Ty} (h : t ≠ .i64) (sat : Bool) (x : Int) : loWord (fit32 t sat x) = loWord (fit t sat x) := by
  rw [fit, loWord_low32]
  cases sat
  · exact loWord_fit32 t x
  · have signed : Ty.signed t = decide (t = .i32) := by cases t <;> simp_all [Ty.signed]
    rw [fit32, signed]
    refine (loWord_wd _).trans ?_
    by_cases i32 : t = .i32 <;> simp [i32]
theorem loWord_fit_false (t : Ty) (x : Int) : loWord (fit32 t false x) = loWord (low32 x) := by
  rw [loWord_fit32, loWord_low32]

theorem val_maxBy {t : Ty} (h : t ≠ .i64) (a b : DWord) : val t (maxBy t a b) = max (val t a) (val t b) := by
  rw [maxBy, val32_eq_val h, val32_eq_val h, Int.max_def]
  split <;> rfl

/-! ### Dot products (R129) -/

theorem foldl_add_sum (f : Nat → Int) (xs : List Nat) (a : Int) : xs.foldl (fun s j => s + f j) a = a + (xs.map f).sum := by
  induction xs generalizing a with
  | nil => simp
  | cons x xs ih => rw [List.foldl_cons, ih, List.map_cons, List.sum_cons, Int.add_assoc]

/-- An element of a register, as its type reads it. -/
theorem part_eq {t : Ty} (h : t ≠ .i64) (b j : Nat) (x : DWord) :
    (if Ty.signed t && decide (2 ^ (b - 1) ≤ field b x j) then (field b x j : Int) - 2 ^ b else field b x j) = part t b j x := by
  have signed : Ty.signed t = decide (t = .i32) := by cases t <;> simp_all [Ty.signed]
  rw [signed]
  simp only [Bool.and_eq_true, decide_eq_true_eq]
  rfl
theorem loWord_dotInt {w : FR} (h : w.ty ≠ .i64) (b n : Nat) (x y z : DWord) :
    loWord (dotInt w b n x y z) = loWord (fit w.ty (w.subf.getLsbD 0)
      (val w.ty z + ((List.range n).map fun j => part w.ty b j x * part w.ty b j y).sum)) := by
  rw [dotInt]
  simp only [part_eq h]
  rw [foldl_add_sum, val32_eq_val h]
  exact loWord_fit h _ _

/-! ### Pairs -/

theorem ofInt_sub_toNat (a b : DWord) : BitVec.ofInt 64 ((a.toNat : Int) - b.toNat) = a - b := by
  rw [Int.sub_eq_add_neg, BitVec.ofInt_add, BitVec.ofInt_neg, BitVec.ofInt_natCast, BitVec.ofInt_natCast, BitVec.ofNat_toNat,
    BitVec.ofNat_toNat, BitVec.setWidth_eq, BitVec.setWidth_eq, BitVec.sub_eq_add_neg]
theorem lea_eq (a b : DWord) (k : Nat) :
    a + (loWord b).signExtend 64 <<< k = BitVec.ofInt 64 ((a.toNat : Int) + val .i32 b * 2 ^ k) := by
  rw [BitVec.ofInt_add, BitVec.ofInt_natCast, BitVec.ofNat_toNat, BitVec.setWidth_eq, BitVec.ofInt_mul, val_i32,
    BitVec.shiftLeft_eq_mul_twoPow]
  congr 2
  apply BitVec.eq_of_toNat_eq
  rw [BitVec.toNat_twoPow, show (2 : Int) ^ k = ((2 ^ k : Nat) : Int) by norm_cast, BitVec.ofInt_natCast, BitVec.toNat_ofNat]

/-! ### The words -/

/-- Each word of R113 and each integer dot product of R129 gives the value of its row. -/
theorem arith_runs {i : Instr} {x : RRow} (h : arith i = some x) (hw : i.wf = true) : RunsAs i x := by
  unfold arith at h
  have narrow {t : Ty} (ht : t ∈ [Ty.i32, .n32]) : t ≠ .i64 := by fin_cases ht <;> decide
  split at h
  case h_1 w | h_2 w =>
    cases h
    have ty := narrow (Wf.ty_of_intR hw)
    refine ⟨_, fun _ => by dsimp only [exec]; rfl, fun a b _ _ => ?_⟩
    dsimp only
    rw [val32_eq_val ty, val32_eq_val ty]
    exact .of_loWord (loWord_fit ty _ _)
  case h_3 w | h_4 w =>
    cases h
    have ty := narrow (Wf.ty_of_intR hw)
    refine ⟨_, fun _ => by dsimp only [exec]; rfl, fun a b _ _ => ?_⟩
    dsimp only
    rw [val32_eq_val ty, val32_eq_val ty]
    exact .of_loWord (loWord_fit_false _ _)
  case h_5 w =>
    cases h
    have ty := narrow (Wf.ty_of_intR hw)
    refine ⟨_, fun _ => by dsimp only [exec]; rfl, fun a b c _ => ?_⟩
    dsimp only
    rw [val32_eq_val ty, val32_eq_val ty, val32_eq_val ty]
    exact .of_loWord (loWord_fit_false _ _)
  case h_6 w =>
    cases h
    exact ⟨_, fun _ => by dsimp only [exec]; rfl, fun a b _ _ => .of_loWord (loWord_minBy (narrow (Wf.ty_of_intR hw)) a b)⟩
  case h_7 w =>
    cases h
    exact ⟨_, fun _ => by dsimp only [exec]; rfl, fun a b _ _ => .of_loWord (loWord_maxBy (narrow (Wf.ty_of_intR hw)) a b)⟩
  case h_8 w | h_9 w =>
    cases h
    refine ⟨_, fun _ => by dsimp only [exec]; rfl, fun a _ _ _ => ?_⟩
    dsimp only
    rw [val32_eq_val (by decide)]
    exact .of_loWord (loWord_fit (by decide) _ _)
  case h_10 w =>
    cases h
    refine ⟨_, fun _ => by dsimp only [exec]; rfl, fun a b _ _ => Agree.of_eq ?_⟩
    dsimp only
    rw [BitVec.ofNat_add, BitVec.ofNat_toNat, BitVec.ofNat_toNat, BitVec.setWidth_eq, BitVec.setWidth_eq]
  case h_11 w => cases h; exact ⟨_, fun _ => by dsimp only [exec]; rfl, fun a b _ _ => Agree.of_eq (ofInt_sub_toNat a b).symm⟩
  case h_12 w =>
    cases h
    have ty := narrow (Wf.ty_of_intR hw)
    refine ⟨_, fun _ => by dsimp only [exec]; rfl, fun a b _ _ => Agree.of_eq ?_⟩
    dsimp only
    rw [val32_eq_val ty, val32_eq_val ty]
  case h_13 w => cases h; exact ⟨_, fun _ => by dsimp only [exec]; rfl, fun a b _ _ => Agree.of_eq (lea_eq a b _)⟩
  case h_14 w =>
    obtain ⟨ty, ⟨⟩⟩ := Option.ite_none_right_eq_some.1 h
    refine ⟨fun a b c _ => dotInt w 8 4 a b c, fun s => ?_, fun a b c _ =>
      .of_loWord (loWord_dotInt (narrow (by simpa using ty)) _ _ _ _ _)⟩
    dsimp only [exec, execDot4]
    simp only [if_pos ty]
    rfl
  case h_15 w =>
    obtain ⟨ty, ⟨⟩⟩ := Option.ite_none_right_eq_some.1 h
    refine ⟨fun a b c _ => dotInt w 16 2 a b c, fun s => ?_, fun a b c _ =>
      .of_loWord (loWord_dotInt (by rw [ty]; decide) _ _ _ _ _)⟩
    dsimp only [exec, execDot2]
    simp only [if_pos ty]
    rfl
  case h_16 w =>
    cases h
    have ty := narrow (Wf.ty_of_intR hw)
    refine ⟨_, fun _ => by dsimp only [exec]; rfl, fun a b c _ => .of_loWord ((loWord_minBy ty _ c).trans ?_)⟩
    rw [val_maxBy ty]
  case h_17 => cases h

/-- Settles O1: each word gives the value of its row (`arith_runs`), and writes it (`RunsAs.acts`). -/
theorem integerArithmetic : Obligations.IntegerArithmetic :=
  fun _ _ _ _ h hw L hv => (arith_runs h hw).acts L hv

end Sys2Proof.Machine
end

section
/-! PROOFS. Logic and shifts (O4, O5): bits in reverse, shifts of a pair, and the count. -/

namespace Sys2Proof.Machine

open Sys2Proof.Claims

/-! ### Logic and counts of bits -/

/-- One bit of a register. -/
theorem getLsbD_one_shl_reg (n i : Nat) : ((1 : DWord) <<< n).getLsbD i = (decide (n < 64) && decide (n = i)) :=
  (congrArg (·.getLsbD i) (BitVec.twoPow_eq 64 n).symm).trans (BitVec.getLsbD_twoPow n i)

/-- The bits that stand when the lowest `n` of `w` are reversed. -/
theorem getLsbD_reversed (x : DWord) {w : Nat} (hw : w ≤ 64) {n : Nat} (hn : n ≤ w) (i : Nat) :
    ((List.range n).foldl (fun r i => if x.getLsbD i then r ||| (1 : DWord) <<< (w - 1 - i) else r) 0).getLsbD i =
      (decide (i < w ∧ w - n ≤ i) && x.getLsbD (w - 1 - i)) := by
  induction n with
  | zero =>
    have : ¬(i < w ∧ w - 0 ≤ i) := by omega
    simp only [List.range_zero, List.foldl_nil, this, decide_false, Bool.false_and]
    exact BitVec.getLsbD_zero
  | succ n ih =>
    have rest := ih (Nat.le_of_succ_le hn)
    rw [List.range_succ, List.foldl_append, List.foldl_cons, List.foldl_nil]
    by_cases top : w - 1 - n = i
    · subst top
      have here : w - 1 - (w - 1 - n) = n := by omega
      have new : w - 1 - n < w ∧ w - (n + 1) ≤ w - 1 - n := by omega
      have old : ¬(w - 1 - n < w ∧ w - n ≤ w - 1 - n) := by omega
      rw [decide_eq_false old, Bool.false_and] at rest
      rw [decide_eq_true new, Bool.true_and, here]
      cases hx : x.getLsbD n
      · rw [if_neg Bool.false_ne_true, rest]
      · have : w - 1 - n < 64 := by omega
        rw [if_pos rfl, BitVec.getLsbD_or, rest, getLsbD_one_shl_reg]
        simp [this]
    · have same : (i < w ∧ w - (n + 1) ≤ i) ↔ (i < w ∧ w - n ≤ i) := by omega
      rw [decide_eq_decide.2 same, ← rest]
      split
      · rw [BitVec.getLsbD_or, getLsbD_one_shl_reg, decide_eq_false top]; simp
      · rfl

theorem bitReverse_eq (x : DWord) {w : Nat} (hw : w ≤ 64) : bitReverse x w = ofBits w fun i => x.getLsbD (w - 1 - i) := by
  apply BitVec.eq_of_getLsbD_eq
  intro i _
  rw [bitReverse, getLsbD_reversed x hw (Nat.le_refl w), getLsbD_ofBits hw]
  simp

/-- Each logic word and count of bits gives the value of its row (R116). -/
theorem logic_runs {i : Instr} {x : RRow} (h : logic i = some x) (hw : i.wf = true) : RunsAs i x := by
  unfold logic at h
  have pair {t : Ty} (ht : t ∈ [Ty.b32, .b64]) : regsOf t = t.regs ∧ bitsOf t = Ty.bits t := by fin_cases ht <;> decide
  have bits (t : Ty) : bitsOf t ≤ 64 := by cases t <;> decide
  split at h
  case h_9 => cases h
  all_goals
    cases h
    obtain ⟨regs, wide⟩ := pair (Wf.ty_of_intR hw)
  case h_1 => rw [regs]; exact ⟨_, fun _ => by dsimp only [exec]; rfl, fun a b _ _ => .of_eq (and_eq_ofBits a b)⟩
  case h_2 => rw [regs]; exact ⟨_, fun _ => by dsimp only [exec]; rfl, fun a b _ _ => .of_eq (or_eq_ofBits a b)⟩
  case h_3 => rw [regs]; exact ⟨_, fun _ => by dsimp only [exec]; rfl, fun a b _ _ => .of_eq (xor_eq_ofBits a b)⟩
  case h_4 => rw [regs]; exact ⟨_, fun _ => by dsimp only [exec]; rfl, fun a b _ _ => .of_eq (andn_eq_ofBits a b)⟩
  case h_5 => rw [regs]; exact ⟨_, fun _ => by dsimp only [exec]; rfl, fun a _ _ _ => .of_eq (not_eq_ofBits a)⟩
  case h_6 =>
    rw [regs, wide]
    exact ⟨_, fun _ => by dsimp only [exec]; rfl, fun a _ _ _ => .of_eq (congrArg (BitVec.ofNat 64) (leadingZeros_eq a _))⟩
  case h_7 =>
    rw [regs, wide]
    exact ⟨_, fun _ => by dsimp only [exec]; rfl, fun a _ _ _ => .of_eq (congrArg (BitVec.ofNat 64) (popCount_eq a _))⟩
  case h_8 =>
    rw [regs, wide]
    exact ⟨_, fun _ => by dsimp only [exec]; rfl, fun a _ _ _ => .of_eq (bitReverse_eq a (wide ▸ bits _))⟩

/-- Settles O4: each word gives the value of its row (`logic_runs`), and writes it (`RunsAs.acts`). -/
theorem logicWords : Obligations.LogicWords :=
  fun _ _ _ _ h hw L hv => (logic_runs h hw).acts L hv

/-! ### Shifts of a pair (R116) -/

theorem shlBy_b64 (a : DWord) (c : Nat) : shlBy .b64 a c = BitVec.ofNat 64 (lowBits 64 a * 2 ^ c % 2 ^ 64) := by
  show (if 64 ≤ c then 0 else a <<< c) = _
  rw [lowBits, Nat.mod_eq_of_lt a.isLt]
  split
  · rename_i h
    have whole : a.toNat * 2 ^ c % 2 ^ 64 = 0 := Nat.mod_eq_zero_of_dvd ((Nat.pow_dvd_pow 2 h).mul_left _)
    rw [whole]
    rfl
  · apply BitVec.eq_of_toNat_eq
    simp [Nat.shiftLeft_eq]
theorem shrBy_b64 (a : DWord) (c : Nat) : shrBy .b64 a c = BitVec.ofNat 64 (lowBits 64 a / 2 ^ c) := by
  show (if 64 ≤ c then 0 else a >>> c) = _
  rw [lowBits, Nat.mod_eq_of_lt a.isLt]
  split
  · rename_i h
    rw [Nat.div_eq_of_lt (Nat.lt_of_lt_of_le a.isLt (Nat.pow_le_pow_right (by decide) h))]
    rfl
  · apply BitVec.eq_of_toNat_eq
    have le : a.toNat / 2 ^ c ≤ a.toNat := Nat.div_le_self _ _
    rw [BitVec.toNat_ushiftRight, Nat.shiftRight_eq_div_pow, BitVec.toNat_ofNat, Nat.mod_eq_of_lt (Nat.lt_of_le_of_lt le a.isLt)]
theorem sarBy_i64 (a : DWord) (c : Nat) : sarBy .i64 a c = BitVec.ofInt 64 (wide .i64 a / 2 ^ c) := by
  have shifted : (a.sshiftRight c).toInt = wide .i64 a / 2 ^ c := by
    rw [BitVec.toInt_sshiftRight, Int.shiftRight_eq_div_pow, ← val64_eq_wide (by decide)]
    norm_cast
  rw [← shifted, BitVec.ofInt_toInt]
  rfl
theorem rotlBy_b64 (a : DWord) (c : Nat) : rotlBy .b64 a c = ofBits 64 fun i => a.getLsbD ((i + 64 - c % 64) % 64) := by
  show a.rotateLeft (c % 64) = _
  have lt : c % 64 < 64 := Nat.mod_lt _ (by decide)
  generalize c % 64 = r at lt
  refine eq_ofBits fun i hi => ?_
  rw [BitVec.getLsbD_rotateLeft, Nat.mod_eq_of_lt lt]
  by_cases h : i < r
  · rw [decide_eq_true h, cond_true, show (i + 64 - r) % 64 = 64 - r + i by omega]
  · rw [decide_eq_false h, cond_false, decide_eq_true hi, Bool.true_and, show (i + 64 - r) % 64 = i - r by omega]

/-! ### The words -/

theorem Wf.ty_of_shift {w : FR} {tys : List Ty} (h : Wf.shift w tys = true) : w.ty ∈ tys := by
  simp only [Wf.shift, Bool.and_eq_true, decide_eq_true_eq] at h
  obtain ⟨⟨⟨⟨⟨-, ty⟩, -⟩, -⟩, -⟩, -⟩ := h
  exact ty

/-- A shift by its count, whichever field holds it (R116). -/
theorem shiftRun_acts {w : FR} {f : Ty → DWord → Nat → DWord} {g : DWord → Nat → DWord} {s : State} {e : Env} (L : Live s e)
    (regs : regsOf w.ty = w.ty.regs) (same : ∀ a c, Agree w.ty.regs (f w.ty a c) (g a c))
    (hv : e.sh.vOk (aluVs w (regsOf w.ty) (regsOf w.ty) (if w.subf.getLsbD 8 then 0 else 1) 0) = true) :
    Answers (shiftRun w f s) fun t => Acts s t e
      (aluWrites e w (regsOf w.ty) (regsOf w.ty) (if w.subf.getLsbD 8 then 0 else 1) 0 fun a b _ _ =>
        g a (if w.subf.getLsbD 8 then w.subf.toNat % 64 else b.toNat)) id 0 := by
  have low : (w.subf.extractLsb' 0 6).toNat = w.subf.toNat % 64 := by rw [BitVec.extractLsb'_toNat, Nat.shiftRight_zero]
  rw [regs] at hv ⊢
  unfold shiftRun
  dsimp only
  rw [low]
  by_cases imm : w.subf.getLsbD 8 = true
  · simp only [imm, if_true] at hv ⊢
    rw [← aluWrites_congr fun a _ _ _ => same a _]
    exact aluInt_acts L hv
  · simp only [imm] at hv ⊢
    rw [← aluWrites_congr fun a _ _ _ => same a _]
    exact aluInt_acts L hv

/-- Settles O5: each shift gives what R116 says of either width, and runs by its count (`shiftRun_acts`). -/
theorem shiftWords : Obligations.ShiftWords := by
  intro i w f s e h hw L n nb hv
  unfold shiftBy at h
  split at h
  case h_5 => cases h
  all_goals
    obtain ⟨rfl, hf⟩ := Prod.mk.inj (Option.some.inj h)
    have ty := List.mem_pair.1 (Wf.ty_of_shift hw)
    dsimp only [exec]
    refine shiftRun_acts (g := f) L (by rcases ty with ty | ty <;> rw [ty] <;> rfl) (fun a c => ?_) hv
    subst hf
    rcases ty with ty | ty <;> simp only [ty]
  · exact .of_eq (shlBy_b32 a c)
  · exact .of_eq (shlBy_b64 a c)
  · exact .of_eq (shrBy_b32 a c)
  · exact .of_eq (shrBy_b64 a c)
  · exact .of_loWord (loWord_sarBy_i32 a c)
  · exact .of_eq (sarBy_i64 a c)
  · exact .of_eq (rotlBy_b32 a c)
  · exact .of_eq (rotlBy_b64 a c)

end Sys2Proof.Machine
end

section
/-! PROOFS. Bit fields and packed fields (O6), bit by bit. -/

namespace Sys2Proof.Machine

open Sys2Proof.Claims

/-! ### Bits of the low word -/

theorem getLsbD_wd (x : Word) (i : Nat) : (wd x).getLsbD i = x.getLsbD i := by
  rw [wd, BitVec.getLsbD_setWidth]
  by_cases h : i < 64
  · simp [h]
  · rw [BitVec.getLsbD_of_ge x i (by omega), Bool.and_false]
theorem getLsbD_loWord (x : DWord) (i : Nat) : (loWord x).getLsbD i = (decide (i < 32) && x.getLsbD i) := BitVec.getLsbD_setWidth ..

/-- A register whose low 32 bits are given. -/
theorem loWord_eq_ofBits {x : DWord} {p : Nat → Bool} (h : ∀ i < 32, x.getLsbD i = p i) : loWord x = loWord (ofBits 32 p) := by
  apply BitVec.eq_of_getLsbD_eq
  intro i hi
  rw [getLsbD_loWord, getLsbD_loWord, getLsbD_ofBits (by decide), h i hi]
  simp

theorem getLsbD_ofNat_low (n : Nat) {i : Nat} (hi : i < 32) : (BitVec.ofNat 64 n).getLsbD i = n.testBit i := by
  rw [BitVec.getLsbD_ofNat, decide_eq_true (by omega), Bool.true_and]

/-! ### Fields -/

/-- A field of `b` bits. -/
theorem testBit_field (b : Nat) (x : DWord) (j i : Nat) : (field b x j).testBit i = (decide (i < b) && x.getLsbD (b * j + i)) := by
  rw [field, Nat.testBit_mod_two_pow, Nat.testBit_div_two_pow, Nat.add_comm]
  rfl

/-- A number below `2^n`, read signed in `n` bits when `s` holds, written in 32 bits. -/
theorem getLsbD_extended {n m : Nat} (hn : 0 < n) (hm : m < 2 ^ n) (h32 : n ≤ 32) (s : Prop) [Decidable s] {i : Nat} (hi : i < 32) :
    (BitVec.ofInt 32 (if s ∧ 2 ^ (n - 1) ≤ m then (m : Int) - 2 ^ n else m)).getLsbD i =
      if i < n then m.testBit i else decide s && m.testBit (n - 1) := by
  have top : m.testBit (n - 1) = decide (2 ^ (n - 1) ≤ m) := by
    obtain ⟨k, rfl⟩ := Nat.exists_eq_add_of_le' hn
    have le : m / 2 ^ k < 2 := Nat.div_lt_of_lt_mul (by rwa [Nat.pow_succ] at hm)
    rw [Nat.add_sub_cancel, Nat.testBit_eq_decide_div_mod_eq, decide_eq_decide, ← Nat.one_le_div_iff (Nat.two_pow_pos k)]
    generalize m / 2 ^ k = q at le
    omega
  rw [top, ← Bool.decide_and]
  by_cases neg : s ∧ 2 ^ (n - 1) ≤ m
  · have sum : ((2 ^ n * (2 ^ (32 - n) - 1) + m : Nat) : Int) = m - 2 ^ n + 2 ^ 32 := by
      rw [Nat.mul_sub, Nat.mul_one, ← Nat.pow_add, Nat.add_sub_cancel' h32]
      have : 2 ^ n ≤ 2 ^ 32 := Nat.pow_le_pow_right (by decide) h32
      rw [Nat.cast_add, Nat.cast_sub this]
      push_cast
      ring
    have up : BitVec.ofInt 32 ((m : Int) - 2 ^ n) = BitVec.ofNat 32 (2 ^ n * (2 ^ (32 - n) - 1) + m) := by
      apply BitVec.eq_of_toNat_eq
      rw [← BitVec.ofInt_natCast, sum, BitVec.toNat_ofInt, BitVec.toNat_ofInt]
      exact congrArg Int.toNat (Int.add_emod_right ..).symm
    rw [if_pos neg, up, BitVec.getLsbD_ofNat, Nat.testBit_two_pow_mul_add _ hm, Nat.testBit_two_pow_sub_one, decide_eq_true neg,
      decide_eq_true hi, Bool.true_and]
    split
    · rfl
    · rw [decide_eq_true (by omega)]
  · rw [if_neg neg, BitVec.ofInt_natCast, BitVec.getLsbD_ofNat, decide_eq_false neg, decide_eq_true hi, Bool.true_and]
    split
    · rfl
    · exact Nat.testBit_lt_two_pow (Nat.lt_of_lt_of_le hm (Nat.pow_le_pow_right (by decide) (by omega)))

/-! ### Extraction (R117) -/

theorem toInt_emod_two_pow (y : Word) {n : Nat} (hn : n ≤ 32) : y.toInt % 2 ^ n = (y.toNat % 2 ^ n : Nat) := by
  have whole : y.toInt % 2 ^ 32 = y.toNat := by
    rw [BitVec.toInt_eq_toNat_cond]
    split <;> omega
  rw [← Int.emod_emod_of_dvd y.toInt (pow_dvd_pow 2 hn), whole]
  norm_cast

/-- A register shifted down by the position of a field, as its type reads it. -/
def fieldDown (t : Ty) (a : DWord) (pos : Nat) : Word := if Ty.signed t then (loWord a).sshiftRight pos else loWord a >>> pos

theorem fieldDown_spec (t : Ty) (a : DWord) (pos : Nat) {n : Nat} (hn : n ≤ 32) :
    (if Ty.signed t then (loWord a).toInt else (loWord a).toNat : Int) / 2 ^ pos % 2 ^ n = ((fieldDown t a pos).toNat % 2 ^ n : Nat) := by
  unfold fieldDown
  split
  · rw [← toInt_emod_two_pow _ hn, BitVec.toInt_sshiftRight, Int.shiftRight_eq_div_pow]
    norm_cast
  · rw [BitVec.toNat_ushiftRight, Nat.shiftRight_eq_div_pow]
    norm_cast

theorem getLsbD_fieldDown (t : Ty) (a : DWord) (pos : Nat) {i : Nat} (hi : i < 32) :
    (fieldDown t a pos).getLsbD i = if pos + i < 32 then a.getLsbD (pos + i) else Ty.signed t && a.getLsbD 31 := by
  unfold fieldDown
  split
  · rename_i signed
    rw [BitVec.getLsbD_sshiftRight, BitVec.msb_eq_getLsbD_last, getLsbD_loWord, getLsbD_loWord, signed]
    by_cases h : pos + i < 32 <;> simp [h, Nat.not_le.2 hi]
  · rename_i unsigned
    rw [BitVec.getLsbD_ushiftRight, getLsbD_loWord, eq_false_of_ne_true unsigned]
    by_cases h : pos + i < 32 <;> simp [h]

theorem control_fields (b : DWord) : (b.extractLsb' 0 8).toNat = fieldPos b ∧ min (b.extractLsb' 8 8).toNat 32 = fieldLen b := by
  rw [BitVec.extractLsb'_toNat, BitVec.extractLsb'_toNat, Nat.shiftRight_zero, Nat.shiftRight_eq_div_pow]
  exact ⟨rfl, rfl⟩

theorem getLsbD_bitExtract {t : Ty} (ht : t ∈ [Ty.i32, .n32]) (a b : DWord) {i : Nat} (hi : i < 32) :
    (bitExtract t a b).getLsbD i =
      let j := if i < fieldLen b then i else fieldLen b - 1
      decide (0 < fieldLen b) && (decide (i < fieldLen b) || t = .i32) &&
        (if fieldPos b + j < 32 then a.getLsbD (fieldPos b + j) else t = .i32 && a.getLsbD 31) := by
  have signed : Ty.signed t = decide (t = .i32) := by fin_cases ht <;> rfl
  obtain ⟨pos, len⟩ := control_fields b
  have le : fieldLen b ≤ 32 := Nat.min_le_right _ _
  unfold bitExtract
  simp only [pos, len, fieldDown_spec t a _ le]
  by_cases zero : fieldLen b = 0
  · simp [zero]
  · have lt : (fieldDown t a (fieldPos b)).toNat % 2 ^ fieldLen b < 2 ^ fieldLen b := Nat.mod_lt _ (Nat.two_pow_pos _)
    have up := getLsbD_extended (Nat.pos_of_ne_zero zero) lt le (Ty.signed t = true) hi
    have cast : (2 : Int) ^ (fieldLen b - 1) ≤ ((fieldDown t a (fieldPos b)).toNat % 2 ^ fieldLen b : Nat) ↔
        2 ^ (fieldLen b - 1) ≤ (fieldDown t a (fieldPos b)).toNat % 2 ^ fieldLen b := by norm_cast
    rw [if_neg zero]
    simp only [cast]
    rw [up]
    have bit (k : Nat) (hk : k < fieldLen b) : ((fieldDown t a (fieldPos b)).toNat % 2 ^ fieldLen b).testBit k =
        if fieldPos b + k < 32 then a.getLsbD (fieldPos b + k) else t = .i32 && a.getLsbD 31 := by
      rw [Nat.testBit_mod_two_pow, decide_eq_true hk, Bool.true_and, ← signed, ← getLsbD_fieldDown t a _ (by omega)]
      rfl
    by_cases inside : i < fieldLen b
    · rw [if_pos inside, bit i inside]
      simp [inside, Nat.pos_of_ne_zero zero]
    · rw [if_neg inside, bit _ (by omega), signed]
      simp [inside, Nat.pos_of_ne_zero zero]

/-! ### Insertion (R117) -/

theorem getLsbD_bitInsert (a b c : DWord) {i : Nat} (hi : i < 32) :
    (bitInsert a b c).getLsbD i =
      if fieldPos c ≤ i ∧ i < fieldPos c + fieldLen c then b.getLsbD (i - fieldPos c) else a.getLsbD i := by
  obtain ⟨pos, len⟩ := control_fields c
  have inside : ((BitVec.ofNat 32 (2 ^ fieldLen c - 1)) <<< fieldPos c).getLsbD i =
      decide (fieldPos c ≤ i ∧ i < fieldPos c + fieldLen c) := by
    rw [BitVec.getLsbD_shiftLeft, BitVec.getLsbD_ofNat, Nat.testBit_two_pow_sub_one]
    by_cases low : i < fieldPos c
    · simp [low, Nat.not_le.2 low]
    · have lt : i - fieldPos c < 32 := by omega
      have same : i - fieldPos c < fieldLen c ↔ i < fieldPos c + fieldLen c := by omega
      simp [low, hi, lt, same, Nat.le_of_not_lt low]
  unfold bitInsert
  simp only [pos, len, BitVec.getLsbD_or, BitVec.getLsbD_and, BitVec.getLsbD_not, inside]
  by_cases h : fieldPos c ≤ i ∧ i < fieldPos c + fieldLen c
  · have lt : i - fieldPos c < 32 := by omega
    rw [if_pos h, BitVec.getLsbD_shiftLeft, getLsbD_loWord, getLsbD_loWord]
    simp [h, hi, lt]
  · rw [if_neg h, getLsbD_loWord]
    simp [h, hi]

/-! ### Packed fields (R131) -/

/-- A number with a field replaced, bit by bit. -/
theorem testBit_replaced (x b p v i : Nat) : (x - x / 2 ^ p % 2 ^ b * 2 ^ p + v % 2 ^ b * 2 ^ p).testBit i =
    if p ≤ i ∧ i < p + b then v.testBit (i - p) else x.testBit i := by
  have low : x % 2 ^ p < 2 ^ p := Nat.mod_lt _ (Nat.two_pow_pos p)
  have new : v % 2 ^ b < 2 ^ b := Nat.mod_lt _ (Nat.two_pow_pos b)
  have parts : x = 2 ^ p * (2 ^ b * (x / 2 ^ p / 2 ^ b) + x / 2 ^ p % 2 ^ b) + x % 2 ^ p := by
    rw [Nat.div_add_mod, Nat.div_add_mod]
  have whole : x - x / 2 ^ p % 2 ^ b * 2 ^ p + v % 2 ^ b * 2 ^ p =
      2 ^ p * (2 ^ b * (x / 2 ^ p / 2 ^ b) + v % 2 ^ b) + x % 2 ^ p := by
    have split : x = 2 ^ p * (2 ^ b * (x / 2 ^ p / 2 ^ b)) + x % 2 ^ p + x / 2 ^ p % 2 ^ b * 2 ^ p := by
      conv_lhs => rw [parts]
      ring
    rw [Nat.sub_eq_of_eq_add split]
    ring
  rw [whole, Nat.testBit_two_pow_mul_add _ low]
  by_cases h1 : i < p
  · rw [if_pos h1, if_neg (by omega), Nat.testBit_mod_two_pow, decide_eq_true h1, Bool.true_and]
  · rw [if_neg h1, Nat.testBit_two_pow_mul_add _ new]
    by_cases h2 : i - p < b
    · rw [if_pos h2, if_pos (by omega), Nat.testBit_mod_two_pow, decide_eq_true h2, Bool.true_and]
    · rw [if_neg h2, if_neg (by omega), Nat.testBit_div_two_pow, Nat.testBit_div_two_pow]
      congr 1
      omega

theorem fieldBits_eq (t : Ty) : fieldBits t = packBits t := by cases t <;> rfl

theorem getLsbD_putField (b : Nat) (x : DWord) (j v : Nat) {i : Nat} (hi : i < 32) :
    (putField b x j v).getLsbD i = if b * j ≤ i ∧ i < b * j + b then v.testBit (i - b * j) else x.getLsbD i := by
  rw [putField, getLsbD_ofNat_low _ hi]
  exact testBit_replaced _ _ _ _ _

/-- Two halves in one register. -/
theorem getLsbD_halves (a b : DWord) {i : Nat} (hi : i < 32) :
    (BitVec.ofNat 64 (field 16 a 0 + 65536 * field 16 b 0)).getLsbD i = if i < 16 then a.getLsbD i else b.getLsbD (i - 16) := by
  have low : field 16 a 0 < 2 ^ 16 := Nat.mod_lt _ (Nat.two_pow_pos _)
  rw [getLsbD_ofNat_low _ hi, Nat.add_comm, show 65536 = 2 ^ 16 from rfl, Nat.testBit_two_pow_mul_add _ low, testBit_field, testBit_field]
  by_cases h : i < 16
  · simp [h]
  · have : i - 16 < 16 := by omega
    simp [h, this]

/-- A field in the low bits of a register, extended by its sign or by zeros. -/
theorem getLsbD_unpacked {b : Nat} (hb : 0 < b) (h32 : b ≤ 32) (a : DWord) (j : Nat) (s : Bool) {i : Nat} (hi : i < 32) :
    (if s && decide (2 ^ (b - 1) ≤ field b a j) then wd (BitVec.ofInt 32 ((field b a j : Int) - 2 ^ b))
      else BitVec.ofNat 64 (field b a j)).getLsbD i =
      if i < b then a.getLsbD (b * j + i) else s && a.getLsbD (b * j + b - 1) := by
  have up := getLsbD_extended hb (m := field b a j) (Nat.mod_lt _ (Nat.two_pow_pos _)) h32 (s = true) hi
  have value : (if s && decide (2 ^ (b - 1) ≤ field b a j) then wd (BitVec.ofInt 32 ((field b a j : Int) - 2 ^ b))
      else BitVec.ofNat 64 (field b a j)).getLsbD i =
      (BitVec.ofInt 32 (if s = true ∧ 2 ^ (b - 1) ≤ field b a j then (field b a j : Int) - 2 ^ b else field b a j)).getLsbD i := by
    by_cases neg : s = true ∧ 2 ^ (b - 1) ≤ field b a j
    · rw [if_pos (by simpa using neg), if_pos neg, getLsbD_wd]
    · rw [if_neg (by simpa using neg), if_neg neg, getLsbD_ofNat_low _ hi, BitVec.ofInt_natCast, BitVec.getLsbD_ofNat,
        decide_eq_true hi, Bool.true_and]
  rw [value, up, testBit_field, testBit_field, Nat.add_sub_assoc hb, Bool.decide_eq_true, decide_eq_true (by omega : b - 1 < b),
    Bool.true_and]
  by_cases h : i < b <;> simp [h]

/-! ### The words -/

/-- Each word of R117 and R131 gives the value of its row. -/
theorem bitsRow_runs {i : Instr} {x : RRow} (h : bitsRow i = some x) (hw : i.wf = true) : RunsAs i x := by
  unfold bitsRow at h
  split at h
  case h_1 w =>
    cases h
    refine ⟨_, fun _ => by dsimp only [exec]; rfl, fun a b _ _ => .of_loWord (loWord_eq_ofBits fun i hi => ?_)⟩
    rw [getLsbD_wd]
    exact getLsbD_bitExtract (Wf.ty_of_intR hw) a b hi
  case h_2 w =>
    cases h
    refine ⟨_, fun _ => by dsimp only [exec]; rfl, fun a b c _ => .of_loWord (loWord_eq_ofBits fun i hi => ?_)⟩
    rw [getLsbD_wd]
    exact getLsbD_bitInsert a b c hi
  case h_3 w =>
    split at h
    · rename_i half
      cases h
      exact ⟨_, fun _ => by dsimp only [exec]; exact if_pos half, fun a b _ _ => .of_loWord (loWord_eq_ofBits fun i hi =>
        getLsbD_halves a b hi)⟩
    · rename_i half
      cases h
      refine ⟨_, fun _ => by dsimp only [exec]; exact if_neg half, fun a b _ d => .of_loWord (loWord_eq_ofBits fun i hi => ?_)⟩
      rw [getLsbD_putField _ _ _ _ hi, sel3, fieldBits_eq, Nat.mul_comm]
      rfl
  case h_4 w =>
    cases h
    refine ⟨_, fun _ => by dsimp only [exec]; rfl, fun a _ _ _ => .of_loWord (loWord_eq_ofBits fun i hi => ?_)⟩
    have width : 0 < packBits w.ty ∧ packBits w.ty ≤ 32 := by cases w.ty <;> decide
    dsimp only
    rw [sel3, fieldBits_eq]
    refine (getLsbD_unpacked width.1 width.2 a _ _ hi).trans ?_
    rw [Nat.mul_comm]
    rfl
  case h_5 => cases h

/-- Settles O6: each word gives the value of its row (`bitsRow_runs`), and writes it (`RunsAs.acts`). -/
theorem bitFields : Obligations.BitFields :=
  fun _ _ _ _ h hw L hv => (bitsRow_runs h hw).acts L hv

end Sys2Proof.Machine
end

section
/-! PROOFS. Division (O2): quotient and remainder, and the trap of a division by zero. -/

namespace Sys2Proof.Machine

open Sys2Proof.Claims

/-- Quotient or remainder as the model computes it (R114). -/
def divided (quot : Bool) (t : Ty) (a b : DWord) : DWord × Cond :=
  (fit32 t false (if quot then (divRem t a b).1 else (divRem t a b).2.1), (divRem t a b).2.2)

theorem exec_divRem {i : Instr} {w : FR} {quot : Bool} (h : i = if quot then .div w else .rem w) (s : State) :
    exec i s = alu w 1 1 1 0 (fun a b _ _ => divided quot w.ty a b) s := by
  subst h
  cases quot <;> rfl

section
variable {t : Ty} (ht : t ∈ [Ty.i32, .n32]) (quot : Bool) (a b : DWord)
include ht

theorem divided_value :
    Agree 1 (divided quot t a b).1 (low32 (if quot then (quotRem t a b).1 else (quotRem t a b).2)) := by
  have ty : t ≠ .i64 := by fin_cases ht <;> decide
  refine .of_loWord ((loWord_fit32 t _).trans (Eq.trans ?_ (loWord_low32 _).symm))
  unfold divRem quotRem
  simp only [val32_eq_val ty]
  by_cases zero : val t b = 0
  · rw [if_pos zero, if_pos zero]
  · rw [if_neg zero, if_neg zero]
    by_cases most : t = .i32 ∧ val t a = -2 ^ 31 ∧ val t b = -1
    · rw [if_pos most, most.2.1, most.2.2]
      cases quot <;> decide
    · rw [if_neg most, Int.mul_comm]
theorem divided_cond : (divided quot t a b).2 = if decide (val t b = 0) then Cond.idz else 0 := by
  have ty : t ≠ .i64 := by fin_cases ht <;> decide
  unfold divided divRem
  simp only [val32_eq_val ty, decide_eq_true_eq]
  split <;> rfl

end

/-- IDZ is the condition of the cause 0x34 and of no other (R99). -/
theorem getLsbD_idz {y : Nat × BitVec 8} (hy : y ∈ condCauses) (zero : Bool) :
    (if zero then Cond.idz else 0).getLsbD y.1 = (zero && decide (y = (5, 0x34))) := by
  cases zero <;> fin_cases hy <;> rfl

section
variable {w : FR} {quot : Bool} {s : State} {e : Env} (ht : w.ty ∈ [Ty.i32, .n32])
include ht

/-- The issuers of `div` or `rem` that divide by zero raise IDZ (R114). -/
theorem divided_conds :
    (aluConds e w 1 1 1 0 fun a b _ _ => (divided quot w.ty a b).2) =
      (e.lanes w.com).map fun l => (laneNo l, if decide (val w.ty (e.opnd l 1 w.b.toNat) = 0) then Cond.idz else 0) :=
  List.map_congr_left fun _ _ => congrArg (Prod.mk _) (divided_cond ht ..)

theorem raise_divided :
    (fun sh : Sheet => sh.raise (condAll (aluConds e w 1 1 1 0 fun a b _ _ => (divided quot w.ty a b).2))) =
      fun sh => if ∃ l ∈ e.lanes w.com, val w.ty (e.opnd l 1 w.b.toNat) = 0 then sh.raise Cond.idz else sh := by
  funext sh
  rw [divided_conds ht, condAll_any]
  by_cases some : ∃ l ∈ e.lanes w.com, val w.ty (e.opnd l 1 w.b.toNat) = 0
  · rw [if_pos some, if_pos (by simpa using some)]
  · rw [if_neg some, if_neg (by simpa using some)]
    exact sh.raise_zero

/-- Without an enabled division by zero nothing traps (R100). -/
theorem divided_quiet
    (calm : e.sh.strap.getLsbD 5 = false ∨ ∀ l ∈ e.lanes w.com, ¬val w.ty (e.opnd l 1 w.b.toNat) = 0) :
    condTrap e.sh.strap (aluConds e w 1 1 1 0 fun a b _ _ => (divided quot w.ty a b).2) = none := by
  refine condTrap_none fun y hy on x hx => ?_
  rw [divided_conds ht] at hx
  obtain ⟨l, hl, rfl⟩ := List.mem_map.1 hx
  refine (getLsbD_idz hy _).trans ?_
  rw [Bool.and_eq_false_iff, decide_eq_false_iff_not, decide_eq_false_iff_not, ← not_and_or]
  rintro ⟨hz, rfl⟩
  exact calm.elim (fun off => Bool.false_ne_true (off.symm.trans on)) fun none => none l hl hz

/-- An enabled division by zero traps at the lowest issuer (R100, R114). -/
theorem divided_traps {l : Option Nat} (on : e.sh.strap.getLsbD 5 = true) (hl : l ∈ e.lanes w.com)
    (hz : val w.ty (e.opnd l 1 w.b.toNat) = 0)
    (least : ∀ m ∈ e.lanes w.com, val w.ty (e.opnd m 1 w.b.toNat) = 0 → laneNo l ≤ laneNo m) :
    condTrap e.sh.strap (aluConds e w 1 1 1 0 fun a b _ _ => (divided quot w.ty a b).2) = some (0x34, laneNo l) := by
  have raises (m : Option Nat) : (if decide (val w.ty (e.opnd m 1 w.b.toNat) = 0) then Cond.idz else 0).getLsbD 5 =
      decide (val w.ty (e.opnd m 1 w.b.toNat) = 0) := (getLsbD_idz (y := (5, 0x34)) (by decide) _).trans (Bool.and_true _)
  rw [divided_conds ht]
  refine condTrap_lowest (bit := 5) (l := (laneNo l, if decide (val w.ty (e.opnd l 1 w.b.toNat) = 0) then Cond.idz else 0))
    (List.pairwise_map.2 (e.lanes_sorted _)) (by decide) on (List.mem_map_of_mem hl) ((raises l).trans (decide_eq_true hz))
    (fun m hm hr => ?_) (fun y hy lower _ z hm => ?_)
  · obtain ⟨k, hk, rfl⟩ := List.mem_map.1 hm
    exact least k hk (of_decide_eq_true ((raises k).symm.trans hr))
  · obtain ⟨k, -, rfl⟩ := List.mem_map.1 hm
    have other : decide (y = (5, 0x34)) = false := decide_eq_false (by rintro rfl; exact absurd lower (by decide))
    refine (getLsbD_idz hy _).trans ?_
    rw [other, Bool.and_false]

end

/-- Settles O2: `div` and `rem` are `alu` of `divided`, which traps for an enabled division by zero (`divided_traps`) and for nothing
else (`divided_quiet`). -/
theorem divisionAndRemainder : Obligations.DivisionAndRemainder := by
  intro i w quot s e hi hw L hv zero raise
  have wf : Wf.intR w [.i32, .n32] 0 1 1 1 0 = true := by
    subst hi
    cases quot <;> exact hw
  have ty := Wf.ty_of_intR wf
  refine ⟨fun calm => ?_, fun l on hl hz least => ?_, List.mem_pair.1 ty, ?_, fun v hv => ?_⟩
  · have A := alu_acts (f := fun a b _ _ => divided quot w.ty a b) L hv (divided_quiet ty calm)
    rw [raise_divided ty, aluWrites_congr fun a b _ _ => divided_value ty quot a b] at A
    rw [exec_divRem hi]
    exact A
  · rw [exec_divRem hi, alu_traps L hv (divided_traps ty on hl hz least), raise_divided ty]
    rfl
  · exact BitVec.and_allOnes.symm.trans (Wf.subf_of_intR wf)
  · subst hi
    cases quot <;> exact opcode_of_encode rfl hv

end Sys2Proof.Machine
end

section
/-! PROOFS. Immediates, moves and selects, integer compares (O3, O7, O8). -/

namespace Sys2Proof.Machine

open Sys2Proof.Claims

/-! ### Immediates (R115) -/

theorem add_eq_ofInt (a b : Word) : a + b = BitVec.ofInt 32 ((a.toNat : Int) + b.toNat) := by
  rw [BitVec.ofInt_add, BitVec.ofInt_natCast, BitVec.ofInt_natCast, BitVec.ofNat_toNat, BitVec.ofNat_toNat, BitVec.setWidth_eq,
    BitVec.setWidth_eq]

/-- A word with an immediate is `aluImm` of its row. -/
theorem exec_imm {i : Instr} {w : FI} {na : Nat} {f : Word → Word} (h : imm i = some (w, na, f)) (s : State) :
    exec i s = aluImm w na f s := by
  unfold imm at h
  split at h
  case h_1 w =>
    cases h
    exact congrArg (aluImm w 1 · s) (funext fun a => add_eq_ofInt a w.imm)
  case h_7 => cases h
  all_goals cases h; rfl

/-- Settles O3: each word is `aluImm` of its row (`exec_imm`). -/
theorem immediateWords : Obligations.ImmediateWords := by
  intro i w na f s e h L hv
  rw [exec_imm h]
  exact aluImm_acts L hv

/-! ### Moves and selects (R118) -/

/-- A word that writes what `issue` hands it, where every register exists. -/
theorem issue_writes {vs : List (Nat × Nat)} {s : State} {e : Env} (L : Live s e) (ws : Env → List (RegKey × Word))
    (hv : e.sh.vOk vs = true) (real : ∀ x ∈ ws e, x.1.real) :
    Answers (issue { vs } s fun e => .done (s.writeRegs e.r (ws e))) fun t => Acts s t e (ws e) id 0 :=
  ⟨_, issue_regs L _ hv, acts_regs L _ real⟩

theorem mov_acts {w : FR} {s : State} {e : Env} (regs : movRegs w.ty = w.ty.regs) (L : Live s e)
    (hv : e.sh.vOk (vsOf w.com [(w.d.toNat, movRegs w.ty), (w.a.toNat, movRegs w.ty)]) = true) :
    Answers (exec (.mov w) s) fun t => Acts s t e ((e.lanes w.com).flatMap fun l =>
      (List.range (movRegs w.ty)).map fun j => (e.key l (w.d.toNat + j), e.w l (w.a.toNat + j))) id 0 := by
  rw [regs] at hv ⊢
  refine issue_writes L (fun e => (e.lanes w.com).flatMap fun l =>
    (List.range w.ty.regs).map fun j => (e.key l (w.d.toNat + j), e.w l (w.a.toNat + j))) hv fun x hx => ?_
  obtain ⟨l, hl, hx⟩ := List.mem_flatMap.1 hx
  obtain ⟨j, -, rfl⟩ := List.mem_map.1 hx
  exact e.key_real hl _

/-- The condition of `sel` for an issuer. -/
def selects (e : Env) (w : FR) : Option Nat → Bool
  | none => decide (e.u w.c.toNat ≠ 0)
  | some j => (e.sh.k.get 0 w.c.toNat).getLsbD j
/-- What `sel` writes. -/
def selWrites (e : Env) (w : FR) (n : Nat) : List (RegKey × Word) :=
  (e.lanes w.com).flatMap fun l => e.dst l n w.d.toNat (e.opnd l n (if selects e w l then w.a.toNat else w.b.toNat))

theorem sel_acts {w : FR} {s : State} {e : Env} (regs : regsOf w.ty = w.ty.regs) (L : Live s e)
    (hv : e.sh.vOk (vsOf w.com [(w.d.toNat, regsOf w.ty), (w.a.toNat, regsOf w.ty), (w.b.toNat, regsOf w.ty)]) = true) :
    Answers (exec (.sel w) s) fun t => Acts s t e (selWrites e w (regsOf w.ty)) id 0 := by
  rw [regs] at hv ⊢
  have run : exec (.sel w) s = issue { vs := vsOf w.com [(w.d.toNat, w.ty.regs), (w.a.toNat, w.ty.regs), (w.b.toNat, w.ty.regs)] } s
      fun e => .done (s.writeRegs e.r (selWrites e w w.ty.regs)) := by
    dsimp only [exec, execSel, selWrites]
    congr 1
    funext e
    congr 3
    funext l
    cases l with
    | none =>
      by_cases zero : e.u w.c.toNat = 0 <;> simp [selects, zero]
    | some j => rfl
  rw [run]
  refine issue_writes L (selWrites · w w.ty.regs) hv fun x hx => ?_
  obtain ⟨l, hl, hx⟩ := List.mem_flatMap.1 hx
  exact e.dst_real hl _ _ _ x hx

theorem Wf.sel_fields {w : FR} (h : (Instr.sel w).wf = true) : (w.ty = .b32 ∨ w.ty = .b64) ∧ (w.com.u = false → w.c.toNat < 8) := by
  simp only [Instr.wf, Bool.and_eq_true, decide_eq_true_eq] at h
  obtain ⟨⟨⟨⟨⟨⟨⟨-, -⟩, ty⟩, -⟩, -⟩, -⟩, -⟩, c⟩ := h
  refine ⟨List.mem_pair.1 ty, fun vector => ?_⟩
  rw [vector] at c
  exact of_decide_eq_true c
theorem Wf.ty_of_mov {w : FR} (h : (Instr.mov w).wf = true) : w.ty = .b32 ∨ w.ty = .b64 ∨ w.ty = .b128 := by
  simpa using Wf.ty_of_intR h

/-- Settles O7: `mov_acts`, `sel_acts`, and the fields of both. -/
theorem movesAndSelects : Obligations.MovesAndSelects := by
  refine ⟨fun w s e hw L hv => mov_acts ?_ L hv, fun w s e hw L hv => ?_, fun w =>
    ⟨Wf.ty_of_mov, Wf.sel_fields, fun v hv => opcode_of_encode rfl hv, fun v hv => opcode_of_encode rfl hv⟩⟩
  · rcases Wf.ty_of_mov hw with ty | ty | ty <;> rw [ty] <;> rfl
  · obtain ⟨t, ht, A⟩ := sel_acts (by rcases (Wf.sel_fields hw).1 with ty | ty <;> rw [ty] <;> rfl) L hv
    refine ⟨t, ht, Eq.mp (congrArg (Acts s t e · id 0) (List.flatMap_congr fun l _ => ?_)) A⟩
    cases l <;> rfl

/-! ### Integer compares (R115, R119) -/

/-- A compare without conditions. -/
theorem compare_plain {c : Com} {d : BitVec 8} {vs : List (Nat × Nat)} {f : Env → Option Nat → Bool}
    {g : Option Nat → Bool} {s : State} {e : Env} (L : Live s e) (hv : e.sh.vOk (vsOf c vs) = true) (same : ∀ l, f e l = g l) :
    Answers (compare c d vs (fun e l => (f e l, 0)) s) fun t => Acts s t e (cmpWrites e c d g) (cmpMask e c d g) 0 := by
  obtain ⟨t, ht, A⟩ := compare_acts (f := fun e l => (f e l, 0)) (d := d) L hv (condTrap_zero _ _ _)
  have fg : (fun l => f e l) = g := funext same
  simp only [condAll_zero, fg] at A
  refine ⟨t, ht, A.congr ?_⟩
  rw [Sheet.raise_zero]

theorem ccHolds_eq {cc : Nat} (h : cc ≤ 5) (x y : Int) : ccHolds cc x y = rel cc x y := by
  interval_cases cc
  · exact beq_eq_decide x y
  · exact Bool.eq_iff_iff.2 (bne_iff_ne.trans decide_eq_true_iff.symm)
  all_goals rfl

theorem Wf.ty_of_cmp {w : FR} (h : (Instr.cmp w).wf = true) : w.ty ∈ [Ty.i32, .n32, .i64, .n64] := by
  simp only [Instr.wf, Bool.and_eq_true, decide_eq_true_eq] at h
  obtain ⟨⟨⟨⟨⟨⟨-, ty⟩, -⟩, -⟩, -⟩, -⟩, -⟩ := h
  exact ty
theorem Wf.code_of_cmp {w : FR} (h : (Instr.cmp w).wf = true) : w.subf.toNat ≤ 5 := by
  simp only [Instr.wf, Bool.and_eq_true, decide_eq_true_eq] at h
  obtain ⟨⟨⟨⟨⟨⟨-, -⟩, code⟩, -⟩, -⟩, -⟩, -⟩ := h
  exact code

/-- What `cmp` compares (R119). -/
theorem cmp_bit {w : FR} (hw : (Instr.cmp w).wf = true) (e : Env) (l : Option Nat) :
    ccHolds (w.subf.extractLsb' 0 3).toNat
        (if w.ty.regs = 1 then val32 w.ty (e.opnd l w.ty.regs w.a.toNat) else val64 w.ty (e.opnd l w.ty.regs w.a.toNat))
        (if w.ty.regs = 1 then val32 w.ty (e.opnd l w.ty.regs w.b.toNat) else val64 w.ty (e.opnd l w.ty.regs w.b.toNat)) =
      cmpBit e w l := by
  have ty := Wf.ty_of_cmp hw
  have code := Wf.code_of_cmp hw
  rw [sel3, ccHolds_eq (by omega), cmpBit]
  by_cases pair : w.ty = .i64 ∨ w.ty = .n64
  · have regs : w.ty.regs = 2 := by rcases pair with h | h <;> rw [h] <;> rfl
    rw [if_pos pair, regs, if_neg (by decide), if_neg (by decide), val64_eq_wide (by simpa using pair), val64_eq_wide (by simpa using pair)]
  · have regs : w.ty.regs = 1 := by revert ty pair; cases w.ty <;> decide
    have ty : w.ty ≠ .i64 := fun h => pair (.inl h)
    rw [if_neg pair, regs, if_pos rfl, if_pos rfl, val32_eq_val ty, val32_eq_val ty]

/-- The immediate of `cmpi` in 32 bits. -/
theorem cmpImm_word (w : FI) : ((w.imm.extractLsb' 0 29).signExtend 32).toInt = cmpImm w := by
  rw [BitVec.toInt_signExtend_of_le (by decide), BitVec.toInt_eq_toNat_cond, BitVec.extractLsb'_toNat, Nat.shiftRight_zero, cmpImm]
  split <;> split <;> omega
/-- What `cmpi` compares (R115, R119). -/
theorem cmpi_bit (e : Env) (w : FI) (l : Option Nat) : cmpiHolds w.imm (e.w l w.a.toNat) = cmpiBit e w l := by
  have code : (w.imm.extractLsb' 29 3).toNat = w.imm.toNat / 2 ^ 29 := by
    rw [BitVec.extractLsb'_toNat, Nat.shiftRight_eq_div_pow]
    omega
  have lt : w.imm.toNat / 2 ^ 29 < 8 := by omega
  have signed : (e.w l w.a.toNat).toInt = val .i32 (e.opnd l 1 w.a.toNat) := by
    rw [val_i32]
    exact congrArg BitVec.toInt (loWord_wd _).symm
  have unsigned : ((e.w l w.a.toNat).toNat : Int) = val .n32 (e.opnd l 1 w.a.toNat) := by
    rw [← val32_eq_val (by decide)]
    exact congrArg (fun x : Word => (x.toNat : Int)) (loWord_wd _).symm
  have imm : (((w.imm.extractLsb' 0 29).signExtend 32).toNat : Int) = cmpImm w % 2 ^ 32 := by
    rw [← cmpImm_word, BitVec.toInt_eq_toNat_cond]
    split <;> omega
  unfold cmpiHolds cmpiBit
  simp only [code, cmpImm_word, signed]
  generalize w.imm.toNat / 2 ^ 29 = cc at lt
  by_cases low : cc ≤ 5
  · rw [if_pos (by omega), ccHolds_eq low]
    interval_cases cc <;> rfl
  · rw [if_neg (by omega)]
    obtain rfl | rfl : cc = 6 ∨ cc = 7 := by omega
    · rw [if_pos rfl]
      exact decide_eq_decide.2 (by rw [← unsigned, ← imm]; norm_cast)
    · rw [if_neg (by decide)]
      exact decide_eq_decide.2 (by rw [← unsigned, ← imm]; norm_cast)

/-- Settles O8: both are compares without conditions (`compare_plain`) of what R119 names (`cmp_bit`, `cmpi_bit`). -/
theorem integerCompares : Obligations.IntegerCompares := by
  refine ⟨fun w s e hw L hv => ?_, fun w s e _ L hv => ?_⟩
  · have regs : regsOf w.ty = w.ty.regs := regsOf_int (Wf.ty_of_cmp hw)
    rw [regs] at hv
    dsimp only [exec, execCmp]
    exact compare_plain L hv fun l => cmp_bit hw e l
  · dsimp only [exec, execCmpi]
    exact compare_plain L hv fun l => cmpi_bit e w l

end Sys2Proof.Machine
end

section
/-! PROOFS. Compares and classes of fractions (O12, O13). -/

namespace Sys2Proof.Machine

open Sys2Proof.Claims

/-! ### `fcmp` (R122) -/

theorem Wf.code_of_fcmp {w : FR} (h : (Instr.fcmp w).wf = true) : w.subf.toNat ≤ 7 := by
  simp only [Instr.wf, Bool.and_eq_true, decide_eq_true_eq] at h
  obtain ⟨⟨⟨⟨⟨-, code⟩, -⟩, -⟩, -⟩, -⟩ := h
  exact code

/-- The relation of a code on two values that are unordered or compare as `o` (R122). -/
def relOf (cc : Nat) (un : Bool) (o : Int) : Bool :=
  ([!un && o = 0, un || o ≠ 0, !un && o < 0, !un && o ≤ 0, !un && o > 0, !un && o ≥ 0, un, !un] : List Bool).getD cc false

theorem fcmpHolds_rel {cc : Nat} (h : cc ≤ 7) (u v : FV) :
    (fcmpHolds cc u v).1 = relOf cc (u.isNan || v.isNan) (FV.cmp u v) := by
  interval_cases cc
  · exact congrArg (!(u.isNan || v.isNan) && ·) (beq_eq_decide (FV.cmp u v) 0)
  · exact congrArg (u.isNan || v.isNan || ·) (Bool.eq_iff_iff.2 (bne_iff_ne.trans decide_eq_true_iff.symm))
  all_goals rfl

/-- The codes of an ordering raise NV for any NaN, the others for a signalling one (R122). -/
def raisesNv (cc : Nat) (a b : DWord) : Bool := if 2 ≤ cc ∧ cc ≤ 5 then nan32 a || nan32 b else signal32 a || signal32 b

theorem fcmpHolds_cond (cc : Nat) (ftz : Bool) (a b : DWord) :
    (fcmpHolds cc (rd32 ftz a) (rd32 ftz b)).2 = if raisesNv cc a b then Cond.nv else 0 := by
  simp only [fcmpHolds, isNan_rd32, sig_rd32, raisesNv]
  rfl

/-- NV is the condition of the cause 0x30 and of no other (R99). -/
theorem getLsbD_nv {y : Nat × BitVec 8} (hy : y ∈ condCauses) (nv : Bool) :
    (if nv then Cond.nv else 0).getLsbD y.1 = (nv && decide (y.1 = 0)) := by
  cases nv <;> fin_cases hy <;> rfl

/-- A compare with one condition, which does not trap. -/
theorem compare_raising {c : Com} {d : BitVec 8} {vs : List (Nat × Nat)} {f : Env → Option Nat → Bool × Cond}
    {bit raised : Option Nat → Bool} {k : Cond} {s : State} {e : Env} (L : Live s e) (hv : e.sh.vOk (vsOf c vs) = true)
    (same : ∀ l, f e l = (bit l, if raised l then k else 0))
    (quiet : condTrap e.sh.strap ((e.lanes c).map fun l => (laneNo l, if raised l then k else 0)) = none) :
    Answers (compare c d vs f s) fun t => Acts s t e (cmpWrites e c d bit) (fun sh =>
      cmpMask e c d bit (if (e.lanes c).any raised then sh.raise k else sh)) 0 := by
  have value : f e = fun l => (bit l, if raised l then k else 0) := funext same
  obtain ⟨t, ht, A⟩ := compare_acts (f := f) (d := d) L hv (by rw [value]; exact quiet)
  rw [value] at A
  simp only [condAll_any] at A
  refine ⟨t, ht, A.congr ?_⟩
  cases (e.lanes c).any raised
  · rw [if_neg Bool.false_ne_true, if_neg Bool.false_ne_true, Sheet.raise_zero]
  · rfl

/-- Settles O12: `fcmp` is a compare whose one condition, NV, does not trap (`compare_raising`). -/
theorem floatCompare : Obligations.FloatCompare := by
  intro w s e hw L hv a b cc un o bit nv calm
  have code : cc = w.subf.toNat := Nat.mod_eq_of_lt (Nat.lt_succ_of_le (Wf.code_of_fcmp hw))
  have bits (l : Option Nat) : (fcmpHolds w.subf.toNat (rd32 w.ftz (a l)) (rd32 w.ftz (b l))).1 = bit l := by
    rw [fcmpHolds_rel (Wf.code_of_fcmp hw), isNan_rd32, isNan_rd32, ← code]
    rfl
  have conds (l : Option Nat) : (fcmpHolds w.subf.toNat (rd32 w.ftz (a l)) (rd32 w.ftz (b l))).2 = if nv l then Cond.nv else 0 := by
    rw [fcmpHolds_cond, ← code]
    rfl
  dsimp only [exec, execFcmp]
  refine compare_raising L hv (fun l => Prod.ext (bits l) (conds l)) (condTrap_none fun y hy on x hx => ?_)
  obtain ⟨l, hl, rfl⟩ := List.mem_map.1 hx
  refine (getLsbD_nv hy _).trans ?_
  rw [Bool.and_eq_false_iff, decide_eq_false_iff_not]
  refine calm.elim (fun off => .inr fun zero => ?_) fun none => .inl (none l hl)
  rw [zero, off] at on
  exact Bool.false_ne_true on

/-! ### `fclass` (R123) -/

section
variable {neg : Bool} {c : Nat}

/-- The mask of a NaN and of an infinity by its class; finite values have the classes between. -/
theorem Classed.mask_nan {sig : Bool} (h : Classed neg c (.nan sig)) : (if sig then 256 else 512) = 2 ^ c := by
  cases h <;> rfl
theorem Classed.mask_inf {s : Bool} (h : Classed neg c (.inf s)) : (if s then 1 else 128) = 2 ^ c := by
  cases h
  cases neg <;> rfl
theorem Classed.fin_class {s : Bool} {n : Nat} {e : Int} (h : Classed neg c (.fin s n e)) : c ∈ [1, 2, 3, 4, 5, 6] := by
  cases h
  assumption

end

/-- A finite pattern whose exponent field is not 0 is no zero and has its pattern's sign (R88-R90). -/
theorem Fmt.valueOf_normal {g : Fmt} {neg s : Bool} {ex fr n : Nat} {e : Int} (h : g.valueOf neg ex fr = .fin s n e) (hx : ex ≠ 0) :
    s = neg ∧ n ≠ 0 := by
  have pos := Nat.two_pow_pos g.fb
  unfold Fmt.valueOf at h
  split at h
  · split at h <;> cases h
  · split at h
    · cases h
    · cases h
      exact ⟨rfl, by omega⟩
/-- A finite class whose exponent field is not 0 is that of normal numbers (R123). -/
theorem classOf_normal {t : Ty} {neg : Bool} {e f : Nat} (h : classOf t neg e f ∈ [1, 2, 3, 4, 5, 6]) (he : e ≠ 0) :
    classOf t neg e f = if neg then 1 else 6 := by
  rw [classOf, if_neg fun c => he c.1, if_neg he] at h ⊢
  repeat' split at h
  all_goals simp_all

/-- `fclass` sets the bit of the class (R123). -/
theorem classMask_eq {t : Ty} (ht : t ∈ nanTys) (a : DWord) :
    (Ty.fmt t).classMask (a.toNat % 2 ^ ((Ty.fmt t).signAt + 1)) = 2 ^ classBit t a := by
  obtain ⟨fb, eb, -⟩ := fmt_widths (t := t) (by fin_cases ht <;> decide)
  have ex : a.toNat % 2 ^ ((Ty.fmt t).signAt + 1) / 2 ^ (Ty.fmt t).fb % 2 ^ (Ty.fmt t).eb = expOf t a := by
    rw [Fmt.signAt, mod_div_mod, fb, eb]; rfl
  have fr : a.toNat % 2 ^ ((Ty.fmt t).signAt + 1) % 2 ^ (Ty.fmt t).fb = fracOf t a := by
    rw [Fmt.signAt, mod_mod_low, fb]; rfl
  have value : (Ty.fmt t).decode (a.toNat % 2 ^ ((Ty.fmt t).signAt + 1)) = (Ty.fmt t).valueOf (negOf t a) (expOf t a) (fracOf t a) := by
    simp only [Fmt.decode, ex, fr, mod_sign]
    rfl
  have low : (Ty.fmt t).subnormal (a.toNat % 2 ^ ((Ty.fmt t).signAt + 1)) = (decide (expOf t a = 0) && decide (fracOf t a ≠ 0)) := by
    rw [Fmt.subnormal, ex, fr]
  have same : classBit t a = classOf t (negOf t a) (expOf t a) (fracOf t a) := by
    rw [negOf, Fmt.signAt, fb, eb]; rfl
  have lt : expOf t a < 2 ^ expBits t := Nat.mod_lt _ (Nat.two_pow_pos _)
  rw [Fmt.classMask, value, low, same]
  generalize negOf t a = neg
  generalize expOf t a = e at lt
  generalize fracOf t a = f
  by_cases zero : e = 0
  · subst zero
    rw [Fmt.valueOf_fin (fun c => absurd c (by fin_cases ht <;> decide)), if_pos rfl, classOf]
    by_cases hf : f = 0 <;> cases neg <;> simp [hf]
  · have classed := classed_fields ht neg lt (f := f)
    cases hv : (Ty.fmt t).valueOf neg e f with
    | nan s => rw [hv] at classed; exact classed.mask_nan
    | inf s => rw [hv] at classed; exact classed.mask_inf
    | fin s n k =>
      rw [hv] at classed
      obtain ⟨rfl, hn⟩ := Fmt.valueOf_normal hv zero
      rw [classOf_normal classed.fin_class zero]
      cases s <;> simp [hn, zero]

theorem Wf.fclass_fields {w : FR} (h : (Instr.fclass w).wf = true) : w.ty ∈ nanTys ∧ w.rm = .rne ∧ w.ftz = false := by
  have both : Wf.noFp w = true := by
    simp only [Instr.wf, Wf.intR, Bool.and_eq_true] at h
    obtain ⟨⟨⟨⟨-, plain⟩, -⟩, -⟩, -⟩ := h
    exact plain
  simp only [Wf.noFp, Bool.and_eq_true, decide_eq_true_eq, Bool.not_eq_true'] at both
  exact ⟨Wf.ty_of_intR h, both⟩

/-- Settles O13: the mask of `fclass` has the one bit of its operand's class (`classMask_eq`). -/
theorem floatClass : Obligations.FloatClass := by
  intro w s e hw L hv
  obtain ⟨ty, rm, ftz⟩ := Wf.fclass_fields hw
  refine ⟨ty, rm, ftz, fun v hv => opcode_of_encode rfl hv, ?_⟩
  rw [← aluWrites_congr fun a _ _ _ => .of_eq (congrArg (BitVec.ofNat 64) (classMask_eq ty a))]
  dsimp only [exec, execFclass]
  exact aluInt_acts L hv

end Sys2Proof.Machine
end

section
/-! PROOFS. Words of strands that write one register each: lane numbers, broadcasts, shuffles (O59, O17, O14). -/

namespace Sys2Proof.Machine

open Sys2Proof.Claims

/-! ### One register of each active strand -/

/-- The registers of active strands exist. -/
theorem strands_real (e : Env) (c : Com) (n : Nat) (f : Nat → Word) : ∀ x ∈ (act e c).map fun j => (vreg e n j, f j), x.1.real := by
  intro x hx
  obtain ⟨j, hj, rfl⟩ := List.mem_map.1 hx
  exact strandsOf_lt hj
theorem uni_real (n : Nat) (v : Word) : ∀ x ∈ [(uniKey n, v)], x.1.real := by
  intro x hx
  rw [List.mem_singleton.1 hx]
  exact uniKey_real n

/-! ### Lane numbers (R138) -/

theorem Wf.laneid_fields {w : FR} (h : (Instr.laneid w).wf = true) : w.ty = .i32 ∧ w.a = 0 ∧ w.b = 0 ∧ w.c = 0 := by
  simp only [Instr.wf, Bool.and_eq_true, decide_eq_true_eq] at h
  obtain ⟨⟨⟨⟨⟨-, ty⟩, -⟩, a⟩, b⟩, c⟩ := h
  exact ⟨ty, a, b, c⟩

/-- Settles O59: the fields of `laneid`, and its writes. -/
theorem laneidRule : Obligations.LaneidRule := by
  intro s e w L hw hv
  obtain ⟨ty, a, b, c⟩ := Wf.laneid_fields hw
  exact ⟨ty, a, b, c, fun v hv => opcode_of_encode rfl hv, _, issue_regs L _ hv, acts_regs L _ (strands_real e w.com w.d.toNat _)⟩

/-! ### Broadcasts (R139) -/

theorem Wf.bcast_fields {w : FR} (h : (Instr.bcast w).wf = true) : w.ty = .b32 ∧ w.subf.getLsbD 0 = false := by
  simp only [Instr.wf, Bool.and_eq_true, decide_eq_true_eq] at h
  obtain ⟨⟨⟨⟨⟨-, ty⟩, subf⟩, -⟩, -⟩, -⟩ := h
  exact ⟨ty, by rw [subf]; rfl⟩
theorem Wf.bcastGet_fields {w : FR} (h : (Instr.bcastGet w).wf = true) : w.ty = .b32 ∧ w.subf.getLsbD 0 = true := by
  simp only [Instr.wf, Bool.and_eq_true, decide_eq_true_eq] at h
  obtain ⟨⟨⟨⟨⟨-, ty⟩, subf⟩, -⟩, -⟩, -⟩ := h
  exact ⟨ty, by rw [subf]; rfl⟩

theorem bcastGet_acts {w : FR} {s : State} {e : Env} (L : Live s e) (hv : e.sh.vOk [(w.a.toNat, 1)] = true) :
    Answers (exec (.bcastGet w) s) fun t => Acts s t e
      [(uniKey w.d.toNat, if e.u w.b.toNat < 96 then vval e w.a.toNat (e.u w.b.toNat).toNat else 0)] id 0 := by
  refine ⟨_, issue_regs L _ hv, ?_⟩
  have same : (if (e.u w.b.toNat).toNat < 96 then e.vAt w.a.toNat (e.u w.b.toNat).toNat else 0) =
      if e.u w.b.toNat < 96 then vval e w.a.toNat (e.u w.b.toNat).toNat else 0 := rfl
  rw [← same]
  exact acts_regs L _ (uni_real _ _)

/-- Settles O17: both forms by what they write, their fields and their opcode. -/
theorem broadcastWords : Obligations.BroadcastWords := by
  intro w s e L
  refine ⟨fun hv => ⟨_, issue_regs L _ hv, acts_regs L _ (strands_real e w.com w.d.toNat _)⟩, fun hv => bcastGet_acts L hv,
    Wf.bcast_fields, Wf.bcastGet_fields, fun i hi v hv => ?_⟩
  rcases List.mem_pair.1 hi with rfl | rfl <;> exact opcode_of_encode rfl hv

/-! ### Shuffles (R132) -/

theorem vAt_eq (e : Env) (n j : Nat) : e.vAt n j = vval e n j := rfl

/-- A shuffle reads by the function of its mnemonic. -/
def ReadsBy (k : Shfl) (f : Nat → Nat → Int) : Prop :=
  ∀ m wrap j (b : Word), shflSource k m wrap j b =
    if wrap then some (j - j % m + (f (j % m) b.toNat % m).toNat)
    else if 0 ≤ f (j % m) b.toNat ∧ f (j % m) b.toNat < m then some (j - j % m + (f (j % m) b.toNat).toNat) else none

theorem exec_shuffle {i : Instr} {w : FR} {f : Nat → Nat → Int} (h : shuffleFrom i = some (w, f)) :
    ∃ k, ReadsBy k f ∧ ∀ s, exec i s = shuffle k w s := by
  unfold shuffleFrom at h
  split at h
  case h_1 => cases h; exact ⟨.idx, fun _ _ _ _ => rfl, fun _ => rfl⟩
  case h_2 => cases h; exact ⟨.xor, fun _ _ _ _ => rfl, fun _ => rfl⟩
  case h_3 => cases h; exact ⟨.up, fun _ _ _ _ => rfl, fun _ => rfl⟩
  case h_4 => cases h; exact ⟨.down, fun _ _ _ _ => rfl, fun _ => rfl⟩
  case h_5 => cases h

theorem Wf.width_of_shfl {w : FR} {wrap : Bool} (h : Wf.shfl w wrap = true) : (w.subf.extractLsb' 0 3).toNat ≤ 5 := by
  simp only [Wf.shfl, Bool.and_eq_true, decide_eq_true_eq] at h
  obtain ⟨⟨⟨⟨-, width⟩, -⟩, -⟩, -⟩ := h
  exact width
theorem segWidth_eq {w : FR} (h : (w.subf.extractLsb' 0 3).toNat ≤ 5) : segWidth (w.subf.extractLsb' 0 3).toNat = span w := by
  rw [span, ← sel3]
  generalize (w.subf.extractLsb' 0 3).toNat = n at h
  interval_cases n <;> rfl
theorem width_of_shuffle {i : Instr} {w : FR} {f : Nat → Nat → Int} (h : shuffleFrom i = some (w, f)) (hw : i.wf = true) :
    (w.subf.extractLsb' 0 3).toNat ≤ 5 := by
  unfold shuffleFrom at h
  split at h
  case h_5 => cases h
  all_goals cases h; exact Wf.width_of_shfl hw

/-- A shuffle gives each active strand what R132 says. -/
theorem shuffle_eq {k : Shfl} {w : FR} {f : Nat → Nat → Int} (reads : ReadsBy k f) (width : (w.subf.extractLsb' 0 3).toNat ≤ 5)
    (s : State) :
    shuffle k w s = issue { vs := [(w.d.toNat, 1), (w.a.toNat, 1), (w.b.toNat, 1), (w.c.toNat, if w.subf.getLsbD 4 then 1 else 0)] } s
      fun e => .done (s.writeRegs e.r ((act e w.com).map fun j => (vreg e w.d.toNat j, shuffled e w f j))) := by
  unfold shuffle
  dsimp only
  congr 1
  funext e
  congr 3
  funext j
  rw [segWidth_eq width, reads, shuffled]
  change (_, _) = (RegKey.v (e.sh.resolve w.d.toNat) j, _)
  congr 1
  by_cases wrap : w.subf.getLsbD 3 = true
  · rw [if_pos wrap, if_pos wrap]
    rfl
  · rw [if_neg wrap, if_neg wrap]
    by_cases inside : 0 ≤ f (j % span w) (vval e w.b.toNat j).toNat ∧ f (j % span w) (vval e w.b.toNat j).toNat < span w
    · rw [if_pos inside, vAt_eq, if_pos inside]
      rfl
    · rw [if_neg inside, vAt_eq, if_neg inside]
      rfl

/-- Settles O14: each shuffle is one of R132's (`exec_shuffle`), and writes what it says (`shuffle_eq`). -/
theorem shuffles : Obligations.Shuffles := by
  intro i w f s e h hw L hv
  obtain ⟨k, reads, run⟩ := exec_shuffle h
  rw [run, shuffle_eq reads (width_of_shuffle h hw)]
  exact issue_writes L (fun e => (act e w.com).map fun j => (vreg e w.d.toNat j, shuffled e w f j)) hv (strands_real e w.com w.d.toNat _)

end Sys2Proof.Machine
end

section
/-! PROOFS. Mask registers (O15): votes, operations on masks, counts and the first or last strand. -/

namespace Sys2Proof.Machine

open Sys2Proof.Claims

/-! ### Bits of a mask -/

theorem mask_eq_bits96 {m : Mask} {p : Nat → Bool} (h : ∀ j < 96, m.getLsbD j = p j) : m = bits96 p := by
  apply BitVec.eq_of_getLsbD_eq
  intro j hj
  rw [getLsbD_bits96, h j hj]
  simp [hj]

theorem getLsbD_maskOf_strands (xs : List Nat) (p : Nat → Bool) {j : Nat} (hj : j < 96) :
    (maskOf xs p).getLsbD j = (xs.contains j && p j) := by
  have from_ (m : Mask) : (xs.foldl (fun m i => if p i then m ||| (1 : Mask) <<< i else m) m).getLsbD j =
      (m.getLsbD j || (xs.contains j && p j)) := by
    induction xs generalizing m with
    | nil => simp
    | cons i xs ih =>
      rw [List.foldl_cons, ih, List.contains_cons]
      by_cases here : j = i
      · subst here
        cases hp : p j <;> simp [hj]
      · have other : (j == i) = false := by simpa using here
        rw [other, Bool.false_or]
        split
        · rw [BitVec.getLsbD_or, getLsbD_one_shl, decide_eq_false (Ne.symm here), Bool.and_false, Bool.or_false]
        · rfl
  refine (from_ 0).trans ?_
  rw [show (0 : Mask).getLsbD j = false from BitVec.getLsbD_zero, Bool.false_or]

theorem contains_strandsOf (m : Mask) (j : Nat) : (strandsOf m).contains j = m.getLsbD j := by
  rw [Bool.eq_iff_iff, List.contains_iff_mem, mem_strandsOf]
theorem strandsOf_and (k m : Mask) : strandsOf (k &&& m) = (strandsOf m).filter fun j => k.getLsbD j := by
  unfold strandsOf
  rw [List.filter_filter]
  exact List.filter_congr fun j _ => BitVec.getLsbD_and
theorem length_strandsOf (m : Mask) : (strandsOf m).length = (List.range 96).countP fun j => m.getLsbD j :=
  List.countP_eq_length_filter.symm
theorem getLsbD_putMask (old m new : Mask) {j : Nat} (hj : j < 96) :
    (putMask old m new).getLsbD j = if m.getLsbD j then new.getLsbD j else old.getLsbD j := by
  rw [putMask, BitVec.getLsbD_or, BitVec.getLsbD_and, BitVec.getLsbD_and, BitVec.getLsbD_not]
  cases m.getLsbD j <;> simp [hj]

/-- A word that writes a mask register whose bits are given. -/
theorem acts_putK {s : State} {e : Env} (L : Live s e) (d : BitVec 8) {m : Mask} {p : Nat → Bool} (h : ∀ j < 96, m.getLsbD j = p j) :
    Acts s ((s.setK e.r d.toNat m).advance e) e [] (putK d p) 0 := by
  rw [mask_eq_bits96 h]
  exact acts_sheet L _

/-! ### `vote` (R133) -/

theorem sel2 (v : BitVec 9) : (v.extractLsb' 0 2).toNat = v.toNat % 4 := by
  rw [BitVec.extractLsb'_toNat, Nat.shiftRight_zero]

theorem getLsbD_all (b : Bool) {j : Nat} (hj : j < 96) : (if b then BitVec.allOnes 96 else (0 : Mask)).getLsbD j = b := by
  cases b
  · exact BitVec.getLsbD_zero
  · rw [if_pos rfl, BitVec.getLsbD_allOnes, decide_eq_true hj]

/-- The mask of `vote`, bit by bit. -/
theorem vote_acts {w : FR} {s : State} {e : Env} (L : Live s e) (hv : e.sh.vOk [(w.a.toNat, 1)] = true) :
    Answers (exec (.vote w) s) fun t => Acts s t e [] (putK w.d (voteBit e w)) 0 := by
  have predicate : (fun i => if w.subf.getLsbD 2 then (e.vAt w.a.toNat i).getLsbD 31 else e.vAt w.a.toNat i != 0) = votes e w := by
    funext i
    unfold votes
    split
    · rfl
    · exact Bool.eq_iff_iff.2 (bne_iff_ne.trans decide_eq_true_iff.symm)
  refine ⟨_, issue_regs L _ hv, acts_putK L w.d fun j hj => ?_⟩
  rw [predicate, sel2, voteBit]
  have lt : w.subf.toNat % 4 < 4 := Nat.mod_lt _ (by decide)
  generalize w.subf.toNat % 4 = mode at lt
  interval_cases mode
  · exact getLsbD_maskOf_strands _ _ hj
  · exact getLsbD_all _ hj
  · exact getLsbD_all _ hj
  · change BitVec.getLsbD (match act e w.com with | [] => _ | l :: _ => _) j = _
    cases hs : act e w.com with
    | nil => exact BitVec.getLsbD_zero
    | cons l js =>
      refine (getLsbD_maskOf_strands (act e w.com) _ hj).trans ?_
      rw [hs]
      rfl

/-! ### `kop` (R136) -/

theorem Wf.code_of_kop {w : FR} (h : (Instr.kop w).wf = true) : w.subf.toNat ≤ 7 := by
  simp only [Instr.wf, Bool.and_eq_true, decide_eq_true_eq] at h
  obtain ⟨⟨⟨⟨⟨⟨⟨-, code⟩, -⟩, -⟩, -⟩, -⟩, -⟩, -⟩ := h
  exact code

theorem kop_acts {w : FR} {s : State} {e : Env} (hw : (Instr.kop w).wf = true) (L : Live s e) :
    Answers (exec (.kop w) s) fun t => Acts s t e [] (putK w.d fun j =>
      if (act e w.com).contains j then kopBit e w j else (e.sh.k.get 0 w.d.toNat).getLsbD j) 0 := by
  have code := Wf.code_of_kop hw
  refine ⟨_, issue_plain L _, acts_putK L w.d fun j hj => ?_⟩
  rw [getLsbD_putMask _ _ _ hj, act, contains_strandsOf]
  congr 1
  rw [kopBit, Nat.mod_eq_of_lt (Nat.lt_succ_of_le code)]
  generalize w.subf.toNat = n at code
  interval_cases n
  · exact BitVec.getLsbD_and
  · exact BitVec.getLsbD_or
  · exact BitVec.getLsbD_xor
  · refine BitVec.getLsbD_and.trans (congrArg _ ?_)
    rw [BitVec.getLsbD_not, decide_eq_true hj, Bool.true_and]
  · refine BitVec.getLsbD_not.trans ?_
    rw [decide_eq_true hj, Bool.true_and]
    rfl
  · rfl
  · exact BitVec.getLsbD_allOnes.trans (decide_eq_true hj)
  · exact BitVec.getLsbD_zero

/-! ### `kpop` and `kfirst` (R137) -/

/-- The last of a rising list is its greatest, and the first its least. -/
theorem foldl_max_rising {a : Nat} {xs : List Nat} (h : (a :: xs).Pairwise (· < ·)) : xs.foldl max a = xs.getLast?.getD a := by
  induction xs generalizing a with
  | nil => rfl
  | cons x xs ih =>
    obtain ⟨above, rising⟩ := List.pairwise_cons.1 h
    have le : a ≤ x := Nat.le_of_lt (above x List.mem_cons_self)
    rw [List.foldl_cons, Nat.max_eq_right le, ih rising, List.getLast?_cons, Option.getD_some]
theorem foldl_min_rising {a : Nat} {xs : List Nat} (h : (a :: xs).Pairwise (· < ·)) : xs.foldl min a = a := by
  induction xs with
  | nil => rfl
  | cons x xs ih =>
    obtain ⟨above, rising⟩ := List.pairwise_cons.1 h
    have le : a ≤ x := Nat.le_of_lt (above x List.mem_cons_self)
    rw [List.foldl_cons, Nat.min_eq_left le]
    exact ih (List.pairwise_cons.2 ⟨fun y hy => above y (List.mem_cons_of_mem _ hy), (List.pairwise_cons.1 rising).2⟩)

/-- The strand that `kfirst` names among rising strands (R137). -/
theorem kfirst_strand {xs : List Nat} (h : xs.Pairwise (· < ·)) (lt : ∀ x ∈ xs, x < 96) (last : Bool) :
    (if last then xs.getLast? else xs.head?).getD 96 = if xs = [] then 96 else if last then xs.foldl max 0 else xs.foldl min 96 := by
  cases xs with
  | nil => cases last <;> rfl
  | cons x xs =>
    have le : x ≤ 96 := Nat.le_of_lt (lt x List.mem_cons_self)
    rw [if_neg (List.cons_ne_nil x xs), List.foldl_cons, List.foldl_cons, Nat.max_eq_right (Nat.zero_le x), Nat.min_eq_right le,
      foldl_max_rising h, foldl_min_rising h]
    cases last
    · rfl
    · rw [if_pos rfl, if_pos rfl, List.getLast?_cons, Option.getD_some]

section
variable {w : FR} {s : State} {e : Env}

/-- The active strands whose bit of K[A] is set. -/
def actSet (e : Env) (w : FR) : List Nat := (act e w.com).filter fun j => (e.sh.k.get 0 w.a.toNat).getLsbD j

theorem kpop_acts (L : Live s e) :
    Answers (exec (.kpop w) s) fun t => Acts s t e [(uniKey w.d.toNat, BitVec.ofNat 32
      (if w.subf.getLsbD 0 then (List.range 96).countP fun j => (e.sh.k.get 0 w.a.toNat).getLsbD j else (actSet e w).length))] id 0 := by
  have count : (strandsOf (if w.subf.getLsbD 0 then e.sh.k.get 0 w.a.toNat
        else e.sh.k.get 0 w.a.toNat &&& e.sh.active w.com.gsel w.com.neg)).length =
      if w.subf.getLsbD 0 then (List.range 96).countP fun j => (e.sh.k.get 0 w.a.toNat).getLsbD j else (actSet e w).length := by
    split
    · exact length_strandsOf _
    · exact congrArg List.length (strandsOf_and _ _)
  rw [← count]
  exact ⟨_, issue_plain L _, acts_regs L _ (uni_real _ _)⟩
theorem kfirst_acts (L : Live s e) :
    Answers (exec (.kfirst w) s) fun t => Acts s t e [(uniKey w.d.toNat, BitVec.ofNat 32
      (if actSet e w = [] then 96 else if w.subf.getLsbD 0 then (actSet e w).foldl max 0 else (actSet e w).foldl min 96))] id 0 := by
  have set : strandsOf (e.sh.k.get 0 w.a.toNat &&& e.sh.active w.com.gsel w.com.neg) = actSet e w := strandsOf_and _ _
  rw [← kfirst_strand (set ▸ strandsOf_sorted _) (fun j hj => strandsOf_lt (set ▸ hj)), ← set]
  exact ⟨_, issue_plain L _, acts_regs L _ (uni_real _ _)⟩

end

/-- Settles O15: each word by what it writes (`vote_acts`, `kop_acts`, `kpop_acts`, `kfirst_acts`). -/
theorem maskRegisterWords : Obligations.MaskRegisterWords := by
  intro w s e L both
  exact ⟨fun _ hv => vote_acts L hv, fun hw => kop_acts hw L, fun _ => kpop_acts L, fun _ => kfirst_acts L⟩

end Sys2Proof.Machine
end

section
/-! PROOFS. Prefixes and reductions over the active strands (O16). -/

namespace Sys2Proof.Machine

open Sys2Proof.Claims

/-! ### `scan` (R134) -/

/-- The values of a scan, from a value that the strands in `pre` have given (R134). -/
theorem scanRun_values (step : Word → Word → Word × Cond) (excl : Bool) (v : Nat → Word) (a : Word) {xs pre : List Nat}
    (h : (pre ++ xs).Pairwise (· < ·)) :
    (scanRun step excl (pre.foldl (fun x j => (step x (v j)).1) a) (xs.map fun j => (j, v j))).map (fun r => (r.1, r.2.1)) =
      xs.map fun j => (j, ((pre ++ xs).filter fun k => if excl then k < j else k ≤ j).foldl (fun x j => (step x (v j)).1) a) := by
  induction xs generalizing pre with
  | nil => rfl
  | cons i xs ih =>
    have here : (pre ++ i :: xs).filter (fun k => if excl then k < i else k ≤ i) = if excl then pre else pre ++ [i] := by
      rw [List.pairwise_append, List.pairwise_cons] at h
      obtain ⟨-, ⟨later, -⟩, earlier⟩ := h
      have hp : pre.filter (fun k => if excl then k < i else k ≤ i) = pre := List.filter_eq_self.2 fun j hj => by
        have := earlier j hj i List.mem_cons_self
        cases excl <;> simp <;> omega
      have hx : xs.filter (fun k => if excl then k < i else k ≤ i) = [] := List.filter_eq_nil_iff.2 fun j hj => by
        have := later j hj
        cases excl <;> simp <;> omega
      rw [List.filter_append, hp, List.filter_cons, hx]
      cases excl <;> simp
    have rest := ih (pre := pre ++ [i]) (by simpa using h)
    simp only [List.append_assoc, List.singleton_append, List.foldl_append, List.foldl_cons, List.foldl_nil] at rest
    simp only [List.map_cons, scanRun, rest, here]
    cases excl <;> simp

/-- A word that raises conditions, none of which traps, and writes registers (R98). -/
theorem acts_condEff {s : State} {e : Env} (L : Live s e) {raised : List (Nat × Cond)} {ws : List (RegKey × Word)}
    (quiet : condTrap e.sh.strap raised = none) (real : ∀ x ∈ ws, x.1.real) :
    Acts s ((condEff e s raised fun s => s.writeRegs e.r ws).finish e) e ws (·.raise (condAll raised)) 0 := by
  rw [condEff_done _ quiet]
  exact acts_sheet_regs L _ _ real

section
variable {w : FR} {s : State} {e : Env}

/-- The results of a scan with their conditions, strand by strand (R134). -/
def scanned (e : Env) (w : FR) : List (Nat × Word × Cond) :=
  scanRun (scanStep (w.subf.toNat % 8) w.ty (w.subf.getLsbD 4)) (w.subf.getLsbD 3) (scanId (w.subf.toNat % 8) w.ty)
    ((act e w.com).map fun j => (j, e.vAt w.a.toNat j))

theorem scanned_values (e : Env) (w : FR) : (scanned e w).map (fun r => (r.1, r.2.1)) =
    (act e w.com).map fun j => (j, reduced e w ((act e w.com).filter fun k => if w.subf.getLsbD 3 then k < j else k ≤ j)) :=
  scanRun_values _ _ (e.vAt w.a.toNat) _ (pre := []) (strandsOf_sorted _)
theorem scanned_conds (e : Env) (w : FR) :
    (scanned e w).map (fun r => (r.1, r.2.2)) = (act e w.com).map fun j => (j, scanCond e w j) :=
  scanRun_conds _ _ (e.vAt w.a.toNat) _ (pre := []) (strandsOf_sorted _)

theorem exec_scan (L : Live s e) (hv : e.sh.vOk [(w.d.toNat, 1), (w.a.toNat, 1)] = true) :
    exec (.scan w) s = .next ((condEff e s ((act e w.com).map fun j => (j, scanCond e w j)) fun s =>
      s.writeRegs e.r ((act e w.com).map fun j => (vreg e w.d.toNat j,
        reduced e w ((act e w.com).filter fun k => if w.subf.getLsbD 3 then k < j else k ≤ j)))).finish e) := by
  have writes := congrArg (List.map fun x : Nat × Word => (vreg e w.d.toNat x.1, x.2)) (scanned_values e w)
  rw [List.map_map, List.map_map] at writes
  refine (issue_regs L _ hv).trans ?_
  rw [sel3, ← scanned_conds]
  exact congrArg (fun ws => Host.Outcome.next ((condEff e s _ fun s => s.writeRegs e.r ws).finish e)) writes

theorem scan_acts (L : Live s e) (hv : e.sh.vOk [(w.d.toNat, 1), (w.a.toNat, 1)] = true)
    (calm : ∀ y ∈ condCauses, e.sh.strap.getLsbD y.1 = true → ∀ j ∈ act e w.com, (scanCond e w j).getLsbD y.1 = false) :
    Answers (exec (.scan w) s) fun t => Acts s t e
      ((act e w.com).map fun j => (vreg e w.d.toNat j,
        reduced e w ((act e w.com).filter fun k => if w.subf.getLsbD 3 then k < j else k ≤ j)))
      (·.raise (((act e w.com).map (scanCond e w)).foldl (· ||| ·) 0)) 0 := by
  have quiet : condTrap e.sh.strap ((act e w.com).map fun j => (j, scanCond e w j)) = none :=
    condTrap_none fun y hy on x hx => by
      obtain ⟨j, hj, rfl⟩ := List.mem_map.1 hx
      exact calm y hy on j hj
  have all : condAll ((act e w.com).map fun j => (j, scanCond e w j)) = ((act e w.com).map (scanCond e w)).foldl (· ||| ·) 0 := by
    rw [condAll, List.foldl_map, List.foldl_map]
  rw [← all]
  exact ⟨_, exec_scan L hv, acts_condEff L quiet (strands_real e w.com w.d.toNat _)⟩

/-! ### `lred` (R135) -/

theorem exec_lred (L : Live s e) (hv : e.sh.vOk [(w.d.toNat, 1), (w.a.toNat, 1)] = true) :
    exec (.lred w) s = .next ((condEff e s (if act e w.com = [] then [] else [(127, (lredOf e w).2)]) fun s =>
      s.writeRegs e.r ((act e w.com).map fun j => (vreg e w.d.toNat j, (lredOf e w).1))).finish e) := by
  refine (issue_regs L _ hv).trans ?_
  simp only [lredOf_eq, sel3, List.isEmpty_iff]
  rfl

theorem lred_acts (L : Live s e) (hv : e.sh.vOk [(w.d.toNat, 1), (w.a.toNat, 1)] = true)
    (calm : ∀ y ∈ condCauses, e.sh.strap.getLsbD y.1 = true → (lredOf e w).2.getLsbD y.1 = false) :
    Answers (exec (.lred w) s) fun t => Acts s t e ((act e w.com).map fun j => (vreg e w.d.toNat j, (lredOf e w).1))
      (·.raise (if act e w.com = [] then 0 else (lredOf e w).2)) 0 := by
  have quiet : condTrap e.sh.strap (if act e w.com = [] then [] else [(127, (lredOf e w).2)]) = none :=
    condTrap_none fun y hy on x hx => by
      split at hx
      · cases hx
      · rw [List.mem_singleton.1 hx]
        exact calm y hy on
  have all : condAll (if act e w.com = [] then [] else [(127, (lredOf e w).2)]) = if act e w.com = [] then 0 else (lredOf e w).2 := by
    split
    · rfl
    · exact BitVec.zero_or
  rw [← all]
  exact ⟨_, exec_lred L hv, acts_condEff L quiet (strands_real e w.com w.d.toNat _)⟩

end

/-- Settles O16: `scan_acts` and `lred_acts`. -/
theorem scansAndReductions : Obligations.ScansAndReductions := by
  intro w s e L hv
  exact ⟨fun _ calm => scan_acts L hv calm, fun _ calm => lred_acts L hv calm⟩

end Sys2Proof.Machine
end

section
/-! SUPPORT. Words that change more of their own quire than registers: what on-chip windows show of a quire, and a state that
turns one quire into another (`Turn`), from which `Rest` and `Own` follow. -/

namespace Sys2Proof.Machine
open Sys2Proof.Claims

/-! ### What on-chip windows show -/

/-- What on-chip windows may show of a quire (R148). -/
def Quire.window (q : Quire) : Quire := { q.apart with bars := [], pools := [] }
/-- The quires as on-chip windows may show them. -/
def State.windows (s : State) : List (Nat × Quire) := s.quires.map fun x => (x.1, x.2.window)

theorem State.onCore_windows (s : State) (core : Nat) :
    ({ s with quires := s.windows } : State).onCore core = (s.onCore core).map fun x => (x.1, x.2.window) := by
  unfold State.onCore State.windows
  rw [List.filter_map]
  rfl

/-- The first quire of a core that a property of its windows names. -/
theorem State.find_windows (s : State) (core : Nat) (p : Nat × Quire → Bool) (hp : ∀ x, p (x.1, x.2.window) = p x) :
    (({ s with quires := s.windows } : State).onCore core).find? p = ((s.onCore core).find? p).map fun x => (x.1, x.2.window) := by
  rw [State.onCore_windows, List.find?_map, show p ∘ (fun x => (x.1, x.2.window)) = p from funext hp]

theorem State.tileOwner_windows (s : State) (core n : Nat) :
    ({ s with quires := s.windows } : State).tileOwner core n = (s.tileOwner core n).map fun x => (x.1.window, x.2) := by
  unfold State.tileOwner
  rw [State.onCore_windows, List.findSome?_map, List.map_findSome?]
  congr 1
  funext x
  simp only [Function.comp_apply, Option.map_map]
  rfl

/-- A byte of an on-chip window depends on no more of the quires. -/
theorem State.readWin_windows (s : State) (core off : Nat) :
    ({ s with quires := s.windows } : State).readWin core off = s.readWin core off := by
  unfold State.readWin
  split
  · rw [State.chamOwner, State.find_windows _ _ _ fun _ => rfl, ← State.chamOwner]
    cases s.chamOwner core off <;> rfl
  · split
    · simp only [State.tileOwner_windows]
      cases s.tileOwner core ((off - 0x80000) / 0x20000) <;> rfl
    · split
      · simp only [State.find_windows _ _ (fun x => decide (x.2.arrAt * 256 ≤ (off - 0xC0000) / 4) &&
          decide ((off - 0xC0000) / 4 < (x.2.arrAt + x.2.wmag) * 256)) fun _ => rfl]
        cases (s.onCore core).find? fun x => decide (x.2.arrAt * 256 ≤ (off - 0xC0000) / 4) &&
          decide ((off - 0xC0000) / 4 < (x.2.arrAt + x.2.wmag) * 256) <;> rfl
      · rfl

/-- A byte reads the same in two states that differ in no more than registers, sheets, barriers and pools. -/
theorem State.readByte_windows {s t : State} (hm : t.mem = s.mem) (hr : t.retired = s.retired) (hp : t.parts = s.parts)
    (hv : t.windows = s.windows) (a : Nat) : t.readByte a = s.readByte a := by
  have region : t.region a = s.region a := by unfold State.region State.hbmTop; rw [hr]
  have shown : ∀ c o, t.readWin c o = s.readWin c o := fun c o => by
    rw [← State.readWin_windows s, ← State.readWin_windows t, hv]; rfl
  unfold State.readByte
  rw [region]
  simp only [hm, shown, State.part, hp]

/-! ### Turns of the word's own quire -/

/-- `t` is `s` with quire `h` changed by `g`, and sheets in progress changed. -/
structure Turn (s t : State) (h : Nat) (g : Quire → Quire) : Prop where
  module : t.apart = s.apart
  cores  : ∀ n, (t.core n).apart = (s.core n).apart
  quires : t.quires = s.quires.upd h g

section
variable {s t u : State} {h : Nat} {g g' : Quire → Quire} {e : Env}

theorem Edit.turn (E : Edit s t h g) : Turn s t h g := ⟨E.module, E.cores, E.quires⟩
theorem Turn.modQuire (s : State) (h : Nat) (g : Quire → Quire) : Turn s (s.modQuire h g) h g := ⟨rfl, fun _ => rfl, rfl⟩
theorem Turn.trans (A : Turn s t h g) (B : Turn t u h g') : Turn s u h (g' ∘ g) :=
  ⟨B.module.trans A.module, fun n => (B.cores n).trans (A.cores n), by rw [B.quires, A.quires, Tab.upd_upd]⟩
theorem Turn.stores (T : Turn s t h g) (x : List StoreRec) : Turn s { t with stores := x } h g := ⟨T.module, T.cores, T.quires⟩

theorem Turn.cycles (T : Turn s t h g) (core : Nat) : t.cycles core = s.cycles core := by
  have dies := congrArg State.dies T.module
  have now := congrArg State.now T.module
  simp only [State.apart] at dies now
  rw [State.cycles, State.die, dies, now]; rfl

/-- The sheet goes on past its word. -/
theorem Turn.advance (T : Turn s t e.r.h g) :
    Turn s (t.advance e) e.r.h fun q => (g q).modSheet e.r.k fun sh => sh.advance (s.cycles e.q.core) := by
  have on : Turn t (t.advance e) e.r.h fun q => q.modSheet e.r.k fun sh => sh.advance (t.cycles e.q.core) := by
    unfold State.advance
    simp only
    split
    · exact ((Edit.modSheet t e.r _).trans (Edit.leave _ _)).turn
    · exact (Edit.modSheet t e.r _).turn
  rw [T.cycles] at on
  exact T.trans on
/-- The sheet goes on past its word and waits. -/
theorem Turn.holdAt (T : Turn s t e.r.h g) (w : Wait) :
    Turn s (t.holdAt e w) e.r.h fun q => (g q).modSheet e.r.k fun sh => { sh.advance (s.cycles e.q.core) with wait := w } := by
  have on := (T.advance (e := e)).trans ((Edit.modSheet (t.advance e) e.r fun sh => { sh with wait := w }).trans (Edit.leave _ _)).turn
  refine ⟨on.module, on.cores, on.quires.trans ?_⟩
  congr 1
  funext q
  simp only [Function.comp_apply, Quire.modSheet, Tab.upd_upd]
  rfl

theorem Turn.find {q : Quire} (T : Turn s t h g) (hq : s.quires.find h = some q) : t.quires.find h = some (g q) := by
  rw [T.quires, Tab.find_upd_self, hq]; rfl

/-- A turn that on-chip windows do not show leaves the rest as it was. -/
theorem Turn.rest (T : Turn s t h g) (hg : ∀ q, (g q).window = q.window) : Rest s t := by
  have windows : t.windows = s.windows := by
    unfold State.windows
    rw [T.quires, Tab.upd, List.map_map]
    refine List.map_congr_left fun x _ => ?_
    simp only [Function.comp_apply]
    split
    · rw [hg]
    · rfl
  have mem := congrArg State.mem T.module
  have retired := congrArg State.retired T.module
  have parts := congrArg State.parts T.module
  exact ⟨T.module, T.cores, State.readByte_windows mem retired parts windows⟩

/-- A turn that leaves the Q registers alone and changes the sheets as stated. -/
theorem Turn.own {q : Quire} {forget : Quire → Quire} {others f : Sheet → Sheet} (T : Turn s t e.r.h g)
    (hq : s.quires.find e.r.h = some q) (hf : (forget (g q)).apart = (forget e.q).apart) (hn : (g q).q = e.q.q)
    (hk : ∀ k, k ≠ e.r.k → ((g q).sheets.find k).map Sheet.lessQ = ((e.q.sheets.find k).map others).map Sheet.lessQ)
    (hs : (g q).sheets.find e.r.k = some (f e.sh)) : Own s t e forget others [] f :=
  ⟨fun h hh => by rw [T.quires, Tab.find_upd_other _ _ hh],
    g q, T.find hq, hf, fun n => by rw [hn]; rfl, hk, f e.sh, hs, rfl, fun _ _ => rfl⟩
end
end Sys2Proof.Machine
end

section
/-! PROOFS. Barriers (O27): what an arrival makes of its quire, and that the words do no more. -/

namespace Sys2Proof.Machine
open Sys2Proof.Claims

/-! ### Arrivals (R158, R203) -/

/-- A quire at whose barrier `b`, which stood as `x`, the sheet `k` has arrived (R203). -/
def Quire.arriveAt (q : Quire) (k b : Nat) (x : Bar) : Quire :=
  let q := q.modSheet k fun sh => { sh with arrived := sh.arrived.put b x.phase }
  if x.a + 1 < x.e then { q with bars := q.bars.put b { x with a := x.a + 1 } }
  else ({ q with bars := q.bars.put b { x with a := 0, phase := x.phase + 1 } }).barWake b x.phase

/-- An arrival changes the quire at the barrier, and records of accesses. -/
theorem State.arrive_turn (s : State) (r : SheetRef) (b : Nat) (x : Bar) :
    Turn s (s.arrive r b x) r.h (·.arriveAt r.k b x) := by
  have first : Turn s ((s.relMark r 127 (.bar r.h b x.phase)).modSheet r fun sh => { sh with arrived := sh.arrived.put b x.phase })
      r.h fun q => q.modSheet r.k fun sh => { sh with arrived := sh.arrived.put b x.phase } :=
    ((Edit.stores s r.h _).trans (Edit.modSheet _ r _)).turn
  unfold State.arrive
  simp only
  split
  · rename_i more
    have T := first.trans (Turn.modQuire _ r.h fun q => { q with bars := q.bars.put b { x with a := x.a + 1 } })
    exact ⟨T.module, T.cores, T.quires.trans (congrArg _ (funext fun q => by simp [Quire.arriveAt, more]))⟩
  · rename_i last
    have T := first.trans (Turn.modQuire _ r.h fun q =>
      ({ q with bars := q.bars.put b { x with a := 0, phase := x.phase + 1 } }).barWake b x.phase)
    obtain ⟨m, hm⟩ := foldl_stores (g := fun (s : State) (y : Nat × Sheet) => s.barAcq { h := r.h, k := y.1 } b x.phase)
      (fun _ _ => rfl) _ _
    rw [hm]
    have T' := T.stores m
    exact ⟨T'.module, T'.cores, T'.quires.trans (congrArg _ (funext fun q => by simp [Quire.arriveAt, last]))⟩

section
variable {s : State} {e : Env} {w : FRC} {b : Nat} {x : Bar}

/-- The barrier after an arrival. -/
def Bar.arrived (x : Bar) : Bar := if x.e ≤ x.a + 1 then { x with a := 0, phase := x.phase + 1 } else { x with a := x.a + 1 }
/-- A sheet that an arrival at a barrier lets go on, when it is the last one. -/
def Bar.woken (x : Bar) (b : Nat) (sh : Sheet) : Sheet :=
  if x.e ≤ x.a + 1 ∧ sh.wait = .bar b x.phase then { sh with wait := .none, arrived := sh.arrived.del b } else sh

theorem Quire.arriveAt_bars (q : Quire) (k : Nat) : (q.arriveAt k b x).bars = q.bars.put b x.arrived := by
  unfold Quire.arriveAt Bar.arrived
  simp only [← Nat.not_lt, ite_not]
  split <;> rfl
theorem Quire.arriveAt_less (q : Quire) (k : Nat) : ({ q.arriveAt k b x with bars := [] } : Quire).apart = ({ q with bars := [] } : Quire).apart := by
  unfold Quire.arriveAt
  simp only
  split <;> rfl
theorem Quire.arriveAt_window (q : Quire) (k : Nat) : (q.arriveAt k b x).window = q.window := by
  unfold Quire.arriveAt
  simp only
  split <;> rfl
theorem Quire.arriveAt_q (q : Quire) (k : Nat) : (q.arriveAt k b x).q = q.q := by
  unfold Quire.arriveAt
  simp only
  split <;> rfl
theorem Quire.arriveAt_sheets (q : Quire) (k j : Nat) : (q.arriveAt k b x).sheets.find j =
    ((q.modSheet k fun sh => { sh with arrived := sh.arrived.put b x.phase }).sheets.find j).map (x.woken b) := by
  unfold Quire.arriveAt Bar.woken
  simp only [← Nat.not_lt]
  split
  · simp_all
  · simp_all [Quire.barWake]

/-- An arrival, for the barrier and the sheets. -/
theorem arrival (L : Live s e) {f : Sheet → Sheet} {t : State}
    (T : Turn (s.arrive e.r b x) t e.r.h fun q => q.modSheet e.r.k f) :
    Rest s t ∧ (t.quires.find e.r.h).map (·.bars) = some (e.q.bars.put b x.arrived) ∧
      Own s t e (fun q => { q with bars := [] }) (x.woken b) [] fun sh => f { sh with arrived := sh.arrived.put b x.phase } := by
  have A := (s.arrive_turn e.r b x).trans T
  refine ⟨A.rest fun q => q.arriveAt_window _, ?_, ?_⟩
  · rw [A.find L.find]
    exact congrArg some (e.q.arriveAt_bars _)
  · refine A.own L.find (e.q.arriveAt_less _) (e.q.arriveAt_q _) (fun k hk => ?_) ?_
    · simp only [Function.comp_apply, Quire.modSheet, Tab.find_upd_other _ _ hk, Quire.arriveAt_sheets]
    · simp only [Function.comp_apply, Quire.modSheet, Tab.find_upd_self, Quire.arriveAt_sheets, L.sheet, Option.map_some,
        Bar.woken, L.ready, reduceCtorEq, and_false, if_false]

/-- The sheet on past its arrival. -/
theorem arrive_advance (s : State) (e : Env) (b : Nat) (x : Bar) :
    Turn (s.arrive e.r b x) ((s.arrive e.r b x).advance e) e.r.h fun q => q.modSheet e.r.k (past s e) := by
  have T := (Edit.refl (s.arrive e.r b x) e.r.h).turn.advance (e := e)
  rw [(s.arrive_turn e.r b x).cycles] at T
  exact T
/-- The sheet past its arrival and waiting for the phase. -/
theorem arrive_holdAt (s : State) (e : Env) (b : Nat) (x : Bar) (v : Wait) :
    Turn (s.arrive e.r b x) ((s.arrive e.r b x).holdAt e v) e.r.h fun q => q.modSheet e.r.k fun sh => { past s e sh with wait := v } := by
  have T := (Edit.refl (s.arrive e.r b x) e.r.h).turn.holdAt (e := e) v
  rw [(s.arrive_turn e.r b x).cycles] at T
  exact T
/-- The sheet on past its arrival in the last place. -/
theorem arrive_last (s : State) (e : Env) (b : Nat) (x : Bar) (m : List StoreRec) :
    Turn (s.arrive e.r b x) ((({ s.arrive e.r b x with stores := m } : State).modSheet e.r fun sh =>
      { sh with arrived := sh.arrived.del b }).advance e) e.r.h fun q => q.modSheet e.r.k fun sh => past s e { sh with arrived := sh.arrived.del b } := by
  have T := ((Edit.stores (s.arrive e.r b x) e.r.h m).trans (Edit.modSheet _ e.r fun sh => { sh with arrived := sh.arrived.del b })).turn.advance
    (e := e)
  rw [(s.arrive_turn e.r b x).cycles] at T
  refine ⟨T.module, T.cores, T.quires.trans (congrArg _ (funext fun q => ?_))⟩
  simp only [Function.comp_apply, id, Quire.modSheet, Tab.upd_upd]
  rfl

/-- What holds an arrival back. -/
theorem unplaced_iff (s : State) (r : SheetRef) (sh : Sheet) : s.unplaced r sh = true ↔
    sh.posts ≠ 0 ∨ s.vatPending r (fun _ => true) = true ∨ s.acqPending r = true := by
  simp [State.unplaced, or_assoc]

theorem arriveEff_waits (hx : e.q.bars.find b = some x) (hu : s.unplaced e.r e.sh = true) (k : Bar → Eff) :
    arriveEff e s b k = .wait s (.issue 15) := by
  unfold arriveEff barEff
  simp only [hx, hu, if_true]
theorem arriveEff_goes (hx : e.q.bars.find b = some x) (hu : s.unplaced e.r e.sh = false) (k : Bar → Eff) :
    arriveEff e s b k = k x := by
  unfold arriveEff barEff
  simp only [hx, hu, Bool.false_eq_true, if_false]

end

/-! ### The words -/

/-- A barrier of a count with no arrival, its phase kept (R203). -/
def Quire.initBar (q : Quire) (b n : Nat) : Quire :=
  { q with bars := q.bars.put b { e := n, a := 0, phase := (q.bars.find b).elim 0 (·.phase) } }

section
variable {s : State} {e : Env} {w : FRC} {x : Bar}

theorem barInit_answers (L : Live s e) (h1 : 1 ≤ (e.u w.b.toNat).toNat) (h2 : (e.u w.b.toNat).toNat ≤ 16) :
    Answers (exec (.barInit w) s) fun t => Rest s t ∧ Own s t e (fun q => { q with bars := [] }) id [] (past s e) ∧
      (t.quires.find e.r.h).map (·.bars) = some (e.q.bars.put w.a.toNat
        ⟨(e.u w.b.toNat).toNat, 0, ((e.q.bars.find w.a.toNat).map (·.phase)).getD 0⟩) := by
  have run : exec (.barInit w) s = .next ((s.modQuire e.r.h (·.initBar w.a.toNat (e.u w.b.toNat).toNat)).advance e) := by
    refine (issue_plain L _).trans ?_
    rw [if_neg (by omega)]
    rfl
  have T := (Turn.modQuire s e.r.h (·.initBar w.a.toNat (e.u w.b.toNat).toNat)).advance (e := e)
  refine ⟨_, run, T.rest fun _ => rfl, T.own L.find rfl rfl (fun k hk => ?_) ?_, ?_⟩
  · simp only [Quire.modSheet, Tab.find_upd_other _ _ hk, Option.map_id_fun, id, Quire.initBar]
  · simp only [Quire.modSheet, Tab.find_upd_self, Quire.initBar, L.sheet, Option.map_some]
    rfl
  · rw [T.find L.find]
    cases h : e.q.bars.find w.a.toNat <;> simp [Quire.initBar, Quire.modSheet, h]

/-- `bar.arr` with nothing before it (R203). -/
theorem exec_barArr (L : Live s e) (hx : e.q.bars.find w.a.toNat = some x) (hu : s.unplaced e.r e.sh = false) :
    exec (.barArr w) s = .next ((s.arrive e.r w.a.toNat x).advance e) :=
  (issue_plain L _).trans (by rw [arriveEff_goes hx hu]; rfl)
/-- `bar.sync` with nothing before it (R203): it goes on as the last arrival, and waits otherwise. -/
theorem exec_barSync (L : Live s e) (hx : e.q.bars.find w.a.toNat = some x) (hu : s.unplaced e.r e.sh = false) :
    exec (.barSync w) s = .next (if x.e ≤ x.a + 1 then
      ((((s.arrive e.r w.a.toNat x).barAcq e.r w.a.toNat x.phase).modSheet e.r fun sh =>
        { sh with arrived := sh.arrived.del w.a.toNat }).advance e)
      else (s.arrive e.r w.a.toNat x).holdAt e (.bar w.a.toNat x.phase)) := by
  refine (issue_plain L _).trans ?_
  rw [arriveEff_goes hx hu]
  by_cases last : x.e ≤ x.a + 1
  · have ended : ¬x.a + 1 < x.e := Nat.not_lt.2 last
    simp only [barWaitEff, Option.getD_some, ended, if_false, Nat.lt_succ_self, if_true, last]
    rfl
  · have more : x.a + 1 < x.e := Nat.not_le.1 last
    simp only [barWaitEff, Option.getD_some, more, if_true, Nat.lt_irrefl, if_false, last]
    rfl

/-- `bar.wait` (R203): it goes on when the phase of the latest arrival is over. -/
theorem barWait_answers (L : Live s e) (hx : e.q.bars.find w.a.toNat = some x) :
    Answers (exec (.barWait w) s) fun t => Rest s t ∧ (t.quires.find e.r.h).map (·.bars) = some e.q.bars ∧ Own s t e id id [] fun sh =>
      match sh.arrived.find w.a.toNat with
      | some p => if p < x.phase then past s e { sh with arrived := sh.arrived.del w.a.toNat } else { past s e sh with wait := .bar w.a.toNat p }
      | none => { past s e sh with wait := .bar w.a.toNat x.phase } := by
  have run : exec (.barWait w) s = .next ((barWaitEff e s w.a.toNat x.phase (e.sh.arrived.find w.a.toNat)).finish e) :=
    (issue_plain L _).trans (by unfold barEff; rw [hx])
  by_cases ended : (e.sh.arrived.find w.a.toNat).getD x.phase < x.phase
  · have T := (((Edit.stores s e.r.h (s.barAcq e.r w.a.toNat ((e.sh.arrived.find w.a.toNat).getD x.phase)).stores).trans
      (Edit.modSheet _ e.r fun sh => { sh with arrived := sh.arrived.del w.a.toNat })).turn.advance (e := e))
    refine ⟨_, run, ?_⟩
    simp only [barWaitEff, ended, if_true, Eff.finish]
    refine ⟨T.rest fun _ => rfl, congrArg (Option.map (·.bars)) (T.find L.find), T.own L.find rfl rfl (fun k hk => ?_) ?_⟩
    · simp [Quire.modSheet, Tab.find_upd_other _ _ hk]
    · cases h : e.sh.arrived.find w.a.toNat with
      | none => simp [h] at ended
      | some p =>
        rw [h, Option.getD_some] at ended
        simp [Quire.modSheet, L.sheet, ended, past]
  · have T := (Edit.refl s e.r.h).turn.holdAt (e := e) (.bar w.a.toNat ((e.sh.arrived.find w.a.toNat).getD x.phase))
    refine ⟨_, run, ?_⟩
    simp only [barWaitEff, ended, if_false, Eff.finish]
    refine ⟨T.rest fun _ => rfl, congrArg (Option.map (·.bars)) (T.find L.find), T.own L.find rfl rfl (fun k hk => ?_) ?_⟩
    · simp [Quire.modSheet, Tab.find_upd_other _ _ hk]
    · cases h : e.sh.arrived.find w.a.toNat with
      | none => simp [Quire.modSheet, L.sheet, past]
      | some p =>
        rw [h, Option.getD_some] at ended
        simp [Quire.modSheet, L.sheet, ended, past]

end

/-- Settles O27: `barInit_answers`, `arriveEff_waits`, `arrival` for `bar.arr` and `bar.sync`, and `barWait_answers`. -/
theorem barrierWords : Obligations.BarrierWords := by
  intro w s e L
  refine ⟨fun old ho h1 h2 => ?_, fun x hx hu i hi => ?_, fun x hx => ?_⟩
  · subst ho
    exact barInit_answers L h1 h2
  · have held := (unplaced_iff s e.r e.sh).2 hu
    rcases List.mem_pair.1 hi with rfl | rfl
    · exact ⟨_, (issue_plain L _).trans (by rw [arriveEff_waits hx held]), stalls_wait L _⟩
    · exact ⟨_, (issue_plain L _).trans (by rw [arriveEff_waits hx held]), stalls_wait L _⟩
  · intro placed last wake after
    have free : placed → s.unplaced e.r e.sh = false := fun ⟨h1, h2, h3⟩ => by simp [State.unplaced, h1, h2, h3]
    refine ⟨fun hp => ⟨_, exec_barArr L hx (free hp), arrival L (arrive_advance s e _ x)⟩, fun hp => ⟨_, exec_barSync L hx (free hp), ?_⟩,
      barWait_answers L hx⟩
    by_cases hl : x.e ≤ x.a + 1
    · simp only [hl, if_true, last]
      exact arrival L (arrive_last s e _ x _)
    · simp only [hl, if_false, last]
      exact arrival L (arrive_holdAt s e _ x _)

end Sys2Proof.Machine
end

section
/-! PROOFS. Fences (O38): they change the records of accesses alone. -/

namespace Sys2Proof.Machine
open Sys2Proof.Claims

/-! ### Fences (R167, R168) -/

theorem StoreRec.fence_rlx (x : StoreRec) (r : SheetRef) : x.fence r .rlx = x := rfl

/-- A fence with nothing of its sheet in its way (R155, R167). -/
theorem exec_fence {s : State} {e : Env} (L : Live s e) (w : FM) (ho : s.ordHeld e w.ord w.scope = false)
    (hv : s.vatPending e.r (fun _ => true) = false) :
    let t : State := { s with stores := s.stores.map fun x => x.fence e.r w.ord }
    exec (.fence w) s = .next ((if w.ord = .sc then t.scFence e w.scope else t).advance e) := by
  refine (issue_plain L _).trans ?_
  simp only [ho, hv, Bool.or_self, Bool.false_eq_true, if_false]
  rfl

/-- No operation of a sheet, alone or merged into another's, is at a vat. -/
theorem no_vat_of_sheet {s : State} {r : SheetRef}
    (h : ∀ v ∈ s.vats, ∀ o ∈ v.2.input ++ v.2.queue, o.ref ≠ some r ∧ ∀ k ∈ o.keys, k.ref ≠ r) :
    (s.vats.any fun v => (v.2.input ++ v.2.queue).any fun o => (o.ref == some r && o.eng.isEmpty) || o.keys.any (·.ref == r)) =
      false := by
  rw [List.any_eq_false]
  intro v hv
  rw [Bool.not_eq_true, List.any_eq_false]
  intro o ho
  obtain ⟨href, hkeys⟩ := h v hv o ho
  have keys : o.keys.any (·.ref == r) = false := by
    rw [List.any_eq_false]
    exact fun k hk => by simpa using hkeys k hk
  simp [keys, href]

/-- `fence.tr` with nothing of its sheet at a vat (R168). -/
theorem exec_fenceTr {s : State} {e : Env} (L : Live s e) (w : FM)
    (h : ∀ v ∈ s.vats, ∀ o ∈ v.2.input ++ v.2.queue, o.ref ≠ some e.r ∧ ∀ k ∈ o.keys, k.ref ≠ e.r) :
    exec (.fenceTr w) s = .next (({ s with stores := s.stores.map fun x =>
      if x.ref = e.r then { x with dies := walkerDies w.scope.code e.q.core ++ x.dies } else x } : State).advance e) := by
  refine (issue_plain L _).trans ?_
  simp only [no_vat_of_sheet h, Bool.false_eq_true, if_false]
  rfl

/-- A word that changes the access records alone goes on. -/
theorem goes_stores {s : State} {e : Env} (L : Live s e) (x : List StoreRec) :
    Goes s (({ s with stores := x } : State).advance e) e [] id 0 :=
  have L' : Live { s with stores := x } e := L
  Goes.of_acts (acts_none L')

/-- Settles O38: `exec_fence` and `exec_fenceTr` change the access records alone. -/
theorem fenceWords : Obligations.FenceWords := by
  intro w s e L
  refine ⟨fun ho hv => ⟨_, exec_fence L w ho hv, ?_, fun hr => ?_, fun hs => ?_⟩, fun h => ⟨_, exec_fenceTr L w h, goes_stores L _, ?_⟩⟩
  · split
    · rw [State.scFence_eq]; exact goes_stores L _
    · exact goes_stores L _
  · simp [hr, StoreRec.fence_rlx]
  · simp [hs]
  · simp only [State.advance_stores]; rfl
end Sys2Proof.Machine
end

section
/-! PROOFS. Stores (O36): the bytes that a list of stores leaves in memory and chamber, and that they change nothing else. -/

namespace Sys2Proof.Machine
open Sys2Proof.Claims

/-! ### Bytes that a list of stores leaves (R156) -/

theorem lastByte_append (ws : List (Nat × List Byte)) (w : Nat × List Byte) (old : Nat → Byte) (a : Nat) :
    lastByte (ws ++ [w]) old a =
      if w.1 ≤ a ∧ a < w.1 + w.2.length then (w.2[a - w.1]?).getD 0 else lastByte ws old a := by
  unfold lastByte
  rw [List.reverse_append, List.reverse_singleton, List.singleton_append, List.find?_cons]
  by_cases h : w.1 ≤ a ∧ a < w.1 + w.2.length
  · simp [h]
  · rw [if_neg h, show (decide (w.1 ≤ a) && decide (a < w.1 + w.2.length)) = false by simpa using h]

theorem Memory.get_write (mem : List Host.Cell) (pa : Nat) (bs : List Byte) (a : Nat) :
    Tab.get Memory.blank (Memory.write mem pa bs) a =
      if pa ≤ a ∧ a < pa + bs.length then (bs[a - pa]?).getD 0 else Tab.get Memory.blank mem a := by
  split
  · rename_i h
    obtain ⟨i, rfl⟩ := Nat.exists_eq_add_of_le h.1
    have hi : i < bs.length := by omega
    rw [Memory.get_write_self hi, Nat.add_sub_cancel_left, List.getElem?_eq_getElem hi]
    rfl
  · exact Memory.get_write_other (by omega)

/-- After writes, one after another, a byte is the last one written there. -/
theorem Memory.get_writes_last {α : Type} (addr : α → Nat) (bs : α → List Byte) (xs : List α) (mem : List Host.Cell) (a : Nat) :
    Tab.get Memory.blank (Memory.writes addr bs xs mem) a = lastByte (xs.map fun x => (addr x, bs x)) (Tab.get Memory.blank mem) a := by
  induction xs using List.reverseRecOn with
  | nil => rfl
  | append_singleton xs x ih =>
    rw [Memory.writes, List.foldl_append, List.foldl_cons, List.foldl_nil, Memory.get_write, List.map_append, List.map_singleton,
      lastByte_append, ← ih]
    rfl

/-- Where no store lies, what stood there stands. -/
theorem lastByte_outside {ws : List (Nat × List Byte)} {old : Nat → Byte} {a : Nat}
    (h : ∀ w ∈ ws, a < w.1 ∨ w.1 + w.2.length ≤ a) : lastByte ws old a = old a := by
  unfold lastByte
  rw [List.find?_eq_none.2]
  intro w hw
  have := h w (List.mem_reverse.1 hw)
  simp only [Bool.and_eq_true, decide_eq_true_eq]
  omega

theorem dataBytes_eq (e : Env) (l : Option Nat) (t : Nat) (z : Size) :
    e.dataBytes l t z.regs z.bytes = dataOf e t z.bytes l := by
  unfold Env.dataBytes dataOf
  cases z <;> simp [Size.regs, Size.bytes, leBytes, List.range_succ, Nat.div_div_eq_div_mul]
theorem dataOf_length (e : Env) (t n : Nat) (l : Option Nat) : (dataOf e t n l).length = n := by simp [dataOf]

/-! ### A store to plain memory (R353, R358) -/

/-- `t` is `s` with memory `m`, but for the counters of memory and the records of accesses. -/
def Stored (s t : State) (m : List Host.Cell) : Prop :=
  ∃ c n g x, t = { s with mem := m, blockCtr := c, nodeCtr := n, gens := g, stores := x }

theorem Stored.refl (s : State) : Stored s s s.mem := ⟨_, _, _, _, rfl⟩
theorem Stored.trans {s t u : State} {m m' : List Host.Cell} (A : Stored s t m) (B : Stored t u m') : Stored s u m' := by
  obtain ⟨c, n, g, x, rfl⟩ := A
  obtain ⟨c', n', g', x', rfl⟩ := B
  exact ⟨c', n', g', x', rfl⟩
theorem Stored.stores {s t : State} {m : List Host.Cell} (A : Stored s t m) (x : List StoreRec) : Stored s { t with stores := x } m := by
  obtain ⟨c, n, g, x', rfl⟩ := A
  exact ⟨c, n, g, x, rfl⟩

theorem Stored.mem {s t : State} {m : List Host.Cell} (A : Stored s t m) : t.mem = m := by
  obtain ⟨c, n, g, x, rfl⟩ := A
  rfl
/-- Steps that leave memory as it was, one after another. -/
theorem Stored.foldl {α : Type} {g : State → α → State} (hg : ∀ s a, Stored s (g s a) s.mem) (as : List α) (s : State) :
    Stored s (as.foldl g s) s.mem := by
  induction as generalizing s with
  | nil => exact Stored.refl s
  | cons a as ih =>
    have rest := ih (g s a)
    rw [(hg s a).mem] at rest
    exact (hg s a).trans rest

theorem Stored.rekeyed (s : State) (key : Nat) : Stored s (s.rekeyed key) s.mem := by
  unfold State.rekeyed
  split <;> exact ⟨_, _, _, _, rfl⟩
theorem Stored.bumpBlock (s : State) (b : Nat) : Stored s (s.bumpBlock b) s.mem := by
  have worn : Stored s ((b / 256 :: treeLevels.map (nodeKey b)).foldl (fun s _ =>
      match s.atMax b with
      | some key => (s.newGen key).rekeyed key
      | none => s) s) s.mem :=
    Stored.foldl (fun s _ => by
      cases s.atMax b with
      | none => exact Stored.refl s
      | some key => exact Stored.trans ⟨_, _, _, _, rfl⟩ (Stored.rekeyed (s.newGen key) key)) _ s
  refine worn.trans ?_
  rw [← worn.mem]
  exact ⟨_, _, _, _, rfl⟩
theorem Stored.bump (s : State) (pa len : Nat) : Stored s (s.bump pa len) s.mem := Stored.foldl Stored.bumpBlock _ s

/-- Bytes written to HBM or host memory. -/
theorem Stored.writeBytes {s : State} {pa : Nat} (h : s.region pa = .hbm ∨ s.region pa = .host) (bs : List Byte) :
    Stored s (s.writeBytes pa bs) (Memory.write s.mem pa bs) := by
  unfold State.writeBytes
  rcases h with h | h
  · rw [h]
    exact (Stored.bump s pa bs.length).trans ⟨_, _, _, _, rfl⟩
  · rw [h]
    exact ⟨_, _, _, _, rfl⟩

theorem Stored.region {s t : State} {m : List Host.Cell} (A : Stored s t m) (a : Nat) : t.region a = s.region a := by
  obtain ⟨c, n, g, x, rfl⟩ := A
  rfl

/-- A sheet's plain store to HBM or host memory. -/
theorem Stored.storeAt {s : State} {e : Env} {pa : Nat} (h : s.region pa = .hbm ∨ s.region pa = .host) (rel : Bool) (scope : Scope)
    (l : Option Nat) (bs : List Byte) : Stored s (s.storeAt e rel scope l pa bs) (Memory.write s.mem pa bs) := by
  have order : Stored s ((s.acqAt e false rel true scope l (s.locOf pa) bs.length).cutSync pa bs.length) s.mem := by
    rw [State.acqAt_eq]
    exact ⟨_, _, _, _, rfl⟩
  unfold State.storeAt State.relAt State.sheetWrite
  generalize (s.acqAt e false rel true scope l (s.locOf pa) bs.length).cutSync pa bs.length = u at order ⊢
  have write := Stored.writeBytes (s := u) (by rw [order.region]; exact h) bs
  rw [order.mem] at write
  have done := (order.trans write).stores
  split
  · exact done _
  · exact done _
/-- A doorbell write alone has a bell. -/
theorem State.bellAt_plain {s : State} {pa : Nat} (h : s.region pa = .hbm ∨ s.region pa = .host) (e : Env) (ord : Ord) (scope : Scope)
    (l : Option Nat) (before : State) : s.bellAt e ord scope l pa before = s := by
  unfold State.bellAt
  rcases h with h | h <;> rw [h]


/-- Stores of a word to HBM or host memory, one after another. -/
theorem Stored.foldl_storeAt {α : Type} {lane : α → Option Nat} {pa : α → Nat} {bs : α → List Byte} {e : Env} {ord : Ord} {scope : Scope}
    {xs : List α} {s : State} (h : ∀ x ∈ xs, s.region (pa x) = .hbm ∨ s.region (pa x) = .host) :
    Stored s (xs.foldl (fun s x => (s.storeAt e (ordRel ord) scope (lane x) (pa x) (bs x)).bellAt e ord scope (lane x) (pa x) s) s)
      (Memory.writes pa bs xs s.mem) := by
  induction xs generalizing s with
  | nil => exact Stored.refl s
  | cons x xs ih =>
    have here := h x List.mem_cons_self
    have first := Stored.storeAt (e := e) here (ordRel ord) scope (lane x) (bs x)
    have rest := ih (s := s.storeAt e (ordRel ord) scope (lane x) (pa x) (bs x))
      fun y hy => by rw [first.region]; exact h y (List.mem_cons_of_mem _ hy)
    rw [first.mem] at rest
    rw [List.foldl_cons, State.bellAt_plain (by rw [first.region]; exact here)]
    exact first.trans rest

theorem State.region_hbm {s : State} {a : Nat} : s.region a = .hbm ↔ a < s.hbmTop := by
  unfold State.region
  split
  · simp_all
  · repeat' split
    all_goals simp_all
theorem State.region_host {s : State} {a : Nat} : s.region a = .host ↔ ¬a < s.hbmTop ∧ hostBase ≤ a ∧ a < hostTop := by
  unfold State.region
  split
  · simp_all
  · repeat' split
    all_goals simp_all
/-- The bytes of an aligned access lie in one region (R354). -/
theorem State.region_aligned {s : State} {pa n j : Nat} (h : s.region pa = .hbm ∨ s.region pa = .host) (hn : n ∣ 16) (ha : pa % n = 0)
    (hj : j < n) : s.region (pa + j) = s.region pa := by
  obtain ⟨k, hk⟩ := hn
  have top : n ∣ s.hbmTop := ⟨k * (100663296 * (256 - s.retired.length)), by
    rw [State.hbmTop, ← Nat.mul_assoc, ← hk, ← Nat.mul_assoc]⟩
  have hostEnd : n ∣ hostTop := ⟨k * 0xC00000000000, by rw [← Nat.mul_assoc, ← hk]; rfl⟩
  obtain ⟨p, rfl⟩ := Nat.dvd_of_mod_eq_zero ha
  have below : ∀ m, n ∣ m → (n * p + j < m ↔ n * p < m) := by
    rintro _ ⟨m, rfl⟩
    exact ⟨fun h => by omega, fun h => by
      have := Nat.lt_of_mul_lt_mul_left h
      have := Nat.mul_le_mul_left n this
      rw [Nat.mul_succ] at this
      omega⟩
  rcases h with h | h
  · rw [h, State.region_hbm, below _ top]
    exact State.region_hbm.1 h
  · obtain ⟨past, lo, hi⟩ := State.region_host.1 h
    rw [h, State.region_host, below _ top, below _ hostEnd]
    exact ⟨past, by omega, hi⟩
theorem State.readByte_plain {s : State} {a : Nat} (h : s.region a = .hbm ∨ s.region a = .host) :
    s.readByte a = Tab.get Memory.blank s.mem a := by
  unfold State.readByte
  rcases h with h | h <;> rw [h]
/-- Memory shows in HBM and host memory alone. -/
theorem Stored.readByte_other {s t : State} {m : List Host.Cell} (A : Stored s t m) {a : Nat}
    (h : ¬(s.region a = .hbm ∨ s.region a = .host)) : t.readByte a = s.readByte a := by
  obtain ⟨c, n, g, x, rfl⟩ := A
  unfold State.readByte
  rw [show ({ s with mem := m, blockCtr := c, nodeCtr := n, gens := g, stores := x } : State).region a = s.region a from rfl]
  cases hr : s.region a with
  | hbm => exact absurd (.inl hr) h
  | host => exact absurd (.inr hr) h
  | bell n q off => rfl
  | win c off => rfl
  | none => rfl
theorem lastByte_congr {ws : List (Nat × List Byte)} {old old' : Nat → Byte} {a : Nat} (h : old a = old' a) :
    lastByte ws old a = lastByte ws old' a := by
  unfold lastByte
  split
  · rfl
  · exact h
/-- Where no write lies, a byte reads as before; elsewhere it reads what stands in memory last. -/
theorem Stored.readByte {α : Type} {pa : α → Nat} {bs : α → List Byte} {xs : List α} {s t : State}
    (A : Stored s t (Memory.writes pa bs xs s.mem))
    (h : ∀ x ∈ xs, ∀ j < (bs x).length, s.region (pa x + j) = .hbm ∨ s.region (pa x + j) = .host) (a : Nat) :
    t.readByte a = lastByte (xs.map fun x => (pa x, bs x)) s.readByte a := by
  by_cases plain : s.region a = .hbm ∨ s.region a = .host
  · rw [State.readByte_plain (by rw [A.region]; exact plain), A.mem, Memory.get_writes_last]
    exact lastByte_congr (State.readByte_plain plain).symm
  · have outside : ∀ w ∈ xs.map (fun x => (pa x, bs x)), a < w.1 ∨ w.1 + w.2.length ≤ a := by
      simp only [List.forall_mem_map]
      intro x hx
      by_contra within
      obtain ⟨j, rfl⟩ := Nat.exists_eq_add_of_le (show pa x ≤ a by omega)
      exact plain (h x hx j (by omega))
    rw [lastByte_outside outside, A.readByte_other plain]

/-! ### What a word leaves that changes memory and its sheet -/

/-- Memory may be stored to before a sheet is changed. -/
theorem Stored.before_modSheet {s u : State} {m : List Host.Cell} {r : SheetRef} {f : Sheet → Sheet} (A : Stored (s.modSheet r f) u m) :
    ∃ v, Stored s v m ∧ u = v.modSheet r f := by
  obtain ⟨c, n, g, x, rfl⟩ := A
  exact ⟨_, ⟨c, n, g, x, rfl⟩, rfl⟩
/-- A word that stores to memory and changes its sheet. -/
theorem Stored.word {s u : State} {e : Env} {m : List Host.Cell} (A : Stored s u m) (L : Live s e) (f : Sheet → Sheet) :
    let t := (u.modSheet e.r f).advance e
    OnlyMemory s t ∧ (∀ a, t.readByte a = u.readByte a) ∧ Own s t e id id [] fun sh => past s e (f sh) := by
  intro t
  obtain ⟨c, n, g, x, rfl⟩ := A
  let u : State := { s with mem := m, blockCtr := c, nodeCtr := n, gens := g, stores := x }
  have T : Turn u t e.r.h _ := (Edit.modSheet u e.r f).turn.advance
  have O : Own u t e id id [] fun sh => past s e (f sh) := T.own L.find rfl rfl
    (fun k hk => by simp [Quire.modSheet, Tab.find_upd_other _ _ hk])
    (by simp only [Quire.modSheet, Tab.find_upd_self, L.sheet, Option.map_some]; rfl)
  have mem := congrArg State.mem T.module
  have blocks := congrArg State.blockCtr T.module
  have nodes := congrArg State.nodeCtr T.module
  have gens := congrArg State.gens T.module
  simp only [State.apart] at mem blocks nodes gens
  refine ⟨⟨?_, T.cores⟩, (T.rest fun _ => rfl).2.2, ⟨O.quires, O.quire⟩⟩
  rw [T.module, mem, blocks, nodes, gens]
  rfl

/-- Writes meet no re-key when none is wanted and no counter is at its maximum (R359). -/
theorem State.keyGate_writes (s : State) (who : Who) {writes : List Nat} (h : s.rekeys = []) (hw : s.worn writes = none) :
    s.keyGate who [] writes = (s, true) := by
  have hs : { s with rekeys := [] } = s := by rw [← h]
  have kept : s.worn (writes.filter (· < s.hbmTop)) = none := by
    simp only [State.worn, List.findSome?_eq_none_iff] at hw ⊢
    exact fun a ha => hw a (List.mem_filter.1 ha).1
  unfold State.keyGate
  simp only [h, List.find?_nil, kept, List.map_nil, List.filter_nil, hs]

/-! ### The words -/

section
variable {s : State} {e : Env} {w : FM}

/-- Hits of plain pages are none of algebra pages. -/
theorem plainHits {need : DWord → Bool} {n : Nat} {addr : Option Nat → DWord} {pa : Option Nat → Nat} {ls : List (Option Nat)}
    (h : ∀ l ∈ ls, Plain s e need n (addr l) (pa l)) :
    (ls.map (plainHit s e addr pa)).filter (fun h => !leafALG h.leaf) = ls.map (plainHit s e addr pa) := by
  rw [List.filter_eq_self, List.forall_mem_map]
  exact fun l hl => by rw [(Plain.leaf (h l hl)).2]; rfl
/-- Nothing at a vat is in the way of hits past their vats. -/
theorem plainHits_unqueued {n : Nat} {addr : Option Nat → DWord} {pa : Option Nat → Nat} {ls : List (Option Nat)}
    (h : ∀ l ∈ ls, Unqueued s e l (pa l) n) :
    (ls.map (plainHit s e addr pa)).any (fun h => s.aliased e.r (laneNo h.lane) h.pa n) = false := by
  rw [List.any_eq_false, List.forall_mem_map]
  exact fun l hl => Bool.eq_false_iff.1 (State.aliased_of_unqueued (h l hl))

/-- A global store to plain pages with nothing in its way (R161). -/
theorem gstore_plain {addr : Option Nat → DWord} {pa : Option Nat → Nat} (ho : s.ordHeld e w.ord w.scope = false)
    (hk : s.rekeys = []) (hw : s.worn ((e.lanes w.com).map pa) = none)
    (hp : ∀ l ∈ e.lanes w.com, Plain s e leafW w.size.bytes (addr l) (pa l))
    (hq : ∀ l ∈ e.lanes w.com, Unqueued s e l (pa l) w.size.bytes) :
    gstore e s w.t.toNat w.size w.ord w.scope ((e.lanes w.com).map fun l => (l, addr l)) =
      .done ((e.lanes w.com).foldl (fun s l => (s.storeAt e (ordRel w.ord) w.scope l (pa l) (dataOf e w.t.toNat w.size.bytes l)).bellAt e
        w.ord w.scope l (pa l) s) (s.modSheet e.r fun sh => sh.hashAll ((e.lanes w.com).map fun l =>
          ((addr l).toNat, dataOf e w.t.toNat w.size.bytes l)))) := by
  unfold gstore
  rw [ho, gcheck_plain hp]
  have plain : ∀ l ∈ e.lanes w.com, leafALG (plainHit s e addr pa l).leaf = false := fun l hl => (Plain.leaf (hp l hl)).2
  have pas : ((e.lanes w.com).map (plainHit s e addr pa)).map (·.pa) = (e.lanes w.com).map pa := List.map_map
  simp only [plainHits hp, plainHits_unqueued hq, Bool.false_eq_true, if_false, pas, State.keyGate_writes s _ hk hw, Bool.not_true,
    dataBytes_eq, List.map_map, List.foldl_map]
  refine congrArg Eff.done (List.foldl_ext _ _ _ fun u l hl => ?_)
  simp only [plain l hl, Bool.false_eq_true, if_false]
  rfl

/-- The bytes of accesses of plain pages lie in HBM or host memory. -/
theorem Plain.regions {need : DWord → Bool} {z : Size} {a : DWord} {pa : Nat} (h : Plain s e need z.bytes a pa) :
    ∀ j < z.bytes, s.region (pa + j) = .hbm ∨ s.region (pa + j) = .host := by
  intro j hj
  obtain ⟨-, -, aligned, region, -⟩ := h
  have divides : z.bytes ∣ 16 := by cases z <;> decide
  rw [State.region_aligned region divides aligned hj]
  exact region
theorem size_pos (z : Size) : 0 < z.bytes := by cases z <;> decide

/-- A global store at plain addresses (R161). -/
theorem store_stores {vs : List (Nat × Nat)} {addr : Option Nat → DWord} {pa : Option Nat → Nat} (L : Live s e)
    (ho : s.ordHeld e w.ord w.scope = false) (hv : e.sh.vOk vs = true) (hk : s.rekeys = [])
    (hw : s.worn ((e.lanes w.com).map pa) = none)
    (h : ∀ l ∈ e.lanes w.com, Plain s e leafW w.size.bytes (addr l) (pa l) ∧ Unqueued s e l (pa l) w.size.bytes) (body : Env → Eff)
    (hb : body e = gstore e s w.t.toNat w.size w.ord w.scope ((e.lanes w.com).map fun l => (l, addr l))) :
    Answers (issue { vs } s body) fun t => OnlyMemory s t ∧
      (∀ a, t.readByte a = lastByte ((e.lanes w.com).map fun l => (pa l, dataOf e w.t.toNat w.size.bytes l)) s.readByte a) ∧
      Own s t e id id [] fun sh => past s e (sh.hashAll ((e.lanes w.com).map fun l =>
        ((addr l).toNat, dataOf e w.t.toNat w.size.bytes l))) := by
  refine ⟨_, issue_regs L body hv, ?_⟩
  rw [hb, gstore_plain ho hk hw (fun l hl => (h l hl).1) fun l hl => (h l hl).2]
  have regions : ∀ l ∈ e.lanes w.com, ∀ j < (dataOf e w.t.toNat w.size.bytes l).length,
      s.region (pa l + j) = .hbm ∨ s.region (pa l + j) = .host := fun l hl j hj =>
    Plain.regions (h l hl).1 j (by rwa [dataOf_length] at hj)
  generalize hf : (fun sh : Sheet => sh.hashAll ((e.lanes w.com).map fun l => ((addr l).toNat, dataOf e w.t.toNat w.size.bytes l))) = f
  obtain ⟨u, A, hu⟩ := Stored.before_modSheet (Stored.foldl_storeAt (lane := fun l => l) (e := e) (ord := w.ord) (scope := w.scope) (s := s.modSheet e.r f)
      (bs := dataOf e w.t.toNat w.size.bytes) (pa := pa) (xs := e.lanes w.com) fun l hl =>
      regions l hl 0 (by rw [dataOf_length]; exact size_pos w.size))
  obtain ⟨only, bytes, own⟩ := A.word L f
  rw [← hf] at own
  rw [Eff.finish, show List.foldl _ _ _ = u.modSheet e.r f from hu]
  subst hf
  exact ⟨only, fun a => (bytes a).trans (A.readByte regions a), own⟩

/-! ### Chamber -/

/-- Chamber bytes that a sheet writes in their order, one after another. -/
theorem Turn.foldl_chamWrite {α : Type} {at' : α → Nat} {bs : α → List Byte} {g : State → α → State} {h : Nat}
    (hg : ∀ s x, ∃ y, g s x = { s.chamWrite h (at' x) (bs x) with stores := y }) (xs : List α) (s : State) :
    Turn s (xs.foldl g s) h fun q => { q with cham := Memory.writes at' bs xs q.cham } := by
  induction xs generalizing s with
  | nil => exact (Edit.refl s h).turn
  | cons x xs ih =>
    obtain ⟨y, hy⟩ := hg s x
    have first : Turn s (g s x) h fun q => { q with cham := Memory.write q.cham (at' x) (bs x) } := by
      rw [hy]
      exact (Turn.modQuire s h _).stores y
    exact first.trans (ih _)

theorem State.relAt_eq (s : State) (e : Env) (rel : Bool) (scope : Scope) (l : Option Nat) (loc len : Nat) :
    s.relAt e rel scope l loc len = { s with stores := (s.relAt e rel scope l loc len).stores } := by cases rel <;> rfl

/-- A byte in HBM or host memory, or of a doorbell, does not depend on the quires. -/
theorem Turn.readByte {s t : State} {h : Nat} {g : Quire → Quire} (T : Turn s t h g) {a : Nat} (ha : ∀ c o, s.region a ≠ .win c o) :
    t.readByte a = s.readByte a := by
  have mem := congrArg State.mem T.module
  have retired := congrArg State.retired T.module
  have parts := congrArg State.parts T.module
  simp only [State.apart] at mem retired parts
  have region : t.region a = s.region a := by unfold State.region State.hbmTop; rw [retired]
  unfold State.readByte
  rw [region, mem]
  cases hr : s.region a with
  | hbm => rfl
  | host => rfl
  | bell n q off => simp only [State.part, parts]
  | win c off => exact absurd hr (ha c off)
  | none => rfl

/-- A chamber store of an issuer in its place (R153, R161). -/
def chamStoreAt (e : Env) (w : FM) (off : Option Nat → Int) (s : State) (l : Option Nat) : State :=
  let loc := chamLoc e.r.h (off l).toNat
  (((s.acqAt e false (ordRel w.ord) true w.scope l loc w.size.bytes).cutAt loc w.size.bytes).chamWrite e.r.h (off l).toNat
    (dataOf e w.t.toNat w.size.bytes l)).relAt e (ordRel w.ord) w.scope l loc w.size.bytes

theorem chamStoreAt_eq (off : Option Nat → Int) (s : State) (l : Option Nat) : ∃ y, chamStoreAt e w off s l =
    { s.chamWrite e.r.h (off l).toNat (dataOf e w.t.toNat w.size.bytes l) with stores := y } := by
  unfold chamStoreAt
  rw [State.relAt_eq, State.acqAt_eq]
  exact ⟨_, rfl⟩

theorem cstore_eq (off : Option Nat → Int) :
    cstore e s w.t.toNat w.size w.ord w.scope ((e.lanes w.com).map fun l => (l, (off l).toNat)) =
      .done ((e.lanes w.com).foldl (chamStoreAt e w off) (s.modSheet e.r fun sh =>
        sh.hashAll ((e.lanes w.com).map fun l => ((off l).toNat, dataOf e w.t.toNat w.size.bytes l)))) := by
  unfold cstore
  simp only [dataBytes_eq, List.map_map, List.foldl_map]
  rfl

/-- A chamber store past its checks (R41, R161). -/
theorem cstore_stores (L : Live s e) (off : Option Nat → Int) :
    let ws := (e.lanes w.com).map fun l => ((off l).toNat, dataOf e w.t.toNat w.size.bytes l)
    let t := (cstore e s w.t.toNat w.size w.ord w.scope ((e.lanes w.com).map fun l => (l, (off l).toNat))).finish e
    t.apart = s.apart ∧ (∀ q, t.quires.find e.r.h = some q → ∀ a, chamber q a = lastByte ws (chamber e.q) a) ∧
      (∀ a, (∀ c o, s.region a ≠ .win c o) → t.readByte a = s.readByte a) ∧
      Own s t e (fun q => { q with cham := [] }) id [] fun sh => past s e (sh.hashAll ws) := by
  intro ws
  rw [cstore_eq]
  have T := ((Edit.modSheet s e.r (·.hashAll ws)).turn.trans
    (Turn.foldl_chamWrite (chamStoreAt_eq (w := w) off) (e.lanes w.com) (s.modSheet e.r (·.hashAll ws)))).advance (e := e)
  refine ⟨T.module, fun q hq a => ?_, fun a ha => T.readByte ha, T.own L.find
    (by simp only [Function.comp_apply, Quire.modSheet, Quire.apart]) rfl (fun k hk => ?_) ?_⟩
  · obtain rfl := Option.some.inj ((T.find L.find).symm.trans hq)
    exact Memory.get_writes_last _ _ _ _ _
  · simp [Quire.modSheet, Tab.find_upd_other _ _ hk]
  · simp only [Function.comp_apply, Quire.modSheet, Tab.find_upd_self, L.sheet, Option.map_some]
    rfl

end

/-- Settles O36: `store_stores` for global stores by either form of address, `cstore_stores` for the chamber's. -/
theorem storeWords : Obligations.StoreWords := by
  intro w s e L ho n data
  refine ⟨fun i ni addr pa hi hv hk hw h => ?_, fun off hoff hv hb h => ?_⟩
  · rcases hi with ⟨rfl, rfl, rfl⟩ | ⟨rfl, rfl, rfl⟩
    · exact store_stores L ho hv hk hw h _ rfl
    · exact store_stores L ho hv hk hw h _ rfl
  · refine ⟨_, issue_regs L _ hv, ?_⟩
    have accs : e.caccs w.com w.base w.idx w.scale w.off.toInt w.size.bytes = (e.lanes w.com).map fun l => (l, off l) := by
      rw [hoff]; rfl
    beta_reduce
    rw [ho, accs, ccheck_passes h, bankTrace_unbanked hb]
    exact cstore_stores L off

end Sys2Proof.Machine
end

section
/-! PROOFS. Atomics (O37): what the issuers, one after another, make of memory and chamber. -/

namespace Sys2Proof.Machine
open Sys2Proof.Claims

/-! ### Values -/

/-- The destinations of an atomic with their old values (R165). -/
def oldRegs (e : Env) (t : BitVec 8) (z : Size) (x : Option Nat × DWord) : List (RegKey × Option Word) :=
  dataRegs e t x.1 (([x.2.setWidth 32, (x.2 >>> 32).setWidth 32] : List Word).take z.regs)

/-- The outstanding destinations of an atomic hold the old value (R165). -/
theorem outsOf_old {z : Size} (hz : z = .b32 ∨ z = .b64) (e : Env) (t : BitVec 8) (l : Option Nat) (old : DWord) :
    outsOf ((e.dataKeys l t.toNat z.regs).zip [loWord old, hiWord old]) = (oldRegs e t z (l, old)).map fun o => ⟨o.1, o.2, false⟩ := by
  rcases hz with rfl | rfl <;> rfl

theorem lastByte_append_list (ws ws' : List (Nat × List Byte)) (old : Nat → Byte) (a : Nat) :
    lastByte (ws ++ ws') old a = lastByte ws' (lastByte ws old) a := by
  unfold lastByte
  rw [List.reverse_append, List.find?_append]
  cases ws'.reverse.find? fun w => decide (w.1 ≤ a) && decide (a < w.1 + w.2.length) <;> rfl

/-! ### Atomics of memory -/

section
variable {e : Env} {t : BitVec 8} {z : Size} {ord : Ord} {scope : Scope} {f : Option Nat → DWord → Option DWord} {pa : Option Nat → Nat}

/-- An atomic of an issuer in its place: what it leaves, and the old values so far (R156, R165). -/
def atomAt (e : Env) (t : BitVec 8) (z : Size) (ord : Ord) (scope : Scope) (f : Option Nat → DWord → Option DWord) (pa : Option Nat → Nat)
    (x : State × List LLOut × Nat) (l : Option Nat) : State × List LLOut × Nat :=
  let old := BitVec.ofNat 64 (x.1.readNat (pa l) z.bytes)
  let loc := x.1.locOf (pa l)
  let s := x.1.acqAt e (ordAcq ord) (ordRel ord) true scope l loc z.bytes
  (match f l old with
    | none => s
    | some v => (s.sheetWrite e.r l (pa l) (leBytes z.bytes v.toNat)).relAt e (ordRel ord) scope l loc z.bytes,
    x.2.1 ++ outsOf ((e.dataKeys l t.toNat z.regs).zip [loWord old, hiWord old]), x.2.2)

/-- A sheet's write to HBM or host memory. -/
theorem Stored.sheetWrite {s : State} {a : Nat} (h : s.region a = .hbm ∨ s.region a = .host) (r : SheetRef) (l : Option Nat) (bs : List Byte) :
    Stored s (s.sheetWrite r l a bs) (Memory.write s.mem a bs) := (Stored.writeBytes h bs).stores _

/-- The memory that an atomic leaves. -/
theorem atomAt_stored {s : State} {outs : List LLOut} {n : Nat} {l : Option Nat} (hr : ∀ j < z.bytes, s.region (pa l + j) = .hbm ∨ s.region (pa l + j) = .host) :
    let old := BitVec.ofNat 64 (s.readNat (pa l) z.bytes)
    ∃ m, Stored s (atomAt e t z ord scope f pa (s, outs, n) l).1 m ∧
      ∀ a, (atomAt e t z ord scope f pa (s, outs, n) l).1.readByte a =
        lastByte (((f l old).toList).map fun v => (pa l, leBytes z.bytes v.toNat)) s.readByte a := by
  intro old
  have here := hr 0 (size_pos z)
  unfold atomAt
  cases hf : f l old with
  | none =>
    simp only [old] at hf
    simp only [hf]
    rw [State.acqAt_eq]
    exact ⟨s.mem, ⟨_, _, _, _, rfl⟩, fun a => rfl⟩
  | some v =>
    simp only [old] at hf
    simp only [hf]
    rw [State.relAt_eq, State.acqAt_eq]
    generalize (s.acqAt e (ordAcq ord) (ordRel ord) true scope l (s.locOf (pa l)) z.bytes).stores = x
    have A : Stored s ({ s with stores := x } : State) s.mem := ⟨_, _, _, _, rfl⟩
    have B := (A.trans (Stored.sheetWrite (s := { s with stores := x }) here e.r l (leBytes z.bytes v.toNat))).stores
      (((({ s with stores := x } : State).sheetWrite e.r l (pa l) (leBytes z.bytes v.toNat)).relAt e (ordRel ord) scope l (s.locOf (pa l)) z.bytes).stores)
    refine ⟨_, B, fun a => ?_⟩
    exact Stored.readByte (pa := fun _ : Unit => pa l) (bs := fun _ => leBytes z.bytes v.toNat) (xs := [()]) B
      (fun _ _ j hj => hr j (by rwa [leBytes_length] at hj)) a

/-- Atomics of a word, one issuer after another (R156, R165). -/
theorem atomAt_foldl (hz : z = .b32 ∨ z = .b64) (ls : List (Option Nat)) (s : State) (outs : List LLOut) (n : Nat)
    (hr : ∀ l ∈ ls, ∀ j < z.bytes, s.region (pa l + j) = .hbm ∨ s.region (pa l + j) = .host) :
    let d := ls.foldl (atomAt e t z ord scope f pa) (s, outs, n)
    let r := atomics f z.bytes pa ls s.readByte
    (∃ m, Stored s d.1 m) ∧ (∀ a, d.1.readByte a = r.1 a) ∧ d.2.2 = n ∧
      d.2.1 = outs ++ ((ls.zip r.2).flatMap (oldRegs e t z)).map fun o => ⟨o.1, o.2, false⟩ := by
  induction ls generalizing s outs n with
  | nil => exact ⟨⟨_, Stored.refl s⟩, fun _ => rfl, rfl, (List.append_nil _).symm⟩
  | cons l ls ih =>
    obtain ⟨m, A, bytes⟩ := atomAt_stored (e := e) (t := t) (ord := ord) (scope := scope) (f := f) (outs := outs) (n := n)
      (hr l List.mem_cons_self)
    obtain ⟨⟨m', B⟩, after, count, values⟩ := ih _ (atomAt e t z ord scope f pa (s, outs, n) l).2.1 _
      fun k hk j hj => by rw [A.region]; exact hr k (List.mem_cons_of_mem _ hk) j hj
    rw [funext bytes] at after values
    refine ⟨⟨m', A.trans B⟩, after, count, ?_⟩
    refine values.trans ?_
    have first : (atomAt e t z ord scope f pa (s, outs, n) l).2.1 =
        outs ++ (oldRegs e t z (l, BitVec.ofNat 64 (s.readNat (pa l) z.bytes))).map fun o => ⟨o.1, o.2, false⟩ :=
      congrArg (outs ++ ·) (outsOf_old hz e t l _)
    rw [first, List.append_assoc, ← List.map_append]
    rfl

/-- A global atomic of plain pages with nothing in its way (R165). -/
theorem gatomic_plain {s : State} {c : Com} {addr : Option Nat → DWord} {act : Option Nat → VAct} (ho : s.ordHeld e ord scope = false)
    (hk : s.rekeys = []) (hw : s.worn ((e.lanes c).map pa) = none)
    (hp : ∀ l ∈ e.lanes c, Plain s e (fun x => leafR x && leafW x && leafAT x) z.bytes (addr l) (pa l))
    (hu : ∀ l ∈ e.lanes c, s.ue (pa l) z.bytes = false) (hq : ∀ l ∈ e.lanes c, Unqueued s e l (pa l) z.bytes) :
    let d := (e.lanes c).foldl (atomAt e t z ord scope f pa) ({ s with next := s.next + 1 }, [], 0)
    gatomic e s c t.toNat z.regs z.bytes ord scope ((e.lanes c).map fun l => (l, addr l)) f act =
      .done (d.1.modSheet e.r fun sh => sh.llOpen
        { id := s.next, flag := e.sh.flagOf c.fs, left := d.2.2, outs := d.2.1, noise := false, ue := none,
          reads := (e.lanes c).map fun l => (pa l, z.bytes) }) := by
  intro d
  unfold gatomic
  rw [ho, gcheck_plain hp]
  have plain : ∀ l ∈ e.lanes c, leafALG (plainHit s e addr pa l).leaf = false := fun l hl => (Plain.leaf (hp l hl)).2
  have pas : ((e.lanes c).map (plainHit s e addr pa)).map (·.pa) = (e.lanes c).map pa := List.map_map
  simp only [plainHits hp, plainHits_unqueued hq, Bool.false_eq_true, if_false, pas, State.keyGate_writes s _ hk hw, Bool.not_true,
    List.map_map, List.foldl_map]
  have sound : ((e.lanes c).map (plainHit s e addr pa)).find? (fun h => s.fresh.2.ue h.pa z.bytes) = none := by
    rw [List.find?_eq_none, List.forall_mem_map]
    exact fun l hl => Bool.eq_false_iff.1 (hu l hl)
  rw [sound, List.foldl_ext _ (atomAt e t z ord scope f pa) _ fun x l hl => ?_]
  · rfl
  · obtain ⟨u, outs, n⟩ := x
    simp only [plain l hl, Bool.false_eq_true, if_false]
    unfold atomAt
    simp only [plainHit]
    cases f l (BitVec.ofNat 64 (u.readNat (pa l) z.bytes)) <;> rfl

/-- A global atomic at plain addresses (R165). -/
theorem atomic_answers {s : State} {c : Com} {vs : List (Nat × Nat)} {addr : Option Nat → DWord} {act : Option Nat → VAct}
    (L : Live s e) (hz : z = .b32 ∨ z = .b64) (hf : e.flagRoom c.fs) (ho : s.ordHeld e ord scope = false) (hv : e.sh.vOk vs = true)
    (hk : s.rekeys = []) (hw : s.worn ((e.lanes c).map pa) = none)
    (h : ∀ l ∈ e.lanes c, Plain s e (fun x => leafR x && leafW x && leafAT x) z.bytes (addr l) (pa l) ∧ s.ue (pa l) z.bytes = false ∧
      Unqueued s e l (pa l) z.bytes) (body : Env → Eff)
    (hb : body e = gatomic e s c t.toNat z.regs z.bytes ord scope ((e.lanes c).map fun l => (l, addr l)) f act) :
    let r := atomics f z.bytes pa (e.lanes c) s.readByte
    Answers (issue { ll := some c.fs, vs } s body) fun t' => OnlyMemory s t' ∧ (∀ a, t'.readByte a = r.1 a) ∧
      Own s t' e id id [] fun sh => past s e (sh.llOpen { held s e c.fs (((e.lanes c).zip r.2).flatMap (oldRegs e t z)) false with
        reads := (e.lanes c).map fun l => (pa l, z.bytes) }) := by
  intro r
  refine ⟨_, issue_ll L body hv hf, ?_⟩
  rw [hb, gatomic_plain ho hk hw (fun l hl => (h l hl).1) (fun l hl => (h l hl).2.1) fun l hl => (h l hl).2.2]
  obtain ⟨⟨m, A⟩, bytes, count, values⟩ := atomAt_foldl (e := e) (t := t) (ord := ord) (scope := scope) (f := f) (pa := pa) hz (e.lanes c)
    { s with next := s.next + 1 } [] 0 fun l hl j hj => Plain.regions (h l hl).1 j hj
  have L' : Live { s with next := s.next + 1 } e := L
  obtain ⟨only, same, own⟩ := A.word L' fun sh => sh.llOpen
    { held s e c.fs (((e.lanes c).zip r.2).flatMap (oldRegs e t z)) false with reads := (e.lanes c).map fun l => (pa l, z.bytes) }
  rw [Eff.finish, count, values]
  exact ⟨only, fun a => (same a).trans (bytes a), own.quires, own.quire⟩
end

/-! ### Atomics of chamber -/

section
variable {e : Env} {w : FMk} {off : Option Nat → Int}

/-- What an `atom.c` writes for an old value (R165). -/
def chamNew (e : Env) (w : FMk) (l : Option Nat) (old : DWord) : DWord :=
  atomFn w.kind.toNat (w.size = .b64) old (e.opnd l w.size.regs w.t.toNat)
/-- A word of a quire's chamber. -/
def chamWord (s : State) (h a n : Nat) : DWord :=
  BitVec.ofNat 64 (leNat ((List.range n).map fun i => Tab.get 0 ((s.quires.find h).elim [] (·.cham)) (a + i)))
/-- An `atom.c` of an issuer in its place: the state, and the old values so far. -/
def chamAtomAt (e : Env) (w : FMk) (off : Option Nat → Int) (x : State × List LLOut) (l : Option Nat) : State × List LLOut :=
  let old := chamWord x.1 e.r.h (off l).toNat w.size.bytes
  let loc := chamLoc e.r.h (off l).toNat
  (((x.1.acqAt e (ordAcq w.ord) (ordRel w.ord) true w.scope l loc w.size.bytes).chamWrite e.r.h (off l).toNat
      (leBytes w.size.bytes (chamNew e w l old).toNat)).relAt e (ordRel w.ord) w.scope l loc w.size.bytes,
    x.2 ++ outsOf ((e.dataKeys l w.t.toNat w.size.regs).zip [loWord old, hiWord old]))

/-- The chamber bytes that an `atom.c` writes for an old value. -/
def chamAtomWrite (e : Env) (w : FMk) (off : Option Nat → Int) (l : Option Nat) (old : DWord) : Nat × List Byte :=
  ((off l).toNat, leBytes w.size.bytes (chamNew e w l old).toNat)

theorem chamAtomAt_eq (x : State × List LLOut) (l : Option Nat) :
    let old := chamWord x.1 e.r.h (off l).toNat w.size.bytes
    ∃ y, (chamAtomAt e w off x l).1 =
      { x.1.chamWrite e.r.h (chamAtomWrite e w off l old).1 (chamAtomWrite e w off l old).2 with stores := y } := by
  intro old
  unfold chamAtomAt
  simp only
  rw [State.relAt_eq, State.acqAt_eq]
  exact ⟨_, rfl⟩

theorem chamber_write (q : Quire) (b : Nat × List Byte) : chamber { q with cham := Memory.write q.cham b.1 b.2 } = lastByte [b] (chamber q) :=
  funext fun a => Memory.get_writes_last Prod.fst Prod.snd [b] q.cham a

theorem chamAtomAt_foldl (hz : w.size = .b32 ∨ w.size = .b64) (ls : List (Option Nat)) {s : State} {q : Quire}
    (hq : s.quires.find e.r.h = some q) (outs : List LLOut) :
    let d := ls.foldl (chamAtomAt e w off) (s, outs)
    let r := atomics (fun l old => some (chamNew e w l old)) w.size.bytes (fun l => (off l).toNat) ls (chamber q)
    ∃ ws : List (Nat × List Byte), Turn s d.1 e.r.h (fun q => { q with cham := Memory.writes (·.1) (·.2) ws q.cham }) ∧
      (∀ a, lastByte ws (chamber q) a = r.1 a) ∧ d.2 = outs ++ ((ls.zip r.2).flatMap (oldRegs e w.t w.size)).map fun o => ⟨o.1, o.2, false⟩ := by
  induction ls generalizing s q outs with
  | nil => exact ⟨[], (Edit.refl s e.r.h).turn, fun _ => rfl, (List.append_nil _).symm⟩
  | cons l ls ih =>
    have read : chamWord s e.r.h (off l).toNat w.size.bytes =
        BitVec.ofNat 64 (leNat ((List.range w.size.bytes).map fun j => chamber q ((off l).toNat + j))) := by
      unfold chamWord
      rw [hq]
      rfl
    generalize hold : chamWord s e.r.h (off l).toNat w.size.bytes = old at read
    obtain ⟨y, hy⟩ := chamAtomAt_eq (e := e) (w := w) (off := off) (s, outs) l
    have values : (chamAtomAt e w off (s, outs) l).2 = outs ++ (oldRegs e w.t w.size (l, old)).map fun o => ⟨o.1, o.2, false⟩ :=
      (congrArg (outs ++ ·) (outsOf_old hz e w.t l _)).trans (by rw [hold])
    rw [hold] at hy
    generalize hb : chamAtomWrite e w off l old = b at hy
    have first : Turn s (chamAtomAt e w off (s, outs) l).1 e.r.h fun q => { q with cham := Memory.write q.cham b.1 b.2 } := by
      rw [hy]
      exact (Turn.modQuire s e.r.h _).stores y
    obtain ⟨ws, T, bytes, rest⟩ := ih (first.find hq) (chamAtomAt e w off (s, outs) l).2
    rw [chamber_write] at bytes rest
    subst hb read
    refine ⟨_ :: ws, first.trans T, fun a => ?_, rest.trans ?_⟩
    · rw [← List.singleton_append, lastByte_append_list]
      exact bytes a
    · rw [values, List.append_assoc, ← List.map_append]
      rfl

/-- A chamber atomic within the allocation that nothing holds (R41, R165). -/
theorem atomC_answers {s : State} (L : Live s e) (hz : w.size = .b32 ∨ w.size = .b64) (hf : e.flagRoom w.com.fs)
    (ho : s.ordHeld e w.ord w.scope = false) (hv : e.sh.vOk (mvs w.com w.t w.idx w.size.regs 1) = true) (hb : Unbanked e)
    (hoff : off = fun l => e.caddr l w.base w.idx w.scale w.off.toInt w.size.bytes)
    (h : ∀ l ∈ e.lanes w.com, InChamber s e w.size.bytes (off l)) :
    let r := atomics (fun l old => some (chamNew e w l old)) w.size.bytes (fun l => (off l).toNat) (e.lanes w.com) (chamber e.q)
    Answers (exec (.atomC w) s) fun t => t.apart = s.apart ∧ (∀ q, t.quires.find e.r.h = some q → ∀ a, chamber q a = r.1 a) ∧
      Own s t e (fun q => { q with cham := [] }) id [] fun sh => past s e (sh.llOpen (held s e w.com.fs
        (((e.lanes w.com).zip r.2).flatMap (oldRegs e w.t w.size)) false)) := by
  intro r
  let s' : State := { s with next := s.next + 1 }
  obtain ⟨ws, T, bytes, values⟩ := chamAtomAt_foldl (w := w) (off := off) hz (e.lanes w.com) (s := s') L.find []
  let d := (e.lanes w.com).foldl (chamAtomAt e w off) (s', [])
  have run : exec (.atomC w) s = .next ((d.1.llOpen e w.com.fs s.next 0 d.2 false).advance e) := by
    refine (issue_ll L _ hv hf).trans ?_
    have accs : e.caccs w.com w.base w.idx w.scale w.off.toInt w.size.bytes = (e.lanes w.com).map fun l => (l, off l) := by
      rw [hoff]; rfl
    rw [ho, accs, ccheck_passes h, bankTrace_unbanked hb]
    simp only [Bool.false_eq_true, if_false, List.foldl_map]
    rfl
  have opened : Turn s' ((d.1.llOpen e w.com.fs s.next 0 d.2 false).advance e) e.r.h _ := (T.trans (Edit.modSheet d.1 e.r fun sh => sh.llOpen
    { id := s.next, flag := e.sh.flagOf w.com.fs, left := 0, outs := d.2, noise := false }).turn).advance (e := e)
  have outs : d.2 = (((e.lanes w.com).zip r.2).flatMap (oldRegs e w.t w.size)).map fun o => ⟨o.1, o.2, false⟩ := values
  rw [outs] at run opened
  generalize (State.advance _ e) = u at run opened
  have own : Own s' u e (fun q => { q with cham := [] }) id [] fun sh => past s e (sh.llOpen (held s e w.com.fs
      (((e.lanes w.com).zip r.2).flatMap (oldRegs e w.t w.size)) false)) := by
    refine opened.own L.find ?_ rfl (fun k hk => ?_) ?_
    · simp only [Function.comp_apply, Quire.modSheet, Quire.apart]
    · simp [Quire.modSheet, Tab.find_upd_other _ _ hk]
    · simp only [Function.comp_apply, Quire.modSheet, Tab.find_upd_self, L.sheet, Option.map_some]
      rfl
  refine ⟨_, run, opened.module, fun q hq a => ?_, own.quires, own.quire⟩
  obtain rfl := Option.some.inj ((opened.find L.find).symm.trans hq)
  refine (Memory.get_writes_last _ _ _ _ _).trans ?_
  rw [List.map_id'']
  · exact bytes a
  · exact fun _ => rfl
end

/-- Settles O37: `atomic_answers` for atomics of memory, `atomC_answers` for the chamber's. -/
theorem atomicWords : Obligations.AtomicWords := by
  intro s e L
  refine ⟨fun i c t idx z ord scope k addr f pa hi hz hf ho hv hk hw h => ?_, fun w off hoff hz hf ho hv hb h =>
    atomC_answers L hz hf ho hv hb hoff h⟩
  rcases hi with ⟨w, rfl, rfl, rfl, rfl, rfl, rfl, rfl, rfl, rfl, rfl⟩ | ⟨w, rfl, rfl, rfl, rfl, rfl, rfl, rfl, rfl, rfl, rfl⟩
  · rw [Nat.one_mul] at hv
    exact atomic_answers L hz hf ho hv hk hw h _ rfl
  · exact atomic_answers L hz hf ho hv hk hw h _ rfl

end Sys2Proof.Machine
end

section
/-! PROOFS. Pools (O40): what their words leave of a quire, past the retry of the sheets that wait at issue. -/

namespace Sys2Proof.Machine
open Sys2Proof.Claims

/-! ### Sheets that waited at issue (R43) -/

/-- A quire whose sheets that waited at issue are ready again. -/
def Quire.retried (q : Quire) : Quire := { q with sheets := q.sheets.mapv Claims.retried }

theorem State.retryAll_eq (s : State) : s.retryAll = { s with quires := s.quires.mapv Quire.retried } := rfl

theorem retried_ready {sh : Sheet} (h : sh.wait = .none) : retried sh = sh := by unfold retried; rw [h]

/-- A turn that does not look at waits may come before the retry. -/
theorem Turn.retryAll {s t : State} {h : Nat} {g : Quire → Quire} (T : Turn s t h g) (hg : ∀ q, g q.retried = (g q).retried) :
    Turn s.retryAll t.retryAll h g := by
  refine ⟨T.module, T.cores, ?_⟩
  simp only [State.retryAll_eq, T.quires, Tab.mapv, Tab.upd, List.map_map]
  refine List.map_congr_left fun x _ => ?_
  simp only [Function.comp_apply]
  split
  · rw [hg]
  · rfl

/-! ### What a pool word changes -/

/-- A quire with chamber bytes written and a pool put (R177). -/
def Quire.pooled (q : Quire) (at' : Nat) (bs : List Byte) (p : Nat) (x : Pool) : Quire :=
  { q with cham := Memory.write q.cham at' bs, pools := q.pools.put p x }

section
variable {s t : State} {e : Env} {a p : Nat} {bs : List Byte} {x : Pool}

/-- The chamber of a resident quire is in its core. -/
theorem State.chamPut_resident (L : Live s e) (a : Nat) (bs : List Byte) : s.chamPut e.r.h a bs = s.chamOpen e.r.h a bs := by
  unfold State.chamPut
  rw [L.find]
  obtain ⟨-, -, -, resident, -⟩ := L.spec
  simp only [resident]

/-- A word that writes chamber bytes and a pool, and lets the sheets that waited at issue go on. -/
theorem Turn.pooled (L : Live s e) (T : Turn s t e.r.h (·.pooled a bs p x)) :
    let u := t.retryAll.advance e
    u.apart = s.apart ∧ (u.quires.find e.r.h).map (·.pools) = some (e.q.pools.put p x) ∧
      Own s.retryAll u e (fun q => { q with cham := [], pools := [] }) retried [] (past s e) ∧
      ∀ q, u.quires.find e.r.h = some q → ∀ c, chamber q c = if a ≤ c ∧ c < a + bs.length then (bs[c - a]?).getD 0 else chamber e.q c := by
  intro u
  have A := (T.retryAll fun _ => rfl).advance (e := e)
  have found : s.retryAll.quires.find e.r.h = some e.q.retried := by
    rw [State.retryAll_eq, Tab.find_mapv, L.find]; rfl
  have cycles : s.retryAll.cycles e.q.core = s.cycles e.q.core := rfl
  rw [cycles] at A
  have own : Own s.retryAll u e (fun q => { q with cham := [], pools := [] }) retried [] (past s e) := by
    refine A.own found ?_ ?_ (fun k hk => ?_) ?_
    · simp only [Quire.modSheet, Quire.pooled, Quire.retried, Quire.apart]
    · simp only [Quire.modSheet, Quire.pooled, Quire.retried]
    · simp only [Quire.modSheet, Tab.find_upd_other _ _ hk, Quire.pooled, Quire.retried, Tab.find_mapv]
    · simp only [Quire.modSheet, Tab.find_upd_self, Quire.pooled, Quire.retried, Tab.find_mapv, L.sheet, Option.map_some,
        retried_ready L.ready]
      rfl
  refine ⟨A.module, congrArg (Option.map (·.pools)) (A.find found), own, fun q hq c => ?_⟩
  obtain rfl := Option.some.inj ((A.find found).symm.trans hq)
  exact Memory.get_write _ _ _ _

end

/-! ### `pinit` and `prel` -/

/-- The bytes of empty slots (R174, R177). -/
def emptySlots (n : Nat) : List Byte := (List.replicate n (localSlot 0xFF 0 0 0).bytes).flatten

theorem emptySlots_length (n : Nat) : (emptySlots n).length = 16 * n := by
  rw [emptySlots, List.length_flatten, List.map_replicate, List.sum_replicate, Nat.mul_comm]
  rfl
theorem emptySlots_getElem? (n : Nat) {i : Nat} (hi : i < 16 * n) :
    (emptySlots n)[i]? = some (if i % 16 = 0 then (0xFF : Byte) else 0) := by
  induction n generalizing i with
  | zero => omega
  | succ n ih =>
    rw [emptySlots, List.replicate_succ, List.flatten_cons, ← emptySlots, List.getElem?_append]
    split
    · rename_i h
      have slot : ∀ i < 16, (localSlot 0xFF 0 0 0).bytes[i]? = some (if i % 16 = 0 then (0xFF : Byte) else 0) := by decide
      exact slot i h
    · rename_i h
      have past : (localSlot 0xFF 0 0 0).bytes.length = 16 := rfl
      rw [past] at h ⊢
      rw [ih (by omega), show (i - 16) % 16 = i % 16 by omega]

section
variable {s : State} {e : Env} {w : FE} {x : Pool}

/-- `pinit` of a ring within the chamber with nothing reserved (R177). -/
theorem exec_pinit (L : Live s e) (ha : (e.s w.sa.toNat).toNat % 16 = 0)
    (hi : (e.s w.sa.toNat).toNat + 16 * w.mod.toNat ≤ 4096 * e.q.chamg) (hr : ∀ x, e.q.pools.find w.va.toNat = some x → x.resv = 0) :
    exec (.pinit w) s = .next ((((s.chamOpen e.r.h (e.s w.sa.toNat).toNat (emptySlots w.mod.toNat)).slotDrop e.r.h w.va.toNat
      fun _ => true).modQuire e.r.h fun q => { q with pools := q.pools.put w.va.toNat ⟨e.s w.sa.toNat, w.mod.toNat, 0, 0, 0⟩ }).retryAll.advance e) := by
  refine (issue_plain L _).trans ?_
  have inside : e.q.inCham (e.s w.sa.toNat).toNat (16 * w.mod.toNat) = true := by
    simp only [Quire.inCham, Bool.and_eq_true, decide_eq_true_eq]
    omega
  have free : (e.q.pools.find w.va.toNat).any (fun x => x.resv != 0) = false := by
    cases h : e.q.pools.find w.va.toNat with
    | none => rfl
    | some x => simp [hr x h]
  simp only [inside, ha, free, Bool.not_true, Bool.false_eq_true, if_false, ne_eq, not_true_eq_false, State.chamPut_resident L]
  rfl

theorem poolEff_some (hx : e.q.pools.find w.va.toNat = some x) (f : Pool → Eff) : poolEff e s w.va.toNat f = f x := by
  unfold poolEff
  rw [hx]

/-- `prel` of a pool with a filled slot (R177). -/
theorem exec_prel (L : Live s e) (hx : e.q.pools.find w.va.toNat = some x) (hf : x.filled ≠ 0) :
    exec (.prel w) s = .next ((((s.slotDrop e.r.h w.va.toNat (· == x.rd)).chamOpen e.r.h (x.off.toNat + 16 * x.rd) [0xFF]).modQuire e.r.h
      fun q => { q with pools := q.pools.put w.va.toNat { x with rd := (x.rd + 1) % x.n, filled := x.filled - 1 } }).retryAll.advance e) := by
  have L' : Live (s.slotDrop e.r.h w.va.toNat (· == x.rd)) e := L
  refine (issue_plain L _).trans ?_
  rw [poolEff_some hx, if_neg hf, State.chamPut_resident L']
  rfl

/-- `pinit`, before the retry. -/
theorem Turn.pinit (s : State) (h a p : Nat) (bs : List Byte) (x : Pool) :
    Turn s (((s.chamOpen h a bs).slotDrop h p fun _ => true).modQuire h fun q => { q with pools := q.pools.put p x }) h
      (·.pooled a bs p x) :=
  (((Edit.stores s h (s.cutAt (chamLoc h a) bs.length).stores).turn.trans (Turn.modQuire _ h _)).stores _).trans (Turn.modQuire _ h _)
/-- `prel`, before the retry. -/
theorem Turn.prel (s : State) (h a p : Nat) (which : Nat → Bool) (bs : List Byte) (x : Pool) :
    Turn s (((s.slotDrop h p which).chamOpen h a bs).modQuire h fun q => { q with pools := q.pools.put p x }) h (·.pooled a bs p x) :=
  ((Edit.stores s h ((s.slotDrop h p which).cutAt (chamLoc h a) bs.length).stores).turn.trans (Turn.modQuire _ h _)).trans (Turn.modQuire _ h _)

theorem pinit_answers (L : Live s e) (ha : (e.s w.sa.toNat).toNat % 16 = 0)
    (hi : (e.s w.sa.toNat).toNat + 16 * w.mod.toNat ≤ 4096 * e.q.chamg) (hr : ∀ x, e.q.pools.find w.va.toNat = some x → x.resv = 0) :
    let off := (e.s w.sa.toNat).toNat
    Answers (exec (.pinit w) s) fun t => t.apart = s.apart ∧
      (t.quires.find e.r.h).map (·.pools) = some (e.q.pools.put w.va.toNat ⟨e.s w.sa.toNat, w.mod.toNat, 0, 0, 0⟩) ∧
      Own s.retryAll t e (fun q => { q with cham := [], pools := [] }) retried [] (past s e) ∧
      ∀ q, t.quires.find e.r.h = some q → ∀ a, chamber q a =
        if off ≤ a ∧ a < off + 16 * w.mod.toNat then if (a - off) % 16 = 0 then 0xFF else 0 else chamber e.q a := by
  intro off
  obtain ⟨module, pools, own, bytes⟩ := Turn.pooled L (Turn.pinit s e.r.h off w.va.toNat (emptySlots w.mod.toNat) _)
  refine ⟨_, exec_pinit L ha hi hr, module, pools, own, fun q hq a => (bytes q hq a).trans ?_⟩
  rw [emptySlots_length]
  refine if_ctx_congr Iff.rfl (fun h => ?_) fun _ => rfl
  rw [emptySlots_getElem? _ (by omega)]
  rfl

theorem prel_answers (L : Live s e) (hx : e.q.pools.find w.va.toNat = some x) (hf : x.filled ≠ 0) :
    Answers (exec (.prel w) s) fun t => t.apart = s.apart ∧
      (t.quires.find e.r.h).map (·.pools) = some (e.q.pools.put w.va.toNat { x with rd := (x.rd + 1) % x.n, filled := x.filled - 1 }) ∧
      Own s.retryAll t e (fun q => { q with cham := [], pools := [] }) retried [] (past s e) ∧
      ∀ q, t.quires.find e.r.h = some q → ∀ a, chamber q a = if a = x.off.toNat + 16 * x.rd then 0xFF else chamber e.q a := by
  obtain ⟨module, pools, own, bytes⟩ := Turn.pooled L
    (Turn.prel s e.r.h (x.off.toNat + 16 * x.rd) w.va.toNat (· == x.rd) [0xFF] { x with rd := (x.rd + 1) % x.n, filled := x.filled - 1 })
  refine ⟨_, exec_prel L hx hf, module, pools, own, fun q hq a => (bytes q hq a).trans ?_⟩
  have one : (x.off.toNat + 16 * x.rd ≤ a ∧ a < x.off.toNat + 16 * x.rd + [(0xFF : Byte)].length) ↔ a = x.off.toNat + 16 * x.rd := by
    rw [List.length_singleton]; omega
  refine if_ctx_congr one (fun h => ?_) fun _ => rfl
  rw [h, Nat.sub_self]
  rfl

/-! ### Words that observe a pool (R177) -/

/-- The head of a pool as `pwait` returns it. -/
def headRegs (e : Env) (sd : Nat) (x : Pool) : List (RegKey × Word) :=
  (List.range 4).map fun j => (RegKey.s (sd + j),
    if x.filled = 0 then if j = 0 then (0xFF : Word) else 0
    else BitVec.ofNat 32 (leNat ((List.range 4).map fun b => chamber e.q (x.off.toNat + 16 * x.rd + 4 * j + b))))

theorem headWords_regs (L : Live s e) (sd : Nat) :
    ((s.headWords e.r.h x).zipIdx.map fun w => (RegKey.s (sd + w.2), w.1)) = headRegs e sd x := by
  unfold State.headWords headRegs
  split
  · rfl
  · obtain ⟨-, -, -, resident, -⟩ := L.spec
    unfold State.chamGet
    rw [L.find]
    simp only [resident]
    rfl

/-- `pwait` with a filled slot, nothing reserved, or its deadline passed (R177). -/
theorem exec_pwait (L : Live s e) (hx : e.q.pools.find w.va.toNat = some x)
    (h : x.filled ≠ 0 ∨ x.resv = 0 ∨ ∃ d : DWord, w.mod.getLsbD 0 = true ∧ d = e.spair w.sa.toNat ∧ d.toNat ≤ s.now / 720720) :
    exec (.pwait w) s = .next ((((s.headJoin e.r w.va.toNat x).writeRegs e.r (headRegs e w.sd.toNat x)).advance e)) := by
  have due : (x.filled ≠ 0 ∨ x.resv = 0 ∨ (if w.mod.getLsbD 0 then some (e.spair w.sa.toNat) else none).any
      (fun d => d.toNat ≤ s.reft) = true) := by
    refine h.imp_right (.imp_right ?_)
    rintro ⟨d, hd, rfl, late⟩
    rw [hd, if_pos rfl, Option.any_some, decide_eq_true_eq]
    exact late
  refine (issue_plain L _).trans ?_
  rw [poolEff_some hx]
  simp only [due, if_true]
  rw [← headWords_regs L]
  rfl

theorem pwait_answers (L : Live s e) (hx : e.q.pools.find w.va.toNat = some x)
    (h : x.filled ≠ 0 ∨ x.resv = 0 ∨ ∃ d : DWord, w.mod.getLsbD 0 = true ∧ d = e.spair w.sa.toNat ∧ d.toNat ≤ s.now / 720720) :
    Answers (exec (.pwait w) s) fun t => Goes s t e (headRegs e w.sd.toNat x) id 0 ∧ t.stores = (s.headJoin e.r w.va.toNat x).stores := by
  refine ⟨_, exec_pwait L hx h, ?_, by simp only [State.advance_stores, State.writeRegs_stores]⟩
  rw [State.headJoin_eq]
  have L' : Live { s with stores := (s.headJoin e.r w.va.toNat x).stores } e := L
  refine Goes.of_acts (acts_regs L' _ fun k hk => ?_)
  obtain ⟨j, -, rfl⟩ := List.mem_map.1 hk
  trivial

/-- `pwait` with nothing filled, something reserved and no deadline passed (R177). -/
theorem pwait_waits (L : Live s e) (hx : e.q.pools.find w.va.toNat = some x) (hf : x.filled = 0) (hr : x.resv ≠ 0)
    (h : ¬∃ d : DWord, w.mod.getLsbD 0 = true ∧ d = e.spair w.sa.toNat ∧ d.toNat ≤ s.now / 720720) :
    Answers (exec (.pwait w) s) fun t => Waits s t e [] (·.noteSpin (s.cycles e.q.core))
      (.pwait w.va.toNat w.sd.toNat (if w.mod.getLsbD 0 then some (e.spair w.sa.toNat) else none)) 0 := by
  have early : ¬(x.filled ≠ 0 ∨ x.resv = 0 ∨ (if w.mod.getLsbD 0 then some (e.spair w.sa.toNat) else none).any
      (fun d => d.toNat ≤ s.reft) = true) := by
    rintro (h0 | h0 | h0)
    · exact h0 hf
    · exact hr h0
    · cases hd : w.mod.getLsbD 0
      · rw [hd] at h0; cases h0
      · rw [hd, if_pos rfl, Option.any_some, decide_eq_true_eq] at h0
        exact h ⟨_, hd, rfl, h0⟩
  refine ⟨_, (issue_plain L _).trans ?_, waits_sheet L _ _⟩
  rw [poolEff_some hx]
  simp only [early, if_false]
  rfl

theorem prel_empty (L : Live s e) (hx : e.q.pools.find w.va.toNat = some x) (hf : x.filled = 0) :
    Answers (exec (.prel w) s) fun t => Acts s t e [] id 0 := by
  refine ⟨_, (issue_plain L _).trans ?_, acts_none L⟩
  rw [poolEff_some hx, if_pos hf]
  rfl

/-- `pdrain` with nothing reserved (R177). -/
theorem pdrain_answers (L : Live s e) (hx : e.q.pools.find w.va.toNat = some x) (hr : x.resv = 0) :
    Answers (exec (.pdrain w) s) fun t => Goes s t e [] id 0 ∧ t.stores = (s.slotJoin e.r w.va.toNat fun _ => true).stores := by
  have run : exec (.pdrain w) s = .next ((s.slotJoin e.r w.va.toNat fun _ => true).advance e) := by
    refine (issue_plain L _).trans ?_
    rw [poolEff_some hx, if_pos hr]
    rfl
  have L' : Live { s with stores := (s.slotJoin e.r w.va.toNat fun _ => true).stores } e := L
  exact ⟨_, run, Goes.of_acts (acts_none L'), by rw [State.advance_stores]⟩
theorem pdrain_waits (L : Live s e) (hx : e.q.pools.find w.va.toNat = some x) (hr : x.resv ≠ 0) :
    Answers (exec (.pdrain w) s) fun t => Waits s t e [] id (.pdrain w.va.toNat) 0 := by
  refine ⟨_, (issue_plain L _).trans ?_, waits_none L _⟩
  rw [poolEff_some hx, if_neg hr]
  rfl

theorem pstat_answers (L : Live s e) : Answers (exec (.pstat w) s) fun t => Acts s t e
    (match e.q.pools.find w.va.toNat with
      | some x => [(.s w.sd.toNat, BitVec.ofNat 32 (x.n + 2 ^ 7 * x.filled + 2 ^ 14 * x.resv + 2 ^ 21 * x.rd)), (.s (w.sd.toNat + 1), x.off)]
      | none => [(.s w.sd.toNat, 0), (.s (w.sd.toNat + 1), 0)]) id 0 := by
  have reals : ∀ a b : Word, ∀ k ∈ [(RegKey.s w.sd.toNat, a), (RegKey.s (w.sd.toNat + 1), b)], k.1.real := by
    simp [RegKey.real]
  refine ⟨_, issue_plain L _, ?_⟩
  cases e.q.pools.find w.va.toNat with
  | none => exact acts_regs L _ (reals _ _)
  | some x => exact acts_regs L _ (reals _ _)
end

/-- Settles O40: the lemmas of the words; `Turn.pooled` is what `pinit` and `prel` leave of the quire and of the sheets that waited. -/
theorem poolWords : Obligations.PoolWords := by
  intro w s e L
  exact ⟨fun ha hi hr => pinit_answers L ha hi hr, fun x hx => ⟨fun h => pwait_answers L hx h, fun hf hr h => pwait_waits L hx hf hr h,
    fun hf => prel_empty L hx hf, fun hf => prel_answers L hx hf, fun hr => pdrain_answers L hx hr, fun hr => pdrain_waits L hx hr⟩,
    pstat_answers L⟩

end Sys2Proof.Machine
end

section
/-! PROOFS. Copies (O41): the statement does not hold; the state that shows it. -/

namespace Sys2Proof.Machine
open Sys2Proof.Claims

/-! ### A sheet that its quire lists twice -/

/-- The sheet in issue in `copyingTwice`: its S4 holds 1. -/
def copyingSheet : Sheet := { loadSheet with s := [(4, 1)] }
/-- Its quire: the sheet's number has a second entry, which waits in `pwait` on the one pool. -/
def copyingQuire : Quire :=
  { loadQuire 1 with chamg := 1, pools := [(0, ⟨0, 1, 0, 0, 0⟩)], sheets := [(0, copyingSheet), (0, { copyingSheet with wait := .pwait 0 4 none })] }
/-- A sheet is in issue that its quire lists twice. -/
def copyingTwice : State := { State.reset.loaded with quires := [(0, copyingQuire)] }
/-- What the sheet in issue sees. -/
def copyingEnv : Env := ⟨⟨0, 0⟩, copyingQuire, copyingSheet, State.reset.loaded.ctx 1, 0⟩
/-- A copy of no bytes within the chamber, to pool 0. -/
def emptyCopy : FE := ⟨⟨false, 0, false, false⟩, 0, 0, 0, 0, 0, 3⟩

/-- The copy completes at once; what `pwait` returns to the second entry, by its number, is in S4 of the first. -/
theorem copyingTwice_acopy :
    ∃ t, exec (.acopy emptyCopy) copyingTwice = .next t ∧ (t.sheet? copyingEnv.r).map (·.raw (.s 4)) = some 0 :=
  ⟨_, rfl, by decide +kernel⟩

/-- Refutes O41: no premise says that a quire lists a sheet's number once, and in `copyingTwice` the copy of no bytes, which
wakes the second entry out of its `pwait`, changes S4 of the sheet in issue. -/
theorem not_copyWords : ¬ Obligations.CopyWords := by
  intro h
  obtain ⟨copies, -⟩ := h emptyCopy copyingTwice copyingEnv ⟨0, 1, 0, 0, 0⟩ rfl rfl (by decide) (by decide +kernel)
  have within : ∀ y ∈ (copyOf copyingEnv emptyCopy copyingTwice.next 0 1 0 0).sides, y.1.cham = false → canonical y.1.addr = true := by
    decide +kernel
  obtain ⟨t, ht, -, -, done⟩ := (copies (.acopy emptyCopy) _ (.inl ⟨rfl, rfl⟩) within).2 (.inl rfl)
  obtain ⟨q, hq, -, -, sh, hs, -, kept⟩ := done.quire
  obtain ⟨u, hu, after⟩ := copyingTwice_acopy
  obtain rfl : u = t := Host.Outcome.next.inj (hu.symm.trans ht)
  have sheet : u.sheet? copyingEnv.r = some sh := by rw [State.sheet?, hq]; exact hs
  rw [sheet, Option.map_some, kept (.s 4) trivial fun n => by simp] at after
  exact absurd after (by decide +kernel)

end Sys2Proof.Machine
end

section
/-! PROOFS. Events at memory (O49): walks that fill the TLBs or park their sheet. -/

namespace Sys2Proof.Machine
open Sys2Proof.Claims

/-! ### Sheets that go on -/

theorem State.sheet?_modSheet_other (s : State) {r r' : SheetRef} (f : Sheet → Sheet) (h : r' ≠ r) : (s.modSheet r f).sheet? r' = s.sheet? r' := by
  rw [State.sheet?, State.sheet?, State.modSheet, State.modQuire]
  by_cases hh : r'.h = r.h
  · have hk : r'.k ≠ r.k := fun hk => h (by cases r; cases r'; simp_all)
    rw [hh, Tab.find_upd_self]
    cases s.quires.find r.h with
    | none => rfl
    | some q => exact Tab.find_upd_other _ _ hk
  · rw [Tab.find_upd_other _ _ hh]

/-- A sheet keeps a property of its sheet when its own changes keep it. -/
theorem State.sheet?_modSheet_any {s : State} {p : Sheet → Prop} {r' : SheetRef} {f : Sheet → Sheet} (r : SheetRef) (hf : ∀ sh, p sh → p (f sh))
    (h : ∃ sh, s.sheet? r' = some sh ∧ p sh) : ∃ sh, (s.modSheet r f).sheet? r' = some sh ∧ p sh := by
  obtain ⟨sh, hs, hp⟩ := h
  by_cases hr : r' = r
  · subst hr
    exact ⟨f sh, by rw [State.sheet?_modSheet, hs]; rfl, hf sh hp⟩
  · exact ⟨sh, by rw [State.sheet?_modSheet_other _ _ hr, hs], hp⟩

/-- A step that leaves sheets ready which are ready, one after another. -/
theorem sheet?_foldl {α : Type} {g : State → α → State} {r : SheetRef} {p : Sheet → Prop}
    (hg : ∀ s a, (∃ sh, s.sheet? r = some sh ∧ p sh) → ∃ sh, (g s a).sheet? r = some sh ∧ p sh) (as : List α) {s : State}
    (h : ∃ sh, s.sheet? r = some sh ∧ p sh) : ∃ sh, (as.foldl g s).sheet? r = some sh ∧ p sh := by
  induction as generalizing s with
  | nil => exact h
  | cons a as ih => exact ih (hg s a h)

/-! ### Walks (R169-R171, R302) -/

theorem State.rekeying_none {s : State} (h : s.rekeys = []) (pa len : Nat) : s.rekeying pa len = false := by
  simp [State.rekeying, h]
theorem State.walkHeld_none {s : State} (h : s.rekeys = []) (die ctx : Nat) (va : DWord) : s.walkHeld die ctx va = false := by
  simp [State.walkHeld, State.rekeying_none h]

/-- A sheet that waits for a walk is among those that do. -/
theorem State.mem_walkers {s : State} {r : SheetRef} {q : Quire} {sh : Sheet} {va : DWord} {strand : Nat} {fetch : Bool}
    (hq : s.quires.find r.h = some q) (hs : q.sheets.find r.k = some sh) (hr : q.phase = .resident) (hw : sh.wait = .walk va strand fetch) :
    (r, va, strand, fetch) ∈ s.walkers q.core q.ctx := by
  refine List.mem_filterMap.2 ⟨(r, q, sh), List.mem_flatMap.2 ⟨(r.h, q), Tab.mem_of_find hq, List.mem_map.2 ⟨(r.k, sh), Tab.mem_of_find hs, rfl⟩⟩, ?_⟩
  simp only [hw, hr, and_self, if_true]

/-- The walk of an address whose entry is found: the TLBs hold it, and the sheets that it serves issue again. -/
theorem exec_walk_ok {s : State} {core ctx : Nat} {va : DWord} {x : TlbEnt} (hk : s.rekeys = []) (hw : ∃ w ∈ s.walkers core ctx, w.2.1 = va)
    (hx : s.walk (core / 200) ctx va = .ok x) : exec (.translationWalk core ctx va) s = .next ((s.walkers core ctx).foldl
      (fun s w => if x.hits ctx (w.2.1.extractLsb' 0 56).toNat then s.wake w.1 else s) (s.fillTlb core x)) := by
  have some : (s.walkers core ctx).any (fun w => w.2.1 == va) = true := by
    obtain ⟨w, hw, rfl⟩ := hw
    exact List.any_eq_true.2 ⟨w, hw, beq_self_eq_true _⟩
  have found : s.walk (dieOf core) ctx va = .ok x := hx
  refine congrArg Host.Outcome.next ?_
  simp only [State.rekeying_none hk, State.walkHeld_none hk, Bool.and_false, Bool.not_false, Bool.and_true, some, Bool.not_true, Bool.or_self,
    Bool.false_eq_true, if_false, if_true, found]

theorem State.tlb_wakes (s : State) (ws : List (SheetRef × DWord × Nat × Bool)) (p : SheetRef × DWord × Nat × Bool → Bool) (core ctx : Nat)
    (va : DWord) : (ws.foldl (fun s w => if p w then s.wake w.1 else s) s).tlb core ctx va = s.tlb core ctx va := by
  induction ws generalizing s with
  | nil => rfl
  | cons w ws ih =>
    rw [List.foldl_cons, ih]
    split <;> rfl

theorem State.tlb_fillTlb {s : State} {core ctx : Nat} {va : DWord} {x : TlbEnt} (h : x.hits ctx (va.extractLsb' 0 56).toNat = true) :
    (s.fillTlb core x).tlb core ctx va = some x := by
  have first : ((s.fillTlb core x).core core).tlb = (x :: (s.core core).tlb).take 256 := by
    rw [State.fillTlb, State.core, State.modGallery_cores]
    exact congrArg Core.tlb (State.core_modCore s core _)
  rw [State.tlb, first, List.take_succ_cons, List.find?_cons, h]

/-- A walk that finds its entry, for a sheet that waits for it. -/
theorem walk_fills {s : State} {core ctx strand : Nat} {va : DWord} {fetch : Bool} {x : TlbEnt} {r : SheetRef} {q : Quire} {sh : Sheet}
    (hq : s.quires.find r.h = some q) (hs : q.sheets.find r.k = some sh) (hc : q.core = core) (hx : q.ctx = ctx) (hr : q.phase = .resident)
    (hk : s.rekeys = []) (hw : sh.wait = .walk va strand fetch) (found : s.walk (core / 200) ctx va = .ok x)
    (hits : x.hits ctx (va.extractLsb' 0 56).toNat = true) :
    Answers (exec (.translationWalk core ctx va) s) fun t => (t.sheet? r).map (·.wait) = some .none ∧ t.tlb core ctx va = some x := by
  subst hc hx
  have mem := State.mem_walkers hq hs hr hw
  refine ⟨_, exec_walk_ok hk ⟨_, mem, rfl⟩ found, ?_, by rw [State.tlb_wakes, State.tlb_fillTlb hits]⟩
  obtain ⟨before, after, split⟩ := List.append_of_mem mem
  have waits : ∃ sh, (s.fillTlb q.core x).sheet? r = some sh ∧ True := 
    ⟨sh, by rw [State.sheet?, show (s.fillTlb q.core x).quires = s.quires from rfl, hq]; exact hs, trivial⟩
  have step (p : Sheet → Prop) (hp : ∀ sh, p sh → p { sh with wait := .none }) (s : State) (w : SheetRef × DWord × Nat × Bool)
      (h : ∃ sh, s.sheet? r = some sh ∧ p sh) :
      ∃ sh, (if x.hits q.ctx (w.2.1.extractLsb' 0 56).toNat then s.wake w.1 else s).sheet? r = some sh ∧ p sh := by
    split
    · exact State.sheet?_modSheet_any _ hp h
    · exact h
  rw [split, List.foldl_append, List.foldl_cons, if_pos hits]
  obtain ⟨sh', hs', -⟩ := sheet?_foldl (step (fun _ => True) fun _ _ => trivial) before waits
  have woken : ∃ sh, ((before.foldl (fun s w => if x.hits q.ctx (w.2.1.extractLsb' 0 56).toNat then s.wake w.1 else s)
      (s.fillTlb q.core x)).wake r).sheet? r = some sh ∧ sh.wait = .none :=
    ⟨_, by rw [State.wake, State.sheet?_modSheet, hs', Option.map_some], rfl⟩
  obtain ⟨sh'', hs'', hw''⟩ := sheet?_foldl (step (·.wait = .none) fun _ _ => rfl) after woken
  rw [hs'', Option.map_some, hw'']

/-- A walk that meets a fault that can be repaired, for the one sheet that waits (R170). -/
theorem walk_parks {s : State} {core ctx strand : Nat} {va : DWord} {fetch : Bool} {r : SheetRef} {sh : Sheet}
    (hw : s.walkers core ctx = [(r, va, strand, fetch)]) (hk : s.rekeys = []) (hs : s.sheet? r = some sh)
    (found : s.walk (core / 200) ctx va = .repair) (room : (s.die (core / 200)).faults.length < 1024) :
    Answers (exec (.translationWalk core ctx va) s) fun t => (t.sheet? r).map (·.wait) = some (.parked va strand fetch) ∧
      (t.die (core / 200)).faults = (s.die (core / 200)).faults ++ [⟨ctx, va, some r⟩] := by
  have repair : s.walk (dieOf core) ctx va = .repair := found
  have run : exec (.translationWalk core ctx va) s = .next (s.park r core ctx va strand fetch) := by
    refine congrArg Host.Outcome.next ?_
    simp only [hw, State.walkHeld_none hk, repair, List.any_cons, beq_self_eq_true, Bool.true_or, Bool.not_true, Bool.or_self,
      Bool.false_eq_true, if_false, List.foldl_cons, List.foldl_nil, if_true]
  have space : (s.die (dieOf core)).faults.length < Config.faultEntries := room
  have parked : s.park r core ctx va strand fetch = { (s.modDie (dieOf core) fun d => { d with faults := d.faults ++ [{ ctx, va, ref := some r }] }).modSheet r
      (fun sh => { (sh.noteSpin (s.cycles core)) with wait := .parked va strand fetch }) with
        reissue := (s.park r core ctx va strand fetch).reissue } := by
    unfold State.park
    rw [if_pos space]
  refine ⟨_, run.trans (congrArg _ parked), ?_, ?_⟩
  · refine (congrArg (Option.map (·.wait)) (State.sheet?_modSheet _ r _)).trans ?_
    rw [show State.sheet? (s.modDie _ _) r = s.sheet? r from rfl, hs]
    rfl
  · exact congrArg Die.faults (Tab.get_put_self _ _ _ _)

end Sys2Proof.Machine
end

section
/-! PROOFS. Events at memory (O49): the firmware pager's repair. -/

namespace Sys2Proof.Machine
open Sys2Proof.Claims

/-! ### Bytes that firmware and engines write (R353, R358) -/

/-- Bytes written by an agent that every fetch sees at once. -/
theorem Stored.openWrite {s : State} {a : Nat} (h : s.region a = .hbm ∨ s.region a = .host) (bs : List Byte) :
    Stored s (s.openWrite a bs) (Memory.write s.mem a bs) := by
  unfold State.openWrite State.cutSync
  rw [State.cutAt_eq]
  have cut : Stored s { s with stores := (s.cutAt (s.locOf a) bs.length).stores } s.mem := (Stored.refl s).stores _
  exact (cut.trans (Stored.writeBytes (by rw [cut.region]; exact h) bs)).stores _

theorem Stored.hbmTop {s t : State} {m : List Host.Cell} (A : Stored s t m) : t.hbmTop = s.hbmTop := by
  obtain ⟨c, n, g, x, rfl⟩ := A
  rfl

/-- Bytes of HBM after a write. -/
theorem State.readByte_hbm {s : State} {a : Nat} (h : a < s.hbmTop) : s.readByte a = Tab.get Memory.blank s.mem a :=
  State.readByte_plain (.inl (State.region_hbm.2 h))

theorem leBytes_getD {n x j : Nat} (h : j < n) : ((leBytes n x)[j]?).getD 0 = nthByte x j := by
  rw [List.getElem?_eq_getElem (by rwa [leBytes_length]), leBytes_getElem]
  rfl

/-! ### The firmware pager (R169-R172, R304) -/

/-- Nothing of the fabric tries again where nothing waits. -/
theorem State.fabRetry_idle {s : State} (h : FabricIdle s) : s.fabRetry = s := by
  obtain ⟨fabs, held⟩ := h
  have none (c g : Nat) : s.heldRun c g = s := by
    have empty : (s.group? c g).elim [] (·.held) = [] := by
      unfold State.group? State.ctx Tab.get
      cases hc : s.ctxs.find c with
      | none => rfl
      | some x =>
        cases hg : x.groups.find g with
        | none => simp [hg]
        | some y => simpa [hg] using held _ (Tab.mem_of_find hc) _ (Tab.mem_of_find hg)
    unfold State.heldRun
    rw [empty]
    rfl
  unfold State.fabRetry
  rw [fabs]
  exact List.foldl_fixed' (fun c : Nat × Ctx => List.foldl_fixed' (fun g : Nat × Group => none c.1 g.1) _) _

/-- A sheet parked on a page that has been repaired issues its word again (R170). -/
def State.unpark (ctx : Nat) (va : DWord) (s : State) (r : SheetRef) : State :=
  match s.quires.find r.h, s.sheet? r with
  | some q, some sh =>
    match sh.wait with
    | .parked _ _ _ =>
      let s := s.modSheet r fun sh => { (sh.noteSpin (s.cycles q.core)) with wait := .none }
      if q.phase = .resident then
        { s with reissue := s.reissue.filter (·.ref != r) ++ [{ ref := r, list := (ctx + 1, pageNo va), pc := sh.pc }] }
      else s
    | _ => s
  | _, _ => s

theorem State.repairNow_eq (s : State) (die ctx : Nat) (va : DWord) (writes : List (Nat × DWord)) :
    s.repairNow die ctx va writes = ((((s.die die).faults.filter (·.on ctx va)).filterMap (·.ref)).foldl (State.unpark ctx va)
      ((writes.foldl State.pagerWrite s).faultsDrop die ctx va)).fabRetry := rfl

/-- Quires and the order of reissue alone change. -/
theorem State.unpark_eq (ctx : Nat) (va : DWord) (s : State) (r : SheetRef) :
    ∃ x y, State.unpark ctx va s r = { s with quires := x, reissue := y } := by
  unfold State.unpark
  split
  · split
    · simp only
      split
      · exact ⟨_, _, rfl⟩
      · exact ⟨_, s.reissue, rfl⟩
    · exact ⟨s.quires, s.reissue, rfl⟩
  · exact ⟨s.quires, s.reissue, rfl⟩
theorem State.unpark_foldl (ctx : Nat) (va : DWord) (rs : List SheetRef) (s : State) :
    ∃ x y, rs.foldl (State.unpark ctx va) s = { s with quires := x, reissue := y } := by
  induction rs generalizing s with
  | nil => exact ⟨s.quires, s.reissue, rfl⟩
  | cons r rs ih =>
    obtain ⟨x, y, first⟩ := State.unpark_eq ctx va s r
    obtain ⟨x', y', rest⟩ := ih (State.unpark ctx va s r)
    exact ⟨x', y', by rw [List.foldl_cons, rest, first]⟩

/-- A sheet that is ready stays so. -/
theorem State.unpark_ready (ctx : Nat) (va : DWord) (s : State) (r' r : SheetRef) (h : ∃ sh, s.sheet? r = some sh ∧ sh.wait = .none) :
    ∃ sh, (State.unpark ctx va s r').sheet? r = some sh ∧ sh.wait = .none := by
  unfold State.unpark
  split
  · split
    · simp only
      split
      · exact State.sheet?_modSheet_any (p := (·.wait = .none)) r' (fun _ _ => rfl) h
      · exact State.sheet?_modSheet_any (p := (·.wait = .none)) r' (fun _ _ => rfl) h
    · exact h
  · exact h

/-- A sheet that is parked or ready is so after another has gone on. -/
def Idle (s : State) (r : SheetRef) : Prop := ∃ sh, s.sheet? r = some sh ∧ (sh.wait = .none ∨ ∃ a n f, sh.wait = .parked a n f)

theorem State.unpark_idle (ctx : Nat) (va : DWord) (s : State) (r' r : SheetRef) (h : Idle s r) : Idle (State.unpark ctx va s r') r := by
  unfold State.unpark
  split
  · split
    · simp only
      split
      · exact State.sheet?_modSheet_any (p := fun sh => sh.wait = .none ∨ ∃ a n f, sh.wait = .parked a n f) r' (fun _ _ => .inl rfl) h
      · exact State.sheet?_modSheet_any (p := fun sh => sh.wait = .none ∨ ∃ a n f, sh.wait = .parked a n f) r' (fun _ _ => .inl rfl) h
    · exact h
  · exact h
/-- A parked sheet goes on. -/
theorem State.unpark_self (ctx : Nat) (va : DWord) (s : State) (r : SheetRef) (h : Idle s r) :
    ∃ sh, (State.unpark ctx va s r).sheet? r = some sh ∧ sh.wait = .none := by
  obtain ⟨sh, hs, wait⟩ := h
  obtain ⟨q, hq⟩ : ∃ q, s.quires.find r.h = some q := by
    unfold State.sheet? at hs
    cases hq : s.quires.find r.h with
    | none => rw [hq] at hs; cases hs
    | some q => exact ⟨q, rfl⟩
  unfold State.unpark
  rw [hq, hs]
  rcases wait with wait | ⟨a, n, f, wait⟩
  · simp only [wait]
    exact ⟨sh, hs, wait⟩
  · simp only [wait]
    have woken (g : Sheet → Sheet) : ∃ sh', (s.modSheet r fun sh => { g sh with wait := .none }).sheet? r = some sh' ∧ sh'.wait = .none :=
      ⟨_, by rw [State.sheet?_modSheet, hs]; rfl, rfl⟩
    split
    · exact woken _
    · exact woken _

/-- Every parked sheet of a list goes on. -/
theorem State.unpark_all (ctx : Nat) (va : DWord) {rs : List SheetRef} {r : SheetRef} (hr : r ∈ rs) {s : State} (h : Idle s r) :
    ((rs.foldl (State.unpark ctx va) s).sheet? r).map (·.wait) = some .none := by
  obtain ⟨before, after, rfl⟩ := List.append_of_mem hr
  rw [List.foldl_append, List.foldl_cons]
  have late := sheet?_foldl (fun s a h => State.unpark_ready ctx va s a r h) after
    (State.unpark_self ctx va _ r (sheet?_foldl (p := fun sh => sh.wait = .none ∨ ∃ a n f, sh.wait = .parked a n f)
      (fun s a h => State.unpark_idle ctx va s a r h) before h))
  obtain ⟨sh, hs, wait⟩ := late
  rw [hs, Option.map_some, wait]

theorem State.postHold_free {s : State} {pas : List Nat} (hk : s.rekeys = []) (hw : s.worn pas = none) (x : Post) :
    s.postHold pas x = (s, false) := by
  unfold State.postHold
  simp only [State.keyGate_writes s _ hk hw]

theorem FaultReq.on_iff {f : FaultReq} {ctx : Nat} {va : DWord} : f.on ctx va = true ↔
    f.ctx = ctx ∧ (f.va.extractLsb' 0 56).toNat / 16384 = (va.extractLsb' 0 56).toNat / 16384 := by
  rw [FaultReq.on, Bool.and_eq_true, beq_iff_eq, beq_iff_eq]
  rfl

/-- The repair of a page that a sheet is parked on (R170, R304). -/
theorem pagerRepair_repairs {s : State} {die ctx strand pa : Nat} {va a x : DWord} {fetch : Bool} {r : SheetRef} {sh : Sheet}
    (hs : s.sheet? r = some sh) (hw : sh.wait = .parked a strand fetch) (hf : ⟨ctx, a, some r⟩ ∈ (s.die die).faults)
    (page : (a.extractLsb' 0 56).toNat / 16384 = (va.extractLsb' 0 56).toNat / 16384) (idle : FabricIdle s) (top : pa + 8 ≤ s.hbmTop)
    (hk : s.rekeys = []) (worn : s.worn [pa] = none) :
    Answers (exec (.pagerRepair die ctx va [(pa, x)]) s) fun t => (t.sheet? r).map (·.wait) = some .none ∧
      (∀ f ∈ (t.die die).faults, f.ctx = ctx → (f.va.extractLsb' 0 56).toNat / 16384 ≠ (va.extractLsb' 0 56).toNat / 16384) ∧
      ∀ j, j < 8 → t.readByte (pa + j) = nthByte x.toNat j := by
  let refs := ((s.die die).faults.filter (·.on ctx va)).filterMap (·.ref)
  have A : Stored s (s.openWrite pa (leBytes 8 x.toNat)) _ := Stored.openWrite (.inl (State.region_hbm.2 (by omega))) _
  obtain ⟨c, n, g, y, stored⟩ := A
  let u := (s.openWrite pa (leBytes 8 x.toNat)).faultsDrop die ctx va
  obtain ⟨qs, ri, after⟩ := State.unpark_foldl ctx va refs u
  have free : FabricIdle (refs.foldl (State.unpark ctx va) u) := by
    rw [after]
    simp only [u, State.faultsDrop, State.modDie, stored]
    exact idle
  have run : exec (.pagerRepair die ctx va [(pa, x)]) s = .next (refs.foldl (State.unpark ctx va) u) := by
    refine congrArg Host.Outcome.next ?_
    rw [show [(pa, x)].map (·.1) = [pa] from rfl, State.postHold_free hk worn]
    exact (State.repairNow_eq ..).trans (State.fabRetry_idle free)
  have mem : r ∈ refs := List.mem_filterMap.2 ⟨_, List.mem_filter.2 ⟨hf, FaultReq.on_iff.2 ⟨rfl, page⟩⟩, rfl⟩
  have parked : Idle u r := ⟨sh, by simp only [u, State.faultsDrop, State.modDie, stored]; exact hs, .inr ⟨_, _, _, hw⟩⟩
  refine ⟨_, run, State.unpark_all ctx va mem parked, fun f hf hc hp => ?_, fun j hj => ?_⟩
  · rw [after] at hf
    have kept : f ∈ ((s.openWrite pa (leBytes 8 x.toNat)).die die).faults.filter fun f => !f.on ctx va :=
      (congrArg (f ∈ ·) (congrArg Die.faults (Tab.get_put_self _ _ _ _))).mp hf
    have off := (List.mem_filter.1 kept).2
    rw [FaultReq.on_iff.2 ⟨hc, hp⟩] at off
    cases off
  · have bytes : State.readByte { u with quires := qs, reissue := ri } (pa + j) =
        Tab.get Memory.blank (Memory.write s.mem pa (leBytes 8 x.toNat)) (pa + j) := by
      refine (State.readByte_hbm ?_).trans ?_
      · simp only [u, State.faultsDrop, State.modDie, stored]
        show pa + j < s.hbmTop
        omega
      · simp only [u, State.faultsDrop, State.modDie, stored]
    rw [after, bytes, Memory.get_write, if_pos (by rw [leBytes_length]; omega), Nat.add_sub_cancel_left, leBytes_getD hj]

end Sys2Proof.Machine
end

section
/-! PROOFS. Events at memory (O49): the firmware pager's fatal answer. -/

namespace Sys2Proof.Machine
open Sys2Proof.Claims

/-! ### What a trap vector shows -/

section
variable {s : State} {d : Tab Die} {qs : Tab Quire}

/-- A walk does not read sheets or dies. -/
theorem walkFrom_sheets (h : ({ s with dies := d, quires := qs } : State).windows = s.windows) (die ctx va n tbl : Nat) :
    ({ s with dies := d, quires := qs } : State).walkFrom die ctx va n tbl = s.walkFrom die ctx va n tbl := by
  have bytes (a : Nat) : ({ s with dies := d, quires := qs } : State).readByte a = s.readByte a := 
    State.readByte_windows (s := s) (t := { s with dies := d, quires := qs }) rfl rfl rfl h a
  have entry (a : Nat) : ({ s with dies := d, quires := qs } : State).walkEntry die a = s.walkEntry die a := by
    simp only [State.walkEntry, State.walkByte, bytes]
  induction n generalizing tbl with
  | zero => rfl
  | succ n ih =>
    unfold State.walkFrom
    simp only [entry, ih]
    rfl

/-- A trap vector does not depend on sheets or dies. -/
theorem vectorOk_sheets (h : ({ s with dies := d, quires := qs } : State).windows = s.windows) (r : SheetRef) (core ctx : Nat) (a : DWord) :
    ({ s with dies := d, quires := qs } : State).vectorOk r core ctx a = s.vectorOk r core ctx a := by
  have bytes (a : Nat) : ({ s with dies := d, quires := qs } : State).readByte a = s.readByte a := 
    State.readByte_windows (s := s) (t := { s with dies := d, quires := qs }) rfl rfl rfl h a
  have code (a : Nat) : ({ s with dies := d, quires := qs } : State).fetchPa r a = s.fetchPa r a := by
    simp only [State.fetchPa, State.readNat, State.readBytes, bytes]
  have walk : ({ s with dies := d, quires := qs } : State).walk (dieOf core) ctx a = s.walk (dieOf core) ctx a := walkFrom_sheets h ..
  unfold State.vectorOk State.fetch
  simp only [code, walk]
  rfl
end

/-- Changes of sheets show in no window. -/
theorem State.windows_modSheet (s : State) (r : SheetRef) (f : Sheet → Sheet) : (s.modSheet r f).windows = s.windows := by
  unfold State.windows State.modSheet State.modQuire Tab.upd
  rw [List.map_map]
  refine List.map_congr_left fun x _ => ?_
  simp only [Function.comp_apply]
  split <;> rfl

/-! ### A fault declared fatal (R172) -/

/-- A trap of a sheet that is in no handler and has a vector, wherever it is (R210). -/
theorem State.trap_enters_at {s : State} {r : SheetRef} {q : Quire} {sh : Sheet} (hq : s.quires.find r.h = some q)
    (hs : q.sheets.find r.k = some sh) (ht : sh.tstat.getLsbD 7 = false) (hv : s.vectorOk r q.core q.ctx sh.tvec = true) (t : Trap) :
    (s.trap r t).sheet? r = some (sh.enter t) := by
  have entered : s.trap r t = (s.modSheet r fun sh => sh.enter t).leave := by
    unfold State.trap
    simp only [hq, hs, Sheet.intrap, ht, hv, Bool.not_true, Bool.or_self, Bool.false_eq_true, if_false]
  have sheet : s.sheet? r = some sh := by rw [State.sheet?, hq]; exact hs
  rw [entered, State.sheet?, (Edit.leave (s.modSheet r fun sh => sh.enter t) r.h).quires, Tab.upd_id, ← State.sheet?, State.sheet?_modSheet, sheet]
  rfl

/-- A fault that is fatal, for a sheet parked on it (R172). -/
theorem xlateFatal_enters {s : State} {r : SheetRef} {q : Quire} {sh : Sheet} {a va : DWord} {strand n : Nat} {f fetch : Bool}
    (hq : s.quires.find r.h = some q) (hs : q.sheets.find r.k = some sh) (hr : q.phase = .resident) (hw : sh.wait = .parked a n f)
    (ht : sh.tstat.getLsbD 7 = false) (hv : s.vectorOk r q.core q.ctx sh.tvec = true) (cause : BitVec 8) (reason : Nat) :
    (s.xlateFatal r cause reason va strand fetch).sheet? r =
      some ((sh.noteSpin (s.cycles q.core)).enter (sh.xlateTrap cause reason va strand fetch)) := by
  have sheet : s.sheet? r = some sh := by rw [State.sheet?, hq]; exact hs
  have run : s.xlateFatal r cause reason va strand fetch =
      (s.modSheet r fun sh => sh.noteSpin (s.cycles q.core)).trap r (sh.xlateTrap cause reason va strand fetch) := by
    unfold State.xlateFatal
    rw [hq, sheet]
    simp only [hw, hr, if_true]
  have vector : (s.modSheet r fun sh => sh.noteSpin (s.cycles q.core)).vectorOk r q.core q.ctx sh.tvec = true :=
    (vectorOk_sheets (d := s.dies) (State.windows_modSheet s r _) r q.core q.ctx sh.tvec).trans hv
  rw [run]
  refine State.trap_enters_at (q := q.modSheet r.k fun sh => sh.noteSpin (s.cycles q.core)) (sh := sh.noteSpin (s.cycles q.core)) ?_ ?_ ht vector _
  · rw [State.modSheet, State.modQuire, Tab.find_upd_self, hq]
    rfl
  · rw [Quire.modSheet, Tab.find_upd_self, hs]
    rfl

theorem enter_intrap (sh : Sheet) (t : Trap) : (sh.enter t).tstat.getLsbD 7 = true := by
  have bit : ∀ a < 8, ∀ b < 8, (BitVec.ofNat 32 (128 + 16 * a + b)).getLsbD 7 = true := by decide
  exact bit _ (Nat.mod_lt _ (by decide)) _ (Nat.mod_lt _ (by decide))

/-- The pager declares a page's fault fatal, for the one sheet parked on it (R172). -/
theorem pagerFatal_traps {s : State} {die ctx strand : Nat} {va a : DWord} {fetch access : Bool} {r : SheetRef} {q : Quire} {sh : Sheet}
    (hq : s.quires.find r.h = some q) (hs : q.sheets.find r.k = some sh) (hr : q.phase = .resident) (hw : sh.wait = .parked a strand fetch)
    (hp : sh.pend = none) (ht : sh.tstat.getLsbD 7 = false) (hv : s.vectorOk r q.core q.ctx sh.tvec = true)
    (hf : ((s.die die).faults.filter fun f => f.on ctx va) = [⟨ctx, a, some r⟩]) :
    Answers (exec (.pagerFatal die ctx va access) s) fun t => ∃ sh', t.sheet? r = some sh' ∧ sh'.pc = sh.tvec ∧ sh'.wait = .none ∧
      sh'.tcause = (if access then 0x21 else 0x23) ∧ sh'.taddr = a ∧ sh'.tpc = sh.pc ∧ sh'.tstat.getLsbD 7 = true := by
  let u := s.faultsDrop die ctx va
  have sheet : u.sheet? r = some sh := by rw [State.sheet?, show u.quires = s.quires from rfl, hq]; exact hs
  have vector : u.vectorOk r q.core q.ctx sh.tvec = true := (vectorOk_sheets (d := u.dies) (qs := s.quires) rfl r q.core q.ctx sh.tvec).trans hv
  have run : exec (.pagerFatal die ctx va access) s = .next
      (if access then u.xlateFatal r cAccess 1 a strand fetch else u.xlateFatal r cXlateFatal 0 a strand fetch) := by
    refine congrArg Host.Outcome.next ?_
    simp only [hf, List.foldl_cons, List.foldl_nil, List.any_cons, List.any_nil, Option.isNone_some, Bool.or_self, Bool.false_eq_true, if_false,
      Option.bind_some]
    rw [show (s.faultsDrop die ctx va).sheet? r = some sh from sheet]
    simp only [Option.map_some, hw]
    rfl
  have pc : ∀ sh' : Sheet, sh'.pend = none → sh'.faultWord.1 = sh'.pc := fun sh' h => by rw [Sheet.faultWord, h]
  refine ⟨_, run, ?_⟩
  cases access
  · exact ⟨_, xlateFatal_enters (s := u) hq hs hr hw ht vector _ _, rfl, rfl, rfl, rfl, pc sh hp, enter_intrap _ _⟩
  · exact ⟨_, xlateFatal_enters (s := u) hq hs hr hw ht vector _ _, rfl, rfl, rfl, rfl, pc sh hp, enter_intrap _ _⟩

end Sys2Proof.Machine
end

section
/-! PROOFS. Events at memory (O49): what the end of an engine's operation changes, past the sheets that its pool wakes. -/

namespace Sys2Proof.Machine
open Sys2Proof.Claims

/-! ### What the sheets do that a pool wakes (R177) -/

/-- Sheets, registers and access records may have changed, no pool, and nothing beside the quires. -/
def Woken (s t : State) : Prop :=
  (∃ x y, t = { s with quires := x, stores := y }) ∧ ∀ h, (t.quires.find h).map (·.pools) = (s.quires.find h).map (·.pools)

theorem Woken.refl (s : State) : Woken s s := ⟨⟨s.quires, s.stores, rfl⟩, fun _ => rfl⟩
theorem Woken.trans {s t u : State} (A : Woken s t) (B : Woken t u) : Woken s u := by
  obtain ⟨⟨x, y, rfl⟩, pa⟩ := A
  obtain ⟨⟨x', y', rfl⟩, pb⟩ := B
  exact ⟨⟨x', y', rfl⟩, fun h => (pb h).trans (pa h)⟩
theorem Woken.stores (s : State) (y : List StoreRec) : Woken s { s with stores := y } := ⟨⟨s.quires, y, rfl⟩, fun _ => rfl⟩
theorem Woken.modQuire (s : State) (h : Nat) {f : Quire → Quire} (hf : ∀ q, (f q).pools = q.pools) : Woken s (s.modQuire h f) := by
  refine ⟨⟨_, s.stores, rfl⟩, fun n => ?_⟩
  by_cases hn : n = h
  · rw [hn, State.modQuire, Tab.find_upd_self, Option.map_map, show (·.pools) ∘ f = (·.pools) from funext hf]
  · rw [State.modQuire, Tab.find_upd_other _ _ hn]
theorem Woken.modSheet (s : State) (r : SheetRef) (f : Sheet → Sheet) : Woken s (s.modSheet r f) := Woken.modQuire s r.h fun _ => rfl
theorem Woken.writeRegs (s : State) (r : SheetRef) (ws : List (RegKey × Word)) : Woken s (s.writeRegs r ws) :=
  Woken.modQuire s r.h fun q => by
    have rest := congrArg Quire.pools (Quire.writes_rest r (fun q => s.cycles q.core) ws q)
    exact rest
theorem Woken.retryAll (s : State) : Woken s s.retryAll := by
  refine ⟨⟨_, s.stores, rfl⟩, fun h => ?_⟩
  rw [State.retryAll_eq, Tab.find_mapv, Option.map_map]
  rfl
theorem Woken.foldl {α : Type} {g : State → α → State} (hg : ∀ s a, Woken s (g s a)) (as : List α) (s : State) : Woken s (as.foldl g s) := by
  induction as generalizing s with
  | nil => exact Woken.refl s
  | cons a as ih => exact (hg s a).trans (ih _)

theorem Woken.poolWake (s : State) (h p : Nat) : Woken s (s.poolWake h p) := by
  unfold State.poolWake
  split
  · exact Woken.refl s
  · split
    · exact Woken.refl s
    · rename_i q _ _ x _
      refine (Woken.foldl (fun s y => ?_) q.sheets s).trans (Woken.modQuire _ h fun q => ?_)
      · split
        · exact Woken.refl s
        · dsimp only
          split
          · split
            · rw [State.headJoin_eq]
              exact ((Woken.stores s _).trans (Woken.writeRegs _ _ _)).trans (Woken.modSheet _ _ _)
            · exact Woken.refl s
          · split
            · exact (Woken.stores s _).trans (Woken.modSheet _ _ _)
            · exact Woken.refl s
          · exact Woken.refl s
      · split
        · split <;> rfl
        · rfl

theorem Woken.filled {s t u : State} {h p : Nat} (B : Woken t u) (A : Filled s t h p) : Filled s u h p := by
  intro q x hq hx
  obtain ⟨q', hq', hx'⟩ := A q x hq hx
  obtain ⟨-, pools⟩ := B
  have kept := pools h
  rw [hq'] at kept
  cases hu : u.quires.find h with
  | none => rw [hu] at kept; cases kept
  | some q'' =>
    rw [hu, Option.map_some, Option.map_some, Option.some.injEq] at kept
    exact ⟨q'', rfl, by rw [kept]; exact hx'⟩

/-! ### The end of an engine's operation (R176) -/

/-- A slot filled: the pool counts it, and of the module the quires and access records alone change. -/
theorem poolFill_fills {s : State} {h : Nat} {q : Quire} (hq : s.quires.find h = some q) (hr : q.phase = .resident) (p : Nat) (v : SlotVal) :
    (∃ x y, s.poolFill h p v = { s with quires := x, stores := y }) ∧ Filled s (s.poolFill h p v) h p := by
  unfold State.poolFill
  cases hx : (s.quires.find h).bind fun q => q.pools.find p with
  | none =>
    refine ⟨⟨s.quires, s.stores, rfl⟩, fun q' x hq' hx' => ?_⟩
    rw [hq', Option.bind_some, hx'] at hx
    cases hx
  | some x =>
    have put (a : Nat) : s.chamPut h a v.bytes = s.chamOpen h a v.bytes := by
      unfold State.chamPut
      rw [hq]
      simp only [hr]
    simp only [put]
    let a := x.off.toNat + 16 * ((x.rd + x.filled) % x.n)
    let t := (s.chamOpen h a v.bytes).modQuire h fun q => { q with pools := q.pools.upd p fun x => { x with filled := x.filled + 1, resv := x.resv - 1 } }
    have wakes := (Woken.poolWake t h p).trans (Woken.retryAll _)
    have filled : Filled s t h p := by
      intro q' y hq' hy
      refine ⟨_, ((Turn.modQuire _ h _).find ((Turn.modQuire { s with stores := (s.cutAt (chamLoc h a) v.bytes.length).stores } h _).find hq')), ?_⟩
      show Tab.find _ p = _
      rw [Tab.find_upd_self, hy]
      rfl
    refine ⟨?_, wakes.filled filled⟩
    obtain ⟨⟨y, z, eq⟩, -⟩ := wakes
    exact ⟨y, z, eq⟩

/-- An engine's operation leaves with its slot: memory stays, and the pool counts the slot. -/
structure Ended (s t : State) (h p : Nat) : Prop where
  mem    : t.mem = s.mem
  top    : t.retired = s.retired
  filled : Filled s t h p

/-- A byte of HBM stays. -/
theorem Ended.readByte {s t : State} {h p a : Nat} (E : Ended s t h p) (ha : a < s.hbmTop) : t.readByte a = s.readByte a := by
  have top : a < t.hbmTop := by rw [State.hbmTop, E.top]; exact ha
  rw [State.readByte_hbm ha, State.readByte_hbm top, E.mem]

/-- The slot of an operation, and the sheets that go on. -/
theorem slotFill_ends {s : State} {h : Nat} {q : Quire} (hq : s.quires.find h = some q) (hr : q.phase = .resident) (p id : Nat) (v : SlotVal) :
    let t := ((s.slotEnd h p id).poolFill h p v).retryAll
    Ended s t h p ∧ t.copies = s.copies ∧ t.nms = s.nms := by
  intro t
  obtain ⟨⟨x, y, eq⟩, filled⟩ := poolFill_fills (s := { s with stores := (s.slotEnd h p id).stores }) hq hr p v
  have whole : t = State.retryAll { s with quires := x, stores := y } := by
    rw [← eq, ← State.slotEnd_eq]
  exact ⟨⟨by rw [whole]; rfl, by rw [whole]; rfl, by rw [whole, ← eq]; exact (Woken.retryAll _).filled filled⟩, by rw [whole]; rfl,
    by rw [whole]; rfl⟩

theorem copyEnd_ends {s : State} {c : Copy} {q : Quire} (hq : s.quires.find c.ref.h = some q) (hr : q.phase = .resident) (core : Nat) (v : SlotVal) :
    Ended s (s.copyEnd core c v) c.ref.h c.pool ∧ (s.copyEnd core c v).copies = s.copies.filter (·.id != c.id) := by
  obtain ⟨E, copies, -⟩ := slotFill_ends
    (s := ({ s.engDrop (.op c.id) with copies := s.copies.filter (·.id != c.id) } : State).boardDrop core c.id) hq hr c.pool c.id v
  exact ⟨⟨E.mem, E.top, E.filled⟩, copies⟩

theorem nmEnd_ends {s : State} {n : Nm} {q : Quire} (hq : s.quires.find n.ref.h = some q) (hr : q.phase = .resident) (v : SlotVal) :
    Ended s (s.nmEnd n v) n.ref.h n.pool ∧ (s.nmEnd n v).nms = s.nms.filter (·.id != n.id) := by
  obtain ⟨E, -, nms⟩ := slotFill_ends
    (s := { s.engDrop (.op n.id) with nms := s.nms.filter (·.id != n.id) }) hq hr n.pool n.id v
  exact ⟨⟨E.mem, E.top, E.filled⟩, nms⟩

end Sys2Proof.Machine
end

section
/-! PROOFS. Events at memory (O49): the gates that an engine's operation passes and the bytes it writes to plain memory. -/

namespace Sys2Proof.Machine
open Sys2Proof.Claims

/-! ### Gates that let an engine's operation pass (R151, R359) -/

/-- With no re-key wanted, writes to counters below their maximum pass. -/
theorem State.keyGate_passes (s : State) (who : Who) (reads : List Nat) {writes : List Nat} (h : s.rekeys = []) (hw : s.worn writes = none) :
    s.keyGate who reads writes = (s, true) := by
  have hs : { s with rekeys := [] } = s := by rw [← h]
  have kept : s.worn (writes.filter (· < s.hbmTop)) = none := by
    simp only [State.worn, List.findSome?_eq_none_iff] at hw ⊢
    exact fun a ha => hw a (List.mem_filter.1 ha).1
  unfold State.keyGate
  simp only [h, List.find?_nil, kept, List.map_nil, List.filter_nil, hs]

theorem State.worn_blocks {s : State} {pas : List Nat} (h : s.worn pas = none) : s.worn ((pas.map (· / 64 * 64)).eraseDups) = none := by
  simp only [State.worn, List.findSome?_eq_none_iff] at h ⊢
  intro a ha
  obtain ⟨b, hb, rfl⟩ := List.mem_map.1 (List.mem_eraseDups.1 ha)
  rw [Nat.mul_div_cancel _ (by decide)]
  exact h b hb

theorem engGate_passes {s : State} {who : Who} {reads writes : List (Nat × DWord)} (hk : s.rekeys = [])
    (free : ∀ a, s.engAliased who a = false) (hw : s.worn (writes.map (·.1)) = none) (k : State → State) :
    s.engGate who reads writes k = k s := by
  have clear : ((reads ++ writes).any fun x => !leafALG x.2 && s.engAliased who x.1) = false := by simp [free]
  have blocks := State.worn_blocks hw
  rw [List.map_map] at blocks
  unfold State.engGate
  rw [clear]
  have pass := State.keyGate_passes s who ((reads.map (·.1 / 64 * 64)).eraseDups) hk blocks
  simp only [Function.comp_def] at pass
  simp only [Bool.false_eq_true, if_false, pass]

/-! ### An operation that has made no access (R147) -/

section
variable {s : State} {who : Who} (h : Unsent s who)
include h

theorem Unsent.step (k : State → Sys2Proof.Machine.Fin → State) (go : State → State) : s.engStep who k go = go s := by
  have none : s.fins.find? (·.who == who) = none := by
    rw [List.find?_eq_none]
    exact fun f hf => by simpa using h.1 f hf
  unfold State.engStep
  rw [none]
theorem Unsent.aliased (a : Nat) : s.engAliased who a = false := by
  unfold State.engAliased
  cases who with
  | op id =>
    rw [List.any_eq_false]
    intro x hx
    have := h.2.2 x hx
    cases ho : x.op <;> simp_all
  | _ => rfl
theorem Unsent.sent : s.engSent who = false := by
  unfold State.engSent
  rw [List.any_eq_false]
  intro v hv
  rw [Bool.not_eq_true, List.any_eq_false]
  exact fun o ho => by simpa using h.2.1 v hv o ho
end

/-! ### Bytes that an engine writes past the vats (R147) -/

/-- A run's bytes are written at its first address. -/
def writeRun (m : List Host.Cell) (run : List EngByte) : List Host.Cell :=
  match run.head? with
  | some x => Memory.write m x.pa (run.map (·.b))
  | none => m

/-- A byte joins the run of the bytes after it, or is a run of its own. -/
theorem engRuns_cons (x : EngByte) (t : List EngByte) :
    (∃ y r rs, engRuns t = (y :: r) :: rs ∧ y.pa = x.pa + 1 ∧ engRuns (x :: t) = (x :: y :: r) :: rs) ∨
      engRuns (x :: t) = [x] :: engRuns t := by
  rw [engRuns.eq_2]
  generalize (if leafALG x.leaf = true then 4 else 64) = u
  split
  · rename_i y r rs eq
    by_cases joined : y.pa = x.pa + 1 ∧ x.pa / u = y.pa / u ∧ x.leaf = y.leaf
    · exact .inl ⟨y, r, rs, eq, joined.1, if_pos joined⟩
    · exact .inr (by simp only [joined, if_false, eq])
  · exact .inr rfl

theorem mem_engRuns {xs : List EngByte} : ∀ run ∈ engRuns xs, ∀ x ∈ run, x ∈ xs := by
  induction xs with
  | nil => intro run hr; cases hr
  | cons x t ih =>
    intro run hr y hy
    rcases engRuns_cons x t with ⟨z, r, rs, eq, -, whole⟩ | whole
    · rw [whole] at hr
      rw [eq] at ih
      rcases List.mem_cons.1 hr with rfl | hr
      · rcases List.mem_cons.1 hy with rfl | hy
        · exact List.mem_cons_self
        · exact List.mem_cons_of_mem _ (ih _ List.mem_cons_self _ hy)
      · exact List.mem_cons_of_mem _ (ih _ (List.mem_cons_of_mem _ hr) _ hy)
    · rw [whole] at hr
      rcases List.mem_cons.1 hr with rfl | hr
      · rw [List.mem_singleton.1 hy]
        exact List.mem_cons_self
      · exact List.mem_cons_of_mem _ (ih _ hr _ hy)

/-- Runs write what their bytes write one by one. -/
theorem writeRun_engRuns (xs : List EngByte) (m : List Host.Cell) :
    (engRuns xs).foldl writeRun m = Memory.writes (·.pa) (fun x => [x.b]) xs m := by
  induction xs generalizing m with
  | nil => rfl
  | cons x t ih =>
    refine Eq.trans ?_ (ih (Memory.write m x.pa [x.b]))
    rcases engRuns_cons x t with ⟨y, r, rs, eq, joined, whole⟩ | whole
    · rw [whole, eq, List.foldl_cons, List.foldl_cons]
      simp only [writeRun, List.head?_cons, List.map_cons, Memory.write, joined]
    · rw [whole]
      rfl

/-- One run of an engine's bytes written (R147). -/
def State.engWriteRun (who : Who) (ctx : Nat) (r : Option SheetRef) (s : State) (run : List EngByte) : State :=
  match run.head? with
  | none => s
  | some x =>
    let bs := run.map (·.b)
    let v : DWord := BitVec.ofNat 64 (leNat bs)
    if leafALG x.leaf then
      s.engOp (s.engineOp who ctx r x.va x.pa x.leaf (if bs.length = 4 then .store v else .subStore (x.pa % 4) bs.length v))
    else s.openWrite x.pa bs

/-- Runs off algebra pages are written to HBM at once. -/
theorem engWriteRuns_plain {s : State} (who : Who) (ctx : Nat) (r : Option SheetRef) {runs : List (List EngByte)}
    (h : ∀ run ∈ runs, ∀ x ∈ run, leafALG x.leaf = false ∧ x.pa < s.hbmTop) :
    Stored s (runs.foldl (State.engWriteRun who ctx r) s) (runs.foldl writeRun s.mem) := by
  induction runs generalizing s with
  | nil => exact Stored.refl s
  | cons run runs ih =>
    have first : Stored s (State.engWriteRun who ctx r s run) (writeRun s.mem run) := by
      unfold State.engWriteRun writeRun
      cases hh : run.head? with
      | none => exact Stored.refl s
      | some x =>
        obtain ⟨plain, top⟩ := h run List.mem_cons_self x (List.mem_of_head? hh)
        simp only [plain, Bool.false_eq_true, if_false]
        exact Stored.openWrite (.inl (State.region_hbm.2 top)) _
    have rest := ih (s := State.engWriteRun who ctx r s run) fun run hrun x hx => by
      rw [first.hbmTop]
      exact h run (List.mem_cons_of_mem _ hrun) x hx
    rw [first.mem] at rest
    exact first.trans rest

/-- Bytes off algebra pages are written to HBM at once. -/
theorem engWrite_plain {s : State} {xs : List EngByte} (h : ∀ x ∈ xs, leafALG x.leaf = false ∧ x.pa < s.hbmTop) (who : Who) (ctx : Nat)
    (r : Option SheetRef) : Stored s (s.engWrite who ctx r xs) (Memory.writes (·.pa) (fun x => [x.b]) xs s.mem) := by
  have A := engWriteRuns_plain (s := s) who ctx r fun run hrun x hx => h x (mem_engRuns run hrun x hx)
  rw [writeRun_engRuns] at A
  exact A

/-- A byte that stores agree on and some store meets. -/
theorem lastByte_agree {ws : List (Nat × List Byte)} {old : Nat → Byte} {a : Nat} {b : Byte}
    (agree : ∀ w ∈ ws, w.1 ≤ a → a < w.1 + w.2.length → (w.2[a - w.1]?).getD 0 = b) (met : ∃ w ∈ ws, w.1 ≤ a ∧ a < w.1 + w.2.length) :
    lastByte ws old a = b := by
  unfold lastByte
  split
  · rename_i w hw
    have holds := List.find?_some hw
    simp only [Bool.and_eq_true, decide_eq_true_eq] at holds
    exact agree w (List.mem_reverse.1 (List.mem_of_find?_eq_some hw)) holds.1 holds.2
  · rename_i none
    obtain ⟨w, hw, lo, hi⟩ := met
    have := List.find?_eq_none.1 none w (List.mem_reverse.2 hw)
    simp [lo, hi] at this

end Sys2Proof.Machine
end

section
/-! PROOFS. Events at memory (O49): a copy of one row from the chamber to plain memory. -/

namespace Sys2Proof.Machine
open Sys2Proof.Claims

/-- Stores change neither the quires nor the vats, and no engine's operation. -/
theorem Stored.kept {s t : State} {m : List Host.Cell} (A : Stored s t m) :
    t.quires = s.quires ∧ t.vats = s.vats ∧ t.copies = s.copies ∧ t.nms = s.nms := by
  obtain ⟨c, n, g, x, rfl⟩ := A
  exact ⟨rfl, rfl, rfl, rfl⟩

/-! ### Copies in progress (R182) -/

section
variable {s : State} {c : Copy} {q : Quire}

/-- A step of a copy on its core. -/
theorem exec_copy {i : Instr} {id : Nat} (hc : (s.copies.find? fun c => c.id = id) = some c)
    (hi : (i = .copyComplete id ∧ c.slow = false) ∨ i = .copySlowPathDone id) : ∃ slow, exec i s = .next (s.copyRun c slow) := by
  have found : s.copies.find? (·.id == id) = some c := by
    simpa only [beq_iff_eq, Bool.beq_eq_decide_eq, decide_eq_true_eq] using hc
  rcases hi with ⟨rfl, slow⟩ | rfl
  · refine ⟨false, congrArg Host.Outcome.next ?_⟩
    simp only [found, slow, Bool.false_eq_true, if_false]
  · refine ⟨true, congrArg Host.Outcome.next ?_⟩
    simp only [found]

theorem copy_id {id : Nat} (hc : (s.copies.find? fun c => c.id = id) = some c) : c.id = id := by
  simpa using List.find?_some hc

theorem filter_ne {α : Type} (f : α → Nat) (id : Nat) (l : List α) : l.filter (fun x => f x != id) = l.filter (fun x => f x ≠ id) := by
  refine List.filter_congr fun x _ => ?_
  by_cases h : f x = id <;> simp [h]

theorem copyRun_eq (hq : s.quires.find c.ref.h = some q) (slow : Bool) : ∃ go : State → State,
    s.copyRun c slow = s.engStep (.op c.id) (fun s f => s.copyFin q.core c f) go := by
  unfold State.copyRun
  rw [hq]
  exact ⟨_, rfl⟩

end

/-! ### A copy from chamber to plain memory (R181) -/

section
variable {s : State} {c : Copy} {q : Quire} {pa : Nat}

theorem Copy.places_row (hr : c.rows = 1) : c.places = (List.range c.bytes).map fun i => (0, i) := by
  unfold Copy.places Copy.rowCount
  split
  · rename_i none
    rw [none]
    rfl
  · rw [hr, List.range_one, List.flatMap_singleton]

theorem Copy.byteAt_row (x : Side × Int) (i : Nat) : Copy.byteAt x 0 i = x.1.addr + BitVec.ofNat 64 i := by
  rw [Copy.byteAt, Nat.cast_zero, Int.zero_mul, Int.zero_add, BitVec.ofInt_natCast]

theorem Copy.meets_chamber (hc : c.src.cham = true) (p : Nat × Nat) : c.meets s q (c.src, c.sstr) false p = .ok none := by
  unfold Copy.meets
  simp only [hc, if_true]

theorem Copy.val_chamber (hc : c.src.cham = true) (hb : c.src.addr.toNat + c.bytes ≤ 2 ^ 32) {j : Nat} (hj : j < c.bytes) :
    c.val s q (0, j) = chamber q (c.src.addr.toNat + j) := by
  have at' : (Copy.byteAt (c.src, c.sstr) 0 j).toNat = c.src.addr.toNat + j := by
    rw [Copy.byteAt_row, BitVec.toNat_add, BitVec.toNat_ofNat]
    dsimp only
    omega
  unfold Copy.val
  simp only [Copy.meets_chamber hc, at']
  rfl

/-- The bytes of a destination in plain memory. -/
def PlainRow (s : State) (c : Copy) (q : Quire) (pa : Nat) : Prop :=
  ∀ j, j < c.bytes → ∃ leaf, s.engByte q.core q.ctx (c.dst.addr + BitVec.ofNat 64 j) 1 true = .ok (pa + j, leaf) ∧ leaf.getLsbD 9 = false

variable (hd : c.dst.cham = false) (row : PlainRow s c q pa)
include hd row

theorem PlainRow.meets {j : Nat} (hj : j < c.bytes) :
    ∃ leaf, c.meets s q (c.dst, c.dstr) true (0, j) = .ok (some (pa + j, leaf)) ∧ leafALG leaf = false := by
  obtain ⟨leaf, ok, plain⟩ := row j hj
  refine ⟨leaf, ?_, plain⟩
  unfold Copy.meets
  simp only [hd, Bool.false_eq_true, if_false, Copy.byteAt_row, ok]

theorem PlainRow.err (hc : c.src.cham = true) (hr : c.rows = 1) : ∀ p ∈ c.places, c.err s q p = none := by
  intro p hp
  rw [Copy.places_row hr] at hp
  obtain ⟨j, hj, rfl⟩ := List.mem_map.1 hp
  obtain ⟨leaf, ok, -⟩ := PlainRow.meets hd row (List.mem_range.1 hj)
  unfold Copy.err
  rw [Copy.meets_chamber hc, ok]

/-- What the destination's bytes meet. -/
theorem PlainRow.mem_hits (hr : c.rows = 1) {x : (Nat × Nat) × DWord × Nat × DWord} (hx : x ∈ c.hits s q (c.dst, c.dstr) true c.places) :
    ∃ j < c.bytes, x.1 = (0, j) ∧ x.2.2.1 = pa + j ∧ leafALG x.2.2.2 = false := by
  obtain ⟨p, hp, eq⟩ := List.mem_filterMap.1 hx
  rw [Copy.places_row hr] at hp
  obtain ⟨j, hj, rfl⟩ := List.mem_map.1 hp
  obtain ⟨leaf, ok, plain⟩ := PlainRow.meets hd row (List.mem_range.1 hj)
  rw [ok] at eq
  cases eq
  exact ⟨j, List.mem_range.1 hj, rfl, rfl, plain⟩
theorem PlainRow.hits_mem (hr : c.rows = 1) {j : Nat} (hj : j < c.bytes) :
    ∃ x ∈ c.hits s q (c.dst, c.dstr) true c.places, x.1 = (0, j) ∧ x.2.2.1 = pa + j := by
  obtain ⟨leaf, ok, -⟩ := PlainRow.meets hd row hj
  refine ⟨((0, j), _, pa + j, leaf), List.mem_filterMap.2 ⟨(0, j), ?_, by rw [ok]⟩, rfl, rfl⟩
  rw [Copy.places_row hr]
  exact List.mem_map.2 ⟨j, List.mem_range.2 hj, rfl⟩

omit hd row in
theorem Copy.hits_chamber (hc : c.src.cham = true) (ps : List (Nat × Nat)) : c.hits s q (c.src, c.sstr) false ps = [] := by
  refine List.filterMap_eq_nil_iff.2 fun p _ => ?_
  rw [Copy.meets_chamber hc]

/-- The memory that the copy leaves. -/
theorem PlainRow.put (hc : c.src.cham = true) (hb : c.src.addr.toNat + c.bytes ≤ 2 ^ 32) (hr : c.rows = 1) (top : pa + c.bytes ≤ s.hbmTop) :
    (∃ m, Stored s (c.put s q c.places) m) ∧ (∀ j, j < c.bytes → (c.put s q c.places).readByte (pa + j) = chamber q (c.src.addr.toNat + j)) ∧
      ∀ b, b < pa ∨ pa + c.bytes ≤ b → (c.put s q c.places).readByte b = s.readByte b := by
  let bytes := (c.hits s q (c.dst, c.dstr) true c.places).map fun x =>
    ({ va := x.2.1, pa := x.2.2.1, leaf := x.2.2.2, b := c.val s q x.1 } : EngByte)
  have mem : ∀ y ∈ bytes, ∃ j < c.bytes, y.pa = pa + j ∧ leafALG y.leaf = false ∧ y.b = chamber q (c.src.addr.toNat + j) := by
    intro y hy
    obtain ⟨x, hx, rfl⟩ := List.mem_map.1 hy
    obtain ⟨j, hj, place, at', plain⟩ := PlainRow.mem_hits hd row hr hx
    exact ⟨j, hj, at', plain, by rw [place]; exact Copy.val_chamber hc hb hj⟩
  have put : c.put s q c.places = s.engWrite (.op c.id) q.ctx (some c.ref) bytes := by
    unfold Copy.put
    simp only [hd, Bool.false_eq_true, if_false]
    rfl
  have A := engWrite_plain (s := s) (xs := bytes) (fun y hy => by
    obtain ⟨j, hj, at', plain, -⟩ := mem y hy
    exact ⟨plain, by omega⟩) (.op c.id) q.ctx (some c.ref)
  have read := A.readByte fun y hy j hj => by
    obtain ⟨k, hk, at', -⟩ := mem y hy
    rw [List.length_singleton] at hj
    exact .inl (State.region_hbm.2 (by omega))
  rw [← put] at A read
  refine ⟨⟨_, A⟩, fun j hj => ?_, fun b outside => ?_⟩
  · rw [read]
    refine lastByte_agree ?_ ?_
    · simp only [List.forall_mem_map, List.length_singleton]
      intro y hy lo hi
      obtain ⟨k, hk, at', -, val⟩ := mem y hy
      obtain rfl : k = j := by omega
      rw [at', Nat.sub_self, val]
      rfl
    · obtain ⟨x, hx, -, at'⟩ := PlainRow.hits_mem hd row hr hj
      refine ⟨_, List.mem_map.2 ⟨_, List.mem_map.2 ⟨x, hx, rfl⟩, rfl⟩, ?_, ?_⟩
      · exact Nat.le_of_eq at'
      · rw [List.length_singleton]
        show pa + j < x.2.2.1 + 1
        omega
  · rw [read]
    refine lastByte_outside ?_
    simp only [List.forall_mem_map, List.length_singleton]
    intro y hy
    obtain ⟨k, hk, at', -⟩ := mem y hy
    omega

/-- The copy runs to its end. -/
theorem PlainRow.run (hq : s.quires.find c.ref.h = some q) (U : Unsent s (.op c.id)) (hc : c.src.cham = true) (hr : c.rows = 1)
    (hk : s.rekeys = []) (hw : s.worn ((List.range c.bytes).map (pa + ·)) = none) (slow : Bool) :
    ∃ f : Sys2Proof.Machine.Fin, f.who = .op c.id ∧ s.copyRun c slow = (c.put s q c.places).engEnd f fun s f => s.copyFin q.core c f := by
  have sound := PlainRow.err hd row hc hr
  have repairs : (c.places.findSome? fun p => (c.err s q p).bind fun x => if x.1 = .repair then some x.2 else none) = none := by
    rw [List.findSome?_eq_none_iff]
    exact fun p hp => by rw [sound p hp]; rfl
  have faults : (c.places.findSome? fun p => (c.err s q p).map fun x => (p, x)) = none := by
    rw [List.findSome?_eq_none_iff]
    exact fun p hp => by rw [sound p hp]; rfl
  have writes : s.worn (((c.hits s q (c.dst, c.dstr) true c.places).map fun x => x.2.2).map (·.1)) = none := by
    simp only [State.worn, List.findSome?_eq_none_iff, List.map_map, List.forall_mem_map] at hw ⊢
    intro x hx
    obtain ⟨j, hj, -, at', -⟩ := PlainRow.mem_hits hd row hr hx
    rw [Function.comp_apply, at']
    exact hw j (List.mem_range.2 hj)
  unfold State.copyRun
  rw [hq]
  simp only [Unsent.step U, State.tablesHeld_none hk, Bool.false_eq_true, if_false, repairs, faults]
  unfold State.copyMove
  rw [engGate_passes hk (Unsent.aliased U) writes, Copy.hits_chamber hc, List.map_nil, State.algLoads_plain _ _ _ _ fun x hx => absurd hx List.not_mem_nil]
  exact ⟨_, rfl, rfl⟩

/-- A copy from chamber to plain memory, with nothing in its way (R181, R182). -/
theorem PlainRow.ends {id : Nat} {i : Instr} (found : (s.copies.find? fun c => c.id = id) = some c)
    (hi : (i = .copyComplete id ∧ c.slow = false) ∨ i = .copySlowPathDone id) (hq : s.quires.find c.ref.h = some q)
    (res : q.phase = .resident) (U : Unsent s (.op id)) (hc : c.src.cham = true) (hb : c.src.addr.toNat + c.bytes ≤ 2 ^ 32)
    (hr : c.rows = 1) (top : pa + c.bytes ≤ s.hbmTop) (hk : s.rekeys = []) (hw : s.worn ((List.range c.bytes).map (pa + ·)) = none) :
    Answers (exec i s) fun t => (∀ j, j < c.bytes → t.readByte (pa + j) = chamber q (c.src.addr.toNat + j)) ∧
      (∀ b, b < s.hbmTop → b < pa ∨ pa + c.bytes ≤ b → t.readByte b = s.readByte b) ∧
      t.copies = s.copies.filter (fun y => y.id ≠ id) ∧ Filled s t c.ref.h c.pool := by
  obtain rfl := copy_id found
  obtain ⟨slow, run⟩ := exec_copy found hi
  obtain ⟨f, who, moved⟩ := PlainRow.run hd row hq U hc hr hk hw slow
  obtain ⟨⟨m, A⟩, bytes, others⟩ := PlainRow.put hd row hc hb hr top
  generalize c.put s q c.places = u at moved A bytes others
  obtain ⟨pools, vats, copies, -⟩ := A.kept
  have sent : u.engSent f.who = false := by
    rw [who, State.engSent, vats]
    exact Unsent.sent U
  have hqu : u.quires.find c.ref.h = some q := by rw [pools, hq]
  rw [State.engEnd, sent, if_neg Bool.false_ne_true] at moved
  obtain ⟨E, gone⟩ := copyEnd_ends hqu res q.core (localSlot f.status f.done c.tag f.aux)
  refine ⟨_, run.trans (congrArg _ moved), fun j hj => ?_, fun b hb' outside => ?_, ?_, ?_⟩
  · rw [State.copyFin, E.readByte (by rw [A.hbmTop]; omega), bytes j hj]
  · rw [State.copyFin, E.readByte (by rw [A.hbmTop]; exact hb'), others b outside]
  · rw [State.copyFin, gone, copies, filter_ne]
  · have filled := E.filled
    unfold Filled at filled ⊢
    rw [pools] at filled
    exact filled

end

end Sys2Proof.Machine
end

section
/-! PROOFS. Events at memory (O49): operations that have made their accesses, and near-memory commands that meet no error. -/

namespace Sys2Proof.Machine
open Sys2Proof.Claims

/-! ### Operations that have made their accesses (log 13) -/

theorem engSent_iff {s : State} {who : Who} : s.engSent who = true ↔ ∃ v ∈ s.vats, ∃ o ∈ v.2.input ++ v.2.queue, who ∈ o.eng := by
  simp only [State.engSent, List.any_eq_true, List.contains_iff_mem]

/-- An operation whose end is kept ends once the vats have applied what it has sent them. -/
theorem engStep_fin {s : State} {who : Who} {f : Sys2Proof.Machine.Fin} (hf : (s.fins.find? fun f => f.who = who) = some f)
    (k : State → Sys2Proof.Machine.Fin → State) (go : State → State) : s.engStep who k go = if s.engSent who then s else k s f := by
  have found : s.fins.find? (·.who == who) = some f := by
    rw [← hf]
    congr 1
  unfold State.engStep
  rw [found]

section
variable {s : State} {id : Nat} {f : Sys2Proof.Machine.Fin} {q : Quire}

theorem copy_fin {c : Copy} {i : Instr} (hf : (s.fins.find? fun f => f.who = .op id) = some f) (res : q.phase = .resident)
    (hc : (s.copies.find? fun c => c.id = id) = some c) (hi : (i = .copyComplete id ∧ c.slow = false) ∨ i = .copySlowPathDone id)
    (hq : s.quires.find c.ref.h = some q) :
    let sent := ∃ v ∈ s.vats, ∃ o ∈ v.2.input ++ v.2.queue, .op id ∈ o.eng
    (sent → Answers (exec i s) fun t => t = s) ∧
      (¬sent → Answers (exec i s) fun t => t.copies = s.copies.filter (fun y => y.id ≠ id) ∧ Filled s t c.ref.h c.pool) := by
  obtain rfl := copy_id hc
  obtain ⟨slow, run⟩ := exec_copy hc hi
  obtain ⟨go, step⟩ := copyRun_eq hq slow
  rw [step, engStep_fin hf] at run
  refine ⟨fun sent => ⟨_, run, if_pos (engSent_iff.2 sent)⟩, fun sent => ⟨_, run, ?_⟩⟩
  rw [if_neg (fun h => sent (engSent_iff.1 h)), State.copyFin]
  obtain ⟨E, gone⟩ := copyEnd_ends hq res q.core (localSlot f.status f.done c.tag f.aux)
  exact ⟨gone.trans (filter_ne Copy.id c.id s.copies), E.filled⟩

theorem nm_id {n : Nm} (hn : (s.nms.find? fun n => n.id = id) = some n) : n.id = id := by
  simpa using List.find?_some hn

/-- What the completion of a near-memory command does that has made no access (R235). -/
def Nm.complete (n : Nm) (q : Quire) (s : State) : State :=
  let es := n.errs s q
  if s.tablesHeld q.ctx then s
  else match es.find? fun x => x.1 == .repair with
  | some (_, a) =>
    match s.engFault q.core q.ctx a with
    | (s, true) => { s with nms := s.nms.map fun x => if x.id = n.id then { x with slow := true } else x }
    | (s, false) => s
  | none =>
    match es.head? with
    | some (.fatal st, a) => (s.eccCount q.core q.ctx st a).nmEnd n (localSlot st 0 n.tag (loWord a))
    | some (.repair, _) => s
    | none =>
      s.engGate (.op n.id) (n.pas s q).1 (n.pas s q).2 fun s =>
        (n.perform s q).engEnd { who := .op n.id, status := n.done s, done := n.len * n.e } fun t f =>
          t.nmEnd n (localSlot f.status f.done n.tag 0)

theorem exec_nmComplete {n : Nm} (hn : (s.nms.find? fun n => n.id = id) = some n) (hq : s.quires.find n.ref.h = some q) :
    exec (.nmComplete id) s = .next (s.engStep (.op id) (fun s f => s.nmEnd n (localSlot f.status f.done n.tag 0)) (n.complete q)) := by
  obtain rfl := nm_id hn
  have found : s.nms.find? (·.id == n.id) = some n := by
    simpa only [beq_iff_eq, Bool.beq_eq_decide_eq, decide_eq_true_eq] using hn
  refine congrArg Host.Outcome.next ?_
  simp only [found, hq]
  rfl

theorem nm_fin {n : Nm} (hf : (s.fins.find? fun f => f.who = .op id) = some f) (res : q.phase = .resident)
    (hn : (s.nms.find? fun n => n.id = id) = some n) (hq : s.quires.find n.ref.h = some q) :
    let sent := ∃ v ∈ s.vats, ∃ o ∈ v.2.input ++ v.2.queue, .op id ∈ o.eng
    (sent → Answers (exec (.nmComplete id) s) fun t => t = s) ∧
      (¬sent → Answers (exec (.nmComplete id) s) fun t => t.nms = s.nms.filter (fun y => y.id ≠ id) ∧ Filled s t n.ref.h n.pool) := by
  have run := exec_nmComplete hn hq
  obtain rfl := nm_id hn
  rw [engStep_fin hf] at run
  refine ⟨fun sent => ⟨_, run, if_pos (engSent_iff.2 sent)⟩, fun sent => ⟨_, run, ?_⟩⟩
  rw [if_neg fun h => sent (engSent_iff.1 h)]
  obtain ⟨E, gone⟩ := nmEnd_ends hq res (localSlot f.status f.done n.tag 0)
  exact ⟨gone.trans (filter_ne Nm.id n.id s.nms), E.filled⟩

/-! ### Near-memory commands that meet no error (R234, R235) -/

/-- A command whose accesses meet no error performs, and ends once nothing of it is at a vat. -/
theorem nm_performs {n : Nm} (hn : (s.nms.find? fun n => n.id = id) = some n) (hq : s.quires.find n.ref.h = some q) (hk : s.rekeys = [])
    (U : Unsent s (.op id)) (sound : n.errs s q = []) (hw : s.worn ((n.pas s q).2.map (·.1)) = none)
    (sent : (n.perform s q).engSent (.op id) = false) :
    ∃ v, exec (.nmComplete id) s = .next ((n.perform s q).nmEnd n v) := by
  have run := exec_nmComplete hn hq
  obtain rfl := nm_id hn
  rw [Unsent.step U] at run
  have ends : n.complete q s = (n.perform s q).engEnd { who := .op n.id, status := n.done s, done := n.len * n.e } fun t f =>
      t.nmEnd n (localSlot f.status f.done n.tag 0) := by
    unfold Nm.complete
    rw [State.tablesHeld_none hk, sound, engGate_passes hk (Unsent.aliased U) hw]
    rfl
  rw [ends, State.engEnd, sent, if_neg Bool.false_ne_true] at run
  exact ⟨_, run⟩

/-- What such a command leaves. -/
theorem nm_ends {n : Nm} (hn : (s.nms.find? fun n => n.id = id) = some n) (hq : s.quires.find n.ref.h = some q) (res : q.phase = .resident)
    (hk : s.rekeys = []) (U : Unsent s (.op id)) (sound : n.errs s q = []) (hw : s.worn ((n.pas s q).2.map (·.1)) = none)
    (sent : (n.perform s q).engSent (.op id) = false) (quires : (n.perform s q).quires = s.quires) (nms : (n.perform s q).nms = s.nms)
    (top : (n.perform s q).hbmTop = s.hbmTop) :
    Answers (exec (.nmComplete id) s) fun t => (∀ b, b < s.hbmTop → t.readByte b = (n.perform s q).readByte b) ∧
      t.nms = s.nms.filter (fun y => y.id ≠ id) ∧ Filled s t n.ref.h n.pool := by
  obtain ⟨v, run⟩ := nm_performs hn hq hk U sound hw sent
  obtain rfl := nm_id hn
  obtain ⟨E, gone⟩ := nmEnd_ends (s := n.perform s q) (by rw [quires]; exact hq) res v
  refine ⟨_, run, fun b hb => E.readByte (by rw [top]; exact hb), ?_, ?_⟩
  · rw [gone, nms, filter_ne]
  · have filled := E.filled
    unfold Filled at filled ⊢
    rw [quires] at filled
    exact filled

/-- A command of no elements (R234). -/
theorem nm_empty {n : Nm} (hn : (s.nms.find? fun n => n.id = id) = some n) (hq : s.quires.find n.ref.h = some q) (hd : n.dot = false)
    (hl : n.len = 0) (res : q.phase = .resident) (hk : s.rekeys = []) (U : Unsent s (.op id)) :
    Answers (exec (.nmComplete id) s) fun t => t.nms = s.nms.filter (fun y => y.id ≠ id) ∧ Filled s t n.ref.h n.pool := by
  have sound : n.errs s q = [] := by
    unfold Nm.errs Nm.dstErr
    rw [hl, hd]
    rfl
  have idle : n.perform s q = s := by
    unfold Nm.perform
    rw [hl, hd]
    rfl
  have none : s.worn ((n.pas s q).2.map (·.1)) = none := by
    unfold Nm.pas
    rw [hl, hd]
    rfl
  obtain ⟨t, run, -, nms, filled⟩ := nm_ends hn hq res hk U sound none (by rw [idle]; exact Unsent.sent U) (by rw [idle]) (by rw [idle])
    (by rw [idle])
  exact ⟨t, run, nms, filled⟩
end

end Sys2Proof.Machine
end

section
/-! PROOFS. Events at memory (O49): `nmaxpy` writes each element of y once. -/

namespace Sys2Proof.Machine
open Sys2Proof.Claims

/-! ### Elements of near-memory commands (R234) -/

theorem leNat_lt (bs : List Byte) : leNat bs < 256 ^ bs.length := by
  induction bs with
  | nil => exact Nat.one_pos
  | cons b bs ih =>
    rw [leNat, List.length_cons, Nat.pow_succ]
    have := b.isLt
    omega
/-- A word of up to eight bytes is the number that stands there. -/
theorem wordAt_toNat (s : State) (a : Nat) {n : Nat} (h : n ≤ 8) : (wordAt s a n).toNat = s.readNat a n := by
  rw [wordAt, BitVec.toNat_ofNat, Nat.mod_eq_of_lt]
  · rfl
  · refine lt_of_lt_of_le (leNat_lt _) ?_
    rw [List.length_map, List.length_range]
    exact Nat.pow_le_pow_right (by decide) h

section
variable {s : State} {n : Nm} {q : Quire} {px py : Nat → Nat}

/-- The elements of a vector lie in plain memory, where the command may access them (R235). -/
def Vector (s : State) (n : Nm) (q : Quire) (v : DWord) (write : Bool) (p : Nat → Nat) : Prop :=
  ∀ i, i < n.len → ∃ leaf, s.engByte q.core q.ctx (n.at' v i) n.e write = .ok (p i, leaf) ∧ leaf.getLsbD 9 = false

theorem Nm.e_le (n : Nm) : n.e ≤ 8 := by
  unfold Nm.e
  split <;> decide

theorem ite_error_eq_ok {ε α : Type} {c : Prop} [Decidable c] {e : ε} {x : Except ε α} {y : α} :
    (if c then .error e else x) = .ok y ↔ ¬c ∧ x = .ok y := by
  split
  · simp_all
  · simp_all
/-- What an access that goes on has passed (R162, R175). -/
theorem engByte_ok_iff {core ctx len : Nat} {v : DWord} {write : Bool} {x : Nat × DWord} : s.engByte core ctx v len write = .ok x ↔
    canonical v = true ∧ ∃ t, s.engXlate core ctx v = .ok t ∧
      ((if write then leafW t.leaf else leafR t.leaf) && s.mayReach (s.ctx ctx).part (t.pa v) len false) = true ∧
      s.ue (t.pa v) len = false ∧ (t.pa v, t.leaf) = x := by
  unfold State.engByte State.engAt
  rw [ite_error_eq_ok]
  refine and_congr (by simp) ?_
  cases s.engXlate core ctx v with
  | repair =>
    simp only [reduceCtorEq, false_and, exists_false, iff_false]
    split
    · rw [ite_error_eq_ok]
      simp
    · simp
  | fatal => simp
  | denied => simp
  | ok t =>
    simp only [ite_error_eq_ok, Walk.ok.injEq, exists_eq_left', Except.ok.injEq]
    rw [← Bool.not_and, Bool.not_eq_true', Bool.not_eq_false, Bool.not_eq_true]
/-- An access that goes on has its translation. -/
theorem engXlate_of_ok {core ctx len pa : Nat} {v leaf : DWord} {write : Bool} (h : s.engByte core ctx v len write = .ok (pa, leaf)) :
    ∃ t, s.engXlate core ctx v = .ok t ∧ t.pa v = pa ∧ t.leaf = leaf := by
  obtain ⟨-, t, xlate, -, -, hit⟩ := engByte_ok_iff.1 h
  cases hit
  exact ⟨t, xlate, rfl, rfl⟩

theorem Vector.val {v : DWord} {p : Nat → Nat} (V : Vector s n q v false p) {i : Nat} (hi : i < n.len) :
    n.val s q (n.at' v i) = (wordAt s (p i) n.e).toNat := by
  obtain ⟨leaf, ok, -⟩ := V i hi
  rw [wordAt_toNat s (p i) n.e_le, Nm.val, ok]

/-- Elements that may be accessed as the command does meet no error. -/
theorem Nm.err_none (X : Vector s n q n.x false px) (Y : Vector s n q n.y false py) (W : n.dot = false → Vector s n q n.y true py) {i : Nat}
    (hi : i < n.len) : n.err s q i = none := by
  obtain ⟨lx, okx, plainx⟩ := X i hi
  obtain ⟨ly, oky, plainy⟩ := Y i hi
  have ax : leafALG lx = false := plainx
  have ay : leafALG ly = false := plainy
  unfold Nm.err
  simp only [okx, oky, ax, ay, Bool.false_eq_true, if_false, Option.orElse_none]
  cases hd : n.dot
  · obtain ⟨lw, okw, plainw⟩ := W hd i hi
    have aw : leafALG lw = false := plainw
    simp only [okw, aw, Bool.false_eq_true, if_false]
  · rfl

theorem Nm.errs_none (X : Vector s n q n.x false px) (Y : Vector s n q n.y false py) (W : n.dot = false → Vector s n q n.y true py)
    (dst : n.dstErr s q = none) : n.errs s q = [] := by
  unfold Nm.errs
  rw [dst, Option.toList_none, List.append_nil]
  exact List.filterMap_eq_nil_iff.2 fun i hi => Nm.err_none X Y W (List.mem_range.1 hi)

/-! ### `nmaxpy` (R234) -/

variable (hd : n.dot = false)
include hd

/-- The bytes that `nmaxpy` writes. -/
def Nm.axpyBytes (n : Nm) (s : State) (q : Quire) : List EngByte :=
  let f := if n.bf then bf16 else fp32
  let new := (List.range n.len).map fun i =>
    (i, rneFma fp32 f f f n.a.toNat (n.val s q (n.at' n.x i)) (n.val s q (n.at' n.y i)))
  new.flatMap fun x =>
    match s.engByte q.core q.ctx (n.at' n.y x.1) n.e true with
    | .error _ => []
    | .ok a => (leBytes n.e x.2).zipIdx.map fun b =>
      { va := n.at' n.y x.1 + BitVec.ofNat 64 b.2, pa := a.1 + b.2, leaf := a.2, b := b.1 }

theorem Nm.perform_axpy : n.perform s q = s.engWrite (.op n.id) q.ctx (some n.ref) (n.axpyBytes s q) := by
  unfold Nm.perform
  rw [hd]
  rfl

variable (X : Vector s n q n.x false px) (Y : Vector s n q n.y false py) (W : Vector s n q n.y true py)
include X Y W

omit hd in
theorem Nm.mem_axpyBytes {x : EngByte} (hx : x ∈ n.axpyBytes s q) : ∃ i < n.len, ∃ j < n.e, x.pa = py i + j ∧ leafALG x.leaf = false ∧
    x.b = nthByte (axpy n.bf n.a.toNat (wordAt s (px i) n.e).toNat (wordAt s (py i) n.e).toNat) j := by
  obtain ⟨y, hy, inside⟩ := List.mem_flatMap.1 hx
  obtain ⟨i, hi, rfl⟩ := List.mem_map.1 hy
  have hi := List.mem_range.1 hi
  obtain ⟨leaf, ok, plain⟩ := W i hi
  simp only [ok] at inside
  obtain ⟨b, hb, rfl⟩ := List.mem_map.1 inside
  obtain ⟨hj, val⟩ := List.getElem?_eq_some_iff.1 (List.mem_zipIdx_iff_getElem?.1 hb)
  refine ⟨i, hi, b.2, by rwa [leBytes_length] at hj, rfl, plain, ?_⟩
  show b.1 = _
  rw [← val, leBytes_getElem, X.val hi, Y.val hi]
  rfl
omit hd X Y in
theorem Nm.axpyBytes_mem {i j : Nat} (hi : i < n.len) (hj : j < n.e) : ∃ x ∈ n.axpyBytes s q, x.pa = py i + j := by
  obtain ⟨leaf, ok, plain⟩ := W i hi
  let f := if n.bf then bf16 else fp32
  let v := rneFma fp32 f f f n.a.toNat (n.val s q (n.at' n.x i)) (n.val s q (n.at' n.y i))
  have hb : j < (leBytes n.e v).length := by rwa [leBytes_length]
  refine ⟨⟨n.at' n.y i + BitVec.ofNat 64 j, py i + j, leaf, (leBytes n.e v)[j]⟩,
    List.mem_flatMap.2 ⟨(i, v), List.mem_map.2 ⟨i, List.mem_range.2 hi, rfl⟩, ?_⟩, rfl⟩
  simp only [ok]
  exact List.mem_map.2 ⟨((leBytes n.e v)[j], j), List.mem_zipIdx_iff_getElem?.2 (List.getElem?_eq_getElem hb), rfl⟩

omit X W in
/-- The addresses that `nmaxpy` writes are those of y. -/
theorem Nm.worn_axpy (hw : s.worn ((List.range n.len).map py) = none) : s.worn ((n.pas s q).2.map (·.1)) = none := by
  simp only [State.worn, List.findSome?_eq_none_iff, List.forall_mem_map] at hw ⊢
  intro a ha
  unfold Nm.pas at ha
  simp only [hd, Bool.false_eq_true, if_false] at ha
  obtain ⟨i, hi, ha⟩ := List.mem_flatMap.1 ha
  obtain ⟨leaf, ok, -⟩ := Y i (List.mem_range.1 hi)
  obtain ⟨t, xlate, at', -⟩ := engXlate_of_ok ok
  simp only [xlate, at'] at ha
  rw [List.mem_singleton.1 ha]
  exact hw i hi

/-- `nmaxpy` on elements that lie apart in plain memory (R234). -/
theorem nm_axpy {id : Nat} (hn : (s.nms.find? fun n => n.id = id) = some n) (hq : s.quires.find n.ref.h = some q) (res : q.phase = .resident)
    (hk : s.rekeys = []) (U : Unsent s (.op id)) (hw : s.worn ((List.range n.len).map py) = none)
    (top : ∀ i, i < n.len → py i + n.e ≤ s.hbmTop) (separate : ∀ i j, i < j → j < n.len → py i + n.e ≤ py j ∨ py j + n.e ≤ py i) :
    Answers (exec (.nmComplete id) s) fun t =>
      (∀ i j, i < n.len → j < n.e → t.readByte (py i + j) =
        nthByte (axpy n.bf n.a.toNat (wordAt s (px i) n.e).toNat (wordAt s (py i) n.e).toNat) j) ∧
      (∀ b, b < s.hbmTop → (∀ i, i < n.len → b < py i ∨ py i + n.e ≤ b) → t.readByte b = s.readByte b) ∧
      t.nms = s.nms.filter (fun y => y.id ≠ id) ∧ Filled s t n.ref.h n.pool := by
  have A := engWrite_plain (s := s) (xs := n.axpyBytes s q) (fun x hx => by
    obtain ⟨i, hi, j, hj, at', plain, -⟩ := Nm.mem_axpyBytes X Y W hx
    have := top i hi
    exact ⟨plain, by omega⟩) (.op n.id) q.ctx (some n.ref)
  have read := A.readByte fun x hx k hk => by
    obtain ⟨i, hi, j, hj, at', -⟩ := Nm.mem_axpyBytes X Y W hx
    rw [List.length_singleton] at hk
    have := top i hi
    exact .inl (State.region_hbm.2 (by omega))
  rw [← Nm.perform_axpy hd] at A read
  obtain ⟨quires, vats, -, nms⟩ := A.kept
  have sound := Nm.errs_none X Y (fun _ => W) (by unfold Nm.dstErr; rw [hd]; rfl)
  have sent : (n.perform s q).engSent (.op id) = false := by
    rw [State.engSent, vats]
    exact Unsent.sent U
  obtain ⟨t, run, bytes, gone, filled⟩ := nm_ends hn hq res hk U sound (Nm.worn_axpy hd Y hw) sent quires nms A.hbmTop
  refine ⟨t, run, fun i j hi hj => ?_, fun b hb outside => ?_, gone, filled⟩
  · have := top i hi
    rw [bytes _ (by omega), read]
    refine lastByte_agree ?_ ?_
    · simp only [List.forall_mem_map, List.length_singleton]
      intro x hx lo hi'
      obtain ⟨k, hk, l, hl, at', -, val⟩ := Nm.mem_axpyBytes X Y W hx
      have same : k = i := by
        rcases Nat.lt_trichotomy k i with h | h | h
        · have := separate k i h hi
          omega
        · exact h
        · have := separate i k h hk
          omega
      subst same
      obtain rfl : l = j := by omega
      rw [at', Nat.sub_self, val]
      rfl
    · obtain ⟨x, hx, at'⟩ := Nm.axpyBytes_mem W hi hj
      exact ⟨_, List.mem_map.2 ⟨x, hx, rfl⟩, Nat.le_of_eq at', by rw [List.length_singleton]; show py i + j < x.pa + 1; omega⟩
  · rw [bytes b hb, read]
    refine lastByte_outside ?_
    simp only [List.forall_mem_map, List.length_singleton]
    intro x hx
    obtain ⟨i, hi, j, hj, at', -⟩ := Nm.mem_axpyBytes X Y W hx
    have := outside i hi
    omega

end

end Sys2Proof.Machine
end

section
/-! PROOFS. Events at memory (O49): the sum of `nmdot` is the fixed tree of its channels' sums. -/

namespace Sys2Proof.Machine
open Sys2Proof.Claims

/-! ### The sum of `nmdot` (R234) -/

theorem pairSums_range (k : Nat) (g : Nat → Word) :
    pairSums ((List.range (2 * k)).map g) = (List.range k).map fun i => rneAdd (g (2 * i)) (g (2 * i + 1)) := by
  induction k generalizing g with
  | zero => rfl
  | succ k ih =>
    rw [Nat.mul_succ, List.range_succ_eq_map, List.range_succ_eq_map, List.range_succ_eq_map]
    simp only [List.map_cons, List.map_map, pairSums]
    exact congrArg _ (ih fun i => g (i + 2))

/-- The lowest level of the fixed tree summed first. -/
theorem dotTree_pairs (leaf : Nat → Nat) (n b : Nat) : dotTree leaf (n + 1) (2 * b) =
    dotTree (fun i => (rneAdd (BitVec.ofNat 32 (leaf (2 * i))) (BitVec.ofNat 32 (leaf (2 * i + 1)))).toNat) n b := by
  induction n generalizing b with
  | zero => simp [dotTree]
  | succ n ih =>
    rw [dotTree, ih, show 2 * b + 2 ^ (n + 1) = 2 * (b + 2 ^ n) by rw [Nat.pow_succ]; omega, ih]
    rfl

/-- Sums of adjacent pairs, level by level, are the fixed tree. -/
theorem pairSums_tree (n : Nat) (leaf : Nat → Nat) :
    pairSums^[n] ((List.range (2 ^ n)).map fun c => BitVec.ofNat 32 (leaf c)) = [dotTree leaf n 0] := by
  induction n generalizing leaf with
  | zero => rfl
  | succ n ih =>
    have tree := ih fun i => (rneAdd (BitVec.ofNat 32 (leaf (2 * i))) (BitVec.ofNat 32 (leaf (2 * i + 1)))).toNat
    simp only [BitVec.ofNat_toNat, BitVec.setWidth_eq] at tree
    rw [Function.iterate_succ_apply, Nat.pow_succ', pairSums_range, tree, dotTree_pairs leaf n 0]

theorem nmDotValue_eq (bf : Bool) (els : List (Nat × Nat × Nat)) : nmDotValue bf els = dotSum bf els := by
  unfold nmDotValue dotSum
  cases els with
  | nil => rfl
  | cons x els =>
    have leaves (c : Nat) : (x :: els).foldl (fun (s : Nat) x =>
        if x.1 = c then rneFma (if bf then bf16 else fp32) (if bf then bf16 else fp32) fp32 fp32 x.2.1 x.2.2 s else s) 0x80000000 =
        dotLeaf bf (x :: els) c := by
      unfold dotLeaf
      simp only [List.foldl_filter, decide_eq_true_eq]
      rfl
    simp only [List.isEmpty_cons, Bool.false_eq_true, if_false, reduceCtorEq, leaves]
    rw [List.foldl_const, List.length_range, show 256 = 2 ^ 8 from rfl, pairSums_tree]
    rfl

end Sys2Proof.Machine
end

section
/-! PROOFS. Events at memory (O49): the application of a slot operation at its vat. -/

namespace Sys2Proof.Machine
open Sys2Proof.Claims

@[simp] theorem State.vat_modVat (s : State) (n : Nat) (f : Vat → Vat) : (s.modVat n f).vat n = f (s.vat n) := Tab.get_put_self _ _ _ _

theorem State.modVat_congr {s : State} {n : Nat} {f g : Vat → Vat} (h : f (s.vat n) = g (s.vat n)) : s.modVat n f = s.modVat n g := by
  unfold State.modVat
  rw [h]

/-! ### A slot operation applied (R219, R225) -/

section
variable {s : State} {ch n k ty : Nat} {o : VOp} {x : DWord}

/-- With no trigger at a vat, nothing fires. -/
theorem fire_none (h : (s.vat ch).triggers = []) (o : VOp) : s.fire ch o = s.modVat ch id := by
  have same (g : Trigger → Trigger) : s.modVat ch (fun v => { v with triggers := v.triggers.map g }) = s.modVat ch id := by
    refine State.modVat_congr ?_
    rw [h, List.map_nil, ← h]
    rfl
  unfold State.fire
  simp only [same, h]
  rfl

/-- An operation of a slot without return gives nothing back. -/
theorem vatReturn_slot (ha : o.act = .slot n k ty x) (hr : o.ret = none) (y : DWord) : s.vatReturn o y = s := by
  have load : (o.act == .load) = false := by rw [ha]; rfl
  unfold State.vatReturn
  rw [hr]
  simp only [load, Bool.false_and, Bool.false_eq_true, if_false, List.map_id']
  split <;> rfl

theorem opDone_eq (s : State) (o : VOp) (w : Option (List Byte × List Byte)) : s.opDone o w = { s with stores := (s.opDone o w).stores } := rfl

/-- The bytes of a slot operation's word after it (R219). -/
def VOp.written (o : VOp) (k ty : Nat) (x : DWord) (s : State) : List Byte :=
  leBytes o.width (opValue k ty (wordAt s o.word o.width) x).toNat

/-- A slot operation writes its word and nothing else. -/
theorem applyOp_slot (ha : o.act = .slot n k ty x) (hk : k ≠ 0) (hr : o.ret = none) (top : o.word < s.hbmTop) (hu : s.ue o.word o.width = false)
    (ht : (s.vat ch).triggers = []) :
    ∃ u, Stored s u (Memory.write s.mem o.word (o.written k ty x s)) ∧ s.applyOp ch o = u.modVat ch id := by
  have acq : s.opAcq o = s := by
    unfold State.opAcq VOp.acquires
    rw [ha]
    cases o.ref <;> simp
  have value : o.newValue (BitVec.ofNat 64 (s.readNat o.word o.width)) = some (opValue k ty (wordAt s o.word o.width) x) := by
    unfold VOp.newValue
    rw [ha]
    exact if_neg hk
  have run : s.applyOp ch o = s.opWrite ch o (opValue k ty (wordAt s o.word o.width) x) := by
    unfold State.applyOp
    rw [hu, acq]
    simp only [Bool.false_and, Bool.false_eq_true, if_false, ha, vatReturn_slot ha hr, value]
  have cut : ∃ y, (if o.cuts then { s with stores := s.stores.map fun x => { x with released := x.released.flatMap o.cut } } else s) =
      { s with stores := y } := by
    split
    · exact ⟨_, rfl⟩
    · exact ⟨s.stores, rfl⟩
  obtain ⟨y, cut⟩ := cut
  have A : Stored s { s with stores := y } s.mem := (Stored.refl s).stores y
  have B := (A.trans (Stored.writeBytes (s := { s with stores := y }) (.inl (State.region_hbm.2 top)) (o.written k ty x s))).stores
    ((({ s with stores := y } : State).writeBytes o.word (o.written k ty x s)).opDone o
      (some (s.readBytes o.word o.width, o.written k ty x s))).stores
  refine ⟨_, B, ?_⟩
  rw [run]
  unfold State.opWrite
  simp only [cut]
  rw [opDone_eq]
  refine fire_none ?_ o
  obtain ⟨_, vats, -⟩ := B.kept
  exact (congrArg (fun t : Tab Vat => (t.get Vat.empty ch).triggers) vats).trans ht

/-- Vats do not show in memory. -/
theorem State.readByte_modVat (s : State) (ch : Nat) (f : Vat → Vat) (a : Nat) : (s.modVat ch f).readByte a = s.readByte a :=
  State.readByte_windows (s := s) (t := s.modVat ch f) rfl rfl rfl rfl a
theorem State.readByte_retryAll (s : State) (a : Nat) : s.retryAll.readByte a = s.readByte a := by
  refine State.readByte_windows (s := s) (t := s.retryAll) rfl rfl rfl ?_ a
  unfold State.windows
  rw [State.retryAll_eq, Tab.mapv, List.map_map]
  rfl

/-- A byte after a write of a word of HBM. -/
theorem Stored.readByte_word {u : State} {a : Nat} {bs : List Byte} (A : Stored s u (Memory.write s.mem a bs)) (top : a + bs.length ≤ s.hbmTop)
    (b : Nat) : u.readByte b = if a ≤ b ∧ b < a + bs.length then (bs[b - a]?).getD 0 else s.readByte b := by
  have read := Stored.readByte (pa := fun _ : Unit => a) (bs := fun _ => bs) (xs := [()]) A
    (fun _ _ j hj => .inl (State.region_hbm.2 (by omega))) b
  rw [read, List.map_singleton, ← List.nil_append [(a, bs)], lastByte_append]
  rfl

/-- The operation at the head of a vat's queue is applied (R225). -/
theorem vatApply_applies {rest : List VOp} (hq : (s.vat ch).queue = o :: rest) (ha : o.act = .slot n k ty x) (hk : k ≠ 0) (hr : o.ret = none)
    (top : o.word + o.width ≤ s.hbmTop) (hu : s.ue o.word o.width = false) (hrk : s.rekeys = []) (hw : s.worn [o.word] = none)
    (ht : (s.vat ch).triggers = []) :
    Answers (exec (.vatApply ch) s) fun t => (t.vat ch).queue = rest ∧
      (∀ j, j < o.width → t.readByte (o.word + j) = nthByte (opValue k ty (wordAt s o.word o.width) x).toNat j) ∧
      ∀ b, b < o.word ∨ o.word + o.width ≤ b → t.readByte b = s.readByte b := by
  let s' := s.modVat ch fun v => { v with queue := v.queue.tail }
  have pos : 0 < o.width := by unfold VOp.width; split <;> decide
  have run : exec (.vatApply ch) s = .next (s'.applyOp ch o).retryAll := by
    refine congrArg Host.Outcome.next ?_
    simp only [hq, ha, State.keyGate_passes s _ _ hrk hw]
    rfl
  have trig : (s'.vat ch).triggers = [] := by rw [State.vat_modVat]; exact ht
  have here : o.word < s'.hbmTop := lt_of_lt_of_le (Nat.lt_add_of_pos_right pos) top
  obtain ⟨u, A, applied⟩ := applyOp_slot (s := s') ha hk hr here hu trig
  have same : wordAt s' o.word o.width = wordAt s o.word o.width := by
    unfold wordAt
    simp only [s', State.readByte_modVat]
  have len : (o.written k ty x s').length = o.width := leBytes_length _ _
  have bytes := A.readByte_word (by rw [len]; exact top)
  rw [applied] at run
  refine ⟨_, run, ?_, fun j hj => ?_, fun b hb => ?_⟩
  · obtain ⟨-, vats, -⟩ := A.kept
    show ((u.modVat ch id).vat ch).queue = rest
    rw [State.vat_modVat, id, State.vat, vats, ← State.vat, State.vat_modVat, hq]
    rfl
  · rw [State.readByte_retryAll, State.readByte_modVat, bytes, if_pos (by rw [len]; omega), Nat.add_sub_cancel_left, VOp.written,
      leBytes_getD hj, same]
  · rw [State.readByte_retryAll, State.readByte_modVat, bytes, if_neg (by rw [len]; omega)]
    exact State.readByte_modVat s ch _ b

end

end Sys2Proof.Machine
end

section
/-! PROOFS. Events at memory (O49): a slot operation that its vat takes and applies at once. -/

namespace Sys2Proof.Machine
open Sys2Proof.Claims

/-! ### An engine's operation that its vat takes and applies at once (log 13) -/

section
variable {s : State} {o : VOp} {n k ty : Nat} {x : DWord} {img : List Byte}

/-- Nothing at a vat's word stands in the way of an engine's operation. -/
structure AtOnceAt (s : State) (o : VOp) : Prop where
  space    : (s.vat (s.channel o.word)).queue.length < 64
  late     : ∀ y ∈ (s.vat (s.channel o.word)).input, y.late = false
  first    : firstOf ((s.vat (s.channel o.word)).input ++ [o]) (s.vat (s.channel o.word)).input.length o = true
  clear    : ∀ y ∈ (s.vat (s.channel o.word)).queue, y.word / 8 ≠ o.word / 8
  triggers : (s.vat (s.channel o.word)).triggers = []
  undebugged : (s.ctx o.ctx).debug = none

theorem gatePass_none {ch : Nat} (h : (s.ctx o.ctx).debug = none) : s.gatePass ch o = some s := by
  unfold State.gatePass Ctx.dbg
  rw [h]
  rfl
theorem logAccept_none {ch : Nat} (h : (s.ctx o.ctx).debug = none) : s.logAccept ch o = s := by
  unfold State.logAccept Ctx.dbg
  rw [h]
  rfl

/-- An engine's slot operation applied at once. -/
theorem engOp_slot (H : AtOnceAt s o) (ha : o.act = .slot n k ty x) (ht : s.tableAt (s.channel o.word) o.ctx o.tab = some img)
    (hp : slotPresent img n = true) (hk : slotKind img n ≠ 0) (hr : o.ret = none) (top : o.word < s.hbmTop) (hu : s.ue o.word o.width = false) :
    ∃ u, Stored s u (Memory.write s.mem o.word (o.written (slotKind img n) (slotType img n) x s)) ∧
      s.engOp o = (({ u with vats := (s.modVat (s.channel o.word) id).vats } : State)).modVat (s.channel o.word) id := by
  let ch := s.channel o.word
  let o' := s.arrive' ch o
  have act : o'.act = .slot n (slotKind img n) (slotType img n) x := by
    simp only [o', State.arrive', ch, ht, VOp.resolve, ha, hp, if_true]
  have kept : o'.word = o.word ∧ o'.w64 = o.w64 ∧ o'.ret = o.ret := by
    simp only [o', State.arrive', ch, ht, VOp.resolve, ha, hp, if_true, and_self]
  obtain ⟨word, w64, ret⟩ := kept
  have width : o'.width = o.width := by rw [VOp.width, VOp.width, w64]
  have full : ¬64 ≤ (s.vat ch).queue.length := Nat.not_le.2 H.space
  have late : (s.vat ch).input.any (·.late) = false := by
    rw [List.any_eq_false]
    exact fun y hy => by rw [H.late y hy]; exact Bool.false_ne_true
  have ahead : ((s.vat ch).queue.filter fun y => y.word / 8 == o.word / 8) = [] := by
    rw [List.filter_eq_nil_iff]
    exact fun y hy => by simpa using H.clear y hy
  have rest : ((s.vat ch).queue.filter fun y => y.word / 8 != o.word / 8) = (s.vat ch).queue := by
    rw [List.filter_eq_self]
    exact fun y hy => by simpa using H.clear y hy
  have stay : s.modVat ch (fun v => { v with queue := v.queue.filter fun y => y.word / 8 != o.word / 8 }) = s.modVat ch id := by
    refine State.modVat_congr ?_
    rw [rest]
    rfl
  have run : s.engOp o = (s.modVat ch id).applyOp ch o' := by
    unfold State.engOp State.vatNow
    simp only [full, decide_false, late, H.first, Bool.not_true, Bool.or_self, Bool.false_eq_true, if_false, gatePass_none H.undebugged,
      Option.map_some, Option.getD_some, logAccept_none H.undebugged, ahead, stay, List.nil_append, List.foldl_cons, List.foldl_nil, ch, o']
  have trig : ((s.modVat ch id).vat ch).triggers = [] := by rw [State.vat_modVat]; exact H.triggers
  obtain ⟨u, A, applied⟩ := applyOp_slot (s := s.modVat ch id) (ch := ch) act hk (by rw [ret, hr]) (by rw [word]; exact top)
    (by rw [word, width]; exact hu) trig
  have same : o'.written (slotKind img n) (slotType img n) x (s.modVat ch id) = o.written (slotKind img n) (slotType img n) x s := by
    unfold VOp.written wordAt
    simp only [State.readByte_modVat, word, width]
  rw [same, word] at A
  obtain ⟨c, nn, g, y, rfl⟩ := A
  exact ⟨_, ⟨c, nn, g, y, rfl⟩, run.trans applied⟩

/-- A vat put as it was holds no new operation. -/
theorem engSent_modVat {who : Who} (h : s.engSent who = false) (ch : Nat) : (s.modVat ch id).engSent who = false := by
  rw [← Bool.not_eq_true, engSent_iff] at h ⊢
  rintro ⟨v, hv, held⟩
  rcases Tab.mem_put hv with rfl | hv
  · have put : (s.vats.find ch).isSome := by
      obtain ⟨o, ho, -⟩ := held
      unfold State.vat Tab.get at ho
      cases hf : s.vats.find ch with
      | none => rw [hf] at ho; exact absurd ho List.not_mem_nil
      | some v => rfl
    obtain ⟨v, hf⟩ := Option.isSome_iff_exists.1 put
    have same : s.vat ch = v := by rw [State.vat, Tab.get, hf]; rfl
    rw [id, same] at held
    exact h ⟨_, Tab.mem_of_find hf, held⟩
  · exact h ⟨v, hv, held⟩
end

/-! ### `nmdot` (R234, R235) -/

section
variable {s : State} {n : Nm} {q : Quire} {px py : Nat → Nat} {pd k ty : Nat} {leaf : DWord} {img : List Byte}

/-- A walk does not read which bytes have errors. -/
theorem walkFrom_bad (die ctx va m tbl : Nat) : ({ s with bad := [] } : State).walkFrom die ctx va m tbl = s.walkFrom die ctx va m tbl := by
  induction m generalizing tbl with
  | zero => rfl
  | succ m ih =>
    unfold State.walkFrom
    simp only [ih]
    rfl
theorem engByte_bad {core ctx len pa : Nat} {v : DWord} {write : Bool} (h : s.engByte core ctx v len write = .ok (pa, leaf)) :
    ({ s with bad := [] } : State).engByte core ctx v len write = .ok (pa, leaf) := by
  have xlate : ({ s with bad := [] } : State).engXlate core ctx v = s.engXlate core ctx v := by
    unfold State.engXlate
    rw [show ({ s with bad := [] } : State).walk (dieOf core) ctx v = s.walk (dieOf core) ctx v from walkFrom_bad ..]
    rfl
  obtain ⟨canon, t, ok, allowed, -, hit⟩ := engByte_ok_iff.1 h
  exact engByte_ok_iff.2 ⟨canon, t, xlate.trans ok, allowed, rfl, hit⟩

end

end Sys2Proof.Machine
end

section
/-! PROOFS. Events at memory (O49): `nmdot` posts its sum to its word's slot operation. -/

namespace Sys2Proof.Machine
open Sys2Proof.Claims

/-! ### `nmdot` (R234, R235) -/

/-- The word that `nmdot` posts to is one of an algebra page, of which nothing waits at its vat. -/
structure PostAt (s : State) (n : Nm) (q : Quire) (pd : Nat) (leaf : DWord) (img : List Byte) : Prop where
  dst      : s.engByte q.core q.ctx n.dst 4 true = .ok (pd, leaf)
  algebra  : leaf.getLsbD 9 = true
  aligned  : pd % 4 = 0
  top      : pd + 4 ≤ s.hbmTop
  sound    : s.ue pd 4 = false
  plain    : (s.ctx q.ctx).debug = none
  table    : s.tableAt (s.channel pd) q.ctx (leaf.toNat / 2 ^ 10 % 4) = some img
  op       : n.op ≠ 0
  present  : slotPresent img n.op = true
  kind     : slotKind img n.op ≠ 0
  narrow   : ty64 (slotType img n.op) = false
  clear    : ∀ o ∈ (s.vat (s.channel pd)).queue, o.word / 8 ≠ pd / 8
  triggers : (s.vat (s.channel pd)).triggers = []
  space    : (s.vat (s.channel pd)).queue.length < 64
  late     : ∀ o ∈ (s.vat (s.channel pd)).input, o.late = false

theorem leafDTS_eq (leaf : DWord) : leafDTS leaf = leaf.toNat / 2 ^ 10 % 4 := by
  rw [leafDTS, BitVec.extractLsb'_toNat, Nat.shiftRight_eq_div_pow]

section
variable {s : State} {n : Nm} {q : Quire} {px py : Nat → Nat} {pd : Nat} {leaf : DWord} {img : List Byte}

/-- The post of `nmdot` at its vat. -/
def Nm.postOp (n : Nm) (s : State) (q : Quire) (pd : Nat) (leaf : DWord) (img : List Byte) (sum : Word) : VOp :=
  { s.engineOp (.op n.id) q.ctx (some n.ref) n.dst pd leaf (.slot n.op (slotKind img n.op) (slotType img n.op) (sum.setWidth 64)) with
    post := true }

/-- The elements of `nmdot` with the channel of their x. -/
def Nm.elements (n : Nm) (s : State) (px py : Nat → Nat) : List (Nat × Nat × Nat) :=
  (List.range n.len).map fun i => (s.channel (px i), (wordAt s (px i) n.e).toNat, (wordAt s (py i) n.e).toNat)

variable (D : PostAt s n q pd leaf img)
include D

theorem PostAt.dstErr : n.dstErr s q = none := by
  have alg : leafALG leaf = true := D.algebra
  have table := D.table
  rw [← leafDTS_eq] at table
  have op : (n.op == 0) = false := by simpa using D.op
  have kind : (slotKind img n.op == 0) = false := by simpa using D.kind
  unfold Nm.dstErr
  rw [engByte_bad D.dst]
  simp only [alg, table, D.present, op, kind, D.narrow, Bool.not_true, Bool.or_self, Bool.false_eq_true, if_false, ite_self]

theorem PostAt.worn (hd : n.dot = true) (hw : s.worn [pd] = none) : s.worn ((n.pas s q).2.map (·.1)) = none := by
  obtain ⟨t, xlate, at', -⟩ := engXlate_of_ok D.dst
  unfold Nm.pas
  simp only [hd, if_true, xlate, at', List.map_cons, List.map_nil]
  exact hw

theorem PostAt.perform (hd : n.dot = true) (X : Vector s n q n.x false px) (Y : Vector s n q n.y false py) :
    n.perform s q = s.engOp (n.postOp s q pd leaf img (dotSum n.bf (n.elements s px py))) := by
  obtain ⟨t, xlate, at', page⟩ := engXlate_of_ok D.dst
  have table := D.table
  rw [← leafDTS_eq] at table
  have els : ((List.range n.len).map fun i =>
      let x := n.at' n.x i
      let ch := match s.engByte q.core q.ctx x n.e false with | .ok p => s.channel p.1 | .error _ => 0
      (ch, n.val s q x, n.val s q (n.at' n.y i))) = n.elements s px py := by
    refine List.map_congr_left fun i hi => ?_
    have hi := List.mem_range.1 hi
    obtain ⟨_, ok, -⟩ := X i hi
    simp only [X.val hi, Y.val hi, ok]
  unfold Nm.perform
  simp only [hd, if_true, xlate, at', page, table, Option.getD_some]
  rw [← nmDotValue_eq, ← els]
  rfl

/-- Nothing is in the way of the post. -/
theorem PostAt.free (U : Unsent s (.op n.id)) (sum : Word) : AtOnceAt s (n.postOp s q pd leaf img sum) := by
  have word : (n.postOp s q pd leaf img sum).word = pd := by
    show pd / 4 * 4 = pd
    have := D.aligned
    omega
  have prior : (n.postOp s q pd leaf img sum).prior = [] := by
    refine List.filterMap_eq_nil_iff.2 fun x hx => ?_
    have behind := U.2.2 x hx
    cases ho : x.op with
    | none => simp
    | some k =>
      rw [ho] at behind
      simpa using behind rfl n.id rfl
  refine ⟨by rw [word]; exact D.space, by rw [word]; exact D.late, ?_, by rw [word]; exact D.clear, by rw [word]; exact D.triggers, D.plain⟩
  rw [word]
  unfold firstOf
  rw [List.take_left, List.all_eq_true]
  intro y hy
  have other : (y.eng == [Who.op n.id]) = false := by
    rw [beq_eq_false_iff_ne]
    intro eng
    have none : ∃ v ∈ s.vats, ∃ o ∈ v.2.input ++ v.2.queue, .op n.id ∈ o.eng := by
      cases hf : s.vats.find (s.channel pd) with
      | none =>
        rw [State.vat, Tab.get, hf] at hy
        exact absurd hy List.not_mem_nil
      | some v =>
        rw [State.vat, Tab.get, hf] at hy
        exact ⟨_, Tab.mem_of_find hf, y, List.mem_append_left _ hy, by rw [eng]; exact List.mem_singleton_self _⟩
    have sent := engSent_iff.2 none
    rw [Unsent.sent U] at sent
    cases sent
  have eng : (n.postOp s q pd leaf img sum).eng = [Who.op n.id] := rfl
  rw [prior, eng, other]
  simp

/-- `nmdot` posts the fixed tree of its channels' sums (R234). -/
theorem nm_dot {id : Nat} (hn : (s.nms.find? fun n => n.id = id) = some n) (hq : s.quires.find n.ref.h = some q) (res : q.phase = .resident)
    (hd : n.dot = true) (hk : s.rekeys = []) (U : Unsent s (.op id)) (hw : s.worn [pd] = none)
    (X : Vector s n q n.x false px) (Y : Vector s n q n.y false py) :
    Answers (exec (.nmComplete id) s) fun t =>
      (∀ j, j < 4 → t.readByte (pd + j) = nthByte (opValue (slotKind img n.op) (slotType img n.op) (wordAt s pd 4)
        ((dotSum n.bf (n.elements s px py)).setWidth 64)).toNat j) ∧
      (∀ b, b < s.hbmTop → b < pd ∨ pd + 4 ≤ b → t.readByte b = s.readByte b) ∧
      t.nms = s.nms.filter (fun y => y.id ≠ id) ∧ Filled s t n.ref.h n.pool := by
  obtain rfl := nm_id hn
  let sum := dotSum n.bf (n.elements s px py)
  have word : (n.postOp s q pd leaf img sum).word = pd := by
    show pd / 4 * 4 = pd
    have := D.aligned
    omega
  have table : s.tableAt (s.channel (n.postOp s q pd leaf img sum).word) q.ctx (leafDTS leaf) = some img := by
    rw [word, leafDTS_eq]
    exact D.table
  have top := D.top
  obtain ⟨u, A, sent⟩ := engOp_slot (PostAt.free D U sum) (x := sum.setWidth 64) rfl table D.present D.kind rfl
    (by rw [word]; omega) (by rw [word]; exact D.sound)
  rw [← PostAt.perform D hd X Y] at sent
  rw [word] at A
  have len : ((n.postOp s q pd leaf img sum).written (slotKind img n.op) (slotType img n.op) (sum.setWidth 64) s).length = 4 := leBytes_length _ _
  obtain ⟨quires, -, -, nms⟩ := A.kept
  have still : (n.perform s q).engSent (.op n.id) = false := by
    rw [sent]
    exact engSent_modVat (engSent_modVat (Unsent.sent U) _) _
  obtain ⟨t, run, bytes, gone, filled⟩ := nm_ends hn hq res hk U (Nm.errs_none X Y (fun h => absurd (h.symm.trans hd) (by decide)) (PostAt.dstErr D))
    (PostAt.worn D hd hw) still (by rw [sent]; exact quires) (by rw [sent]; exact nms) (by rw [sent]; exact A.hbmTop)
  have read (b : Nat) : (n.perform s q).readByte b = u.readByte b := by
    rw [sent, State.readByte_modVat]
    exact State.readByte_windows rfl rfl rfl rfl b
  refine ⟨t, run, fun j hj => ?_, fun b hb outside => ?_, gone, filled⟩
  · rw [bytes _ (by omega), read, A.readByte_word (by rw [len]; exact D.top), if_pos (by rw [len]; omega), Nat.add_sub_cancel_left]
    refine (leBytes_getD (n := 4) hj).trans ?_
    rw [word]
    rfl
  · rw [bytes b hb, read, A.readByte_word (by rw [len]; exact D.top), if_neg (by rw [len]; omega)]

end

end Sys2Proof.Machine
end

section
/-! PROOFS. Events at memory (O49): a vat's acceptance, with one relation step. -/

namespace Sys2Proof.Machine
open Sys2Proof.Claims

/-! ### Acceptance at a vat (R225) -/

section
variable {s : State} {ch pick : Nat} {o : VOp}

/-- The oldest operations of a vat's input may be accepted (R225, R226). -/
structure Acceptable (s : State) (ch pick : Nat) (o : VOp) : Prop where
  there : (s.vat ch).input[pick]? = some o
  space : (s.vat ch).queue.length < 64
  first : firstOf (s.vat ch).input pick o = true
  free  : o.gated = false
  turn  : o.late = true → ∀ x ∈ (s.vat ch).input.take pick, x.late = false

/-- What an acceptance makes of its vat, before the steps. -/
def Vat.accept (v : Vat) (pick : Nat) (o : VOp) : Vat := { v with input := v.input.eraseIdx pick, queue := v.queue ++ [o] }
/-- The vat after an acceptance and its steps. -/
def State.accepted (s : State) (ch pick : Nat) (steps : List VatStep) (o : VOp) : State :=
  (s.modVat ch (·.accept pick (s.arrive' ch o))).modVat ch fun v =>
    { v with queue := steps.foldl ((s.modVat ch (·.accept pick (s.arrive' ch o))).vatStep ch) v.queue }

theorem gatePass_free (h : o.gated = false) : s.gatePass ch o = some s := by
  unfold State.gatePass
  split
  · rfl
  · rw [h]
    rfl
theorem logAccept_free (h : o.gated = false) : s.logAccept ch o = s := by
  unfold State.logAccept
  split
  · rfl
  · rw [h]
    rfl

theorem exec_vatAccept (A : Acceptable s ch pick o) (steps : List VatStep) :
    exec (.vatAccept ch pick steps) s = .next (((s.accepted ch pick steps o).sweep.postAccepted o).retryAll) := by
  have full : ¬64 ≤ (s.vat ch).queue.length := Nat.not_le.2 A.space
  have turn : (o.late && !s.turnOf ch pick) = false := by
    cases hl : o.late
    · rfl
    · have all : s.turnOf ch pick = true := by
        unfold State.turnOf
        rw [List.all_eq_true]
        exact fun x hx => by rw [A.turn hl x hx]; rfl
      rw [all]
      rfl
  refine congrArg Host.Outcome.next ?_
  simp only [A.there, A.first, full, turn, gatePass_free A.free, logAccept_free A.free, Bool.true_eq_false, Bool.false_eq_true,
    if_false]
  rfl

theorem postAccepted_vats (s : State) (o : VOp) : (s.postAccepted o).vats = s.vats := by
  unfold State.postAccepted
  split
  · split <;> rfl
  · rfl
theorem State.readByte_modSheet (s : State) (r : SheetRef) (f : Sheet → Sheet) (a : Nat) : (s.modSheet r f).readByte a = s.readByte a :=
  State.readByte_windows (s := s) (t := s.modSheet r f) rfl rfl rfl (State.windows_modSheet s r f) a
theorem readByte_postAccepted (s : State) (o : VOp) (a : Nat) : (s.postAccepted o).readByte a = s.readByte a := by
  unfold State.postAccepted
  split
  · split
    · rfl
    · exact State.readByte_modSheet _ _ _ _
  · rfl
theorem readByte_sweep (s : State) (a : Nat) : s.sweep.readByte a = s.readByte a :=
  State.readByte_windows (s := s) (t := s.sweep) rfl rfl rfl rfl a

/-- A sheet of which a post has been accepted (R225, R241). -/
def posted (sh : Sheet) : Sheet :=
  let sh := { sh with posts := sh.posts - 1 }
  if sh.wait = .vdrain ∧ sh.posts = 0 then { sh with wait := .none } else sh

theorem sheet?_postAccepted {u : State} {r : SheetRef} {sh : Sheet} (hr : o.ref = some r) (hs : u.sheet? r = some sh) :
    (u.postAccepted o).sheet? r = some (if o.post ∧ o.eng = [] then posted sh else sh) := by
  have cond : (!o.post || !o.eng.isEmpty) = !decide (o.post ∧ o.eng = []) := by
    cases o.post <;> cases o.eng <;> simp
  unfold State.postAccepted
  rw [hr]
  simp only [cond]
  by_cases h : o.post ∧ o.eng = []
  · simp only [h, and_self, decide_true, Bool.not_true, Bool.false_eq_true, if_false, if_true]
    rw [State.sheet?_modSheet, hs]
    rfl
  · rw [if_neg h]
    simp only [h, decide_false, Bool.not_false, if_true, hs]

theorem State.sheet?_retryAll (s : State) (r : SheetRef) : s.retryAll.sheet? r = (s.sheet? r).map retried := by
  rw [State.sheet?, State.retryAll_eq, State.sheet?, Tab.find_mapv]
  cases s.quires.find r.h with
  | none => rfl
  | some q => exact Tab.find_mapv _ _ _

theorem retried_posts (sh : Sheet) : (retried sh).posts = sh.posts := by
  unfold retried
  split <;> rfl
theorem posted_posts (sh : Sheet) : (posted sh).posts = sh.posts - 1 := by
  unfold posted
  simp only
  split <;> rfl

/-- An operation accepted with no step (R225). -/
theorem vatAccept_accepts (A : Acceptable s ch pick o) :
    Answers (exec (.vatAccept ch pick []) s) fun t => (t.vat ch).input = (s.vat ch).input.eraseIdx pick ∧
      (t.vat ch).queue = (s.vat ch).queue ++ [s.arrive' ch o] ∧ (∀ a, t.readByte a = s.readByte a) ∧
      ∀ r sh, o.ref = some r → s.sheet? r = some sh → (t.sheet? r).map (·.posts) = some (if o.post ∧ o.eng = [] then sh.posts - 1 else sh.posts) ∧
        (o.post = true → o.eng = [] → sh.wait = .vdrain → (t.sheet? r).map (·.wait) = some (if sh.posts - 1 = 0 then .none else .vdrain)) := by
  have vat : ((((s.accepted ch pick [] o).sweep.postAccepted o).retryAll).vat ch) = (s.vat ch).accept pick (s.arrive' ch o) := by
    rw [State.vat, State.retryAll_eq]
    show Tab.get Vat.empty ((s.accepted ch pick [] o).sweep.postAccepted o).vats ch = _
    rw [postAccepted_vats]
    show (s.accepted ch pick [] o).vat ch = _
    rw [State.accepted, State.vat_modVat, State.vat_modVat]
    rfl
  refine ⟨_, exec_vatAccept A [], congrArg Vat.input vat, congrArg Vat.queue vat, fun a => ?_, fun r sh hr hs => ?_⟩
  · rw [State.readByte_retryAll, readByte_postAccepted, readByte_sweep, State.accepted, State.readByte_modVat, State.readByte_modVat]
  · have sheet := sheet?_postAccepted (u := (s.accepted ch pick [] o).sweep) hr hs
    rw [State.sheet?_retryAll, sheet]
    refine ⟨?_, fun hp he hw => ?_⟩
    · rw [Option.map_some, Option.map_some, retried_posts]
      split
      · rw [posted_posts]
      · rfl
    · rw [if_pos ⟨hp, he⟩]
      unfold posted
      simp only [hw, true_and]
      split
      · rfl
      · simp only [Option.map_some, retried]

/-! ### A relation step (R221) -/

/-- Two slot operations of one word that a step may involve, both under one content. -/
structure Adjacent (n kn tn m km tm : Nat) (a b : VOp) (x y : DWord) (img : List Byte) : Prop where
  act    : a.act = .slot n kn tn x
  act'   : b.act = .slot m km tm y
  kind   : kn ≠ 0
  kind'  : km ≠ 0
  ord    : a.ord = .rlx
  ord'   : b.ord = .rlx
  free   : a.gated = false
  free'  : b.gated = false
  ret    : a.ret = none
  ret'   : b.ret = none
  word   : a.word = b.word
  w64    : a.w64 = b.w64
  ctx    : a.ctx = b.ctx
  tab    : a.tab = b.tab
  epoch  : a.epoch = b.epoch
  there  : slotPresent img n = true
  there' : slotPresent img m = true

/-- What a relation step makes of two adjacent operations of slots `n` and `m` (R221). -/
def relResult (img : List Byte) (n m : Nat) (a b : VAct) (x y : DWord) : List VAct :=
  let entry := relEntry img n m
  let c := entry / 256 % 16
  match entry % 16 with
  | 1 => [b, a]
  | 2 => [.slot c (slotKind img c) (slotType img c) (combValue (entry / 16 % 16) (slotType img n) x y)]
  | 3 => [a]
  | 4 => [b]
  | 5 => if cancels (entry.testBit 13) (slotType img n) x y then [] else [a, b]
  | _ => [a, b]

/-- A width that agrees with the slot's TYPE takes its operands by that TYPE. -/
theorem opType_eq {t : Nat} {w64 : Bool} (h : ty64 t = w64) : opType t w64 = t := by
  unfold opType
  split
  · rename_i small
    subst h
    revert small
    revert t
    decide
  · rfl
theorem narrow_of_ty64 {t : Nat} {w64 : Bool} (h : ty64 t = w64) : (w64 && decide (4 ≤ t)) = false := by
  subst h
  unfold ty64
  cases h : decide (4 ≤ t)
  · simp
  · have := of_decide_eq_true h
    simp
    omega

variable {n kn tn m km tm : Nat} {a b : VOp} {x y : DWord} {img : List Byte}

/-- What a relation step makes of a queue of two operations. -/
def relQueue (img : List Byte) (a b : VOp) : List VOp :=
  match relStep img a b with
  | some r => putStep [a, b] 0 1 r
  | none => [a, b]

theorem relQueue_acts (A : Adjacent n kn tn m km tm a b x y img) (hn : ty64 (slotType img n) = b.w64)
    (hc : ty64 (slotType img (relEntry img n m / 256 % 16)) = b.w64) :
    (relQueue img a b).map (·.act) = relResult img n m a.act b.act x y := by
  obtain ⟨act, act', kind, kind', ord, ord', free, free', ret, ret', -, w64, -, -, -, there, there'⟩ := A
  have returns : a.returns = false := by simp [VOp.returns, act, ret, kind]
  have returns' : b.returns = false := by simp [VOp.returns, act', ret', kind']
  have may : a.free = true := by simp [VOp.free, act, ord, free, VOp.slotNo]
  have may' : b.free = true := by simp [VOp.free, act', ord', free', VOp.slotNo]
  have slot : a.slotNo = some n := by rw [VOp.slotNo, act]
  have slot' : b.slotNo = some m := by rw [VOp.slotNo, act']
  have opnd : a.operand = x := by rw [VOp.operand, act]
  have opnd' : b.operand = y := by rw [VOp.operand, act']
  have cp : entCp (relEntry img n m) = (relEntry img n m).testBit 13 := by
    rw [entCp, Nat.testBit_eq_decide_div_mod_eq]
    rfl
  have rel : entRel (relEntry img n m) = relEntry img n m % 16 := rfl
  unfold relQueue relStep relResult
  simp only [slot, slot', there, there', may, may', returns, returns', w64, opType_eq hn, opType_eq hc, narrow_of_ty64 hn, cp, opnd, opnd', rel,
    entComb, entCslot, Bool.and_self, Bool.not_true, Bool.not_false, Bool.or_self, Bool.false_eq_true, Bool.false_and, Bool.true_and, if_false, if_true]
  generalize relEntry img n m % 16 = rule
  match rule with
  | 0 | 1 | 2 | 3 | 4 => rfl
  | 5 =>
    cases cancels ((relEntry img n m).testBit 13) (slotType img n) x y
    · rfl
    · rfl
  | _ + 6 => rfl

theorem vatStep_relation (A : Adjacent n kn tn m km tm a b x y img) (rules : s.governs ch a = some img) :
    s.vatStep ch [a, b] (.relation 0) = relQueue img a b := by
  have meets : a.meets b = true := by simp [VOp.meets, A.word]
  have next : ((List.range [a, b].length).filter fun j => 0 < j).find? (fun j => ([a, b][j]?).any a.meets) = some 1 := by
    show List.find? _ [1] = _
    simp [meets]
  unfold State.vatStep
  simp only [List.getElem?_cons_zero, next, List.getElem?_cons_succ, rules, A.word, A.w64, A.ctx, A.tab, A.epoch, and_self, if_true]
  rfl

theorem VOp.resolve_eq (o : VOp) (img : Option (List Byte)) : ∃ act, o.resolve img = { o with act } := by
  unfold VOp.resolve
  split
  · split <;> exact ⟨_, rfl⟩
  · exact ⟨_, rfl⟩
  · exact ⟨_, rfl⟩
  · exact ⟨o.act, rfl⟩
/-- An operation accepted keeps all but its act and epoch. -/
theorem arrive'_eq (s : State) (ch : Nat) (o : VOp) : ∃ act, s.arrive' ch o = { o with act, epoch := s.epochAt ch o.ctx o.tab } := by
  obtain ⟨act, eq⟩ := o.resolve_eq (s.tableAt ch o.ctx o.tab)
  exact ⟨act, by rw [State.arrive', eq]⟩

/-- An acceptance with a relation step on the one operation before it (R221, R225). -/
theorem vatAccept_relation (A : Acceptable s ch pick o) (hq : (s.vat ch).queue = [a])
    (J : Adjacent n kn tn m km tm a (s.arrive' ch o) x y img)
    (rules : s.governs ch a = some img) (hn : ty64 (slotType img n) = (s.arrive' ch o).w64)
    (hc : ty64 (slotType img (relEntry img n m / 256 % 16)) = (s.arrive' ch o).w64) :
    Answers (exec (.vatAccept ch pick [.relation 0]) s) fun t =>
      (t.vat ch).queue.map (·.act) = relResult img n m a.act (s.arrive' ch o).act x y := by
  refine ⟨_, exec_vatAccept A _, ?_⟩
  have queue : ((((s.accepted ch pick [.relation 0] o).sweep.postAccepted o).retryAll).vat ch).queue = relQueue img a (s.arrive' ch o) := by
    rw [State.vat, State.retryAll_eq]
    show (Tab.get Vat.empty ((s.accepted ch pick [.relation 0] o).sweep.postAccepted o).vats ch).queue = _
    rw [postAccepted_vats]
    show ((s.accepted ch pick [.relation 0] o).vat ch).queue = _
    rw [State.accepted, State.vat_modVat, State.vat_modVat]
    show State.vatStep _ ch ((s.vat ch).queue ++ [s.arrive' ch o]) (.relation 0) = _
    rw [hq]
    exact vatStep_relation J rules
  exact (congrArg (List.map fun o : VOp => o.act) queue).trans (relQueue_acts J hn hc)

end

end Sys2Proof.Machine
end

section
/-! PROOFS. Events at memory (O49): table installations, and gates that open by time. -/

namespace Sys2Proof.Machine
open Sys2Proof.Claims

/-! ### Table installations (R236) -/

section
variable {s : State} {id ch : Nat} {x : Install} {c : Ctx}

/-- What the last vat's answer makes of the context of an installation. -/
def Install.place (x : Install) (c : Ctx) : Ctx :=
  { c with tables := match x.image with | some t => c.tables.put x.slot t | none => c.tables.del x.slot,
           loads := c.loads.set 0 x.slot (c.loads.get 0 x.slot + 1) }

theorem Install.place_find (x : Install) (c : Ctx) : (x.place c).tables.find x.slot = x.image := by
  unfold Install.place
  cases x.image with
  | none => simp
  | some t => simp

theorem Install.place_loads (x : Install) (c : Ctx) : (x.place c).loads.get 0 x.slot = c.loads.get 0 x.slot + 1 := by
  simp [Install.place]

/-- An installation of a slot that no other is under way for reaches a vat. -/
theorem exec_tableInstall (hx : (s.installs.find? fun x => x.id = id) = some x) (hch : ch < 256) (new : ch ∉ x.done)
    (alone : ∀ y ∈ s.installs, y.id ≠ id → y.ctx ≠ x.ctx ∨ y.slot ≠ x.slot) :
    exec (.tableInstall id ch) s = .next (
      if x.done.length < 255 then { s with installs := s.installs.map fun y => if y.id = id then { y with done := ch :: y.done } else y }
      else
        (({ s with installs := s.installs.filter (·.id != id) } : State).modCtx x.ctx x.place).modSheet x.ref fun sh =>
          if sh.wait = .dkload id then { sh with wait := .none } else sh) := by
  have found : s.installs.find? (·.id == id) = some x := by
    simpa only [beq_iff_eq, Bool.beq_eq_decide_eq, decide_eq_true_eq] using hx
  have first : ((s.installs.takeWhile fun y => y.id != id).filter fun y => y.ctx == x.ctx && y.slot == x.slot) = [] := by
    rw [List.filter_eq_nil_iff]
    intro y hy
    have other : y.id ≠ id := by simpa using List.mem_takeWhile_imp hy
    rcases alone y ((List.takeWhile_sublist _).subset hy) other with h | h
    · simp [h]
    · simp [h]
  refine congrArg Host.Outcome.next ?_
  have blocked : ¬(256 ≤ ch ∨ x.done.contains ch = true ∨ ([] : List Install).any (fun y => !y.done.contains ch) = true) := by
    simp only [List.any_nil, List.contains_iff_mem, Bool.false_eq_true, or_false, not_or, Nat.not_le]
    exact ⟨hch, new⟩
  simp only [found, first, blocked, if_false]
  rfl

theorem tableInstall_reaches (hx : (s.installs.find? fun x => x.id = id) = some x) (hch : ch < 256) (new : ch ∉ x.done)
    (alone : ∀ y ∈ s.installs, y.id ≠ id → y.ctx ≠ x.ctx ∨ y.slot ≠ x.slot) (more : x.done.length < 255) :
    Answers (exec (.tableInstall id ch) s) fun t => t.ctxs = s.ctxs ∧ (t.installs.find? fun x => x.id = id).map (·.done) = some (ch :: x.done) := by
  refine ⟨_, exec_tableInstall hx hch new alone, ?_⟩
  rw [if_pos more]
  refine ⟨rfl, ?_⟩
  have kept : (fun x : Install => decide (x.id = id)) ∘ (fun y : Install => if y.id = id then { y with done := ch :: y.done } else y) =
      fun x => decide (x.id = id) := by
    funext y
    simp only [Function.comp_apply]
    split <;> rfl
  have hid : x.id = id := by simpa using List.find?_some hx
  rw [List.find?_map, kept, hx, Option.map_some, Option.map_some, if_pos hid]

theorem tableInstall_ends (hx : (s.installs.find? fun x => x.id = id) = some x) (hch : ch < 256) (new : ch ∉ x.done)
    (alone : ∀ y ∈ s.installs, y.id ≠ id → y.ctx ≠ x.ctx ∨ y.slot ≠ x.slot) (hc : s.ctxs.find x.ctx = some c) (last : x.done.length = 255) :
    Answers (exec (.tableInstall id ch) s) fun t => (t.ctx x.ctx).tables.find x.slot = x.image ∧
      (t.ctx x.ctx).loads.get 0 x.slot = c.loads.get 0 x.slot + 1 ∧ t.installs = s.installs.filter (fun y => y.id ≠ id) ∧
      ∀ sh, s.sheet? x.ref = some sh → sh.wait = .dkload id → (t.sheet? x.ref).map (·.wait) = some .none := by
  refine ⟨_, exec_tableInstall hx hch new alone, ?_⟩
  rw [if_neg (by omega)]
  have ctx (u : State) (hu : u.ctxs = s.ctxs.upd x.ctx x.place) : u.ctx x.ctx = x.place c := by
    rw [State.ctx, Tab.get, hu, Tab.find_upd_self, hc]
    rfl
  refine ⟨?_, ?_, filter_ne Install.id id s.installs, fun sh hs hw => ?_⟩
  · rw [ctx _ rfl, x.place_find]
  · rw [ctx _ rfl, x.place_loads]
  · rw [State.sheet?_modSheet]
    show ((s.sheet? x.ref).map _).map _ = _
    rw [hs, Option.map_some, Option.map_some, if_pos hw]

/-! ### Order gates (R341) -/

/-- A gate that no waiting operation matches opens by time. -/
theorem gateTimeout_opens {since : Nat} {g : Gate} {d : Debug} (hv : (s.vat ch).gates = [g]) (shut : g.opened = false) (hs : g.since = some since)
    (late : since + 1000000 ≤ s.now / 720720) (hd : c.debug = some d) (hr : d.replay = true) (entry : g.pos < (s.logRuns d ch).length)
    (hc : s.ctxs.find g.ctx = some c) (wait : ∀ x ∈ (s.vat ch).input, x.gated = true → x.ctx = g.ctx → s.gatePass ch x = none) :
    Answers (exec (.gateTimeout ch) s) fun t => (t.vat ch).gates = [{ g with opened := true }] ∧ (t.ctx g.ctx).diverged = true ∧
      (t.vat ch).input = (s.vat ch).input := by
  have ctx : s.ctx g.ctx = c := by rw [State.ctx, Tab.get, hc]; rfl
  have log : s.gateEntry ch g = true := by
    have replay : c.dbg (·.replay) = some d := by rw [Ctx.dbg, hd, Option.filter_some, hr, if_pos rfl]
    rw [State.gateEntry, ctx, replay, Option.any_some, List.getElem?_eq_getElem entry]
    rfl
  have none : s.atHead ch g.ctx = false := by
    unfold State.atHead
    rw [List.any_eq_false]
    intro o ho
    cases hg : o.gated
    · simp
    · by_cases hx : o.ctx = g.ctx
      · simp [wait o ho hg hx]
      · simp [hx]
  have due : g.since.any (fun t => t + 1000000 ≤ s.reft) = true := by
    rw [hs, Option.any_some, decide_eq_true_eq]
    exact late
  have run : exec (.gateTimeout ch) s = .next (((s.modVat ch fun v => v.putGate { g with opened := true }).diverge g.ctx).retryAll) := by
    refine congrArg Host.Outcome.next ?_
    simp only [hv, List.find?_cons, shut, due, log, none, Bool.not_false, Bool.and_self]
  have vat : (((s.modVat ch fun v => v.putGate { g with opened := true }).diverge g.ctx).retryAll).vat ch =
      (s.vat ch).putGate { g with opened := true } := by
    rw [State.vat, State.retryAll_eq]
    exact State.vat_modVat s ch fun v => v.putGate { g with opened := true }
  refine ⟨_, run, ?_, ?_, by rw [vat]; rfl⟩
  · rw [vat, Vat.putGate, hv]
    simp
  · show ((State.diverge _ g.ctx).ctx g.ctx).diverged = true
    rw [State.diverge, State.modCtx, State.ctx, Tab.get, Tab.find_upd_self, show (State.modVat _ _ _).ctxs = s.ctxs from rfl, hc]
    rfl

end

end Sys2Proof.Machine
end

section
/-! PROOFS. Events at memory (O49): the statement. -/

namespace Sys2Proof.Machine
open Sys2Proof.Claims

/-! ### The statement -/

/-- An operation governed by the content of this moment (R236). -/
theorem governs_current {s : State} {ch : Nat} {o : VOp} {img : List Byte} (he : s.epochAt ch o.ctx o.tab = o.epoch)
    (hi : s.tableAt ch o.ctx o.tab = some img) : s.governs ch o = some img := by
  rw [State.governs, if_pos he, hi]

/-- The acceptance clause: an operation that may be accepted is, and one relation step acts on the one before it (R221, R225). -/
theorem vatAccept_relates {s : State} {ch pick : Nat} {o : VOp} (A : Acceptable s ch pick o) {a : VOp} {img : List Byte} {n m kn tn km tm : Nat}
    {x y : DWord} (hq : (s.vat ch).queue = [a]) (J : Adjacent n kn tn m km tm a (s.arrive' ch o) x y img) (hi : s.tableAt ch o.ctx o.tab = some img)
    (hn : ty64 (slotType img n) = o.w64) (hc : ty64 (slotType img (relEntry img n m / 256 % 16)) = o.w64) :
    Answers (exec (.vatAccept ch pick [.relation 0]) s) fun t => (t.vat ch).queue.map (·.act) = relResult img n m a.act (s.arrive' ch o).act x y := by
  obtain ⟨act, eq⟩ := arrive'_eq s ch o
  have ctx : a.ctx = o.ctx := by rw [J.ctx, eq]
  have tab : a.tab = o.tab := by rw [J.tab, eq]
  refine vatAccept_relation A hq J (governs_current ?_ (by rw [ctx, tab]; exact hi)) (by rw [eq]; exact hn) (by rw [eq]; exact hc)
  rw [ctx, tab, J.epoch, eq]

/-- Settles O49: each step's clause is one lemma above. -/
theorem memoryEvents : Obligations.MemoryEvents := by
  intro s
  refine ⟨fun core ctx strand va fetch x r q sh hq hs hc hx hr hk hw found hits => walk_fills hq hs hc hx hr hk hw found hits,
    fun core ctx strand va fetch r sh hw hk hs found room => walk_parks hw hk hs found room,
    fun die ctx strand pa va a x fetch r sh hs hw hf page idle top hk worn => pagerRepair_repairs hs hw hf page idle top hk worn,
    fun die ctx strand va a fetch access r q sh hq hs hr hw hp ht hv hf => pagerFatal_traps hq hs hr hw hp ht hv hf,
    fun i id pa c q found hi hq res U hc hb hd hr top hk hw row => PlainRow.ends hd row found hi hq res U hc hb hr top hk hw,
    fun id n q hn hq hd hl res hk U => nm_empty hn hq hd hl res hk U, ?_, ?_, ?_, ?_, ?_, ?_⟩
  · intro id n q px py hn hq res hk U width reads old X Y
    refine ⟨fun hd W hw top separate => nm_axpy hd X Y W hn hq res hk U hw top separate, ?_⟩
    intro pd k ty leaf img hd dst algebra aligned top sound worn plain table op present hkind htype kind narrow clear triggers space late
    subst hkind htype
    have D : PostAt s n q pd leaf img :=
      { dst, algebra, aligned, top, sound, plain, table, op, present, kind, narrow, clear, triggers, space, late }
    exact nm_dot D hn hq res hd hk U worn X Y
  · intro ch pick o v there space first free turn arrived
    have A : Acceptable s ch pick o := { there, space, first, free, turn }
    refine ⟨vatAccept_accepts A, ?_⟩
    intro a img n m kn tn km tm x y hq act act' kind kind' ord ord' agated ret ret' word w64 ctx tab epoch table here there' entry c hn hc
    obtain ⟨_, eq⟩ := arrive'_eq s ch o
    have J : Adjacent n kn tn m km tm a (s.arrive' ch o) x y img :=
      { act, act', kind, kind', ord, ord' := by rw [eq]; exact ord', free := agated, free' := by rw [eq]; exact free, ret,
        ret' := by rw [eq]; exact ret', word := by rw [eq]; exact word, w64 := by rw [eq]; exact w64, ctx := by rw [eq]; exact ctx,
        tab := by rw [eq]; exact tab, epoch, there := here, there' }
    exact vatAccept_relates A hq J table hn hc
  · intro ch n k ty o rest x hq ha hk hr w top hu hrk hw ht
    exact vatApply_applies hq ha hk hr top hu hrk hw ht
  · intro id ch x c hx hch new alone hc
    exact ⟨tableInstall_reaches hx hch new alone, tableInstall_ends hx hch new alone hc⟩
  · intro ch since g d c hv shut hs late hd hr entry hc wait
    exact gateTimeout_opens hv shut hs late hd hr entry hc wait
  · intro i id f q hf res sent
    refine ⟨fun c hc hi hq => copy_fin hf res hc hi hq, fun n hn hi hq => ?_⟩
    subst hi
    exact nm_fin hf res hn hq

end Sys2Proof.Machine
end

section
/-! SUPPORT. Words that write EXM, whose effect does not look at the marks of R59, and transfers that pass the checks of their
target (R56, R185, R199). -/

namespace Sys2Proof.Machine

open Sys2Proof.Claims

/-! ### Changes up to the marks of R59 -/

/-- A change of a sheet that neither looks at its outstanding words nor changes them. -/
def IgnoresMarks (f : Sheet → Sheet) : Prop := ∀ (sh : Sheet) (lls : List LL), f { sh with lls } = { f sh with lls }

theorem IgnoresMarks.lls {f : Sheet → Sheet} (I : IgnoresMarks f) (sh : Sheet) : (f sh).lls = sh.lls := by
  have h := congrArg Sheet.lls (I sh sh.lls)
  exact h
theorem IgnoresMarks.comp {f g : Sheet → Sheet} (I : IgnoresMarks f) (J : IgnoresMarks g) : IgnoresMarks (f ∘ g) := fun sh lls => by
  rw [Function.comp, J, I, Function.comp]

theorem IgnoresMarks.marked_apart {f : Sheet → Sheet} (I : IgnoresMarks f) (sh : Sheet) : (f sh.marked).apart = (f sh).apart := by
  rw [show f sh.marked = { f sh with lls := sh.marked.lls } from I sh _]
  simp only [Sheet.apart, sh.marked_unmarked, I.lls]
theorem IgnoresMarks.marked_raw {f : Sheet → Sheet} (I : IgnoresMarks f) (sh : Sheet) (key : RegKey) :
    (f sh.marked).raw key = (f sh).raw key := by
  rw [show f sh.marked = { f sh with lls := sh.marked.lls } from I sh _]
  exact raw_congr rfl rfl rfl rfl key

/-- Of what a word does to its sheet only the outcome counts, the marks of R59 apart. -/
theorem Changes.congr_apart {s t : State} {e : Env} {ws : List (RegKey × Word)} {f g : Sheet → Sheet} (C : Changes s t e ws f)
    (ha : (f e.sh).apart = (g e.sh).apart) (hr : ∀ key, (f e.sh).raw key = (g e.sh).raw key) : Changes s t e ws g :=
  ⟨C.module, C.cores, C.quires, by simpa only [ha, hr] using C.quire, C.memory⟩
theorem Changes.congr {s t : State} {e : Env} {ws : List (RegKey × Word)} {f g : Sheet → Sheet} (C : Changes s t e ws f)
    (h : f e.sh = g e.sh) : Changes s t e ws g := C.congr_apart (by rw [h]) fun key => by rw [h]

theorem Jumps.congr {s t : State} {e : Env} {a : DWord} {ws : List (RegKey × Word)} {f g : Sheet → Sheet} (J : Jumps s t e a ws f)
    (h : f e.sh = g e.sh) : Jumps s t e a ws g := ⟨J.1.congr (by rw [h]), J.2⟩

/-- A word that writes EXM and goes on (R189). -/
theorem acts_setExm {s : State} {e : Env} (L : Live s e) {f : Sheet → Sheet} (I : IgnoresMarks f) :
    Acts s ((s.setExm e.r f).advance e) e [] f 0 := by
  obtain ⟨C, hn, hs, hc⟩ := acts_sheet L fun sh => f sh.marked
  have S := Steady.advance (s.cycles e.q.core)
  have same := S.apart _ _ (I.marked_apart e.sh)
  refine ⟨C.congr_apart same fun key => ?_, hn, hs, ?_⟩
  · rw [S.raw, S.raw, I.marked_raw]
  · rw [show ((f e.sh).advance (s.cycles e.q.core)).idx = _ from (congrArg Sheet.idx same).symm]
    exact hc
/-- A word that writes EXM and transfers (R197). -/
theorem jumps_setExm {s : State} {e : Env} (L : Live s e) {f : Sheet → Sheet} (I : IgnoresMarks f) (a : DWord) :
    Jumps s ((s.setExm e.r f).goto e a) e a [] f := by
  obtain ⟨C, rest⟩ := jumps_sheet L (fun sh => f sh.marked) a
  have S := Steady.jump a (s.cycles e.q.core)
  refine ⟨C.congr_apart (S.apart _ _ (I.marked_apart e.sh)) fun key => ?_, rest⟩
  rw [S.raw, S.raw, I.marked_raw]

/-! ### Transfers -/

/-- A header that can be fetched passes the checks of R56 on a transfer's target. -/
theorem target_ok {s : State} {e : Env} {a h : DWord} (T : TargetAt s e a h) : s.target e.r e.q.core e.q.ctx a = .ok :=
  edgeTarget_ok (s := s.refetch e.r) T

/-- A target within the innermost of the levels that remain open does not escape it (R199). -/
theorem not_escapes {e : Env} {ldep : Nat} {a : DWord} (W : Within e ldep a) : e.sh.escapes ldep a = false := by
  rcases W with rfl | ⟨lo, hi⟩
  · rfl
  · simp only [Sheet.escapes, decide_eq_false (BitVec.not_lt.2 lo), decide_eq_false (BitVec.not_lt.2 hi), Bool.or_self, Bool.and_false]

/-- A transfer whose target passes its checks takes place (R184, R185). -/
theorem transferEff_taken {s : State} {e : Env} {a h : DWord} {ldep : Nat} {esc : Bool} (eff : State → State) (T : TargetAt s e a h)
    (W : esc = true → Within e ldep a) : transferEff e s a esc ldep eff = .placed ((eff s).goto e a) := by
  have inside : (esc && e.sh.escapes ldep a) = false := by
    cases esc with
    | false => rfl
    | true => exact not_escapes (W rfl)
  rw [transferEff, inside, target_ok T]
  rfl

/-- A word that does nothing but transfer, to a target that passes its checks (R186). -/
theorem transfer_jumps {s : State} {e : Env} {a h : DWord} (L : Live s e) (T : TargetAt s e a h) (W : Within e e.sh.ldep a) :
    Jumps s ((transferEff e s a true e.sh.ldep id).finish e) e a [] id := by
  rw [transferEff_taken id T fun _ => W]
  exact jumps_none L a

end Sys2Proof.Machine
end

section
/-! PROOFS. Branches (O20) and calls and returns (O21): when a branch is taken, and what a link holds. -/

namespace Sys2Proof.Machine

open Sys2Proof.Claims

/-! ### Conditions (R186) -/

/-- The conditions of `brc` that R186 lists. -/
theorem brcHolds_eq {cc : Nat} (h : cc < 6) (x : Word) : brcHolds cc x.toInt = brcTaken cc x := by
  have v : val .i32 (x.setWidth 64) = x.toInt := by
    rw [val_i32, loWord, BitVec.setWidth_setWidth_of_le _ (by decide), BitVec.setWidth_eq]
  unfold brcTaken brcHolds
  rw [v]
  interval_cases cc <;> simp [beq_eq_decide, bne]
/-- The conditions of `brm` (R186). -/
theorem brmHolds_eq {mode : Nat} (h : mode < 4) (m exm : Mask) : brmHolds mode m exm = brmTaken mode m exm := by
  unfold brmTaken brmHolds
  interval_cases mode <;> simp [beq_eq_decide, bne]

theorem Wf.brc_cond {w : FC} (h : (Instr.brc w).wf = true) : w.mod.toNat ≤ 5 := by
  simp only [Instr.wf, Bool.and_eq_true, decide_eq_true_eq] at h
  exact h.2

/-- What `brc` does: its transfer, or nothing (R186). -/
theorem exec_brc {s : State} {e : Env} (L : Live s e) {w : FC} (hw : (Instr.brc w).wf = true) :
    exec (.brc w) s = .next (Eff.finish e (if brcTaken (w.mod.toNat % 8) (e.u w.a.toNat) then
      transferEff e s (e.disp w.disp) true e.sh.ldep id else .done s)) := by
  have cc := Wf.brc_cond hw
  refine (issue_plain L _).trans ?_
  rw [← brcHolds_eq (by omega), BitVec.extractLsb'_toNat, Nat.shiftRight_zero]
/-- What `brm` does: its transfer, or nothing (R186). -/
theorem exec_brm {s : State} {e : Env} (L : Live s e) (w : FC) :
    exec (.brm w) s = .next (Eff.finish e (if brmTaken (w.mod.toNat % 4) (e.sh.k.get 0 w.a.toNat &&& e.sh.exm) e.sh.exm then
      transferEff e s (e.disp w.disp) true e.sh.ldep id else .done s)) := by
  refine (issue_plain L _).trans ?_
  rw [← brmHolds_eq (by omega), BitVec.extractLsb'_toNat, Nat.shiftRight_zero]

/-- Settles O20: `transfer_jumps` for the branches that are taken; `exec_brc` and `exec_brm` say which are. -/
theorem branches : Obligations.Branches := by
  intro s e L
  refine ⟨fun a h T W => ⟨?_, ?_, ?_, ?_⟩, fun w hw cond => ⟨_, exec_brc L hw, ?_⟩, fun w cond => ⟨_, exec_brm L w, ?_⟩⟩
  · rintro w rfl
    exact ⟨_, issue_plain L _, transfer_jumps L T W⟩
  · rintro w rfl hw cond
    refine ⟨_, exec_brc L hw, ?_⟩
    rw [if_pos cond]
    exact transfer_jumps L T W
  · rintro w rfl cond
    refine ⟨_, exec_brm L w, ?_⟩
    rw [if_pos cond]
    exact transfer_jumps L T W
  · rintro w rfl
    exact ⟨_, issue_plain L _, transfer_jumps L T W⟩
  · rw [cond]
    exact acts_none L
  · rw [cond]
    exact acts_none L

/-! ### Links (R187) -/

/-- Bits 3 to 55 of an address. -/
theorem toNat_linkAddr (a : DWord) : (a &&& 0xFFFFFFFFFFFFF8).toNat = a.toNat % 2 ^ 56 / 8 * 8 := by
  have mask : (0xFFFFFFFFFFFFF8 : DWord).toNat = (2 ^ 53 - 1) <<< 3 := by decide
  rw [BitVec.toNat_and, mask, show a.toNat % 2 ^ 56 / 8 * 8 = ((a.toNat % 2 ^ 56) >>> 3) <<< 3 by
    rw [Nat.shiftLeft_eq, Nat.shiftRight_eq_div_pow]]
  apply Nat.eq_of_testBit_eq
  intro i
  simp only [Nat.testBit_and, Nat.testBit_shiftLeft, Nat.testBit_shiftRight, Nat.testBit_mod_two_pow, Nat.testBit_two_pow_sub_one]
  by_cases low : 3 ≤ i
  · have high : i - 3 < 53 ↔ 3 + (i - 3) < 56 := by omega
    simp [low, high, Nat.add_sub_cancel' low, Bool.and_comm]
  · simp [low]

/-- FBASE, a word address and LDEP do not overlap in a link (R187). -/
theorem linkFields_or (f k l : Nat) (hk : k < 2 ^ 53) (hl : l < 8) : (2 ^ 56 * f + l) ||| k * 8 = 2 ^ 56 * f + k * 8 + l := by
  have low : k * 8 + l = k * 8 ||| l := by
    rw [Nat.mul_comm]
    exact Nat.two_pow_add_eq_or_of_lt (i := 3) hl k
  calc (2 ^ 56 * f + l) ||| k * 8 = (2 ^ 56 * f ||| l) ||| k * 8 := by rw [Nat.two_pow_add_eq_or_of_lt (by omega)]
    _ = 2 ^ 56 * f ||| (k * 8 + l) := by rw [low, Nat.or_assoc, Nat.or_comm l]
    _ = 2 ^ 56 * f + k * 8 + l := by rw [← Nat.two_pow_add_eq_or_of_lt (by omega), Nat.add_assoc]

/-- The link is the address after the clause, with FBASE above it and LDEP below (R187). -/
theorem link_eq (e : Env) : e.sh.link = linkOf e := by
  apply BitVec.eq_of_toNat_eq
  have hf : e.sh.fbase % 8 < 8 := Nat.mod_lt _ (by decide)
  have hl : e.sh.ldep % 8 < 8 := Nat.mod_lt _ (by decide)
  have hk : (nextHeader e).toNat % 2 ^ 56 / 8 < 2 ^ 53 := by omega
  rw [Sheet.link, after_eq_nextHeader, linkOf, BitVec.toNat_or, toNat_linkAddr, BitVec.toNat_ofNat, BitVec.toNat_ofNat]
  generalize e.sh.fbase % 8 = f at hf ⊢
  generalize e.sh.ldep % 8 = l at hl ⊢
  generalize (nextHeader e).toNat % 2 ^ 56 / 8 = k at hk ⊢
  rw [Nat.mod_eq_of_lt (a := 2 ^ 56 * f + l) (by omega), linkFields_or f k l hk hl, Nat.mod_eq_of_lt (by omega)]

/-- What a call leaves of the frame (R190). -/
theorem Steady.frame : Steady fun sh => { sh with fbase := sh.fbase + sh.ldep, ldep := 0 } :=
  ⟨fun _ _ h => congrArg (fun sh : Sheet => { sh with fbase := sh.fbase + sh.ldep, ldep := 0 }) h,
    fun _ key => raw_congr rfl rfl rfl rfl key⟩

/-- `call` to a header that can be fetched (R187). -/
theorem call_jumps {s : State} {e : Env} {h : DWord} (L : Live s e) (w : FC) (T : TargetAt s e (e.disp w.disp) h) :
    Answers (exec (.call w) s) fun t => Jumps s t e (e.disp w.disp)
      [(.s w.a.toNat, (linkOf e).setWidth 32), (.s (w.a.toNat + 1), (linkOf e >>> 32).setWidth 32)]
      fun sh => { sh with fbase := sh.fbase + sh.ldep, ldep := 0 } := by
  refine ⟨_, issue_plain L _, ?_⟩
  rw [transferEff_taken _ T fun h => absurd h Bool.false_ne_true, link_eq]
  refine jumps_regs_sheet L _ (fun x hx => ?_) Steady.frame _
  rcases List.mem_pair.1 hx with rfl | rfl <;> trivial

/-- The address that a link holds (R188). -/
theorem linkAddr_eq (l : DWord) : l &&& 0xFFFFFFFFFFFFF8 = BitVec.ofNat 64 (l.toNat % 2 ^ 56 / 8 * 8) := by
  rw [← toNat_linkAddr, BitVec.ofNat_toNat, BitVec.setWidth_eq]

/-- The fields of a link below 2^59 (R187). -/
theorem linkFields {l : DWord} (h : l.toNat < 2 ^ 59) :
    (l.extractLsb' 56 3).toNat = l.toNat / 2 ^ 56 ∧ (l.extractLsb' 0 3).toNat = l.toNat % 8 ∧ l.extractLsb' 59 5 = 0 := by
  rw [field_toNat, field_toNat, field_eq_zero]
  omega

/-- `ret` with no level open, by a link whose fields are in range, to a header that can be fetched (R188). -/
theorem ret_jumps {s : State} {e : Env} {h l : DWord} (L : Live s e) (w : FRC) (hl : e.spair w.a.toNat = l) (h0 : e.sh.ldep = 0)
    (hf : e.sh.fbase ≤ 4) (range : l.toNat < 2 ^ 59) (deep : l.toNat / 2 ^ 56 + l.toNat % 8 ≤ 4)
    (T : TargetAt s e (sext56 (BitVec.ofNat 64 (l.toNat % 2 ^ 56 / 8 * 8))) h) :
    Answers (exec (.ret w) s) fun t => Jumps s t e (sext56 (BitVec.ofNat 64 (l.toNat % 2 ^ 56 / 8 * 8))) []
      fun sh => { sh with fbase := l.toNat / 2 ^ 56, ldep := l.toNat % 8 } := by
  refine ⟨_, issue_plain L _, ?_⟩
  obtain ⟨fbase, ldep, top⟩ := linkFields range
  have nest : e.sh.overNest = false := by simp only [Sheet.overNest, h0, decide_eq_false_iff_not]; omega
  have deep' : ¬4 < l.toNat / 2 ^ 56 + l.toNat % 8 := by omega
  simp only [hl, fbase, ldep, top, nest, h0, deep', linkAddr_eq, Bool.false_eq_true, ne_eq, not_true_eq_false, or_self, if_false]
  rw [transferEff_taken _ T fun h => absurd h Bool.false_ne_true]
  exact jumps_sheet L _ _

/-- Settles O21: `call_jumps` and `ret_jumps`. -/
theorem callsAndReturns : Obligations.CallsAndReturns := by
  intro s e L
  refine ⟨fun w h T => call_jumps L w T, ?_⟩
  intro w h l a h0 hf range deep T
  exact ret_jumps L w rfl h0 hf range deep T

end Sys2Proof.Machine
end

section
/-! PROOFS. The mask stack (O22) and loop levels (O23): what a push, a closed level and a `loop` word leave. -/

namespace Sys2Proof.Machine

open Sys2Proof.Claims

/-! ### The mask stack (R189) -/

theorem getLsbD_or_foldl {α : Type} (l : List α) (f : α → Mask) (m : Mask) (j : Nat) :
    (l.foldl (fun m x => m ||| f x) m).getLsbD j = (m.getLsbD j || l.any fun x => (f x).getLsbD j) := by
  induction l generalizing m with
  | nil => simp
  | cons x l ih => rw [List.foldl_cons, ih, BitVec.getLsbD_or, List.any_cons, Bool.or_assoc]

/-- PARK is the OR of LPARK over every open slot, strand by strand. -/
theorem Sheet.parks_eq_parked (sh : Sheet) : sh.parks = parked sh := by
  apply BitVec.eq_of_getLsbD_eq
  intro j hj
  rw [Sheet.parks, getLsbD_or_foldl, parked, getLsbD_bits96]
  simp [hj]

theorem IgnoresMarks.pushed : IgnoresMarks Claims.pushed := fun sh lls => by
  unfold Claims.pushed
  dsimp only
  split <;> rfl
/-- A push and what it then leaves of EXM (R189). -/
theorem IgnoresMarks.push (a : Nat) : IgnoresMarks fun sh => { Claims.pushed sh with exm := sh.exm &&& sh.k.get 0 a } := fun sh lls =>
  congrArg (fun x : Sheet => { x with exm := sh.exm &&& sh.k.get 0 a }) (IgnoresMarks.pushed sh lls)

/-- A word that leaves an empty mask stack as it is, and else writes EXM (R189). -/
theorem acts_unlessEmpty {s : State} {e : Env} (L : Live s e) {f g : Sheet → Sheet} (I : IgnoresMarks f) (h : f e.sh = g e.sh) :
    Acts s ((if e.sh.msp = 0 then Eff.done s else .done (s.setExm e.r f)).finish e) e []
      (fun sh => if sh.msp = 0 then sh else g sh) 0 := by
  by_cases empty : e.sh.msp = 0
  · rw [if_pos empty]
    refine (acts_none L).congr ?_
    rw [if_pos empty]
    rfl
  · rw [if_neg empty]
    refine (acts_setExm L I).congr ?_
    rw [if_neg empty]
    exact h

/-- Settles O22: a push for `mpush`, and `acts_unlessEmpty` for `melse` and `mpop`. -/
theorem maskStackWords : Obligations.MaskStackWords := by
  intro w s e L top
  refine ⟨⟨_, issue_plain L _, acts_setExm L (IgnoresMarks.push w.a.toNat)⟩,
    ⟨_, issue_plain L _, acts_unlessEmpty L (fun _ _ => rfl) ?_⟩, ⟨_, issue_plain L _, acts_unlessEmpty L (fun _ _ => rfl) ?_⟩⟩
  · rw [Sheet.parks_eq_parked]
    rfl
  · rw [Sheet.parks_eq_parked]
    rfl

/-! ### `loop` (R193) -/

/-- No body word before this one in the clause is a `loop` (R193). -/
theorem earlierLoop_false {s : State} {e : Env} (hp : e.sh.pend = none)
    (h : ∀ i, 0 < i → i < e.sh.idx → ∀ x, s.fetch e.r e.q.core e.q.ctx (e.sh.hdrAddr + BitVec.ofNat 64 (8 * i)) = .word x →
      x.toNat / 2 ^ 56 ≠ 0x78) : s.earlierLoop e = false := by
  unfold State.earlierLoop
  rw [hp, Option.isSome_none, Bool.false_or, List.any_eq_false]
  intro i hi
  have lt := List.mem_range.1 hi
  split
  · rename_i x hx
    have other := h (i + 1) (Nat.succ_pos i) (by omega) x hx
    have bound := x.isLt
    rw [decide_eq_true_eq, ← BitVec.toNat_inj, field_toNat, show (0x78 : BitVec 8).toNat = 0x78 from rfl]
    omega
  · exact Bool.false_ne_true

/-- The first `loop` of a clause that closes no level keeps its count for the clause's end (R193). -/
theorem loop_acts {s : State} {e : Env} (L : Live s e) (w : FC) (hle : e.sh.hdr.le = 0) (first : s.earlierLoop e = false) :
    Answers (exec (.loop w) s) fun t => Acts s t e []
      (fun sh => { sh with pend := some { n := e.u w.a.toNat, fin := e.disp w.disp, mod := w.mod, idx := sh.idx } }) 0 := by
  refine ⟨_, issue_plain L _, ?_⟩
  simp only [hle, first, ne_eq, not_true_eq_false, Bool.false_eq_true, or_self, if_false]
  exact acts_sheet L _

/-! ### `lbreak` (R196) -/

theorem overNest_false {sh : Sheet} (h : sh.fbase + sh.ldep ≤ 4) : sh.overNest = false := decide_eq_false (Nat.not_lt.2 h)

theorem Wf.lbreak_mod {w : FC} (h : (Instr.lbreak w).wf = true) : w.mod = 0 ∨ w.mod = 1 := by
  simp only [Instr.wf, Bool.and_eq_true, decide_eq_true_eq] at h
  exact (Nat.le_one_iff_eq_zero_or_eq_one.1 h.2).imp (fun h0 => BitVec.eq_of_toNat_eq h0) fun h1 => BitVec.eq_of_toNat_eq h1

/-- `lbreak` takes the active strands of K[A] out of LFEED, and unless it drains it parks them (R196). -/
theorem lbreak_acts {s : State} {e : Env} (L : Live s e) {w : FC} (hw : (Instr.lbreak w).wf = true) (open' : 0 < e.sh.ldep)
    (nest : e.sh.fbase + e.sh.ldep ≤ 4) :
    let m := e.sh.exm &&& e.sh.k.get 0 w.a.toNat
    let j := e.sh.fbase + e.sh.ldep - 1
    let sl := e.sh.slotAt j
    Answers (exec (.lbreak w) s) fun t => Acts s t e [] (fun sh =>
      if w.mod = 1 then { sh with slots := sh.slots.put j { sl with feed := sl.feed &&& ~~~m } }
      else { sh with
        slots := sh.slots.put j { sl with feed := sl.feed &&& ~~~m, park := sl.park ||| m }
        exm := sh.exm &&& ~~~m
        lstg := stages fun i => if m.getLsbD i then 0 else sh.lstg.get 0 i }) 0 := by
  intro m j sl
  refine ⟨_, issue_plain L _, ?_⟩
  have level : ¬(e.sh.ldep = 0 ∨ e.sh.overNest = true) := by
    rw [overNest_false nest]
    simpa using Nat.ne_of_gt open'
  rw [if_neg level]
  rcases Wf.lbreak_mod hw with h0 | h1
  · rw [h0]
    refine (acts_setExm L (fun _ _ => rfl)).congr ?_
    rw [lstgOf_eq_stages]
    rfl
  · rw [h1]
    exact acts_sheet L _

/-! ### `lexit` and `brx` (R197) -/

theorem Sheet.closeN_eq_closed (sh : Sheet) (n : Nat) : sh.closeN n = closed sh n := by
  induction n generalizing sh with
  | zero => rfl
  | succ n ih => rw [Sheet.closeN, ih, Sheet.close_eq_closed]; rfl

theorem IgnoresMarks.closed (n : Nat) : IgnoresMarks (Claims.closed · n) := by
  induction n with
  | zero => exact fun _ _ => rfl
  | succ n ih => exact ih.comp (g := (Claims.closed · 1)) fun _ _ => rfl

/-- `n` open levels left for a header within the levels that remain (R197). -/
theorem leaveLevels_jumps {s : State} {e : Env} {n : Nat} {a h : DWord} (L : Live s e) (hn : n ≤ e.sh.ldep)
    (nest : e.sh.fbase + e.sh.ldep ≤ 4) (T : TargetAt s e a h) (W : Within e (e.sh.ldep - n) a) :
    Jumps s ((leaveLevels e s n a).finish e) e a [] (closed · n) := by
  have levels : ¬(e.sh.overNest = true ∨ e.sh.ldep < n) := by
    rw [overNest_false nest]
    simpa using hn
  rw [leaveLevels, if_neg levels, transferEff_taken _ T fun _ => W]
  simp only [Sheet.closeN_eq_closed]
  exact jumps_setExm L (IgnoresMarks.closed n) a

theorem levels_toNat {k : Nat} (x : BitVec k) (h : x.toNat ≤ 4) : (x.extractLsb' 0 3).toNat = x.toNat := by
  rw [BitVec.extractLsb'_toNat, Nat.shiftRight_zero, Nat.mod_eq_of_lt (by omega)]
theorem Wf.lexit_levels {w : FC} (h : (Instr.lexit w).wf = true) : w.mod.toNat ≤ 4 := by
  simp only [Instr.wf, Bool.and_eq_true, decide_eq_true_eq] at h
  exact h.2
theorem Wf.brx_levels {w : FRC} (h : (Instr.brx w).wf = true) : w.mod.toNat ≤ 4 := by
  simp only [Instr.wf, Bool.and_eq_true, decide_eq_true_eq] at h
  exact h.2

/-- Settles O23: `loop_acts`, `lbreak_acts`, and `leaveLevels_jumps` for `lexit` and `brx`. -/
theorem loopWords : Obligations.LoopWords := by
  intro s e L
  refine ⟨fun w hle hp first => loop_acts L w hle (earlierLoop_false hp first), fun w hw open' nest => lbreak_acts L hw open' nest,
    fun n a h hn nest T W => ⟨?_, ?_⟩⟩
  · rintro w rfl rfl hw
    refine ⟨_, issue_plain L _, ?_⟩
    rw [levels_toNat _ (Wf.lexit_levels hw)]
    exact leaveLevels_jumps L hn nest T W
  · rintro w rfl rfl hw
    refine ⟨_, issue_plain L _, ?_⟩
    rw [levels_toNat _ (Wf.brx_levels hw)]
    exact leaveLevels_jumps L hn nest T W

end Sys2Proof.Machine
end

section
/-! PROOFS. The return from a trap (O30): the frame restored, and the place in the clause. -/

namespace Sys2Proof.Machine

open Sys2Proof.Claims

/-! ### The frame (R213) -/

/-- The frame that TSTAT holds, with INTRAP cleared (R211, R213). -/
def framed (sh : Sheet) : Sheet :=
  { sh with fbase := sh.tstat.toNat / 16 % 8, ldep := sh.tstat.toNat % 8, tstat := sh.tstat &&& ~~~(0x80 : Word) }

theorem Sheet.unframe_eq (sh : Sheet) : sh.unframe = framed sh := by
  simp only [Sheet.unframe, framed, BitVec.extractLsb'_toNat, Nat.shiftRight_eq_div_pow, Nat.pow_zero, Nat.div_one]

/-! ### The place in the clause (R213) -/

/-- The sheet at body word `i` of the clause of THDR, at which a `loop` before TPC opens its level still (R193, R213). -/
def resumed (h : DWord) (i cyc : Nat) (sh : Sheet) : Sheet :=
  { (framed sh).jump sh.tpc cyc with
    hdr := Header.unpack h
    hdrAddr := sh.thdr
    idx := i
    pend := sh.kept.bind fun x => if x.1 = sh.thdr ∧ x.2.idx < i then some x.2 else none
    kept := none }

theorem Steady.inClause (h : Header) (i : Nat) : Steady (·.inClause h i) :=
  ⟨fun _ _ same => congrArg (Sheet.inClause · h i) same, fun _ key => raw_congr rfl rfl rfl rfl key⟩

/-- A taken transfer changes its sheet alone (R184). -/
theorem Edit.goto (s : State) (e : Env) (a : DWord) :
    Edit s (s.goto e a) e.r.h fun q => q.modSheet e.r.k fun sh => sh.jump a (s.cycles e.q.core) :=
  ((Edit.modSheet s e.r fun sh => sh.jump a (s.cycles e.q.core)).trans (Edit.stores _ _ _)).trans (Edit.leave _ _)

/-- A transfer into a clause: the sheet stands at a word past its header. -/
theorem rte_changes {s : State} {e : Env} (L : Live s e) (h : DWord) (i : Nat) :
    let t := ((s.modSheet e.r Sheet.unframe).goto e e.sh.tpc).modSheet e.r fun sh => sh.inClause (Header.unpack h) i
    Changes s t e [] (resumed h i (s.cycles e.q.core)) ∧ t.cur = none := by
  intro t
  have E := ((Edit.modSheet s e.r Sheet.unframe).trans (Edit.goto _ e e.sh.tpc)).trans
    (Edit.modSheet _ e.r fun sh => sh.inClause (Header.unpack h) i)
  have W := ((Wrote.of_sheet (cyc := s.cycles e.q.core) L.sheet Sheet.unframe [] fun _ hw => absurd hw List.not_mem_nil).steady
    (Steady.jump e.sh.tpc (s.cycles e.q.core))).steady (Steady.inClause (Header.unpack h) i)
  refine ⟨(E.changes (f := fun sh => (sh.unframe.jump e.sh.tpc (s.cycles e.q.core)).inClause (Header.unpack h) i) L
    (e.q.modSheet e.r.k Sheet.unframe) rfl rfl (modSheet_others _ _ _) W).congr ?_, State.leave_cur _⟩
  rw [Sheet.unframe_eq]
  rfl

/-- What passes the checks of `rte` (R213): a header at THDR that fits the restored frame, and TPC at it or in its clause. -/
structure RtePasses (s : State) (e : Env) (h : DWord) : Prop where
  intrap : e.sh.tstat.getLsbD 7 = true
  closed : e.sh.ldep = 0
  header : TargetAt s e e.sh.thdr h
  sound  : headerFault (framed e.sh) e.sh.thdr h = none
  after  : e.sh.thdr ≤ e.sh.tpc
  word   : e.sh.tpc.toNat % 8 = 0
  inside : (e.sh.tpc - e.sh.thdr).toNat / 8 ≤ (Header.unpack h).n.toNat + 1

/-- `rte` that passes its checks (R213). -/
theorem exec_rte {s : State} {e : Env} {h : DWord} (L : Live s e) (w : FRC) (R : RtePasses s e h) :
    let i := (e.sh.tpc - e.sh.thdr).toNat / 8
    exec (.rte w) s = .next (if i = 0 then (s.modSheet e.r Sheet.unframe).goto e e.sh.thdr
      else ((s.modSheet e.r Sheet.unframe).goto e e.sh.tpc).modSheet e.r fun sh => sh.inClause (Header.unpack h) i) := by
  intro i
  refine (issue_plain L _).trans ?_
  obtain ⟨hc, ha, hf, -⟩ := R.header
  have intrap : e.sh.intrap = true := R.intrap
  have low : e.sh.thdr.extractLsb' 0 3 = 0 := (field_eq_zero e.sh.thdr 0 3).2 (by simpa using ha)
  have low' : e.sh.tpc.extractLsb' 0 3 = 0 := (field_eq_zero e.sh.tpc 0 3).2 (by simpa using R.word)
  have after := BitVec.not_lt.2 R.after
  have inside := Nat.not_lt.2 R.inside
  have sound := R.sound
  rw [← Sheet.unframe_eq] at sound
  simp only [intrap, R.closed, hc, low, low', hf, sound, after, inside, Bool.not_true, Bool.false_eq_true, ne_eq, not_true_eq_false,
    or_self, if_false]
  split <;> rfl

/-- Settles O30: `exec_rte`, and `rte_changes` where the return is into the clause. -/
theorem trapReturn : Obligations.TrapReturn := by
  intro w s e h L intrap closed T back j i ok level after word inside
  have R : RtePasses s e h :=
    { intrap, closed, header := T, sound := headerFault_none (sh := framed e.sh) ok level, after, word, inside }
  refine ⟨_, exec_rte L w R, ?_⟩
  by_cases h0 : i = 0
  · beta_reduce
    rw [if_pos h0, if_pos h0]
    exact (jumps_sheet L _ _).congr e.sh.unframe_eq
  · beta_reduce
    rw [if_neg h0, if_neg h0]
    exact rte_changes L h i

end Sys2Proof.Machine
end

section
/-! PROOFS. Reads of system registers (O31): the word, its captures, and the contents that R208 and R303 give. -/

namespace Sys2Proof.Machine

open Sys2Proof.Claims

/-- The contents that `srContent` lists are those that `rdsr` reads (R208). -/
theorem srRead_of_srContent (s : State) (e : Env) : ∀ x ∈ srContent s e, s.srRead e x.1 = x.2 := by
  simp only [srContent, List.forall_mem_cons]
  exact ⟨rfl, rfl, rfl, rfl, rfl, rfl, rfl, rfl, rfl, rfl, rfl, rfl, rfl, rfl, rfl, rfl, rfl, rfl, rfl, rfl, rfl, rfl, rfl, rfl, rfl, rfl,
    fun _ h => absurd h List.not_mem_nil⟩

/-- What a read captures, by the index as the word writes it (R207). -/
theorem Sheet.capture_eq (sh : Sheet) (i : Word) (reft cyc : Nat) :
    sh.capture i.toNat reft cyc =
      if i = 0x010 then { sh with reftCap := some (BitVec.ofNat 32 (reft / 2 ^ 32)) }
      else if i = 0x011 then { sh with reftCap := none }
      else if i = 0x012 then { sh with cycCap := some (BitVec.ofNat 32 (cyc / 2 ^ 32)) }
      else if i = 0x013 then { sh with cycCap := none }
      else sh := by
  simp only [← BitVec.toNat_inj]
  rfl

/-- `rdsr` of an index that the sheet may read (R206, R207). -/
theorem rdsr_acts {w : FI} {s : State} {e : Env} (L : Live s e) (hk : srKnown w.imm.toNat = true)
    (hp : 0x800 ≤ w.imm.toNat → e.cx.desc.priv = true) :
    Answers (exec (.rdsr w) s) fun t => Acts s t e [(uniKey w.d.toNat, s.srRead e w.imm.toNat)]
      (·.capture w.imm.toNat s.reft (s.cycles e.q.core)) 0 := by
  refine ⟨_, issue_plain L _, ?_⟩
  have allowed : ¬(0x800 ≤ w.imm.toNat ∧ ¬e.cx.desc.priv = true) := fun ⟨ge, np⟩ => np (hp ge)
  simp only [hk, allowed, Bool.not_true, Bool.false_eq_true, if_false]
  refine acts_sheet_regs L _ _ fun x hx => ?_
  rw [List.mem_singleton.1 hx]
  exact uniKey_real _

/-- Settles O31: `rdsr_acts` for the word, `srRead_of_srContent` for the contents. -/
theorem systemRegisterReads : Obligations.SystemRegisterReads := by
  intro w s e L hk hp upper
  refine ⟨?_, srRead_of_srContent s e⟩
  obtain ⟨t, ht, A⟩ := rdsr_acts L hk hp
  exact ⟨t, ht, A.congr (e.sh.capture_eq w.imm _ _)⟩

end Sys2Proof.Machine
end

section
/-! PROOFS. Privileged words (O33): the statement does not hold; the state that shows it. -/

namespace Sys2Proof.Machine

open Sys2Proof.Claims

/-- The sheet of `exitingTwice`, whose quire's handle has a second entry in the table of quires, in a privileged context. -/
def haltingTwice : State := exitingTwice.modCtx 1 fun c => { c with desc := { c.desc with priv := true } }
/-- What the sheet in issue in `haltingTwice` sees. -/
def haltingEnv : Env := { exitingEnv with cx := haltingTwice.ctx 1 }

/-- The phase that `halt` sets by handle reaches both entries: the second one then holds its chamber, whose window shows its byte. -/
theorem haltingTwice_halt (w : FRC) :
    ∃ t, exec (.halt w) haltingTwice = .next t ∧ t.readByte winBase = 1 ∧ haltingTwice.readByte winBase = 0 :=
  ⟨_, rfl, by decide +kernel, by decide +kernel⟩

/-- Refutes O33: no premise says that the table of quires lists a handle once, and in `haltingTwice` the `halt` of a quire changes
what the chamber's window reads, which no event record and no completion word is. -/
theorem not_privilegedWords : ¬ Obligations.PrivilegedWords := by
  intro h
  obtain ⟨halt, -⟩ := h haltingTwice haltingEnv rfl rfl
  obtain ⟨t, ht, -, -, bytes⟩ := halt ⟨⟨false, 0, false, false⟩, 0, 0, 0, 0, 0⟩
  obtain ⟨u, hu, after, before⟩ := haltingTwice_halt ⟨⟨false, 0, false, false⟩, 0, 0, 0, 0, 0⟩
  obtain rfl : u = t := Host.Outcome.next.inj (hu.symm.trans ht)
  have same := bytes winBase (.inr (by decide +kernel)) fun _ _ ream => by cases ream
  rw [after, before] at same
  exact absurd same (by decide)

end Sys2Proof.Machine
end

section
/-! PROOFS. Words that reach the vats (O39): what the vats' inputs take of a word's operations, and that the words do no more. -/

namespace Sys2Proof.Machine

open Sys2Proof.Claims

/-! ### Operations sent to vats (R147, R154, R225) -/

/-- An operation on its way is recorded among the accesses alone. -/
theorem State.track_eq (s : State) (o : VOp) : (s.track o).2 = { s with stores := (s.track o).2.stores } := by
  unfold State.track
  split
  · rfl
  · dsimp only
    split <;> rfl

/-- An operation that no order gate holds enters the input of its word's vat, with what precedes it. -/
theorem State.vatSend_ungated (s : State) {o : VOp} (h : o.gated = false) :
    s.vatSend o = ({ s with stores := (s.track o).2.stores } : State).modVat (s.channel o.word) fun v =>
      { v with input := v.input ++ [{ o with prior := (s.track o).1 }] } := by
  rw [← s.track_eq o]
  unfold State.vatSend
  simp only [h, Bool.false_eq_true, if_false]
  rw [show (s.track o).2.channel o.word = s.channel o.word by rw [s.track_eq o]; rfl]

/-- A vat's input has taken `ops` in order, each with what precedes it; its queue and triggers are as before. -/
def Vat.Took (v v' : Vat) (ops : List VOp) : Prop :=
  (∃ new, v'.input = v.input ++ new ∧ (new.map fun o => { o with prior := [] }) = ops) ∧ v'.queue = v.queue ∧ v'.triggers = v.triggers

theorem Vat.Took.refl (v : Vat) : v.Took v [] := ⟨⟨[], (List.append_nil _).symm, rfl⟩, rfl, rfl⟩
theorem Vat.Took.trans {u v w : Vat} {ops ops' : List VOp} (A : u.Took v ops) (B : v.Took w ops') : u.Took w (ops ++ ops') := by
  obtain ⟨⟨new, input, rfl⟩, queue, triggers⟩ := A
  obtain ⟨⟨new', input', rfl⟩, queue', triggers'⟩ := B
  exact ⟨⟨new ++ new', by rw [input', input, List.append_assoc], List.map_append⟩, queue'.trans queue, triggers'.trans triggers⟩

/-- `t` is `s` whose vats have taken `ops`, but for the records of accesses. -/
def Delivered (s t : State) (ops : List VOp) : Prop :=
  (∃ x v, t = { s with stores := x, vats := v }) ∧ ∀ ch, (s.vat ch).Took (t.vat ch) (ops.filter fun o => s.channel o.word = ch)

theorem Delivered.refl (s : State) : Delivered s s [] := ⟨⟨_, _, rfl⟩, fun _ => .refl _⟩
theorem Delivered.trans {s t u : State} {ops ops' : List VOp} (A : Delivered s t ops) (B : Delivered t u ops') : Delivered s u (ops ++ ops') := by
  obtain ⟨⟨x, v, rfl⟩, took⟩ := A
  obtain ⟨⟨x', v', rfl⟩, took'⟩ := B
  refine ⟨⟨x', v', rfl⟩, fun ch => ?_⟩
  rw [List.filter_append]
  exact (took ch).trans (took' ch)

/-- One operation that no order gate holds. -/
theorem Delivered.vatSend (s : State) {o : VOp} (hg : o.gated = false) (hp : o.prior = []) : Delivered s (s.vatSend o) [o] := by
  rw [s.vatSend_ungated hg]
  refine ⟨⟨_, _, rfl⟩, fun ch => ?_⟩
  by_cases h : s.channel o.word = ch
  · subst h
    rw [State.vat_modVat, List.filter_cons_of_pos (by simp)]
    exact ⟨⟨_, rfl, by rw [List.map_singleton, ← hp]; rfl⟩, rfl, rfl⟩
  · have other : (({ s with stores := (s.track o).2.stores } : State).modVat (s.channel o.word) fun v =>
        { v with input := v.input ++ [{ o with prior := (s.track o).1 }] }).vat ch = s.vat ch := Tab.get_put_other _ _ _ (Ne.symm h)
    rw [other, List.filter_cons_of_neg (by simpa using h)]
    exact .refl _

/-- Operations of a word, made from the state's time alone, that no order gate holds and nothing precedes yet. -/
structure Ungated {α : Type} (op : State → α → VOp) : Prop where
  now   : ∀ {s t : State}, t.now = s.now → op t = op s
  gated : ∀ s a, (op s a).gated = false
  prior : ∀ s a, (op s a).prior = []

/-- Operations sent one after another. -/
theorem Delivered.foldl {α : Type} {op : State → α → VOp} (U : Ungated op) (as : List α) (s : State) :
    Delivered s (as.foldl (fun s a => s.vatSend (op s a)) s) (as.map (op s)) := by
  induction as generalizing s with
  | nil => exact .refl s
  | cons a as ih =>
    have first := Delivered.vatSend s (U.gated s a) (U.prior s a)
    have rest := ih (s.vatSend (op s a))
    have now : (s.vatSend (op s a)).now = s.now := by
      obtain ⟨⟨x, v, h⟩, -⟩ := first
      rw [h]
    rw [U.now now] at rest
    exact first.trans rest

/-- Names may be taken and a sheet changed after the vats have taken their operations. -/
theorem Delivered.before_sheet {s u : State} {r : SheetRef} {f : Sheet → Sheet} {n : Nat} {ops : List VOp}
    (A : Delivered (({ s with next := s.next + n } : State).modSheet r f) u ops) :
    ∃ w, Delivered s w ops ∧ u = ({ w with next := w.next + n } : State).modSheet r f := by
  obtain ⟨⟨x, v, rfl⟩, took⟩ := A
  exact ⟨{ s with stores := x, vats := v }, ⟨⟨_, _, rfl⟩, took⟩, rfl⟩

/-! ### What a word leaves that sends to vats -/

/-- What a word changes of the quires, where those are as in `s`. -/
theorem Changes.own {s u t : State} {e : Env} {ws : List (RegKey × Word)} {f : Sheet → Sheet} (C : Changes u t e ws f)
    (hq : u.quires = s.quires) (hc : u.cycles e.q.core = s.cycles e.q.core) : Own s t e id id ws f := by
  obtain ⟨q, find, apart, qs, others, own⟩ := C.quire
  rw [hc] at qs own
  exact ⟨fun h hh => by rw [C.quires h hh, hq], q, find, apart, qs,
    fun k hk => by rw [others k hk, Option.map_id_fun]; rfl, own⟩

/-- A word that sends operations to vats and changes its sheet. -/
theorem Delivered.word {s w t : State} {e : Env} {ops : List VOp} {f : Sheet → Sheet} {n : Nat} (S : Delivered s w ops) (A : Acts w t e [] f n) :
    ToVats s t ops ∧ Own s t e id id [] fun sh => past s e (f sh) := by
  obtain ⟨C, -⟩ := A
  obtain ⟨⟨x, v, rfl⟩, took⟩ := S
  have vats := congrArg State.vats C.module
  refine ⟨⟨?_, C.cores, C.memory, fun ch => ?_⟩, C.own rfl rfl⟩
  · rw [C.module, show t.vats = v from vats]
    rfl
  · rw [show t.vat ch = ({ s with stores := x, vats := v } : State).vat ch from congrArg (fun v => Tab.get Vat.empty v ch) vats]
    exact took ch

theorem Delivered.live {s w : State} {e : Env} {ops : List VOp} (S : Delivered s w ops) (L : Live s e) : Live w e := by
  obtain ⟨⟨x, v, rfl⟩, -⟩ := S
  exact L

/-- A word that sends operations to vats and goes on. -/
theorem sends_none {α : Type} {op : State → α → VOp} {s : State} {e : Env} (L : Live s e) (U : Ungated op) (as : List α) :
    let t := (as.foldl (fun s a => s.vatSend (op s a)) s).advance e
    ToVats s t (as.map (op s)) ∧ Own s t e id id [] (past s e) :=
  have S := Delivered.foldl U as s
  S.word (acts_none (S.live L))

/-- A word that takes names, changes its sheet and sends operations to vats. -/
theorem sends_next {α : Type} {op : State → α → VOp} {s : State} {e : Env} (L : Live s e) (U : Ungated op) (as : List α)
    (f : Sheet → Sheet) (n : Nat) :
    let t := (as.foldl (fun s a => s.vatSend (op s a)) (({ s with next := s.next + n } : State).modSheet e.r f)).advance e
    ToVats s t (as.map (op s)) ∧ Own s t e id id [] fun sh => past s e (f sh) := by
  intro t
  have same : op (({ s with next := s.next + n } : State).modSheet e.r f) = op s := U.now rfl
  obtain ⟨u, S, hu⟩ := (Delivered.foldl U as (({ s with next := s.next + n } : State).modSheet e.r f)).before_sheet
  rw [same] at S
  simp only [t, hu]
  exact S.word (acts_next (S.live L) f n)

/-- No order gate holds the operations of a context without a debug context (R338, R341). -/
theorem vop_ungated {e : Env} (hd : e.cx.debug = none) {w64 : Bool} {act : Hit → VAct} {ord : Ord} {scope : Scope}
    {ret : Hit → Option Ret} {post : Bool} : Ungated fun s h => e.vop s h h.pa w64 (act h) ord scope (ret h) post where
  now h := by unfold Env.vop; rw [h]
  gated s h := by unfold Env.vop Ctx.dbg; rw [hd]; rfl
  prior _ _ := rfl

/-! ### The checks of R162 and R238 -/

section
variable {s : State} {e : Env} {need : DWord → Bool} {n : Nat} {hits : List Hit}

/-- The accesses of a word's issuers are those of its hits. -/
theorem accs_of_hits {ls : List (Option Nat)} {addr : Option Nat → DWord} (hl : hits.map (·.lane) = ls)
    (ha : ∀ h ∈ hits, h.va = addr h.lane) : (ls.map fun l => (l, addr l)) = hits.map fun h => (h.lane, h.va) := by
  rw [← hl, List.map_map]
  exact List.map_congr_left fun h hh => congrArg (Prod.mk h.lane) (ha h hh).symm

/-- Accesses of algebra pages pass the checks. -/
theorem gcheck_algebra (H : ∀ h ∈ hits, Algebra s e need n h) (k : List Hit → Eff) :
    gcheck e s (hits.map fun h => (h.lane, h.va)) n n need false k = k hits := by
  have canon : (hits.map fun h => (h.lane, h.va)).find? (fun a => !canonical a.2) = none := by
    simp only [List.find?_eq_none, List.forall_mem_map, Bool.not_eq_true', Bool.not_eq_false]
    exact fun h hh => (H h hh).1
  have aligned : (hits.map fun h => (h.lane, h.va)).find? (fun a => a.2.toNat % n != 0) = none := by
    simp only [List.find?_eq_none, List.forall_mem_map, bne_iff_ne, not_not]
    exact fun h hh => (H h hh).2.1
  have mapped : (hits.map fun h => (h.lane, h.va)).find? (fun a => (s.tlb e.q.core e.q.ctx a.2).isNone) = none := by
    simp only [List.find?_eq_none, List.forall_mem_map]
    intro h hh
    obtain ⟨-, -, -, -, -, x, hx, -⟩ := H h hh
    simp [hx]
  have found : (hits.map fun h => (h.lane, h.va)).filterMap (fun a => (s.tlb e.q.core e.q.ctx a.2).map fun t =>
      ({ lane := a.1, va := a.2, pa := t.pa a.2, leaf := t.leaf } : Hit)) = hits := by
    rw [List.filterMap_map]
    refine (List.filterMap_congr fun h hh => ?_).trans List.filterMap_some
    obtain ⟨-, -, -, -, -, x, hx, pa, leaf⟩ := H h hh
    simp only [Function.comp_apply, hx, Option.map_some, pa, leaf]
  have allowed : hits.find? (fun h => !(need h.leaf && s.mayReach e.cx.part h.pa n false)) = none := by
    rw [List.find?_eq_none]
    intro h hh
    obtain ⟨-, -, reach, -, ok, -⟩ := H h hh
    simp [ok, reach]
  unfold gcheck
  simp only [canon, aligned, mapped, found, allowed]

theorem pageCheck_algebra (H : ∀ h ∈ hits, Algebra s e need n h) (s' : State) (k : Eff) : pageCheck e s' hits k = k := by
  have pages : hits.find? (fun h => !leafALG h.leaf) = none := by
    rw [List.find?_eq_none]
    intro h hh
    obtain ⟨-, -, -, page, -⟩ := H h hh
    simp [leafALG, page]
  unfold pageCheck
  rw [pages]

end

/-! ### `post` (R225, R238) -/

section
variable {s : State} {e : Env} {w : FMk} {hits : List Hit} {img : List Byte}

/-- What `post` sends for a hit, of a slot of the table `img`. -/
def postOp (e : Env) (w : FMk) (img : List Byte) (s : State) (h : Hit) : VOp :=
  e.vop s h h.pa (w.size = .b64) (.slot w.kind.toNat (slotKind img w.kind.toNat) (slotType img w.kind.toNat)
    (e.opnd h.lane w.size.regs w.t.toNat)) w.ord w.scope none true

/-- A slot that the table of every hit holds, of the word's width, passes the checks of R238. -/
theorem slotFault_none {k : Nat} {w64 : Bool} (ht : ∀ h ∈ hits, e.cx.tables.find (leafDTS h.leaf) = some img)
    (hp : slotPresent img k = true) (hk : k ≠ 0) (hw : ty64 (slotType img k) = w64) :
    ([0, 1, 2, 3].findSome? fun r => (hits.find? fun h => slotFault e k w64 h r).map fun h => (r, h)) = none := by
  rw [List.findSome?_eq_none_iff]
  intro r hr
  rw [Option.map_eq_none_iff, List.find?_eq_none]
  intro h hh
  simp only [List.mem_cons, List.not_mem_nil, or_false] at hr
  rcases hr with rfl | rfl | rfl | rfl <;> simp [slotFault, ht h hh, hp, hk, hw]

/-- `post` past its checks. -/
theorem exec_post (L : Live s e) (ho : s.ordHeld e w.ord w.scope = false)
    (hv : e.sh.vOk (mvs w.com w.t w.idx w.size.regs 1) = true) (hl : hits.map (·.lane) = e.lanes w.com)
    (H : ∀ h ∈ hits, h.va = e.gaddr h.lane w.base w.idx w.scale w.off.toInt w.size.bytes ∧
      Algebra s e leafW w.size.bytes h ∧ e.cx.tables.find (leafDTS h.leaf) = some img)
    (hp : slotPresent img w.kind.toNat = true) (hk : w.kind.toNat ≠ 0) (hw : ty64 (slotType img w.kind.toNat) = decide (w.size = .b64))
    (room : e.sh.posts + hits.length ≤ 1024) :
    exec (.post w) s = .next ((hits.foldl (fun s h => s.vatSend (postOp e w img s h))
      (s.modSheet e.r fun sh => { sh with posts := sh.posts + hits.length })).advance e) := by
  have accs : e.gaccs w.com w.base w.idx w.scale w.off.toInt w.size.bytes = hits.map fun h => (h.lane, h.va) :=
    accs_of_hits hl fun h hh => (H h hh).1
  have algebra : ∀ h ∈ hits, Algebra s e leafW w.size.bytes h := fun h hh => (H h hh).2.1
  have tables : ∀ h ∈ hits, e.cx.tables.find (leafDTS h.leaf) = some img := fun h hh => (H h hh).2.2
  refine (issue_regs L _ hv).trans ?_
  dsimp only
  rw [ho, accs, gcheck_algebra algebra, pageCheck_algebra algebra, slotFault_none tables hp hk hw]
  simp only [Bool.false_eq_true, if_false, Nat.not_lt.2 room]
  refine congrArg (fun u : State => Host.Outcome.next (u.advance e)) (List.foldl_ext _ _ _ fun u h hh => ?_)
  rw [tables h hh]
  rfl

end

/-! ### `arm` and `disarm` (R232, R239) -/

section
variable {s : State} {e : Env} {w : FE} {hits : List Hit}

theorem armAccs_of_hits (hl : hits.map (·.lane) = (act e w.com).map some)
    (ha : ∀ h ∈ hits, h.va = e.spair w.sa.toNat + (e.w h.lane w.va.toNat).signExtend 64) :
    armAccs e w = hits.map fun h => (h.lane, h.va) := by
  rw [← accs_of_hits (addr := fun l => e.spair w.sa.toNat + (e.w l w.va.toNat).signExtend 64) hl ha, List.map_map]
  rfl

/-- What `arm` sends for a hit, its status returned for the word `id`. -/
def armOp (e : Env) (w : FE) (id : Nat) (s : State) (h : Hit) : VOp :=
  e.vop s h h.pa (w.mod.getLsbD 0) (.arm (e.spair w.sb.toNat) (e.w h.lane (w.va.toNat + 1))) .rlx .device
    (some ⟨e.r, id, [e.key h.lane (w.va.toNat + 2)]⟩) false
/-- The statuses that `arm` leaves outstanding. -/
def armed (s : State) (e : Env) (w : FE) (hits : List Hit) : LL :=
  { held s e w.com.fs (hits.map fun h => (e.key h.lane (w.va.toNat + 2), none)) false with left := hits.length }
/-- What `disarm` sends for a hit. -/
def disarmOp (e : Env) (w : FE) (s : State) (h : Hit) : VOp := e.vop s h h.pa (w.mod.getLsbD 0) .disarm .rlx .device none false

/-- `arm` past its checks. -/
theorem exec_arm (L : Live s e) (ho : s.ordHeld e .rel .device = false) (hf : e.flagRoom w.com.fs)
    (hv : e.sh.vOk [(w.va.toNat, 4)] = true) (accs : armAccs e w = hits.map fun h => (h.lane, h.va))
    (H : ∀ h ∈ hits, Algebra s e leafW (if w.mod.getLsbD 0 then 8 else 4) h)
    (hc : canonical (e.spair w.sb.toNat) = true) (hm : (e.spair w.sb.toNat).toNat % 8 = 0) :
    exec (.arm w) s = .next ((hits.foldl (fun s' h => s'.vatSend (armOp e w s.next s' h))
      (({ s with next := s.next + 1 } : State).modSheet e.r (·.llOpen (armed s e w hits)))).advance e) := by
  have entry : (e.spair w.sb.toNat).extractLsb' 0 3 = 0 := BitVec.eq_of_toNat_eq (by simpa using hm)
  refine (issue_ll L _ hv hf).trans ?_
  dsimp only
  rw [ho, accs, gcheck_algebra H, pageCheck_algebra H]
  simp only [Bool.false_eq_true, if_false, hc, entry, not_true_eq_false, ne_eq, or_self]
  simp only [armed, held, List.map_map]
  rfl

/-- `disarm` past its checks. -/
theorem exec_disarm (L : Live s e) (ho : s.ordHeld e .rlx .device = false) (hv : e.sh.vOk [(w.va.toNat, 4)] = true)
    (accs : armAccs e w = hits.map fun h => (h.lane, h.va)) (H : ∀ h ∈ hits, Algebra s e leafW (if w.mod.getLsbD 0 then 8 else 4) h) :
    exec (.disarm w) s = .next ((hits.foldl (fun s h => s.vatSend (disarmOp e w s h)) s).advance e) := by
  refine (issue_regs L _ hv).trans ?_
  dsimp only
  rw [ho, accs, gcheck_algebra H, pageCheck_algebra H]
  rfl

end

/-! ### `dkload`, `dkload.clr` and `dkquery` (R236, R237) -/

section
variable {s : State} {e : Env} {w : FE}

/-- An installation has started for the sheet, which waits for it (R236). -/
def Installing (s t : State) (e : Env) (w : FE) (img : Option (List Byte)) : Prop :=
  t.cur = none ∧ t.apart = { s.apart with installs := s.installs ++ [⟨s.next, e.r, e.q.ctx, w.mod.toNat % 4, img, []⟩] } ∧
    Own s t e id id [] fun sh => { past s e sh with wait := .dkload s.next }

/-- The table slot that MOD names (R236). -/
theorem tableSlot_eq (mod : BitVec 17) : (mod.extractLsb' 0 2).toNat = mod.toNat % 4 := by
  rw [BitVec.extractLsb'_toNat, Nat.shiftRight_zero]

theorem installEff_installing (L : Live s e) (img : Option (List Byte)) :
    Installing s ((installEff e s (w.mod.extractLsb' 0 2).toNat img).finish e) e w img := by
  let u : State := { s with next := s.next + 1, installs := s.installs ++ [⟨s.next, e.r, e.q.ctx, w.mod.toNat % 4, img, []⟩] }
  have L' : Live u e := L
  obtain ⟨C, -, -, cur⟩ := waits_none L' (.dkload s.next)
  rw [tableSlot_eq]
  exact ⟨cur, C.module, C.own rfl rfl⟩

/-- No byte of a range without an uncorrectable error has one. -/
theorem ueIn_none {pa n : Nat} (h : s.ue pa n = false) : s.ueIn pa n = none := by
  unfold State.ueIn
  rw [List.find?_eq_none, List.forall_mem_map]
  intro j hj
  have lt := List.mem_range.1 hj
  simp only [State.ue, List.any_eq_false, List.any_eq_true, Bool.and_eq_true, decide_eq_true_eq, not_and, not_exists] at h ⊢
  intro b hb _
  have := h b hb
  omega

/-- `dkload` of a valid image on plain pages with nothing in its way. -/
theorem exec_dkload {pa : Nat} (L : Live s e) (hi : tableFault (s.readBytes pa 1024) = none) (ho : s.ordHeld e .rlx .device = false)
    (hk : s.rekeys = []) (hu : s.ue pa 1024 = false) (hq : Unqueued s e none pa 1024) (P : Plain s e leafR 1024 (e.spair w.sa.toNat) pa) :
    exec (.dkload w) s =
      .next ((installEff e s (w.mod.extractLsb' 0 2).toNat (some (s.readBytes pa 1024))).finish e) := by
  refine (issue_plain L _).trans ?_
  have page := (Plain.leaf (addr := fun _ => e.spair w.sa.toNat) (pa := fun _ => pa) (l := none) P).2
  have checked := gcheck_plain (ls := [none]) (addr := fun _ => e.spair w.sa.toNat) (pa := fun _ => pa) (fun _ _ => P) false
  simp only [List.map_cons, List.map_nil] at checked
  dsimp only
  rw [ho, checked]
  have unqueued : s.aliased e.r 127 pa 1024 = false := State.aliased_of_unqueued hq
  have at' : (plainHit s e (fun _ => e.spair w.sa.toNat) (fun _ => pa) none).pa = pa := rfl
  simp only [page, at', unqueued, Bool.false_and, Bool.false_eq_true, if_false, State.keyGate_reads s _ _ hk, ueIn_none hu, imageEff, hi]

/-- Bit `j` of the low word that `dkquery` reads of a table (R237): the table itself, then its slots. -/
def presence (p : Nat → Bool) (j : Nat) : Bool := j = 0 || (j ≤ 16 && p (j - 1))

theorem presence_sum (p : Nat → Bool) :
    ((List.range 32).map fun j => if presence p j then 2 ^ j else 0).sum =
      1 + ((List.range 16).map fun k => if p k then 2 ^ (k + 1) else 0).sum := by
  have upper : (((List.range 15).map (17 + ·)).map fun j => if presence p j then 2 ^ j else 0).sum = 0 := by
    rw [List.sum_eq_zero_iff, List.map_map, List.forall_mem_map]
    intro j _
    simp [presence, show ¬17 + j ≤ 16 by omega]
  have slots : (List.range 16).map (fun k => if presence p (k + 1) then 2 ^ (k + 1) else 0) =
      (List.range 16).map fun k => if p k then 2 ^ (k + 1) else 0 := by
    refine List.map_congr_left fun k hk => ?_
    have := List.mem_range.1 hk
    simp [presence, show k + 1 ≤ 16 by omega]
  have lower : ((List.range (16 + 1)).map fun j => if presence p j then 2 ^ j else 0).sum =
      1 + ((List.range 16).map fun k => if presence p (k + 1) then 2 ^ (k + 1) else 0).sum := by
    rw [List.range_succ_eq_map, List.map_cons, List.sum_cons, List.map_map]
    rfl
  have parts : List.range (17 + 15) = List.range 17 ++ (List.range 15).map (17 + ·) := List.range_add
  rw [show (32 : Nat) = 17 + 15 from rfl, parts, List.map_append, List.sum_append, upper, Nat.add_zero, ← slots]
  exact lower

theorem presence_word (p : Nat → Bool) :
    BitVec.ofNat 32 (1 + ((List.range 16).map fun k => if p k then 2 ^ (k + 1) else 0).sum) = (ofBits 32 (presence p)).setWidth 32 := by
  have word : ofBits 32 (presence p) = BitVec.ofNat 64 (1 + ((List.range 16).map fun k => if p k then 2 ^ (k + 1) else 0).sum) :=
    congrArg (BitVec.ofNat 64) (presence_sum p)
  rw [word]
  generalize 1 + _ = n
  exact (BitVec.setWidth_ofNat_of_le (by decide) n).symm

/-- `dkquery` (R237): the presence and the count of a table slot, as they stand. -/
theorem dkquery_acts (L : Live s e) (hf : e.flagRoom w.com.fs) :
    Answers (exec (.dkquery w) s) fun t => Acts s t e [] (·.llOpen (held s e w.com.fs
      [(.s w.sd.toNat, some (match e.cx.tables.find (w.mod.toNat % 4) with
          | none => 0
          | some t => (ofBits 32 (presence (slotPresent t))).setWidth 32)),
        (.s (w.sd.toNat + 1), some (e.cx.loads.get 0 (w.mod.toNat % 4)))] false)) 1 := by
  refine ⟨_, issue_ll L _ rfl hf, ?_⟩
  dsimp only
  rw [tableSlot_eq]
  refine (acts_next L _ 1).congr ?_
  cases e.cx.tables.find (w.mod.toNat % 4) with
  | none => rfl
  | some img =>
    simp only [presence_word]
    rfl

end

/-- Settles O39: `sends_next` and `sends_none` for `post`, `arm` and `disarm` past their checks, `installEff_installing` for what
installs, `dkquery_acts`, and `vdrain` going on or waiting. -/
theorem vatWords : Obligations.VatWords := by
  intro s e L hd
  refine ⟨fun w hits img ho hv hl H hp hk hw room => ?_, fun w hits ho hv hl H => ⟨fun ho' hf hc hm => ?_, ?_⟩,
    fun w img => ⟨fun pa himg hi ho hk hu hq P => ?_, fun himg => ?_⟩, fun w hf => dkquery_acts L hf, fun w hp => ?_, fun w hp => ?_⟩
  · obtain ⟨vats, own⟩ := sends_next (op := postOp e w img) L (vop_ungated hd) hits (fun sh => { sh with posts := sh.posts + hits.length }) 0
    exact ⟨_, exec_post L ho hv hl H hp (fun h => hk (BitVec.eq_of_toNat_eq h)) hw room, own, vats⟩
  · exact ⟨_, exec_arm L ho' hf hv (armAccs_of_hits hl fun h hh => (H h hh).1) (fun h hh => (H h hh).2) hc hm,
      sends_next (op := armOp e w s.next) L (vop_ungated hd) hits (·.llOpen (armed s e w hits)) 1⟩
  · obtain ⟨vats, own⟩ := sends_none (op := disarmOp e w) L (vop_ungated hd) hits
    exact ⟨_, exec_disarm L ho hv (armAccs_of_hits hl fun h hh => (H h hh).1) (fun h hh => (H h hh).2), own, vats⟩
  · subst himg
    exact ⟨_, exec_dkload L hi ho hk hu hq P, installEff_installing L _⟩
  · subst himg
    exact ⟨_, issue_plain L _, installEff_installing L none⟩
  · exact ⟨_, (issue_plain L _).trans (congrArg (fun x : Eff => Host.Outcome.next (x.finish e)) (if_pos hp)), acts_none L⟩
  · exact ⟨_, (issue_plain L _).trans (congrArg (fun x : Eff => Host.Outcome.next (x.finish e)) (if_neg hp)), waits_none L _⟩

end Sys2Proof.Machine
end

section
/-! SUPPORT. Words of the matrix engine (R243, R261-R263): what a change of the quire's subscription leaves as it was, and what an
operation's entry into the engine queue changes. -/

namespace Sys2Proof.Machine
open Sys2Proof.Claims

/-! ### Subscriptions -/

/-- A quire whose subscription has changed. -/
def Quire.resub (σ : Option (Nat × Nat) → Option (Nat × Nat)) (q : Quire) : Quire := { q with sub := σ q.sub }
/-- A quire without its subscription. -/
def Quire.unsub (q : Quire) : Quire := { q with sub := none }
/-- What a sheet sees once its quire's subscription has changed. -/
def Env.resub (σ : Option (Nat × Nat) → Option (Nat × Nat)) (e : Env) : Env := { e with q := e.q.resub σ }

/-- On-chip windows show no subscriptions. -/
theorem State.readWin_unsub (s : State) (core off : Nat) :
    ({ s with quires := s.quires.mapv Quire.unsub } : State).readWin core off = s.readWin core off := by
  have on : ({ s with quires := s.quires.mapv Quire.unsub } : State).onCore core = (s.onCore core).map fun x => (x.1, x.2.unsub) := by
    unfold State.onCore Tab.mapv
    rw [List.filter_map]
    rfl
  have owner (p : Nat × Quire → Bool) (hp : ∀ x, p (x.1, x.2.unsub) = p x) :
      ((s.onCore core).map fun x => (x.1, x.2.unsub)).find? p = ((s.onCore core).find? p).map fun x => (x.1, x.2.unsub) := by
    rw [List.find?_map, show p ∘ (fun x => (x.1, x.2.unsub)) = p from funext hp]
  have tile (n : Nat) : ({ s with quires := s.quires.mapv Quire.unsub } : State).tileOwner core n =
      (s.tileOwner core n).map fun x => (x.1.unsub, x.2) := by
    unfold State.tileOwner
    rw [on, List.findSome?_map, List.map_findSome?]
    congr 1
    funext x
    simp only [Function.comp_apply, Option.map_map]
    rfl
  unfold State.readWin State.chamOwner
  simp only [tile, on]
  rw [owner _ fun _ => rfl, owner _ fun _ => rfl]
  split
  · generalize (s.onCore core).find? _ = x
    cases x <;> rfl
  · split
    · cases s.tileOwner core ((off - 0x80000) / 0x20000) <;> rfl
    · split
      · generalize (s.onCore core).find? _ = x
        cases x <;> rfl
      · rfl

section
variable {s u t : State} {e : Env} (σ : Option (Nat × Nat) → Option (Nat × Nat))

/-- No byte of memory depends on a subscription. -/
theorem State.readByte_resub (s : State) (h a : Nat) : (s.modQuire h (Quire.resub σ)).readByte a = s.readByte a := by
  have same : (s.modQuire h (Quire.resub σ)).quires.mapv Quire.unsub = s.quires.mapv Quire.unsub :=
    Tab.mapv_upd Quire.unsub (f := Quire.resub σ) (fun _ => rfl) s.quires h
  have shown (c o : Nat) : (s.modQuire h (Quire.resub σ)).readWin c o = s.readWin c o := by
    rw [← State.readWin_unsub s, ← State.readWin_unsub (s.modQuire _ _), same]
    rfl
  have region : (s.modQuire h (Quire.resub σ)).region a = s.region a := rfl
  unfold State.readByte
  rw [region]
  simp only [shown]
  rfl

/-- A subscription changed to what it is. -/
theorem State.modQuire_resub_same (s : State) (h : Nat) {σ : Option (Nat × Nat) → Option (Nat × Nat)} (same : ∀ x, σ x = x) :
    s.modQuire h (Quire.resub σ) = s := by
  have unmoved : Quire.resub σ = id := by
    funext q
    rw [Quire.resub, same]
    rfl
  rw [unmoved, State.modQuire, Tab.upd_id]

theorem Live.resub (L : Live s e) : Live (s.modQuire e.r.h (Quire.resub σ)) (e.resub σ) := by
  obtain ⟨cur, quire, sheet, resident, ready, ctx, free⟩ := L.spec
  have cur' : (s.modQuire e.r.h (Quire.resub σ)).cur = some e.r := cur
  have quire' : (s.modQuire e.r.h (Quire.resub σ)).quires.find e.r.h = some (e.q.resub σ) := by
    rw [State.modQuire, Tab.find_upd_self, quire]
    rfl
  have sheet' : (e.q.resub σ).sheets.find e.r.k = some e.sh := sheet
  have runs : (e.q.resub σ).phase = .resident ∧ e.sh.ready = true := ⟨resident, ready⟩
  unfold Live State.env?
  simp only [cur', quire', sheet', runs, and_self, if_true]
  rw [Env.resub, ctx, free]
  rfl

/-- A word that acts once its quire's subscription has changed, where the quires were as in `s`. -/
theorem Changes.own_resub {ws : List (RegKey × Word)} {f : Sheet → Sheet}
    (C : Changes (u.modQuire e.r.h (Quire.resub σ)) t (e.resub σ) ws f) (hq : u.quires = s.quires)
    (hc : u.cycles e.q.core = s.cycles e.q.core) :
    Own s t e (fun q => { q with sub := none }) id ws f ∧ (t.quires.find e.r.h).map (·.sub) = some (σ e.q.sub) := by
  obtain ⟨q, find, apart, qs, others, own⟩ := C.quire
  have cycles : (u.modQuire e.r.h (Quire.resub σ)).cycles (e.resub σ).q.core = s.cycles e.q.core := hc
  rw [cycles] at qs own
  refine ⟨⟨fun h hh => ?_, q, find, congrArg Quire.unsub apart, qs, fun k hk => ?_, own⟩, ?_⟩
  · rw [C.quires h hh, State.modQuire, Tab.find_upd_other _ _ hh, hq]
  · rw [Option.map_id]
    exact others k hk
  · rw [show t.quires.find e.r.h = some q from find]
    exact congrArg (fun q : Quire => some q.sub) apart

end

/-! ### The engine queue (R243) -/

section
variable {s : State} {e : Env} {body : Env → Eff} {eff : Eff} (L : Live s e) (h : body e = eff)
include L h

/-- How a word without operands that are checked ends. -/
theorem issue_ends : issue {} s body = .next (eff.finish e) := h ▸ issue_plain L body
/-- How a long-latency word without V operands ends. -/
theorem issue_ll_ends {fs : Bool} (flag : e.flagRoom fs) : issue { ll := some fs } s body = .next (eff.finish e) :=
  h ▸ issue_ll L body rfl flag

end

/-- Every operation but `mx.unsub` holds a queue entry (R243). -/
theorem Core.mxQueue_eq (c : Core) : c.mxQueue = c.mx.filter fun o => o.kind ≠ .unsub :=
  List.filter_congr fun o _ => by rw [Bool.eq_iff_iff]; simp

/-- An operation stands at the end of the core's engine queue with its chamber ranges, and nothing else of the module has changed
but quires. -/
structure Queued (s u : State) (e : Env) (op : MxOp) (ranges : List (Nat × Nat)) : Prop where
  module : u.apart = s.apart
  next   : u.next = s.next + 1
  bytes  : ∀ a, u.readByte a = s.readByte a
  cores  : ∀ n, n ≠ e.q.core → u.core n = s.core n
  core   : u.core e.q.core = { s.core e.q.core with
    mx := (s.core e.q.core).mx ++ [op]
    board := (s.core e.q.core).board ++ ranges.map fun r => ⟨s.next, e.r.h, r.1, r.2, false, true⟩ }

section
variable {s u t : State} {e : Env} {op : MxOp} {ranges : List (Nat × Nat)} (Q : Queued s u e op ranges)
include Q

theorem Queued.resub (σ : Option (Nat × Nat) → Option (Nat × Nat)) : Queued s (u.modQuire e.r.h (Quire.resub σ)) e op ranges :=
  ⟨Q.module, Q.next, fun a => (State.readByte_resub σ u _ a).trans (Q.bytes a), Q.cores, Q.core⟩

/-- The word of an operation that has entered the queue goes on. -/
theorem Queued.engaged {e' : Env} {ws : List (RegKey × Word)} {f : Sheet → Sheet} (A : Acts u t e' ws f 0) :
    Engaged s t e [op] [] ranges := by
  obtain ⟨C, next, -⟩ := A
  refine ⟨C.module.trans Q.module, next.trans Q.next, fun a => (C.memory a).trans (Q.bytes a), fun n hn => ?_, ?_⟩
  · rw [C.cores, Q.cores n hn]
  · rw [C.cores, Q.core]
    simp only [List.append_nil]
    rfl

end

/-- The state in which an operation has entered the engine queue with its chamber ranges. -/
def State.mxEnter (s : State) (e : Env) (tile : Nat) (kind : MxKind) (ranges : List (Nat × Nat)) : State :=
  (((({ s with next := s.next + 1 } : State).boardAdd e.q.core
    (ranges.map fun r => ⟨s.next, e.r.h, r.1, r.2, false, true⟩)).modCore e.q.core fun c =>
      { c with mx := c.mx ++ [mxOp s e tile kind] }).forkEng e.r s.next).linkSync (· == .mxs e.q.core) (.eng s.next)

section
variable {s : State} {e : Env} {tile : Nat} {kind : MxKind} {ranges : List (Nat × Nat)}

theorem State.mxEnter_queued : Queued s (s.mxEnter e tile kind ranges) e (mxOp s e tile kind) ranges where
  module := rfl
  next := rfl
  bytes := State.readByte_windows rfl rfl rfl rfl
  cores _ hn := (Tab.get_put_other _ _ _ hn).trans (Tab.get_put_other _ _ _ hn)
  core := by
    refine (Tab.get_put_self _ _ _ _).trans ?_
    rw [State.boardAdd, State.core_modCore]
    rfl

theorem Live.mxEnter (L : Live s e) : Live (s.mxEnter e tile kind ranges) e := L

/-- A matrix operation issues where there is room (R243, R266). -/
theorem mxIssue_room {given : List (Nat × Nat)} (free : s.unplaced e.r e.sh = false) (hr : (given.filter fun r => r.1 < r.2) = ranges)
    (room : EngineRoom s e ranges) (k : State → State) :
    mxIssue e s.fresh.2 s.next tile kind given k = .done (k (s.mxEnter e tile kind ranges)) := by
  obtain ⟨board, queue, apart⟩ := room
  have free' : s.fresh.2.unplaced e.r e.sh = false := free
  have core : s.fresh.2.core e.q.core = s.core e.q.core := rfl
  have clear : (ranges.any fun r => (s.core e.q.core).board.any fun b =>
      b.copy && b.h == e.r.h && decide (b.lo < r.2) && decide (r.1 < b.hi)) = false := by
    simp only [List.any_eq_false, Bool.and_eq_true, beq_iff_eq, decide_eq_true_eq, not_and, and_imp, Bool.not_eq_true]
    intro r hr b hb copy own
    have := apart r hr b hb copy own
    omega
  have boards : ¬16 - (s.core e.q.core).board.length < ranges.length := by omega
  have queued : ¬32 ≤ (s.core e.q.core).mxQueue.length := by
    rw [Core.mxQueue_eq]
    omega
  unfold mxIssue State.boardFree
  simp only [core, hr, free', clear, boards, queued, Bool.false_eq_true, if_false]
  rfl

end

end Sys2Proof.Machine
end

section
/-! PROOFS. Matrix operations (O42): the checks that they pass, the chamber ranges that they take, and that the words do no more. -/

namespace Sys2Proof.Machine
open Sys2Proof.Claims

/-! ### Checks (R243-R249, R253, R256) -/

section
variable {s : State} {e : Env} {w : FE}

theorem mxTile_held (h : w.va.toNat < e.q.ntiles) (k : Eff) : mxTile e s w k = k := if_pos h
/-- Where no check fails the word goes on. -/
theorem mxChecks_pass {cs : List (Bool × BitVec 8 × DWord × Nat)} (h : ∀ c ∈ cs, c.1 = false) (k : Unit → Eff) :
    mxChecks e s cs k = k () := by
  have passed : cs.find? (·.1) = none := List.find?_eq_none.2 fun c hc => by rw [h c hc]; exact Bool.false_ne_true
  unfold mxChecks
  rw [passed]

theorem sideOk_canonical {x : Side × Nat} (h : SideOk e x) : (!x.1.cham && !canonical x.1.addr) = false := by
  unfold SideOk at h
  cases hc : x.1.cham with
  | false =>
    rw [hc, if_neg Bool.false_ne_true] at h
    simp [h]
  | true => rfl
theorem sideOk_inCham {x : Side × Nat} (h : SideOk e x) : (x.1.cham && !e.q.inCham x.1.addr.toNat x.2) = false := by
  unfold SideOk at h
  cases hc : x.1.cham with
  | false => rfl
  | true =>
    rw [hc, if_pos rfl] at h
    simp only [Quire.inCham, Bool.true_and, Bool.not_eq_false', Bool.and_eq_true, decide_eq_true_eq]
    omega

end

/-! ### Chamber ranges (R266) -/

theorem inChamber_eq (x : Side × Nat) :
    ((if x.1.cham then [(x.1.addr.toNat, x.1.addr.toNat + x.2)] else []).filter fun r => decide (r.1 < r.2)) = inChamber x := by
  unfold inChamber
  cases x.1.cham with
  | false => rfl
  | true =>
    by_cases h : x.2 = 0
    · simp [h]
    · simp [h, Nat.pos_of_ne_zero h]

/-- The ranges of an operation's chamber sides, the empty ones apart. -/
theorem chamberRanges_eq (l : List (Side × Nat)) :
    (((l.filter fun x => x.1.cham).map fun x => (x.1.addr.toNat, x.1.addr.toNat + x.2)).filter fun r => decide (r.1 < r.2)) =
      l.flatMap inChamber := by
  induction l with
  | nil => rfl
  | cons x l ih =>
    rw [List.flatMap_cons, ← ih, ← inChamber_eq, ← List.filter_append]
    congr 1
    cases hc : x.1.cham <;> simp [hc]

/-! ### `mx.mma` and `mx.conv` (R249, R253) -/

section
variable {s : State} {e : Env} {w : FE} {f : FmtBlock} {c : Option Conv}

/-- The descriptors that a word reads (R246, R253). -/
def descsOf (e : Env) (w : FE) (c : Option Conv) : List Nat :=
  (e.s (w.sc.toNat + 3)).toNat :: if c.isSome then [(e.s (w.sc.toNat + 1)).toNat] else []
/-- The chamber ranges of a word (R266). -/
def rangesOf (e : Env) (w : FE) (f : FmtBlock) (c : Option Conv) : List (Nat × Nat) :=
  (reaches (operands e w f c)).flatMap inChamber ++ (descsOf e w c).map fun d => (d, d + 32)
/-- What a stream's blocks leave of the subscription (R262). -/
def Mma.claims (m : Mma) (sub : Option (Nat × Nat)) : Option (Nat × Nat) :=
  sub.map fun x => (x.1, if m.b = none then x.2 + m.kk / 128 else x.2)
/-- The checks of a descriptor's place (R249, R253). -/
def descChecks (e : Env) (d : Nat) : List (Bool × BitVec 8 × DWord × Nat) :=
  [(!e.q.inCham d 32, cAccess, BitVec.ofNat 64 d, 2), (d % 16 != 0, cMisaligned, BitVec.ofNat 64 d, 0)]
/-- The checks of R249 and R253, in their order, of operands `m` and descriptors at `descs`, which are valid. -/
def mmaChecks (s : State) (e : Env) (m : Mma) (descs : List Nat) : List (Bool × BitVec 8 × DWord × Nat) :=
  let b := m.b.elim 0 (·.addr)
  [(m.kk % 128 != 0 || m.kk == 0 || 16384 < m.kk, cMatrix, e.sh.pc, 2)] ++ descs.flatMap (descChecks e) ++
  [(false, cMatrix, e.sh.pc, 3), (false, cMatrix, e.sh.pc, 4)] ++
  ((reaches m).map fun x => (!x.1.cham && !canonical x.1.addr, cAccess, x.1.addr, 0)) ++
  ((reaches m).map fun x => (x.1.cham && !e.q.inCham x.1.addr.toNat x.2, cAccess, x.1.addr, 2)) ++
  [(m.a.addr.toNat % 16 != 0, cMisaligned, m.a.addr, 0), (b.toNat % 16 != 0, cMisaligned, b, 0),
   (m.astr % 16 != 0, cMisaligned, m.a.addr, 0), (m.bstr % 16 != 0, cMisaligned, b, 0),
   (m.f.ask == 1 && m.f.ascl.toNat % 4 != 0, cMisaligned, m.f.ascl, 0),
   (m.f.bsk == 1 && m.f.bscl.toNat % 4 != 0, cMisaligned, m.f.bscl, 0),
   (m.b.isNone && !s.streamOk e.q (m.kk / 128) (mxSize m.f.bfmt), cMatrix, e.sh.pc, 5)]

/-- `mx.mma` and `mx.conv` with valid descriptors: the other checks, then the queue. -/
theorem mmaEff_eq (fmt : fmtBlockOf (e.q.chamBytes (e.s (w.sc.toNat + 3)).toNat 32) = some f)
    (conv : (if c.isSome then convOf (e.q.chamBytes (e.s (w.sc.toNat + 1)).toNat 32) (operands e w f c).kk (e.s w.sd.toNat).toNat
      else none) = c) :
    mmaEff e s w c.isSome =
      let m := operands e w f c
      mxTile e s w <| mxChecks e s (mmaChecks s e m (descsOf e w c)) fun _ =>
        mxIssue e s.fresh.2 s.next w.va.toNat (.mma m)
          ((((reaches m).filter fun x => x.1.cham).map fun x => (x.1.addr.toNat, x.1.addr.toNat + x.2)) ++
            [((e.s (w.sc.toNat + 3)).toNat, (e.s (w.sc.toNat + 3)).toNat + 32)] ++
            if c.isSome then [((e.s (w.sc.toNat + 1)).toNat, (e.s (w.sc.toNat + 1)).toNat + 32)] else [])
          fun s => s.modQuire e.r.h (Quire.resub m.claims) := by
  have claims (x : Side) (u : State) : u.modQuire e.r.h (Quire.resub (Mma.claims { operands e w f c with b := some x })) = u :=
    u.modQuire_resub_same e.r.h fun _ => congrFun Option.map_id _
  unfold mmaEff
  simp only [operands] at conv claims ⊢
  simp only [fmt, conv, Option.getD_some]
  cases w.mod.getLsbD 2 with
  | true => cases c <;> rfl
  | false =>
    simp only [Bool.false_eq_true, if_false, claims]
    cases c <;> rfl

/-- Operands `m`, with descriptors at `descs`, that pass the checks of R249 and R253. -/
structure MmaReady (s : State) (e : Env) (m : Mma) (descs : List Nat) : Prop where
  blocks : m.kk % 128 = 0 ∧ m.kk ≠ 0 ∧ m.kk ≤ 16384
  descs  : ∀ d ∈ descs, d + 32 ≤ 4096 * e.q.chamg ∧ d % 16 = 0
  sides  : ∀ x ∈ reaches m, SideOk e x
  a      : m.a.addr.toNat % 16 = 0 ∧ m.astr % 16 = 0
  b      : (∀ b ∈ m.b, b.addr.toNat % 16 = 0) ∧ m.bstr % 16 = 0
  scales : (m.f.ask = 1 → m.f.ascl.toNat % 4 = 0) ∧ (m.f.bsk = 1 → m.f.bscl.toNat % 4 = 0)
  stream : m.b = none → s.streamOk e.q (m.kk / 128) (mxSize m.f.bfmt) = true

theorem MmaReady.pass {m : Mma} {descs : List Nat} (R : MmaReady s e m descs) : ∀ x ∈ mmaChecks s e m descs, x.1 = false := by
  obtain ⟨⟨kk, kk0, kkTop⟩, inside, sides, ⟨a, astr⟩, ⟨b, bstr⟩, ⟨ascl, bscl⟩, stream⟩ := R
  have b' : (m.b.elim 0 (·.addr)).toNat % 16 = 0 := by
    cases h : m.b with
    | none => rfl
    | some y => exact b y h
  have stream' : (m.b.isNone && !s.streamOk e.q (m.kk / 128) (mxSize m.f.bfmt)) = false := by
    cases h : m.b with
    | none => simp [stream h]
    | some y => rfl
  have place : ∀ d ∈ descs, ∀ x ∈ descChecks e d, x.1 = false := by
    intro d hd
    obtain ⟨fits, even⟩ := inside d hd
    have fits' : e.q.inCham d 32 = true := by
      simp only [Quire.inCham, Bool.and_eq_true, decide_eq_true_eq]
      omega
    simp [descChecks, fits', even]
  have aligned {n : Nat} (h : n % 16 = 0) : (n % 16 != 0) = false := bne_eq_false_iff_eq.2 h
  have scale (k : Nat) (x : DWord) (h : k = 1 → x.toNat % 4 = 0) : (k == 1 && x.toNat % 4 != 0) = false := by
    by_cases one : k = 1
    · simp [h one]
    · simp [one]
  unfold mmaChecks
  simp only [List.forall_mem_append, List.forall_mem_map, List.forall_mem_flatMap, List.forall_mem_cons]
  refine ⟨⟨⟨⟨⟨⟨?_, nofun⟩, place⟩, trivial, trivial, nofun⟩, fun x hx => sideOk_canonical (sides x hx)⟩,
    fun x hx => sideOk_inCham (sides x hx)⟩, aligned a, aligned b', aligned astr, aligned bstr, scale _ _ ascl, scale _ _ bscl,
    stream', nofun⟩
  simp [kk, kk0, kkTop]

theorem rangesOf_filter : (((((reaches (operands e w f c)).filter fun x => x.1.cham).map fun x => (x.1.addr.toNat, x.1.addr.toNat + x.2)) ++
    [((e.s (w.sc.toNat + 3)).toNat, (e.s (w.sc.toNat + 3)).toNat + 32)] ++
    if c.isSome then [((e.s (w.sc.toNat + 1)).toNat, (e.s (w.sc.toNat + 1)).toNat + 32)] else []).filter fun r => decide (r.1 < r.2)) =
      rangesOf e w f c := by
  rw [List.filter_append, List.filter_append, chamberRanges_eq, rangesOf, descsOf, List.append_assoc]
  cases c.isSome <;> simp

theorem mmaEff_ready (fmt : fmtBlockOf (e.q.chamBytes (e.s (w.sc.toNat + 3)).toNat 32) = some f)
    (conv : (if c.isSome then convOf (e.q.chamBytes (e.s (w.sc.toNat + 1)).toNat 32) (operands e w f c).kk (e.s w.sd.toNat).toNat
      else none) = c)
    (R : MmaReady s e (operands e w f c) (descsOf e w c)) (tile : w.va.toNat < e.q.ntiles) (free : s.unplaced e.r e.sh = false)
    (room : EngineRoom s e (rangesOf e w f c)) :
    mmaEff e s w c.isSome = .done ((s.mxEnter e w.va.toNat (.mma (operands e w f c)) (rangesOf e w f c)).modQuire e.r.h
      (Quire.resub (operands e w f c).claims)) := by
  rw [mmaEff_eq fmt conv]
  dsimp only
  rw [mxTile_held tile, mxChecks_pass R.pass, mxIssue_room free rangesOf_filter room]

/-- What a word leaves that enters the engine queue as an `mx.mma` or `mx.conv` (R262). -/
theorem mma_answers {o : Out} {eff : Eff} {m : Mma} {ranges : List (Nat × Nat)} (L : Live s e)
    (he : eff = .done ((s.mxEnter e w.va.toNat (.mma m) ranges).modQuire e.r.h (Quire.resub m.claims))) (ho : o = .next (eff.finish e)) :
    Answers o fun t => Engaged s t e [mxOp s e w.va.toNat (.mma m)] [] ranges ∧
      Own s t e (fun q => { q with sub := none }) id [] (past s e) ∧ (t.quires.find e.r.h).map (·.sub) = some (m.claims e.q.sub) := by
  subst he ho
  have A := acts_none ((Live.mxEnter (tile := w.va.toNat) (kind := .mma m) (ranges := ranges) L).resub m.claims)
  exact ⟨_, rfl, (State.mxEnter_queued.resub m.claims).engaged A, A.1.own_resub m.claims rfl rfl⟩

end

/-! ### `mx.zero` and `mx.read` (R255, R256) -/

section
variable {s : State} {e : Env} {w : FE}

/-- A 16-bit field as a signed number. -/
theorem signed16 (x : Word) :
    (x.extractLsb' 0 16).toInt = let n : Nat := x.toNat % 2 ^ 16; if n < 2 ^ 15 then (n : Int) else (n : Int) - 2 ^ 16 := by
  rw [BitVec.toInt_eq_toNat_cond, BitVec.extractLsb'_toNat, Nat.shiftRight_zero]
  dsimp only
  split <;> split <;> omega

/-- `mx.zero` where the engine has room. -/
theorem mxZero_engaged (L : Live s e) (tile : w.va.toNat < e.q.ntiles) (free : s.unplaced e.r e.sh = false) (room : EngineRoom s e []) :
    Answers (exec (.mxZero w) s) fun t =>
      Engaged s t e [mxOp s e w.va.toNat (.zero ((e.s w.sa.toNat).extractLsb' 0 16).toInt)] [] [] ∧ Own s t e id id [] (past s e) := by
  let kind : MxKind := .zero ((e.s w.sa.toNat).extractLsb' 0 16).toInt
  have run : exec (.mxZero w) s = .next ((s.mxEnter e w.va.toNat kind []).advance e) :=
    issue_ends (eff := .done _) L ((mxTile_held tile _).trans (mxIssue_room (given := []) free rfl room id))
  have A := acts_none (Live.mxEnter (tile := w.va.toNat) (kind := kind) (ranges := []) L)
  exact ⟨_, run, State.mxEnter_queued.engaged A, A.1.own rfl rfl⟩

/-- Bytes of an element of a readout (R256). -/
theorem readFmt_size (f : Nat) (h : f < 4) : (readFmt f).1 = ([4, 2, 1, 1] : List Nat).getD f 1 := by
  interval_cases f <;> rfl

/-- The side that `mx.read` writes. -/
def readSide (e : Env) (w : FE) : Side := e.side (w.mod.getLsbD 2) w.sa
/-- The bytes that `mx.read` covers (R256). -/
def readLen (e : Env) (w : FE) : Nat :=
  let l := (e.s (w.sc.toNat + 1)).toNat
  if l = 0 then 0 else (l - 1) * (e.s w.sc.toNat).toNat + 128 * ([4, 2, 1, 1] : List Nat).getD (w.mod.toNat % 4) 1

/-- `mx.read` past its checks, where the engine has room. -/
theorem mxRead_engaged (L : Live s e) (tile : w.va.toNat < e.q.ntiles) (free : s.unplaced e.r e.sh = false)
    (flag : e.flagRoom w.com.fs) (rows : (e.s (w.sc.toNat + 1)).toNat ≤ 128)
    (side : (e.s (w.sc.toNat + 1)).toNat ≠ 0 → SideOk e (readSide e w, readLen e w))
    (canon : (readSide e w).cham = false → canonical (readSide e w).addr = true)
    (place : (readSide e w).addr.toNat % 16 = 0) (stride : (e.s w.sc.toNat).toNat % 16 = 0)
    (room : EngineRoom s e (inChamber (readSide e w, readLen e w))) :
    Answers (exec (.mxRead w) s) fun t =>
      Engaged s t e [mxOp s e w.va.toNat (.read (readSide e w) (e.s w.sc.toNat).toNat (e.s (w.sc.toNat + 1)).toNat (w.mod.toNat % 4)
        (w.mod.getLsbD 3) s.next)] [] (inChamber (readSide e w, readLen e w)) ∧
      Own s t e id id [] fun sh => past s e (sh.llOpen { held s e w.com.fs [] false with left := 1 }) := by
  let kind : MxKind := .read (readSide e w) (e.s w.sc.toNat).toNat (e.s (w.sc.toNat + 1)).toNat (w.mod.toNat % 4) (w.mod.getLsbD 3) s.next
  have fmt : (w.mod.extractLsb' 0 2).toNat = w.mod.toNat % 4 := tableSlot_eq w.mod
  have run : exec (.mxRead w) s = .next ((((s.mxEnter e w.va.toNat kind (inChamber (readSide e w, readLen e w))).modSheet e.r
      (·.llOpen { held s e w.com.fs [] false with left := 1 }))).advance e) := by
    refine issue_ll_ends (eff := .done _) L ?_ flag
    simp only [fmt, readFmt_size _ (Nat.mod_lt w.mod.toNat (by decide : 4 > 0))]
    rw [mxTile_held tile, mxChecks_pass]
    · exact mxIssue_room free (inChamber_eq (readSide e w, readLen e w)) room _
    · have covered : ((readSide e w).cham && (e.s (w.sc.toNat + 1)).toNat != 0 &&
          !e.q.inCham (readSide e w).addr.toNat (readLen e w)) = false := by
        by_cases rows : (e.s (w.sc.toNat + 1)).toNat = 0
        · simp [rows]
        · simpa [rows] using sideOk_inCham (side rows)
      have canon' : (!(readSide e w).cham && !canonical (readSide e w).addr) = false := by
        cases h : (readSide e w).cham with
        | false => simp [canon h]
        | true => rfl
      have aligned : ((readSide e w).addr.toNat % 16 != 0 || (e.s w.sc.toNat).toNat % 16 != 0) = false := by simp [place, stride]
      simp only [List.forall_mem_cons]
      exact ⟨by simp [rows], canon', covered, aligned, nofun⟩
  have A := acts_sheet (Live.mxEnter (tile := w.va.toNat) (kind := kind) (ranges := inChamber (readSide e w, readLen e w)) L)
    (·.llOpen { held s e w.com.fs [] false with left := 1 })
  exact ⟨_, run, State.mxEnter_queued.engaged A, A.1.own rfl rfl⟩

end

/-- Settles O42: `mxZero_engaged`, `mmaEff_ready` with `mma_answers`, and `mxRead_engaged` are the words past their checks. -/
theorem matrixOperations : Obligations.MatrixOperations := by
  intro w s e L tile free side
  refine ⟨fun room => ?_, ?_, fun flag rows ok canon place stride room =>
    mxRead_engaged L tile free flag rows ok canon place stride room⟩
  · have zero := mxZero_engaged L tile free room
    rw [signed16] at zero
    exact zero
  · intro i f c descs m off conv bytes ranges word kk kk0 kkTop inside fmt sides a b astr bstr ascl bscl stream room
    have R : MmaReady s e m descs := ⟨⟨kk, kk0, kkTop⟩, inside, sides, ⟨a, astr⟩, ⟨b, bstr⟩, ⟨ascl, bscl⟩, fun hb => by
      obtain ⟨n, k, x, sub, found, fits, width⟩ := stream hb
      unfold State.streamOk
      rw [sub, Option.any_some, show galleryOf e.q.core = e.q.core / 20 from rfl, found, Option.any_some, Bool.and_eq_true,
        decide_eq_true_eq, beq_iff_eq]
      exact ⟨fits, width⟩⟩
    rcases word with ⟨rfl, rfl, rfl⟩ | ⟨rfl, present, valid, rfl⟩
    · exact mma_answers L (mmaEff_ready (c := none) fmt rfl R tile free room) (issue_plain L _)
    · obtain ⟨x, rfl⟩ := Option.isSome_iff_exists.1 present
      exact mma_answers L (mmaEff_ready (c := some x) fmt valid R tile free room) (issue_plain L _)

end Sys2Proof.Machine
end

section
/-! PROOFS. Batches and streams of the matrix engine (O43): when a batch is complete, how the siphon answers, and when an `mx.unsub`
takes effect. -/

namespace Sys2Proof.Machine
open Sys2Proof.Claims

/-! ### Batches (R257-R259) -/

/-- A batch is complete when no operation of it or of an earlier one holds a queue entry (R257). -/
theorem batchDone_iff (c : Core) (r : SheetRef) (n : Word) :
    c.batchDone r n = true ↔ ∀ o ∈ c.mx, o.kind ≠ .unsub → o.ref = r → 2 ^ 31 ≤ (n - o.batch).toNat := by
  simp only [Core.batchDone, Core.mxQueue, List.all_eq_true, List.mem_filter, Bool.or_eq_true, bne_iff_ne, decide_eq_true_eq, and_imp,
    ← imp_iff_not_or]

/-- The sheet past an `mx.fence` of batch `n` (R257). -/
def Sheet.fenced (n : Word) (done : Bool) (sh : Sheet) : Sheet :=
  let next := if n = 0xFFFFFFFF then 1 else n + 1
  { sh with batch := next, window := (sh.cur :: sh.window).take 64, cur := ⟨next, 0, 0, 0⟩, mxDone := if done then n else sh.mxDone }

theorem Steady.fenced (n : Word) (done : Bool) : Steady (·.fenced n done) :=
  ⟨fun _ _ h => congrArg (Sheet.fenced n done) h, fun _ _ => raw_congr rfl rfl rfl rfl _⟩

/-- One S register is real. -/
theorem sReg_real (n : Nat) (x : Word) : ∀ k ∈ [(RegKey.s n, x)], k.1.real := fun k hk => by
  rw [List.mem_singleton.1 hk]
  trivial
theorem sPair_real (n m : Nat) (x y : Word) : ∀ k ∈ [(RegKey.s n, x), (RegKey.s m, y)], k.1.real := by simp [RegKey.real]

section
variable {s : State} {e : Env} {w : FE}

theorem mxFence_acts (L : Live s e) : Answers (exec (.mxFence w) s) fun t =>
    Acts s t e [(.s w.sd.toNat, e.sh.batch)] (·.fenced e.sh.batch ((s.core e.q.core).batchDone e.r e.sh.batch)) 0 :=
  ⟨_, issue_plain L _, acts_regs_sheet L _ (sReg_real _ _) (Steady.fenced _ _)⟩

section
variable {n : Word} {b : Batch} (hn : e.s w.sa.toNat = n) (open_ : n ≠ e.sh.batch) (zero : n ≠ 0)
  (age : (e.sh.batch - n).toNat < 2 ^ 31) (found : (e.sh.window.find? fun x => x.n = n) = some b)
include hn open_ zero age found

/-- `mx.wait` of a batch in the window (R258). -/
theorem exec_mxWait (L : Live s e) : exec (.mxWait w) s = .next (Eff.finish e <|
    if (s.core e.q.core).batchDone e.r n then .done ((s.batchJoin e.r n).mxGive e.r w.sd.toNat b) else .hold s (.mxWait n w.sd.toNat)) := by
  have inWindow : ¬(n = 0 ∨ (e.sh.batch - n).toNat = 0 ∨ 2 ^ 31 ≤ (e.sh.batch - n).toNat) := by
    rintro (h | h | h)
    · exact zero h
    · exact open_ (by bv_omega)
    · omega
  have found' : e.sh.window.find? (fun x => x.n == n) = some b := found
  refine issue_ends L ?_
  dsimp only
  rw [hn, found']
  exact if_neg inWindow

theorem mxWait_complete (L : Live s e) (done : (s.core e.q.core).batchDone e.r n = true) :
    Answers (exec (.mxWait w) s) fun t =>
      Goes s t e [(.s w.sd.toNat, BitVec.ofNat 32 (b.status.toNat + 2 ^ 8 * b.tile)), (.s (w.sd.toNat + 1), b.addr)] id 0 ∧
        t.stores = (s.batchJoin e.r n).stores := by
  have L' : Live { s with stores := (s.batchJoin e.r n).stores } e := L
  exact ⟨_, (exec_mxWait hn open_ zero age found L).trans (by rw [if_pos done]; rfl),
    Goes.of_acts (acts_regs L' _ (sPair_real _ _ _ _)), by simp only [State.advance_stores, State.writeRegs_stores]⟩
theorem mxWait_waits (L : Live s e) (done : ¬(s.core e.q.core).batchDone e.r n = true) :
    Answers (exec (.mxWait w) s) fun t => Waits s t e [] id (.mxWait n w.sd.toNat) 0 :=
  ⟨_, (exec_mxWait hn open_ zero age found L).trans (by rw [if_neg done]; rfl), waits_none L _⟩

end

/-- `mx.stat` (R251, R259). -/
theorem mxStat_acts (L : Live s e) (tile : w.va.toNat < e.q.ntiles) (flag : e.flagRoom w.com.fs) :
    let x := e.q.tiles.get (Tile.reserved e.q.fkey) w.va.toNat
    Answers (exec (.mxStat w) s) fun t => Acts s t e [] (·.llOpen (held s e w.com.fs
      [(.s w.sd.toNat, some x.rowp), (.s (w.sd.toNat + 1), some (BitVec.ofInt 32 x.e)),
       (.s (w.sd.toNat + 2), some (BitVec.ofNat 32 ((s.core e.q.core).mxQueue.length % 64))), (.s (w.sd.toNat + 3), some e.sh.mxDone)]
      false)) 1 :=
  ⟨_, issue_ll_ends (eff := .done _) L (mxTile_held tile _) flag, acts_next L _ 1⟩

end

/-! ### `mx.sub` (R261) -/

/-- An `mx.sub` that passes its checks. -/
structure MxSubReady (e : Env) (w : FE) : Prop where
  free   : e.q.sub = none
  total  : 1 ≤ (e.s (w.sc.toNat + 1)).toNat ∧ (e.s (w.sc.toNat + 1)).toNat ≤ 2 ^ 24
  window : 1 ≤ (e.s (w.sc.toNat + 2)).toNat ∧ (e.s (w.sc.toNat + 2)).toNat ≤ 16
  canon  : canonical (e.spair w.sb.toNat) = true
  place  : (e.spair w.sb.toNat).toNat % 16 = 0 ∧ (e.s w.sc.toNat).toNat % 16 = 0

section
variable {s : State} {e : Env} {w : FE}

/-- The stream that an `mx.sub` opens. -/
def subStream (e : Env) (w : FE) : Stream :=
  ⟨(e.s w.sa.toNat).toNat % 2 ^ 16, e.spair w.sb.toNat, (e.s w.sc.toNat).toNat, (e.s (w.sc.toNat + 1)).toNat, w.mod.toNat % 4, e.q.ctx, 0,
    [], [], 0⟩
/-- A stream has the parameters of another (R261). -/
abbrev Stream.fits (x y : Stream) : Prop := x.base = y.base ∧ x.stride = y.stride ∧ x.t = y.t ∧ x.ew = y.ew
/-- The quire has joined stream `n`, which was `x`. -/
def State.joined (s : State) (e : Env) (w : FE) (n : Nat) (x : Stream) : State :=
  (s.modGallery (galleryOf e.q.core) fun y =>
    { y with streams := y.streams.put n { x with subs := x.subs ++ [(e.r.h, (e.s (w.sc.toNat + 2)).toNat, 0)] } }).modQuire e.r.h
      (Quire.resub fun _ => some (n, 0))
/-- How an `mx.sub` ends past its checks: what the siphon answers (R261). -/
def State.siphon (s : State) (e : Env) (w : FE) : Eff :=
  let answer := fun (s : State) (st : Word) => Eff.done (s.writeRegs e.r [(.s w.sd.toNat, st)])
  let streams := (s.gallery (galleryOf e.q.core)).streams
  match streams.find? fun x => x.2.id == (subStream e w).id with
  | some (n, x) => if ¬x.fits (subStream e w) then answer s 2 else if x.dropped ≠ 0 then answer s 3 else answer (s.joined e w n x) 0
  | none =>
    match (List.range 8).find? fun n => (streams.find n).isNone with
    | none => answer s 1
    | some n => answer (s.joined e w n (subStream e w)) 0

theorem exec_mxSub (L : Live s e) (R : MxSubReady e w) : exec (.mxSub w) s = .next ((s.siphon e w).finish e) := by
  obtain ⟨free, ⟨total, totalTop⟩, ⟨window, windowTop⟩, canon, base, stride⟩ := R
  have sizes : ((e.s (w.sc.toNat + 1)).toNat == 0 || decide (2 ^ 24 < (e.s (w.sc.toNat + 1)).toNat) ||
      (e.s (w.sc.toNat + 2)).toNat == 0 || decide (16 < (e.s (w.sc.toNat + 2)).toNat)) = false := by
    simp only [Bool.or_eq_false_iff, beq_eq_false_iff_ne, decide_eq_false_iff_not]
    omega
  have aligned : ((e.spair w.sb.toNat).toNat % 16 != 0 || (e.s w.sc.toNat).toNat % 16 != 0) = false := by simp [base, stride]
  have ident : ((e.s w.sa.toNat).extractLsb' 0 16).toNat = (subStream e w).id := by
    rw [BitVec.extractLsb'_toNat, Nat.shiftRight_zero]; rfl
  refine issue_ends L ?_
  rw [mxChecks_pass]
  · simp only [ident, tableSlot_eq] <;> rfl
  · simp only [List.forall_mem_cons]
    exact ⟨by rw [free]; rfl, sizes, by rw [canon]; rfl, aligned, nofun⟩

theorem Changes.galleries {t : State} {ws : List (RegKey × Word)} {f : Sheet → Sheet} (C : Changes s t e ws f) :
    t.galleries = s.galleries :=
  (congrArg State.galleries C.module :)
theorem Changes.gallery {t : State} {ws : List (RegKey × Word)} {f : Sheet → Sheet} (C : Changes s t e ws f) (n : Nat) :
    t.gallery n = s.gallery n := by
  rw [State.gallery, C.galleries]
  rfl

/-- The siphon refuses. -/
theorem mxSub_refuses (L : Live s e) (R : MxSubReady e w) {st : Word}
    (h : s.siphon e w = .done (s.writeRegs e.r [(.s w.sd.toNat, st)])) :
    Answers (exec (.mxSub w) s) fun t => Acts s t e [(.s w.sd.toNat, st)] id 0 :=
  ⟨_, (exec_mxSub L R).trans (by rw [h]; rfl), acts_regs L _ (sReg_real _ _)⟩
/-- The quire joins a stream (R261). -/
theorem mxSub_joins (L : Live s e) (R : MxSubReady e w) {n : Nat} {x : Stream}
    (h : s.siphon e w = .done ((s.joined e w n x).writeRegs e.r [(.s w.sd.toNat, 0)])) :
    Answers (exec (.mxSub w) s) fun t =>
      t.apart = { s.apart with galleries := t.galleries } ∧ (∀ m, (t.core m).apart = (s.core m).apart) ∧
        (t.gallery (galleryOf e.q.core)).streams = (s.gallery (galleryOf e.q.core)).streams.put n
          { x with subs := x.subs ++ [(e.r.h, (e.s (w.sc.toNat + 2)).toNat, 0)] } ∧
        (t.quires.find e.r.h).map (·.sub) = some (some (n, 0)) ∧
        Own s t e (fun q => { q with sub := none }) id [(.s w.sd.toNat, 0)] (past s e) := by
  let u : State := s.modGallery (galleryOf e.q.core) fun y =>
    { y with streams := y.streams.put n { x with subs := x.subs ++ [(e.r.h, (e.s (w.sc.toNat + 2)).toNat, 0)] } }
  have L' : Live u e := L
  obtain ⟨C, -⟩ := acts_regs (L'.resub fun _ => some (n, 0)) _ (sReg_real w.sd.toNat 0)
  obtain ⟨own, sub⟩ := C.own_resub (s := s) (fun _ => some (n, 0)) rfl rfl
  refine ⟨_, (exec_mxSub L R).trans (by rw [h]; rfl), ?_, C.cores, ?_, sub, own⟩
  · rw [C.module, C.galleries]
    rfl
  · exact congrArg Gallery.streams ((C.gallery _).trans (Tab.get_put_self _ _ _ _))

section
variable {n : Nat} {x : Stream}

/-- A stream with the identity that the word names (R261). -/
theorem siphon_named (h : ((s.gallery (galleryOf e.q.core)).streams.find? fun y => y.2.id == (subStream e w).id) = some (n, x)) :
    s.siphon e w = if ¬x.fits (subStream e w) then .done (s.writeRegs e.r [(.s w.sd.toNat, 2)])
      else if x.dropped ≠ 0 then .done (s.writeRegs e.r [(.s w.sd.toNat, 3)])
      else .done ((s.joined e w n x).writeRegs e.r [(.s w.sd.toNat, 0)]) := by
  unfold State.siphon
  dsimp only
  rw [h]

variable (unnamed : ((s.gallery (galleryOf e.q.core)).streams.find? fun y => y.2.id == (subStream e w).id) = none)
include unnamed

/-- No such stream, and none free (R261). -/
theorem siphon_full (full : ∀ k, k < 8 → ((s.gallery (galleryOf e.q.core)).streams.find k).isSome) :
    s.siphon e w = .done (s.writeRegs e.r [(.s w.sd.toNat, 1)]) := by
  have taken : ((List.range 8).find? fun k => ((s.gallery (galleryOf e.q.core)).streams.find k).isNone) = none := by
    rw [List.find?_eq_none]
    intro k hk
    simpa [Option.isSome_iff_ne_none] using full k (List.mem_range.1 hk)
  unfold State.siphon
  dsimp only
  rw [unnamed, taken]
/-- No such stream, and one free (R261). -/
theorem siphon_opens (hn : n < 8) (free : (s.gallery (galleryOf e.q.core)).streams.find n = none)
    (below : ∀ k, k < n → ((s.gallery (galleryOf e.q.core)).streams.find k).isSome) :
    s.siphon e w = .done ((s.joined e w n (subStream e w)).writeRegs e.r [(.s w.sd.toNat, 0)]) := by
  have first : ((List.range 8).find? fun k => ((s.gallery (galleryOf e.q.core)).streams.find k).isNone) = some n := by
    rw [List.find?_range_eq_some]
    refine ⟨by rw [free]; rfl, List.mem_range.2 hn, fun k hk => ?_⟩
    simpa [Option.isSome_iff_ne_none] using below k hk
  unfold State.siphon
  dsimp only
  rw [unnamed, first]

end

end

/-! ### `mx.unsub` (R263) -/

/-- A word that leaves its quire's subscription alone. -/
theorem own_forget_sub {s t : State} {e : Env} {ws : List (RegKey × Word)} {f : Sheet → Sheet} (O : Own s t e id id ws f) :
    Own s t e (fun q => { q with sub := none }) id ws f ∧ (t.quires.find e.r.h).map (·.sub) = some e.q.sub := by
  obtain ⟨quires, q, find, apart, rest⟩ := O
  refine ⟨⟨quires, q, find, congrArg Quire.unsub apart, rest⟩, ?_⟩
  rw [find]
  exact (congrArg (fun q : Quire => some q.sub) apart :)

/-- The `mx.unsub` words among a core's operations that no earlier BS operation holds (R263). -/
def dueUnsubs (ops : List MxOp) : List (MxOp × Nat) :=
  ops.zipIdx.filter fun x => x.1.kind == .unsub && !(ops.take x.2).any (·.isBs x.1.ref.h)

theorem State.settleUnsubs_eq (s : State) (core : Nat) {due : List (MxOp × Nat)} (h : dueUnsubs (s.core core).mx = due) :
    s.settleUnsubs core = due.foldl (fun s d => s.unsubscribe d.1.ref.h)
      (s.modCore core fun c => { c with mx := c.mx.filter fun o => !due.any fun d => d.1.id == o.id }) := by
  subst h
  rfl

/-- After operations that are no `mx.unsub`, one is due unless one of its quire's BS operations stands before it. -/
theorem dueUnsubs_last {ops : List MxOp} {o : MxOp} (ho : o.kind = .unsub) (h : ∀ x ∈ ops, x.kind ≠ .unsub) :
    dueUnsubs (ops ++ [o]) = if ops.any (·.isBs o.ref.h) then [] else [(o, ops.length)] := by
  have before : ops.zipIdx.filter (fun x => x.1.kind == .unsub && !((ops ++ [o]).take x.2).any (·.isBs x.1.ref.h)) = [] := by
    rw [List.filter_eq_nil_iff]
    intro x hx
    have := h x.1 (List.fst_mem_of_mem_zipIdx hx)
    simp [this]
  unfold dueUnsubs
  rw [List.zipIdx_append, List.filter_append, before]
  cases held : ops.any (·.isBs o.ref.h) <;> simp [ho, held]

theorem any_isBs_iff (ops : List MxOp) (h : Nat) :
    ops.any (·.isBs h) = true ↔ ∃ o ∈ ops, o.ref.h = h ∧ ∃ m, o.kind = .mma m ∧ m.b = none := by
  rw [List.any_eq_true]
  refine exists_congr fun o => and_congr_right fun _ => ?_
  unfold MxOp.isBs
  rw [Bool.and_eq_true, beq_iff_eq]
  refine and_congr_right fun _ => ?_
  cases o.kind <;> simp

/-- A gallery's streams when quire `h` has left stream `n` (R263). -/
def Gallery.leave (g : Gallery) (n h : Nat) : Gallery :=
  match g.streams.find n with
  | none => g
  | some x => g.putStream n { x with subs := x.subs.filter (·.1 != h) }

/-- A stream without subscribers closes; otherwise the others keep theirs (R263). -/
theorem Gallery.leave_subs {g : Gallery} {n h : Nat} {x : Stream} (hx : g.streams.find n = some x) :
    ((g.leave n h).streams.find n).map (·.subs) =
      let others := x.subs.filter fun y => y.1 ≠ h
      if others = [] then none else some others := by
  have same : (x.subs.filter fun y => y.1 != h) = x.subs.filter fun y => y.1 ≠ h :=
    List.filter_congr fun y _ => by rw [Bool.eq_iff_iff]; simp
  unfold Gallery.leave Gallery.putStream
  rw [hx]
  dsimp only
  rw [same]
  cases x.subs.filter fun y => y.1 ≠ h with
  | nil => simp
  | cons y ys => simp

section
variable {s : State} {e : Env} {w : FE}

theorem unsubscribe_none (L : Live s e) (h : e.q.sub = none) : s.unsubscribe e.r.h = s := by
  unfold State.unsubscribe
  rw [L.find]
  dsimp only
  rw [h]
theorem unsubscribe_some (L : Live s e) {n m : Nat} (h : e.q.sub = some (n, m)) :
    s.unsubscribe e.r.h = (s.modGallery (galleryOf e.q.core) (·.leave n e.r.h)).modQuire e.r.h (Quire.resub fun _ => none) := by
  unfold State.unsubscribe
  rw [L.find]
  dsimp only
  rw [h]
  rfl

/-- The state in which an `mx.unsub` has entered the core's operations, of which those of `gone` have gone. -/
def State.unsubEnter (s : State) (e : Env) (gone : List (MxOp × Nat)) : State :=
  (({ s with next := s.next + 1 } : State).modCore e.q.core fun c => { c with mx := c.mx ++ [mxOp s e 0 .unsub] }).modCore e.q.core
    fun c => { c with mx := c.mx.filter fun o => !gone.any fun d => d.1.id == o.id }

theorem Live.unsubEnter (L : Live s e) (gone : List (MxOp × Nat)) : Live (s.unsubEnter e gone) e := L

theorem State.unsubEnter_core (s : State) (e : Env) (gone : List (MxOp × Nat)) : (s.unsubEnter e gone).core e.q.core =
    { s.core e.q.core with
      mx := ((s.core e.q.core).mx ++ [mxOp s e 0 .unsub]).filter fun o => !gone.any fun d => d.1.id == o.id } := by
  rw [State.unsubEnter, State.core_modCore, State.core_modCore]
  rfl

theorem exec_mxUnsub (L : Live s e) (others : ∀ o ∈ (s.core e.q.core).mx, o.kind ≠ .unsub) :
    let due := if (s.core e.q.core).mx.any (·.isBs e.r.h) then [] else [(mxOp s e 0 .unsub, (s.core e.q.core).mx.length)]
    exec (.mxUnsub w) s = .next ((due.foldl (fun s d => s.unsubscribe d.1.ref.h) (s.unsubEnter e due)).advance e) := by
  intro due
  refine issue_ends (eff := .done _) L (congrArg Eff.done (State.settleUnsubs_eq _ _ ?_))
  refine (congrArg (fun c : Core => dueUnsubs c.mx) (Tab.get_put_self _ _ _ _)).trans ?_
  exact dueUnsubs_last (o := mxOp s e 0 .unsub) rfl others

/-- An `mx.unsub` behind a BS operation of its quire stands in the engine queue (R263). -/
theorem mxUnsub_held (L : Live s e) (others : ∀ o ∈ (s.core e.q.core).mx, o.kind ≠ .unsub)
    (held : (s.core e.q.core).mx.any (·.isBs e.r.h) = true) :
    Answers (exec (.mxUnsub w) s) fun t => t.next = s.next + 1 ∧ Own s t e (fun q => { q with sub := none }) id [] (past s e) ∧
      Engaged s t e [mxOp s e 0 .unsub] [] [] ∧ (t.quires.find e.r.h).map (·.sub) = some e.q.sub := by
  have run := exec_mxUnsub (w := w) L others
  simp only [held, if_true, List.foldl_nil] at run
  have Q : Queued s (s.unsubEnter e []) e (mxOp s e 0 .unsub) [] := {
    module := rfl
    next := rfl
    bytes := State.readByte_windows rfl rfl rfl rfl
    cores := fun _ hn => (Tab.get_put_other _ _ _ hn).trans (Tab.get_put_other _ _ _ hn)
    core := by
      rw [State.unsubEnter_core]
      simp }
  have A := acts_none (L.unsubEnter [])
  have engaged := Q.engaged A
  obtain ⟨C, next, -⟩ := A
  obtain ⟨own, sub⟩ := own_forget_sub (C.own (s := s) rfl rfl)
  exact ⟨_, run, next, own, engaged, sub⟩

/-- An `mx.unsub` that is due has left the core's operations as they were. -/
theorem State.unsubEnter_due (earlier : ∀ o ∈ (s.core e.q.core).mx, o.id < s.next) (n : Nat) :
    ((s.unsubEnter e [(mxOp s e 0 .unsub, n)]).core e.q.core).mx = (s.core e.q.core).mx := by
  rw [State.unsubEnter_core, List.filter_append, List.filter_eq_self.2]
  · simp
  · intro o ho
    have := earlier o ho
    simp only [mxOp, List.any_cons, List.any_nil, Bool.or_false, Bool.not_eq_true', beq_eq_false_iff_ne]
    omega

/-- An `mx.unsub` with no BS operation of its quire before it takes effect at once (R263). -/
theorem mxUnsub_due (L : Live s e) (others : ∀ o ∈ (s.core e.q.core).mx, o.kind ≠ .unsub)
    (earlier : ∀ o ∈ (s.core e.q.core).mx, o.id < s.next) (clear : (s.core e.q.core).mx.any (·.isBs e.r.h) = false) :
    Answers (exec (.mxUnsub w) s) fun t => t.next = s.next + 1 ∧ Own s t e (fun q => { q with sub := none }) id [] (past s e) ∧
      (t.quires.find e.r.h).map (·.sub) = some none ∧ (t.core e.q.core).mx = (s.core e.q.core).mx ∧
        ∀ n m, e.q.sub = some (n, m) → t.gallery (galleryOf e.q.core) = (s.gallery (galleryOf e.q.core)).leave n e.r.h := by
  have run := exec_mxUnsub (w := w) L others
  simp only [clear, Bool.false_eq_true, if_false, List.foldl_cons, List.foldl_nil] at run
  let u := s.unsubEnter e [(mxOp s e 0 .unsub, (s.core e.q.core).mx.length)]
  have L' : Live u e := L
  have mx : (u.core e.q.core).mx = (s.core e.q.core).mx := State.unsubEnter_due earlier _
  cases h : e.q.sub with
  | none =>
    obtain ⟨C, next, -⟩ := acts_none L'
    obtain ⟨own, sub⟩ := own_forget_sub (C.own (s := s) rfl rfl)
    exact ⟨_, run.trans (congrArg (fun u : State => Host.Outcome.next (u.advance e)) (unsubscribe_none L' h)), next, own,
      sub.trans (by rw [h]), (congrArg Core.mx (C.cores e.q.core) :).trans mx, nofun⟩
  | some x =>
    obtain ⟨n, m⟩ := x
    have L'' : Live (u.modGallery (galleryOf e.q.core) (·.leave n e.r.h)) e := L
    obtain ⟨C, next, -⟩ := acts_none (L''.resub fun _ => none)
    obtain ⟨own, sub⟩ := C.own_resub (s := s) (fun _ => none) rfl rfl
    refine ⟨_, run.trans (congrArg (fun u : State => Host.Outcome.next (u.advance e)) (unsubscribe_some L' h)), next, own, sub,
      (congrArg Core.mx (C.cores e.q.core) :).trans mx, fun k j hk => ?_⟩
    cases hk
    exact (C.gallery _).trans (Tab.get_put_self _ _ _ _)

end

/-- Settles O43: `mxFence_acts`, `mxWait_complete`, `mxWait_waits` and `mxStat_acts` for batches, `mxSub_refuses` and `mxSub_joins` by
what the siphon answers, `mxUnsub_held` and `mxUnsub_due`. -/
theorem matrixControl : Obligations.MatrixControl := by
  intro w s e L c complete n next
  refine ⟨fun done hd => ?_, fun b => ?_, fun x tile flag hx => ?_, ?_, fun bs hmx hbs => ?_⟩
  · have same : done = c.batchDone e.r n := by rw [Bool.eq_iff_iff, hd, batchDone_iff]
    subst same
    exact mxFence_acts L
  · intro n zero open_ age found
    exact ⟨fun h => mxWait_complete rfl open_ zero age found L ((batchDone_iff _ _ _).2 h),
      fun h => mxWait_waits rfl open_ zero age found L fun done => h ((batchDone_iff _ _ _).1 done)⟩
  · subst hx
    have stat := mxStat_acts L tile flag
    rw [Core.mxQueue_eq] at stat
    exact stat
  · intro base stride total window streams named same refuses joins free total1 totalTop window1 windowTop canon place align
    have R : MxSubReady e w := ⟨free, ⟨total1, totalTop⟩, ⟨window1, windowTop⟩, canon, place, align⟩
    refine ⟨fun k x hx => ?_, fun hn full => ?_, fun k hk hn hfree below => ?_⟩
    · have found := siphon_named (s := s) (e := e) (w := w) hx
      exact ⟨fun h => mxSub_refuses L R (found.trans (if_pos h)),
        fun h late => mxSub_refuses L R (found.trans ((if_neg (not_not.2 h)).trans (if_pos late))),
        fun h kept => mxSub_joins L R (found.trans ((if_neg (not_not.2 h)).trans (if_neg (not_not.2 kept))))⟩
    · exact mxSub_refuses L R (siphon_full (List.find?_eq_none.2 fun y hy => mt eq_of_beq (hn y hy)) full)
    · exact mxSub_joins L R (siphon_opens (List.find?_eq_none.2 fun y hy => mt eq_of_beq (hn y hy)) hk hfree below)
  · have same : bs = c.mx.any (·.isBs e.r.h) := by rw [Bool.eq_iff_iff, hbs, any_isBs_iff]
    cases bs with
    | true => exact mxUnsub_held L (fun o ho => (hmx o ho).1) same.symm
    | false =>
      obtain ⟨t, ht, next, own, sub, mx, left⟩ := mxUnsub_due (w := w) L (fun o ho => (hmx o ho).1) (fun o ho => (hmx o ho).2) same.symm
      refine ⟨t, ht, next, own, sub, mx, fun k m x hk hx => ?_⟩
      rw [show t.gallery (e.q.core / 20) = _ from left k m hk]
      exact Gallery.leave_subs hx

end Sys2Proof.Machine
end
